-- ==== Sys2Proof/Word.lean ====
section
/-! DEFINITION. The word types of the PL-7240 (R7, R8, R68): bytes, 32-bit registers, 64-bit pairs, lane masks.
Little-endian everywhere (R4). Only the types and their plainest arithmetic stand here; every helper that a test
could show wrong is in the files of Machine/ and in Decode. -/

namespace Sys2Proof

/-- One byte of memory. -/
abbrev Byte := BitVec 8
/-- The value of one vector (per lane), scalar or d register (R7). -/
abbrev Word := BitVec 32
/-- The value of a register pair, a virtual address as an instruction forms it, a 64-bit register (R8). -/
abbrev DWord := BitVec 64
/-- A set of lanes of one wave: bit l is lane l (R5). -/
abbrev Mask := BitVec 32
/-- A program counter: a 57-bit virtual address (R31). -/
abbrev Va := BitVec 57

end Sys2Proof
end

