-- ==== Sys2Proof/Syntax.lean ====
section
/-! DEFINITION. The instructions and steps of the part: one constructor of `Instr` per row of spec/opcode_table.json.
The operand types say what an encoding of *Instruction formats and the opcode map* names once it is decoded. -/

namespace Sys2Proof

/-! ## Operands -/

/-- The guard (R159, R160): the predicate named, and whether it is negated. -/
structure Guard where
  pred : BitVec 4
  neg  : Bool
deriving DecidableEq, Repr

/-- What every core instruction carries beside its operands: guard and run-boundary flag (R159). -/
structure Ctl where
  guard : Guard
  rbf   : Bool
deriving DecidableEq, Repr

/-- A vector source field: a register or a bypass latch (R162). Under a 64-bit operand, a pair base (R163). -/
inductive Src where
  | reg   (n : BitVec 8)
  | latch (t : BitVec 2)
deriving DecidableEq, Repr

/-- A scalar register number s0-s127; on a transfer processor d0-d31 (R7, R204). -/
abbrev SReg := BitVec 7
/-- A d register number of a transfer processor (R304). -/
abbrev DReg := BitVec 5

/-- The second source of a vector form: per lane, or one scalar under bs = 1 (R203). -/
inductive BSrc where
  | vec  (s : Src)
  | scal (n : SReg)
deriving DecidableEq, Repr

/-- A per-lane destination (R164): the register (none under wbs = 1) and the latch (none under le = 0). -/
structure Dst where
  reg   : Option (BitVec 8)
  latch : Option (BitVec 2)
deriving DecidableEq, Repr

/-- One general source (R203). -/
inductive Gen1 where
  | vec  (uni : Bool) (d : Dst) (a : Src)
  | scal (d a : SReg)
deriving DecidableEq, Repr

/-- Two general sources (R203). -/
inductive Gen2 where
  | vec  (uni : Bool) (d : Dst) (a : Src) (b : BSrc)
  | scal (d a b : SReg)
deriving DecidableEq, Repr

/-- Three general sources (R203). -/
inductive Gen3 where
  | vec  (uni : Bool) (d : Dst) (a : Src) (b : BSrc) (c : Src)
  | scal (d a b c : SReg)
deriving DecidableEq, Repr

/-- The source of `mov`, which stands in opb (R232). -/
inductive GenM where
  | vec  (uni : Bool) (d : Dst) (b : BSrc)
  | scal (d b : SReg)
deriving DecidableEq, Repr

/-- A destination without a general source (`movi`, R232). -/
inductive Gen0 where
  | vec  (uni : Bool) (d : Dst)
  | scal (d : SReg)
deriving DecidableEq, Repr

/-- Two compared operands without a destination (`bcmp`, `icmp`). -/
inductive Cmp2 where
  | vec  (a : Src) (b : BSrc)
  | scal (a b : SReg)
deriving DecidableEq, Repr

/-- One operand: vector or latch, or scalar (`icmpi`, `brx`, the index of `btab`). -/
inductive Cmp1 where
  | vec  (a : Src)
  | scal (a : SReg)
deriving DecidableEq, Repr

/-- A register that is read and written in place (`dbnz`, R211). -/
inductive GReg where
  | v (n : BitVec 8)
  | s (n : SReg)
deriving DecidableEq, Repr

/-! ## Codes -/

/-- The integer conditions (R229). -/
inductive ICond where
  | eq | ne | lt | le | gt | ge | ltu | leu | gtu | geu
deriving DecidableEq, Repr

/-- The operations of `plop` (R231). -/
inductive POp where
  | and | or | xor | andn
deriving DecidableEq, Repr

/-- Rounding modes (R144, R167). -/
inductive RMode where
  | rn | rz | ru | rd | sr
deriving DecidableEq, Repr

/-- The formats of floating-point arithmetic (R237). -/
inductive FFmt where
  | f32 | f64 | f16 | bf16
deriving DecidableEq, Repr

/-- The floating-point conditions (R244). -/
inductive FCond where
  | eq | ne | lt | le | gt | ge
deriving DecidableEq, Repr

/-- The types of `cvt` (R247). -/
inductive CTy where
  | f64 | f32 | f16 | bf16 | e5m2 | e4m3 | i32 | u32 | i64 | u64
deriving DecidableEq, Repr

/-- How many results `cvt` packs (R246). -/
inductive CCnt where
  | x1 | x2 | x4
deriving DecidableEq, Repr

/-- The modes of `shfl` (R253). -/
inductive ShflMode where
  | idx | up | down | xor
deriving DecidableEq, Repr

/-- The operations of `vote` (R254). -/
inductive VoteOp where
  | any | all | ballot | eq
deriving DecidableEq, Repr

/-- The operations of `lred` and `lscan` (R252). -/
inductive LaneOp where
  | add | min | max | and | or | xor
deriving DecidableEq, Repr

/-- The types of `lred` and `lscan` (R252). -/
inductive LaneTy where
  | u32 | s32 | f32 | u64 | s64 | f64
deriving DecidableEq, Repr

/-- Scopes (R10). -/
inductive Scope where
  | wv | co | sr | cl | di | dv | pd | sy
deriving DecidableEq, Repr

/-- Orderings (R11). -/
inductive Ord where
  | rlx | acq | rel | ar
deriving DecidableEq, Repr

/-- The memory fields of format M beside the offset (R168). -/
structure MAttr where
  ord   : Ord
  scope : Scope
  evict : BitVec 3
deriving DecidableEq, Repr

/-- Access sizes of loads (R259). -/
inductive Sz where
  | b8 | b8s | b16 | b16s | b32 | b64
deriving DecidableEq, Repr

/-- Access sizes of stores (R259). -/
inductive StSz where
  | b8 | b16 | b32 | b64
deriving DecidableEq, Repr

/-- The base of a global address: per lane, or a scalar pair under sb = 1 (R259). -/
inductive ABase where
  | vec  (s : Src)
  | scal (n : SReg)
deriving DecidableEq, Repr

/-- The operands of `ld` (R263). -/
inductive LdOps where
  | vec  (uni : Bool) (d : Dst) (base : ABase) (idx : Option Src)
  | scal (d base : SReg)
deriving DecidableEq, Repr

/-- The operands of `st` and `st.cr` (R264). -/
inductive StOps where
  | vec  (uni : Bool) (base : ABase) (idx : Option Src) (data : Src)
  | scal (base data : SReg)
deriving DecidableEq, Repr

/-- The operations of `atom` (R267). -/
inductive AtomOp where
  | xchg | add | sub | and | or | xor | min | max | umin | umax | fadd | fmin | fmax | cas
deriving DecidableEq, Repr

/-- The operations of a commutative range (R93). -/
inductive CrOp where
  | addf32 | addf64 | addi32 | addi64 | maxf32 | minf32
deriving DecidableEq, Repr

/-- The formats of `vupd` (R271). -/
inductive VFmt where
  | f32 | bf16 | f16
deriving DecidableEq, Repr

/-- Operand kinds of copies: global, local scratchpad, cluster-remote scratchpad (R277). -/
inductive MKind where
  | g | l | c
deriving DecidableEq, Repr

/-- The formats of `mma` (R284). -/
inductive MmaFmt where
  | f64 | f32 | bf16 | f16 | e4m3 | e5m2 | b8e4m3 | b6e3m2 | b6e2m3 | b4e2m1 | p2
deriving DecidableEq, Repr

/-- The B offset of `mma`: a scalar in the wave form, per quarter in the quarter form (R288). -/
inductive MmaB where
  | wave    (n : SReg)
  | quarter (s : Src)
deriving DecidableEq, Repr

/-- The kinds of `mgat` and `mldt` (R293). -/
inductive GKind where
  | w | b8 | b6 | b4
deriving DecidableEq, Repr

/-- The destination formats of `mst` (R295). -/
inductive MstFmt where
  | f64 | f32 | bf16 | f16 | e5m2 | e4m3 | b8e4m3 | b6e3m2 | b6e2m3 | b4e2m1
deriving DecidableEq, Repr

/-! ## What the events of the part's other agents carry -/

/-- Whether a grant or an admission spills or fills the context image (R50, R377). -/
inductive ImageUse where
  | keep | spill | fill
deriving DecidableEq, Repr

/-- The kind of a remote access (R282). -/
inductive RemKind where
  | load | store | atomic | contrib | packet
deriving DecidableEq, Repr

/-- The operations of the collective engines (R351). -/
inductive CollOp where
  | red | a2a | bcast | bar
deriving DecidableEq, Repr

/-- What the collective engines and `pstep` of a device tell another member of a communicator (R395 to R401), with the sender's rank: a
contribution or part of a step, the result of a step, a published step. -/
inductive EngMsg where
  | part (comm rank : Nat) (op : CollOp) (step : Nat) (data : List Word)
  | result (comm step st cnt late : Nat) (data : List Word)
  | publish (comm rank step : Nat)
deriving DecidableEq, Repr

/-- What an access that arrives from a peer asks for (R387); a message of the engines travels in the same way (R395). -/
inductive RemReq where
  | load    (size : Nat)
  | store   (size : Nat) (data : DWord)
  | sector  (mask : BitVec 32) (bytes : List Byte)
  | atomic  (op : AtomOp) (w : Bool) (b c : DWord)
  | contrib (w : Bool) (data : DWord)
  | ropCas  (cmp new : List DWord)
  | ropEnq  (node : DWord)
  | ropChase (hops : Nat) (off : Nat)
  | engine (m : EngMsg)
deriving DecidableEq, Repr

/-- One access of a flow as it travels (R385, R387): the sender and its flow (a number of the sender's), the delivery, the target
slot, the sequence number, the physical address, whether it is a release, the last number before it that has the same sector and
may not have been performed, from which the target knows the order of a sector (DEDUCED, log entry 43), and the port at this device that it
passes (R391). -/
structure RemPkt where
  dev   : Nat
  flow  : Nat
  ord   : Bool
  tslot : Nat
  seq   : Nat
  pa    : Nat
  rel   : Bool
  req   : RemReq
  prev  : Option Nat
  port  : Nat
deriving DecidableEq, Repr

/-- A speculative access (R102): its address, and whether it is that of a store or of a fetch. -/
structure SpecAcc where
  va    : DWord
  write : Bool
  fetch : Bool
deriving DecidableEq, Repr

/-- The answer to an access of an outgoing flow (R386, R388). -/
inductive RemAns where
  | done (data : List DWord)
  | refused
deriving DecidableEq, Repr

/-- How a start ended (R416, R417). -/
inductive StartEnd where
  | ok (portsDown : List Nat)
  | failed (stage cause die : Nat)
deriving DecidableEq, Repr

/-! ## Instructions and steps -/

/-- One constructor per row of spec/opcode_table.json. The first group are instructions that a wave or a transfer
processor fetches; the second group, from `runGrant` on, are steps of the part's other agents and inputs from
outside. The docstring of a meaning (Machine/…) cites the rule it follows. -/
inductive Instr where
  -- control and reconvergence (R206)
  | nop (len : BitVec 2) (rbf : Bool)
  | hint (len : BitVec 2) (rbf : Bool) (rest : BitVec 125)
  | br (c : Ctl) (off : Word)
  | bcmp (c : Ctl) (cond : ICond) (w : Bool) (o : Cmp2) (off : Word)
  | dbnz (c : Ctl) (w : Bool) (r : GReg) (off : Word)
  | brx (c : Ctl) (t : Cmp1)
  | ret (c : Ctl) (t : Cmp1)
  | btab (c : Ctl) (base : SReg) (idx : Cmp1) (n : Word)
  | call (c : Ctl) (link : BitVec 8) (off : Word)
  | callx (c : Ctl) (link : BitVec 8) (t : Src)
  | rcvArm (c : Ctl) (rb : BitVec 3)
  | rcvJoin (c : Ctl) (rb : BitVec 3)
  | rcvDrop (c : Ctl) (rb : BitVec 3)
  | brk (c : Ctl) (code : BitVec 18)
  -- integer, address and bit (R206)
  | add (c : Ctl) (w : Bool) (o : Gen2)
  | sub (c : Ctl) (w : Bool) (o : Gen2)
  | mul (c : Ctl) (w : Bool) (o : Gen2)
  | mulh (c : Ctl) (s w : Bool) (o : Gen2)
  | mad (c : Ctl) (w : Bool) (o : Gen3)
  | div (c : Ctl) (s w : Bool) (o : Gen2)
  | rem (c : Ctl) (s w : Bool) (o : Gen2)
  | min (c : Ctl) (s w : Bool) (o : Gen2)
  | max (c : Ctl) (s w : Bool) (o : Gen2)
  | adds (c : Ctl) (s w : Bool) (o : Gen2)
  | subs (c : Ctl) (s w : Bool) (o : Gen2)
  | abs (c : Ctl) (w : Bool) (o : Gen1)
  | addi (c : Ctl) (w : Bool) (o : Gen1) (imm : BitVec 18)
  | and (c : Ctl) (w : Bool) (o : Gen2)
  | or (c : Ctl) (w : Bool) (o : Gen2)
  | xor (c : Ctl) (w : Bool) (o : Gen2)
  | andn (c : Ctl) (w : Bool) (o : Gen2)
  | andi (c : Ctl) (w : Bool) (o : Gen1) (imm : BitVec 18)
  | ori (c : Ctl) (w : Bool) (o : Gen1) (imm : BitVec 18)
  | xori (c : Ctl) (w : Bool) (o : Gen1) (imm : BitVec 18)
  | shl (c : Ctl) (w : Bool) (o : Gen2)
  | shr (c : Ctl) (w : Bool) (o : Gen2)
  | sra (c : Ctl) (w : Bool) (o : Gen2)
  | rol (c : Ctl) (w : Bool) (o : Gen2)
  | ror (c : Ctl) (w : Bool) (o : Gen2)
  | shli (c : Ctl) (w : Bool) (o : Gen1) (n : BitVec 18)
  | shri (c : Ctl) (w : Bool) (o : Gen1) (n : BitVec 18)
  | srai (c : Ctl) (w : Bool) (o : Gen1) (n : BitVec 18)
  | roli (c : Ctl) (w : Bool) (o : Gen1) (n : BitVec 18)
  | rori (c : Ctl) (w : Bool) (o : Gen1) (n : BitVec 18)
  | bfe (c : Ctl) (s w : Bool) (o : Gen1) (pos : BitVec 6) (len : BitVec 7)
  | bfi (c : Ctl) (w : Bool) (o : Gen2) (pos : BitVec 6) (len : BitVec 7)
  | popc (c : Ctl) (w : Bool) (o : Gen1)
  | clz (c : Ctl) (w : Bool) (o : Gen1)
  | ctz (c : Ctl) (w : Bool) (o : Gen1)
  | brev (c : Ctl) (w : Bool) (o : Gen1)
  | bswap (c : Ctl) (w : Bool) (o : Gen1)
  | clmul (c : Ctl) (w : Bool) (o : Gen2)
  | clmulh (c : Ctl) (w : Bool) (o : Gen2)
  | pxor (c : Ctl) (w : Bool) (o : Gen1)
  | pdep (c : Ctl) (w : Bool) (o : Gen2)
  | pext (c : Ctl) (w : Bool) (o : Gen2)
  | icmp (c : Ctl) (cond : ICond) (w : Bool) (p : BitVec 4) (o : Cmp2)
  | icmpi (c : Ctl) (cond : ICond) (w : Bool) (p : BitVec 4) (a : Cmp1) (imm : BitVec 18)
  | isel (c : Ctl) (w uni : Bool) (d : Dst) (a : Src) (b : BSrc) (p : BitVec 4)
  | plop (c : Ctl) (op : POp) (pd pa pb : BitVec 4)
  | mov (c : Ctl) (w : Bool) (o : GenM)
  | movi (c : Ctl) (s w : Bool) (o : Gen0) (imm : Word)
  | lea (c : Ctl) (u : Bool) (sh : BitVec 3) (o : Gen2) (imm : Word)
  | lane (c : Ctl) (d : Dst)
  -- floating point, conversion and lanes (R236)
  | fadd (c : Ctl) (uni : Bool) (fmt : FFmt) (rm : RMode) (d : Dst) (a : Src) (b : BSrc)
  | fsub (c : Ctl) (uni : Bool) (fmt : FFmt) (rm : RMode) (d : Dst) (a : Src) (b : BSrc)
  | fmul (c : Ctl) (uni : Bool) (fmt : FFmt) (rm : RMode) (d : Dst) (a : Src) (b : BSrc)
  | fdiv (c : Ctl) (uni : Bool) (fmt : FFmt) (rm : RMode) (d : Dst) (a : Src) (b : BSrc)
  | fsqrt (c : Ctl) (uni : Bool) (fmt : FFmt) (rm : RMode) (d : Dst) (a : Src)
  | ffma (c : Ctl) (uni : Bool) (fmt : FFmt) (rm : RMode) (d : Dst) (a : Src) (b : BSrc) (e : Src)
  | ffms (c : Ctl) (uni : Bool) (fmt : FFmt) (rm : RMode) (d : Dst) (a : Src) (b : BSrc) (e : Src)
  | fnma (c : Ctl) (uni : Bool) (fmt : FFmt) (rm : RMode) (d : Dst) (a : Src) (b : BSrc) (e : Src)
  | fmin (c : Ctl) (uni : Bool) (fmt : FFmt) (d : Dst) (a : Src) (b : BSrc)
  | fmax (c : Ctl) (uni : Bool) (fmt : FFmt) (d : Dst) (a : Src) (b : BSrc)
  | fabs (c : Ctl) (uni : Bool) (fmt : FFmt) (d : Dst) (a : Src)
  | fneg (c : Ctl) (uni : Bool) (fmt : FFmt) (d : Dst) (a : Src)
  | fsgn (c : Ctl) (uni : Bool) (fmt : FFmt) (d : Dst) (a : Src) (b : BSrc)
  | frcp (c : Ctl) (uni : Bool) (fmt : FFmt) (d : Dst) (a : Src)
  | frsq (c : Ctl) (uni : Bool) (fmt : FFmt) (d : Dst) (a : Src)
  | fcmp (c : Ctl) (cond : FCond) (f64 : Bool) (p : BitVec 4) (a : Src) (b : BSrc)
  | fclass (c : Ctl) (uni : Bool) (fmt : FFmt) (d : Dst) (a : Src)
  | cvt (c : Ctl) (uni : Bool) (dty sty : CTy) (sel : BitVec 2) (cnt : CCnt) (rm : RMode) (sat : Bool)
      (d : Dst) (a b e f : Src) (ei : Src) (sb : SReg)
  | rng (c : Ctl) (uni : Bool) (wsel : BitVec 2) (d : Dst) (e : Src) (j : BSrc) (sb : SReg)
  | shfl (c : Ctl) (mode : ShflMode) (d : Dst) (a : Src) (b : BSrc)
  | vote (c : Ctl) (op : VoteOp) (d : Dst) (p : BitVec 4)
  | lred (c : Ctl) (op : LaneOp) (ty : LaneTy) (d : Dst) (a : Src)
  | lscan (c : Ctl) (op : LaneOp) (ty : LaneTy) (x : Bool) (d : Dst) (a : Src)
  -- memory, atomics and copies (R258)
  | ld (c : Ctl) (sz : Sz) (m : MAttr) (o : LdOps) (off : BitVec 24)
  | st (c : Ctl) (sz : StSz) (m : MAttr) (o : StOps) (off : BitVec 24)
  | stCr (c : Ctl) (w : Bool) (m : MAttr) (o : StOps) (off : BitVec 24)
  | lds (c : Ctl) (uni : Bool) (sz : Sz) (pclr : Bool) (m : MAttr) (d : Dst) (a : Src) (off : BitVec 24)
  | sts (c : Ctl) (uni : Bool) (sz : StSz) (pset : Bool) (m : MAttr) (a : Src) (data : Src) (off : BitVec 24)
  | ldc (c : Ctl) (uni : Bool) (sz : Sz) (pclr : Bool) (m : MAttr) (d : Dst) (a : Src) (core : BSrc) (off : BitVec 24)
  | stc (c : Ctl) (uni : Bool) (sz : StSz) (pset : Bool) (m : MAttr) (a : Src) (core : BSrc) (data : Src)
      (off : BitVec 24)
  | ldv (c : Ctl) (uni : Bool) (sz : Sz) (m : MAttr) (d : Dst) (base : ABase) (sM sC : SReg) (off : BitVec 24)
  | vupd (c : Ctl) (add : Bool) (fmt : VFmt) (rm : RMode) (m : MAttr) (d sB sS sP : SReg)
  | vstepRd (c : Ctl) (m : MAttr) (d sB : SReg)
  | vstepSet (c : Ctl) (m : MAttr) (sB sU : SReg)
  | atom (c : Ctl) (uni : Bool) (op : AtomOp) (w : Bool) (m : MAttr) (d : Dst) (base : ABase) (b e : Src)
      (off : BitVec 24)
  | mwait (c : Ctl) (w : Bool) (m : MAttr) (d sA sE sT : SReg) (off : BitVec 24)
  | fence (c : Ctl) (strict : Bool) (ord : Ord) (scope : Scope) (p : BitVec 4)
  | seal (c : Ctl) (m : MAttr) (sB sL : SReg)
  | unseal (c : Ctl) (m : MAttr) (sB sL : SReg)
  | crdecl (c : Ctl) (op : CrOp) (m : MAttr) (sB sL : SReg)
  | crflush (c : Ctl) (fin : Bool) (m : MAttr) (sB : SReg)
  | prefetch (c : Ctl) (uni home : Bool) (evict : BitVec 3) (base : ABase) (idx : Option Src) (off : BitVec 24)
  | cpy (c : Ctl) (sk dk : MKind) (q : BitVec 3) (sS sD sL : SReg)
  | cseal (c : Ctl)
  | cwait (c : Ctl) (n : BitVec 4) (p : BitVec 4)
  | ropCas (c : Ctl) (m : MAttr) (n : BitVec 2) (d sA sB sC : SReg) (off : BitVec 24)
  | ropEnq (c : Ctl) (m : MAttr) (d sA sB : SReg) (off : BitVec 24)
  | ropChase (c : Ctl) (m : MAttr) (d sA sH : SReg) (off : BitVec 24)
  | flq (c : Ctl) (clr : Bool) (d sI : SReg)
  -- matrix (R287)
  | mma (c : Ctl) (fmt : MmaFmt) (sf : Bool) (vC : BitVec 5) (b : MmaB) (bsw : BitVec 13) (aoq : BitVec 3)
      (vA vB : Src) (asel bsel : BitVec 8)
  | mgat (c : Ctl) (kind : GKind) (d : Dst) (vI : Src) (sB sR : SReg) (n : BitVec 6) (ro : BitVec 3)
  | mldt (c : Ctl) (kind : GKind) (d : Dst) (vI : Src) (sP : SReg) (n : BitVec 6) (ro : BitVec 3)
  | mst (c : Ctl) (dfmt : MstFmt) (sf64 sq : Bool) (rm : RMode) (sat pset : Bool) (sB : SReg) (vI : Src)
      (sR : SReg) (vC : BitVec 5) (cnt : BitVec 2) (ve : Src) (sb : SReg)
  | mzero (c : Ctl) (uni w : Bool) (cnt : BitVec 2) (vC : BitVec 5)
  | tred (c : Ctl) (w pset : Bool) (sS sO sL sD : SReg)
  | msf (c : Ctl) (vS : Src)
  -- transfer processor (R316)
  | xloop (n : DReg) (e : BitVec 18)
  | tadr (d t k : DReg)
  | tin (d t k : DReg)
  | tinc (d t k : DReg)
  | lidx (w : Bool) (d a : DReg) (e : BitVec 18)
  | xfer (sk dk : MKind) (s d l : DReg)
  | xferG (sk dk : MKind) (s d i r : DReg) (rb : BitVec 16) (n : BitVec 10)
  | xferT (sk dk : MKind) (t d : DReg)
  | cgen (a : DReg)
  | xwait (d : DReg)
  | cba (c : Ctl) (cb : BitVec 4) (k : BitVec 18)
  | cbw (c : Ctl) (cb : BitVec 4) (k : BitVec 18)
  | cbset (c : Ctl) (cb : BitVec 4) (k : BitVec 18)
  | chain (x : Bool) (h : DReg)
  | xhalt
  -- tasks, synchronisation and system (R336)
  | exit (c : Ctl) (n : BitVec 3) (sB : SReg)
  | wbar (c : Ctl)
  | sbar (c : Ctl) (sS : SReg)
  | rclaim (c : Ctl) (n : BitVec 18)
  | rrel (c : Ctl) (n : BitVec 18)
  | aset (c : Ctl) (sB sL sI : SReg)
  | asetDel (c : Ctl) (sI : SReg)
  | age (c : Ctl) (sD : SReg)
  | ageLt (c : Ctl) (p : BitVec 4) (sA : SReg)
  | yield (c : Ctl)
  | collRed (c : Ctl) (q : BitVec 4) (sP : SReg)
  | collA2a (c : Ctl) (q : BitVec 4) (sP : SReg)
  | collBcast (c : Ctl) (q : BitVec 4) (sP : SReg)
  | collBar (c : Ctl) (q : BitVec 4) (sP : SReg)
  | collRes (c : Ctl) (sD : SReg) (q : BitVec 4)
  | pstep (c : Ctl) (sS sC : SReg)
  | trap (c : Ctl) (code : BitVec 18)
  | rftNext (c : Ctl) (wr : Option (BitVec 8 × Src))
  | rftAgain (c : Ctl) (wr : Option (BitVec 8 × Src))
  | rftEnd (c : Ctl) (wr : Option (BitVec 8 × Src))
  | csrr (c : Ctl) (sD : SReg) (num : BitVec 18)
  | csrw (c : Ctl) (num : BitVec 18) (sA : SReg)
  | csrwXpChan (c : Ctl) (x : Bool) (sA : SReg)
  | csrwFltTail (c : Ctl) (sA : SReg)
  | csrwDbgCtl (c : Ctl) (sA : SReg)
  | gen (c : Ctl) (sD : SReg)
  -- scheduling, admission and distribution (03)
  | runGrant (core sched : Nat) (image : ImageUse)
  | distributorPlace
  | gangReserve
  | gangRelease
  | coreAdmit (core : Nat) (image : ImageUse)
  | stealAttempt (core : Nat)
  | rclaimServe (core : Nat)
  | claimDeadlock (core : Nat)
  -- coherence and waits (05, 15)
  | homeTokenRequest (core line : Nat) (write ok : Bool)
  | persistentRequest (line : Nat)
  | ldvStalenessTimeout (core slot : Nat)
  | mwaitTimeout (core slot : Nat)
  -- copies, transfer engines and chain walks (15, 18)
  | copyComplete (core id : Nat)
  | xpEngineTurn (core x bytes : Nat)
  | programTransferComplete (core x id : Nat)
  | chainWalkStart (core x : Nat)
  | recCopy (core x : Nat)
  | recLoadImage (core x : Nat)
  | recStartProgram (core x : Nat)
  | recArriveOnly (core x : Nat)
  | recOffloadOut (core x : Nat)
  | recOffloadIn (core x : Nat)
  | recBad (core x : Nat)
  | offloadOutComplete (core x : Nat)
  | offloadInComplete (core x : Nat)
  | tredComplete (core slot : Nat)
  -- traps (23)
  | sideLogReplay (core idx : Nat)
  | faultRecordWrite (slot : Nat)
  | resolutionObserved (core rec : Nat)
  | handlerWaveForm (core : Nat)
  | poisonSector (pa : Nat)
  | coreDisable (core : Nat)
  -- fabric (25)
  | remoteAccessReceive (p : RemPkt)
  | flowAck (flow seq : Nat) (ans : RemAns)
  | flowRetransmit (flow seq port : Nat)
  | flowTimeout (flow seq : Nat)
  | linkRetrain (port : Nat)
  | retrainBound (port : Nat) (up : Bool)
  | flitTagFail (port : Nat) (dir : Bool)
  | linkRekey (port : Nat) (dir : Bool)
  | engineChunk (die : Nat)
  | contributionArrival (comm rank step : Nat) (data : List Word)
  | closureTimerExpiry (comm : Nat) (op : CollOp) (step : Nat)
  | resultArrival (comm step st cnt late : Nat) (data : List Word)
  | publicationArrival (comm rank step : Nat)
  | silenceTimeout (comm rank : Nat)
  -- host, start-up and power (27)
  | hostBar2Access (off : Nat) (data : Option (List Byte)) (len : Nat)
  | chHead (ch : Nat) (head : DWord)
  | chStatClear (ch : Nat)
  | launchRecord
  | launchComplete (root : Nat)
  | xphHead (core x : Nat) (head : DWord)
  | xphStatClear (bits : BitVec 2)
  | hostRegisterWrite (off : Nat) (val : DWord)
  | mbCreateSlot
  | mbEndSlot
  | mbAssignFrames
  | mbRouteEntry
  | mbCreateCommunicator
  | mbEndCommunicator
  | mbCheckpoint
  | mbRestore
  | mbAttest
  | mbReadWave
  | mbFirmwareUpdate (verified : Bool)
  | mbSetDevice
  | mbBadCommand (cmd : Word)
  | checkpointDone
  | deviceStart (how : StartEnd)
  | fabricPortDown (port : Nat)
  | hostLinkDegrade (link : Nat)
  | clockThrottle (up : Bool)
  | thermalHalt (core : Nat)
  | thermalRelease
  | collectiveMessageArrival (comm rank : Nat) (op : CollOp) (step len : Nat) (data : List Word)
  | memberResultTimeout (comm step : Nat)
  | flowQueryReceive (dev flow seq : Nat)
  | flowQueryAnswer (core slot : Nat) (performed : Bool)
  | flowQueryTimeout (core slot : Nat)
  | speculativeAccess (core slot : Nat) (va : SpecAcc)
  | corePowerGate (core : Nat) (gate : Bool)
  | hostLinkDown (link : Nat) (down : Bool)
  | correctableError (die : Nat)
deriving DecidableEq, Repr

end Sys2Proof
end

