-- ==== Sys2Proof/WellFormed.lean ====
section
/-! DEFINITION. Which instruction terms an instruction word can carry: pairs are even (R8, R163), immediates lie in the
ranges of their entries (R169), orderings and scopes in those of their access class (R168). Events carry no word;
`Instr.isWord` tells the two apart. The vector window is a condition of the state, not of the word (R49); here it
counts as 256. -/

namespace Sys2Proof

/-- Which kind of unit decodes the word (R170). -/
inductive UnitK where
  | core
  | xp
deriving DecidableEq, Repr

/-- A number is even. -/
def evenB {n : Nat} (x : BitVec n) : Bool := x.getLsbD 0 == false

/-- No guard (R160): what a transfer processor's words must carry. -/
def Guard.always : Guard := ⟨15, false⟩

def Ctl.ok (u : UnitK) (c : Ctl) : Bool :=
  match u with
  | .core => true
  | .xp => c.guard == Guard.always

/-- What a transfer of control, an end or a trap carries besides: on a core, the run-boundary flag (R43, R207). -/
def Ctl.ends (u : UnitK) (c : Ctl) : Bool := c.ok u && (u == .xp || c.rbf)

/-- A vector source; `p` says that it names a pair. A transfer processor reads d registers there (R170). -/
def Src.ok (u : UnitK) (p : Bool) : Src → Bool
  | .reg n => (!p || evenB n) && (u == .core || n.toNat < 32)
  | .latch t => u == .core && (!p || evenB t)

def sregOk (u : UnitK) (p : Bool) (n : SReg) : Bool := (!p || evenB n) && (u == .core || n.toNat < 32)

def BSrc.ok (p : Bool) : BSrc → Bool
  | .vec s => s.ok .core p
  | .scal n => sregOk .core p n

def Dst.ok (p : Bool) (d : Dst) : Bool :=
  (match d.reg with | some r => !p || evenB r | none => true) &&
  (match d.latch with | some t => !p || evenB t | none => true)

/-- General operands: `pd`, `pa`, `pb` say which are pairs. -/
def Gen1.ok (u : UnitK) (pd pa : Bool) : Gen1 → Bool
  | .vec _ d a => u == .core && d.ok pd && a.ok .core pa
  | .scal d a => sregOk u pd d && sregOk u pa a

def Gen2.ok (u : UnitK) (pd pa pb : Bool) : Gen2 → Bool
  | .vec _ d a b => u == .core && d.ok pd && a.ok .core pa && b.ok pb
  | .scal d a b => sregOk u pd d && sregOk u pa a && sregOk u pb b

def Gen3.ok (u : UnitK) (p : Bool) : Gen3 → Bool
  | .vec _ d a b c => u == .core && d.ok p && a.ok .core p && b.ok p && c.ok .core p
  | .scal d a b c => sregOk u p d && sregOk u p a && sregOk u p b && sregOk u p c

def GenM.ok (u : UnitK) (p : Bool) : GenM → Bool
  | .vec _ d b => u == .core && d.ok p && b.ok p
  | .scal d b => sregOk u p d && sregOk u p b

def Gen0.ok (u : UnitK) (p : Bool) : Gen0 → Bool
  | .vec _ d => u == .core && d.ok p
  | .scal d => sregOk u p d

def Cmp2.ok (u : UnitK) (p : Bool) : Cmp2 → Bool
  | .vec a b => u == .core && a.ok .core p && b.ok p
  | .scal a b => sregOk u p a && sregOk u p b

def Cmp1.ok (u : UnitK) (p : Bool) : Cmp1 → Bool
  | .vec a => u == .core && a.ok .core p
  | .scal a => sregOk u p a

def GReg.ok (u : UnitK) (p : Bool) : GReg → Bool
  | .v n => u == .core && (!p || evenB n)
  | .s n => sregOk u p n

/-- A pc-relative offset is a multiple of 4 (R207). -/
def offOk (off : Word) : Bool := off.toNat % 4 == 0

/-- The limits of `bfe` and `bfi` (R224). -/
def fieldOk (w : Bool) (pos : BitVec 6) (len : BitVec 7) : Bool :=
  1 ≤ len.toNat && pos.toNat + len.toNat ≤ (if w then 64 else 32)

def FFmt.wide : FFmt → Bool
  | .f64 => true
  | _ => false

def RMode.isSr : RMode → Bool
  | .sr => true
  | _ => false

def CTy.width : CTy → Nat
  | .f64 | .i64 | .u64 => 64
  | .f32 | .i32 | .u32 => 32
  | .f16 | .bf16 => 16
  | .e5m2 | .e4m3 => 8

def CTy.isInt : CTy → Bool
  | .i32 | .u32 | .i64 | .u64 => true
  | _ => false

def CTy.isF8 : CTy → Bool
  | .e5m2 | .e4m3 => true
  | _ => false

def CCnt.num : CCnt → Nat
  | .x1 => 1
  | .x2 => 2
  | .x4 => 4

/-- The zero source: an unused source field (R162). -/
def Src.zero : Src := .reg 0

/-- The type limits of `cvt` (R247). -/
def cvtOk (dty sty : CTy) (sel : BitVec 2) (cnt : CCnt) (sat : Bool) : Bool :=
  !(dty.isInt && sty.isInt) && (!sat || dty.isF8) &&
  (if sty.width ≥ 32 then sel == 0 else decide (sel.toNat < 32 / sty.width)) &&
  (cnt == .x1 || decide (cnt.num * dty.width ≤ 32))

def LaneTy.wide : LaneTy → Bool
  | .u64 | .s64 | .f64 => true
  | _ => false

def LaneTy.isFloat : LaneTy → Bool
  | .f32 | .f64 => true
  | _ => false

def LaneOp.isLogic : LaneOp → Bool
  | .and | .or | .xor => true
  | _ => false

def Sz.wide : Sz → Bool
  | .b64 => true
  | _ => false

def StSz.wide : StSz → Bool
  | .b64 => true
  | _ => false

def Ord.isLoad : Ord → Bool
  | .rlx | .acq => true
  | _ => false

def Ord.isStore : Ord → Bool
  | .rlx | .rel => true
  | _ => false

def Scope.isCo : Scope → Bool
  | .wv | .co => true
  | _ => false

def Scope.isCl : Scope → Bool
  | .wv | .co | .sr | .cl => true
  | _ => false

/-- The accepted memory fields of the scratchpad classes (R168). -/
def spadAttr (ld remote : Bool) (m : MAttr) : Bool :=
  (if ld then m.ord.isLoad else m.ord.isStore) && (if remote then m.scope.isCl else m.scope.isCo) && m.evict == 0

def ABase.ok : ABase → Bool
  | .vec s => s.ok .core true
  | .scal n => evenB n

def idxOk : Option Src → Bool
  | none => true
  | some s => s.ok .core false

def LdOps.ok (u : UnitK) (p : Bool) : LdOps → Bool
  | .vec _ d base i => u == .core && d.ok p && base.ok && idxOk i
  | .scal d base => sregOk u p d && sregOk u true base

def StOps.ok (p : Bool) : StOps → Bool
  | .vec _ base i data => base.ok && idxOk i && data.ok .core p
  | .scal base data => evenB base && (!p || evenB data)

/-- A range of `n` scalars from an even base ends at or below s127. -/
def rangeOk (b : SReg) (n : Nat) : Bool := evenB b && decide (b.toNat + n ≤ 128)

/-- The bytes a row of the A tile takes (R284). -/
def MmaFmt.ca : MmaFmt → Nat
  | .f64 | .f32 => 32
  | .bf16 | .f16 | .e4m3 | .e5m2 | .b8e4m3 | .b4e2m1 => 64
  | .b6e3m2 | .b6e2m3 => 48
  | .p2 => 128

/-- Records per A row; 0 for a dense format (R284). -/
def MmaFmt.recs : MmaFmt → Nat
  | .b8e4m3 | .b6e3m2 | .b6e2m3 => 2
  | .b4e2m1 | .p2 => 4
  | _ => 0

/-- Selector bits beyond the record count are 0 (R286). -/
def selOk (fmt : MmaFmt) (sel : BitVec 8) : Bool := decide (sel.toNat < 4 ^ fmt.recs)

def mmaOk (fmt : MmaFmt) (sf : Bool) (vC : BitVec 5) (b : MmaB) (aoq : BitVec 3) (vA vB : Src) (asel bsel : BitVec 8) :
    Bool :=
  decide (aoq.toNat * 16 + fmt.ca ≤ 128) && (fmt != .f64 || decide (vC.toNat ≤ 30)) &&
  (match b with | .wave _ => true | .quarter s => s.ok .core false) &&
  (if fmt.recs == 0 || sf then vA == .zero && vB == .zero && asel == 0 && bsel == 0
   else vA.ok .core false && vB.ok .core false && selOk fmt asel && selOk fmt bsel) && !(sf && fmt.recs == 0)

/-- Payload bytes and record bytes of the blocked kinds (R284, R293). -/
def GKind.pl : GKind → Nat
  | .w => 4
  | .b8 => 32
  | .b6 => 24
  | .b4 => 16

def GKind.rs : GKind → Nat
  | .w => 4
  | .b8 => 33
  | .b6 => 25
  | .b4 => 17

/-- The limits of n and of the row extent (R293). -/
def gatOk (k : GKind) (n : BitVec 6) (ro : BitVec 3) : Bool :=
  1 ≤ n.toNat && decide (n.toNat ≤ (if k == .w then 32 else 4)) && decide (n.toNat * k.pl + ro.toNat * 16 ≤ 128)

def MstFmt.blocked : MstFmt → Bool
  | .b8e4m3 | .b6e3m2 | .b6e2m3 | .b4e2m1 => true
  | _ => false

def MstFmt.isF8 : MstFmt → Bool
  | .e5m2 | .e4m3 => true
  | _ => false

/-- A destination that names nothing: every destination field 0 (R164). -/
def Dst.nothing : Dst := ⟨some 0, none⟩

def mstOk (dfmt : MstFmt) (sf64 sq : Bool) (rm : RMode) (sat : Bool) (vI : Src) (vC : BitVec 5) (cnt : BitVec 2)
    (ve : Src) (sb : SReg) : Bool :=
  vI.ok .core false && (if rm.isSr then ve.ok .core true && decide (sb.toNat ≤ 125) else ve == .zero && sb == 0) &&
  (!sat || dfmt.isF8) && (!sq || dfmt.blocked) && !(dfmt == .f64 && !sf64) && (!dfmt.blocked || cnt == 3) &&
  decide (vC.toNat * 8 + 8 * (cnt.toNat + 1) * (if sf64 then 2 else 1) ≤ 256)

def countOk (lo : Nat) (k : BitVec 18) : Bool := decide (lo ≤ k.toNat) && decide (k.toNat ≤ 65536)

def windowStepOk (n : BitVec 18) : Bool := n.toNat % 8 == 0 && decide (8 ≤ n.toNat) && decide (n.toNat ≤ 248)

def wrOk : Option (BitVec 8 × Src) → Bool
  | none => true
  | some (_, s) => s.ok .core false

/-- System registers: whether the number exists, is 64 bits wide, a wave may read it, `csrw` may write it, and
whether writing needs privilege (R357, R368, R415). `xp.stat` is a transfer processor's (R307, R309). -/
structure SysReg where
  wide  : Bool
  read  : Bool
  write : Bool
  priv  : Bool
deriving DecidableEq, Repr

def sysReg (n : Nat) : Option SysReg :=
  match n with
  | 0x000 => some ⟨false, true, false, false⟩
  | 0x001 => some ⟨false, true, true, false⟩
  | 0x002 => some ⟨true, true, false, false⟩
  | 0x010 => some ⟨false, true, false, false⟩
  | 0x011 => some ⟨true, true, false, false⟩
  | 0x020 => some ⟨true, true, false, false⟩
  | 0x021 => some ⟨false, true, false, false⟩
  | 0x028 => some ⟨true, true, true, false⟩
  | 0x029 => some ⟨false, true, true, false⟩
  | 0x02A => some ⟨false, true, true, false⟩
  | 0x030 => some ⟨true, false, true, false⟩
  | 0x031 => some ⟨true, false, true, false⟩
  | 0x032 => some ⟨false, true, false, false⟩
  | 0x033 => some ⟨false, true, false, false⟩
  | 0x100 => some ⟨true, true, true, true⟩
  | 0x101 => some ⟨false, true, false, false⟩
  | 0x102 => some ⟨false, true, true, false⟩
  | 0x108 => some ⟨true, true, true, true⟩
  | 0x109 => some ⟨false, true, true, true⟩
  | 0x110 => some ⟨false, true, true, true⟩
  | 0x200 => some ⟨false, true, false, false⟩
  | 0x201 => some ⟨false, true, false, false⟩
  | _ => none

/-- The registers that a transfer processor's `csrr` reaches: core.id and its own status (R307). -/
def sysRegXp (n : Nat) : Bool := n == 0x000 || n == 0x034

/-- `csrr` accepts the number on this kind of unit. -/
def csrrOk (u : UnitK) (num : BitVec 18) : Bool :=
  match u with
  | .xp => sysRegXp num.toNat
  | .core => match sysReg num.toNat with | some r => r.read | none => false

/-- `csrw` accepts the number, and the number has no row of its own in the table. -/
def csrwOk (num : BitVec 18) : Bool :=
  match sysReg num.toNat with
  | some r => r.write && !(num == 0x030 || num == 0x031 || num == 0x102 || num == 0x110)
  | none => false

def sysWide (num : BitVec 18) : Bool :=
  match sysReg num.toNat with
  | some r => r.wide
  | none => false

/-! ## Well-formed terms -/

/-- `i` is a term that some word decodes to on a unit of kind `u`. An event carries no word. -/
def Instr.wf (u : UnitK) : Instr → Bool
  | .nop len _ => len != 3
  | .hint len _ rest =>
      len != 3 && decide (0x1F0 ≤ (rest.extractLsb' 1 9).toNat) &&
      (match len with | 0 => rest.extractLsb' 61 64 == 0 | 1 => rest.extractLsb' 93 32 == 0 | _ => true)
  | .br c off => c.ends u && offOk off
  | .bcmp c _ w o off => c.ends u && o.ok u w && offOk off
  | .dbnz c w r off => c.ends u && r.ok u w && offOk off
  | .brx c t | .ret c t => c.ends u && t.ok u true
  | .btab c base idx n =>
      c.ends u && sregOk u true base && idx.ok u false && decide (1 ≤ n.toNat) && decide (n.toNat ≤ 65536)
  | .call c link off => c.ends u && evenB link && (u == .core || decide (link.toNat < 32)) && offOk off
  | .callx c link t => c.ends u && evenB link && (u == .core || decide (link.toNat < 32)) && t.ok u true
  | .rcvArm _ _ | .rcvDrop _ _ => u == .core
  | .rcvJoin c _ => u == .core && c.ends u
  | .brk c _ => c.ends u
  | .add c w o | .sub c w o | .mul c w o | .mulh c _ w o | .div c _ w o | .rem c _ w o | .min c _ w o | .max c _ w o
  | .adds c _ w o | .subs c _ w o | .and c w o | .or c w o | .xor c w o | .andn c w o | .clmul c w o | .clmulh c w o
  | .pdep c w o | .pext c w o => c.ok u && o.ok u w w w
  | .mad c w o => c.ok u && o.ok u w
  | .abs c w o | .addi c w o _ | .andi c w o _ | .ori c w o _ | .xori c w o _ | .brev c w o | .bswap c w o
  | .pxor c w o => c.ok u && o.ok u w w
  | .shl c w o | .shr c w o | .sra c w o | .rol c w o | .ror c w o => c.ok u && o.ok u w w false
  | .shli c w o n | .shri c w o n | .srai c w o n | .roli c w o n | .rori c w o n =>
      c.ok u && o.ok u w w && decide (n.toNat < (if w then 64 else 32))
  | .bfe c _ w o pos len => c.ok u && o.ok u w w && fieldOk w pos len
  | .bfi c w o pos len => c.ok u && o.ok u w w w && fieldOk w pos len
  | .popc c w o | .clz c w o | .ctz c w o => c.ok u && o.ok u false w
  | .icmp _ _ w _ o => u == .core && o.ok u w
  | .icmpi _ _ w _ a _ => u == .core && a.ok u w
  | .isel _ w _ d a b _ => u == .core && d.ok w && a.ok .core w && b.ok w
  | .plop _ _ _ _ _ => u == .core
  | .mov c w o => c.ok u && o.ok u w
  | .movi c s w o _ => c.ok u && o.ok u w && (w || !s)
  | .lea c _ sh o _ => c.ok u && o.ok u true true false && decide (sh.toNat ≤ 4)
  | .lane _ d => u == .core && d.ok false
  | .fadd _ _ fmt rm d a b | .fsub _ _ fmt rm d a b | .fmul _ _ fmt rm d a b | .fdiv _ _ fmt rm d a b =>
      u == .core && !rm.isSr && d.ok fmt.wide && a.ok .core fmt.wide && b.ok fmt.wide
  | .fsqrt _ _ fmt rm d a => u == .core && !rm.isSr && d.ok fmt.wide && a.ok .core fmt.wide
  | .ffma _ _ fmt rm d a b e | .ffms _ _ fmt rm d a b e | .fnma _ _ fmt rm d a b e =>
      u == .core && !rm.isSr && d.ok fmt.wide && a.ok .core fmt.wide && b.ok fmt.wide && e.ok .core fmt.wide
  | .fmin _ _ fmt d a b | .fmax _ _ fmt d a b | .fsgn _ _ fmt d a b =>
      u == .core && d.ok fmt.wide && a.ok .core fmt.wide && b.ok fmt.wide
  | .fabs _ _ fmt d a | .fneg _ _ fmt d a | .frcp _ _ fmt d a | .frsq _ _ fmt d a =>
      u == .core && d.ok fmt.wide && a.ok .core fmt.wide
  | .fcmp _ _ f64 _ a b => u == .core && a.ok .core f64 && b.ok f64
  | .fclass _ _ fmt d a => u == .core && d.ok false && a.ok .core fmt.wide
  | .cvt _ _ dty sty sel cnt rm sat d a b e f ei sb =>
      u == .core && cvtOk dty sty sel cnt sat && d.ok (dty.width == 64) && a.ok .core (sty.width == 64) &&
      (if 2 ≤ cnt.num then b.ok .core (sty.width == 64) else b == .zero) &&
      (if 4 ≤ cnt.num then e.ok .core (sty.width == 64) && f.ok .core (sty.width == 64) else e == .zero && f == .zero) &&
      (if rm.isSr then ei.ok .core true && decide (sb.toNat ≤ 125) else ei == .zero && sb == 0)
  | .rng _ _ _ d e j sb => u == .core && d.ok false && e.ok .core true && j.ok false && decide (sb.toNat ≤ 125)
  | .shfl _ _ d a b => u == .core && d.ok false && a.ok .core false && b.ok false
  | .vote _ _ d _ => u == .core && d.ok false
  | .lred _ op ty d a | .lscan _ op ty _ d a =>
      u == .core && !(op.isLogic && ty.isFloat) && d.ok ty.wide && a.ok .core ty.wide
  | .ld c sz m o _ => c.ok u && m.ord.isLoad && o.ok u sz.wide
  | .st _ sz m o _ => u == .core && m.ord.isStore && o.ok sz.wide
  | .stCr _ w m o _ => u == .core && m.ord.isStore && o.ok w
  | .lds _ _ sz _ m d a _ => u == .core && spadAttr true false m && d.ok sz.wide && a.ok .core false
  | .sts _ _ sz _ m a data _ => u == .core && spadAttr false false m && a.ok .core false && data.ok .core sz.wide
  | .ldc _ _ sz _ m d a k _ => u == .core && spadAttr true true m && d.ok sz.wide && a.ok .core false && k.ok false
  | .stc _ _ sz _ m a k data _ =>
      u == .core && spadAttr false true m && a.ok .core false && k.ok false && data.ok .core sz.wide
  | .ldv _ _ sz m d base _ _ _ => u == .core && m.ord == .acq && d.ok sz.wide && base.ok
  | .vupd _ _ _ _ m _ sB sS sP =>
      u == .core && m.ord == .ar && evenB sB && evenB sS && evenB sP && decide (sP.toNat ≤ 122)
  | .vstepRd _ m _ sB => u == .core && m.ord == .acq && evenB sB
  | .vstepSet _ m sB _ => u == .core && m.ord == .rel && evenB sB
  | .atom _ _ op w _ d base b e _ =>
      u == .core && d.ok w && base.ok && b.ok .core w && (if op == .cas then e.ok .core w else e == .zero)
  | .mwait _ w m d sA sE _ _ => u == .core && m.ord.isLoad && evenB sA && (!w || (evenB d && evenB sE))
  | .fence _ _ ord _ _ => u == .core && ord != .rlx
  | .seal _ m sB _ | .unseal _ m sB _ | .crdecl _ _ m sB _ | .crflush _ _ m sB =>
      u == .core && m.ord == .ar && evenB sB
  | .prefetch _ _ _ _ base idx _ => u == .core && base.ok && idxOk idx
  | .cpy _ _ _ _ sS sD _ => u == .core && evenB sS && evenB sD
  | .cseal _ | .cwait _ _ _ => u == .core
  | .ropCas _ _ n d sA sB sC _ =>
      u == .core && evenB sA && rangeOk d (2 * (n.toNat + 1)) && rangeOk sB (2 * (n.toNat + 1)) &&
      rangeOk sC (2 * (n.toNat + 1))
  | .ropEnq _ _ d sA sB _ => u == .core && evenB sA && evenB d && evenB sB
  | .ropChase _ _ d sA _ _ => u == .core && evenB sA && rangeOk d 3
  | .flq _ _ d _ => u == .core && evenB d && decide (d.toNat ≤ 124)
  | .mma _ fmt sf vC b _ aoq vA vB asel bsel => u == .core && mmaOk fmt sf vC b aoq vA vB asel bsel
  | .mgat _ k d vI _ _ n ro =>
      u == .core && vI.ok .core false && gatOk k n ro && (if k == .w then d == .nothing else d.ok false)
  | .mldt _ k d vI sP n ro =>
      u == .core && vI.ok .core false && gatOk k n ro && k != .w && d.ok false && decide (sP.toNat ≤ 123)
  | .mst _ dfmt sf64 sq rm sat _ _ vI _ vC cnt ve sb => u == .core && mstOk dfmt sf64 sq rm sat vI vC cnt ve sb
  | .mzero _ _ w cnt vC =>
      u == .core && decide (vC.toNat * 8 + 8 * (cnt.toNat + 1) * (if w then 2 else 1) ≤ 256)
  | .tred _ _ _ _ _ _ _ => u == .core
  | .msf _ vS => u == .core && vS.ok .core false
  | .xloop _ e => u == .xp && e.toNat % 4 == 0 && decide (16 ≤ e.toNat) && decide (e.toNat ≤ 16384)
  | .tadr d _ _ => u == .xp && evenB d
  | .tin _ _ _ | .tinc _ _ _ => u == .xp
  | .lidx w d _ _ => u == .xp && (!w || evenB d)
  | .xfer _ _ s d _ => u == .xp && evenB s && evenB d
  | .xferG _ _ s d _ _ rb _ => u == .xp && evenB s && evenB d && rb != 0
  | .xferT _ _ _ d => u == .xp && evenB d
  | .cgen _ | .xwait _ | .xhalt => u == .xp
  | .cba c _ k | .cbw c _ k => c.ok u && countOk 1 k
  | .cbset c _ k => c.ok u && countOk 0 k
  | .chain _ h => u == .xp && evenB h
  | .exit c n sB =>
      u == .core && c.ends u && decide (n.toNat ≤ 4) && (if n == 0 then sB == 0 else rangeOk sB (2 * n.toNat))
  | .yield c | .trap c _ => u == .core && c.ends u
  | .wbar _ | .sbar _ _ | .asetDel _ _ | .pstep _ _ _ => u == .core
  | .collRes _ _ q => u == .core && decide (8 ≤ q.toNat)
  | .rclaim _ n | .rrel _ n => u == .core && windowStepOk n
  | .aset _ sB _ _ => u == .core && evenB sB
  | .age _ sD => u == .core && evenB sD
  | .ageLt _ _ sA => u == .core && evenB sA
  | .collRed _ q sP | .collA2a _ q sP | .collBcast _ q sP | .collBar _ q sP =>
      u == .core && decide (8 ≤ q.toNat) && evenB sP && decide (sP.toNat ≤ 120)
  | .rftNext c wr | .rftAgain c wr | .rftEnd c wr => u == .core && c.ends u && wrOk wr
  | .csrr c sD num => c.ok u && csrrOk u num && sregOk u (u == .core && sysWide num) sD
  | .csrw _ num sA => u == .core && csrwOk num && (!sysWide num || evenB sA)
  | .csrwXpChan _ _ sA => u == .core && evenB sA
  | .csrwFltTail _ _ | .csrwDbgCtl _ _ => u == .core
  | .gen _ _ => u == .core
  | _ => false

/-- `i` is an instruction that a word carries, and not a step of another agent. -/
def Instr.isWord (i : Instr) : Bool := i.wf .core || i.wf .xp

end Sys2Proof
end

