-- ==== Sys2Proof/Decode.lean ====
section
/-! DEFINITION. The decoder of *Instruction formats and the opcode map* (R157 to R175) and, after it, the encoder.
`Fields` is the instruction word taken apart (R159, R161). `decodeEntry` reads the word of an assigned opcode: the
instruction it names, and the decode conditions that fail, each with its cause (R174). The conditions that depend on
the state (run length, window, latches, privilege) are evaluated by the fetching unit with the uses that the entry
lists. -/

namespace Sys2Proof

/-! ## The word taken apart -/

/-- The fields of R159 and R161: the header word and the two words behind it, `ext` bits [95:64], `hi` [127:96]. -/
structure Fields where
  len : BitVec 2
  rbf : Bool
  uni : Bool
  op  : BitVec 9
  wbs : Bool
  le  : Bool
  lt  : BitVec 2
  gd  : BitVec 4
  gn  : Bool
  dst : BitVec 8
  opa : BitVec 9
  opb : BitVec 9
  opc : BitVec 9
  mod : BitVec 7
  ext : Word
  hi  : Word
deriving DecidableEq, Repr

/-- The fields of an instruction word of up to 128 bits; bits it does not have read 0. -/
def Fields.ofWord (w : BitVec 128) : Fields where
  len := w.extractLsb' 0 2
  rbf := w.getLsbD 2
  uni := w.getLsbD 3
  op  := w.extractLsb' 4 9
  wbs := w.getLsbD 13
  le  := w.getLsbD 14
  lt  := w.extractLsb' 15 2
  gd  := w.extractLsb' 17 4
  gn  := w.getLsbD 21
  dst := w.extractLsb' 22 8
  opa := w.extractLsb' 30 9
  opb := w.extractLsb' 39 9
  opc := w.extractLsb' 48 9
  mod := w.extractLsb' 57 7
  ext := w.extractLsb' 64 32
  hi  := w.extractLsb' 96 32

/-- The word that these fields make. -/
def Fields.toWord (f : Fields) : BitVec 128 :=
  f.hi ++ f.ext ++ f.mod ++ f.opc ++ f.opb ++ f.opa ++ f.dst ++ BitVec.ofBool f.gn ++ f.gd ++ f.lt ++
    BitVec.ofBool f.le ++ BitVec.ofBool f.wbs ++ f.op ++ BitVec.ofBool f.uni ++ BitVec.ofBool f.rbf ++ f.len

/-- Bytes of the length code (R157); 0 for the code 0b11. -/
def lenBytes (l : BitVec 2) : Nat := if l == 0 then 8 else if l == 1 then 12 else if l == 2 then 16 else 0

/-- The 18-bit immediate of format B (R161). -/
def Fields.imm18 (f : Fields) : BitVec 18 := f.opc ++ f.opb
/-- Format M (R161). -/
def Fields.ordC (f : Fields) : BitVec 2 := f.ext.extractLsb' 0 2
def Fields.scopeC (f : Fields) : BitVec 3 := f.ext.extractLsb' 2 3
def Fields.evict (f : Fields) : BitVec 3 := f.ext.extractLsb' 5 3
def Fields.off24 (f : Fields) : BitVec 24 := f.ext.extractLsb' 8 24
/-- Format W (R161). -/
def Fields.opd (f : Fields) : BitVec 9 := f.ext.extractLsb' 0 9
def Fields.ope (f : Fields) : BitVec 9 := f.ext.extractLsb' 9 9
def Fields.dst2 (f : Fields) : BitVec 8 := f.ext.extractLsb' 18 8
def Fields.mod2 (f : Fields) : BitVec 6 := f.ext.extractLsb' 26 6

/-- Bit `i` of mod, numbered as in the instruction word: bit 57 is the lowest (R159). -/
def Fields.m (f : Fields) (i : Nat) : Bool := f.mod.getLsbD (i - 57)

/-! ## Formats and the opcode map -/

/-- The formats of R161. -/
inductive Fmt where
  | a | b | c | m | w
  | any
deriving DecidableEq, Repr

def Fmt.lenOk (x : Fmt) (l : BitVec 2) : Bool :=
  match x with
  | .a | .b => l == 0
  | .c | .m => l == 1
  | .w => l == 2
  | .any => l != 3

/-- The format bound to each assigned opcode; none where the opcode is not assigned (R171 and the opcode tables R206,
R236, R258, R287, R316, R336). -/
def opFormat (op : Nat) : Option Fmt :=
  if op == 0x001 then some .any
  else if op ≥ 0x1F0 then some .any
  else if [0x002, 0x003, 0x004, 0x006, 0x007, 0x041, 0x059, 0x05A, 0x0A8, 0x150, 0x151].contains op then some .c
  else if [0x00D, 0x02C, 0x034, 0x035, 0x036, 0x03D, 0x040, 0x051, 0x102, 0x160, 0x164, 0x170, 0x171, 0x172, 0x1A4,
      0x1A5, 0x1B8, 0x1C0, 0x1C1].contains op then some .b
  else if [0x0E0, 0x0E1, 0x0E2, 0x0E3, 0x0E4, 0x0E5, 0x0E8, 0x0E9, 0x0EA, 0x0F0, 0x0F4, 0x0F5, 0x0F8, 0x0F9, 0x0FA,
      0x0FB, 0x0FC, 0x108].contains op then some .m
  else if (0x140 ≤ op && op ≤ 0x14A) || [0x0A0, 0x152, 0x154, 0x169].contains op then some .w
  else if (0x005 ≤ op && op ≤ 0x00C) || (0x020 ≤ op && op ≤ 0x02B) || (0x030 ≤ op && op ≤ 0x033) ||
      (0x038 ≤ op && op ≤ 0x03C) || (0x042 ≤ op && op ≤ 0x046) || (0x048 ≤ op && op ≤ 0x04C) ||
      (0x080 ≤ op && op ≤ 0x08C) || (0x0B0 ≤ op && op ≤ 0x0B3) ||
      [0x050, 0x052, 0x053, 0x058, 0x05B, 0x090, 0x091, 0x098, 0x099, 0x100, 0x101, 0x109, 0x153, 0x155, 0x161, 0x162,
        0x163, 0x168, 0x16A, 0x16C, 0x16D, 0x178, 0x17C, 0x1A0, 0x1A1, 0x1A2, 0x1A8, 0x1A9, 0x1AA, 0x1B0, 0x1B1, 0x1B2,
        0x1B9, 0x1C8].contains op then some .a
  else none

/-- The opcode executes on this kind of unit (R170, R171, R206, R258, R306, R316, R336). -/
def opOnUnit (u : UnitK) (op : Nat) : Bool :=
  match u with
  | .core => !(0x160 ≤ op && op ≤ 0x19F) || (0x170 ≤ op && op ≤ 0x172)
  | .xp =>
    op ≥ 0x1F0 || (0x001 ≤ op && op ≤ 0x009) || op == 0x00D ||
    (0x020 ≤ op && op ≤ 0x04C) || (0x058 ≤ op && op ≤ 0x05A) || op == 0x0E0 || (0x160 ≤ op && op ≤ 0x17C) ||
    op == 0x1C0 || op == 0x1C1

/-- The instructions that must carry the run-boundary flag (R43, R207). -/
def opNeedsRbf (op : Nat) : Bool :=
  (0x002 ≤ op && op ≤ 0x009) || op == 0x00B || op == 0x00D || op == 0x1A0 || op == 0x1AA || op == 0x1B8 || op == 0x1B9

/-! ## Uses of registers -/

/-- Operand classes (R162). -/
inductive Cls where
  | vec | scal | pred | queueLo | queueHi | rb | cb | xd | acc
deriving DecidableEq, Repr

/-- One register operand as its field names it: class, field value, how many registers from there, whether the base
must be even, and whether the field is a 9-bit source field. -/
structure Use where
  cls  : Cls
  f    : Nat
  n    : Nat
  even : Bool
  src  : Bool
deriving DecidableEq, Repr

/-- The first register number past the class (R162); for vector registers the window `d` (R49). -/
def Cls.size (d : Nat) : Cls → Nat
  | .vec | .acc => d
  | .scal => 128
  | .pred | .cb | .queueHi => 16
  | .queueLo | .rb => 8
  | .xd => 32

/-- The field names a latch of a vector operand. -/
def Use.isLatch (u : Use) : Bool := u.src && u.cls == .vec && 256 ≤ u.f && u.f < 260

/-- The decode conditions of one operand, each with its cause (R174): 0x0B, 0x0C, 0x0D, 0x0E. `d` is the window,
`lw` the latch-written mask of the run. Three points that the spec leaves open (R162, R163, R203; DESIGN CHOICE, log entry 69): a pair base
that is the last register of its class (s127, d31, v(D - 1)) has its second register past the class, which is 0x0D before 0x0E; 257 or 259
for a pair reads that latch, which while it is not written is 0x0C before 0x0E; 256 to 259 in the accumulator operand of `mst` names no
register of its class, which is 0x0D. -/
def Use.bad (d : Nat) (lw : BitVec 4) (u : Use) : List (Nat × Bool) :=
  let latch := u.isLatch
  let inSrc := u.src && 256 ≤ u.f
  [(0x0B, u.src && (260 ≤ u.f || (256 ≤ u.f && u.cls != .vec && u.cls != .acc))),
   (0x0C, latch && !((List.range (if u.f % 2 == 0 then u.n else 1)).all fun k => lw.getLsbD (u.f - 256 + k))),
   (0x0D, (!inSrc && decide (u.f + u.n > u.cls.size d)) || (u.cls == .acc && (inSrc || u.f % 8 != 0)) ||
          (u.cls == .queueHi && decide (u.f < 8))),
   (0x0E, u.even && (if latch then u.f % 2 != 0 else !inSrc && u.f % 2 != 0))]

/-- What decoding an assigned opcode gives: the failed-condition list of its fields, the registers it uses, whether it
is privileged, whether a latch destination is a pair, and the instruction. -/
structure Entry where
  bad   : List (Nat × Bool)
  uses  : List Use
  priv  : Bool
  wide  : Bool
  instr : Instr
deriving DecidableEq, Repr

/-- The least cause among the failed conditions: the first in the order of R174. -/
def firstCause (l : List (Nat × Bool)) : Option Nat :=
  l.foldl (fun acc x => if x.2 then (match acc with | some a => some (Nat.min a x.1) | none => some x.1) else acc) none

/-! ## Field readers -/

def Fields.guard (f : Fields) : Guard := ⟨f.gd + 15, f.gn⟩
def Fields.ctl (f : Fields) : Ctl := ⟨f.guard, f.rbf⟩
def mkSrc (x : BitVec 9) : Src := if x.toNat < 256 then .reg (x.setWidth 8) else .latch (x.setWidth 2)
def mkS (x : BitVec 9) : SReg := x.setWidth 7
def mkS8 (x : BitVec 8) : SReg := x.setWidth 7
def mkD (x : BitVec 9) : DReg := x.setWidth 5
def mkD8 (x : BitVec 8) : DReg := x.setWidth 5
def mkP8 (x : BitVec 8) : BitVec 4 := x.setWidth 4
def Fields.mkDst (f : Fields) : Dst := ⟨if f.wbs then none else some f.dst, if f.le then some f.lt else none⟩

def nz {n : Nat} (x : BitVec n) : Bool := x != 0

/-- Conditions of an instruction with a per-lane result of `wide` registers (R163, R164). -/
def Fields.resBad (f : Fields) (wide : Bool) : List (Nat × Bool) :=
  [(0x08, (f.wbs && nz f.dst) || (!f.le && nz f.lt)), (0x0E, f.le && wide && f.lt.getLsbD 0)]

/-- The register written by a per-lane result. -/
def Fields.resUse (f : Fields) (n : Nat) : List Use :=
  if f.wbs then [] else [⟨.vec, f.dst.toNat, n, n == 2, false⟩]

/-- Conditions of an instruction without a per-lane result (R164). -/
def Fields.noRes (f : Fields) : Nat × Bool := (0x08, f.wbs || f.le || nz f.lt)

def Fields.uniBad (f : Fields) (accepts : Bool) : Nat × Bool := (0x0A, f.uni && !accepts)

/-- Conditions that a transfer processor puts on every word (R170). -/
def Fields.xpBad (u : UnitK) (f : Fields) : List (Nat × Bool) :=
  match u with
  | .core => []
  | .xp => [(0x0A, f.uni), (0x08, f.wbs || f.le || nz f.lt || nz f.gd || f.gn)]

def vUse (x : BitVec 9) (n : Nat) : Use := ⟨.vec, x.toNat, n, n == 2, true⟩
/-- A scalar source; on a transfer processor a d register (R204). -/
def sUse (u : UnitK) (x : BitVec 9) (n : Nat) : Use := ⟨if u == .xp then .xd else .scal, x.toNat, n, n == 2, true⟩
def sDstUse (u : UnitK) (x : BitVec 8) (n : Nat) : Use := ⟨if u == .xp then .xd else .scal, x.toNat, n, n == 2, false⟩
def pUse (x : BitVec 9) : Use := ⟨.pred, x.toNat, 1, false, true⟩
def pDstUse (x : BitVec 8) : Use := ⟨.pred, x.toNat, 1, false, false⟩

/-- Registers of a W-wide operand. -/
def wn (w : Bool) : Nat := if w then 2 else 1

def icond? (x : BitVec 4) : Option ICond :=
  match x.toNat with
  | 0 => some .eq | 1 => some .ne | 2 => some .lt | 3 => some .le | 4 => some .gt
  | 5 => some .ge | 6 => some .ltu | 7 => some .leu | 8 => some .gtu | 9 => some .geu
  | _ => none

def rmode? (x : BitVec 3) : Option RMode :=
  match x.toNat with
  | 0 => some .rn | 1 => some .rz | 2 => some .ru | 3 => some .rd | 4 => some .sr
  | _ => none

def ffmt? (x : BitVec 3) : Option FFmt :=
  match x.toNat with
  | 0 => some .f32 | 1 => some .f64 | 2 => some .f16 | 3 => some .bf16
  | _ => none

def fcond? (x : BitVec 3) : Option FCond :=
  match x.toNat with
  | 0 => some .eq | 1 => some .ne | 2 => some .lt | 3 => some .le | 4 => some .gt | 5 => some .ge
  | _ => none

def cty? (x : BitVec 4) : Option CTy :=
  match x.toNat with
  | 0 => some .f64 | 1 => some .f32 | 2 => some .f16 | 3 => some .bf16 | 4 => some .e5m2
  | 5 => some .e4m3 | 6 => some .i32 | 7 => some .u32 | 8 => some .i64 | 9 => some .u64
  | _ => none

def ccnt? (x : BitVec 2) : Option CCnt :=
  match x.toNat with
  | 0 => some .x1 | 1 => some .x2 | 2 => some .x4
  | _ => none

def laneOp? (x : BitVec 3) : Option LaneOp :=
  match x.toNat with
  | 0 => some .add | 1 => some .min | 2 => some .max | 3 => some .and | 4 => some .or | 5 => some .xor
  | _ => none

def laneTy? (x : BitVec 3) : Option LaneTy :=
  match x.toNat with
  | 0 => some .u32 | 1 => some .s32 | 2 => some .f32 | 3 => some .u64 | 4 => some .s64 | 5 => some .f64
  | _ => none

def scopeOf (x : BitVec 3) : Scope :=
  match x.toNat with
  | 0 => .wv | 1 => .co | 2 => .sr | 3 => .cl | 4 => .di | 5 => .dv | 6 => .pd | _ => .sy

def ordOf (x : BitVec 2) : Ord :=
  match x.toNat with
  | 0 => .rlx | 1 => .acq | 2 => .rel | _ => .ar

def sz? (x : BitVec 3) : Option Sz :=
  match x.toNat with
  | 0 => some .b8 | 1 => some .b8s | 2 => some .b16 | 3 => some .b16s | 4 => some .b32 | 5 => some .b64
  | _ => none

def stSz? (x : BitVec 3) : Option StSz :=
  match x.toNat with
  | 0 => some .b8 | 2 => some .b16 | 4 => some .b32 | 5 => some .b64
  | _ => none

def atomOp? (x : BitVec 4) : Option AtomOp :=
  match x.toNat with
  | 0 => some .xchg | 1 => some .add | 2 => some .sub | 3 => some .and | 4 => some .or | 5 => some .xor
  | 6 => some .min | 7 => some .max | 8 => some .umin | 9 => some .umax | 10 => some .fadd
  | 11 => some .fmin | 12 => some .fmax | 13 => some .cas
  | _ => none

def crOp? (x : BitVec 4) : Option CrOp :=
  match x.toNat with
  | 0 => some .addf32 | 1 => some .addf64 | 2 => some .addi32 | 3 => some .addi64 | 4 => some .maxf32
  | 5 => some .minf32
  | _ => none

def vfmt? (x : BitVec 2) : Option VFmt :=
  match x.toNat with
  | 0 => some .f32 | 1 => some .bf16 | 2 => some .f16
  | _ => none

def mkind? (x : BitVec 2) : Option MKind :=
  match x.toNat with
  | 0 => some .g | 1 => some .l | 2 => some .c
  | _ => none

def mmaFmt? (op : Nat) : Option MmaFmt :=
  match op with
  | 0x140 => some .f64 | 0x141 => some .f32 | 0x142 => some .bf16 | 0x143 => some .f16 | 0x144 => some .e4m3
  | 0x145 => some .e5m2 | 0x146 => some .b8e4m3 | 0x147 => some .b6e3m2 | 0x148 => some .b6e2m3
  | 0x149 => some .b4e2m1 | 0x14A => some .p2
  | _ => none

def gkind? (x : BitVec 3) : Option GKind :=
  match x.toNat with
  | 0 => some .w | 1 => some .b8 | 2 => some .b6 | 3 => some .b4
  | _ => none

def mstFmt? (x : BitVec 4) : Option MstFmt :=
  match x.toNat with
  | 0 => some .f64 | 1 => some .f32 | 2 => some .bf16 | 3 => some .f16 | 4 => some .e5m2 | 5 => some .e4m3
  | 6 => some .b8e4m3 | 7 => some .b6e3m2 | 8 => some .b6e2m3 | 9 => some .b4e2m1
  | _ => none

def shflMode? (x : BitVec 3) : Option ShflMode :=
  match x.toNat with
  | 0 => some .idx | 1 => some .up | 2 => some .down | 3 => some .xor
  | _ => none

def voteOp? (x : BitVec 3) : Option VoteOp :=
  match x.toNat with
  | 0 => some .any | 1 => some .all | 2 => some .ballot | 3 => some .eq
  | _ => none

def pOp? (x : BitVec 4) : Option POp :=
  match x.toNat with
  | 0 => some .and | 1 => some .or | 2 => some .xor | 3 => some .andn
  | _ => none

def Fields.mattr (f : Fields) : MAttr := ⟨ordOf f.ordC, scopeOf f.scopeC, f.evict⟩

/-! ## Shared modifier layout of opcodes 0x002-0x07F (R202) -/

def Fields.sc (f : Fields) : Bool := f.m 63
def Fields.bs (f : Fields) : Bool := f.m 62
def Fields.w64 (f : Fields) : Bool := f.m 61
def Fields.fn (f : Fields) : BitVec 4 := f.mod.extractLsb' 0 4

/-- Column sc "both": the scalar form is the only one on a transfer processor (R204), and in it the destination
fields beside dst and the uniform bit are 0 (R203); bs = 1 is accepted in a scalar form of a core, where it has no effect
(R206; DEDUCED, log entry 37). `bsOk`, `wOk`, `uniOk` are the columns of R206. -/
def Fields.genBad (u : UnitK) (f : Fields) (bsOk wOk uniOk : Bool) : List (Nat × Bool) :=
  f.xpBad u ++
  [(0x05, u == .xp && !f.sc), (0x08, (f.bs && (!bsOk || u == .xp)) || (f.w64 && !wOk)),
   (0x0A, f.uni && (!uniOk || f.sc)), (0x08, f.sc && (f.wbs || f.le || nz f.lt))]

/-- Column sc "vector" or "—": sc is 0 (R202). -/
def Fields.vecBad (u : UnitK) (f : Fields) (bsOk wOk uniOk : Bool) : List (Nat × Bool) :=
  f.xpBad u ++
  [(0x08, f.sc || (f.bs && (!bsOk || u == .xp)) || (f.w64 && !wOk)), (0x0A, f.uni && !uniOk)]

/-- The second source of a vector form (R203). -/
def Fields.bUse (f : Fields) (n : Nat) : Use :=
  if f.bs then ⟨.scal, f.opb.toNat, n, n == 2, true⟩ else vUse f.opb n
def Fields.bSrc (f : Fields) : BSrc := if f.bs then .scal (mkS f.opb) else .vec (mkSrc f.opb)

/-- A source field that only a vector or only a scalar form reads. -/
def Fields.gUse (u : UnitK) (f : Fields) (x : BitVec 9) (n : Nat) : Use := if f.sc then sUse u x n else vUse x n
def Fields.gDst (u : UnitK) (f : Fields) (n : Nat) : List Use :=
  if f.sc then [sDstUse u f.dst n] else f.resUse n
def Fields.gRes (f : Fields) (wide : Bool) : List (Nat × Bool) := if f.sc then [] else f.resBad wide

def Fields.gen1 (f : Fields) : Gen1 :=
  if f.sc then .scal (mkS8 f.dst) (mkS f.opa) else .vec f.uni f.mkDst (mkSrc f.opa)
def Fields.gen2 (f : Fields) : Gen2 :=
  if f.sc then .scal (mkS8 f.dst) (mkS f.opa) (mkS f.opb) else .vec f.uni f.mkDst (mkSrc f.opa) f.bSrc
def Fields.gen3 (f : Fields) : Gen3 :=
  if f.sc then .scal (mkS8 f.dst) (mkS f.opa) (mkS f.opb) (mkS f.opc)
  else .vec f.uni f.mkDst (mkSrc f.opa) f.bSrc (mkSrc f.opc)
def Fields.genM (f : Fields) : GenM :=
  if f.sc then .scal (mkS8 f.dst) (mkS f.opb) else .vec f.uni f.mkDst f.bSrc
def Fields.gen0 (f : Fields) : Gen0 := if f.sc then .scal (mkS8 f.dst) else .vec f.uni f.mkDst
def Fields.cmp2 (f : Fields) : Cmp2 :=
  if f.sc then .scal (mkS f.opa) (mkS f.opb) else .vec (mkSrc f.opa) f.bSrc
def Fields.cmp1 (f : Fields) (x : BitVec 9) : Cmp1 := if f.sc then .scal (mkS x) else .vec (mkSrc x)

/-- Registers of opb: a scalar in the scalar form, else the second source. -/
def Fields.gbUse (u : UnitK) (f : Fields) (n : Nat) : Use := if f.sc then sUse u f.opb n else f.bUse n

/-- Two general sources of width `wa`, `wb` and a destination of width `wd`, with a function code. -/
def ent2 (u : UnitK) (f : Fields) (wd wa wb : Nat) (fBad : List (Nat × Bool)) (i : Instr) : Entry :=
  ⟨f.genBad u true true true ++ f.gRes (wd == 2) ++ [(0x08, nz f.opc)] ++ fBad,
   f.gDst u wd ++ [f.gUse u f.opa wa, f.gbUse u wb], false, wd == 2, i⟩

/-- One general source (R219, R226, R228). -/
def ent1 (u : UnitK) (f : Fields) (wd wa : Nat) (fBad : List (Nat × Bool)) (i : Instr) : Entry :=
  ⟨f.genBad u false true true ++ f.gRes (wd == 2) ++ [(0x08, nz f.opb || nz f.opc)] ++ fBad,
   f.gDst u wd ++ [f.gUse u f.opa wa], false, wd == 2, i⟩

/-- Format B with one general source (R220). -/
def entI (u : UnitK) (f : Fields) (fBad : List (Nat × Bool)) (i : Instr) : Entry :=
  ⟨f.genBad u false true true ++ f.gRes f.w64 ++ fBad,
   f.gDst u (wn f.w64) ++ [f.gUse u f.opa (wn f.w64)], false, f.w64, i⟩

/-- The function code is not defined by the entry: it must be 0. -/
def Fields.noFn (f : Fields) : List (Nat × Bool) := [(0x08, nz f.fn)]
/-- Only f[0] is defined (R217). -/
def Fields.sFn (f : Fields) : List (Nat × Bool) := [(0x09, decide (f.fn.toNat > 1))]
def Fields.s0 (f : Fields) : Bool := f.fn.getLsbD 0

/-- Control, integer and address instructions (R206 to R234). -/
def decodeScalar (u : UnitK) (f : Fields) : Option Entry :=
  let w := f.w64
  let n := wn w
  let c := f.ctl
  let off := [(0x09, f.ext.toNat % 4 != 0)]
  let ic := icond? f.fn
  let icBad := [(0x09, ic.isNone)]
  let icv := ic.getD .eq
  let pos : BitVec 6 := f.imm18.extractLsb' 0 6
  let ln : BitVec 7 := f.imm18.extractLsb' 6 7
  match f.op.toNat with
  | 0x002 => some ⟨f.vecBad u false false false ++ [f.noRes] ++ f.noFn ++
      [(0x08, nz f.opa || nz f.opb || nz f.opc || nz f.dst)] ++ off, [], false, false, .br c f.ext⟩
  | 0x003 => some ⟨f.genBad u true true false ++ [f.noRes, (0x08, nz f.opc || nz f.dst)] ++ icBad ++ off,
      [f.gUse u f.opa n, f.gbUse u n], false, false, .bcmp c icv w f.cmp2 f.ext⟩
  | 0x004 => some ⟨f.genBad u false true false ++ [f.noRes, (0x08, nz f.opa || nz f.opb || nz f.opc)] ++ f.noFn ++ off,
      [if f.sc then sDstUse u f.dst n else ⟨.vec, f.dst.toNat, n, w, false⟩], false, false,
      .dbnz c w (if f.sc then .s (mkS8 f.dst) else .v f.dst) f.ext⟩
  | 0x005 => some ⟨f.genBad u false false false ++ [f.noRes, (0x08, nz f.opb || nz f.opc || nz f.dst)] ++ f.noFn,
      [f.gUse u f.opa 2], false, false, .brx c (f.cmp1 f.opa)⟩
  | 0x006 => some ⟨f.genBad u false false false ++ [f.noRes, (0x08, nz f.opc || nz f.dst)] ++ f.noFn ++
      [(0x09, f.ext.toNat == 0 || decide (f.ext.toNat > 65536))], [sUse u f.opa 2, f.gUse u f.opb 1], false, false,
      .btab c (mkS f.opa) (f.cmp1 f.opb) f.ext⟩
  | 0x007 => some ⟨f.vecBad u false false false ++ [f.noRes, (0x08, nz f.opa || nz f.opb || nz f.opc)] ++ f.noFn ++ off,
      [⟨if u == .xp then .xd else .vec, f.dst.toNat, 2, true, false⟩], false, false, .call c f.dst f.ext⟩
  | 0x008 => some ⟨f.vecBad u false false false ++ [f.noRes, (0x08, nz f.opb || nz f.opc)] ++ f.noFn,
      [⟨if u == .xp then .xd else .vec, f.dst.toNat, 2, true, false⟩,
       ⟨if u == .xp then .xd else .vec, f.opa.toNat, 2, true, true⟩], false, false, .callx c f.dst (mkSrc f.opa)⟩
  | 0x009 => some ⟨f.genBad u false false false ++ [f.noRes, (0x08, nz f.opb || nz f.opc || nz f.dst)] ++ f.noFn,
      [f.gUse u f.opa 2], false, false, .ret c (f.cmp1 f.opa)⟩
  | 0x00A => some ⟨f.vecBad u false false false ++ [f.noRes, (0x08, nz f.opb || nz f.opc || nz f.dst)] ++ f.noFn,
      [⟨.rb, f.opa.toNat, 1, false, true⟩], false, false, .rcvArm c (f.opa.setWidth 3)⟩
  | 0x00B => some ⟨f.vecBad u false false false ++ [f.noRes, (0x08, nz f.opb || nz f.opc || nz f.dst)] ++ f.noFn,
      [⟨.rb, f.opa.toNat, 1, false, true⟩], false, false, .rcvJoin c (f.opa.setWidth 3)⟩
  | 0x00C => some ⟨f.vecBad u false false false ++ [f.noRes, (0x08, nz f.opb || nz f.opc || nz f.dst)] ++ f.noFn,
      [⟨.rb, f.opa.toNat, 1, false, true⟩], false, false, .rcvDrop c (f.opa.setWidth 3)⟩
  | 0x00D => some ⟨f.vecBad u false false false ++ [f.noRes, (0x08, nz f.opa || nz f.dst)] ++ f.noFn,
      [], false, false, .brk c f.imm18⟩
  | 0x020 => some (ent2 u f n n n f.noFn (.add c w f.gen2))
  | 0x021 => some (ent2 u f n n n f.noFn (.sub c w f.gen2))
  | 0x022 => some (ent2 u f n n n f.noFn (.mul c w f.gen2))
  | 0x023 => some (ent2 u f n n n f.sFn (.mulh c f.s0 w f.gen2))
  | 0x024 => some ⟨f.genBad u true true true ++ f.gRes w ++ f.noFn,
      f.gDst u n ++ [f.gUse u f.opa n, f.gbUse u n, f.gUse u f.opc n], false, w, .mad c w f.gen3⟩
  | 0x025 => some (ent2 u f n n n f.sFn (.div c f.s0 w f.gen2))
  | 0x026 => some (ent2 u f n n n f.sFn (.rem c f.s0 w f.gen2))
  | 0x027 => some (ent2 u f n n n f.sFn (.min c f.s0 w f.gen2))
  | 0x028 => some (ent2 u f n n n f.sFn (.max c f.s0 w f.gen2))
  | 0x029 => some (ent2 u f n n n f.sFn (.adds c f.s0 w f.gen2))
  | 0x02A => some (ent2 u f n n n f.sFn (.subs c f.s0 w f.gen2))
  | 0x02B => some (ent1 u f n n f.noFn (.abs c w f.gen1))
  | 0x02C => some (entI u f f.noFn (.addi c w f.gen1 f.imm18))
  | 0x030 => some (ent2 u f n n n f.noFn (.and c w f.gen2))
  | 0x031 => some (ent2 u f n n n f.noFn (.or c w f.gen2))
  | 0x032 => some (ent2 u f n n n f.noFn (.xor c w f.gen2))
  | 0x033 => some (ent2 u f n n n f.noFn (.andn c w f.gen2))
  | 0x034 => some (entI u f f.noFn (.andi c w f.gen1 f.imm18))
  | 0x035 => some (entI u f f.noFn (.ori c w f.gen1 f.imm18))
  | 0x036 => some (entI u f f.noFn (.xori c w f.gen1 f.imm18))
  | 0x038 => some (ent2 u f n n 1 f.noFn (.shl c w f.gen2))
  | 0x039 => some (ent2 u f n n 1 f.noFn (.shr c w f.gen2))
  | 0x03A => some (ent2 u f n n 1 f.noFn (.sra c w f.gen2))
  | 0x03B => some (ent2 u f n n 1 f.noFn (.rol c w f.gen2))
  | 0x03C => some (ent2 u f n n 1 f.noFn (.ror c w f.gen2))
  | 0x03D =>
      let nBad := [(0x09, decide (f.imm18.toNat ≥ (if w then 64 else 32)) || decide (f.fn.toNat > 4))]
      let i := match f.fn.toNat with
        | 0 => Instr.shli c w f.gen1 f.imm18
        | 1 => .shri c w f.gen1 f.imm18
        | 2 => .srai c w f.gen1 f.imm18
        | 3 => .roli c w f.gen1 f.imm18
        | _ => .rori c w f.gen1 f.imm18
      some (entI u f nBad i)
  | 0x040 => some (entI u f (f.sFn ++ [(0x09, nz (f.imm18.extractLsb' 13 5) || !fieldOk w pos ln)])
      (.bfe c f.s0 w f.gen1 pos ln))
  | 0x041 =>
      let p2 : BitVec 6 := f.ext.extractLsb' 0 6
      let l2 : BitVec 7 := f.ext.extractLsb' 6 7
      some (ent2 u f n n n (f.noFn ++ [(0x09, nz (f.ext.extractLsb' 13 19) || !fieldOk w p2 l2)])
        (.bfi c w f.gen2 p2 l2))
  | 0x042 => some (ent1 u f 1 n f.noFn (.popc c w f.gen1))
  | 0x043 => some (ent1 u f 1 n f.noFn (.clz c w f.gen1))
  | 0x044 => some (ent1 u f 1 n f.noFn (.ctz c w f.gen1))
  | 0x045 => some (ent1 u f n n f.noFn (.brev c w f.gen1))
  | 0x046 => some (ent1 u f n n f.noFn (.bswap c w f.gen1))
  | 0x048 => some (ent2 u f n n n f.noFn (.clmul c w f.gen2))
  | 0x049 => some (ent2 u f n n n f.noFn (.clmulh c w f.gen2))
  | 0x04A => some (ent1 u f n n f.noFn (.pxor c w f.gen1))
  | 0x04B => some (ent2 u f n n n f.noFn (.pdep c w f.gen2))
  | 0x04C => some (ent2 u f n n n f.noFn (.pext c w f.gen2))
  | 0x050 => some ⟨f.genBad u true true false ++ [f.noRes, (0x08, nz f.opc)] ++ icBad,
      [pDstUse f.dst, f.gUse u f.opa n, f.gbUse u n], false, false, .icmp c icv w (mkP8 f.dst) f.cmp2⟩
  | 0x051 => some ⟨f.genBad u false true false ++ [f.noRes] ++ icBad,
      [pDstUse f.dst, f.gUse u f.opa n], false, false, .icmpi c icv w (mkP8 f.dst) (f.cmp1 f.opa) f.imm18⟩
  | 0x052 => some ⟨f.vecBad u true true true ++ f.resBad w ++ f.noFn,
      f.resUse n ++ [vUse f.opa n, f.bUse n, pUse f.opc], false, w,
      .isel c w f.uni f.mkDst (mkSrc f.opa) f.bSrc (f.opc.setWidth 4)⟩
  | 0x053 => some ⟨f.vecBad u false false false ++ [f.noRes, (0x08, nz f.opc), (0x09, (pOp? f.fn).isNone)],
      [pDstUse f.dst, pUse f.opa, pUse f.opb], false, false,
      .plop c ((pOp? f.fn).getD .and) (mkP8 f.dst) (f.opa.setWidth 4) (f.opb.setWidth 4)⟩
  | 0x058 => some ⟨f.genBad u true true true ++ f.gRes w ++ [(0x08, nz f.opa || nz f.opc)] ++ f.noFn,
      f.gDst u n ++ [f.gbUse u n], false, w, .mov c w f.genM⟩
  | 0x059 => some ⟨f.genBad u false true true ++ f.gRes w ++ [(0x08, nz f.opa || nz f.opb || nz f.opc)] ++
      f.sFn ++ [(0x09, f.s0 && !w)], f.gDst u n, false, w, .movi c f.s0 w f.gen0 f.ext⟩
  | 0x05A => some ⟨f.genBad u true false true ++ f.gRes true ++ [(0x08, nz f.opc)] ++
      [(0x09, decide ((f.fn.setWidth 3 : BitVec 3).toNat > 4))],
      f.gDst u 2 ++ [f.gUse u f.opa 2, f.gbUse u 1], false, true,
      .lea c (f.fn.getLsbD 3) (f.fn.setWidth 3) f.gen2 f.ext⟩
  | 0x05B => some ⟨f.vecBad u false false false ++ f.resBad false ++ [(0x08, nz f.opa || nz f.opb || nz f.opc)] ++ f.noFn,
      f.resUse 1, false, false, .lane c f.mkDst⟩
  | _ => none

/-! ## Floating point and lanes (R236 to R256) -/

def Fields.rm3 (f : Fields) : BitVec 3 := f.mod.extractLsb' 4 3
def Fields.fbs (f : Fields) : Bool := f.m 60
def Fields.fm3 (f : Fields) : BitVec 3 := f.mod.extractLsb' 0 3

def Fields.fbUse (f : Fields) (n : Nat) : Use :=
  if f.fbs then ⟨.scal, f.opb.toNat, n, n == 2, true⟩ else vUse f.opb n
def Fields.fbSrc (f : Fields) : BSrc := if f.fbs then .scal (mkS f.opb) else .vec (mkSrc f.opb)

/-- A floating-point instruction of `k` sources; `rounds` says that it has a rounding mode, `bsOk` the bs column. -/
def entF (f : Fields) (k : Nat) (rounds bsOk uniOk : Bool) (i : FFmt → RMode → Instr) : Entry :=
  let fm := (ffmt? f.fm3).getD .f32
  let n := wn fm.wide
  ⟨f.resBad fm.wide ++ [(0x09, (ffmt? f.fm3).isNone), (0x08, f.fbs && !bsOk),
     if rounds then (0x09, (rmode? f.rm3).isNone || f.rm3 == 4) else (0x08, nz f.rm3),
     (0x08, (decide (k < 2) && nz f.opb) || (decide (k < 3) && nz f.opc)), f.uniBad uniOk],
   f.resUse n ++ [vUse f.opa n] ++ (if 2 ≤ k then [f.fbUse n] else []) ++ (if 3 ≤ k then [vUse f.opc n] else []),
   false, fm.wide, i fm ((rmode? f.rm3).getD .rn)⟩

/-- The vector opcodes. Where `cvt` has a reserved rounding mode or cnt = 3, the spec does not say which operand fields are used: those that
depend on it count as unused, as under .rn and for one element, so that a nonzero one is 0x08 before 0x09 (R167, R247; DESIGN CHOICE, log
entry 70). -/
def decodeVector (f : Fields) : Option Entry :=
  let c := f.ctl
  let a := mkSrc f.opa
  let b := f.fbSrc
  let e := mkSrc f.opc
  let d := f.mkDst
  let v := f.uni
  match f.op.toNat with
  | 0x080 => some (entF f 2 true true true fun t r => .fadd c v t r d a b)
  | 0x081 => some (entF f 2 true true true fun t r => .fsub c v t r d a b)
  | 0x082 => some (entF f 2 true true true fun t r => .fmul c v t r d a b)
  | 0x083 => some (entF f 2 true true true fun t r => .fdiv c v t r d a b)
  | 0x084 => some (entF f 1 true false true fun t r => .fsqrt c v t r d a)
  | 0x085 => some (entF f 3 true true true fun t r => .ffma c v t r d a b e)
  | 0x086 => some (entF f 3 true true true fun t r => .ffms c v t r d a b e)
  | 0x087 => some (entF f 3 true true true fun t r => .fnma c v t r d a b e)
  | 0x088 => some (entF f 2 false true true fun t _ => .fmin c v t d a b)
  | 0x089 => some (entF f 2 false true true fun t _ => .fmax c v t d a b)
  | 0x08A => some (entF f 1 false false true fun t _ => .fabs c v t d a)
  | 0x08B => some (entF f 1 false false true fun t _ => .fneg c v t d a)
  | 0x08C => some (entF f 2 false true true fun t _ => .fsgn c v t d a b)
  | 0x090 => some (entF f 1 false false true fun t _ => .frcp c v t d a)
  | 0x091 => some (entF f 1 false false true fun t _ => .frsq c v t d a)
  | 0x098 =>
      let w := f.fm3 == 1
      some ⟨[f.noRes, (0x09, decide (f.fm3.toNat > 1)), (0x09, (fcond? f.rm3).isNone), (0x08, nz f.opc), f.uniBad false],
        [pDstUse f.dst, vUse f.opa (wn w), f.fbUse (wn w)], false, false,
        .fcmp c ((fcond? f.rm3).getD .eq) w (mkP8 f.dst) a b⟩
  | 0x099 =>
      let fm := (ffmt? f.fm3).getD .f32
      some ⟨f.resBad false ++ [(0x09, (ffmt? f.fm3).isNone), (0x08, f.fbs || nz f.rm3 || nz f.opb || nz f.opc),
        f.uniBad true], f.resUse 1 ++ [vUse f.opa (wn fm.wide)], false, false, .fclass c v fm d a⟩
  | 0x0A0 =>
      let sty := (cty? (f.hi.extractLsb' 0 4)).getD .f32
      let dty := (cty? (f.hi.extractLsb' 4 4)).getD .f32
      let cn := (ccnt? (f.hi.extractLsb' 8 2)).getD .x1
      let sel : BitVec 2 := f.hi.extractLsb' 10 2
      let sb : SReg := f.hi.extractLsb' 12 7
      let rm := (rmode? f.rm3).getD .rn
      let sat := f.m 60
      let ns := wn (sty.width == 64)
      let tyBad := (cty? (f.hi.extractLsb' 0 4)).isNone || (cty? (f.hi.extractLsb' 4 4)).isNone ||
        (ccnt? (f.hi.extractLsb' 8 2)).isNone
      some ⟨f.resBad (dty.width == 64) ++
        [(0x08, nz (f.hi.extractLsb' 19 13) || nz f.mod2 || nz f.dst2 || nz f.fm3),
         (0x08, (decide (cn.num < 2) && nz f.opb) || (decide (cn.num < 4) && (nz f.opc || nz f.opd))),
         (0x08, !rm.isSr && (nz f.ope || nz sb)), (0x09, decide (sb.toNat > 125)),
         (0x09, (rmode? f.rm3).isNone || tyBad || !cvtOk dty sty sel cn sat), f.uniBad true],
        f.resUse (wn (dty.width == 64)) ++ [vUse f.opa ns] ++ (if 2 ≤ cn.num then [vUse f.opb ns] else []) ++
        (if 4 ≤ cn.num then [vUse f.opc ns, vUse f.opd ns] else []) ++ (if rm.isSr then [vUse f.ope 2] else []),
        false, dty.width == 64, .cvt c v dty sty sel cn rm sat d a (mkSrc f.opb) e (mkSrc f.opd) (mkSrc f.ope) sb⟩
  | 0x0A8 =>
      let sb : SReg := f.ext.extractLsb' 2 7
      some ⟨f.resBad false ++ [(0x08, nz (f.ext.extractLsb' 9 23) || nz f.rm3 || nz f.fm3 || nz f.opc),
        (0x09, decide (sb.toNat > 125)), f.uniBad true], f.resUse 1 ++ [vUse f.opa 2, f.fbUse 1], false, false,
        .rng c v (f.ext.extractLsb' 0 2) d a b sb⟩
  | 0x0B0 =>
      some ⟨f.resBad false ++ [(0x09, (shflMode? f.rm3).isNone), (0x08, nz f.fm3 || nz f.opc), f.uniBad false],
        f.resUse 1 ++ [vUse f.opa 1, f.fbUse 1], false, false, .shfl c ((shflMode? f.rm3).getD .idx) d a b⟩
  | 0x0B1 =>
      some ⟨f.resBad false ++ [(0x09, (voteOp? f.rm3).isNone), (0x08, f.fbs || nz f.fm3 || nz f.opb || nz f.opc),
        f.uniBad false], f.resUse 1 ++ [pUse f.opa], false, false,
        .vote c ((voteOp? f.rm3).getD .any) d (f.opa.setWidth 4)⟩
  | 0x0B2 =>
      let op := (laneOp? f.rm3).getD .add
      let ty := (laneTy? f.fm3).getD .u32
      some ⟨f.resBad ty.wide ++ [(0x09, (laneOp? f.rm3).isNone || (laneTy? f.fm3).isNone || (op.isLogic && ty.isFloat)),
        (0x08, f.fbs || nz f.opb || nz f.opc), f.uniBad false],
        f.resUse (wn ty.wide) ++ [vUse f.opa (wn ty.wide)], false, ty.wide, .lred c op ty d a⟩
  | 0x0B3 =>
      let op := (laneOp? f.rm3).getD .add
      let ty := (laneTy? f.fm3).getD .u32
      some ⟨f.resBad ty.wide ++ [(0x09, (laneOp? f.rm3).isNone || (laneTy? f.fm3).isNone || (op.isLogic && ty.isFloat)),
        (0x08, nz f.opb || nz f.opc), f.uniBad false],
        f.resUse (wn ty.wide) ++ [vUse f.opa (wn ty.wide)], false, ty.wide, .lscan c op ty f.fbs d a⟩
  | _ => none

/-! ## Memory, atomics and copies (R258 to R282) -/

/-- The base of a global address: a scalar pair under sb = 1 (R259). -/
def Fields.aBase (f : Fields) : ABase := if f.m 58 then .scal (mkS f.opa) else .vec (mkSrc f.opa)
def Fields.aBaseUse (f : Fields) : Use :=
  if f.m 58 then ⟨.scal, f.opa.toNat, 2, true, true⟩ else vUse f.opa 2
def Fields.aIdx (f : Fields) : Option Src := if f.m 59 then some (mkSrc f.opb) else none
def Fields.aIdxUse (f : Fields) : List Use := if f.m 59 then [vUse f.opb 1] else []
def Fields.m2 (f : Fields) (i : Nat) : BitVec 2 := f.mod.extractLsb' (i - 57) 2

def Fields.loadOrd (f : Fields) : Nat × Bool := (0x0F, !(ordOf f.ordC).isLoad)
def Fields.storeOrd (f : Fields) : Nat × Bool := (0x0F, !(ordOf f.ordC).isStore)
def Fields.onlyOrd (f : Fields) (o : Ord) : Nat × Bool := (0x0F, ordOf f.ordC != o)

/-- A scalar instruction of this chapter: no per-lane result, no uniform bit (R258). -/
def Fields.scalarBad (f : Fields) : List (Nat × Bool) := [f.noRes, f.uniBad false]

def scal (x : BitVec 9) (n : Nat) : Use := ⟨.scal, x.toNat, n, n == 2, true⟩
def scalD (x : BitVec 8) (n : Nat) : Use := ⟨.scal, x.toNat, n, n == 2, false⟩

/-- Memory, block, copy and packet instructions. A word with a reserved op of `vstep` or `rop` is checked for unused fields as the accepted form
that its other bits are laid out like (DESIGN CHOICE, log entry 70). -/
def decodeMemory (u : UnitK) (f : Fields) : Option Entry :=
  let c := f.ctl
  let at' := f.mattr
  let sz := sz? f.rm3
  let szv := sz.getD .b32
  let st := stSz? f.rm3
  let stv := st.getD .b32
  let ln := wn szv.wide
  let sn := wn stv.wide
  let spad (ld rem : Bool) : List (Nat × Bool) :=
    [(0x0F, !spadAttr ld rem { at' with evict := 0 }), (0x08, nz f.evict)]
  match f.op.toNat with
  | 0x0E0 =>
      let sc := f.m 60
      if sc then
        some ⟨f.xpBad u ++ f.scalarBad ++ [(0x09, sz.isNone), (0x08, f.m 59 || f.m 58 || f.m 57 || nz f.opb || nz f.opc),
          f.loadOrd], [sDstUse u f.dst ln, sUse u f.opa 2], false, false,
          .ld c szv at' (.scal (mkS8 f.dst) (mkS f.opa)) f.off24⟩
      else
        some ⟨f.xpBad u ++ f.resBad szv.wide ++ [(0x05, u == .xp), (0x09, sz.isNone),
          (0x08, f.m 57 || (!f.m 59 && nz f.opb) || nz f.opc), f.loadOrd],
          f.resUse ln ++ [f.aBaseUse] ++ f.aIdxUse, false, szv.wide,
          .ld c szv at' (.vec f.uni f.mkDst f.aBase f.aIdx) f.off24⟩
  | 0x0E1 =>
      let sc := f.m 60
      let cr := f.m 57
      let bad := [f.noRes, (0x09, st.isNone || (cr && decide (f.rm3.toNat < 4))), (0x08, nz f.dst), f.storeOrd]
      let o : StOps := if sc then .scal (mkS f.opa) (mkS f.opc) else .vec f.uni f.aBase f.aIdx (mkSrc f.opc)
      let bad2 := if sc then [(0x08, f.m 59 || f.m 58 || nz f.opb), f.uniBad false] else [(0x08, !f.m 59 && nz f.opb)]
      let uses := if sc then [scal f.opa 2, scal f.opc sn] else [f.aBaseUse] ++ f.aIdxUse ++ [vUse f.opc sn]
      some ⟨bad ++ bad2, uses, false, false,
        if cr then .stCr c stv.wide at' o f.off24 else .st c stv at' o f.off24⟩
  | 0x0E2 => some ⟨f.resBad szv.wide ++ spad true false ++ [(0x09, sz.isNone),
      (0x08, f.m 60 || f.m 59 || f.m 58 || nz f.opb || nz f.opc)], f.resUse ln ++ [vUse f.opa 1], false, szv.wide,
      .lds c f.uni szv (f.m 57) at' f.mkDst (mkSrc f.opa) f.off24⟩
  | 0x0E3 => some ⟨[f.noRes] ++ spad false false ++ [(0x09, st.isNone),
      (0x08, f.m 60 || f.m 59 || f.m 58 || nz f.opb || nz f.dst)], [vUse f.opa 1, vUse f.opc sn], false, false,
      .sts c f.uni stv (f.m 57) at' (mkSrc f.opa) (mkSrc f.opc) f.off24⟩
  | 0x0E4 => some ⟨f.resBad szv.wide ++ spad true true ++ [(0x09, sz.isNone),
      (0x08, f.m 60 || f.m 59 || nz f.opc)],
      f.resUse ln ++ [vUse f.opa 1, if f.m 58 then scal f.opb 1 else vUse f.opb 1], false, szv.wide,
      .ldc c f.uni szv (f.m 57) at' f.mkDst (mkSrc f.opa)
        (if f.m 58 then .scal (mkS f.opb) else .vec (mkSrc f.opb)) f.off24⟩
  | 0x0E5 => some ⟨[f.noRes] ++ spad false true ++ [(0x09, st.isNone), (0x08, f.m 60 || f.m 59 || nz f.dst)],
      [vUse f.opa 1, if f.m 58 then scal f.opb 1 else vUse f.opb 1, vUse f.opc sn], false, false,
      .stc c f.uni stv (f.m 57) at' (mkSrc f.opa)
        (if f.m 58 then .scal (mkS f.opb) else .vec (mkSrc f.opb)) (mkSrc f.opc) f.off24⟩
  | 0x0E8 => some ⟨f.resBad szv.wide ++ [(0x09, sz.isNone), (0x08, f.m 60 || f.m 59 || f.m 57), f.onlyOrd .acq],
      f.resUse ln ++ [f.aBaseUse, scal f.opb 1, scal f.opc 1], false, szv.wide,
      .ldv c f.uni szv at' f.mkDst f.aBase (mkS f.opb) (mkS f.opc) f.off24⟩
  | 0x0E9 =>
      let fm := vfmt? (f.m2 60)
      some ⟨f.scalarBad ++ [(0x09, f.m 63 || fm.isNone || (rmode? f.fm3).isNone), (0x08, nz f.off24),
        (0x0D, decide (f.opc.toNat > 122) && decide (f.opc.toNat < 256)), f.onlyOrd .ar],
        [scalD f.dst 1, scal f.opa 2, scal f.opb 2, ⟨.scal, f.opc.toNat, 1, true, true⟩], false, false,
        .vupd c (f.m 62) (fm.getD .f32) ((rmode? f.fm3).getD .rn) at' (mkS8 f.dst) (mkS f.opa) (mkS f.opb) (mkS f.opc)⟩
  | 0x0EA =>
      let bad := f.scalarBad ++ [(0x09, f.m 63), (0x08, f.m 61 || f.m 60 || f.m 59 || f.m 58 || f.m 57),
        (0x08, nz f.off24 || nz f.opc)]
      if f.m 62 then
        some ⟨bad ++ [(0x08, nz f.dst), f.onlyOrd .rel], [scal f.opa 2, scal f.opb 1], false, false,
          .vstepSet c at' (mkS f.opa) (mkS f.opb)⟩
      else
        some ⟨bad ++ [(0x08, nz f.opb), f.onlyOrd .acq], [scalD f.dst 1, scal f.opa 2], false, false,
          .vstepRd c at' (mkS8 f.dst) (mkS f.opa)⟩
  | 0x0F0 =>
      let op := atomOp? (f.mod.extractLsb' 3 4)
      let opv := op.getD .xchg
      let w := f.m 59
      some ⟨f.resBad w ++ [(0x09, op.isNone), (0x08, f.m 57 || (opv != .cas && nz f.opc))],
        f.resUse (wn w) ++ [f.aBaseUse, vUse f.opb (wn w)] ++ (if opv == .cas then [vUse f.opc (wn w)] else []),
        false, w, .atom c f.uni opv w at' f.mkDst f.aBase (mkSrc f.opb) (mkSrc f.opc) f.off24⟩
  | 0x0F4 =>
      let w := f.rm3 == 5
      some ⟨f.scalarBad ++ [(0x09, decide (f.rm3.toNat < 4) || decide (f.rm3.toNat > 5)),
        (0x08, f.m 60 || f.m 59 || f.m 58 || f.m 57), f.loadOrd],
        [scalD f.dst (wn w), scal f.opa 2, scal f.opb (wn w), scal f.opc 1], false, false,
        .mwait c w at' (mkS8 f.dst) (mkS f.opa) (mkS f.opb) (mkS f.opc) f.off24⟩
  | 0x0F5 => some ⟨f.scalarBad ++ [(0x08, nz (f.mod.extractLsb' 0 6) || nz f.opa || nz f.opb || nz f.opc || nz f.off24 ||
      nz f.evict), (0x0F, ordOf f.ordC == .rlx)], [pDstUse f.dst], false, false,
      .fence c (f.m 63) (ordOf f.ordC) (scopeOf f.scopeC) (mkP8 f.dst)⟩
  | 0x0F8 => some ⟨f.scalarBad ++ [(0x08, nz f.mod || nz f.off24 || nz f.dst || nz f.opc), f.onlyOrd .ar],
      [scal f.opa 2, scal f.opb 1], false, false, .seal c at' (mkS f.opa) (mkS f.opb)⟩
  | 0x0F9 => some ⟨f.scalarBad ++ [(0x08, nz f.mod || nz f.off24 || nz f.dst || nz f.opc), f.onlyOrd .ar],
      [scal f.opa 2, scal f.opb 1], false, false, .unseal c at' (mkS f.opa) (mkS f.opb)⟩
  | 0x0FA =>
      let op := crOp? (f.mod.extractLsb' 3 4)
      some ⟨f.scalarBad ++ [(0x09, op.isNone), (0x08, nz f.fm3 || nz f.off24 || nz f.dst || nz f.opc), f.onlyOrd .ar],
        [scal f.opa 2, scal f.opb 1], false, false, .crdecl c (op.getD .addf32) at' (mkS f.opa) (mkS f.opb)⟩
  | 0x0FB => some ⟨f.scalarBad ++ [(0x08, nz (f.mod.extractLsb' 0 6) || nz f.off24 || nz f.dst || nz f.opb || nz f.opc),
      f.onlyOrd .ar], [scal f.opa 2], false, false, .crflush c (f.m 63) at' (mkS f.opa)⟩
  | 0x0FC => some ⟨[f.noRes, (0x08, f.m 62 || f.m 61 || f.m 60 || f.m 57 || (!f.m 59 && nz f.opb) || nz f.dst || nz f.opc),
      (0x0F, ordOf f.ordC != .rlx || scopeOf f.scopeC != .wv)], [f.aBaseUse] ++ f.aIdxUse, false, false,
      .prefetch c f.uni (f.m 63) f.evict f.aBase f.aIdx f.off24⟩
  | 0x100 =>
      let sk := mkind? (f.m2 62)
      let dk := mkind? (f.m2 60)
      some ⟨f.scalarBad ++ [(0x09, sk.isNone || dk.isNone), (0x08, nz f.fm3)],
        [⟨.queueLo, f.dst.toNat, 1, false, false⟩, scal f.opa 2, scal f.opb 2, scal f.opc 1], false, false,
        .cpy c (sk.getD .g) (dk.getD .g) (f.dst.setWidth 3) (mkS f.opa) (mkS f.opb) (mkS f.opc)⟩
  | 0x101 => some ⟨f.scalarBad ++ [(0x08, nz f.mod || nz f.opa || nz f.opb || nz f.opc || nz f.dst)], [], false, false,
      .cseal c⟩
  | 0x102 => some ⟨f.scalarBad ++ [(0x08, nz f.mod || nz f.opa), (0x09, decide (f.imm18.toNat > 15))],
      [pDstUse f.dst], false, false, .cwait c (f.imm18.setWidth 4) (mkP8 f.dst)⟩
  | 0x108 =>
      let n := f.m2 60
      let k := 2 * (n.toNat + 1)
      match (f.m2 62).toNat with
      | 0 => some ⟨f.scalarBad ++ [(0x08, nz f.fm3)],
          [⟨.scal, f.dst.toNat, k, true, false⟩, scal f.opa 2, ⟨.scal, f.opb.toNat, k, true, true⟩,
           ⟨.scal, f.opc.toNat, k, true, true⟩], false, false,
          .ropCas c at' n (mkS8 f.dst) (mkS f.opa) (mkS f.opb) (mkS f.opc) f.off24⟩
      | 1 => some ⟨f.scalarBad ++ [(0x08, nz f.fm3 || nz n || nz f.opc)],
          [scalD f.dst 2, scal f.opa 2, scal f.opb 2], false, false,
          .ropEnq c at' (mkS8 f.dst) (mkS f.opa) (mkS f.opb) f.off24⟩
      | _ => some ⟨f.scalarBad ++ [(0x09, f.m2 62 == 3), (0x08, nz f.fm3 || nz n || nz f.opc)],
          [⟨.scal, f.dst.toNat, 3, true, false⟩, scal f.opa 2, scal f.opb 1], false, false,
          .ropChase c at' (mkS8 f.dst) (mkS f.opa) (mkS f.opb) f.off24⟩
  | 0x109 => some ⟨f.scalarBad ++ [(0x08, nz (f.mod.extractLsb' 0 6) || nz f.opb || nz f.opc),
      (0x0D, decide (f.dst.toNat > 124))], [⟨.scal, f.dst.toNat, 1, true, false⟩, scal f.opa 1], false, false,
      .flq c (f.m 63) (mkS8 f.dst) (mkS f.opa)⟩
  | _ => none

/-! ## Matrix (R287 to R300) -/

def accUse (x : Nat) (n : Nat) (src : Bool) : Use := ⟨.acc, x, n, false, src⟩

/-- The matrix opcodes. Under a reserved rounding mode of `mst`, sb and ope count as unused, as under .rn (R167; DESIGN CHOICE, log entry
70). -/
def decodeMatrix (f : Fields) : Option Entry :=
  let c := f.ctl
  let op := f.op.toNat
  match mmaFmt? op with
  | some fm =>
      let sf := f.m 62
      let q := f.m 63
      let dense := fm.recs == 0
      let aoq : BitVec 3 := f.hi.extractLsb' 13 3
      let asel : BitVec 8 := f.hi.extractLsb' 16 8
      let bsel : BitVec 8 := f.hi.extractLsb' 24 8
      let noScale := dense || sf
      let b : MmaB := if q then .quarter (mkSrc f.opa) else .wave (mkS f.opa)
      some ⟨f.scalarBad ++ [(0x08, nz f.ext || nz (f.mod.extractLsb' 0 5)), (0x09, sf && dense),
        (0x09, decide (aoq.toNat * 16 + fm.ca > 128)),
        (0x08, if noScale then nz f.opb || nz f.opc || nz asel || nz bsel
               else !selOk fm asel || !selOk fm bsel)],
        [accUse f.dst.toNat (if fm == .f64 then 16 else 8) false, if q then vUse f.opa 1 else scal f.opa 1] ++
        (if noScale then [] else [vUse f.opb 1, vUse f.opc 1]), sf, false,
        .mma c fm sf (f.dst.extractLsb' 3 5) b (f.hi.extractLsb' 0 13) aoq (mkSrc f.opb) (mkSrc f.opc) asel bsel⟩
  | none =>
    match op with
    | 0x150 =>
        let k := gkind? f.rm3
        let kv := k.getD .w
        let n : BitVec 6 := f.ext.extractLsb' 0 6
        let ro : BitVec 3 := f.ext.extractLsb' 6 3
        let isW := kv == .w
        some ⟨(if isW then [f.noRes, (0x08, k.isSome && nz f.dst)] else f.resBad false) ++
          [(0x09, k.isNone || !gatOk kv n ro), (0x08, nz (f.mod.extractLsb' 0 4) || nz (f.ext.extractLsb' 9 23)),
           f.uniBad false],
          (if isW then [] else f.resUse 1) ++ [vUse f.opa 1, scal f.opb 1, scal f.opc 1], false, false,
          .mgat c kv f.mkDst (mkSrc f.opa) (mkS f.opb) (mkS f.opc) n ro⟩
    | 0x151 =>
        let k := gkind? f.rm3
        let kv := k.getD .b8
        let n : BitVec 6 := f.ext.extractLsb' 0 6
        let ro : BitVec 3 := f.ext.extractLsb' 6 3
        some ⟨(if k.isNone || kv == .w then [f.noRes] else f.resBad false) ++ [(0x09, k.isNone || kv == .w || !gatOk kv n ro),
          (0x08, nz (f.mod.extractLsb' 0 4) || nz (f.ext.extractLsb' 9 23) || nz f.opc),
          (0x0D, decide (f.opb.toNat > 123) && decide (f.opb.toNat < 256)), f.uniBad false],
          f.resUse 1 ++ [vUse f.opa 1, scal f.opb 1], false, false,
          .mldt c kv f.mkDst (mkSrc f.opa) (mkS f.opb) n ro⟩
    | 0x152 =>
        let dfm := mstFmt? (f.hi.extractLsb' 0 4)
        let dv := dfm.getD .f32
        let s64 := f.hi.getLsbD 4
        let cnt : BitVec 2 := f.hi.extractLsb' 5 2
        let sb : SReg := f.hi.extractLsb' 7 7
        let pset := f.hi.getLsbD 14
        let rm := (rmode? f.rm3).getD .rn
        let sat := f.m 60
        let sq := f.m 59
        some ⟨f.scalarBad ++ [(0x08, nz (f.hi.extractLsb' 15 17) || nz f.mod2 || nz f.dst2 || nz f.dst || f.m 58 || f.m 57),
          (0x08, !rm.isSr && (nz sb || nz f.ope)), (0x09, decide (sb.toNat > 125)),
          (0x09, dfm.isNone || (rmode? f.rm3).isNone || (sat && !dv.isF8) || (sq && !dv.blocked) ||
            (dv == .f64 && !s64) || (dv.blocked && cnt != 3))],
          [scal f.opc 1, vUse f.opb 1, scal f.opd 1,
           accUse f.opa.toNat (8 * (cnt.toNat + 1) * (if s64 then 2 else 1)) true] ++
          (if rm.isSr then [vUse f.ope 2] else []), false, false,
          .mst c dv s64 sq rm sat pset (mkS f.opc) (mkSrc f.opb) (mkS f.opd) (f.opa.extractLsb' 3 5) cnt
            (mkSrc f.ope) sb⟩
    | 0x153 =>
        let w := f.m 63
        let cnt := f.m2 61
        some ⟨[f.noRes, f.uniBad true, (0x08, nz (f.mod.extractLsb' 0 4) || nz f.opa || nz f.opb || nz f.opc)],
          [accUse f.dst.toNat (8 * (cnt.toNat + 1) * (if w then 2 else 1)) false], false, false,
          .mzero c f.uni w cnt (f.dst.extractLsb' 3 5)⟩
    | 0x154 =>
        some ⟨f.scalarBad ++ [(0x08, nz (f.mod.extractLsb' 0 5) || nz f.dst || nz f.ope || nz f.dst2 || nz f.mod2 || nz f.hi)],
          [scal f.opa 1, scal f.opb 1, scal f.opc 1, scal f.opd 1], false, false,
          .tred c (f.m 63) (f.m 62) (mkS f.opa) (mkS f.opb) (mkS f.opc) (mkS f.opd)⟩
    | 0x155 =>
        some ⟨f.scalarBad ++ [(0x08, nz f.mod || nz f.opb || nz f.opc || nz f.dst)], [vUse f.opa 1], true, false,
          .msf c (mkSrc f.opa)⟩
    | _ => none

/-! ## Transfer processor (R316) -/

def xdUse (x : BitVec 9) (n : Nat) : Use := ⟨.xd, x.toNat, n, n == 2, true⟩
def xdDst (x : BitVec 8) (n : Nat) : Use := ⟨.xd, x.toNat, n, n == 2, false⟩

/-- `pc` is the transfer processor's program counter, which limits `xloop` (R317). -/
def decodeXp (u : UnitK) (pc : Nat) (f : Fields) : Option Entry :=
  let base := f.xpBad u ++ f.scalarBad
  let sk := mkind? (f.m2 62)
  let dk := mkind? (f.m2 60)
  let kBad := [(0x09, sk.isNone || dk.isNone), (0x08, nz f.fm3)]
  let skv := sk.getD .g
  let dkv := dk.getD .g
  let modZ : Nat × Bool := (0x08, nz f.mod)
  let k := f.imm18
  match f.op.toNat with
  | 0x160 => some ⟨base ++ [modZ, (0x08, nz f.dst), (0x09, k.toNat % 4 != 0 || decide (k.toNat < 16) ||
      decide (pc + k.toNat > 16384))], [xdUse f.opa 1], false, false, .xloop (mkD f.opa) k⟩
  | 0x161 => some ⟨base ++ [modZ, (0x08, nz f.opc)], [xdDst f.dst 2, xdUse f.opa 1, xdUse f.opb 1], false, false,
      .tadr (mkD8 f.dst) (mkD f.opa) (mkD f.opb)⟩
  | 0x162 => some ⟨base ++ [modZ, (0x08, nz f.opc)], [xdDst f.dst 1, xdUse f.opa 1, xdUse f.opb 1], false, false,
      .tinc (mkD8 f.dst) (mkD f.opa) (mkD f.opb)⟩
  | 0x163 => some ⟨base ++ [modZ, (0x08, nz f.opc)], [xdDst f.dst 1, xdUse f.opa 1, xdUse f.opb 1], false, false,
      .tin (mkD8 f.dst) (mkD f.opa) (mkD f.opb)⟩
  | 0x164 => some ⟨base ++ [(0x08, nz (f.mod.extractLsb' 0 6))], [xdDst f.dst (wn (f.m 63)), xdUse f.opa 1], false, false,
      .lidx (f.m 63) (mkD8 f.dst) (mkD f.opa) k⟩
  | 0x168 => some ⟨base ++ kBad ++ [(0x08, nz f.dst)], [xdUse f.opa 2, xdUse f.opb 2, xdUse f.opc 1], false, false,
      .xfer skv dkv (mkD f.opa) (mkD f.opb) (mkD f.opc)⟩
  | 0x169 => some ⟨base ++ kBad ++ [(0x08, nz f.dst || nz f.ope || nz f.dst2 || nz f.mod2 || nz (f.hi.extractLsb' 26 6)),
      (0x09, (f.hi.extractLsb' 0 16) == 0)], [xdUse f.opa 2, xdUse f.opb 2, xdUse f.opc 1, xdUse f.opd 1], false, false,
      .xferG skv dkv (mkD f.opa) (mkD f.opb) (mkD f.opc) (mkD f.opd) (f.hi.extractLsb' 0 16) (f.hi.extractLsb' 16 10)⟩
  | 0x16A => some ⟨base ++ kBad ++ [(0x08, nz f.dst || nz f.opc)], [xdUse f.opa 1, xdUse f.opb 2], false, false,
      .xferT skv dkv (mkD f.opa) (mkD f.opb)⟩
  | 0x16C => some ⟨base ++ [modZ, (0x08, nz f.dst || nz f.opb || nz f.opc)], [xdUse f.opa 1], false, false,
      .cgen (mkD f.opa)⟩
  | 0x16D => some ⟨base ++ [modZ, (0x08, nz f.opa || nz f.opb || nz f.opc)], [xdDst f.dst 1], false, false,
      .xwait (mkD8 f.dst)⟩
  | 0x170 => some ⟨base ++ [modZ, (0x08, nz f.dst), (0x09, !countOk 1 k)], [⟨.cb, f.opa.toNat, 1, false, true⟩], false,
      false, .cba f.ctl (f.opa.setWidth 4) k⟩
  | 0x171 => some ⟨base ++ [modZ, (0x08, nz f.dst), (0x09, !countOk 1 k)], [⟨.cb, f.opa.toNat, 1, false, true⟩], false,
      false, .cbw f.ctl (f.opa.setWidth 4) k⟩
  | 0x172 => some ⟨base ++ [modZ, (0x08, nz f.dst), (0x09, !countOk 0 k)], [⟨.cb, f.opa.toNat, 1, false, true⟩], false,
      false, .cbset f.ctl (f.opa.setWidth 4) k⟩
  | 0x178 => some ⟨base ++ [(0x08, nz (f.mod.extractLsb' 0 6) || nz f.dst || nz f.opb || nz f.opc)], [xdUse f.opa 2],
      false, false, .chain (f.m 63) (mkD f.opa)⟩
  | 0x17C => some ⟨base ++ [modZ, (0x08, nz f.dst || nz f.opa || nz f.opb || nz f.opc)], [], false, false, .xhalt⟩
  | _ => none

/-! ## Tasks, synchronisation and system (R336 to R358) -/

def decodeTask (u : UnitK) (f : Fields) : Option Entry :=
  let c := f.ctl
  let base := f.xpBad u ++ f.scalarBad
  let k := f.imm18
  let z (bs : List Bool) : Nat × Bool := (0x08, bs.any id)
  match f.op.toNat with
  | 0x1A0 =>
      let n : BitVec 3 := f.rm3
      some ⟨base ++ [z [nz (f.mod.extractLsb' 0 4), nz f.opb, nz f.opc, nz f.dst, n == 0 && nz f.opa],
        (0x09, decide (n.toNat > 4))], (if n == 0 then [] else [⟨.scal, f.opa.toNat, 2 * n.toNat, true, true⟩]), false, false,
        .exit c n (mkS f.opa)⟩
  | 0x1A1 => some ⟨base ++ [z [nz f.mod, nz f.opa, nz f.opb, nz f.opc, nz f.dst]], [], false, false, .wbar c⟩
  | 0x1A2 => some ⟨base ++ [z [nz f.mod, nz f.opb, nz f.opc, nz f.dst]], [scal f.opa 1], false, false, .sbar c (mkS f.opa)⟩
  | 0x1A4 => some ⟨base ++ [z [nz f.mod, nz f.opa, nz f.dst], (0x09, !windowStepOk k)], [], false, false, .rclaim c k⟩
  | 0x1A5 => some ⟨base ++ [z [nz f.mod, nz f.opa, nz f.dst], (0x09, !windowStepOk k)], [], false, false, .rrel c k⟩
  | 0x1A8 =>
      if f.m 63 then
        some ⟨base ++ [z [nz (f.mod.extractLsb' 0 6), nz f.dst, nz f.opa, nz f.opb]], [scal f.opc 1], false, false,
          .asetDel c (mkS f.opc)⟩
      else
        some ⟨base ++ [z [nz (f.mod.extractLsb' 0 6), nz f.dst]], [scal f.opa 2, scal f.opb 1, scal f.opc 1], false, false,
          .aset c (mkS f.opa) (mkS f.opb) (mkS f.opc)⟩
  | 0x1A9 =>
      if f.m 63 then
        some ⟨base ++ [z [nz (f.mod.extractLsb' 0 6), nz f.opb, nz f.opc]], [pDstUse f.dst, scal f.opa 2], false, false,
          .ageLt c (mkP8 f.dst) (mkS f.opa)⟩
      else
        some ⟨base ++ [z [nz (f.mod.extractLsb' 0 6), nz f.opa, nz f.opb, nz f.opc]], [scalD f.dst 2], false, false,
          .age c (mkS8 f.dst)⟩
  | 0x1AA => some ⟨base ++ [z [nz f.mod, nz f.opa, nz f.opb, nz f.opc, nz f.dst]], [], false, false, .yield c⟩
  | 0x1B0 =>
      let q := mkP8 f.dst
      let p := mkS f.opa
      let i : Instr := match f.rm3.toNat with
        | 0 => .collRed c q p
        | 1 => .collA2a c q p
        | 2 => .collBcast c q p
        | _ => .collBar c q p
      some ⟨base ++ [z [nz (f.mod.extractLsb' 0 4), nz f.opb, nz f.opc], (0x09, decide (f.rm3.toNat > 3)),
        (0x0D, decide (f.opa.toNat > 120) && decide (f.opa.toNat < 256))],
        [⟨.queueHi, f.dst.toNat, 1, false, false⟩, ⟨.scal, f.opa.toNat, 1, true, true⟩], false, false, i⟩
  | 0x1B1 => some ⟨base ++ [z [nz f.mod, nz f.opb, nz f.opc]],
      [scalD f.dst 1, ⟨.queueHi, f.opa.toNat, 1, false, true⟩], false, false, .collRes c (mkS8 f.dst) (f.opa.setWidth 4)⟩
  | 0x1B2 => some ⟨base ++ [z [nz f.mod, nz f.opc, nz f.dst]], [scal f.opa 1, scal f.opb 1], false, false,
      .pstep c (mkS f.opa) (mkS f.opb)⟩
  | 0x1B8 => some ⟨base ++ [z [nz f.mod, nz f.opa, nz f.dst]], [], false, false, .trap c k⟩
  | 0x1B9 =>
      let wr := f.m 61
      let v : Option (BitVec 8 × Src) := if wr then some (f.dst, mkSrc f.opa) else none
      let i : Instr := match (f.m2 62).toNat with
        | 0 => .rftNext c v
        | 1 => .rftAgain c v
        | _ => .rftEnd c v
      some ⟨base ++ [z [nz (f.mod.extractLsb' 0 4), nz f.opb, nz f.opc, !wr && (nz f.dst || nz f.opa)],
        (0x09, f.m2 62 == 3)], (if wr then [vUse f.opa 1] else []), false, false, i⟩
  | 0x1C0 =>
      some ⟨base ++ [z [nz f.mod, nz f.opa], (0x11, !csrrOk u k)],
        [sDstUse u f.dst (if u == .core && sysWide k then 2 else 1)], false, false, .csrr c (mkS8 f.dst) k⟩
  | 0x1C1 =>
      let r := sysReg k.toNat
      let ok := u == .core && (match r with | some x => x.write | none => false)
      let pv := u == .core && (match r with | some x => x.priv && x.write | none => false)
      let a := mkS f.opa
      let i : Instr := match k.toNat with
        | 0x030 => .csrwXpChan c false a
        | 0x031 => .csrwXpChan c true a
        | 0x102 => .csrwFltTail c a
        | 0x110 => .csrwDbgCtl c a
        | _ => .csrw c k a
      some ⟨base ++ [z [nz f.mod, nz f.dst], (0x11, !ok)], [sUse u f.opa (if u == .core && sysWide k then 2 else 1)],
        pv, false, i⟩
  | 0x1C8 => some ⟨base ++ [z [nz f.mod, nz f.opa, nz f.opb, nz f.opc]], [scalD f.dst 1], true, false, .gen c (mkS8 f.dst)⟩
  | _ => none

/-- `nop` and hints (R172, R173): accepted in all three lengths. -/
def decodeNop (f : Fields) : Entry :=
  ⟨[(0x08, f.uni || f.wbs || f.le || nz f.lt || nz f.gd || f.gn || nz f.dst || nz f.opa || nz f.opb || nz f.opc ||
      nz f.mod || nz f.ext || nz f.hi)], [], false, false, .nop f.len f.rbf⟩

def decodeHint (f : Fields) : Entry := ⟨[], [], false, false, .hint f.len f.rbf (f.toWord.extractLsb' 3 125)⟩

/-- The entry of an assigned opcode; none where the opcode is not assigned. -/
def decodeEntry (u : UnitK) (pc : Nat) (f : Fields) : Option Entry :=
  let op := f.op.toNat
  if op == 0x001 then some (decodeNop f)
  else if op ≥ 0x1F0 then some (decodeHint f)
  else if op < 0x080 then decodeScalar u f
  else if op < 0x0E0 then decodeVector f
  else if op < 0x140 then decodeMemory u f
  else if op < 0x160 then decodeMatrix f
  else if op < 0x1A0 then decodeXp u pc f
  else decodeTask u f

/-- The state-dependent inputs of decode (R174, R175). -/
structure DecCtx where
  unit  : UnitK
  pc    : Nat         -- program counter of a transfer processor, or its offset in the fetch block on a core
  full  : Bool        -- the run has issued 24 instructions (R42)
  d     : Nat         -- the register window (R49)
  lw    : BitVec 4    -- the latch-written mask of the run (R47)
  priv  : Bool        -- the launch has privilege
deriving DecidableEq, Repr

/-- Decoding with the causes in the order of R174: the entry, or the first cause that applies. `w` is the word that
starts at the program counter, of which only the instruction's own bytes count. -/
def decodeWord (x : DecCtx) (w0 : BitVec 128) : Except Nat Entry :=
  let l := (w0.extractLsb' 0 2 : BitVec 2)
  if l == 3 then .error 0x01
  else if x.pc % 32 + lenBytes l > 32 then .error 0x02
  else
    let w : BitVec 128 := if l == 0 then (w0.setWidth 64).setWidth 128 else if l == 1 then (w0.setWidth 96).setWidth 128 else w0
    let op := (w.extractLsb' 4 9 : BitVec 9).toNat
    match opFormat op, decodeEntry x.unit x.pc (Fields.ofWord w) with
    | some fm, some e =>
      if !fm.lenOk l then .error 0x04
      else
        let early : List (Nat × Bool) :=
          [(0x05, !opOnUnit x.unit op), (0x06, x.unit == .core && x.full),
           (0x07, x.unit == .core && opNeedsRbf op && !w.getLsbD 2),
           (0x10, e.priv && !x.priv)]
        match firstCause (early ++ e.bad ++ e.uses.flatMap (Use.bad x.d x.lw)) with
        | some cz => .error cz
        | none => .ok e
    | _, _ => .error 0x03

/-- The decode context that puts no condition on the state. -/
def DecCtx.free (u : UnitK) : DecCtx := ⟨u, 0, false, 256, 15, true⟩

/-- Little-endian bytes to a number (R4). -/
def ofBytes : List Byte → Nat
  | [] => 0
  | b :: bs => b.toNat + 256 * ofBytes bs

/-- The `n` low bytes of a number, little-endian (R4). -/
def toBytes : Nat → Nat → List Byte
  | 0, _ => []
  | n + 1, x => BitVec.ofNat 8 x :: toBytes n (x / 256)

/-- The decoder on bytes, total: an instruction with its length in bytes, or the cause of R174. -/
def decode (u : UnitK) (bs : List Byte) : Except Nat (Instr × Nat) :=
  let w : BitVec 128 := BitVec.ofNat 128 (ofBytes (bs.take 16))
  match decodeWord (DecCtx.free u) w with
  | .error c => .error c
  | .ok e => if bs.length < lenBytes (w.extractLsb' 0 2) then .error 0x02 else .ok (e.instr, lenBytes (w.extractLsb' 0 2))

/-- The instruction that the decoder reads from a word of the opcode table's numbering; a word that only a transfer
processor accepts is read as its instruction. -/
def decodeTableWord (nbits w : Nat) : Option Instr :=
  let bs := toBytes 16 (w % 2 ^ nbits)
  match decode .core bs with
  | .ok (i, _) => some i
  | .error _ =>
    match decode .xp bs with
    | .ok (i, _) => some i
    | .error _ => none

/-! ## The encoder: the words of a well-formed instruction, from the same tables -/

/-- The source field of a vector operand (R162). -/
def Src.enc : Src → BitVec 9
  | .reg n => n.setWidth 9
  | .latch t => 256 + t.setWidth 9

def sEnc (n : SReg) : BitVec 9 := n.setWidth 9
def sEnc8 (n : SReg) : BitVec 8 := n.setWidth 8
def dEnc (n : DReg) : BitVec 9 := n.setWidth 9
def dEnc8 (n : DReg) : BitVec 8 := n.setWidth 8
def pEnc (n : BitVec 4) : BitVec 9 := n.setWidth 9
def pEnc8 (n : BitVec 4) : BitVec 8 := n.setWidth 8

def ICond.enc : ICond → BitVec 4
  | .eq => 0 | .ne => 1 | .lt => 2 | .le => 3 | .gt => 4 | .ge => 5 | .ltu => 6 | .leu => 7 | .gtu => 8 | .geu => 9
def POp.enc : POp → BitVec 4
  | .and => 0 | .or => 1 | .xor => 2 | .andn => 3
def RMode.enc : RMode → BitVec 3
  | .rn => 0 | .rz => 1 | .ru => 2 | .rd => 3 | .sr => 4
def FFmt.enc : FFmt → BitVec 3
  | .f32 => 0 | .f64 => 1 | .f16 => 2 | .bf16 => 3
def FCond.enc : FCond → BitVec 3
  | .eq => 0 | .ne => 1 | .lt => 2 | .le => 3 | .gt => 4 | .ge => 5
def CTy.enc : CTy → BitVec 4
  | .f64 => 0 | .f32 => 1 | .f16 => 2 | .bf16 => 3 | .e5m2 => 4 | .e4m3 => 5 | .i32 => 6 | .u32 => 7 | .i64 => 8
  | .u64 => 9
def CCnt.enc : CCnt → BitVec 2
  | .x1 => 0 | .x2 => 1 | .x4 => 2
def ShflMode.enc : ShflMode → BitVec 3
  | .idx => 0 | .up => 1 | .down => 2 | .xor => 3
def VoteOp.enc : VoteOp → BitVec 3
  | .any => 0 | .all => 1 | .ballot => 2 | .eq => 3
def LaneOp.enc : LaneOp → BitVec 3
  | .add => 0 | .min => 1 | .max => 2 | .and => 3 | .or => 4 | .xor => 5
def LaneTy.enc : LaneTy → BitVec 3
  | .u32 => 0 | .s32 => 1 | .f32 => 2 | .u64 => 3 | .s64 => 4 | .f64 => 5
def Scope.enc : Scope → BitVec 3
  | .wv => 0 | .co => 1 | .sr => 2 | .cl => 3 | .di => 4 | .dv => 5 | .pd => 6 | .sy => 7
def Ord.enc : Ord → BitVec 2
  | .rlx => 0 | .acq => 1 | .rel => 2 | .ar => 3
def Sz.enc : Sz → BitVec 3
  | .b8 => 0 | .b8s => 1 | .b16 => 2 | .b16s => 3 | .b32 => 4 | .b64 => 5
def StSz.enc : StSz → BitVec 3
  | .b8 => 0 | .b16 => 2 | .b32 => 4 | .b64 => 5
def AtomOp.enc : AtomOp → BitVec 4
  | .xchg => 0 | .add => 1 | .sub => 2 | .and => 3 | .or => 4 | .xor => 5 | .min => 6 | .max => 7 | .umin => 8
  | .umax => 9 | .fadd => 10 | .fmin => 11 | .fmax => 12 | .cas => 13
def CrOp.enc : CrOp → BitVec 4
  | .addf32 => 0 | .addf64 => 1 | .addi32 => 2 | .addi64 => 3 | .maxf32 => 4 | .minf32 => 5
def VFmt.enc : VFmt → BitVec 2
  | .f32 => 0 | .bf16 => 1 | .f16 => 2
def MKind.enc : MKind → BitVec 2
  | .g => 0 | .l => 1 | .c => 2
def MmaFmt.opcode : MmaFmt → BitVec 9
  | .f64 => 0x140 | .f32 => 0x141 | .bf16 => 0x142 | .f16 => 0x143 | .e4m3 => 0x144 | .e5m2 => 0x145
  | .b8e4m3 => 0x146 | .b6e3m2 => 0x147 | .b6e2m3 => 0x148 | .b4e2m1 => 0x149 | .p2 => 0x14A
def GKind.enc : GKind → BitVec 3
  | .w => 0 | .b8 => 1 | .b6 => 2 | .b4 => 3
def MstFmt.enc : MstFmt → BitVec 4
  | .f64 => 0 | .f32 => 1 | .bf16 => 2 | .f16 => 3 | .e5m2 => 4 | .e4m3 => 5 | .b8e4m3 => 6 | .b6e3m2 => 7
  | .b6e2m3 => 8 | .b4e2m1 => 9

/-- The header of an instruction: length code, opcode, guard and run-boundary flag (R159). -/
def Ctl.head (c : Ctl) (len : BitVec 2) (op : BitVec 9) : Fields where
  len := len
  rbf := c.rbf
  uni := false
  op := op
  wbs := false
  le := false
  lt := 0
  gd := c.guard.pred + 1
  gn := c.guard.neg
  dst := 0
  opa := 0
  opb := 0
  opc := 0
  mod := 0
  ext := 0
  hi := 0

/-- A per-lane result (R164). -/
def Fields.res (f : Fields) (uni : Bool) (d : Dst) : Fields :=
  { f with uni := uni, wbs := d.reg.isNone, dst := d.reg.getD 0, le := d.latch.isSome, lt := d.latch.getD 0 }

/-- The modifier field of opcodes 0x002 to 0x07F (R202). -/
def gMod (sc bs w : Bool) (fn : BitVec 4) : BitVec 7 := BitVec.ofBool sc ++ BitVec.ofBool bs ++ BitVec.ofBool w ++ fn

def BSrc.isScal : BSrc → Bool
  | .vec _ => false
  | .scal _ => true
def BSrc.enc : BSrc → BitVec 9
  | .vec s => s.enc
  | .scal n => sEnc n

def Fields.g1 (f : Fields) (w : Bool) (fn : BitVec 4) : Gen1 → Fields
  | .vec u d a => { f.res u d with opa := a.enc, mod := gMod false false w fn }
  | .scal d a => { f with dst := sEnc8 d, opa := sEnc a, mod := gMod true false w fn }
def Fields.g2 (f : Fields) (w : Bool) (fn : BitVec 4) : Gen2 → Fields
  | .vec u d a b => { f.res u d with opa := a.enc, opb := b.enc, mod := gMod false b.isScal w fn }
  | .scal d a b => { f with dst := sEnc8 d, opa := sEnc a, opb := sEnc b, mod := gMod true false w fn }
def Fields.g3 (f : Fields) (w : Bool) : Gen3 → Fields
  | .vec u d a b c => { f.res u d with opa := a.enc, opb := b.enc, opc := c.enc, mod := gMod false b.isScal w 0 }
  | .scal d a b c => { f with dst := sEnc8 d, opa := sEnc a, opb := sEnc b, opc := sEnc c, mod := gMod true false w 0 }
def Fields.gM (f : Fields) (w : Bool) : GenM → Fields
  | .vec u d b => { f.res u d with opb := b.enc, mod := gMod false b.isScal w 0 }
  | .scal d b => { f with dst := sEnc8 d, opb := sEnc b, mod := gMod true false w 0 }
def Fields.g0 (f : Fields) (w : Bool) (fn : BitVec 4) : Gen0 → Fields
  | .vec u d => { f.res u d with mod := gMod false false w fn }
  | .scal d => { f with dst := sEnc8 d, mod := gMod true false w fn }
def Fields.c2 (f : Fields) (w : Bool) (fn : BitVec 4) : Cmp2 → Fields
  | .vec a b => { f with opa := a.enc, opb := b.enc, mod := gMod false b.isScal w fn }
  | .scal a b => { f with opa := sEnc a, opb := sEnc b, mod := gMod true false w fn }
def Cmp1.enc : Cmp1 → BitVec 9
  | .vec a => a.enc
  | .scal a => sEnc a
def Cmp1.isScal : Cmp1 → Bool
  | .vec _ => false
  | .scal _ => true
/-- The 18-bit immediate of format B. -/
def Fields.im (f : Fields) (k : BitVec 18) : Fields := { f with opb := k.extractLsb' 0 9, opc := k.extractLsb' 9 9 }

/-- Two, one and immediate general sources by opcode. -/
def enc2 (c : Ctl) (op : BitVec 9) (w : Bool) (fn : BitVec 4) (o : Gen2) : Fields := (c.head 0 op).g2 w fn o
def enc1 (c : Ctl) (op : BitVec 9) (w : Bool) (o : Gen1) : Fields := (c.head 0 op).g1 w 0 o
def encI (c : Ctl) (op : BitVec 9) (w : Bool) (fn : BitVec 4) (o : Gen1) (k : BitVec 18) : Fields :=
  ((c.head 0 op).g1 w fn o).im k
def sCode (s : Bool) : BitVec 4 := if s then 1 else 0

/-- Floating point (R236): rounding mode or operation, bs, format. -/
def fMod (rm : BitVec 3) (bs : Bool) (fmt : BitVec 3) : BitVec 7 := rm ++ BitVec.ofBool bs ++ fmt
def encF (c : Ctl) (op : BitVec 9) (uni : Bool) (fmt : FFmt) (rm : BitVec 3) (d : Dst) (a : Src) (b : Option BSrc)
    (e : Option Src) : Fields :=
  { (c.head 0 op).res uni d with
    opa := a.enc
    opb := (match b with | some x => x.enc | none => 0)
    opc := (match e with | some x => x.enc | none => 0)
    mod := fMod rm (match b with | some x => x.isScal | none => false) fmt.enc }

/-- Format M (R161). -/
def MAttr.enc (m : MAttr) (off : BitVec 24) : Word := off ++ m.evict ++ m.scope.enc ++ m.ord.enc
def b4 (a b c d : Bool) : BitVec 4 := BitVec.ofBool a ++ BitVec.ofBool b ++ BitVec.ofBool c ++ BitVec.ofBool d
def ABase.isScal : ABase → Bool
  | .vec _ => false
  | .scal _ => true
def ABase.enc : ABase → BitVec 9
  | .vec s => s.enc
  | .scal n => sEnc n
def idxEnc (i : Option Src) : BitVec 9 :=
  match i with
  | some x => x.enc
  | none => 0

def stFields (c : Ctl) (sz : BitVec 3) (cr : Bool) (m : MAttr) (o : StOps) (off : BitVec 24) : Fields :=
  let f := { c.head 1 0x0E1 with ext := m.enc off }
  match o with
  | .vec u base i data => { f with
      uni := u, opa := base.enc, opb := idxEnc i, opc := data.enc, mod := sz ++ b4 false i.isSome base.isScal cr }
  | .scal base data => { f with opa := sEnc base, opc := sEnc data, mod := sz ++ b4 true false false cr }

def kMod (sk dk : MKind) : BitVec 7 := sk.enc ++ dk.enc ++ (0 : BitVec 3)

def rftFields (c : Ctl) (code : BitVec 2) (wr : Option (BitVec 8 × Src)) : Fields :=
  { c.head 0 0x1B9 with
    dst := (match wr with | some x => x.1 | none => 0)
    opa := (match wr with | some x => x.2.enc | none => 0)
    mod := code ++ BitVec.ofBool wr.isSome ++ (0 : BitVec 4) }

def collFields (c : Ctl) (op : BitVec 3) (q : BitVec 4) (sP : SReg) : Fields :=
  { c.head 0 0x1B0 with dst := pEnc8 q, opa := sEnc sP, mod := op ++ (0 : BitVec 4) }

/-- A transfer processor's words carry no guard and no run-boundary flag that anything reads. -/
def xpHead (len : BitVec 2) (op : BitVec 9) : Fields := (Ctl.head ⟨Guard.always, false⟩ len op)

/-- The fields of the word of an instruction; events have none. -/
def Instr.fields : Instr → Fields
  | .nop len rbf => { xpHead len 0x001 with rbf := rbf }
  | .hint len rbf rest => Fields.ofWord (rest ++ BitVec.ofBool rbf ++ len)
  | .br c off => { c.head 1 0x002 with ext := off }
  | .bcmp c cond w o off => { (c.head 1 0x003).c2 w cond.enc o with ext := off }
  | .dbnz c w r off =>
      { c.head 1 0x004 with
        ext := off
        dst := (match r with | .v n => n | .s n => sEnc8 n)
        mod := gMod (match r with | .v _ => false | .s _ => true) false w 0 }
  | .brx c t => { c.head 0 0x005 with opa := t.enc, mod := gMod t.isScal false false 0 }
  | .btab c base idx n =>
      { c.head 1 0x006 with opa := sEnc base, opb := idx.enc, mod := gMod idx.isScal false false 0, ext := n }
  | .call c link off => { c.head 1 0x007 with dst := link, ext := off }
  | .callx c link t => { c.head 0 0x008 with dst := link, opa := t.enc }
  | .ret c t => { c.head 0 0x009 with opa := t.enc, mod := gMod t.isScal false false 0 }
  | .rcvArm c rb => { c.head 0 0x00A with opa := rb.setWidth 9 }
  | .rcvJoin c rb => { c.head 0 0x00B with opa := rb.setWidth 9 }
  | .rcvDrop c rb => { c.head 0 0x00C with opa := rb.setWidth 9 }
  | .brk c code => (c.head 0 0x00D).im code
  | .add c w o => enc2 c 0x020 w 0 o
  | .sub c w o => enc2 c 0x021 w 0 o
  | .mul c w o => enc2 c 0x022 w 0 o
  | .mulh c s w o => enc2 c 0x023 w (sCode s) o
  | .mad c w o => (c.head 0 0x024).g3 w o
  | .div c s w o => enc2 c 0x025 w (sCode s) o
  | .rem c s w o => enc2 c 0x026 w (sCode s) o
  | .min c s w o => enc2 c 0x027 w (sCode s) o
  | .max c s w o => enc2 c 0x028 w (sCode s) o
  | .adds c s w o => enc2 c 0x029 w (sCode s) o
  | .subs c s w o => enc2 c 0x02A w (sCode s) o
  | .abs c w o => enc1 c 0x02B w o
  | .addi c w o k => encI c 0x02C w 0 o k
  | .and c w o => enc2 c 0x030 w 0 o
  | .or c w o => enc2 c 0x031 w 0 o
  | .xor c w o => enc2 c 0x032 w 0 o
  | .andn c w o => enc2 c 0x033 w 0 o
  | .andi c w o k => encI c 0x034 w 0 o k
  | .ori c w o k => encI c 0x035 w 0 o k
  | .xori c w o k => encI c 0x036 w 0 o k
  | .shl c w o => enc2 c 0x038 w 0 o
  | .shr c w o => enc2 c 0x039 w 0 o
  | .sra c w o => enc2 c 0x03A w 0 o
  | .rol c w o => enc2 c 0x03B w 0 o
  | .ror c w o => enc2 c 0x03C w 0 o
  | .shli c w o n => encI c 0x03D w 0 o n
  | .shri c w o n => encI c 0x03D w 1 o n
  | .srai c w o n => encI c 0x03D w 2 o n
  | .roli c w o n => encI c 0x03D w 3 o n
  | .rori c w o n => encI c 0x03D w 4 o n
  | .bfe c s w o pos len => encI c 0x040 w (sCode s) o ((0 : BitVec 5) ++ len ++ pos)
  | .bfi c w o pos len => { (c.head 1 0x041).g2 w 0 o with ext := (0 : BitVec 19) ++ len ++ pos }
  | .popc c w o => enc1 c 0x042 w o
  | .clz c w o => enc1 c 0x043 w o
  | .ctz c w o => enc1 c 0x044 w o
  | .brev c w o => enc1 c 0x045 w o
  | .bswap c w o => enc1 c 0x046 w o
  | .clmul c w o => enc2 c 0x048 w 0 o
  | .clmulh c w o => enc2 c 0x049 w 0 o
  | .pxor c w o => enc1 c 0x04A w o
  | .pdep c w o => enc2 c 0x04B w 0 o
  | .pext c w o => enc2 c 0x04C w 0 o
  | .icmp c cond w p o => { (c.head 0 0x050).c2 w cond.enc o with dst := pEnc8 p }
  | .icmpi c cond w p a imm =>
      { (c.head 0 0x051).im imm with dst := pEnc8 p, opa := a.enc, mod := gMod a.isScal false w cond.enc }
  | .isel c w uni d a b p =>
      { (c.head 0 0x052).res uni d with opa := a.enc, opb := b.enc, opc := pEnc p, mod := gMod false b.isScal w 0 }
  | .plop c op pd pa pb =>
      { c.head 0 0x053 with dst := pEnc8 pd, opa := pEnc pa, opb := pEnc pb, mod := gMod false false false op.enc }
  | .mov c w o => (c.head 0 0x058).gM w o
  | .movi c s w o imm => { (c.head 1 0x059).g0 w (sCode s) o with ext := imm }
  | .lea c u sh o imm =>
      { (c.head 1 0x05A).g2 false (BitVec.ofBool u ++ sh) o with ext := imm }
  | .lane c d => (c.head 0 0x05B).res false d
  | .fadd c u t r d a b => encF c 0x080 u t r.enc d a (some b) none
  | .fsub c u t r d a b => encF c 0x081 u t r.enc d a (some b) none
  | .fmul c u t r d a b => encF c 0x082 u t r.enc d a (some b) none
  | .fdiv c u t r d a b => encF c 0x083 u t r.enc d a (some b) none
  | .fsqrt c u t r d a => encF c 0x084 u t r.enc d a none none
  | .ffma c u t r d a b e => encF c 0x085 u t r.enc d a (some b) (some e)
  | .ffms c u t r d a b e => encF c 0x086 u t r.enc d a (some b) (some e)
  | .fnma c u t r d a b e => encF c 0x087 u t r.enc d a (some b) (some e)
  | .fmin c u t d a b => encF c 0x088 u t 0 d a (some b) none
  | .fmax c u t d a b => encF c 0x089 u t 0 d a (some b) none
  | .fabs c u t d a => encF c 0x08A u t 0 d a none none
  | .fneg c u t d a => encF c 0x08B u t 0 d a none none
  | .fsgn c u t d a b => encF c 0x08C u t 0 d a (some b) none
  | .frcp c u t d a => encF c 0x090 u t 0 d a none none
  | .frsq c u t d a => encF c 0x091 u t 0 d a none none
  | .fcmp c cond f64 p a b =>
      { c.head 0 0x098 with
        dst := pEnc8 p, opa := a.enc, opb := b.enc, mod := fMod cond.enc b.isScal (if f64 then 1 else 0) }
  | .fclass c u t d a => encF c 0x099 u t 0 d a none none
  | .cvt c u dty sty sel cnt rm sat d a b e f ei sb =>
      { (c.head 2 0x0A0).res u d with
        opa := a.enc, opb := b.enc, opc := e.enc, mod := fMod rm.enc sat 0
        ext := (0 : BitVec 14) ++ ei.enc ++ f.enc
        hi := (0 : BitVec 13) ++ sb ++ sel ++ cnt.enc ++ dty.enc ++ sty.enc }
  | .rng c u wsel d e j sb =>
      { (c.head 1 0x0A8).res u d with
        opa := e.enc, opb := j.enc, mod := fMod 0 j.isScal 0, ext := (0 : BitVec 23) ++ sb ++ wsel }
  | .shfl c mode d a b =>
      { (c.head 0 0x0B0).res false d with opa := a.enc, opb := b.enc, mod := fMod mode.enc b.isScal 0 }
  | .vote c op d p => { (c.head 0 0x0B1).res false d with opa := pEnc p, mod := fMod op.enc false 0 }
  | .lred c op ty d a => { (c.head 0 0x0B2).res false d with opa := a.enc, mod := fMod op.enc false ty.enc }
  | .lscan c op ty x d a => { (c.head 0 0x0B3).res false d with opa := a.enc, mod := fMod op.enc x ty.enc }
  | .ld c sz m o off =>
      match o with
      | .vec u d base i => { (c.head 1 0x0E0).res u d with
          ext := m.enc off, opa := base.enc, opb := idxEnc i, mod := sz.enc ++ b4 false i.isSome base.isScal false }
      | .scal d base => { c.head 1 0x0E0 with
          ext := m.enc off, dst := sEnc8 d, opa := sEnc base, mod := sz.enc ++ b4 true false false false }
  | .st c sz m o off => stFields c sz.enc false m o off
  | .stCr c w m o off => stFields c (if w then 5 else 4) true m o off
  | .lds c u sz pclr m d a off => { (c.head 1 0x0E2).res u d with
      ext := m.enc off, opa := a.enc, mod := sz.enc ++ b4 false false false pclr }
  | .sts c u sz pset m a data off => { c.head 1 0x0E3 with
      uni := u, ext := m.enc off, opa := a.enc, opc := data.enc, mod := sz.enc ++ b4 false false false pset }
  | .ldc c u sz pclr m d a k off => { (c.head 1 0x0E4).res u d with
      ext := m.enc off, opa := a.enc, opb := k.enc, mod := sz.enc ++ b4 false false k.isScal pclr }
  | .stc c u sz pset m a k data off => { c.head 1 0x0E5 with
      uni := u, ext := m.enc off, opa := a.enc, opb := k.enc, opc := data.enc
      mod := sz.enc ++ b4 false false k.isScal pset }
  | .ldv c u sz m d base sM sC off => { (c.head 1 0x0E8).res u d with
      ext := m.enc off, opa := base.enc, opb := sEnc sM, opc := sEnc sC
      mod := sz.enc ++ b4 false false base.isScal false }
  | .vupd c ad fmt rm m d sB sS sP => { c.head 1 0x0E9 with
      ext := m.enc 0, dst := sEnc8 d, opa := sEnc sB, opb := sEnc sS, opc := sEnc sP
      mod := BitVec.ofBool false ++ BitVec.ofBool ad ++ fmt.enc ++ rm.enc }
  | .vstepRd c m d sB => { c.head 1 0x0EA with ext := m.enc 0, dst := sEnc8 d, opa := sEnc sB }
  | .vstepSet c m sB sU => { c.head 1 0x0EA with ext := m.enc 0, opa := sEnc sB, opb := sEnc sU, mod := 32 }
  | .atom c u op w m d base b e off => { (c.head 1 0x0F0).res u d with
      ext := m.enc off, opa := base.enc, opb := b.enc, opc := (if op == .cas then e.enc else 0)
      mod := op.enc ++ BitVec.ofBool w ++ BitVec.ofBool base.isScal ++ BitVec.ofBool false }
  | .mwait c w m d sA sE sT off => { c.head 1 0x0F4 with
      ext := m.enc off, dst := sEnc8 d, opa := sEnc sA, opb := sEnc sE, opc := sEnc sT
      mod := (if w then 5 else 4 : BitVec 3) ++ (0 : BitVec 4) }
  | .fence c strict ord scope p => { c.head 1 0x0F5 with
      ext := MAttr.enc ⟨ord, scope, 0⟩ 0, dst := pEnc8 p, mod := BitVec.ofBool strict ++ (0 : BitVec 6) }
  | .seal c m sB sL => { c.head 1 0x0F8 with ext := m.enc 0, opa := sEnc sB, opb := sEnc sL }
  | .unseal c m sB sL => { c.head 1 0x0F9 with ext := m.enc 0, opa := sEnc sB, opb := sEnc sL }
  | .crdecl c op m sB sL => { c.head 1 0x0FA with
      ext := m.enc 0, opa := sEnc sB, opb := sEnc sL, mod := op.enc ++ (0 : BitVec 3) }
  | .crflush c fin m sB => { c.head 1 0x0FB with
      ext := m.enc 0, opa := sEnc sB, mod := BitVec.ofBool fin ++ (0 : BitVec 6) }
  | .prefetch c u home evict base idx off => { c.head 1 0x0FC with
      uni := u, ext := MAttr.enc ⟨.rlx, .wv, evict⟩ off, opa := base.enc, opb := idxEnc idx
      mod := BitVec.ofBool home ++ (0 : BitVec 2) ++ b4 false idx.isSome base.isScal false }
  | .cpy c sk dk q sS sD sL => { c.head 0 0x100 with
      dst := q.setWidth 8, opa := sEnc sS, opb := sEnc sD, opc := sEnc sL, mod := kMod sk dk }
  | .cseal c => c.head 0 0x101
  | .cwait c n p => { (c.head 0 0x102).im (n.setWidth 18) with dst := pEnc8 p }
  | .ropCas c m n d sA sB sC off => { c.head 1 0x108 with
      ext := m.enc off, dst := sEnc8 d, opa := sEnc sA, opb := sEnc sB, opc := sEnc sC
      mod := (0 : BitVec 2) ++ n ++ (0 : BitVec 3) }
  | .ropEnq c m d sA sB off => { c.head 1 0x108 with
      ext := m.enc off, dst := sEnc8 d, opa := sEnc sA, opb := sEnc sB, mod := (1 : BitVec 2) ++ (0 : BitVec 5) }
  | .ropChase c m d sA sH off => { c.head 1 0x108 with
      ext := m.enc off, dst := sEnc8 d, opa := sEnc sA, opb := sEnc sH, mod := (2 : BitVec 2) ++ (0 : BitVec 5) }
  | .flq c clr d sI => { c.head 0 0x109 with
      dst := sEnc8 d, opa := sEnc sI, mod := BitVec.ofBool clr ++ (0 : BitVec 6) }
  | .mma c fmt sf vC b bsw aoq vA vB asel bsel => { c.head 2 fmt.opcode with
      dst := vC ++ (0 : BitVec 3)
      opa := (match b with | .wave n => sEnc n | .quarter s => s.enc)
      opb := vA.enc, opc := vB.enc
      mod := BitVec.ofBool (match b with | .wave _ => false | .quarter _ => true) ++ BitVec.ofBool sf ++ (0 : BitVec 5)
      hi := bsel ++ asel ++ aoq ++ bsw }
  | .mgat c k d vI sB sR n ro =>
      let f := c.head 1 0x150
      let f := if k == .w then f else f.res false d
      { f with
        opa := vI.enc, opb := sEnc sB, opc := sEnc sR, mod := k.enc ++ (0 : BitVec 4), ext := (0 : BitVec 23) ++ ro ++ n }
  | .mldt c k d vI sP n ro => { (c.head 1 0x151).res false d with
      opa := vI.enc, opb := sEnc sP, mod := k.enc ++ (0 : BitVec 4), ext := (0 : BitVec 23) ++ ro ++ n }
  | .mst c dfmt s64 sq rm sat pset sB vI sR vC cnt ve sb => { c.head 2 0x152 with
      opa := vC.setWidth 6 ++ (0 : BitVec 3), opb := vI.enc, opc := sEnc sB
      mod := rm.enc ++ BitVec.ofBool sat ++ BitVec.ofBool sq ++ (0 : BitVec 2)
      ext := (0 : BitVec 14) ++ ve.enc ++ sEnc sR
      hi := (0 : BitVec 17) ++ BitVec.ofBool pset ++ sb ++ cnt ++ BitVec.ofBool s64 ++ dfmt.enc }
  | .mzero c u w cnt vC => { c.head 0 0x153 with
      uni := u, dst := vC ++ (0 : BitVec 3), mod := BitVec.ofBool w ++ cnt ++ (0 : BitVec 4) }
  | .tred c w pset sS sO sL sD => { c.head 2 0x154 with
      opa := sEnc sS, opb := sEnc sO, opc := sEnc sL, ext := (0 : BitVec 23) ++ sEnc sD
      mod := BitVec.ofBool w ++ BitVec.ofBool pset ++ (0 : BitVec 5) }
  | .msf c vS => { c.head 0 0x155 with opa := vS.enc }
  | .xloop n e => { (xpHead 0 0x160).im e with opa := dEnc n }
  | .tadr d t k => { xpHead 0 0x161 with dst := dEnc8 d, opa := dEnc t, opb := dEnc k }
  | .tinc d t k => { xpHead 0 0x162 with dst := dEnc8 d, opa := dEnc t, opb := dEnc k }
  | .tin d t k => { xpHead 0 0x163 with dst := dEnc8 d, opa := dEnc t, opb := dEnc k }
  | .lidx w d a e => { (xpHead 0 0x164).im e with
      dst := dEnc8 d, opa := dEnc a, mod := BitVec.ofBool w ++ (0 : BitVec 6) }
  | .xfer sk dk s d l => { xpHead 0 0x168 with opa := dEnc s, opb := dEnc d, opc := dEnc l, mod := kMod sk dk }
  | .xferG sk dk s d i r rb n => { xpHead 2 0x169 with
      opa := dEnc s, opb := dEnc d, opc := dEnc i, mod := kMod sk dk
      ext := (0 : BitVec 23) ++ dEnc r, hi := (0 : BitVec 6) ++ n ++ rb }
  | .xferT sk dk t d => { xpHead 0 0x16A with opa := dEnc t, opb := dEnc d, mod := kMod sk dk }
  | .cgen a => { xpHead 0 0x16C with opa := dEnc a }
  | .xwait d => { xpHead 0 0x16D with dst := dEnc8 d }
  | .cba c cb k => { (c.head 0 0x170).im k with opa := cb.setWidth 9 }
  | .cbw c cb k => { (c.head 0 0x171).im k with opa := cb.setWidth 9 }
  | .cbset c cb k => { (c.head 0 0x172).im k with opa := cb.setWidth 9 }
  | .chain x h => { xpHead 0 0x178 with opa := dEnc h, mod := BitVec.ofBool x ++ (0 : BitVec 6) }
  | .xhalt => xpHead 0 0x17C
  | .exit c n sB => { c.head 0 0x1A0 with opa := sEnc sB, mod := n ++ (0 : BitVec 4) }
  | .wbar c => c.head 0 0x1A1
  | .sbar c sS => { c.head 0 0x1A2 with opa := sEnc sS }
  | .rclaim c n => (c.head 0 0x1A4).im n
  | .rrel c n => (c.head 0 0x1A5).im n
  | .aset c sB sL sI => { c.head 0 0x1A8 with opa := sEnc sB, opb := sEnc sL, opc := sEnc sI }
  | .asetDel c sI => { c.head 0 0x1A8 with opc := sEnc sI, mod := 64 }
  | .age c sD => { c.head 0 0x1A9 with dst := sEnc8 sD }
  | .ageLt c p sA => { c.head 0 0x1A9 with dst := pEnc8 p, opa := sEnc sA, mod := 64 }
  | .yield c => c.head 0 0x1AA
  | .collRed c q sP => collFields c 0 q sP
  | .collA2a c q sP => collFields c 1 q sP
  | .collBcast c q sP => collFields c 2 q sP
  | .collBar c q sP => collFields c 3 q sP
  | .collRes c sD q => { c.head 0 0x1B1 with dst := sEnc8 sD, opa := pEnc q }
  | .pstep c sS sC => { c.head 0 0x1B2 with opa := sEnc sS, opb := sEnc sC }
  | .trap c code => (c.head 0 0x1B8).im code
  | .rftNext c wr => rftFields c 0 wr
  | .rftAgain c wr => rftFields c 1 wr
  | .rftEnd c wr => rftFields c 2 wr
  | .csrr c sD num => { (c.head 0 0x1C0).im num with dst := sEnc8 sD }
  | .csrw c num sA => { (c.head 0 0x1C1).im num with opa := sEnc sA }
  | .csrwXpChan c x sA => { (c.head 0 0x1C1).im (if x then 0x031 else 0x030) with opa := sEnc sA }
  | .csrwFltTail c sA => { (c.head 0 0x1C1).im 0x102 with opa := sEnc sA }
  | .csrwDbgCtl c sA => { (c.head 0 0x1C1).im 0x110 with opa := sEnc sA }
  | .gen c sD => { c.head 0 0x1C8 with dst := sEnc8 sD }
  | _ => xpHead 0 0

/-- The word of an instruction: bit 0 is the least significant bit of its first byte. -/
def encode (i : Instr) : BitVec 128 := i.fields.toWord

/-- The bytes of an instruction, from its program counter on (R157). -/
def encodeBytes (i : Instr) : List Byte := toBytes (lenBytes i.fields.len) (encode i).toNat

end Sys2Proof
end

