-- ==== Sys2Proof/Config.lean ====
section
/-! DEFINITION. What the manual leaves open, as constants with no body: nothing in Lean evaluates one or proves a
value of it. Each is applied to a plain counter of the state (`State.fresh`) or to what it depends on. -/

namespace Sys2Proof.Config

/-- A free choice between two permitted outcomes: a stale TLB leaf (R74), old or new code (R39), the content an
overlapping copy reads (R278). DEDUCED, log entries 8, 9, 10 and 61. -/
opaque freeBit : Nat → Bool

/-- Which line a full L1 gives up for a new line in a cycle (R18, R85): the position among its lines, as a free number. DESIGN CHOICE,
log entry 13. -/
opaque freeLine : (line cyc : Nat) → Nat

/-- The key drawn for an address-space slot (R419). DESIGN CHOICE, log entry 63. -/
opaque slotKey : Nat → BitVec 512

/-- The bytes of the signatures of an attestation report (R412, R418): byte `i` of the report written when the counter stood at `n`. DESIGN
CHOICE, log entry 17. -/
opaque attestByte : (n i : Nat) → Byte

/-- The bytes of the digest of the boot ROM (R418). DESIGN CHOICE, log entry 17. -/
opaque romByte : Nat → Byte

/-- The bytes of the digest of the firmware after `n` updates (R418). DESIGN CHOICE, log entry 17. -/
opaque fwByte : (n i : Nat) → Byte

/-- How a key encrypts and decrypts the 16-byte block at a physical address of a lehr image (R420), where the cipher is not the identity.
DESIGN CHOICE, log entry 18. -/
opaque xts : (key pa : Nat) →
  Option { p : (BitVec 128 → BitVec 128) × (BitVec 128 → BitVec 128) // (∀ x, p.2 (p.1 x) = x) ∧ ∀ x, p.1 (p.2 x) = x }

end Sys2Proof.Config
end

