-- ==== Sys2Proof/Machine/State.lean ====
section
/-! DEFINITION. The state of the part: every register, counter, queue and memory the manual names, as plain data
(INVENTORY.md lists the rule of each). A sparse memory or register file is a `Map`: pairs of key and value in rising
key order, without an entry equal to what an unlisted key reads as. Records keyed by a number (cores, waves,
launches, slots) are lists of pairs as well. -/

namespace Sys2Proof.Machine
open Sys2Proof

/-- A sparse table in canonical form (see Machine/Map.lean). -/
abbrev Map (α : Type) := List (Nat × α)

/-! ## Launch blocks and the binding of a unit -/

/-- The fields of a launch block (R53) that bear on its life; `depth` and `kind` as the part writes them. -/
structure Block where
  entry  : Nat
  kind   : Nat
  prio   : Nat
  fuse   : Bool
  race   : Bool
  commit : Bool
  child  : Bool
  flt    : Bool        -- float
  waves  : Nat         -- waves per core
  vregs  : Nat         -- D
  spad   : Nat
  depth  : Nat
  h      : Nat         -- height and width in cores
  w      : Nat
  y0     : Nat
  x0     : Nat
  image  : Nat
  args   : List Word
deriving DecidableEq, Repr

/-- A launch or task from its block's creation to its completion (R34, R53 to R61, R409). Its key is its stamp. -/
structure Launch where
  blk   : Block
  root  : Nat          -- key of the root launch
  aslot : Nat
  priv  : Bool
  left  : Nat          -- waves that have not ended
  gone  : List Nat     -- cores that its waves have left
  treds : List (Nat × Nat × List Nat)     -- arrivals of tred: core, k, [descriptor, w, L, D, O, pset] (R299)
  tredBad : List (Nat × Nat)              -- core, k of instances that ended in a mismatch (R299)
deriving DecidableEq, Repr

/-- A root launch (R407, R409). -/
structure Root where
  record : Nat         -- address of its launch record
  aslot  : Nat
  chan   : Nat         -- its launch channel
  irq    : Bool
  live   : Nat         -- blocks created from it, itself included, that have not ended
  status : Nat
deriving DecidableEq, Repr

/-- What a transfer processor, a chain head or a walk is bound to (R304, R310). -/
inductive Bind where
  | none
  | slot (aslot : Nat)
  | launch (aslot lid : Nat)
deriving DecidableEq, Repr

/-! ## Parking -/

/-- What a parked run or transfer processor waits for. Each is a condition on the state; the instruction executes again
when it holds. -/
inductive ParkCond where
  | present (lines : List (Nat × Nat))          -- scratchpad lines, with their core, that must be present (R83)
  | consume (lines : List (Nat × Nat)) (order : Nat) -- the same for a consuming load, served in the order of arrival (R83)
  | page (aslot va off : Nat)                    -- a page whose offload state must change (R100)
  | logRoom                                      -- an entry of the side log must free (R101)
  | replayed (lanes : Mask) (sector : Nat)       -- no logged entry of these lanes for the sector (R122)
  | entry (ids : List Nat)                       -- replay of the lanes' own logged atomics (R374)
  | flowRoom (flow : Nat)                        -- an acknowledgement of a full flow (R386)
  | answers (accs : List (Nat × Nat × Nat × Nat)) -- lane, flow, sequence number, address of remote accesses (R388)
  | fence (scope : Scope)                        -- remote accesses of its lanes in the scope are resolved (R108, R126)
  | flushed                                      -- remote accesses of the wave are resolved (R109)
  | record (id : Nat)                            -- room in the fault ring for the record of a transfer processor's fault (R361)
  | cbw (cb k : Nat) (passed : Bool)             -- counted barrier (R329)
  | heads (x : Nat)                              -- room in a chain-head FIFO (R310)
  | copyRoom (q : Nat)                           -- room in a copy queue (R277)
  | batchRoom (lanes : Mask)                     -- fewer than 16 unfinished batches (R279)
  | cwait (lanes : Mask) (n : Nat)               -- at most n unfinished sealed batches (R280)
  | collRoom (q : Nat)                           -- room in a collective queue (R351)
  | collRes (q : Nat)                            -- a result (R352)
  | xferRoom                                     -- fewer than 64 transfers outstanding (R321)
  | xferDone                                     -- no program transfer outstanding (R115, R327)
  | ldv (t0 limit : Nat) (expired : Bool) (pas : List Nat) (m : Nat)  -- start and limit in µs, blocks, minimum step (R270)
  | mwait (pa : Nat) (deadline : Option Nat) (woken : Bool)           -- R268
  | mpoll (acc : Nat × Nat × Nat × Nat) (deadline : Option Nat)       -- R268 of a word in the external window
  | wbar (k : Nat) (passed : Bool)               -- R340
  | sbar (k desc : Nat) (res : Option Bool)      -- R341; how it completed
  | tred (k : Nat) (desc : Nat)                  -- R299
  | claim (n : Nat) (served : Bool)              -- R51, R342
  | aset (ids : List Nat)                        -- R345
  | pstep (comm step : Nat) (passed : Bool)      -- R353
  | leave                                        -- transfers into the launch's allocation (R333)
  | flq (idx t0 : Nat)                           -- an answer to the query of entry idx, asked at t0 µs (R282)
deriving DecidableEq, Repr

/-! ## Waves -/

/-- What an instruction that waits keeps over every park of it: the limit that `mwait` took at its first park (R268), the start, the limit
and the expiry of the silence timeout of `ldv` (R270). -/
inductive Since where
  | mwait (deadline : Option Nat)
  | ldv (t0 limit : Nat) (expired : Bool)
deriving DecidableEq, Repr

/-- What a run of a wave is doing: executing; suspended by a park (R46), with the instruction's length, run-boundary flag and
word; granted again after a park; held under a fault record (R365). `join`: its lanes have done their part of an instruction on which
other lanes of the run are parked, so the run is suspended for them too; where each goes on, and the run-boundary flag. -/
inductive StreamSt where
  | run
  | join (targets : List (Nat × Nat)) (rbf : Bool)
  | park (c : ParkCond) (len : Nat) (rbf : Bool) (insn : BitVec 128)
  | resume (c : ParkCond) (len : Nat) (rbf : Bool) (insn : BitVec 128)
  | held (fr len : Nat) (rbf : Bool)
deriving DecidableEq, Repr

/-- One run of lanes that execute together: the lanes, how many instructions it has issued (R42), its latch-written mask
(R47, R164), whether its lanes are the broadcast group (R36). Suspended and held runs are kept here (R46). -/
structure Stream where
  lanes : Mask
  count : Nat
  lwr   : BitVec 4
  bc    : Bool
  st    : StreamSt
  grp   : Nat                   -- names the pieces of one suspended run; 0: whole
  one   : Bool                  -- the parked instruction is one execution of all its lanes (R266, R267)
  rid   : Nat                   -- names the run of the part, which marks latches for all its lanes (R164); 0: a held part's own
  accs  : List (Nat × Nat × Nat × Nat) -- the parked instruction's remote accesses: lane, flow, sequence number, address
  since : Option Since
deriving DecidableEq, Repr

/-- A reconvergence barrier (R40): disarmed, or armed with its members; and the lanes waiting at it. -/
structure RBar where
  members : Option Mask
  waiting : Mask
deriving DecidableEq, Repr

/-- One entry of the unresolved-access list (R282). -/
structure Unres where
  va   : Nat
  fate : Nat
  lane : Nat
  kind : Nat
  flow : Nat
  seq  : Nat
  sys  : Bool                   -- its other party lies outside the pod (R105)
  real : Option Bool            -- whether it was performed, where the model itself decides that (host memory)
deriving DecidableEq, Repr

/-- One sector of a commit buffer (R347): virtual and physical sector address, byte mask, bytes, and for a sector
written by a release its position and scope. -/
structure CbSector where
  va    : Nat
  pa    : Nat
  mask  : BitVec 32
  bytes : Map Byte
  rel   : Option (Nat × Scope)
deriving DecidableEq, Repr

/-- One place of a collective queue (R351): the command, and its result once it has one. -/
structure CollSlot where
  cmd : Nat
  res : Option Word
deriving DecidableEq, Repr

/-- The origin of a handler lane (R371): fault record and its address, core, wave and its slot at the fault, lane, kind,
and the values of opa to opd. -/
structure Origin where
  fr   : Nat
  va   : Nat
  core : Nat
  uid  : Nat
  slot : Nat
  lane : Nat
  kind : Nat
  ops  : List Word
  stamp : Nat                   -- of the origin wave
deriving DecidableEq, Repr

/-- A wave that is resident or pre-empted (R31, R32, R49, R344, R347). -/
structure Wave where
  uid     : Nat                 -- the model's own name of the wave
  lid     : Nat                 -- its launch; unused for a handler wave
  handler : Option (List Origin)
  aslot   : Nat
  priv    : Bool
  race    : Bool
  commit  : Bool                -- commit mode (R345)
  prio    : Nat
  stamp   : Nat
  wix     : Nat
  rx      : Nat
  ry      : Nat
  task    : Bool
  depth   : Nat
  image   : Nat
  d       : Nat                 -- register window
  pcs     : List Va
  bcast   : Va
  bcLanes : Mask                -- the broadcast group
  streams : List Stream
  subs    : List Mask           -- sub-waves, oldest first (R45)
  turn    : Nat                 -- lowest lane of the part served last, plus 1
  ended   : Mask                -- lanes that have ended (R366)
  v       : Map Word            -- register n of lane l at 32 n + l
  s       : Map Word
  p       : List Mask           -- p0 to p14
  t       : Map Word            -- latch k of lane l at 32 k + l
  stage   : Map Byte            -- A staging: byte b of row i of quarter q at (8 q + i) 128 + b (R285)
  sfifo   : List (List (List Word))   -- per quarter, oldest first (R300)
  rb      : List RBar
  copyOpen : List (Nat × Nat)   -- lane, copy: the open sets (R277)
  batches : List (Nat × List Nat)     -- lane and copies of each unfinished sealed batch, in order (R279)
  copyErr : Mask
  copyBad : List (Nat × List Unres)   -- copies that have ended with error status and no batch has reported, with their stores (R279, R282)
  collQ   : List (Nat × CollSlot)     -- queue number and place, oldest first (R351)
  unres   : List Unres
  more    : Nat
  remErr  : List (Mask × Unres) -- remote accesses that ended without being performed, not yet reported (R388)
  seqs    : Map Nat             -- store sequence number of each lane (R122)
  wbars   : Nat                 -- executions of wbar (R340)
  sbars   : List Nat            -- descriptors of its executions of sbar, in order (R341)
  treds   : Nat                 -- executions of tred by this wave
  cbuf    : List CbSector
  relPos  : Nat
  sets    : List Nat            -- atomic sets held (R345)
  past    : Bool                -- past its commit point (R339)
  exits   : List Block          -- successors that its exit has yet to create
  yieldTo : List Nat            -- waves that must win a run first (R350)
  ran     : Bool                -- has executed a run since readmission (R66)
  seat    : Nat                 -- the slot it took at its admission (R35)
  runs    : Nat                 -- grants won, which name its runs
  waited  : Nat                 -- run slots of its scheduler that others have won since its last (R45, R350)
deriving DecidableEq, Repr

/-! ## Cores -/

/-- The grant of a scheduler: the wave slot and the part that has it (R44, R45). -/
structure Grant where
  slot  : Nat
  lanes : Mask
deriving DecidableEq, Repr

/-- What waits on a core's admission list: a launch with the next wave to admit, or a formed handler wave (R56, R370). -/
inductive Adm where
  | launch (lid next : Nat)
  | handler (aslot entry : Nat) (prio d stamp : Nat) (origins : List Origin)
deriving DecidableEq, Repr

/-- A gang's reservation on a core (R59). -/
structure Resv where
  lid   : Nat
  d     : Nat
  waves : Nat
  spad  : Nat
  base  : Nat
deriving DecidableEq, Repr

/-- The scratchpad allocation of a launch on a core (R57, R80), with the launch's waves on the core that have ended
and its count of `tred` (R299). -/
structure Alloc where
  lid   : Nat
  base  : Nat
  lines : Nat
  ended : List Nat              -- wix of the ended waves
  waves : Nat                   -- waves of the launch on this core
  treds : Nat
deriving DecidableEq, Repr

/-- A line in an L1 (R85, R87): tag, valid sectors, dirty, tokens held, untracked copy's seal epoch, whether a store under
this tag has been translated, and whether its leaf permits fetches. One without a valid sector holds tokens and no tag that an access could
hit. -/
structure L1Line where
  slot   : Nat
  gen    : Nat
  vtag   : Nat
  valid  : BitVec 4
  dirty  : Bool
  tokens : Nat
  epoch  : Option Nat
  w      : Bool
  x      : Bool
deriving DecidableEq, Repr

/-- A core's partial of a commutative element (R94). -/
structure Partial where
  pa  : Nat
  op  : CrOp
  val : DWord
deriving DecidableEq, Repr

/-- What a side-log entry performs when it is replayed (R101, R122). -/
inductive LogAct where
  | store (size : Nat) (data : DWord)
  | contrib (w : Bool) (data : DWord)
  | atomic (op : AtomOp) (w : Bool) (b c : DWord) (dst : Dst)
  | sector (mask : BitVec 32) (bytes : Map Byte)
deriving DecidableEq, Repr

/-- One entry of the side log (R101): key, wave, lane (the lowest covered), covered lanes, sequence number, address
space, virtual address, what it performs, ordering, and its record when it is faulted rather than diverted (R373). -/
structure LogEnt where
  id    : Nat
  uid   : Nat
  lane  : Nat
  lanes : Mask
  seq   : Nat
  aslot : Nat
  va    : Nat
  act   : LogAct
  rel   : Bool
  scope : Scope
  fr    : Option Nat
  why   : Nat                   -- kind of the fault; 0 for a diverted entry
  pc    : Nat
  insn  : BitVec 128
  writes : Bool                 -- a logged atomic whose result is written
  race  : Bool                  -- its wave is checked for races (R130)
  stamp : Nat
  slot  : Nat
  acc   : Option (Nat × Nat)    -- flow and number of its replay by the peer, once it is sent
deriving DecidableEq, Repr

/-- A counted barrier (R328): the counter, and the waiters in order with their counts. A waiter is a wave's uid and the
lowest lane, or a transfer processor. -/
inductive Waiter where
  | wave (uid : Nat) (lanes : Mask)
  | xp (x : Nat)
deriving DecidableEq, Repr

structure CBar where
  count : Nat
  wait  : List (Waiter × Nat)
deriving DecidableEq, Repr

/-- Where a copy's bytes come from or go to (R277, R312, R314): global, a scratchpad byte of a core of the mesh, the
instruction store of the transfer processor, the frame of a page that moves. -/
inductive Place where
  | glob (va : Nat)
  | spad (core off : Nat)       -- physical scratchpad byte of that core
  | store (off : Nat)
  | frame (pa va : Nat)         -- with the virtual address of the page
deriving DecidableEq, Repr

/-- The shape of a copy's source (R322 to R326): bytes in order; rows of a size, each with its operand; a box of elements, with
kind and base operand; the patches of a convolution. -/
inductive CShape where
  | lin (src : Place)
  | rows (kind : MKind) (row : Nat) (ops : List (Option Nat))
  | box (kind : MKind) (base esz : Nat) (ext : List Nat) (stride : List Int)
  | conv (base : Nat) (h w c cg g : Nat) (dh dw sh sw r s esz ph pw ow p0 np pitch : Nat)
deriving DecidableEq, Repr

/-- Who issued a copy: a program transfer, a queue command of a wave, or a chain walk (R308). -/
inductive COrigin where
  | prog
  | queue (uid slot q : Nat) (lanes : Mask)
  | walk
deriving DecidableEq, Repr

/-- A copy in flight (R277, R278, R321). -/
structure Copy where
  id    : Nat
  xp    : Nat
  from' : COrigin
  aslot : Nat
  lid   : Option Nat
  shape : CShape
  dst   : Place
  total : Nat
  pos   : Nat
  err   : Bool
  done  : Bool                  -- every byte served; completion to follow
  lines : List (Nat × Nat)      -- destination scratchpad lines with their core
  srcLines : List (Nat × Nat)   -- source scratchpad lines with their core
  after : List Nat              -- side-log entries that stand before it (R113)
  wait  : List (Nat × Nat)      -- flow and number of remote accesses that stand before it (R113)
  pc    : Nat                   -- address of the instruction that issued it; 0 for a chain walk
  rd    : Option (Nat × Nat)    -- flow and number of a remote read under way
  saved : Map Byte              -- bytes of the destination before it wrote them (R278)
  buf   : List Byte             -- source bytes read for the sector it is at
  bad   : List Unres            -- its remote stores that were not performed (R282)
deriving DecidableEq, Repr

/-- The run state of a transfer processor (R304). -/
inductive XRun where
  | halted | running | parked (c : ParkCond) | stopped
deriving DecidableEq, Repr

/-- A chain walk (R313): its binding, the address of the record it is at, and the record's words once it is read; `busy`
while the record's transfer runs; the remote accesses under way (flow and number): of reading the record, or of its
write-back, with the status that it stores. -/
structure Walk where
  bind : Bind
  cur  : Nat
  words : List DWord
  busy : Bool
  acc  : List (Nat × Nat)
  wb   : Option Nat
deriving DecidableEq, Repr

structure Head where
  addr : Nat
  bind : Bind
deriving DecidableEq, Repr

structure Loop where
  start : Nat
  stop  : Nat
  rem   : Nat
deriving DecidableEq, Repr

/-- A transfer processor (R304, R308, R309). -/
structure XP where
  pc    : Nat
  d     : Map Word
  loops : List Loop             -- top first
  st    : XRun
  quit  : Bool                  -- halts once its parked instruction is over (R333)
  bind  : Bind
  err   : Bool
  heads : List Head
  store : Map Byte
  kind  : Nat
  cause : Nat
  walk  : Option Walk
  rrSrc : Nat                   -- source served last: 0 to 2
  rrQ   : Nat                   -- name of the queue served last, plus 1
deriving DecidableEq, Repr

/-- A group of the handler queue (R370). -/
structure HGroup where
  aslot : Nat
  entry : Nat
  lanes : List (Origin × Nat)   -- in order, each with the cycle in which it entered
deriving DecidableEq, Repr

/-- A core (R18). -/
structure Core where
  slots   : Map Wave
  pre     : List Wave
  last    : List Nat            -- per scheduler (R44)
  grants  : List (Option Grant)
  adm     : List Adm
  resv    : Option Resv
  free    : Nat
  deque   : List Nat            -- launches; the head is the near end
  spad    : Map Byte
  absent  : List Nat            -- lines not present
  allocs  : List Alloc
  l1      : Map L1Line          -- by physical line
  partials : List Partial
  log     : List LogEnt
  smiss   : Word
  cdl     : DWord
  cb      : List CBar
  temp    : Nat
  droop   : Bool
  disabled : Bool
  gated   : Bool
  handlers : List HGroup
  xp0     : XP
  xp1     : XP
  copies  : List Copy
  lastSteal : Option Nat        -- time of the last steal attempt while idle (R63)
deriving DecidableEq, Repr

/-! ## Memory structures beside the bytes -/

/-- A rectangle of cores: origin and sides (R55). -/
structure Rect where
  x : Nat
  y : Nat
  w : Nat
  h : Nat
deriving DecidableEq, Repr

/-- A commutative range (R93). -/
structure CrRange where
  base : Nat
  len  : Nat
  op   : CrOp
deriving DecidableEq, Repr

/-- An atomic set (R344, R345): holder and parked touchers (stamp, core, uid). -/
structure ASet where
  id     : Nat
  base   : Nat
  len    : Nat
  holder : Option Nat           -- uid
  wait   : List (Nat × Nat)     -- stamp, uid
deriving DecidableEq, Repr

/-- An address-space slot with its registers (R73, R92, R132, R360, R368, R385). -/
structure ASlot where
  root    : Nat
  priv    : Bool
  ending  : Bool                -- the mailbox is ending it (R411)
  key     : BitVec 512          -- its AES-256-XTS key (R24, R72, R419)
  gen     : Nat
  epoch   : Nat
  ranges  : List CrRange
  sets    : List ASet
  fltBase : DWord
  fltHead : Nat
  fltTail : Nat
  trapVec : DWord
  trapCfg : Word
  dbgCtl  : Word
  raceCtl : DWord
  raceHead : Nat
  raceDrop : Nat
  routes  : Map (DWord × DWord)
deriving DecidableEq, Repr

/-- A leaf a cluster TLB holds (R74, R75). -/
structure TlbEnt where
  aslot : Nat
  page  : Nat                   -- virtual 64 KiB page
  gen   : Nat
  pte   : DWord
  level : Nat
  ptePa : Nat
deriving DecidableEq, Repr

/-- A cluster: its L1 mode and its TLB (R20, R86). -/
structure Cluster where
  fused : Bool
  tlb   : List TlbEnt
deriving DecidableEq, Repr

/-- A persistent token request (R89), with the cores that have been served for the line since it stands. -/
structure PReq where
  line   : Nat
  core   : Nat
  write  : Bool
  served : List Nat
deriving DecidableEq, Repr

/-- A fault record (R361 to R366): its words, where it was written, the wave and lanes it covers, and the codes it has
taken. `done` lanes have been acted on. -/
structure FRec where
  id    : Nat
  aslot : Nat
  words : List DWord            -- the first seven words
  pa    : Option Nat            -- where the record lies; none until it is stored
  acc   : List (Nat × Nat × Nat) -- its stores to a ring in the external window that are under way: flow, number, virtual address (R361)
  owe   : Bool                  -- its resolution word at a peer has still to be sent a code that a trigger gave (R373)
  vec   : Option (Nat × Nat)    -- flow and number of the remote read of its handler table's entry (R369)
  bad   : Bool                  -- its writing has faulted
  core  : Nat
  uid   : Nat                   -- 0: no wave
  lanes : Mask
  held  : Bool
  entry : Option Nat            -- side-log entry of a logged fault
  codes : List (Nat × Nat)      -- lane and first nonzero code
  done  : Mask
  kind  : Nat
deriving DecidableEq, Repr

/-! ## Fabric -/

/-- An access of an outgoing flow (R386, R388). -/
structure FlowAcc where
  seq   : Nat
  kind  : RemKind
  uid   : Nat                   -- wave; 0 for a copy
  copy  : Nat                   -- copy; 0 for a wave
  lane  : Nat
  lanes : Mask                  -- the lanes it stands for (R106)
  va    : Nat
  pa    : Nat
  req   : RemReq
  rel   : Bool
  keep  : Bool                  -- its issuer waits for the answer
  first : Nat                   -- µs
  last  : Nat
  port  : Nat
  entry : DWord × DWord         -- the route entry as it stood at the issue (R385)
  ev    : Nat × Nat             -- whose events, and how many, it counts as a release once it is performed (R131)
  sent  : Bool                  -- it has left; not while its link retrains or every port of its route is down (R391)
deriving DecidableEq, Repr

/-- An outgoing flow (R386): issuing unit 0 the core's waves, 1 and 2 its transfer processors; slot and route index, or 0 and 1024 for
host memory, which is one flow for a unit (R405). -/
structure Flow where
  core  : Nat
  unit  : Nat
  aslot : Nat
  route : Nat
  next  : Nat
  open' : List FlowAcc
  answers : List (Nat × Option RemAns)     -- sequence number and answer; none once timed out
  lost  : List (Nat × Nat)      -- number and sector of accesses that have timed out (R388)
deriving DecidableEq, Repr

/-- The reorder buffer of an incoming flow (R125, R387). -/
structure Rob where
  dev   : Nat
  flow  : Nat
  next  : Nat                   -- every number below is settled: performed, or refused after a query (R282)
  done  : List Nat              -- numbers at or above next that are settled
  held  : List RemPkt
  answers : List (Nat × RemAns) -- what was answered
deriving DecidableEq, Repr

/-- State of a fabric port (R389 to R391): up, retraining since a time, or down; per direction the flits since key
installation and the consecutive tag failures. -/
inductive PortSt where
  | up
  | training (since : Nat)
  | down
deriving DecidableEq, Repr

structure Port where
  st    : PortSt
  flits : Nat × Nat
  fails : Nat × Nat
  keys  : Nat × Nat             -- key installations
deriving DecidableEq, Repr

/-- One entry of the progress table (R401). -/
structure Peer where
  live : Bool
  step : Nat
  last : Nat                    -- µs of the last publication
deriving DecidableEq, Repr

/-- A contribution at a closer (R397), or a part of an exchange, broadcast or barrier (R400). -/
structure Contrib where
  rank : Nat
  step : Nat
  op   : CollOp
  data : List Word
  len  : Nat
  into : Option Nat             -- the step that accepted it
  at'  : Nat                    -- its slot in the staging area (R396)
deriving DecidableEq, Repr

/-- A collective command (R351, R395). `sent` counts the bytes of the source that have been read; once it is above the length, the
command's messages have left. One that is `given` has its result and stays until they have (R397, R400). -/
structure CollCmd where
  id    : Nat
  core  : Nat
  uid   : Nat
  op    : CollOp
  step  : Nat
  src   : Nat
  dst   : Nat
  len   : Nat
  root  : Nat
  sent  : Nat
  data  : List Word
  since : Nat                   -- µs at the push
  expiries : Nat
  tgt   : Option Nat            -- the closer that its contribution went to
  given : Bool
deriving DecidableEq, Repr

/-- The result of a step (R397, R398): what the closer sent, kept for a command that is still to come. -/
structure CollRes where
  step : Nat
  st   : Nat
  cnt  : Nat
  late : Nat
  data : List Word
deriving DecidableEq, Repr

/-- A command with its result whose destination is still to be written: the bytes left, each with its address (R352, R395). -/
structure CollPend where
  id   : Nat
  uid  : Nat
  core : Nat
  st   : Nat
  cnt  : Nat
  late : Nat
  out  : Nat                    -- bytes that have been written
  left : List (Nat × List Byte)
deriving DecidableEq, Repr

/-- A live communicator (R393 to R401). -/
structure Comm where
  aslot : Nat
  w0    : DWord
  w1    : DWord
  mem   : Nat
  stg   : Nat
  stgn  : Nat
  members : List Nat
  table : List Peer
  cmds  : List CollCmd          -- oldest first, without result or not yet sent
  pend  : List CollPend
  cur   : Option Nat            -- the closer's current step t
  closed : Bool                 -- as closer it has ended a step: `cur` is fixed (R397)
  parts : List Contrib
  timer : Option Nat            -- µs at which the closer's timer runs out
  expiries : Nat
  late  : Nat
  results : List CollRes
deriving DecidableEq, Repr

/-- Who makes an access of the part's own: an engine that reads the source or writes the destination of a command (R395), the walker of a
launch channel (R408), the completion of a root (R409), the firmware (R393). -/
inductive PartUser where
  | src (id : Nat)
  | dst (id : Nat)
  | chan (k : Nat)
  | root (key : Nat)
  | mailbox
deriving DecidableEq, Repr

/-- An access of the part's own in an external window that has been issued: its address, flow and sequence number. -/
structure PartAcc where
  who  : PartUser
  va   : Nat
  flow : Nat
  seq  : Nat
deriving DecidableEq, Repr

/-- A collective engine (R395). -/
structure Engine where
  vc   : Nat                    -- channel served last, plus 1
  comm : List Nat               -- per channel, communicator served last, plus 1
deriving DecidableEq, Repr

/-- What leaves for another device: an access of a flow (R385) or a message of the engines (R395), and the acknowledgement of an access
that has come from it (R387): its flow, number and answer. -/
inductive OutMsg where
  | access (dev : Nat) (p : RemPkt)
  | ack (dev flow seq : Nat) (ans : RemAns)
deriving DecidableEq, Repr

/-! ## Host side -/

/-- A launch channel (R406 to R408); a walk keeps its slot and privilege. -/
structure Chan where
  heads : List Nat
  en    : Bool
  priv  : Bool
  slot  : Nat
  vec   : Nat
  ovf   : Bool
  acc   : Nat
  walk  : Option (Nat × Nat × Bool)     -- next record, slot, privilege
  back  : Option (DWord × Nat)          -- the word 0x08 to write back to it, and the record after it
deriving DecidableEq, Repr

/-- The mailbox (R411). -/
structure Mailbox where
  cmd  : Option Nat             -- command that runs
  stat : Word
  args : List DWord
deriving DecidableEq, Repr

/-- The device event ring's registers (R413). -/
structure EvRing where
  base : DWord
  size : Nat
  head : Nat
  tail : Nat
  drop : Nat
  cfg  : Word
deriving DecidableEq, Repr

/-- hst.boot (R417). -/
structure Boot where
  mode  : Nat
  fails : Nat
  stage : Nat
  cause : Nat
  die   : Nat
deriving DecidableEq, Repr

/-- The distributor (R56 to R60). -/
structure Distrib where
  queues : List (List Nat)      -- by priority, head first
  ptr    : Nat
  gang   : Option (Nat × List Nat × List Nat)   -- launch, cores reserved, cores to reserve
deriving DecidableEq, Repr

/-- The last checkpoint (R420, R421): base and key, memory and tags. -/
structure Lehr where
  base : Nat
  key  : Nat
  mem  : List Host.Cell
  tags : Map Word
deriving DecidableEq, Repr

/-! ## Agents, focus and outcome -/

/-- What a turn of the machine is for: an event of an agent or of the outside, one step of a wave scheduler, one step of a
transfer processor, a reading of a sensor, good flits on a fabric port in a direction, nothing. -/
inductive Act where
  | event (i : Instr)
  | wave (core sched : Nat)
  | xp (core x : Nat)
  | sensor (core temp : Nat) (droop : Bool)
  | flits (port : Nat) (dir : Bool) (n : Nat)
  | idle
deriving DecidableEq, Repr

/-- One turn: how many cycles pass, and what moves (DESIGN CHOICE, log entries 4 and 5). -/
structure Turn where
  dt  : Nat
  act : Act
deriving DecidableEq, Repr

/-- The unit that executes an instruction. -/
inductive FUnit where
  | none
  | wave (core slot : Nat)
  | xp (core x : Nat)
deriving DecidableEq, Repr

/-- A fault of one lane, before it is gathered into records (R363): a held one, or a logged one with the lanes of its access, its entry of
the side log and its sequence number. -/
structure Hold where
  lane  : Nat
  kind  : Nat
  cause : Nat
  addr  : Nat
  info  : Nat
  log   : Option (Mask × Nat × Nat)
deriving DecidableEq, Repr

/-- The instruction in execution: its unit, the lanes that execute it (E), whether they execute it as one group, whether they are
the broadcast group, its address, length and word, the park that it resumes from, and what executing it has brought about so far. -/
structure Focus where
  unit   : FUnit
  lanes  : Mask
  bc     : Bool
  lead   : Bool
  pc     : Nat
  len    : Nat
  insn   : BitVec 128
  resume : Option ParkCond
  parks  : List (ParkCond × Mask)   -- lanes that park, with what they wait for
  taken  : List (Nat × Nat)     -- lane and target of a transfer of control
  holds  : List Hold
  joined : Mask                 -- lanes that a reconvergence barrier has released together (R40)
  gone   : Bool                 -- the wave has ended
  accs   : List (Nat × Nat × Nat × Nat) -- the remote accesses that the instruction has made: lane, flow, sequence number, address
  since  : Option Since
deriving DecidableEq, Repr

/-- Why the machine stops. -/
inductive Fault where
  /-- `exec` of an instruction that a wave or a transfer processor fetches, in a state in which none is executing. Raised
  by every such meaning; no step of the machine reaches it. Safe. -/
  | noExecutor
  /-- `exec` of an instruction on a kind of unit that does not accept its opcode (R170): decode refuses it before, so no
  step of the machine reaches it. Raised by the meanings of one kind of unit. Safe. -/
  | wrongUnit
deriving DecidableEq, Repr

/-- Why an instruction has no meaning. -/
inductive Refusal where
  /-- The instruction's meaning has not been written; raised by arms of `exec`. Safe. -/
  | notModelled (mnemonic : String)
deriving DecidableEq, Repr

/-- The state of the part. -/
structure State where
  mem     : List Host.Cell      -- bonded DRAM by physical address (R77); an unlisted byte reads 0
  hostMem : List Host.Cell      -- host memory by bus address (R405)
  cores   : Map Core            -- by linear index; an unlisted core is as `Core.init`
  clusters : Map Cluster
  slots   : Map ASlot           -- live slots
  frames  : List (Nat × Nat × Nat)      -- first frame, count, slot (R72)
  tags    : Map Word            -- step tags by frame (R96)
  poison  : List Nat            -- poisoned sectors
  shadow  : Map Word            -- by sector (R130)
  shadowSr : Map Rect           -- by sector: the rectangle that scope .sr of the recorded write means (R105, R131)
  ival    : Map Nat             -- interval numbers by party (R131)
  sealed  : Map Nat             -- sealed lines with their slot (R91)
  preqs   : List PReq
  served  : Map Nat             -- last core the arbiter served, per line, plus 1 (R89)
  fails   : List (Nat × Nat × Nat)      -- line, core, transient failures (R89)
  code    : List (Nat × Nat × List Byte) -- launch, sector and content of fetched code (R39)
  stamp   : Nat                 -- creation counter (R34)
  launches : Map Launch
  roots   : Map Root
  dist    : Distrib
  recs    : List FRec           -- fault records not yet resolved, oldest first
  flows   : List Flow
  robs    : List Rob
  ports   : List Port           -- 16 UALink, then 2 Ultra Ethernet
  comms   : Map Comm
  fetches : List PartAcc        -- what the part itself has under way in an external window
  engines : List Engine
  chans   : List Chan
  chRR    : List Nat            -- per level, channel served last (R408)
  xphSlot : Nat
  xphStat : BitVec 2
  mb      : Mailbox
  ev      : EvRing
  errCe   : List Nat
  errUe   : List Nat
  boot    : Boot
  devNo   : Nat
  links   : List (Bool × Bool)  -- PCI Express: down, degraded
  msix    : List Nat            -- vectors sent, newest first
  outbox  : List OutMsg         -- what has left for other devices, newest first
  hostOut : List Byte           -- what the last host read of BAR2 returned
  lehr    : Option Lehr
  ckpt    : Option (Nat × Nat)  -- a checkpoint in progress: base, key
  hot     : Bool                -- every wave is halted for temperature (R422)
  update  : Bool                -- a verified firmware image waits for the next start
  fw      : Nat                 -- firmware images taken into use
  mhz     : Nat                 -- arithmetic clock
  cyc     : Nat                 -- cycles since start
  us      : Nat                 -- microseconds since start
  sub     : Nat                 -- the rest of a microsecond, in cycles times 1 / mhz
  rank    : Nat                 -- the last rank served in this cycle (R34, R62, R83, R89)
  uids    : Nat                 -- last name given to a wave, copy, record, entry or command
  fresh   : Nat                 -- counter of the free choices (Config)
  tape    : List Turn
  focus   : Focus
deriving DecidableEq, Repr

/-! ## Reset -/

def XP.init : XP where
  pc := 0
  d := []
  loops := []
  st := .halted
  quit := false
  bind := .none
  err := false
  heads := []
  store := []
  kind := 0
  cause := 0
  walk := none
  rrSrc := 2
  rrQ := 0

/-- A core at device start (R44, R51, R103, R304, R328). -/
def Core.init : Core where
  slots := []
  pre := []
  last := [7, 7, 7, 7]
  grants := [none, none, none, none]
  adm := []
  resv := none
  free := 4096
  deque := []
  spad := []
  absent := []
  allocs := []
  l1 := []
  partials := []
  log := []
  smiss := 0
  cdl := 0
  cb := List.replicate 16 ⟨0, []⟩
  temp := 0
  droop := false
  disabled := false
  gated := false
  handlers := []
  xp0 := XP.init
  xp1 := XP.init
  copies := []
  lastSteal := none

def Cluster.init : Cluster := ⟨false, []⟩

def Port.init : Port := ⟨.down, (0, 0), (0, 0), (0, 0)⟩

def Focus.idle : Focus := ⟨.none, 0, false, false, 0, 0, 0, none, [], [], [], 0, false, [], none⟩

def Chan.init : Chan := ⟨[], false, false, 0, 0, false, 0, none, none⟩

/-- The part at reset (R417): starting, no slot live, every queue empty (DESIGN CHOICE, log entry 2). -/
def State.reset : State where
  mem := []
  hostMem := []
  cores := []
  clusters := []
  slots := []
  frames := []
  tags := []
  poison := []
  shadow := []
  shadowSr := []
  ival := []
  sealed := []
  preqs := []
  served := []
  fails := []
  code := []
  stamp := 0
  launches := []
  roots := []
  dist := ⟨List.replicate 8 [], 1023, none⟩
  recs := []
  flows := []
  robs := []
  ports := List.replicate 18 Port.init
  comms := []
  fetches := []
  engines := List.replicate 4 ⟨0, List.replicate 8 0⟩
  chans := List.replicate 32 Chan.init
  chRR := [3, 7, 11, 15, 19, 23, 27, 31]
  xphSlot := 0
  xphStat := 0
  mb := ⟨none, 0, List.replicate 8 0⟩
  ev := ⟨0, 0, 0, 0, 0, 0⟩
  errCe := [0, 0, 0, 0]
  errUe := [0, 0, 0, 0]
  boot := ⟨0, 0, 0, 0, 0⟩
  devNo := 0
  links := [(false, false), (false, false)]
  msix := []
  outbox := []
  hostOut := []
  lehr := none
  ckpt := none
  hot := false
  update := false
  fw := 0
  mhz := 1750
  cyc := 0
  us := 0
  sub := 0
  rank := 0
  uids := 0
  fresh := 0
  tape := []
  focus := Focus.idle

end Sys2Proof.Machine
end

