-- ==== Sys2Proof/Machine/Map.lean ====
section
/-! DEFINITION. Sparse tables in canonical form, the byte memory over them (R4, R77), and the small helpers on numbers, bits
and lanes that every other file uses. -/

namespace Sys2Proof.Machine
open Sys2Proof

/-! ## Tables with a default -/

/-- The value at `k`; `d` where the table lists nothing. -/
def mget {α : Type} (d : α) : Map α → Nat → α
  | [], _ => d
  | (a, v) :: m, k => if k = a then v else mget d m k

/-- Put an entry in its place by key. -/
def minsert {α : Type} (k : Nat) (v : α) : Map α → Map α
  | [] => [(k, v)]
  | (a, w) :: m => if k < a then (k, v) :: (a, w) :: m else (a, w) :: minsert k v m

/-- Write `v` at `k`; the default removes the entry. -/
def mset {α : Type} [DecidableEq α] (d : α) (m : Map α) (k : Nat) (v : α) : Map α :=
  let rest := m.filter fun x => x.1 != k
  if v = d then rest else minsert k v rest

/-- Keys rise from `lo` on and no entry equals the default. -/
def mwf {α : Type} [DecidableEq α] (d : α) : Nat → Map α → Bool
  | _, [] => true
  | lo, (a, v) :: m => decide (lo ≤ a) && !decide (v = d) && mwf d (a + 1) m

/-- The canonical form of a byte memory. -/
def Memory.wf (m : List Host.Cell) : Bool := mwf (0 : Byte) 0 m

/-- Remove every key that `p` accepts. -/
def mdrop {α : Type} (p : Nat → Bool) (m : Map α) : Map α := m.filter fun x => !p x.1

/-! ## Tables without a default -/

def aget {α : Type} : Map α → Nat → Option α
  | [], _ => none
  | (a, v) :: m, k => if k = a then some v else aget m k

def aput {α : Type} : Map α → Nat → α → Map α
  | [], k, v => [(k, v)]
  | (a, w) :: m, k, v =>
    if k < a then (k, v) :: (a, w) :: m else if k = a then (k, v) :: m else (a, w) :: aput m k v

def adel {α : Type} (m : Map α) (k : Nat) : Map α := m.filter fun x => x.1 != k

/-! ## Byte memory -/

/-- The byte at an address; a byte that nothing has written reads 0 (DESIGN CHOICE, log entry 1). -/
def rdByte (m : List Host.Cell) (a : Nat) : Byte := mget 0 m a

/-- `n` bytes from `a` on. -/
def rdBytes (m : List Host.Cell) (a : Nat) : Nat → List Byte
  | 0 => []
  | n + 1 => rdByte m a :: rdBytes m (a + 1) n

def wrByte (m : List Host.Cell) (a : Nat) (b : Byte) : List Host.Cell := mset 0 m a b

/-- Write bytes from `a` on. -/
def wrBytes : List Host.Cell → Nat → List Byte → List Host.Cell
  | m, _, [] => m
  | m, a, b :: bs => wrBytes (wrByte m a b) (a + 1) bs

/-- The number of `n` bytes at `a`, little-endian (R4). -/
def rdNum (m : List Host.Cell) (a n : Nat) : Nat := ofBytes (rdBytes m a n)

/-- Store the low `n` bytes of a number, little-endian (R4). -/
def wrNum (m : List Host.Cell) (a n x : Nat) : List Host.Cell := wrBytes m a (toBytes n x)

/-- Write the bytes whose mask bit is 1. -/
def wrMasked (m : List Host.Cell) (a : Nat) (mask : BitVec 32) (bs : Map Byte) : List Host.Cell :=
  (List.range 32).foldl (fun m i => if mask.getLsbD i then wrByte m (a + i) (mget 0 bs i) else m) m

/-! ## Numbers -/

/-- Bits `hi` down to `lo` of a number. -/
def bitsN (x hi lo : Nat) : Nat := x / 2 ^ lo % 2 ^ (hi + 1 - lo)

def bitN (x i : Nat) : Bool := x.testBit i

/-- The signed reading of the low `w` bits (R177). -/
def sextN (w x : Nat) : Int :=
  let y := x % 2 ^ w
  if 2 ^ (w - 1) ≤ y ∧ w ≠ 0 then (y : Int) - (2 ^ w : Nat) else (y : Int)

/-- The low `w` bits of an integer. -/
def wrapN (w : Nat) (x : Int) : Nat := (x % ((2 ^ w : Nat) : Int)).toNat

def b2n (b : Bool) : Nat := if b then 1 else 0

/-- Set bits `hi` down to `lo` of a number below 2^64. -/
def putBits (x hi lo v : Nat) : Nat := x - bitsN x hi lo * 2 ^ lo + v % 2 ^ (hi + 1 - lo) * 2 ^ lo

def lowWord (x : DWord) : Word := x.setWidth 32
def highWord (x : DWord) : Word := x.extractLsb' 32 32
def joinWords (lo hi : Word) : DWord := hi ++ lo

/-! ## Lanes -/

def allLanes : List Nat := List.range 32

def hasLane (m : Mask) (l : Nat) : Bool := m.getLsbD l

def laneMask (l : Nat) : Mask := BitVec.ofNat 32 (2 ^ l)

/-- The lanes of a mask, ascending. -/
def lanesOf (m : Mask) : List Nat := allLanes.filter fun l => m.getLsbD l

def maskOf (ls : List Nat) : Mask := ls.foldl (fun m l => m ||| laneMask l) 0

/-- The lanes that `f` accepts. -/
def maskBy (f : Nat → Bool) : Mask := maskOf (allLanes.filter f)

/-- The lowest lane of a mask; 0 where there is none. -/
def lowLane (m : Mask) : Nat := (lanesOf m).headD 0

def fullMask : Mask := 0xFFFFFFFF

def listGet {α : Type} (d : α) (l : List α) (i : Nat) : α := l.getD i d

/-- The row of `n` things with one replaced; `d` where the list lacks one. -/
def listPut {α : Type} (d : α) (n : Nat) (l : List α) (i : Nat) (x : α) : List α :=
  (List.range n).map fun k => if k = i then x else listGet d l k

/-- Insert into a list ordered by `lt`, after its equals. -/
def insertBy {α : Type} (lt : α → α → Bool) (x : α) : List α → List α
  | [] => [x]
  | y :: ys => if lt x y then x :: y :: ys else y :: insertBy lt x ys

/-- A list in the order of `lt`; equals keep their order. -/
def sortBy {α : Type} (lt : α → α → Bool) (l : List α) : List α :=
  l.foldl (fun acc x => insertBy lt x acc) []

/-- Without repeats, the first of each kept. -/
def dedup {α : Type} [DecidableEq α] (l : List α) : List α :=
  l.foldl (fun acc x => if acc.contains x then acc else acc ++ [x]) []

/-- Count down `n` times, with the state threaded. -/
def iterate {α : Type} (f : α → α) : Nat → α → α
  | 0, x => x
  | n + 1, x => iterate f n (f x)

end Sys2Proof.Machine
end

