-- ==== Sys2Proof/Machine/Parts.lean ====
section
/-! DEFINITION. Reading and writing the parts of the state: cores, waves, transfer processors, slots, registers; the clock;
the device event ring; bytes of bonded DRAM with the watches that a write sets off. -/

namespace Sys2Proof.Machine
open Sys2Proof

/-! ## Where a core lies (R16, R29) -/

def coreX (i : Nat) : Nat := i % 32
def coreY (i : Nat) : Nat := i / 32
def coreDie (i : Nat) : Nat := 2 * (coreY i / 16) + coreX i / 16
def coreCluster (i : Nat) : Nat := 4 * (coreY i / 8) + coreX i / 8
/-- The cluster index of a core (R84). -/
def clusterIdx (i : Nat) : Nat := coreX i % 8 + 8 * (coreY i % 8)
/-- The core of a cluster with a cluster index. -/
def coreOfCluster (cl k : Nat) : Nat := 32 * (8 * (cl / 4) + k / 8) + (8 * (cl % 4) + k % 8)
def clusterDie (cl : Nat) : Nat := 2 * (cl / 8) + cl % 4 / 2
def absDiff (a b : Nat) : Nat := (a - b) + (b - a)
def manhattan (a b : Nat) : Nat := absDiff (coreX a) (coreX b) + absDiff (coreY a) (coreY b)
def allCores : List Nat := List.range 1024

/-- core.id (R29). -/
def coreId (i : Nat) : Word :=
  BitVec.ofNat 32 (coreDie i * 2 ^ 24 + coreY i / 8 * 2 ^ 22 + coreX i / 8 * 2 ^ 20 + i * 2 ^ 10 + coreY i * 32 + coreX i)

/-! ## Parts -/

def State.core (s : State) (i : Nat) : Core := (aget s.cores i).getD Core.init
def State.setCore (s : State) (i : Nat) (c : Core) : State := { s with cores := aput s.cores i c }
def State.modCore (s : State) (i : Nat) (f : Core → Core) : State := s.setCore i (f (s.core i))

def State.cluster (s : State) (i : Nat) : Cluster := (aget s.clusters i).getD Cluster.init
def State.modCluster (s : State) (i : Nat) (f : Cluster → Cluster) : State :=
  { s with clusters := aput s.clusters i (f (s.cluster i)) }

def State.slot? (s : State) (k : Nat) : Option ASlot := aget s.slots k
def State.modSlot (s : State) (k : Nat) (f : ASlot → ASlot) : State :=
  match aget s.slots k with
  | some a => { s with slots := aput s.slots k (f a) }
  | none => s

def Core.xp (c : Core) (x : Nat) : XP := if x = 0 then c.xp0 else c.xp1
def Core.setXp (c : Core) (x : Nat) (p : XP) : Core := if x = 0 then { c with xp0 := p } else { c with xp1 := p }
def State.xp (s : State) (i x : Nat) : XP := (s.core i).xp x
def State.modXp (s : State) (i x : Nat) (f : XP → XP) : State := s.modCore i fun c => c.setXp x (f (c.xp x))

def State.wave? (s : State) (i k : Nat) : Option Wave := aget (s.core i).slots k
def State.setWave (s : State) (i k : Nat) (w : Wave) : State := s.modCore i fun c => { c with slots := aput c.slots k w }
def State.modWave (s : State) (i k : Nat) (f : Wave → Wave) : State :=
  match s.wave? i k with
  | some w => s.setWave i k (f w)
  | none => s

/-- A new name for a wave, copy, record, entry or command. -/
def State.newId (s : State) : Nat × State := (s.uids + 1, { s with uids := s.uids + 1 })

/-- The next of the free choices (Config). -/
def State.draw (s : State) : Bool × State := (Config.freeBit s.fresh, { s with fresh := s.fresh + 1 })

/-- A new address-space slot with its key (R24, R73, R132, R360, R368, R419). -/
def ASlot.fresh (root : Nat) (priv : Bool) (key : BitVec 512) : ASlot := ⟨root, priv, false, key, 0, 0, [], [], 0, 0, 0, 0, 0, 0, 0, 0, 0, []⟩

/-! ## The wave or transfer processor in execution -/

/-- A wave that stands where there is none. -/
def Wave.empty : Wave where
  uid := 0
  lid := 0
  handler := none
  aslot := 0
  priv := false
  race := false
  commit := false
  prio := 0
  stamp := 0
  wix := 0
  rx := 0
  ry := 0
  task := false
  depth := 0
  image := 0
  d := 256
  pcs := List.replicate 32 0
  bcast := 0
  bcLanes := fullMask
  streams := []
  subs := []
  turn := 0
  ended := 0
  v := []
  s := []
  p := List.replicate 15 0
  t := []
  stage := []
  sfifo := [[], [], [], []]
  rb := List.replicate 8 ⟨none, 0⟩
  copyOpen := []
  batches := []
  copyErr := 0
  copyBad := []
  collQ := []
  unres := []
  more := 0
  remErr := []
  seqs := []
  wbars := 0
  sbars := []
  treds := 0
  cbuf := []
  relPos := 0
  sets := []
  past := false
  exits := []
  yieldTo := []
  ran := false
  seat := 0
  runs := 0
  waited := 0

/-- The core of the unit in execution. -/
def State.cur (s : State) : Nat :=
  match s.focus.unit with
  | .wave i _ => i
  | .xp i _ => i
  | .none => 0

/-- The wave slot of the wave in execution. -/
def State.curSlot (s : State) : Nat :=
  match s.focus.unit with
  | .wave _ k => k
  | _ => 0

def State.curX (s : State) : Nat :=
  match s.focus.unit with
  | .xp _ x => x
  | _ => 0

/-- The wave in execution. -/
def State.w (s : State) : Wave :=
  match s.focus.unit with
  | .wave i k => (s.wave? i k).getD Wave.empty
  | _ => Wave.empty

def State.modW (s : State) (f : Wave → Wave) : State :=
  match s.focus.unit with
  | .wave i k => s.modWave i k f
  | _ => s

/-- The transfer processor in execution. -/
def State.x (s : State) : XP :=
  match s.focus.unit with
  | .xp i x => s.xp i x
  | _ => XP.init

def State.modX (s : State) (f : XP → XP) : State :=
  match s.focus.unit with
  | .xp i x => s.modXp i x f
  | _ => s

def State.modF (s : State) (f : Focus → Focus) : State := { s with focus := f s.focus }

/-- The address-space slot of the unit in execution. -/
def Bind.aslot : Bind → Option Nat
  | .none => Option.none
  | .slot a => some a
  | .launch a _ => some a

def Bind.lid : Bind → Option Nat
  | .launch _ l => some l
  | _ => Option.none

def State.curAslot (s : State) : Nat :=
  match s.focus.unit with
  | .wave _ _ => s.w.aslot
  | .xp _ _ => s.x.bind.aslot.getD 0
  | .none => 0

/-- Every resident wave: core, slot, wave. -/
def State.resident (s : State) : List (Nat × Nat × Wave) :=
  s.cores.flatMap fun c => c.2.slots.map fun k => (c.1, k.1, k.2)

/-- Every wave that is resident or pre-empted, with its core. -/
def State.waves (s : State) : List (Nat × Wave) :=
  s.cores.flatMap fun c => c.2.slots.map (fun k => (c.1, k.2)) ++ c.2.pre.map fun w => (c.1, w)

def State.findWave (s : State) (uid : Nat) : Option (Nat × Wave) := s.waves.find? fun x => x.2.uid == uid

/-- Where a resident wave stands. -/
def State.findSlot (s : State) (uid : Nat) : Option (Nat × Nat) :=
  (s.resident.find? fun x => x.2.2.uid == uid).map fun x => (x.1, x.2.1)

/-- Change the wave of a name, resident or pre-empted. -/
def State.modUid (s : State) (uid : Nat) (f : Wave → Wave) : State :=
  { s with cores := s.cores.map fun c => (c.1, { c.2 with
      slots := c.2.slots.map fun k => (k.1, if k.2.uid == uid then f k.2 else k.2)
      pre := c.2.pre.map fun w => if w.uid == uid then f w else w }) }

/-- Change every core that is listed. -/
def State.mapCores (s : State) (f : Nat → Core → Core) : State := { s with cores := s.cores.map fun c => (c.1, f c.1 c.2) }

/-- Change every wave. -/
def State.mapWaves (s : State) (f : Nat → Wave → Wave) : State :=
  { s with cores := s.cores.map fun c => (c.1, { c.2 with
      slots := c.2.slots.map fun k => (k.1, f c.1 k.2)
      pre := c.2.pre.map (f c.1) }) }

/-! ## Registers (R7, R8, R31) -/

def Wave.vreg (w : Wave) (n l : Nat) : Word := mget 0 w.v (32 * n + l)
def Wave.setV (w : Wave) (n l : Nat) (x : Word) : Wave := { w with v := mset 0 w.v (32 * n + l) x }
def Wave.vpair (w : Wave) (n l : Nat) : DWord := joinWords (w.vreg n l) (w.vreg (n + 1) l)
def Wave.setV64 (w : Wave) (n l : Nat) (x : DWord) : Wave := (w.setV n l (lowWord x)).setV (n + 1) l (highWord x)
def Wave.sreg (w : Wave) (n : Nat) : Word := mget 0 w.s n
def Wave.setS (w : Wave) (n : Nat) (x : Word) : Wave := { w with s := mset 0 w.s n x }
def Wave.spair (w : Wave) (n : Nat) : DWord := joinWords (w.sreg n) (w.sreg (n + 1))
def Wave.setS64 (w : Wave) (n : Nat) (x : DWord) : Wave := (w.setS n (lowWord x)).setS (n + 1) (highWord x)
def Wave.latch (w : Wave) (n l : Nat) : Word := mget 0 w.t (32 * n + l)
def Wave.setT (w : Wave) (n l : Nat) (x : Word) : Wave := { w with t := mset 0 w.t (32 * n + l) x }

/-- p15 reads true (R32). -/
def Wave.pred (w : Wave) (n : Nat) : Mask := if n = 15 then fullMask else listGet 0 w.p n

/-- A write to p15 is discarded (R7). -/
def Wave.setP (w : Wave) (n l : Nat) (b : Bool) : Wave :=
  if n = 15 then w
  else { w with p := listPut 0 15 w.p n (if b then w.pred n ||| laneMask l else w.pred n &&& ~~~ laneMask l) }

def Wave.pc (w : Wave) (l : Nat) : Nat := (listGet 0 w.pcs l).toNat
def Wave.seq (w : Wave) (l : Nat) : Nat := mget 0 w.seqs l

def XP.dreg (p : XP) (n : Nat) : Word := mget 0 p.d n
def XP.setD (p : XP) (n : Nat) (x : Word) : XP := { p with d := mset 0 p.d n x }
def XP.dpair (p : XP) (n : Nat) : DWord := joinWords (p.dreg n) (p.dreg (n + 1))
def XP.setD64 (p : XP) (n : Nat) (x : DWord) : XP := (p.setD n (lowWord x)).setD (n + 1) (highWord x)

/-- A scalar register of a wave, or a d register of a transfer processor (R204). -/
def State.sreg (s : State) (n : Nat) : Word :=
  match s.focus.unit with
  | .xp _ _ => s.x.dreg n
  | _ => s.w.sreg n
def State.spair (s : State) (n : Nat) : DWord := joinWords (s.sreg n) (s.sreg (n + 1))
def State.setS (s : State) (n : Nat) (x : Word) : State :=
  match s.focus.unit with
  | .xp _ _ => s.modX fun p => p.setD n x
  | _ => s.modW fun w => w.setS n x
def State.setS64 (s : State) (n : Nat) (x : DWord) : State := (s.setS n (lowWord x)).setS (n + 1) (highWord x)

/-! ## The clock (R3, R422) -/

/-- `dt` cycles pass. Times in microseconds run on at the clock's rate. -/
def State.tick (s : State) (dt : Nat) : State :=
  { s with
    cyc := s.cyc + dt
    rank := if dt = 0 then s.rank else 0
    us := s.us + (s.sub + dt) / s.mhz
    sub := (s.sub + dt) % s.mhz }

/-! ## The device event ring (R413) -/

def EvRing.cap (e : EvRing) : Nat := 2 ^ (e.size + 6)

/-- Send an MSI-X vector. -/
def State.sendVec (s : State) (v : Nat) : State := { s with msix := v :: s.msix }

/-- Write one entry, or drop it while the ring is off or full. `detail` are words 2 to 7. -/
def State.devEvent (s : State) (code core slot : Nat) (detail : List Nat) : State :=
  let e := s.ev
  if !e.cfg.getLsbD 31 || (e.head + 2 ^ 32 - e.tail) % 2 ^ 32 = e.cap then
    { s with ev := { e with drop := min (e.drop + 1) 0xFFFFFFFF } }
  else
    let a := (e.base.toNat + 64 * (e.head % e.cap)) % 2 ^ 64
    let words := [code + core * 256, slot] ++ (List.range 6).map fun i => listGet 0 detail i
    let m := (List.range 8).foldl (fun m i => wrNum m (a + 8 * i) 8 (listGet 0 words i)) s.hostMem
    { s with hostMem := m, ev := { e with head := (e.head + 1) % 2 ^ 32 } }.sendVec (e.cfg.toNat % 64)

/-- Count an uncorrectable error of a die (R414). -/
def State.countUe (s : State) (die : Nat) : State :=
  { s with errUe := listPut 0 4 s.errUe die (min (listGet 0 s.errUe die + 1) (2 ^ 64 - 1)) }

/-! ## Bytes of bonded DRAM -/

/-- The byte ranges from `a` (n bytes) and from `b` (m bytes) have a byte in common. -/
def overlaps (a n b m : Nat) : Bool := a < b + m && b < a + n

/-- A write wakes every `mwait` on its sector (R268). -/
def wakeStream (pa n : Nat) (t : Stream) : Stream :=
  match t.st with
  | .park (.mwait p dl _) k r i =>
    if overlaps pa n (p / 32 * 32) 32 then { t with st := .park (.mwait p dl true) k r i } else t
  | _ => t

def State.wake (s : State) (pa n : Nat) : State :=
  s.mapWaves fun _ w => { w with streams := w.streams.map (wakeStream pa n) }

/-- The lanes of a record take the codes that its resolution word holds, each its first (R366). -/
def FRec.heed (r : FRec) (x : Nat) : FRec :=
  { r with codes := (lanesOf r.lanes).foldl (fun cs l =>
      let c := bitsN x (2 * l + 1) (2 * l)
      if c == 0 || cs.any (fun y => y.1 == l) then cs else cs ++ [(l, c)]) r.codes }

/-- The core acts on a lane's code once, at the first instant it is nonzero (R366): the code is taken at the write. -/
def FRec.observe (m : List Host.Cell) (pa n : Nat) (r : FRec) : FRec :=
  match r.pa with
  | none => r
  | some p => if overlaps pa n (p + 0x38) 8 then r.heed (rdNum m (p + 0x38) 8) else r

/-- The same for a record in host memory, which bus address `a` of a write touches. -/
def FRec.observeHost (m : List Host.Cell) (a n : Nat) (r : FRec) : FRec :=
  match r.pa with
  | some p => if p / 2 ^ 50 == 2 then { FRec.observe m a n { r with pa := some (p % 2 ^ 50) } with pa := some p } else r
  | none => r

/-- Host memory after a write of `n` bytes from bus address `a`. -/
def State.setHost (s : State) (m : List Host.Cell) (a n : Nat) : State :=
  { s with hostMem := m, recs := s.recs.map (FRec.observeHost m a n) }

/-- Perform a write of bytes in bonded DRAM. -/
def State.wrMem (s : State) (pa : Nat) (bs : List Byte) : State :=
  let m := wrBytes s.mem pa bs
  { s with mem := m, recs := s.recs.map (FRec.observe m pa bs.length) }.wake pa bs.length

def State.rdMem (s : State) (pa n : Nat) : Nat := rdNum s.mem pa n

/-- Perform a masked write of one sector. -/
def State.wrSector (s : State) (pa : Nat) (mask : BitVec 32) (bs : Map Byte) : State :=
  let m := wrMasked s.mem pa mask bs
  { s with mem := m, recs := s.recs.map (FRec.observe m pa 32) }.wake pa 32

/-! ## Home slices (R78) -/

/-- The die that a DRAM address has its home on. -/
def dieOf (pa : Nat) : Nat := pa / 65536 % 4
/-- The home slice on that die. -/
def sliceOf (pa : Nat) : Nat := pa / 2 ^ 18 % 16
/-- The offset within that die's DRAM. -/
def dieOffset (pa : Nat) : Nat := pa / 2 ^ 18 * 2 ^ 16 + pa % 2 ^ 16

/-- A physical address in bonded DRAM, by the die that serves it in minimal mode (R77, R417). -/
def dramTop : Nat := 0xC000000000
def State.backed (s : State) (pa : Nat) : Bool :=
  pa < dramTop && (s.boot.mode != 2 || pa / 2 ^ 16 % 4 == 0)
def isExt (pa : Nat) : Bool := bitN pa 51

/-- The slot that a 64 KiB frame is assigned to (R72). -/
def State.frameSlot (s : State) (frame : Nat) : Option Nat :=
  (s.frames.find? fun x => x.1 ≤ frame && frame < x.1 + x.2.1).map fun x => x.2.2

def State.poisoned (s : State) (pa : Nat) : Bool := s.poison.contains (pa / 32)
def State.sealedLine (s : State) (pa : Nat) : Bool := (aget s.sealed (pa / 128)).isSome

end Sys2Proof.Machine
end

