-- ==== Sys2Proof/Machine/Digest.lean ====
section
/-! DEFINITION. The digest that an attestation report names, SHAKE-256 (R412, R418; PRESUMED, log entry 74: FIPS 202), and the cipher of a
lehr image (R420). -/

namespace Sys2Proof.Machine
open Sys2Proof

/-! ## SHAKE-256 -/

def keccakLane (a : List DWord) (x y : Nat) : DWord := listGet 0 a (x % 5 + 5 * (y % 5))

/-- The lanes of a state whose lane (x, y) is `f x y`. -/
def keccakOf (f : Nat → Nat → DWord) : List DWord := (List.range 25).map fun i => f (i % 5) (i / 5)

/-- The rotation of each lane. -/
def keccakRot : List Nat := [0, 1, 62, 28, 27, 36, 44, 6, 55, 20, 3, 10, 43, 25, 39, 41, 45, 15, 21, 8, 18, 2, 61, 56, 14]

/-- The constant of each round. -/
def keccakRc : List Nat :=
  [0x0000000000000001, 0x0000000000008082, 0x800000000000808A, 0x8000000080008000, 0x000000000000808B, 0x0000000080000001,
   0x8000000080008081, 0x8000000000008009, 0x000000000000008A, 0x0000000000000088, 0x0000000080008009, 0x000000008000000A] ++
  [0x000000008000808B, 0x800000000000008B, 0x8000000000008089, 0x8000000000008003, 0x8000000000008002, 0x8000000000000080,
   0x000000000000800A, 0x800000008000000A, 0x8000000080008081, 0x8000000000008080, 0x0000000080000001, 0x8000000080008008]

def keccakTheta (a : List DWord) : List DWord :=
  let col := (List.range 5).map fun x => (List.range 5).foldl (fun w y => w ^^^ keccakLane a x y) 0
  keccakOf fun x y => keccakLane a x y ^^^ listGet 0 col ((x + 4) % 5) ^^^ (listGet 0 col ((x + 1) % 5)).rotateLeft 1

/-- The lane that moves to (x, y) comes from (x + 3y, x). -/
def keccakRhoPi (a : List DWord) : List DWord :=
  keccakOf fun x y => (keccakLane a (x + 3 * y) x).rotateLeft (listGet 0 keccakRot ((x + 3 * y) % 5 + 5 * x))

def keccakChi (a : List DWord) : List DWord :=
  keccakOf fun x y => keccakLane a x y ^^^ (~~~ (keccakLane a (x + 1) y) &&& keccakLane a (x + 2) y)

def keccakRound (a : List DWord) (rc : Nat) : List DWord :=
  match keccakChi (keccakRhoPi (keccakTheta a)) with
  | [] => []
  | l :: ls => (l ^^^ BitVec.ofNat 64 rc) :: ls

def keccakF (a : List DWord) : List DWord := keccakRc.foldl keccakRound a

/-- Absorb blocks of 136 bytes, of which the last is not full. -/
def absorb : Nat → List Byte → List DWord → List DWord
  | 0, _, a => a
  | n + 1, bs, a =>
    let pad : List Byte :=
      if 136 ≤ bs.length then bs.take 136
      else if bs.length == 135 then bs ++ [0x9F]
      else bs ++ [0x1F] ++ List.replicate (134 - bs.length) 0 ++ [0x80]
    absorb n (bs.drop 136) (keccakF (keccakOf fun x y =>
      keccakLane a x y ^^^ (if x + 5 * y < 17 then BitVec.ofNat 64 (ofBytes ((pad.drop (8 * (x + 5 * y))).take 8)) else 0)))

/-- The first 64 bytes of SHAKE-256. -/
def shake256 (bs : List Byte) : List Byte :=
  ((absorb (bs.length / 136 + 1) bs (List.replicate 25 0)).take 8).flatMap fun w => toBytes 8 w.toNat

/-! ## The image of a lehr (R420, R421; DESIGN CHOICE, log entry 18) -/

def lehrEnc (key pa : Nat) (x : BitVec 128) : BitVec 128 := (Config.xts key pa).elim x fun p => p.1.1 x
def lehrDec (key pa : Nat) (x : BitVec 128) : BitVec 128 := (Config.xts key pa).elim x fun p => p.1.2 x

/-- Host memory after a checkpoint: all of bonded DRAM, encrypted, then the step tag of every frame. -/
def lehrWrite (base key : Nat) (mem : List Host.Cell) (tags : Map Word) (host : List Host.Cell) : List Host.Cell :=
  let h := (List.range (dramTop / 16)).foldl
    (fun h i => wrNum h (base + 16 * i) 16 (lehrEnc key (16 * i) (BitVec.ofNat 128 (rdNum mem (16 * i) 16))).toNat) host
  (List.range (dramTop / 65536)).foldl (fun h i => wrNum h (base + dramTop + 4 * i) 4 (mget 0 tags i).toNat) h

/-- Bonded DRAM as an image holds it. -/
def lehrMem (base key : Nat) (host : List Host.Cell) : List Host.Cell :=
  (List.range (dramTop / 16)).foldl
    (fun m i => wrNum m (16 * i) 16 (lehrDec key (16 * i) (BitVec.ofNat 128 (rdNum host (base + 16 * i) 16))).toNat) []

/-- The step tags of an image. -/
def lehrTags (base : Nat) (host : List Host.Cell) : Map Word :=
  (List.range (dramTop / 65536)).foldl (fun m i => mset 0 m i (BitVec.ofNat 32 (rdNum host (base + dramTop + 4 * i) 4))) []

end Sys2Proof.Machine
end

