-- ==== Sys2Proof/Machine/Num.lean ====
section
/-! DEFINITION. Number formats and arithmetic (R134 to R156): decoding an encoding to its exact value, rounding an exact value
to a format, and the operations that the instruction entries name. Every value is an exact integer times a power of
two, or a quotient of two integers, until it is rounded once. -/

namespace Sys2Proof.Machine
open Sys2Proof

/-! ## Formats (R135, R136) -/

/-- An element format: exponent bits, mantissa bits, bias; whether it has infinities, and NaNs. -/
structure NumFmt where
  eb   : Nat
  mb   : Nat
  bias : Nat
  inf  : Bool
  nan  : Bool
deriving DecidableEq, Repr

def fF64 : NumFmt := ⟨11, 52, 1023, true, true⟩
def fF32 : NumFmt := ⟨8, 23, 127, true, true⟩
def fF16 : NumFmt := ⟨5, 10, 15, true, true⟩
def fBF16 : NumFmt := ⟨8, 7, 127, true, true⟩
def fE5M2 : NumFmt := ⟨5, 2, 15, true, true⟩
def fE4M3 : NumFmt := ⟨4, 3, 7, false, true⟩
def fE3M2 : NumFmt := ⟨3, 2, 3, false, false⟩
def fE2M3 : NumFmt := ⟨2, 3, 1, false, false⟩
def fE2M1 : NumFmt := ⟨2, 1, 1, false, false⟩

def ffmtNum : FFmt → NumFmt
  | .f32 => fF32
  | .f64 => fF64
  | .f16 => fF16
  | .bf16 => fBF16

/-- Width in bits. -/
def NumFmt.width (f : NumFmt) : Nat := 1 + f.eb + f.mb

/-- The default NaN (R136). -/
def NumFmt.dnan (f : NumFmt) : Nat :=
  if f.inf then (2 ^ f.eb - 1) * 2 ^ f.mb + 2 ^ (f.mb - 1) else 2 ^ (f.eb + f.mb) - 1

/-- The encoding of the largest finite value, without sign. -/
def NumFmt.maxEnc (f : NumFmt) : Nat :=
  if f.inf then (2 ^ f.eb - 1) * 2 ^ f.mb - 1 else if f.nan then 2 ^ (f.eb + f.mb) - 2 else 2 ^ (f.eb + f.mb) - 1

def NumFmt.infEnc (f : NumFmt) : Nat := (2 ^ f.eb - 1) * 2 ^ f.mb

/-- The encoding with a sign. -/
def NumFmt.sign (f : NumFmt) (neg : Bool) (x : Nat) : Nat := if neg then 2 ^ (f.eb + f.mb) + x else x

/-! ## Exact values -/

/-- What an encoding means (R134, R136): a NaN, an infinity, or (-1)^neg m 2^e; zero keeps its sign. -/
inductive FV where
  | nan
  | inf (neg : Bool)
  | fin (neg : Bool) (m : Nat) (e : Int)
deriving DecidableEq, Repr

def NumFmt.decode (f : NumFmt) (x : Nat) : FV :=
  let neg := bitN x (f.eb + f.mb)
  let m := bitsN x (f.mb - 1) 0
  let e := bitsN x (f.eb + f.mb - 1) f.mb
  if f.inf && e == 2 ^ f.eb - 1 then (if m == 0 then .inf neg else .nan)
  else if f.nan && !f.inf && e == 2 ^ f.eb - 1 && m == 2 ^ f.mb - 1 then .nan
  else if e == 0 then .fin neg m (1 - (f.bias : Int) - f.mb)
  else .fin neg (2 ^ f.mb + m) ((e : Int) - f.bias - f.mb)

def FV.isZero : FV → Bool
  | .fin _ m _ => m == 0
  | _ => false

def FV.isNan : FV → Bool
  | .nan => true
  | _ => false

def FV.isInf : FV → Bool
  | .inf _ => true
  | _ => false

def FV.neg' : FV → Bool
  | .nan => false
  | .inf n => n
  | .fin n _ _ => n

def FV.negate : FV → FV
  | .nan => .nan
  | .inf n => .inf (!n)
  | .fin n m e => .fin (!n) m e

/-- A signed integer times a power of two. -/
def FV.signed : FV → Int × Int
  | .fin n m e => (if n then -(m : Int) else m, e)
  | _ => (0, 0)

/-- m 2^(e - q), for q at most e. -/
def alignTo (q : Int) (x : Int × Int) : Int := x.1 * (2 ^ (x.2 - q).toNat : Nat)

/-! ## Rounding (R144, R145, R149) -/

/-- Floor of log2 of num / den, both positive. -/
def floorLog2 (num den : Nat) : Int :=
  let k : Int := (Nat.log2 num : Int) - Nat.log2 den
  let le (k : Int) : Bool := if k ≥ 0 then decide (den * 2 ^ k.toNat ≤ num) else decide (den ≤ num * 2 ^ (-k).toNat)
  if le (k + 1) then k + 1 else if le k then k else k - 1

/-- The rounded integer of num / den under a mode: the choice of R144 and R149 between lo and lo + 1. -/
def roundInt (mode : RMode) (draw : Nat) (neg : Bool) (num den : Nat) : Nat :=
  let lo := num / den
  let r := num % den
  if r == 0 then lo
  else
    match mode with
    | .rn => if 2 * r < den then lo else if den < 2 * r then lo + 1 else lo + lo % 2
    | .rz => lo
    | .ru => if neg then lo else lo + 1
    | .rd => if neg then lo + 1 else lo
    | .sr => if draw + r * 2 ^ 32 / den ≥ 2 ^ 32 then lo + 1 else lo

/-- An infinity in the target format (R145); the default NaN of E4M3 carries no sign. -/
def NumFmt.infinity (f : NumFmt) (sat neg : Bool) : Nat :=
  if f.inf && !sat then f.sign neg f.infEnc
  else if f.nan && !f.inf && !sat then f.dnan
  else f.sign neg f.maxEnc

def NumFmt.overflow (f : NumFmt) (mode : RMode) (sat neg : Bool) : Nat :=
  let toMax := match mode with
    | .rz => true
    | .ru => neg
    | .rd => !neg
    | _ => false
  if toMax then f.sign neg f.maxEnc else f.infinity sat neg

/-- Round (-1)^neg (num / den) 2^e, not zero, to a format; `keep` mantissa bits are kept (R144, R243). The extended set of E4M3
goes on from 448 with 480, of the same exponent (10_numbers_notes.md). -/
def NumFmt.roundQ (f : NumFmt) (keep : Nat) (mode : RMode) (draw : Nat) (sat neg : Bool) (num den : Nat) (e : Int) : Nat :=
  let k := floorLog2 num den + e
  let emin : Int := 1 - f.bias
  let q := max k emin - keep
  let d := e - q
  let n := if d ≥ 0 then roundInt mode draw neg (num * 2 ^ d.toNat) den else roundInt mode draw neg num (den * 2 ^ (-d).toNat)
  if n == 0 then f.sign neg 0
  else
    -- n 2^q, with n at most 2^(keep + 1)
    let (n, q) := if n ≥ 2 ^ (keep + 1) then (n / 2, q + 1) else (n, q)
    let enc := if n < 2 ^ keep then n * 2 ^ (f.mb - keep)
      else ((q + keep + f.bias).toNat) * 2 ^ f.mb + (n - 2 ^ keep) * 2 ^ (f.mb - keep)
    if enc > f.maxEnc then f.overflow mode sat neg else f.sign neg enc

/-- RoundToFormat of an exact value (R177); zeros keep their sign, NaN gives the default NaN (R146). -/
def NumFmt.round (f : NumFmt) (mode : RMode) (draw : Nat) (sat : Bool) : FV → Nat
  | .nan => if f.nan then f.dnan else 0
  | .inf n => f.infinity sat n
  | .fin n m e => if m == 0 then f.sign n 0 else f.roundQ f.mb mode draw sat n m 1 e

/-! ## Arithmetic (R150 to R152) -/

/-- The sign of an exact zero that is a sum of terms (R144). -/
def zeroSign (mode : RMode) (allNeg anyNeg : Bool) : Bool :=
  allNeg || (anyNeg && (match mode with | .rd => true | _ => false))

/-- The exact sum of terms, with the special values of R150 and R152. PRESUMED, log entry 79: a sum of zeros that are all positive
is positive. -/
def sumFV (mode : RMode) (ts : List FV) : FV :=
  if ts.any FV.isNan then .nan
  else
    let infs := ts.filter FV.isInf
    if infs.any FV.neg' && infs.any (fun t => !t.neg') then .nan
    else
      match infs with
      | t :: _ => t
      | [] =>
        let q := ts.foldl (fun q t => min q t.signed.2) (ts.headD (.fin false 0 0)).signed.2
        let n := ts.foldl (fun n t => n + alignTo q t.signed) (0 : Int)
        if n == 0 then
          let allNeg := ts.all fun t => t.isZero && t.neg'
          let anyNeg := ts.any FV.neg'
          let anyPos := ts.any fun t => !t.neg'
          .fin (zeroSign mode allNeg (anyNeg && anyPos)) 0 0
        else .fin (decide (n < 0)) n.natAbs q

/-- The exact product. PRESUMED, log entry 79: the sign of a zero or infinite product is that of its operands taken together. -/
def mulFV : FV → FV → FV
  | .nan, _ => .nan
  | _, .nan => .nan
  | .inf a, .inf b => .inf (a != b)
  | .inf a, .fin b m _ => if m == 0 then .nan else .inf (a != b)
  | .fin a m _, .inf b => if m == 0 then .nan else .inf (a != b)
  | .fin a m e, .fin b n g => .fin (a != b) (m * n) (e + g)

/-- The quotient, rounded. PRESUMED, log entry 79: the sign of a zero quotient and of an infinity divided by a number is that of
its operands taken together. -/
def divF (f : NumFmt) (mode : RMode) (x y : FV) : Nat :=
  match x, y with
  | .nan, _ => f.dnan
  | _, .nan => f.dnan
  | .inf _, .inf _ => f.dnan
  | .inf a, .fin b _ _ => f.infinity false (a != b)
  | .fin a _ _, .inf b => f.sign (a != b) 0
  | .fin a m e, .fin b n g =>
    if n == 0 then (if m == 0 then f.dnan else f.infinity false (a != b))
    else if m == 0 then f.sign (a != b) 0
    else f.roundQ f.mb mode 0 false (a != b) m n (e - g)

/-- The integer square root, bit by bit. -/
def isqrtBits : Nat → Nat → Nat → Nat
  | 0, _, r => r
  | i + 1, n, r => if (r + 2 ^ i) * (r + 2 ^ i) ≤ n then isqrtBits i n (r + 2 ^ i) else isqrtBits i n r

def isqrt (n : Nat) : Nat := isqrtBits (Nat.log2 n / 2 + 1) n 0

/-- √x, rounded once. 2^140 scales the root so that its dropped part is a sticky bit. -/
def sqrtF (f : NumFmt) (mode : RMode) : FV → Nat
  | .nan => f.dnan
  | .inf n => if n then f.dnan else f.infEnc
  | .fin n m e =>
    if m == 0 then f.sign n 0
    else if n then f.dnan
    else
      let m := if e % 2 == 0 then m else 2 * m
      let h := e / 2
      let y := m * 2 ^ 280
      let r := isqrt y
      let sticky := if r * r == y then 0 else 1
      f.roundQ f.mb mode 0 false false (2 * r + sticky) 1 (h - 141)

/-- How many mantissa bits `frcp` and `frsq` keep (R243). -/
def NumFmt.kept (f : NumFmt) : Nat := min f.mb 11

def rcpF (f : NumFmt) : FV → Nat
  | .nan => f.dnan
  | .inf n => f.sign n 0
  | .fin n m e => if m == 0 then f.sign n f.infEnc else f.roundQ f.kept .rn 0 false n 1 m (-e)

def rsqF (f : NumFmt) : FV → Nat
  | .nan => f.dnan
  | .inf n => if n then f.dnan else 0
  | .fin n m e =>
    if m == 0 then f.sign n f.infEnc
    else if n then f.dnan
    else
      let m := if e % 2 == 0 then m else 2 * m
      let h := e / 2
      let t := 160 + Nat.log2 m
      let r := isqrt (2 ^ (2 * t) / m)
      let sticky := if r * r * m == 2 ^ (2 * t) then 0 else 1
      f.roundQ f.kept .rn 0 false false (2 * r + sticky) 1 (-h - t - 1)

/-- Three-way comparison of numbers that are not NaN; zeros are equal unless `signed` (R151). -/
def cmpFV (signed : Bool) (x y : FV) : Ordering :=
  match x, y with
  | .inf a, .inf b => if a == b then .eq else if a then .lt else .gt
  | .inf a, _ => if a then .lt else .gt
  | _, .inf b => if b then .gt else .lt
  | x, y =>
    let q := min x.signed.2 y.signed.2
    let a := alignTo q x.signed
    let b := alignTo q y.signed
    if a < b then .lt else if b < a then .gt
    else if signed && a == 0 && x.neg' && !y.neg' then .lt
    else if signed && a == 0 && !x.neg' && y.neg' then .gt
    else .eq

/-- Minimum and maximum of two encodings (R151). -/
def fminE (f : NumFmt) (x y : Nat) : Nat :=
  let a := f.decode x
  let b := f.decode y
  if a.isNan || b.isNan then f.dnan else if cmpFV true b a == .lt then y else x
def fmaxE (f : NumFmt) (x y : Nat) : Nat :=
  let a := f.decode x
  let b := f.decode y
  if a.isNan || b.isNan then f.dnan else if cmpFV true a b == .lt then y else x

/-- Addition of two encodings, rounded (R150). -/
def faddE (f : NumFmt) (mode : RMode) (x y : Nat) : Nat := f.round mode 0 false (sumFV mode [f.decode x, f.decode y])

/-- A comparison (R151, R244). -/
def fcondHolds (c : FCond) (x y : FV) : Bool :=
  if x.isNan || y.isNan then (match c with | .ne => true | _ => false)
  else
    let o := cmpFV false x y
    match c with
    | .eq => o == .eq
    | .ne => o != .eq
    | .lt => o == .lt
    | .le => o != .gt
    | .gt => o == .gt
    | .ge => o != .lt

/-- The class mask of an encoding (R245). -/
def NumFmt.classMask (f : NumFmt) (x : Nat) : Nat :=
  let v := f.decode x
  let sub := bitsN x (f.eb + f.mb - 1) f.mb == 0
  match v with
  | .nan => 256
  | .inf n => if n then 1 else 128
  | .fin n m _ =>
    if m == 0 then (if n then 8 else 16)
    else if sub then (if n then 4 else 32) else (if n then 2 else 64)

/-! ## The fold of R95 -/

/-- One level of the tree: neighbours combined, an odd last one kept. -/
def treeLevel {α : Type} (op : α → α → α) : List α → List α
  | [] => []
  | [x] => [x]
  | x :: y :: l => op x y :: treeLevel op l

/-- Fold leaves by the tree; `n` levels at least halve the list each. -/
def treeFold {α : Type} (op : α → α → α) (d : α) : Nat → List α → α
  | 0, l => l.headD d
  | n + 1, l =>
    match l with
    | [] => d
    | [x] => x
    | _ => treeFold op d n (treeLevel op l)

def treeSum {α : Type} (op : α → α → α) (d : α) (l : List α) : α := treeFold op d l.length l

/-! ## Draws (R147, R148) -/

/-- One round of Philox-4x32. -/
def philoxRound (c : Nat × Nat × Nat × Nat) (k0 k1 : Nat) : Nat × Nat × Nat × Nat :=
  let p0 := 0xD2511F53 * c.1
  let p1 := 0xCD9E8D57 * c.2.2.1
  ((p1 / 2 ^ 32) ^^^ c.2.1 ^^^ k0, p1 % 2 ^ 32, (p0 / 2 ^ 32) ^^^ c.2.2.2 ^^^ k1, p0 % 2 ^ 32)

def philoxFrom : Nat → Nat × Nat × Nat × Nat → Nat → Nat → Nat × Nat × Nat × Nat
  | 0, c, _, _ => c
  | n + 1, c, k0, k1 =>
    philoxFrom n (philoxRound c k0 k1) ((k0 + 0x9E3779B9) % 2 ^ 32) ((k1 + 0xBB67AE85) % 2 ^ 32)

def philox (c0 c1 c2 c3 k0 k1 : Nat) : Nat × Nat × Nat × Nat := philoxFrom 10 (c0, c1, c2, c3) k0 k1

/-- Draw(seed, tid, e, n, j): its four words. -/
def drawWords (seed tid e n j : Nat) : Nat × Nat × Nat × Nat :=
  philox (e % 2 ^ 32) (e / 2 ^ 32 % 2 ^ 32) n j seed tid

/-- The word that stochastic rounding uses. -/
def drawRound (seed tid e n : Nat) : Nat := (drawWords seed tid e n 0).1

/-! ## Conversion (R146, R247, R248) -/

def ctyNum : CTy → NumFmt
  | .f64 => fF64
  | .f32 => fF32
  | .f16 => fF16
  | .bf16 => fBF16
  | .e5m2 => fE5M2
  | .e4m3 => fE4M3
  | _ => fF32

def ctySigned : CTy → Bool
  | .i32 | .i64 => true
  | _ => false

/-- A source value, read exactly. -/
def ctyDecode (t : CTy) (x : Nat) : FV :=
  if t.isInt then
    let i : Int := if ctySigned t then sextN t.width x else (x % 2 ^ t.width : Nat)
    .fin (decide (i < 0)) i.natAbs 0
  else (ctyNum t).decode x

/-- An exact value to an integer type (R146). -/
def toIntTy (t : CTy) (mode : RMode) (draw : Nat) (v : FV) : Nat :=
  let w := t.width
  let hi : Int := if ctySigned t then (2 ^ (w - 1) : Nat) - 1 else (2 ^ w : Nat) - 1
  let lo : Int := if ctySigned t then -(2 ^ (w - 1) : Nat) else 0
  let clamp (i : Int) : Nat := wrapN w (if i < lo then lo else if hi < i then hi else i)
  match v with
  | .nan => 0
  | .inf n => wrapN w (if n then lo else hi)
  | .fin n m e =>
    let r := if e ≥ 0 then m * 2 ^ e.toNat else roundInt mode draw n m (2 ^ (-e).toNat)
    clamp (if n then -(r : Int) else r)

def convert (dty sty : CTy) (mode : RMode) (draw : Nat) (sat : Bool) (x : Nat) : Nat :=
  let v := ctyDecode sty x
  if dty.isInt then toIntTy dty mode draw v else (ctyNum dty).round mode draw sat v

/-! ## Scales and blocked elements (R139 to R143) -/

/-- A scale byte as a value. -/
def scaleFV (b : Nat) : FV := if b == 255 then .nan else .fin false 1 ((b : Int) - 127)

/-- A P2 weight without its scale (R141): the two terms over 2^6; a sum of zero is +0. -/
def p2Weight (b : Nat) : FV :=
  let term (s : Bool) (k : Nat) : Int := if k == 7 then 0 else if s then -((2 ^ (6 - k) : Nat) : Int) else ((2 ^ (6 - k) : Nat) : Int)
  let n := term (bitN b 7) (bitsN b 6 4) + term (bitN b 3) (bitsN b 2 0)
  .fin (decide (n < 0)) n.natAbs (-6)

/-- The scale that a block of values takes (R143). -/
def blockScale (emax : Int) (vs : List FV) : Nat :=
  if vs.any (fun v => v.isNan || v.isInf) then 255
  else
    let top := vs.foldl (fun (t : Option Int) v =>
      match v with
      | .fin _ m e =>
        if m == 0 then t else
          let k := (Nat.log2 m : Int) + e
          (match t with | some a => some (max a k) | none => some k)
      | _ => t) none
    match top with
    | none => 127
    | some k => (min (max (k - emax + 127) 0) 254).toNat

/-- One element under a scale (R143): always saturates. -/
def blockElem (f : NumFmt) (mode : RMode) (draw scale : Nat) (allZero : Bool) (v : FV) : Nat :=
  if scale == 255 || allZero then 0
  else
    match v with
    | .fin n m e =>
      let x := f.round mode draw true (.fin n m (e + 127 - scale))
      if x % 2 ^ (f.eb + f.mb) > f.maxEnc then f.sign n f.maxEnc else x
    | _ => 0

end Sys2Proof.Machine
end

