-- ==== Sys2Proof/Machine/Xlate.lean ====
section
/-! DEFINITION. Tokens and L1 lines of an access (R85 to R92), loads and stores of bytes in bonded DRAM with what a range or
poison makes of them (R95, R379), and translation (R68 to R76, R99, R100). Data has one coherent value; tokens, lines and leaves
are kept beside it (DEDUCED, log entry 3; DESIGN CHOICE, log entry 13). -/

namespace Sys2Proof.Machine
open Sys2Proof

/-- What an access learns from translation (R177). -/
structure Acc where
  pa  : Nat
  ver : Bool
  nc  : Bool
  x   : Bool
deriving DecidableEq, Repr

/-! ## Tokens and L1 lines (R85 to R92) -/

/-- A core that is disabled or gated: its L1 is empty and holds no tokens (R30). -/
def Core.offline (c : Core) : Bool := c.disabled || c.gated

/-- The core whose L1 array holds a line for a core (R86); none where that array is off, and the access is served at the home
slice (R30). -/
def State.l1Core (s : State) (core va : Nat) : Option Nat :=
  let h := if (s.cluster (coreCluster core)).fused then coreOfCluster (coreCluster core) (va / 128 % 64) else core
  if (s.core h).offline then none else some h

def State.dropLine (s : State) (line : Nat) : State :=
  { s with cores := s.cores.map fun c => (c.1, { c.2 with l1 := adel c.2.l1 line }) }

/-- Tokens of a line that lie in L1s; the rest of the 1,025 are at its home slice (R87). -/
def State.tokensOut (s : State) (line : Nat) : Nat :=
  s.cores.foldl (fun n c => n + (aget c.2.l1 line).elim 0 (·.tokens)) 0

/-- The holder of every token gives all but one back, written back and clean (R88). -/
def State.yieldTokens (s : State) (line : Nat) : State :=
  { s with cores := s.cores.map fun c => (c.1, match aget c.2.l1 line with
      | some e => if e.tokens > 1 then { c.2 with l1 := aput c.2.l1 line { e with tokens := 1, dirty := false } } else c.2
      | none => c.2) }

def sectorBit (pa : Nat) : BitVec 4 := BitVec.ofNat 4 (2 ^ (pa / 32 % 4))

/-- The lines of one L1 (R18). -/
def l1Lines : Nat := 1024

/-- Put a line into an L1; a full one gives up another line, whose tokens and changed data go home (R18, R88; DESIGN CHOICE, log
entry 13). -/
def State.l1Put (s : State) (h line : Nat) (e : L1Line) : State :=
  s.modCore h fun c =>
    let l := if (aget c.l1 line).isSome || c.l1.length < l1Lines then c.l1 else c.l1.eraseIdx (Config.freeLine line s.cyc % c.l1.length)
    { c with l1 := aput l line e }

/-- The generation and the seal epoch of a slot (R73, R92). -/
def State.genOf (s : State) (aslot : Nat) : Nat := (s.slot? aslot).elim 0 (·.gen)
def State.epochOf (s : State) (aslot : Nat) : Nat := (s.slot? aslot).elim 0 (·.epoch)

/-! ### Persistent requests (R89) -/

/-- Give a core one token of a line, or every token (R88, R89). A line that the core has not held has no sector and no tag yet. -/
def State.giveTokens (s : State) (core line : Nat) (write : Bool) : State :=
  match s.frameSlot (line * 128 / 65536) with
  | none => s
  | some k =>
    let e := (aget (s.core core).l1 line).getD ⟨k, s.genOf k, 0, 0, false, 0, none, false, false⟩
    let e : L1Line := { e with valid := if e.epoch.isNone then e.valid else 0, epoch := none }
    if write then (s.dropLine line).l1Put core line { e with tokens := 1025 }
    else (s.yieldTokens line).l1Put core line { e with tokens := max e.tokens 1 }

/-- A core may ask for the tokens of a line of bonded DRAM. -/
def State.mayAsk (s : State) (core line : Nat) : Bool :=
  s.backed (line * 128) && !(s.core core).offline && decide (core < 1024) && !s.sealedLine (line * 128) && s.boot.mode != 0

/-- A core has been served for a line: every persistent request that stands for it notes that. -/
def State.noteServed (s : State) (core line : Nat) : State :=
  { s with preqs := s.preqs.map fun r => if r.line == line then { r with served := core :: r.served } else r }

/-- The persistent request of another core, which has seen this one served, comes first (R89). -/
def State.outranked (s : State) (core line : Nat) : Bool :=
  s.preqs.any fun r => r.line == line && r.core != core && r.served.contains core

/-- The next requester of a line: round-robin from the core served last (R89). -/
def State.nextReq (s : State) (line : Nat) : Option PReq :=
  let l := sortBy (fun (a b : PReq) => decide (a.core < b.core)) (s.preqs.filter fun r => r.line == line)
  match l.find? fun r => decide (mget 0 s.served line ≤ r.core) with
  | some r => some r
  | none => l.head?

/-- The arbiter serves the next persistent request of a line; a core that may no longer hold tokens gets none (R87). -/
def State.arbitrate (s : State) (line : Nat) : State :=
  match s.nextReq line with
  | none => s
  | some r =>
    let s : State := { s with
      preqs := s.preqs.filter fun x => !(x.line == line && x.core == r.core)
      served := mset 0 s.served line (r.core + 1) }
    if s.mayAsk r.core line then (s.noteServed r.core line).giveTokens r.core line r.write else s

/-- A core is served for a line: the requests that come before it first, which then note it (R89). -/
def State.askTokens (s : State) (core line : Nat) : State :=
  (iterate (fun s => if s.outranked core line then s.arbitrate line else s) s.preqs.length s).noteServed core line

/-- A read at the home slice, which needs one token there (R88). -/
def State.homeToken (s : State) (pa : Nat) : State := if isExt pa then s else s.yieldTokens (pa / 128)

/-- A read through the L1 (R76, R85, R88, R91, R92): one token and the sector, or an untracked copy of a sealed line. A line held
under another tag moves to the new one with its tokens and sectors (R76). A page with nc is read at the home slice (R85). -/
def State.tokRead (s : State) (core aslot va : Nat) (a : Acc) : State :=
  if isExt a.pa || s.boot.mode == 0 then s
  else
    let line := a.pa / 128
    match if a.nc then none else s.l1Core core va with
    | none => s.yieldTokens line
    | some h =>
      let own := (aget (s.core h).l1 line).elim 0 (·.tokens)
      let s := if own == 0 then (s.askTokens h line).yieldTokens line else s
      let e := match aget (s.core h).l1 line with
        | some e =>
          let old := if e.epoch.all (· == s.epochOf aslot) then e.valid else 0
          let here := e.slot == aslot && e.gen == s.genOf aslot && e.vtag == va / 128
          { e with slot := aslot, gen := s.genOf aslot, vtag := va / 128, valid := old ||| sectorBit a.pa, w := e.w && here, x := a.x }
        | none => ⟨aslot, s.genOf aslot, va / 128, sectorBit a.pa, false, 1, none, false, a.x⟩
      let e := if s.sealedLine a.pa then { e with tokens := 0, epoch := some (s.epochOf aslot) }
        else { e with tokens := max e.tokens 1, epoch := none }
      s.l1Put h line e

/-- A store collects every token of the line (R88). -/
def State.tokWrite (s : State) (core aslot va : Nat) (a : Acc) : State :=
  if isExt a.pa || s.boot.mode == 0 then s
  else
    let line := a.pa / 128
    match if a.nc then none else s.l1Core core va with
    | none => s.dropLine line
    | some h =>
      let s := if (aget (s.core h).l1 line).elim 0 (·.tokens) == 1025 then s else s.askTokens h line
      let keep := match aget (s.core h).l1 line with
        | some e => if e.epoch.isNone then e.valid else 0
        | none => 0
      (s.dropLine line).l1Put h line ⟨aslot, s.genOf aslot, va / 128, keep ||| sectorBit a.pa, true, 1025, none, true, a.x⟩

/-- Every token to the home slice (R90). -/
def State.tokHome (s : State) (pa : Nat) : State := if isExt pa then s else s.dropLine (pa / 128)

/-! ## Performed accesses to bonded DRAM -/

/-- Bytes of an element of a commutative range (R93). -/
def crBytes : CrOp → Nat
  | .addf64 | .addi64 => 8
  | _ => 4

/-- One combine (R93, R155). -/
def crCombine (op : CrOp) (x y : Nat) : Nat :=
  match op with
  | .addf32 => faddE fF32 .rn x y
  | .addf64 => faddE fF64 .rn x y
  | .addi32 => (x + y) % 2 ^ 32
  | .addi64 => (x + y) % 2 ^ 64
  | .maxf32 => fmaxE fF32 x y
  | .minf32 => fminE fF32 x y

/-- The partials of a line, cores ascending (R95). -/
def State.linePartials (s : State) (line : Nat) : List Partial :=
  s.cores.flatMap fun c => c.2.partials.filter fun p => p.pa / 128 == line

/-- Combine a line at its home slice and discard its partials (R95). -/
def State.combine (s : State) (pa : Nat) : State :=
  let line := pa / 128
  match s.linePartials line with
  | [] => s
  | ps =>
    let keys := dedup (ps.map fun p => (p.pa, p.op))
    let s := s.mapCores fun _ c => { c with partials := c.partials.filter fun p => p.pa / 128 != line }
    keys.foldl (fun s k =>
      let n := crBytes k.2
      let leaves := s.rdMem k.1 n :: (ps.filter fun p => p.pa == k.1).map fun p => p.val.toNat
      s.wrMem k.1 (toBytes n (treeSum (crCombine k.2) 0 leaves))) (s.dropLine line)

/-- A load of `n` bytes in one sector, whose token is held. -/
def State.physLoad (s : State) (pa n : Nat) : State × Nat :=
  let s := s.combine pa
  (s, s.rdMem pa n)

/-- A store of bytes within one sector; one that covers the whole sector clears its poison (R379). -/
def State.physStore (s : State) (pa : Nat) (bs : List Byte) : State :=
  let s := s.combine pa
  let s := if bs.length == 32 && pa % 32 == 0 then { s with poison := s.poison.filter (· != pa / 32) } else s
  s.wrMem pa bs

/-- A masked store of a sector. -/
def State.physSector (s : State) (pa : Nat) (mask : BitVec 32) (bs : Map Byte) : State :=
  let s := s.combine pa
  let s := if mask == 0xFFFFFFFF then { s with poison := s.poison.filter (· != pa / 32) } else s
  s.wrSector pa mask bs

/-! ## The walk -/

/-- The kind of an access (R177). -/
inductive AKind where
  | load | store | atomic | contrib | fetch
deriving DecidableEq, Repr

def AKind.writes : AKind → Bool
  | .load | .fetch => false
  | _ => true

/-- A leaf: its entry, level, and the physical address of the entry. -/
structure Leaf where
  pte   : Nat
  level : Nat
  ent   : Nat
deriving DecidableEq, Repr

/-- How a walk ends: a leaf, or a memory fault with its cause (R364): 1 page, 2 format, 3 protection, 4 physical. -/
inductive WalkRes where
  | leaf (l : Leaf)
  | fault (cause : Nat)
deriving DecidableEq, Repr

/-- Bits of the page offset under a leaf of a level (R69). -/
def pageShift (level : Nat) : Nat := if level = 0 then 16 else if level = 1 then 21 else 30
def levelIndex (level va : Nat) : Nat :=
  if level = 0 then bitsN va 20 16 else bitsN va (29 + 9 * (level - 1)) (21 + 9 * (level - 1))

def pteOff (e : Nat) : Nat := bitsN e 63 62
def pteVer (e : Nat) : Bool := bitN e 61
def pteNc (e : Nat) : Bool := bitN e 60
def pteX (e : Nat) : Bool := bitN e 59
def pteW (e : Nat) : Bool := bitN e 58
def ptePa (e : Nat) : Nat := bitsN e 51 8 * 256
def pteKind (e : Nat) : Nat := bitsN e 2 1
def pteValid (e : Nat) : Bool := bitN e 0

/-- Step 2 of R71 on one entry. -/
def pteBad (level e : Nat) : Bool :=
  bitsN e 55 52 != 0 || bitsN e 7 3 != 0 || decide (pteKind e ≥ 2) || (pteKind e == 0 && bitsN e 63 56 != 0) ||
  (pteKind e == 1 && decide (level ≥ 3)) || (pteKind e == 0 && level == 0) ||
  (pteKind e == 0 && decide (level ≥ 2) && ptePa e % 4096 != 0) || (pteKind e == 0 && decide (dramTop ≤ ptePa e)) ||
  (pteKind e == 1 && ptePa e % 2 ^ pageShift level != 0) || (pteKind e == 1 && pteVer e && level != 0)

/-- Steps 1 and 2 of R71, from a level's table on. -/
def walkFrom (m : List Host.Cell) : Nat → Nat → Nat → WalkRes
  | 0, table, va =>
    let a := table + 8 * levelIndex 0 va
    let e := rdNum m a 8
    if !pteValid e then .fault 1 else if pteBad 0 e then .fault 2 else .leaf ⟨e, 0, a⟩
  | l + 1, table, va =>
    let a := table + 8 * levelIndex (l + 1) va
    let e := rdNum m a 8
    if !pteValid e then .fault 1 else if pteBad (l + 1) e then .fault 2
    else if pteKind e == 1 then .leaf ⟨e, l + 1, a⟩
    else walkFrom m l (ptePa e) va

def Leaf.pa (l : Leaf) (va : Nat) : Nat := ptePa l.pte + va % 2 ^ pageShift l.level

/-- Steps 3 to 5 of R71 on the leaf. -/
def leafFault (s : State) (aslot va : Nat) (k : AKind) (l : Leaf) : Option Nat :=
  let pa := l.pa va
  if !isExt pa && !s.backed pa then some 4
  else if !isExt pa && s.frameSlot (pa / 65536) != some aslot then some 3
  else if k.writes && !pteW l.pte then some 3
  else if k == .fetch && !pteX l.pte then some 3
  else none

/-- The entries that a walk reads. -/
def walkPath (m : List Host.Cell) : Nat → Nat → Nat → List Nat
  | 0, table, va => [table + 8 * levelIndex 0 va]
  | l + 1, table, va =>
    let a := table + 8 * levelIndex (l + 1) va
    let e := rdNum m a 8
    a :: (if pteValid e && !pteBad (l + 1) e && pteKind e == 0 then walkPath m l (ptePa e) va else [])

/-- The walk of a slot's tables (R69, R71). -/
def State.walk (s : State) (aslot va : Nat) : WalkRes :=
  match s.slot? aslot with
  | some a => walkFrom s.mem 4 a.root va
  | none => .fault 1

/-- Without the accessed and dirty bits. -/
def pteCore (e : Nat) : Nat := putBits e 57 56 0

/-- The entries on the way to the leaf of an address. -/
def State.tablePath (s : State) (aslot va : Nat) : List Nat := (s.slot? aslot).elim [] fun a => walkPath s.mem 4 a.root va

/-- A walk reads the tables through the home slices, which combine their lines first (R74, R88, R95). -/
def State.combineTables (s : State) (aslot va : Nat) : State :=
  let s := iterate (fun s => (s.tablePath aslot va).foldl State.combine s) 5 s
  (s.tablePath aslot va).foldl State.homeToken s

/-- The leaf covers an address of a slot (R75). -/
def TlbEnt.covers (e : TlbEnt) (aslot gen va : Nat) : Bool :=
  e.aslot == aslot && e.gen == gen && e.page * 65536 / 2 ^ pageShift e.level == va / 2 ^ pageShift e.level

/-- The held leaf is the one that the tables now hold. -/
def TlbEnt.same (e : TlbEnt) (now : WalkRes) : Bool :=
  match now with
  | .leaf l => pteCore e.pte.toNat == pteCore l.pte && e.level == l.level && e.ptePa == l.ent
  | .fault _ => false

/-- Whether one of the older leaves is used, and which: a free choice for each. -/
def State.pickOld (s : State) : List TlbEnt → State × Option TlbEnt
  | [] => (s, none)
  | e :: es =>
    let (old, s) := s.draw
    if old then (s, some e) else s.pickOld es

/-- Walk the tables; the cluster's TLB keeps the leaf. -/
def State.walkIn (s : State) (cl aslot va : Nat) : State × WalkRes :=
  let s := s.combineTables aslot va
  match s.walk aslot va with
  | .leaf l =>
    (s.modCluster cl fun c => { c with tlb := ⟨aslot, va / 65536, s.genOf aslot, BitVec.ofNat 64 l.pte, l.level, l.ent⟩ :: c.tlb }, .leaf l)
  | .fault c => (s, .fault c)

/-- The leaf that a lookup uses (R74, R75): a leaf of an older content that the TLB holds may go on being used, a free choice
at each lookup (DEDUCED, log entry 8). -/
def State.lookup (s : State) (core aslot va : Nat) : State × WalkRes :=
  let cl := coreCluster core
  let now := s.walk aslot va
  let held := (s.cluster cl).tlb.filter fun e => e.covers aslot (s.genOf aslot) va
  match s.pickOld (held.filter fun e => !e.same now) with
  | (s, some e) => (s, .leaf ⟨e.pte.toNat, e.level, e.ptePa⟩)
  | (s, none) => if held.any fun e => e.same now then (s, now) else s.walkIn cl aslot va

/-- A translation: an address, a fault with kind and cause, or a page whose state parks the access (R100). -/
inductive Tr where
  | ok (a : Acc)
  | fault (kind cause : Nat)
  | park (c : ParkCond)
deriving DecidableEq, Repr

/-- A table entry is changed by an atomic at its home slice, on the combined value (R70, R90, R95, R99). It is written on a sealed line as on
any other (DESIGN CHOICE, log entry 76). -/
def State.setEntry (s : State) (ent : Nat) (f : Nat → Nat) : State :=
  let s := (s.tokHome ent).combine ent
  s.physStore ent (toBytes 8 (f (rdNum s.mem ent 8)))

/-- What the walker sets in the entry of an access. -/
def AKind.used (k : AKind) (e : Nat) : Nat := e ||| 2 ^ 57 ||| (if k.writes then 2 ^ 56 else 0)

/-- The walker sets a, and dt on the first write, in the entry (R70). An entry that has another content than the leaf in use, since an old
one is held, keeps both as they are (DESIGN CHOICE, log entry 77). -/
def State.setUsed (s : State) (k : AKind) (l : Leaf) : State :=
  let s := s.combine l.ent
  let e := rdNum s.mem l.ent 8
  if k.used e == e || pteCore e != pteCore l.pte then s else s.setEntry l.ent k.used

/-- What the leaf says of an access to an address. -/
def Leaf.acc (l : Leaf) (va : Nat) : Acc := ⟨l.pa va, pteVer l.pte, pteNc l.pte, pteX l.pte⟩

/-- Translate a canonical address for an access (R71, R74, R99, R100). -/
def State.translate (s : State) (core aslot va : Nat) (k : AKind) : State × Tr :=
  let (s, r) := s.lookup core aslot va
  match r with
  | .fault c => (s, .fault 5 c)
  | .leaf l =>
    match leafFault s aslot va k l with
    | some c => (s, .fault 5 c)
    | none =>
      let off := pteOff l.pte
      if off == 3 then (s, .fault 5 5)
      else if off == 2 || (off == 1 && k.writes) then (s, .park (.page aslot va off))
      else (s.setUsed k l, .ok (l.acc va))

/-- The physical address at which the L1 answers an access itself (R20, R85): a line under its tag with the sector, for a load one
token or an untracked copy of the present epoch, for a store every token; and the right that the line's leaf gave (DEDUCED, log
entry 61). -/
def State.l1Hit (s : State) (core aslot va : Nat) (k : AKind) : Option Acc :=
  let fit (x : Nat × L1Line) : Bool :=
    let e := x.2
    e.slot == aslot && e.gen == s.genOf aslot && e.vtag == va / 128 && e.valid &&& sectorBit va != 0 &&
    (match k with
     | .load => if e.epoch.isSome then e.epoch == some (s.epochOf aslot) else decide (1 ≤ e.tokens)
     | .fetch => e.x && (if e.epoch.isSome then e.epoch == some (s.epochOf aslot) else decide (1 ≤ e.tokens))
     | .store => e.w && e.tokens == 1025
     | .atomic | .contrib => false)
  (s.l1Core core va).bind fun h => ((s.core h).l1.find? fit).map fun x => ⟨x.1 * 128 + va % 128, false, false, x.2.x⟩

/-- What the tables say now is what a hit says: translating it would change and meet nothing. -/
def State.l1Plain (s : State) (aslot va : Nat) (k : AKind) (a : Acc) : Bool :=
  match s.walk aslot va with
  | .leaf l => l.pa va == a.pa && (leafFault s aslot va k l).isNone && pteOff l.pte == 0 && !pteNc l.pte &&
      k.used (rdNum s.mem l.ent 8) == rdNum s.mem l.ent 8
  | .fault _ => false

/-- A load, store or fetch: only an L1 miss is translated (R20). Whether the L1 still holds a line that the tables have left behind is a
free choice (DEDUCED, log entry 61). -/
def State.reach (s : State) (core aslot va : Nat) (k : AKind) : State × Tr :=
  match s.l1Hit core aslot va k with
  | none => s.translate core aslot va k
  | some a =>
    if s.l1Plain aslot va k a then (s, .ok a)
    else
      let (held, s) := s.draw
      if held then (s, .ok a) else (s.dropLine (a.pa / 128)).translate core aslot va k

/-- An access that is not aligned, or crosses a sector (R79, R260). -/
def misaligned (va size : Nat) (natural : Bool) : Bool := decide (va % 32 + size > 32) || (natural && va % size != 0)

/-- An access that a check before the walk stops. -/
def badForm (va size : Nat) (natural : Bool) : Bool := decide (va ≥ 2 ^ 57) || misaligned va size natural

/-- The checks before the walk, in the order of R260: non-canonical, alignment, then translation by `f`. -/
def State.checked' (s : State) (va size : Nat) (natural : Bool) (f : State → State × Tr) : State × Tr :=
  if va ≥ 2 ^ 57 then (s, .fault 2 0)
  else if misaligned va size natural then (s, .fault 3 0)
  else f s

/-- An access at the home slice: always translated. -/
def State.gtrans (s : State) (core aslot va size : Nat) (natural : Bool) (k : AKind) : State × Tr :=
  s.checked' va size natural fun s => s.translate core aslot va k

/-- An access through the L1. -/
def State.ltrans (s : State) (core aslot va size : Nat) (natural : Bool) (k : AKind) : State × Tr :=
  s.checked' va size natural fun s => s.reach core aslot va k

/-- A speculative access: the address if it meets nothing (R102). -/
def State.specTrans (s : State) (aslot va : Nat) (k : AKind) : Option Acc :=
  if va ≥ 2 ^ 57 then none
  else
    match s.walk aslot va with
    | .fault _ => none
    | .leaf l =>
      if (leafFault s aslot va k l).isSome || pteOff l.pte != 0 || (k.writes && s.sealedLine (l.pa va)) then none
      else some (l.acc va)

/-- The current offload state of a page; none where no leaf maps it. -/
def State.pageOff (s : State) (aslot va : Nat) : Option Nat :=
  match s.walk aslot va with
  | .leaf l => some (pteOff l.pte)
  | .fault _ => none

/-- A held leaf comes from an entry, or covers an address of a slot. -/
def TlbEnt.of (e : TlbEnt) (ent aslot gen va : Nat) : Bool := e.ptePa == ent || e.covers aslot gen va

/-- Change a leaf's off field (R99): an atomic at the entry's home slice; every cluster TLB learns of it, under whichever address it holds
the leaf, and no L1 keeps a line of the page, which the next access therefore translates (R20). -/
def State.setOff (s : State) (aslot va off : Nat) : State :=
  let s := s.combineTables aslot va
  match s.walk aslot va with
  | .fault _ => s
  | .leaf l =>
    let s := s.setEntry l.ent fun e => putBits e 63 62 off
    let inPage (line : Nat) : Bool := line * 128 / 2 ^ pageShift l.level == ptePa l.pte / 2 ^ pageShift l.level
    let s := s.mapCores fun _ c => { c with l1 := mdrop inPage c.l1 }
    { s with clusters := s.clusters.map fun c => (c.1, { c.2 with tlb := c.2.tlb.filter fun e => !e.of l.ent aslot (s.genOf aslot) va }) }

end Sys2Proof.Machine
end

