-- ==== Sys2Proof/Machine/Ops.lean ====
section
/-! DEFINITION. The shared operations: writing fault records, which is how the part takes an exception (R361 to R370); and the return from one
(R366). -/

namespace Sys2Proof.Machine
open Sys2Proof

/-! ## Taking an exception: fault records (R360 to R364) -/

def fltBaseAddr (a : ASlot) : Nat := bitsN a.fltBase.toNat 56 12 * 4096
def fltCap (a : ASlot) : Nat := 2 ^ (bitsN a.fltBase.toNat 3 0 + 6)
def fltFull (a : ASlot) : Bool := (a.fltHead + 2 ^ 32 - a.fltTail) % 2 ^ 32 == fltCap a

/-- The last fixed word of a record (R362). -/
def recInfo (kind cause dlv unit slot core seq : Nat) : Nat :=
  kind % 256 * 2 ^ 56 + cause % 256 * 2 ^ 48 + dlv * 2 ^ 46 + unit * 2 ^ 43 + slot * 2 ^ 38 + core * 2 ^ 28 + seq % 2 ^ 28

/-- What a fault is about, as its record says it. -/
structure RecArgs where
  aslot : Nat
  core  : Nat
  uid   : Nat
  slot  : Nat
  unit  : Nat
  pc    : Nat
  addr  : Nat
  insn  : BitVec 128
  stamp : Nat
  lanes : Mask
  info  : Nat
  kind  : Nat
  cause : Nat
  dlv   : Nat
  seq   : Nat
  entry : Option Nat
deriving DecidableEq, Repr

def RecArgs.words (r : RecArgs) : List DWord :=
  [BitVec.ofNat 64 (r.pc % 2 ^ 57), BitVec.ofNat 64 r.addr, r.insn.extractLsb' 0 64, r.insn.extractLsb' 64 64,
   BitVec.ofNat 64 r.stamp, BitVec.ofNat 64 (r.lanes.toNat * 2 ^ 32 + r.info % 2 ^ 32),
   BitVec.ofNat 64 (recInfo r.kind r.cause r.dlv r.unit r.slot r.core r.seq)]

def FRec.word (r : FRec) (i : Nat) : Nat := (listGet 0 r.words i).toNat
def FRec.pc (r : FRec) : Nat := r.word 0
def FRec.insn (r : FRec) : BitVec 128 := BitVec.ofNat 128 (r.word 2 + r.word 3 * 2 ^ 64)
def FRec.unit (r : FRec) : Nat := bitsN (r.word 6) 45 43
def FRec.wslot (r : FRec) : Nat := bitsN (r.word 6) 42 38
def FRec.pending (r : FRec) : Bool := (r.pa.isNone || !r.acc.isEmpty) && !r.bad

def trapVregs (a : ASlot) : Nat := a.trapCfg.toNat % 64
def trapOn (a : ASlot) : Bool := a.trapVec.getLsbD 0 && decide (1 ≤ trapVregs a) && decide (trapVregs a ≤ 32)

/-- One operand of an instruction word as a handler lane reads it (R371): the value of the field `x`, if `named` says that the
field names a per-lane 32-bit operand. -/
def Wave.opField (w : Wave) (named : Bool) (x : BitVec 9) (l : Nat) : Word :=
  if !named then 0
  else if x.toNat < 256 then (if x.toNat < w.d then w.vreg x.toNat l else 0)
  else if x.toNat < 260 then w.latch (x.toNat - 256) l
  else 0

/-- Operand 511 names no register: where the decoder would look for a 32-bit vector source, the field it stands in is one. -/
def namesLane (f : Fields) : Bool :=
  (decodeEntry .core 0 f).elim false fun e => e.uses.any fun u => u.cls == .vec && u.f == 511 && u.n == 1 && u.src

/-- The values of opa, opb, opc and opd of a lane's instruction (R371). -/
def Wave.opWords (w : Wave) (insn : BitVec 128) (l : Nat) : List Word :=
  let f := Fields.ofWord insn
  let d : BitVec 9 := f.ext.extractLsb' 0 9
  [w.opField (namesLane { f with opa := 511 }) f.opa l, w.opField (namesLane { f with opb := 511 }) f.opb l,
   w.opField (namesLane { f with opc := 511 }) f.opc l,
   w.opField (f.len != 0 && namesLane { f with ext := f.ext ||| 511 }) d l]

def State.modRec (s : State) (id : Nat) (f : FRec → FRec) : State :=
  { s with recs := s.recs.map fun r => if r.id == id then f r else r }

/-- A record that nothing waits on any more leaves the list. -/
def FRec.live (r : FRec) : Bool := r.pending || (r.held && r.lanes &&& ~~~ r.done != 0) || r.entry.isSome || r.owe

def State.dropDone (s : State) : State := { s with recs := s.recs.filter FRec.live }

/-! ### Outgoing flows: the place of an access (R384 to R386) -/

/-- The route of an external address: 1024 for host memory (R384). -/
def extRoute (pa : Nat) : Nat := if bitN pa 50 then bitsN pa 49 40 else 1024

/-- A route entry that an access may use (R385). -/
def routeOk (e : DWord × DWord) : Bool :=
  let a := e.1.toNat
  let b := e.2.toNat
  bitN a 63 && bitsN a 60 48 == 0 && bitsN a 26 0 == 0 && bitsN b 63 16 == 0 && (bitN a 61 || bitsN b 15 0 != 0)

def State.route (s : State) (aslot r : Nat) : DWord × DWord := (s.slot? aslot).elim (0, 0) fun a => mget (0, 0) a.routes r

/-- The ports that a route entry lets an access use: 16 and 17 are the Ethernet ports (R385). -/
def routePorts (e : DWord × DWord) : List Nat := if bitN e.1.toNat 61 then [16, 17] else (List.range 16).filter fun k => bitN e.2.toNat k

/-- The port that an access leaves by: the lowest that its route allows and that is not down, another than `avoid` if there is one. A link that
retrains keeps its traffic for it (R391). Where every port is down, the lowest, until one is up again. -/
def State.pickPort (s : State) (e : DWord × DWord) (avoid : Nat) : Nat :=
  let cand := routePorts e
  let up := cand.filter fun k => (listGet Port.init s.ports k).st != .down
  match up.filter (· != avoid), up with
  | p :: _, _ => p
  | [], p :: _ => p
  | [], [] => cand.headD 0

/-- How issuing a remote access ended: sent, refused by the route entry (R385), or held back by a full flow (R386). -/
inductive Issue where
  | sent (flow seq : Nat)
  | bad
  | full (flow : Nat)
deriving DecidableEq, Repr

def Flow.none' : Flow := ⟨0, 0, 0, 0, 0, [], [], []⟩

def State.modFlow (s : State) (i : Nat) (f : Flow → Flow) : State :=
  { s with flows := (List.range s.flows.length).map fun k =>
      let x := listGet Flow.none' s.flows k
      if k == i then f x else x }

def State.flow (s : State) (i : Nat) : Flow := listGet Flow.none' s.flows i

def State.send (s : State) (m : OutMsg) : State := { s with outbox := m :: s.outbox }

/-- A message of the engines, which reaches no sector (R395). -/
def isMsg (r : RemReq) : Bool :=
  match r with
  | .engine _ => true
  | _ => false

/-- The last access before one that has the same sector and may not have been performed: it is unacknowledged, or has timed out (R387, R388). -/
def Flow.prevOf (f : Flow) (a : FlowAcc) : Option Nat :=
  if isMsg a.req then none
  else
    let unsure : List (Nat × Nat) := f.lost ++ f.open'.map fun (x : FlowAcc) => (x.seq, x.pa / 32)
    ((unsure.filter fun x => decide (x.1 < a.seq) && x.2 == a.pa / 32).map (·.1)).max?

/-- The device that an access goes to, and the access as it travels (R385): its delivery and target slot are those of its route entry. -/
def FlowAcc.dev (a : FlowAcc) : Nat := bitsN a.entry.1.toNat 47 36
def FlowAcc.packet (a : FlowAcc) (self flow : Nat) (prev : Option Nat) : RemPkt :=
  ⟨self, flow, bitN a.entry.1.toNat 62, bitsN a.entry.1.toNat 35 27, a.seq, a.pa % 2 ^ 40, a.rel, a.req, prev, a.port⟩

/-! ### Flits of a port (R389, R390): direction false is outgoing -/

def State.modPort (s : State) (k : Nat) (f : Port → Port) : State :=
  { s with ports := listPut Port.init 18 s.ports k (f (listGet Port.init s.ports k)) }

def onDir (dir : Bool) (f : Nat → Nat) (x : Nat × Nat) : Nat × Nat := if dir then (x.1, f x.2) else (f x.1, x.2)
def ofDir (dir : Bool) (x : Nat × Nat) : Nat := if dir then x.2 else x.1

/-- The nonce of the next flit of a direction: the direction, 31 zero bits, the counter (R389). The key and the tag of a flit stay in the
link's hardware. -/
def Port.nonce (p : Port) (dir : Bool) : BitVec 96 := BitVec.ofNat 96 (b2n dir * 2 ^ 95 + ofDir dir p.flits)

/-- New keys for a direction, whose counter restarts; the link retrains (R389). -/
def Port.rekey (p : Port) (dir : Bool) (us : Nat) : Port :=
  { p with st := .training us, keys := onDir dir (· + 1) p.keys, flits := onDir dir (fun _ => 0) p.flits, fails := (0, 0) }

/-- Flits pass in a direction of a port that is up: `good` ones end a series of tag failures, and new keys come before the counter
reaches 2^48 (R389, R390). -/
def State.flits (s : State) (port : Nat) (dir : Bool) (n : Nat) (good : Bool) : State :=
  let p := listGet Port.init s.ports port
  if p.st != .up || n == 0 || decide (18 ≤ port) then s
  else if 2 ^ 48 ≤ ofDir dir p.flits + n then s.modPort port fun p => p.rekey dir s.us
  else s.modPort port fun p => { p with
    flits := onDir dir (· + n) p.flits
    fails := onDir dir (fun x => if good then 0 else x + n) p.fails }

/-- A port sends: neither retraining nor down (R391). -/
def State.portUp (s : State) (k : Nat) : Bool := (listGet Port.init s.ports k).st == .up

/-- An access leaves for a peer as a flit of its port, unless its link holds it; host memory is reached without a packet. -/
def State.transmit (s : State) (flow : Nat) (a : FlowAcc) : State :=
  if extRoute a.pa == 1024 || !a.sent then s
  else (s.send (.access a.dev (a.packet (s.devNo % 4096) flow ((s.flow flow).prevOf a)))).flits a.port false 1 true

def State.findFlow (s : State) (core unit aslot route : Nat) : Option Nat :=
  (List.range s.flows.length).find? fun k =>
    let f := s.flow k
    f.core == core && f.unit == unit && f.aslot == aslot && f.route == route

/-- The flow of a unit through a route of a slot, opened with its first access (R386). -/
def State.flowOf (s : State) (core unit aslot route : Nat) : State × Nat :=
  match s.findFlow core unit aslot route with
  | some i => (s, i)
  | none => ({ s with flows := s.flows ++ [⟨core, unit, aslot, route, 0, [], [], []⟩] }, s.flows.length)

/-- An access takes the next number of a flow and leaves through a route entry; a link that retrains, or a route all of whose ports are down,
holds it (R391). -/
def State.enterFlow (s : State) (i : Nat) (e : DWord × DWord) (a : FlowAcc) : State :=
  let host := extRoute a.pa == 1024
  let port := if host then 0 else s.pickPort e 99
  let a : FlowAcc := { a with seq := (s.flow i).next, first := s.us, last := s.us, port := port, entry := e, sent := host || s.portUp port }
  (s.modFlow i fun f => { f with next := f.next + 1, open' := f.open' ++ [a] }).transmit i a

/-- Put an access on its flow (R386). -/
def State.issue (s : State) (core unit aslot : Nat) (a : FlowAcc) : State × Issue :=
  let r := extRoute a.pa
  let e := s.route aslot r
  if r != 1024 && !routeOk e then (s, .bad)
  else
    let (s, i) := s.flowOf core unit (if r == 1024 then 0 else aslot) r
    if (s.flow i).open'.length ≥ 1024 then (s, .full i)
    else (s.enterFlow i e a, .sent i (s.flow i).next)

/-- The answer to an access, once there is one; none inside where it timed out (R388). -/
def State.answer (s : State) (flow seq : Nat) : Option (Option RemAns) :=
  ((s.flow flow).answers.find? fun x => x.1 == seq).map (·.2)

/-- The words of a reply as one number, the first lowest (R4). -/
def joinDWords : List DWord → Nat
  | [] => 0
  | x :: xs => x.toNat + 2 ^ 64 * joinDWords xs

/-- An access that is no event of a release. -/
def noEvent : Nat × Nat := (0, 0)

/-- An access before it is put on its flow, which gives it its number, times and port; `ev` tells whose events, and how many, count with it
as a release. -/
def FlowAcc.new (kind : RemKind) (uid copy lane : Nat) (lanes : Mask) (va pa : Nat) (req : RemReq) (rel keep : Bool) (ev : Nat × Nat) :
    FlowAcc :=
  ⟨0, kind, uid, copy, lane, lanes, va, pa, req, rel, keep, 0, 0, 0, (0, 0), ev, false⟩

/-- An access that no wave, lane or copy stands for: a record or table entry that the part itself writes or reads. -/
def FlowAcc.own (kind : RemKind) (pa : Nat) (req : RemReq) (rel keep : Bool) : FlowAcc := .new kind 0 0 0 0 pa pa req rel keep noEvent

/-- Forget the answers that an instruction has used. -/
def State.forget (s : State) (l : List (Nat × Nat × Nat × Nat)) : State :=
  l.foldl (fun s x => s.modFlow x.2.1 fun f => { f with answers := f.answers.filter fun y => y.1 != x.2.2.1 }) s

/-! ### Vectoring (R369, R370) -/

/-- The record is one that a handler wave may serve. -/
def FRec.vectored (r : FRec) (a : ASlot) : Bool :=
  r.held && r.unit == 0 && decide (r.kind < 0x40) && trapOn a && !(r.kind == 0x0A && a.dbgCtl.getLsbD 0)

/-- Read the table entry that vectors a record, a relaxed load (R369): 0 where the read faults; none while it waits for a page or for
another device. -/
def State.vecEntry (s : State) (r : FRec) (a : ASlot) : State × Option Nat :=
  if !r.vectored a then (s, some 0)
  else
    match r.vec with
    | some (f, q) =>
      match s.answer f q with
      | none => (s, none)
      | some (some (.done d)) => (s, some (joinDWords d))
      | some _ => (s, some 0)
    | none =>
      match s.translate r.core r.aslot (bitsN a.trapVec.toNat 56 9 * 512 + 8 * r.kind) .load with
      | (s, .ok x) =>
        if isExt x.pa then
          match s.issue r.core 0 r.aslot (.own .load x.pa (.load 8) false true) with
          | (s, .sent f q) => (s.modRec r.id fun r => { r with vec := some (f, q) }, none)
          | (s, .full _) => (s, none)
          | (s, .bad) => (s, some 0)
        else if s.poisoned x.pa then (s, some 0)
        else
          let (s, e) := (s.homeToken x.pa).physLoad x.pa 8
          (s, some e)
      | (s, .park _) => (s, none)
      | (s, .fault _ _) => (s, some 0)

/-- Enter the lanes of a written record in the handler queue under a table entry (R369, R370). -/
def State.vector (s : State) (r : FRec) (va e : Nat) : State :=
  if e == 0 || e % 4 != 0 || decide (e ≥ 2 ^ 57) then s
  else
    let w := (s.findWave r.uid).elim Wave.empty (·.2)
    let ls := (lanesOf r.lanes).map fun l =>
      ((⟨r.id, va, r.core, r.uid, r.wslot, l, r.kind, w.opWords r.insn l, w.stamp⟩ : Origin), s.cyc)
    s.modCore r.core fun c => { c with
      handlers :=
        if c.handlers.any fun g => g.aslot == r.aslot && g.entry == e then
          c.handlers.map fun g => if g.aslot == r.aslot && g.entry == e then { g with lanes := g.lanes ++ ls } else g
        else c.handlers ++ [⟨r.aslot, e, ls⟩] }

/-! ### Writing a record (R361) -/

/-- The resolution word that a record starts with: the codes that triggers have given it before it was written (R373). -/
def FRec.res (r : FRec) : Nat := r.codes.foldl (fun x c => putBits x (2 * c.1 + 1) (2 * c.1) c.2) 0

/-- A lane takes its first code (R366). -/
def FRec.addCode (r : FRec) (lane code : Nat) : FRec :=
  if r.codes.any (fun y => y.1 == lane) then r else { r with codes := r.codes ++ [(lane, code)] }

/-- The 64 bytes of a record. -/
def FRec.bytes (r : FRec) : List Byte := r.words.flatMap (fun w => toBytes 8 w.toNat) ++ toBytes 8 r.res

/-- A transfer processor whose fault has its record stops (R334, R361). -/
def State.xpRecorded (s : State) (r : FRec) : State :=
  if r.unit == 2 || r.unit == 3 then
    s.modXp r.core (r.unit - 2) fun p => if p.st == .parked (.record r.id) then { p with st := .stopped } else p
  else s

/-- A record whose writing faults is reported on the device event ring, and its lanes stay held (R361). -/
def State.badRec (s : State) (r : FRec) : State :=
  ((s.modRec r.id fun r => { r with bad := true, pa := none, acc := [] }).xpRecorded r).devEvent 1 r.core r.aslot [r.word 0, r.word 1, r.word 6]

/-- A record lies in its ring, at a physical and a virtual address: the head is raised, a transfer processor that waited for it stops, and its
lanes are vectored by a table entry (R361, R369). -/
def State.recWritten (s : State) (r : FRec) (pa va e : Nat) : State :=
  let s := (s.modSlot r.aslot fun a => { a with fltHead := (a.fltHead + 1) % 2 ^ 32 }).xpRecorded r
  (s.modRec r.id fun r => { r with pa := some pa, vec := none, acc := [] }).vector { r with pa := some pa } va e

/-- The two stores of a record to a ring in the external window: issued once, and over with their answers (R361, R388). -/
def State.recStores (s : State) (r : FRec) (pa va : Nat) : State :=
  let half (s : State) (k : Nat) : State × Issue := s.issue r.core 0 r.aslot
    (.own .store (pa + 32 * k) (.sector 0xFFFFFFFF ((r.bytes.drop (32 * k)).take 32)) true true)
  match half s 0 with
  | (s, .bad) => s.badRec r
  | (s, .full _) => s
  | (s1, .sent f q) => match half s1 1 with
    | (s2, .sent g p) => s2.modRec r.id fun r => { r with pa := some pa, acc := [(f, q, va), (g, p, va)] }
    | _ => s

/-- What the stores of a record have come to: nothing yet, all performed, or one that was not. -/
def State.recAcked (s : State) (r : FRec) : Option Bool :=
  let as := r.acc.map fun x => s.answer x.1 x.2.1
  if as.any Option.isNone then none
  else some (as.all fun a => match a with
    | some (some (.done _)) => true
    | _ => false)

/-- Write one record at the ring's head (R361). A page that moves, or a full flow to a ring in the external window, holds the write back; there
the head is raised once the stores are performed, and a record one of whose stores is not performed counts as one whose writing faults
(R100, R386, R388; DEDUCED, log entry 52). -/
def State.writeRec (s : State) (r : FRec) (a : ASlot) : State :=
  let va := (fltBaseAddr a + 64 * (a.fltHead % fltCap a)) % 2 ^ 57
  match s.vecEntry r a, r.acc with
  | (s, none), _ => s
  | (s, some e), x :: _ =>
    match s.recAcked r with
    | none => s
    | some ok =>
      let s := s.forget (r.acc.map fun y => (0, y.1, y.2.1, 0))
      if ok then s.recWritten r (r.pa.getD 0) x.2.2 e else s.badRec r
  | (s, some e), [] =>
    match s.translate r.core r.aslot va .store with
    | (s, .ok x) =>
      if isExt x.pa then s.recStores r x.pa va
      else if s.sealedLine x.pa then s.badRec r
      else
        let s := ((s.tokHome x.pa).physStore x.pa (r.bytes.take 32)).physStore (x.pa + 32) (r.bytes.drop 32)
        s.recWritten r x.pa va e
    | (s, .park _) => s
    | (s, .fault _ _) => s.badRec r

/-- Write the oldest pending record of a slot, if the ring has room (R361). -/
def State.writeOne (s : State) (aslot : Nat) : State :=
  match s.slot? aslot, s.recs.find? fun r => r.aslot == aslot && r.pending with
  | some a, some r => if fltFull a then s else s.writeRec r a
  | _, _ => s

/-- Write every pending record of a slot that the ring has room for. -/
def State.writeAll (s : State) (aslot : Nat) : State :=
  iterate (fun s => s.writeOne aslot) (s.recs.filter fun r => r.aslot == aslot && r.pending).length s

/-- Raise one record: it is named, queued and, while the ring has room, written. -/
def State.raise (s : State) (r : RecArgs) : State × Nat :=
  let (id, s) := s.newId
  let f : FRec := ⟨id, r.aslot, r.words, none, [], false, none, false, r.core, r.uid, r.lanes, r.dlv == 0, r.entry, [], 0, r.kind⟩
  (({ s with recs := s.recs ++ [f] } : State).writeAll r.aslot, id)

/-- The unit number of the wave in execution (R362). -/
def Wave.unitNo (w : Wave) : Nat := if w.handler.isSome then 1 else 0

/-- The records that the faults of one execution come to (R363): a held one for each kind and cause, a logged one for each entry; each with
its lowest lane, its lanes, and the entry. -/
def State.recsOf (s : State) (hs : List Hold) : List (Nat × RecArgs) :=
  let w := s.w
  let one (lane kind cause addr info dlv seq : Nat) (lanes : Mask) (entry : Option Nat) : Nat × RecArgs :=
    (lane, ⟨w.aslot, s.cur, w.uid, s.curSlot, w.unitNo, s.focus.pc, addr, s.focus.insn, w.stamp, lanes, info, kind, cause, dlv, seq, entry⟩)
  let held := sortBy (fun a b => decide (a.lane < b.lane)) (hs.filter fun h => h.log.isNone)
  let keys := dedup (held.map fun h => (h.kind, h.cause))
  let ofKey (k : Nat × Nat) : Option (Nat × RecArgs) :=
    let g := held.filter fun h => h.kind == k.1 && h.cause == k.2
    g.head?.map fun h =>
      one h.lane k.1 k.2 h.addr (if k.1 == 0x17 || k.1 == 0x18 then g.foldl (fun n h => n ||| h.info) 0 else h.info) 0 0
        (maskOf (g.map (·.lane))) none
  let ofLog (h : Hold) : Option (Nat × RecArgs) :=
    h.log.map fun x => one h.lane h.kind h.cause h.addr 0 1 x.2.2 x.1 (some x.2.1)
  sortBy (fun a b => decide (a.1 < b.1)) (keys.filterMap ofKey ++ hs.filterMap ofLog)

/-- The entry of the side log that a record belongs to learns its name. -/
def State.nameEntry (s : State) (core entry rec : Nat) : State :=
  s.modCore core fun c => { c with log := c.log.map fun x => if x.id == entry then { x with fr := some rec } else x }

/-- Taking the exception: the faults that one execution of an instruction has raised become records, in ascending order of the lowest
lane (R363). The answer names the lanes of each held one. -/
def State.takeFaults (s : State) (hs : List Hold) : State × List (Mask × Nat) :=
  (s.recsOf hs).foldl (fun acc x =>
    let (s, id) := acc.1.raise x.2
    match x.2.entry with
    | some e => (s.nameEntry x.2.core e id, acc.2)
    | none => (s, acc.2 ++ [(x.2.lanes, id)])) (s, [])

/-- A fault record of a transfer processor (R363): no lanes; the answer names it. -/
def State.xpRecord (s : State) (i x : Nat) (kind cause pc addr : Nat) (insn : BitVec 128) (info dlv : Nat) : State × Nat :=
  match (s.xp i x).bind.aslot with
  | some a => s.raise ⟨a, i, 0, 0, 2 + x, pc, addr, insn, 0, 0, info, kind, cause, dlv, 0, none⟩
  | none => (s, 0)

/-- A device record (R363, R364). -/
def State.devRecord (s : State) (aslot kind cause addr info : Nat) : State :=
  (s.raise ⟨aslot, 0, 0, 0, 5, 0, addr, 0, 0, 0, info, kind, cause, 2, 0, none⟩).1

/-! ## Reconvergence barriers (R40, R215) -/

/-- A barrier after lanes have left its members (R215). -/
def RBar.drop (b : RBar) (lanes : Mask) : RBar :=
  match b.members with
  | none => b
  | some m =>
    let m' := m &&& ~~~ lanes
    if m' == 0 then ⟨none, 0⟩
    else if m' &&& ~~~ b.waiting == 0 then ⟨none, 0⟩
    else ⟨some m', b.waiting⟩

/-- Lanes leave every reconvergence barrier of their wave (R215, R366; DEDUCED, log entry 24). -/
def Wave.dropAll (w : Wave) (lanes : Mask) : Wave :=
  { w with rb := w.rb.map fun b => RBar.drop { b with waiting := b.waiting &&& ~~~ lanes } lanes }

/-- Lanes that wait at a reconvergence barrier. -/
def Wave.atBarrier (w : Wave) : Mask := w.rb.foldl (fun m b => m ||| b.waiting) 0

/-! ## Return from an exception (R366) -/

/-- The run of some lanes is over: their latches and their rows of the A staging partitions are lost (R7, R47, R285). -/
def Wave.endRun (w : Wave) (lanes : Mask) : Wave :=
  { w with
    t := mdrop (fun k => hasLane lanes (k % 32)) w.t
    stage := mdrop (fun k => hasLane lanes (k / 128)) w.stage }

/-- The lanes held under a record whose instruction carried the run-boundary flag. -/
def Wave.heldEnd (w : Wave) (fr : Nat) : Mask :=
  w.streams.foldl (fun m t => match t.st with | .held f _ true => if f == fr then m ||| t.lanes else m | _ => m) 0

/-- Resolution codes on lanes held under record `fr`: `again` executes the instruction anew, `next` goes on behind it,
`stop` ends. The kept run goes on with its latches, mask and count (R46); under `next` an instruction with the
run-boundary flag has ended the run. Resumed lanes form a sub-wave (R45), whose run has one latch-written mask (R164). -/
def Wave.release (w : Wave) (fr : Nat) (again next stop : Mask) : Wave :=
  let out := again ||| next ||| stop
  let rid := 2 * (w.runs + 1)
  let one (t : Stream) : List Stream :=
    match t.st with
    | .held f _ rbf =>
      if f != fr then [t]
      else
        let keep := t.lanes &&& ~~~ out
        (if keep == 0 then [] else [{ t with lanes := keep }]) ++
        (if again &&& t.lanes == 0 then [] else [{ t with lanes := again &&& t.lanes, bc := false, st := .run, one := false, rid := rid }]) ++
        (if next &&& t.lanes == 0 || rbf then []
         else [{ t with lanes := next &&& t.lanes, bc := false, st := .run, count := t.count + 1, one := false, rid := rid }])
    | _ => [t]
  let len := w.streams.foldl (fun n t => match t.st with | .held f len _ => if f == fr then len else n | _ => n) 0
  let sub := again ||| next
  { w.endRun ((next &&& w.heldEnd fr) ||| stop) with
    streams := w.streams.flatMap one
    runs := w.runs + 1
    subs := (w.subs.map fun m => m &&& ~~~ out).filter (· != 0) ++ (if sub == 0 then [] else [sub])
    pcs := (List.range 32).map fun l =>
      if hasLane next l then listGet 0 w.pcs l + BitVec.ofNat 57 len else listGet 0 w.pcs l
    ended := w.ended ||| stop
    bcLanes := w.bcLanes &&& ~~~ out }.dropAll stop

/-- The lanes of a record whose code is `c` and has not been acted on. -/
def FRec.coded (r : FRec) (c : Nat) : Mask :=
  maskOf ((r.codes.filter fun x => x.2 == c && !hasLane r.done x.1).map (·.1))

end Sys2Proof.Machine
end

