-- ==== Sys2Proof/Machine/Access.lean ====
section
/-! DEFINITION. One access of one lane to global memory: the outgoing flows (R384 to R388), the race detector (R130 to R133),
the side log (R101, R122), atomic sets (R345) and the commit buffer (R347), and over them a load, a store, a
contribution and an atomic. -/

namespace Sys2Proof.Machine
open Sys2Proof

/-! ## Outgoing flows -/

/-- The other party of an access lies outside the pod: the host, or a peer by Ethernet (R105). -/
def FlowAcc.sys (a : FlowAcc) : Bool := extRoute a.pa == 1024 || bitN a.entry.1.toNat 61

/-- A party outside the device lies in a scope (R105, R126): in the pod unless `sys`, in the system always. -/
def farIn (c : Scope) (sys : Bool) : Bool :=
  match c with
  | .sy => true
  | .pd => !sys
  | _ => false

/-- A store, atomic, contribution or packet of some lanes of a wave that has left in a flow and has no answer yet. -/
def FlowAcc.openOf (a : FlowAcc) (uid : Nat) (lanes : Mask) : Bool := a.uid == uid && a.kind != .load && a.lanes &&& lanes != 0

/-- Some lanes of a wave have such an access: a release of theirs waits for it (R108, R111; DEDUCED, log entry 60). -/
def State.openRemote (s : State) (uid : Nat) (lanes : Mask) : Bool := s.flows.any fun f => f.open'.any fun a => a.openOf uid lanes

/-! ## What one lane's access comes to -/

/-- The outcome for one lane: done with a value, a held fault, a park, retired into the side log, or a remote access whose
answer is awaited. -/
inductive LaneRes where
  | done (v : Nat)
  | hold (kind cause info : Nat)
  | park (c : ParkCond)
  | logged (entry : Nat)
  | wait (acc : Nat × Nat × Nat × Nat)
deriving DecidableEq, Repr

/-- What the remote access that the instruction in execution has made at an address for a lane has come to: its value; a held
physical-address fault after a refusal or a timeout (R388); or it has no reply yet. None where it has made none: an access that has left is
neither translated nor checked again. -/
def State.replied (s : State) (lane va : Nat) : Option LaneRes :=
  (s.focus.accs.find? fun x => x.1 == lane && x.2.2.2 == va).map fun x =>
    match s.answer x.2.1 x.2.2.1 with
    | some (some (.done d)) => .done (joinDWords d)
    | some _ => .hold 5 4 0
    | none => .wait x

/-- A remote access of a lane, whose reply is then awaited; `ev` as for `FlowAcc.new`. -/
def State.remote (s : State) (unit lane : Nat) (lanes : Mask) (va pa : Nat) (kind : RemKind) (req : RemReq) (rel : Bool) (ev : Nat × Nat) :
    State × LaneRes :=
  match s.issue s.cur unit s.curAslot (.new kind s.w.uid 0 lane lanes va pa req rel true ev) with
  | (s, .sent f q) => (s, .wait (lane, f, q, va))
  | (s, .full f) => (s, .park (.flowRoom f))
  | (s, .bad) => (s, .hold 5 4 0)

/-! ## The race detector -/

/-- The identifier of the wave in execution (R130). -/
def State.waveId (s : State) : Nat := 32 * s.cur + s.curSlot
def xpId (core x : Nat) : Nat := 2 ^ 15 + 32 * core + x

/-- `n` releases, fences with release or barrier arrives of a party (R131). -/
def State.bump (s : State) (id n : Nat) : State := { s with ival := mset 0 s.ival id ((mget 0 s.ival id + n) % 256) }

def idCore (id : Nat) : Nat := id % 2 ^ 15 / 32

/-- Scope `c` of party A, whose rectangle is that of its launch, contains a party on another core (R105). -/
def scopeHas (c : Nat) (a b : Nat) : Bool :=
  let ca := idCore a
  let cb := idCore b
  match c with
  | 0 => a == b
  | 1 => ca == cb
  | 2 => coreCluster ca == coreCluster cb
  | 3 => coreCluster ca == coreCluster cb
  | 4 => coreDie ca == coreDie cb
  | _ => true

/-- The largest aligned sub-rectangle of a launch that contains a core and lies within its cluster (R55, R105). Sides are
powers of two; offsets are multiples of the side. Answers origin and sides relative to the launch. -/
def srRect (b : Block) (core : Nat) : Nat × Nat × Nat × Nat :=
  let rx := coreX core - b.x0
  let ry := coreY core - b.y0
  let cand := [8, 4, 2, 1].flatMap fun h => [8, 4, 2, 1].map fun w => (rx / w * w, ry / h * h, w, h)
  let fits (r : Nat × Nat × Nat × Nat) : Bool :=
    decide (r.1 + r.2.2.1 ≤ b.w) && decide (r.2.1 + r.2.2.2 ≤ b.h) &&
    (b.x0 + r.1) / 8 == coreX core / 8 && (b.x0 + r.1 + r.2.2.1 - 1) / 8 == coreX core / 8 &&
    (b.y0 + r.2.1) / 8 == coreY core / 8 && (b.y0 + r.2.1 + r.2.2.2 - 1) / 8 == coreY core / 8
  let ok := cand.filter fits
  ok.foldl (fun best r => if best.2.2.1 * best.2.2.2 < r.2.2.1 * r.2.2.2 then r else best) (rx, ry, 1, 1)

def Rect.has (r : Rect) (core : Nat) : Bool :=
  decide (r.x ≤ coreX core) && decide (coreX core < r.x + r.w) && decide (r.y ≤ coreY core) && decide (coreY core < r.y + r.h)

/-- The launch of a party, for its scope .sr. -/
def State.partyBlock (s : State) (id : Nat) : Option Block :=
  if bitN id 15 then
    ((s.xp (idCore id) (id % 32)).bind.lid).elim none fun l => (aget s.launches l).map (·.blk)
  else
    match s.wave? (idCore id) (id % 32) with
    | some w => if w.handler.isSome then none else (aget s.launches w.lid).map (·.blk)
    | none => none

/-- The cores that scope .sr of a party means (R105). A task, which may run on a core that its block does not name, and a party without a
launch mean their own core (DEDUCED, log entry 62). -/
def State.partyRect (s : State) (id : Nat) : Rect :=
  let c := idCore id
  match s.partyBlock id with
  | some b =>
    if b.kind == 2 then ⟨coreX c, coreY c, 1, 1⟩
    else
      let r := srRect b c
      ⟨b.x0 + r.1, b.y0 + r.2.1, r.2.2.1, r.2.2.2⟩
  | none => ⟨coreX c, coreY c, 1, 1⟩

/-- The recorded write of a sector conflicts with an access of a party (R131). -/
def State.raceConflict (s : State) (me pa : Nat) : Bool :=
  let x := (mget 0 s.shadow (pa / 32)).toNat
  let writer := bitsN x 15 0
  let inside := if bitsN x 30 28 == 2 then (aget s.shadowSr (pa / 32)).elim false fun r => r.has (idCore me)
    else scopeHas (bitsN x 30 28) writer me
  bitN x 31 && writer != me && (mget 0 s.ival writer == bitsN x 27 20 || !inside)

/-- A conflict in trap mode: the access is not performed (R133). -/
def State.raceTrap (s : State) (race : Bool) (aslot me pa : Nat) : Option Word :=
  if race && !isExt pa && (s.slot? aslot).elim false (fun a => a.raceCtl.getLsbD 0) && s.raceConflict me pa then
    some (mget 0 s.shadow (pa / 32))
  else none

def raceCap (a : ASlot) : Nat := 2 ^ (bitsN a.raceCtl.toNat 11 8 + 7)

/-- The address of the next record of the race log. -/
def raceNext (a : ASlot) : Nat := (bitsN a.raceCtl.toNat 56 12 * 4096 + 32 * a.raceHead) % 2 ^ 57

/-- Append the record of one conflicting lane (R133), or what holds its store back; one whose store faults is lost, and the head moves on
all the same (DEDUCED, log entry 16). -/
def State.raceLog (s : State) (aslot core : Nat) (bs : List Byte) : State × Option ParkCond :=
  match s.slot? aslot with
  | none => (s, none)
  | some a =>
    if a.raceHead == raceCap a then (s.modSlot aslot fun a => { a with raceDrop := min (a.raceDrop + 1) 0xFFFFFFFF }, none)
    else
      let on (s : State) : State := s.modSlot aslot fun a => { a with raceHead := (a.raceHead + 1) % 2 ^ 32 }
      match s.translate core aslot (raceNext a) .store with
      | (s, .park c) => (s, some c)
      | (s, .fault _ _) => (on s, none)
      | (s, .ok t) =>
        if isExt t.pa then
          match s.issue core 0 aslot (.own .store t.pa (.sector 0xFFFFFFFF bs) false false) with
          | (s, .full f) => (s, some (.flowRoom f))
          | (s, _) => (on s, none)
        else (on (if s.sealedLine t.pa then s else (s.tokHome t.pa).physStore t.pa bs), none)

/-- Record an access that goes on in the shadow word, after one log record for each conflicting lane (R130 to R133). What trap mode can hold
on no lane, a replay or a sector of a drain, goes on without a record (DEDUCED, log entry 16). -/
def State.raceNote (s : State) (race : Bool) (aslot me pc : Nat) (lanes : Mask) (va pa : Nat) (write atomic : Bool) (scope : Scope) :
    State × Option ParkCond :=
  if !race || isExt pa then (s, none)
  else
    let x := (mget 0 s.shadow (pa / 32)).toNat
    let w1 := b2n atomic * 2 ^ 44 + b2n write * 2 ^ 43 + bitsN x 30 28 * 2 ^ 40 + bitsN x 27 20 * 2 ^ 32 + me * 2 ^ 16 + bitsN x 15 0
    let rec' (l : Nat) : List Byte := toBytes 8 (va / 32 * 32) ++ toBytes 8 w1 ++ toBytes 8 pc ++ toBytes 8 (l * 2 ^ 32)
    let (s', held) := if !s.raceConflict me pa || (s.raceTrap race aslot me pa).isSome then (s, none)
      else (lanesOf lanes).foldl (fun (acc : State × Option ParkCond) l =>
        match acc.2 with
        | some _ => acc
        | none => acc.1.raceLog aslot (idCore me) (rec' l)) (s, none)
    match held with
    | some c => (s, some c)
    | none =>
      if !write then (s', none)
      else
        -- the interval of a release is the one before it counts (DESIGN CHOICE, log entry 64)
        let nw := BitVec.ofNat 32 (2 ^ 31 + scope.enc.toNat * 2 ^ 28 + mget 0 s'.ival me * 2 ^ 20 + me)
        ({ s' with shadow := mset 0 s'.shadow (pa / 32) nw, shadowSr := aput s'.shadowSr (pa / 32) (s'.partyRect me) }, none)

/-- Check an access of some lanes and record it: what it comes to where it is not performed now. -/
def State.raceCheck (s : State) (race : Bool) (aslot me pc : Nat) (lanes : Mask) (va pa : Nat) (write atomic : Bool) (scope : Scope) :
    State × Option LaneRes :=
  match s.raceTrap race aslot me pa with
  | some sh => (s, some (.hold 0x26 0 sh.toNat))
  | none =>
    let (s, p) := s.raceNote race aslot me pc lanes va pa write atomic scope
    (s, p.map .park)

/-- Check accesses to several sectors as one: virtual and physical address of each, and whether it is an atomic. One that trap mode stops, or
that has to wait, changes no shadow word and leaves no record (R133). -/
def State.raceEach (s : State) (race : Bool) (aslot me pc : Nat) (lanes : Mask) (pts : List (Nat × Nat × Bool)) (write : Bool)
    (scope : Scope) : State × Option LaneRes :=
  if !race then (s, none)
  else
    match pts.findSome? fun x => s.raceTrap true aslot me x.2.1 with
    | some sh => (s, some (.hold 0x26 0 sh.toNat))
    | none =>
      let out := pts.foldl (fun (acc : State × Option ParkCond) x =>
        match acc.2 with
        | some _ => acc
        | none => acc.1.raceNote true aslot me pc lanes x.1 x.2.1 write x.2.2 scope) (s, none)
      match out with
      | (_, some p) => (s, some (.park p))
      | (s, none) => (s, none)

/-! ## The side log -/

/-- The entries of any of some lanes of a wave. -/
def Core.lanesLog (c : Core) (uid : Nat) (lanes : Mask) : List LogEnt :=
  c.log.filter fun e => e.uid == uid && e.lanes &&& lanes != 0

/-- One of the lanes has a logged entry for the sector (R122). -/
def State.hasEntry (s : State) (lanes : Mask) (va : Nat) : Bool :=
  ((s.core s.cur).lanesLog s.w.uid lanes).any fun e => e.va / 32 == va / 32
def State.hasAnyEntry (s : State) (lanes : Mask) : Bool := !((s.core s.cur).lanesLog s.w.uid lanes).isEmpty

/-- The store sequence number of a lane, which then counts on (R122; DEDUCED, log entry 52). -/
def Wave.nextSeq (w : Wave) (lanes : Mask) : Wave :=
  { w with seqs := (lanesOf lanes).foldl (fun m l => mset 0 m l (mget 0 m l + 1)) w.seqs }

/-- Enter an access of a wave in its core's side log (R101): the entry's name and sequence number; none where the log is full and the wave
parks. `kind` is 0 for a diverted access. -/
def State.enterLog (s : State) (core slot : Nat) (w : Wave) (pc : Nat) (insn : BitVec 128) (lane : Nat) (lanes : Mask)
    (va : Nat) (act : LogAct) (rel : Bool) (scope : Scope) (writes : Bool) (kind : Nat) : State × Option (Nat × Nat) :=
  if (s.core core).log.length ≥ 64 then (s, none)
  else
    let seq := w.seq lane
    let (id, s) := s.newId
    let e : LogEnt :=
      ⟨id, w.uid, lane, lanes, seq, w.aslot, va, act, rel, scope, none, kind, pc, insn, writes, w.race, w.stamp, slot, none⟩
    ((s.modCore core fun c => { c with log := c.log ++ [e] }).modUid w.uid fun w => w.nextSeq lanes, some (id, seq))

/-- Retire an access of a wave that executes no instruction into the log: faulted with its record (dlv 1) at once, or diverted. -/
def State.logFor (s : State) (core slot : Nat) (w : Wave) (pc : Nat) (insn : BitVec 128) (lane : Nat) (lanes : Mask)
    (va : Nat) (act : LogAct) (rel : Bool) (scope : Scope) (writes : Bool) (kind cause : Nat) : State × LaneRes :=
  match s.enterLog core slot w pc insn lane lanes va act rel scope writes kind with
  | (s, none) => (s, .park .logRoom)
  | (s, some (id, seq)) =>
    if kind == 0 then (s, .logged id)
    else
      let (s, r) := s.raise ⟨w.aslot, core, w.uid, slot, w.unitNo, pc, va, insn, w.stamp, lanes, 0, kind, cause, 1, seq,
        some id⟩
      (s.nameEntry core id r, .logged id)

/-- Retire an access of the instruction in execution into the log; its record is written with the instruction's others (R363). -/
def State.logAccess (s : State) (lane : Nat) (lanes : Mask) (va : Nat) (act : LogAct) (rel : Bool) (scope : Scope)
    (writes : Bool) (kind cause : Nat) : State × LaneRes :=
  match s.enterLog s.cur s.curSlot s.w s.focus.pc s.focus.insn lane lanes va act rel scope writes kind with
  | (s, none) => (s, .park .logRoom)
  | (s, some (id, seq)) =>
    if kind == 0 then (s, .logged id)
    else (s.modF fun f => { f with holds := f.holds ++ [⟨lane, kind, cause, va, 0, some (lanes, id, seq)⟩] }, .logged id)

/-- A record beyond the part is sent its resolution word, with the codes that triggers have given it (R373). -/
def State.payRec (s : State) (r : FRec) : State :=
  match r.pa with
  | none => s
  | some pa =>
    if !r.owe then s
    else
      match s.issue r.core 0 r.aslot (.own .store (pa + 0x38) (.store 8 (BitVec.ofNat 64 r.res)) true false) with
      | (s, .full _) => s
      | (s, _) => s.modRec r.id fun r => { r with owe := false }

/-- Give a lane of a fault record its code, if it has none: in the record's resolution word once that is written (R366), in bonded DRAM, in host
memory or at a peer; on a sealed line as on any other (DESIGN CHOICE, log entry 76). -/
def State.giveCode (s : State) (id lane code : Nat) : State :=
  match s.recs.find? fun r => r.id == id with
  | none => s
  | some r =>
    let put (x : Nat) : List Byte := toBytes 8 (putBits x (2 * lane + 1) (2 * lane) code)
    let keep : State := s.modRec id fun r => r.addCode lane code
    match r.pa with
    | some pa =>
      if !isExt pa then
        let (s, x) := s.physLoad (pa + 0x38) 8
        (s.tokHome pa).physStore (pa + 0x38) (put x)
      else if pa / 2 ^ 50 == 2 && r.acc.isEmpty then
        let a := pa % 2 ^ 50 + 0x38
        s.setHost (wrBytes s.hostMem a (put (rdNum s.hostMem a 8))) a 8
      else
        let s := s.modRec id fun r => { r.addCode lane code with owe := true }
        (s.recs.find? fun r => r.id == id).elim s s.payRec
    | none => keep

/-- The faulted entries of a slot that a trigger acts on get code 1 (R373): `p` tells by the kind of the fault and the physical
address of the access. -/
def State.trigger (s : State) (aslot : Nat) (p : Nat → Nat → Nat → Bool) : State :=
  let mine := s.cores.flatMap fun c => c.2.log.filter fun e => e.aslot == aslot
  let s := mine.foldl (fun s e => s.combineTables aslot e.va) s
  let es := mine.filter fun e => (match s.walk aslot e.va with
      | .leaf l => p e.why e.va (l.pa e.va)
      | .fault _ => false)
  es.foldl (fun s e => match e.fr with
    | some id => s.giveCode id e.lane 1
    | none => s) s

/-! ## Atomic sets (R344 to R346) -/

def State.modSet (s : State) (aslot id : Nat) (f : ASet → ASet) : State :=
  s.modSlot aslot fun a => { a with sets := a.sets.map fun x => if x.id == id then f x else x }

def ASlot.setOf (a : ASlot) (va : Nat) : Option ASet := a.sets.find? fun x => decide (x.base ≤ va) && decide (va < x.base + x.len)

/-- A released set goes to its oldest parked toucher (R345). -/
def ASet.pass (x : ASet) : ASet :=
  match sortBy (fun a b => decide (a.1 < b.1)) x.wait with
  | [] => { x with holder := none }
  | y :: ys => { x with holder := some y.2, wait := ys }

/-- Release every set that a task holds, and take it off every waiting list. -/
def State.releaseSets (s : State) (aslot uid : Nat) : State :=
  let one (x : ASet) : ASet :=
    let x := { x with wait := x.wait.filter fun y => y.2 != uid }
    if x.holder == some uid then x.pass else x
  let s := s.modSlot aslot fun a => { a with sets := a.sets.map one }
  -- a set that passed to a waiter is held by it
  match s.slot? aslot with
  | none => s
  | some a =>
    s.mapWaves fun _ w => if w.aslot == aslot && w.commit then
      { w with sets := (a.sets.filter fun x => x.holder == some w.uid).map (·.id) } else w

/-- The sets that a task holds or waits for: none of them may be a 65th (R345). -/
def State.setsOf (s : State) (aslot uid : Nat) : Nat :=
  ((s.slot? aslot).elim [] fun a => a.sets.filter fun x => x.holder == some uid || x.wait.any fun y => y.2 == uid).length

/-! ## The commit buffer (R347) -/

/-- The task's own buffered bytes over those of memory. -/
def Wave.overlay (w : Wave) (va n x : Nat) : Nat :=
  match w.cbuf.find? fun b => b.va == va / 32 with
  | none => x
  | some b => ofBytes ((List.range n).map fun i =>
      let k := va % 32 + i
      if b.mask.getLsbD k then mget 0 b.bytes k else BitVec.ofNat 8 (x / 256 ^ i))

/-- The sectors that fill the 8 KiB on the chip, and the bytes of those beyond, which lie in the image, oldest first (R347; DESIGN CHOICE, log entry
20). -/
def onChip : Nat := 256
def Wave.spilled (w : Wave) : List (List Byte) :=
  (w.cbuf.reverse.drop onChip).map fun b => (List.range 32).map fun i => mget 0 b.bytes i

def byteMask (off n : Nat) : BitVec 32 := BitVec.ofNat 32 ((2 ^ n - 1) * 2 ^ off)

def CbSector.put (b : CbSector) (off : Nat) (bs : List Byte) : CbSector :=
  { b with
    mask := b.mask ||| byteMask off bs.length
    bytes := (List.range bs.length).foldl (fun m i => mset 0 m (off + i) (listGet 0 bs i)) b.bytes }

/-- Enter a store in the commit buffer; none where a 1,281st sector would be needed. -/
def Wave.buffer (w : Wave) (va pa : Nat) (bs : List Byte) (rel : Bool) (scope : Scope) : Option Wave :=
  let known := w.cbuf.any fun b => b.va == va / 32
  if !known && decide (w.cbuf.length ≥ 1280) then none
  else
    let w := if known = true then w else { w with cbuf := ⟨va / 32, pa / 32, 0, [], none⟩ :: w.cbuf }
    let one (b : CbSector) : CbSector :=
      if b.va == va / 32 then
        let b := b.put (va % 32) bs
        if rel then { b with rel := some (w.relPos, scope) } else b
      else b
    let w := { w with cbuf := w.cbuf.map one }
    some (if rel then { w with relPos := w.relPos + 1 } else w)

end Sys2Proof.Machine
end

