-- ==== Sys2Proof/Machine/Waves.lean ====
section
/-! DEFINITION. How a wave leaves its core: the drain of a commit buffer (R347), the end of a wave and what becomes of its
allocation and launch (R333, R339, R409), a wound (R346). -/

namespace Sys2Proof.Machine
open Sys2Proof

/-! ## The drain (R347) -/

/-- Sectors in drain order: unmarked by virtual address, then released ones by position. -/
def drainOrder (l : List CbSector) : List CbSector :=
  sortBy (fun a b => decide (a.va < b.va)) (l.filter fun b => b.rel.isNone) ++
  sortBy (fun a b => decide ((a.rel.elim 0 (·.1)) < (b.rel.elim 0 (·.1)))) (l.filter fun b => b.rel.isSome)

/-- The bytes of a buffered sector in order. -/
def CbSector.all (b : CbSector) : List Byte := (List.range 32).map fun i => mget 0 b.bytes i

/-- A scope, or .dv where that is wider (R347). -/
def Scope.orDv (c : Scope) : Scope := if c.enc.toNat < Scope.dv.enc.toNat then .dv else c

/-- Perform or log one sector; what the drain waits for where it must wait. A released one is performed after all that stand before it
(R122, R128). -/
def State.drainOne (s : State) (core slot uid pc : Nat) (insn : BitVec 128) (b : CbSector) : State × Option ParkCond :=
  match s.findWave uid with
  | none => (s, none)
  | some (_, w) =>
    let va := b.va * 32
    let pa := b.pa * 32
    let rel := b.rel.isSome
    let scope := b.rel.elim Scope.dv fun x => Scope.orDv x.2
    let out (s : State) : State := s.modUid uid fun w => { w with cbuf := w.cbuf.filter fun x => x.va != b.va }
    let log (kind cause : Nat) : State × Option ParkCond :=
      match s.logFor core slot w pc insn 0 1 va (.sector b.mask b.bytes) rel scope false kind cause with
      | (s, .park c) => (s, some c)
      | (s, _) => (out s, none)
    if rel && !((s.core core).lanesLog uid 1).isEmpty then log 0 0
    else if rel && s.openRemote uid fullMask then (s, some .flushed)
    else if isExt pa then
      match s.issue core 0 w.aslot (.new .store uid 0 0 1 va pa (.sector b.mask b.all) rel false (32 * core + slot, b2n rel)) with
      | (s, .sent _ _) => (out s, none)
      | (s, .full f) => (s, some (.flowRoom f))
      | (_, .bad) => log 5 4
    else
      let s := s.combineTables w.aslot va
      match s.pageOff w.aslot va with
      | some 1 => (s, some (.page w.aslot va 1))
      | some 2 => (s, some (.page w.aslot va 2))
      | some 3 => log 5 5
      | _ =>
        if s.sealedLine pa then log 0x10 0
        else
          match s.raceNote w.race w.aslot (32 * core + slot) pc 1 va pa true false scope with
          | (s, some c) => (s, some c)
          | (s, none) => ((out ((s.tokHome pa).physSector pa b.mask b.bytes)).bump (32 * core + slot) (b2n rel), none)

/-- Drain a task's commit buffer; what it waits for when it cannot go on. -/
def State.drain (s : State) (core slot uid pc : Nat) (insn : BitVec 128) : State × Option ParkCond :=
  match s.findWave uid with
  | none => (s, none)
  | some (_, w) =>
    (drainOrder w.cbuf).foldl (fun acc b =>
      match acc.2 with
      | some _ => acc
      | none => acc.1.drainOne core slot uid pc insn b) (s, none)

/-- A sector of a wave's log that has still to be performed. -/
def State.loggedSector (s : State) (core uid : Nat) : Option Nat := ((s.core core).lanesLog uid fullMask).head?.map fun e => e.va / 32

/-- What a wave past its commit point does before it creates successors or ends (R109, R128, R339): its remote accesses are resolved, a
task's buffer is drained, and then its sets are released. A task that holds sets waits for the sectors of the drain that have been logged, since
every store of the buffer is performed before the release (R128, R129). -/
def State.depart (s : State) (core slot : Nat) (w : Wave) (pc : Nat) (insn : BitVec 128) : State × Option ParkCond :=
  match (if w.commit then s.drain core slot w.uid pc insn else (s, none)) with
  | (s, some c) => (s, some c)
  | (s, none) =>
    if s.openRemote w.uid fullMask then (s, some .flushed)
    else if !w.commit then (s, none)
    else
      match (if w.sets.isEmpty then none else s.loggedSector core w.uid) with
      | some sec => (s, some (.replayed fullMask sec))
      | none => (s.releaseSets w.aslot w.uid, none)

/-! ## Allocations (R57, R80, R333) -/

def Alloc.has (a : Alloc) (line : Nat) : Bool := decide (a.base ≤ line) && decide (line < a.base + a.lines)

def Core.alloc (c : Core) (lid : Nat) : Option Alloc := c.allocs.find? fun a => a.lid == lid

/-- A copy in flight touches lines of an allocation of a core. -/
def Copy.touches (c : Copy) (core : Nat) (a : Alloc) : Bool :=
  (c.lines ++ c.srcLines).any fun x => x.1 == core && a.has x.2

def XP.walks (p : XP) (lid : Nat) : Bool :=
  (p.walk.elim false fun w => w.bind.lid == some lid) || p.heads.any fun h => h.bind.lid == some lid

/-- A transfer, a queue command or a chain of the launch is not complete (R333) (DESIGN CHOICE, log entry 21). -/
def State.allocBusy (s : State) (core : Nat) (a : Alloc) : Bool :=
  (s.cores.any fun c => c.2.copies.any fun k => k.touches core a) || (s.core core).xp0.walks a.lid || (s.core core).xp1.walks a.lid

/-- Release the allocations of a core whose launch has left it and that no transfer addresses (R333). -/
def State.freeAllocs (s : State) (core : Nat) : State :=
  let gone := (s.core core).allocs.filter fun a => decide (a.waves ≤ a.ended.length) && !s.allocBusy core a
  s.modCore core fun c => { c with
    allocs := c.allocs.filter fun a => !(gone.any fun g => g.lid == a.lid)
    absent := c.absent.filter fun l => !(gone.any fun g => g.has l) }

/-! ## Barriers of a launch (R340, R341) -/

/-- Every wave of a launch on a core has ended or satisfies `p` (R340). A wave that is pre-empted or has not been admitted does not
count; a core that the launch's waves have left counts. -/
def State.allArrived (s : State) (core lid : Nat) (p : Wave → Bool) : Bool :=
  match (s.core core).alloc lid with
  | none => (aget s.launches lid).elim false fun l => l.gone.contains core
  | some a =>
    (List.range a.waves).all fun i =>
      a.ended.contains i ||
      (s.core core).slots.any fun x => x.2.handler.isNone && x.2.lid == lid && x.2.wix == i && p x.2

/-- The members of the sub-rectangle that a descriptor names (R298), as core indices ascending within it. -/
def descCores (b : Block) (desc : Nat) : List Nat :=
  let h := 2 ^ bitsN desc 15 13
  let w := 2 ^ bitsN desc 12 10
  let oy := bitsN desc 9 5
  let ox := bitsN desc 4 0
  (List.range h).flatMap fun r => (List.range w).map fun c => 32 * (b.y0 + oy + r) + (b.x0 + ox + c)

/-- R55 and R298: no reserved bit, aligned, inside the rectangle, and containing the core. -/
def descOk (b : Block) (desc core : Nat) : Bool :=
  let h := 2 ^ bitsN desc 15 13
  let w := 2 ^ bitsN desc 12 10
  let oy := bitsN desc 9 5
  let ox := bitsN desc 4 0
  bitsN desc 31 16 == 0 && decide (bitsN desc 15 13 ≤ 5) && decide (bitsN desc 12 10 ≤ 5) && oy % h == 0 && ox % w == 0 &&
  decide (oy + h ≤ b.h) && decide (ox + w ≤ b.w) && (descCores b desc).contains core

/-- The k-th `wbar` of a launch on a core is complete. -/
def State.wbarDone (s : State) (core lid k : Nat) : Bool := s.allArrived core lid fun x => decide (k ≤ x.wbars)

/-- Every wave on the cores of a descriptor has executed its k-th `sbar`. -/
def State.sbarAll (s : State) (l : Launch) (lid k desc : Nat) : Bool :=
  (descCores l.blk desc).all fun c => s.allArrived c lid fun x => decide (k ≤ x.sbars.length)

/-- The waves of a launch that have executed their k-th `sbar`: core and descriptor of each. -/
def State.sbarDescs (s : State) (lid k : Nat) : List (Nat × Nat) :=
  (s.resident.filter fun x => x.2.2.handler.isNone && x.2.2.lid == lid && decide (k ≤ x.2.2.sbars.length)).map fun x =>
    (x.1, listGet 0 x.2.2.sbars (k - 1))

/-- How the k-th `sbar` of a wave on a core has completed: not yet, well, or in a fault of every wave that some wave's descriptor covers,
because two of them name different descriptors (R341). -/
def State.sbarDone (s : State) (lid k core desc : Nat) : Option Bool :=
  match aget s.launches lid with
  | none => none
  | some l =>
    let ds := s.sbarDescs lid k
    let differs (d : Nat) : Bool :=
      let cs := descCores l.blk d
      cs.contains core && s.sbarAll l lid k d && ds.any fun x => cs.contains x.1 && x.2 != d
    if (dedup (ds.map (·.2))).any differs then some false
    else if s.sbarAll l lid k desc then some true else none

/-- Waits at barriers of a launch that are complete now are over. -/
def State.barScan (s : State) (lid : Nat) : State :=
  let one (core : Nat) (t : Stream) : Stream :=
    match t.st with
    | .park (.wbar k false) n r i => if s.wbarDone core lid k then { t with st := .park (.wbar k true) n r i } else t
    | .park (.sbar k d none) n r i => { t with st := .park (.sbar k d (s.sbarDone lid k core d)) n r i }
    | _ => t
  s.mapWaves fun core w =>
    if w.lid == lid && w.handler.isNone then { w with streams := w.streams.map (one core) } else w

/-! ## Counted barriers (R328, R329) -/

def Core.cbar (c : Core) (k : Nat) : CBar := listGet ⟨0, []⟩ c.cb k

/-- The waiter at a barrier has passed. -/
def State.cbPass (s : State) (core cb : Nat) : Waiter → State
  | .wave uid lanes =>
    let one (t : Stream) : Stream :=
      match t.st with
      | .park (.cbw b k _) n r i => if b == cb && t.lanes == lanes then { t with st := .park (.cbw b k true) n r i } else t
      | _ => t
    s.modUid uid fun w => { w with streams := w.streams.map one }
  | .xp x => s.modXp core x fun p =>
    match p.st with
    | .parked (.cbw b k _) => { p with st := .parked (.cbw b k true) }
    | _ => p

/-- The first waiter is examined, and each that becomes first. -/
def State.cbScan (core cb : Nat) : Nat → State → State
  | 0, s => s
  | n + 1, s =>
    let b := (s.core core).cbar cb
    match b.wait with
    | [] => s
    | (y, k) :: ys =>
      if k ≤ b.count then
        State.cbScan core cb n ((s.modCore core fun c => { c with cb := listPut ⟨0, []⟩ 16 c.cb cb ⟨b.count - k, ys⟩ }).cbPass core cb y)
      else s

/-- Change a barrier, then examine its waiters. -/
def State.modCb (s : State) (core cb : Nat) (f : CBar → CBar) : State :=
  let s := s.modCore core fun c => { c with cb := listPut ⟨0, []⟩ 16 c.cb cb (f (c.cbar cb)) }
  State.cbScan core cb ((s.core core).cbar cb).wait.length s

/-- Add to a counter; false where the sum is too large (R329). -/
def State.cbAdd (s : State) (core cb k : Nat) : State × Bool :=
  if ((s.core core).cbar cb).count + k ≥ 2 ^ 32 then (s, false)
  else (s.modCb core cb fun b => { b with count := b.count + k }, true)

/-- Waiters leave every barrier of a core. -/
def State.cbLeave (s : State) (core : Nat) (p : Waiter → Bool) : State :=
  (List.range 16).foldl (fun s k => s.modCb core k fun b => { b with wait := b.wait.filter fun y => !p y.1 }) s

def Waiter.ofWave (uid : Nat) : Waiter → Bool
  | .wave u _ => u == uid
  | .xp _ => false

/-! ## The end of a wave -/

/-- A launch loses a wave; when it was the last, its root loses a block (R409). -/
def State.launchLess (s : State) (lid : Nat) : State :=
  match aget s.launches lid with
  | none => s
  | some l =>
    if l.left ≤ 1 then
      let s : State := { s with launches := adel s.launches lid, code := s.code.filter fun x => x.1 != lid }
      match aget s.roots l.root with
      | some r => { s with roots := aput s.roots l.root { r with live := r.live - 1 } }
      | none => s
    else { s with launches := aput s.launches lid { l with left := l.left - 1 } }

/-- A transfer processor of a launch halts after its current instruction: at once between two, else once the parked one is over (R333). -/
def XP.leave (p : XP) (lid : Nat) : XP :=
  if p.bind.lid != some lid then p
  else
    match p.st with
    | .running => { p with st := .halted }
    | .parked _ => { p with quit := true }
    | _ => p

/-- The transfer processors bound to a launch halt when its last wave leaves the core (R333). -/
def State.unbind (s : State) (core lid : Nat) : State :=
  s.modCore core fun c => { c with xp0 := c.xp0.leave lid, xp1 := c.xp1.leave lid }

/-- A launch's last wave leaves a core. -/
def State.leave (s : State) (core lid : Nat) : State :=
  match aget s.launches lid with
  | none => s.unbind core lid
  | some l => ({ s with launches := aput s.launches lid { l with gone := core :: l.gone } } : State).unbind core lid

/-- A wave of a launch has left a core for good. -/
def State.leftCore (s : State) (core lid wix : Nat) : State :=
  let s := s.modCore core fun c => { c with
    allocs := c.allocs.map fun a => if a.lid == lid && !a.ended.contains wix then { a with ended := a.ended ++ [wix] } else a }
  let last := match (s.core core).alloc lid with
    | some a => decide (a.waves ≤ a.ended.length)
    | none => true
  let s := if last then s.leave core lid else s
  ((s.freeAllocs core).barScan lid).launchLess lid

/-- Free wave slots, reservations counted as used (R59). -/
def Core.freeSlots (c : Core) : Nat := 32 - c.slots.length - c.resv.elim 0 (·.waves)

/-- Idle (R63). -/
def Core.idle (c : Core) : Bool := c.deque.isEmpty && decide (1 ≤ c.freeSlots) && !c.offline

/-- A core as it becomes from an old state: one that turns idle tries a steal at once (R63). -/
def Core.anew (old new : Core) : Core := if old.idle then new else { new with lastSteal := none }

/-- Take a wave off its core: its slot and D return, its grant, waits and sets end (R51, R329, R339, R345). -/
def State.removeWave (s : State) (core uid : Nat) : State :=
  match s.findWave uid with
  | none => s
  | some (_, w) =>
    let s := s.modCore core fun c =>
      let k := (c.slots.find? fun x => x.2.uid == uid).map (·.1)
      match k with
      | some k => c.anew { c with
          slots := adel c.slots k
          free := c.free + w.d
          grants := c.grants.map fun g => match g with | some x => if x.slot == k then none else g | none => none }
      | none => { c with pre := c.pre.filter fun x => x.uid != uid }
    let s := (s.cbLeave core (Waiter.ofWave uid)).releaseSets w.aslot uid
    let s : State := { s with recs := s.recs.map fun (r : FRec) => if r.uid == uid && r.held then { r with done := fullMask } else r }
    (s.mapWaves fun _ x => { x with yieldTo := x.yieldTo.filter (· != uid) }).dropDone

/-- The wave ends (R339). A handler wave belongs to no launch. -/
def State.endWave (s : State) (core uid : Nat) : State :=
  match s.findWave uid with
  | none => s
  | some (_, w) =>
    let s := s.removeWave core uid
    if w.handler.isSome then s else s.leftCore core w.lid w.wix

/-- A task that starts again has executed no `tred` (R299). -/
def State.anewTask (s : State) (lid : Nat) : State :=
  match aget s.launches lid with
  | some l => { s with launches := aput s.launches lid { l with treds := [], tredBad := [] } }
  | none => s

/-- A wound (R346): the task ends at once, its buffer is discarded, and it restarts from the near end of its core's deque. -/
def State.wound (s : State) (uid : Nat) : State :=
  match s.findWave uid with
  | none => s
  | some (core, w) =>
    let s := s.removeWave core uid
    let s := s.modCore core fun c => { c with
      allocs := c.allocs.map fun a => if a.lid == w.lid then { a with ended := [0] } else a }
    let s := (s.anewTask w.lid).unbind core w.lid
    (s.freeAllocs core).modCore core fun c => { c with deque := w.lid :: c.deque }

/-! ## A wave whose lanes have all ended (R366) -/

/-- The allocation that a wave is the last to leave (R333). -/
def State.lastAlloc (s : State) (core : Nat) (w : Wave) : Option Alloc :=
  if w.handler.isSome then none
  else ((s.core core).alloc w.lid).bind fun a => if a.waves ≤ a.ended.length + 1 then some a else none

/-- The last wave of a launch on a core leaves it: the transfer processors halt, and whether the end has to wait (R333). -/
def State.lastOut (s : State) (core : Nat) (w : Wave) : State × Bool :=
  match s.lastAlloc core w with
  | none => (s, false)
  | some a => (s.unbind core w.lid, s.allocBusy core a)

/-- Every lane has ended without `exit`: the wave ends as by `exit` with n = 0, once what this waits for is over; the wave stays till
then. -/
def State.reap (s : State) (core uid : Nat) : State :=
  match s.findWave uid with
  | none => s
  | some (_, w) =>
    if w.ended != fullMask then s
    else
      let slot := (s.findSlot uid).elim 0 (·.2)
      match (s.modUid uid fun w => { w with past := true }).depart core slot w 0 0 with
      | (s, some _) => s
      | (s, none) =>
        match s.lastOut core w with
        | (s, true) => s
        | (s, false) => s.endWave core uid

/-- The waves of a scheduler whose lanes have all ended. -/
def State.deadWaves (s : State) (core sched : Nat) : List Wave :=
  ((s.core core).slots.filter fun x => x.1 / 8 == sched && x.2.ended == fullMask).map (·.2)

/-- A scheduler's turn ends those that can end now. -/
def State.reapAll (s : State) (core sched : Nat) : State := (s.deadWaves core sched).foldl (fun s w => s.reap core w.uid) s

end Sys2Proof.Machine
end

