-- ==== Sys2Proof/Machine/Lane.lean ====
section
/-! DEFINITION. A load, store, contribution and atomic of one lane or of a transfer processor (R263, R264, R267, R94), with every
check in its order and every way of delivering a fault (R262). -/

namespace Sys2Proof.Machine
open Sys2Proof

/-- Whether the unit in execution is checked for races, and its identifier (R130). -/
def State.checked (s : State) : Bool :=
  match s.focus.unit with
  | .wave _ _ => s.w.race
  | .xp i x => ((s.xp i x).bind.lid.bind fun l => aget s.launches l).elim false (·.blk.race)
  | .none => false

def State.partyId (s : State) : Nat :=
  match s.focus.unit with
  | .xp i x => xpId i x
  | _ => s.waveId

/-- The issuing unit of flows (R386). -/
def State.flowUnit (s : State) : Nat :=
  match s.focus.unit with
  | .xp _ x => 1 + x
  | _ => 0

def ordReleases (o : Ord) : Bool :=
  match o with
  | .rel | .ar => true
  | _ => false

/-- An acquire event, whose later accesses wait for it (R108). -/
def ordAcquires (o : Ord) : Bool :=
  match o with
  | .acq | .ar => true
  | _ => false

/-- The events of a release, which count once it is performed (R131); a remote one is at its acknowledgement. -/
def State.relCount (s : State) (o : Ord) (n : Nat) : Nat × Nat := if ordReleases o then (s.partyId, n) else noEvent

/-- A release event of the unit counts its interval (R131) (DEDUCED, log entry 22). -/
def State.relEvent (s : State) (o : Ord) (n : Nat) : State := if ordReleases o then s.bump s.partyId n else s

/-! ## A touch of an atomic set (R345) -/

/-- Serve one touch; none where the access proceeds. -/
def State.touch (s : State) (va : Nat) : State × Option LaneRes :=
  let w := s.w
  if !w.commit then (s, none)
  else
    match (s.slot? w.aslot).bind fun a => a.setOf va with
    | none => (s, none)
    | some x =>
      match x.holder with
      | none =>
        if s.setsOf w.aslot w.uid ≥ 64 then (s, some (.hold 0x1F 6 x.id))
        else ((s.modSet w.aslot x.id fun x => { x with holder := some w.uid }).modW fun w => { w with sets := w.sets ++ [x.id] },
          none)
      | some h =>
        if h == w.uid then (s, none)
        else if !(x.wait.any fun y => y.2 == w.uid) && decide (s.setsOf w.aslot w.uid ≥ 64) then (s, some (.hold 0x1F 6 x.id))
        else
          let wait (x : ASet) : ASet := if x.wait.any (fun y => y.2 == w.uid) then x else { x with wait := x.wait ++ [(w.stamp, w.uid)] }
          let s := s.modSet w.aslot x.id wait
          match s.findWave h with
          | some (_, hw) =>
            let s := if w.stamp < hw.stamp && !hw.past then s.wound h else s
            (s, some (.park (.aset [x.id])))
          | none => (s, some (.park (.aset [x.id])))

/-! ## Load -/

/-- One load for the lanes of a mask. `ld` says that it touches sets, `own` that it reads the task's own buffered bytes (R345). -/
def State.loadLane (s : State) (lane : Nat) (lanes : Mask) (va size : Nat) (natural ld own : Bool) (scope : Scope) :
    State × LaneRes :=
  let see (s : State) (x : Nat) : Nat := if own && s.w.commit then s.w.overlay va size x else x
  match s.replied lane va with
  | some (.done x) => (s, .done (see s x))
  | some r => (s, r)
  | none =>
    if s.hasEntry lanes va then (s, .park (.replayed lanes (va / 32))) else
    match s.ltrans s.cur s.curAslot va size natural .load with
    | (s, .fault k c) => (s, .hold k c 0)
    | (s, .park c) => (s, .park c)
    | (s, .ok a) =>
      if !isExt a.pa && s.poisoned a.pa then (s, .hold 0x27 0 0)
      else
        match (if ld then s.touch va else (s, none)) with
        | (s, some r) => (s, r)
        | (s, none) =>
          if isExt a.pa then s.remote s.flowUnit lane lanes va a.pa .load (.load size) false noEvent
          else
            match s.raceCheck s.checked s.curAslot s.partyId s.focus.pc lanes va a.pa false false scope with
            | (s, some r) => (s, r)
            | (s, none) =>
              let (s, x) := (s.tokRead s.cur s.curAslot va a).physLoad a.pa size
              (s, .done (see s x))

/-! ## Store -/

/-- An access of some lanes stands behind a logged one of the same thread for its sector (R122): one in form is then not even translated. -/
def State.behind (s : State) (lanes : Mask) (va size : Nat) (natural : Bool) : Bool :=
  !s.w.commit && s.hasEntry lanes va && !badForm va size natural

/-- An external address whose route entry refuses an access (R385). -/
def State.badRoute (s : State) (aslot pa : Nat) : Bool :=
  isExt pa && extRoute pa != 1024 && !routeOk (s.route aslot (extRoute pa))

/-- One store. `lanes` are the lanes it stands for: the lane, or every Active lane of an access made once (R166, R203); `ev` is the
number of events it counts as (R106). -/
def State.storeLane (s : State) (ev lane : Nat) (lanes : Mask) (va : Nat) (bs : List Byte) (o : Ord) (scope : Scope) :
    State × LaneRes :=
  let size := bs.length
  let data := BitVec.ofNat 64 (ofBytes bs)
  let rel := ordReleases o
  let log (s : State) (kind cause : Nat) : State × LaneRes :=
    s.logAccess lane lanes va (.store size data) rel scope false kind cause
  if s.behind lanes va size false then log s 0 0 else
  match s.ltrans s.cur s.curAslot va size false .store with
  | (s, .fault k c) => if k == 5 && !s.w.commit then log s k c else (s, .hold k c 0)
  | (s, .park c) => (s, .park c)
  | (s, .ok a) =>
    if s.w.commit then
      if s.badRoute s.curAslot a.pa then (s, .hold 5 4 0)
      else
        match s.touch va with
        | (s, some r) => (s, r)
        | (s, none) =>
          match s.w.buffer va a.pa bs rel scope with
          | some w => (s.modW fun _ => w.nextSeq lanes, .done 0)
          | none => (s, .hold 0x20 0 0)
    else if rel && s.hasAnyEntry lanes then log s 0 0
    else if isExt a.pa then
      match s.issue s.cur s.flowUnit s.curAslot (.new .store s.w.uid 0 lane lanes va a.pa (.store size data) rel false (s.relCount o ev)) with
      | (s, .sent _ _) => (s.modW fun w => w.nextSeq lanes, .done 0)
      | (s, .full f) => (s, .park (.flowRoom f))
      | (s, .bad) => log s 5 4
    else if s.sealedLine a.pa then log s 0x10 0
    else
      match s.raceCheck s.checked s.curAslot s.partyId s.focus.pc lanes va a.pa true false scope with
      | (s, some r) => (s, r)
      | (s, none) =>
        let s := (s.tokWrite s.cur s.curAslot va a).physStore a.pa bs
        ((s.modW fun w => w.nextSeq lanes).relEvent o ev, .done 0)

/-! ## Contribution -/

def ASlot.rangeOf (a : ASlot) (va : Nat) : Option CrRange :=
  a.ranges.find? fun r => decide (r.base ≤ va) && decide (va < r.base + r.len)

/-- Fold a value into the core's partial of an element (R94). -/
def Core.contribute (c : Core) (pa : Nat) (op : CrOp) (x : Nat) : Core :=
  if c.partials.any fun p => p.pa == pa then
    { c with partials := c.partials.map fun p =>
        if p.pa == pa then { p with val := BitVec.ofNat 64 (crCombine op p.val.toNat x) } else p }
  else { c with partials := c.partials ++ [⟨pa, op, BitVec.ofNat 64 x⟩] }

/-- The range that a contribution of a size falls into; none where a commutative-range condition holds (R264). -/
def State.contribRange (s : State) (aslot va size : Nat) : Option CrRange :=
  match (s.slot? aslot).bind fun a => a.rangeOf va with
  | some r => if crBytes r.op == size && va % size == 0 then some r else none
  | none => none

def State.contribLane (s : State) (ev lane : Nat) (lanes : Mask) (va : Nat) (w : Bool) (x : Nat) (o : Ord) (scope : Scope) :
    State × LaneRes :=
  let size := if w then 8 else 4
  let data := BitVec.ofNat 64 x
  let rel := ordReleases o
  let log (s : State) (kind cause : Nat) : State × LaneRes :=
    s.logAccess lane lanes va (.contrib w data) rel scope false kind cause
  if s.behind lanes va size false then log s 0 0 else
  match s.gtrans s.cur s.curAslot va size false .contrib with
  | (s, .fault k c) => if k == 5 then log s k c else (s, .hold k c 0)
  | (s, .park c) => (s, .park c)
  | (s, .ok a) =>
    if rel && s.hasAnyEntry lanes then log s 0 0
    else if isExt a.pa then
      match s.issue s.cur s.flowUnit s.curAslot (.new .contrib s.w.uid 0 lane lanes va a.pa (.contrib w data) rel false (s.relCount o ev)) with
      | (s, .sent _ _) => (s.modW fun w => w.nextSeq lanes, .done 0)
      | (s, .full f) => (s, .park (.flowRoom f))
      | (s, .bad) => log s 5 4
    else
      match s.contribRange s.curAslot va size with
      | none => log s 0x11 0
      | some r =>
        if s.sealedLine a.pa then log s 0x10 0
        else
          match s.raceCheck s.checked s.curAslot s.partyId s.focus.pc lanes va a.pa true false scope with
          | (s, some r) => (s, r)
          | (s, none) =>
            let s := s.modCore s.cur fun c => c.contribute a.pa r.op x
            ((s.modW fun w => w.nextSeq lanes).relEvent o ev, .done 0)

/-! ## Atomic -/

/-- The new value of an atomic (R267). -/
def atomNew (op : AtomOp) (w : Bool) (old b c : Nat) : Nat :=
  let n := if w then 64 else 32
  let f := if w then fF64 else fF32
  match op with
  | .xchg => b
  | .add => (old + b) % 2 ^ n
  | .sub => (old + 2 ^ n - b) % 2 ^ n
  | .and => old &&& b
  | .or => old ||| b
  | .xor => old ^^^ b
  | .min => if sextN n old ≤ sextN n b then old else b
  | .max => if sextN n old ≤ sextN n b then b else old
  | .umin => min old b
  | .umax => max old b
  | .fadd => faddE f .rn old b
  | .fmin => fminE f old b
  | .fmax => fmaxE f old b
  | .cas => if old == b then c else old

/-- Read, modify and write at the home slice with all tokens (R90); the old value. -/
def State.atomAt (s : State) (pa : Nat) (op : AtomOp) (w : Bool) (b c : Nat) : State × Nat :=
  let n := if w then 8 else 4
  let (s, old) := (s.tokHome pa).physLoad pa n
  (s.physStore pa (toBytes n (atomNew op w old b c)), old)

/-- One atomic. A remote one waits for its reply where its result is written or where it is an acquire (R108), and takes it before anything is
translated or checked anew; only one whose result is written holds its lanes where it has not been performed (R388). -/
def State.atomLane (s : State) (ev lane : Nat) (lanes : Mask) (va : Nat) (op : AtomOp) (w : Bool) (b c : Nat) (dst : Dst)
    (o : Ord) (scope : Scope) : State × LaneRes :=
  let size := if w then 8 else 4
  let rel := ordReleases o
  let writes := dst.reg.isSome || dst.latch.isSome
  let log (s : State) (kind cause : Nat) : State × LaneRes :=
    s.logAccess lane lanes va (.atomic op w (BitVec.ofNat 64 b) (BitVec.ofNat 64 c) dst) rel scope writes kind cause
  match s.replied lane va with
  | some (.done v) => (s.modW fun w => w.nextSeq lanes, .done v)
  | some (.hold k c i) => if writes then (s, .hold k c i) else (s.modW fun w => w.nextSeq lanes, .done 0)
  | some r => (s, r)
  | none =>
  if s.behind lanes va size true then log s 0 0 else
  match s.gtrans s.cur s.curAslot va size true .atomic with
  | (s, .fault k c) => if k == 5 then log s k c else (s, .hold k c 0)
  | (s, .park c) => (s, .park c)
  | (s, .ok a) =>
    if rel && s.hasAnyEntry lanes then log s 0 0
    else if s.badRoute s.curAslot a.pa then log s 5 4
    else if isExt a.pa then
      let req : RemReq := .atomic op w (BitVec.ofNat 64 b) (BitVec.ofNat 64 c)
      if writes || ordAcquires o then s.remote s.flowUnit lane lanes va a.pa .atomic req rel (s.relCount o ev)
      else
        match s.issue s.cur s.flowUnit s.curAslot (.new .atomic s.w.uid 0 lane lanes va a.pa req rel false (s.relCount o ev)) with
        | (s, .sent _ _) => (s.modW fun w => w.nextSeq lanes, .done 0)
        | (s, .full f) => (s, .park (.flowRoom f))
        | (s, .bad) => log s 5 4
    else if s.poisoned a.pa then (s, .hold 0x27 0 0)
    else if s.sealedLine a.pa then (s, .hold 0x10 0 0)
    else
      match s.raceCheck s.checked s.curAslot s.partyId s.focus.pc lanes va a.pa true true scope with
      | (s, some r) => (s, r)
      | (s, none) =>
        let (s, old) := s.atomAt a.pa op w b c
        ((s.modW fun w => w.nextSeq lanes).relEvent o ev, .done old)

/-! ## What the instruction in execution makes of an outcome -/

def State.hold (s : State) (lanes : Mask) (kind cause addr info : Nat) : State :=
  s.modF fun f => { f with holds := f.holds ++ (lanesOf lanes).map fun l => ⟨l, kind, cause, addr, info, none⟩ }

/-- Lanes park on a condition; parks on one condition are one (DEDUCED, log entry 31). -/
def State.parkOn (s : State) (lanes : Mask) (c : ParkCond) : State :=
  s.modF fun f =>
    if f.parks.any fun x => x.1 == c then
      { f with parks := f.parks.map fun x => if x.1 == c then (c, x.2 ||| lanes) else x }
    else { f with parks := f.parks ++ [(c, lanes)] }

/-- Lanes whose remote accesses are under way park together; the instruction keeps the accesses. -/
def State.await (s : State) (lanes : Mask) (acc : Nat × Nat × Nat × Nat) : State :=
  s.modF fun f =>
    let f : Focus := { f with accs := if f.accs.contains acc then f.accs else f.accs ++ [acc] }
    if f.parks.any (fun x => match x.1 with | .answers _ => true | _ => false) then
      { f with parks := f.parks.map fun x => match x.1 with
          | .answers l => (.answers (if l.contains acc then l else l ++ [acc]), x.2 ||| lanes)
          | _ => x }
    else { f with parks := f.parks ++ [(.answers [acc], lanes)] }

/-- Deliver an outcome on lanes: `k` gets the value when the access is done; a logged atomic whose result is written waits
for its replay (`keep`). -/
def State.deliver (s : State) (lanes : Mask) (va : Nat) (keep : Bool) (r : LaneRes) (k : State → Nat → State) : State :=
  match r with
  | .done v => k s v
  | .hold kind cause info => s.hold lanes kind cause va info
  | .park c => s.parkOn lanes c
  | .logged id => if keep then s.parkOn lanes (.entry [id]) else s
  | .wait acc => s.await lanes acc

/-- A release of some lanes waits for their remote accesses (R108; DEDUCED, log entry 60). -/
def State.afterRemote (s : State) (lanes : Mask) (f : State → State) : State :=
  if s.openRemote s.w.uid lanes then s.parkOn lanes (.fence .sy) else f s

/-- Lanes wait for the logged entries of `of` (R122; DEDUCED, log entry 60). -/
def State.afterLog (s : State) (lanes of : Mask) (f : State → State) : State :=
  match (s.core s.cur).lanesLog s.w.uid of with
  | e :: _ => s.parkOn lanes (.replayed of (e.va / 32))
  | [] => f s

/-- A release of some lanes that no entry of the log can stand for waits for their logged entries as well as for their remote accesses
(R108, R122; DEDUCED, log entry 60). -/
def State.afterAll (s : State) (lanes : Mask) (f : State → State) : State := s.afterLog lanes lanes fun s => s.afterRemote lanes f

/-- A releasing access waits until the remote accesses of all of its lanes are resolved, and is then performed for all of them in their order
(R108, R111, R264, R267; DEDUCED, log entry 60). -/
def State.relGate (s : State) (o : Ord) (lanes : Mask) (f : State → State) : State :=
  if ordReleases o then s.afterRemote lanes f else f s

/-- What a wave does after its earlier remote accesses (R109, R358; DEDUCED, log entry 60). -/
def State.afterWave (s : State) (lanes : Mask) (f : State → State) : State :=
  if s.openRemote s.w.uid fullMask then s.parkOn lanes .flushed else f s

/-- What a wave brings to a barrier of waves stands after all its earlier accesses, which are performed then (R109, R123; DEDUCED, log entry
60). -/
def State.arriving (s : State) (lanes : Mask) (f : State → State) : State := s.afterLog lanes fullMask fun s => s.afterWave lanes f

end Sys2Proof.Machine
end

