-- ==== Sys2Proof/Machine/Room.lean ====
section
/-! DEFINITION. What a core has room for, which candidate is next, and which waves must make room for it (R51, R57, R58, R65, R66). -/

namespace Sys2Proof.Machine
open Sys2Proof

/-! ## Room on a core (R51, R57, R86) -/

def Core.takenLines (c : Core) : List (Nat × Nat) :=
  (c.allocs.map fun a => (a.base, a.lines)) ++ (match c.resv with | some r => [(r.base, r.spad)] | none => [])

/-- The lowest base at which contiguous scratchpad lines are free (R80) (DESIGN CHOICE, log entry 32). -/
def Core.spadRoom (c : Core) (lines : Nat) : Option Nat :=
  let taken := c.takenLines
  let ends := sortBy (fun a b => decide (a < b)) (0 :: taken.map fun x => x.1 + x.2)
  ends.find? fun b => decide (b + lines ≤ 2048) && (lines == 0 || taken.all fun x => !overlaps b lines x.1 x.2)

/-- No resident wave and no reservation, which counts as one (R59), stands in the way of a cluster's mode (R86). -/
def State.modeFits (s : State) (core : Nat) (fuse : Bool) : Bool :=
  let cl := coreCluster core
  (s.cluster cl).fused == fuse || s.cores.all fun c => coreCluster c.1 != cl || (c.2.slots.isEmpty && c.2.resv.isNone)

/-- A core can admit a number of waves of a block now, all of them new (R58, R59). -/
def State.fitsAll (s : State) (core : Nat) (k : Block) (waves : Nat) : Bool :=
  let c := s.core core
  !c.offline && decide (waves ≤ c.freeSlots) && decide (waves * k.vregs ≤ c.free) && (c.spadRoom k.spad).isSome &&
  s.modeFits core k.fuse

/-- The cores of a launch's rectangle, ascending (R55). -/
def Block.cores (k : Block) : List Nat :=
  (List.range k.h).flatMap fun r => (List.range k.w).map fun c => 32 * (k.y0 + r) + (k.x0 + c)

/-! ## Candidates (R57, R66) -/

/-- A candidate for admission: the near end of the admission list, of the deque, or a pre-empted wave. -/
inductive Cand where
  | listed (a : Adm)
  | task (lid : Nat)
  | back (uid : Nat)
deriving DecidableEq, Repr

/-- The place of a wave among those of its stamp: wix, for a handler wave the slot of its admission (R35). -/
def Wave.place (w : Wave) : Nat := if w.handler.isSome then w.seat else w.wix

/-- The older of two waves (R35). -/
def Wave.older (a b : Wave) : Bool :=
  if a.stamp != b.stamp then decide (a.stamp < b.stamp)
  else if a.handler.isSome != b.handler.isSome then b.handler.isSome
  else decide (a.place < b.place)

/-- Priority, 0 for a pre-empted wave, stamp, 1 for a handler wave, place: the order of R35, R57 and R66. -/
structure CandKey where
  prio  : Nat
  isNew : Nat
  stamp : Nat
  hand  : Nat
  wix   : Nat

def CandKey.before (a b : CandKey) : Bool :=
  if a.prio != b.prio then decide (b.prio < a.prio)
  else if a.isNew != b.isNew then decide (a.isNew < b.isNew)
  else if a.stamp != b.stamp then decide (a.stamp < b.stamp)
  else if a.hand != b.hand then decide (a.hand < b.hand)
  else decide (a.wix < b.wix)

def State.prioOf (s : State) (lid : Nat) : Nat := (aget s.launches lid).elim 0 fun l => l.blk.prio

/-- A wave of a gang returns only through the two phases (R59). -/
def State.inGang (s : State) (w : Wave) : Bool :=
  w.handler.isNone && (aget s.launches w.lid).elim false fun l => l.blk.kind == 1

/-- The candidates of a core with their keys (R57). Handler waves of one stamp that have no slot yet stand in the order of their forming
(DESIGN CHOICE, log entry 75). -/
def State.cands (s : State) (core : Nat) : List (CandKey × Cand) :=
  let c := s.core core
  (c.adm.map fun a => match a with
    | .launch lid nx => (⟨s.prioOf lid, 1, lid, 0, nx⟩, .listed a)
    | .handler _ _ prio _ stamp _ => (⟨prio, 1, stamp, 1, 0⟩, .listed a)) ++
  (match c.deque with | [] => [] | lid :: _ => [(⟨s.prioOf lid, 1, lid, 0, 0⟩, .task lid)]) ++
  (c.pre.filter fun w => !s.inGang w).map fun w => (⟨w.prio, 0, w.stamp, b2n w.handler.isSome, w.place⟩, .back w.uid)

/-- The first candidate (R57). -/
def State.firstCand (s : State) (core : Nat) : Option Cand :=
  ((sortBy (fun a b => CandKey.before a.1 b.1) (s.cands core)).head?).map (·.2)

/-- What a candidate needs: D, scratchpad lines still to be allocated, fuse if it has a mode, priority, slots. -/
structure Need where
  d     : Nat
  spad  : Option Nat
  fuse  : Option Bool
  prio  : Nat
  slots : Nat

def State.need (s : State) (core : Nat) (x : Cand) : Option Need :=
  let launch (lid : Nat) : Option Need := (aget s.launches lid).map fun l =>
    ⟨l.blk.vregs, (match (s.core core).alloc lid with
      | some _ => none
      | none => some l.blk.spad), some l.blk.fuse, l.blk.prio, 1⟩
  match x with
  | .listed (.launch lid _) => launch lid
  | .listed (.handler _ _ prio d _ _) => some ⟨d, none, none, prio, 1⟩
  | .task lid => launch lid
  | .back uid => ((s.core core).pre.find? fun w => w.uid == uid).map fun w =>
      ⟨w.d, none, if w.handler.isSome then none else (aget s.launches w.lid).map (·.blk.fuse), w.prio, 1⟩

/-- A task that was wounded waits until its old allocation has gone (R346). -/
def State.oldAlloc (s : State) (core : Nat) (x : Cand) : Bool :=
  match x with
  | .task lid => ((s.core core).alloc lid).isSome
  | _ => false

/-- The waves of a gang that a core must still seat, with the D of each: one that has ended takes none. -/
def State.gangNeed (s : State) (core lid : Nat) (k : Block) : List (Nat × Nat) :=
  let c := s.core core
  let gone := (c.alloc lid).elim [] (·.ended)
  ((List.range k.waves).filter fun i => !gone.contains i).map fun i =>
    (i, ((c.pre.find? fun w => w.handler.isNone && w.lid == lid && w.wix == i).elim k.vregs (·.d)))

/-- The footprint of a gang on a core (R59). -/
def State.gangWants (s : State) (core lid : Nat) (k : Block) : Need :=
  let ws := s.gangNeed core lid k
  ⟨ws.foldl (fun n x => n + x.2) 0, if ((s.core core).alloc lid).isSome then none else some k.spad, some k.fuse, k.prio, ws.length⟩

/-- Scratchpad, mode and the core itself let a candidate in; slots and pool are judged apart (R65). -/
def State.placeOk (s : State) (core : Nat) (n : Need) : Bool :=
  let c := s.core core
  !c.offline && (n.spad.elim true fun k => (c.spadRoom k).isSome) && (n.fuse.elim true (s.modeFits core))

def State.unitOk (s : State) (core : Nat) (n : Need) : Bool :=
  decide (n.slots ≤ (s.core core).freeSlots) && decide (n.d ≤ (s.core core).free)

/-! ## Pre-emption (R65, R375) -/

def State.granted (s : State) (core slot : Nat) : Bool := (s.core core).grants.any fun g => g.elim false (·.slot == slot)

/-- Waves that a block of a priority may pre-empt, in order: lowest priority, then youngest (R35, R65); a readmitted wave first
executes a run (R66). -/
def State.victims (s : State) (core prio : Nat) : List (Nat × Wave) :=
  let l := (s.core core).slots.filter fun x => decide (x.2.prio < prio) && x.2.ran
  sortBy (fun a b => if a.2.prio != b.2.prio then decide (a.2.prio < b.2.prio) else b.2.older a.2) l

/-- Every resident wave of a gang. -/
def State.gangWaves (s : State) (lid : Nat) : List (Nat × Nat) :=
  (s.resident.filter fun x => x.2.2.handler.isNone && x.2.2.lid == lid).map fun x => (x.1, x.2.1)

/-- The victims, in order, whose slots and registers let a candidate in; all of them where even these do not suffice (R65). -/
def calledOff (need d : Nat) : List (Nat × Wave) → (slots free : Nat) → List Wave
  | [], _, _ => []
  | x :: xs, slots, free =>
    if need ≤ slots ∧ d ≤ free then [] else x.2 :: calledOff need d xs (slots + 1) (free + x.2.d)

/-- The waves that a need which lacks only slots or pool calls off. -/
def State.callsFor (s : State) (core : Nat) (n : Need) : List Wave :=
  let c := s.core core
  if s.placeOk core n then calledOff n.slots n.d (s.victims core n.prio) c.freeSlots c.free else []

/-- What a gang in reservation needs on a core that is next (R59). -/
def State.gangNext (s : State) (core : Nat) : Option Need :=
  match s.dist.gang with
  | some (lid, _, c :: _) =>
    if c == core && (s.core core).resv.isNone then (aget s.launches lid).map fun l => s.gangWants core lid l.blk else none
  | _ => none

/-- The waves that the first candidate of a core, or a gang, waits for. -/
def State.calls (s : State) (core : Nat) : List Wave :=
  let c := s.core core
  if s.ckpt.isSome then []
  else
    (s.gangNext core).elim [] (s.callsFor core) ++
    (if c.adm.isEmpty && c.deque.isEmpty && c.pre.isEmpty then []
     else
      match s.firstCand core with
      | none => []
      | some x => if s.oldAlloc core x then [] else (s.need core x).elim [] (s.callsFor core))

/-- The names of the waves of a core that pre-emption waits for: they take no further run (DEDUCED, log entry 36). A gang goes as a whole, on
whichever core it is called off (R59), and each of its waves after a run (R66). -/
def State.leaving (s : State) (core : Nat) : List Nat :=
  let gangs := dedup (((s.core core).slots.filter fun x => s.inGang x.2).map fun x => x.2.lid)
  let off := if gangs.isEmpty then [] else (s.cores.flatMap fun c => s.calls c.1).filter fun w => gangs.contains w.lid && s.inGang w
  (s.calls core).map (·.uid) ++
    ((s.core core).slots.filter fun x => s.inGang x.2 && x.2.ran && off.any fun w => w.lid == x.2.lid).map fun x => x.2.uid

end Sys2Proof.Machine
end

