-- ==== Sys2Proof/Machine/Run.lean ====
section
/-! DEFINITION. Runs (R36 to R48): when a wave is ready, the grant of a run to one part, fetching and decoding the next
instruction, and what executing an instruction leaves behind: program counters, the broadcast address, suspended and
held runs, the transfer processor's loop stack. -/

namespace Sys2Proof.Machine
open Sys2Proof

/-! ## When a park ends -/

/-- Copies of a queue of a wave that have not completed (R277). -/
def State.queueLen (s : State) (core uid q : Nat) : Nat :=
  ((s.core core).copies.filter fun c => match c.from' with
    | .queue u _ k _ => u == uid && k == q
    | _ => false).length

/-- Unfinished sealed batches of a lane (R279). -/
def Wave.batchesOf (w : Wave) (l : Nat) : Nat := (w.batches.filter fun b => b.1 == l).length

/-- The progress table lets a publisher of a step go on (R353). -/
def Comm.lead (c : Comm) : Nat := bitsN c.w1.toNat 63 56
def Comm.rank (c : Comm) : Nat := bitsN c.w0.toNat 44 33
def Comm.minStep (c : Comm) : Nat :=
  let own := listGet ⟨true, 0, 0⟩ c.table c.rank
  c.table.foldl (fun m p => if p.live then min m p.step else m) own.step

def State.stepOk (s : State) (comm step : Nat) : Bool :=
  match aget s.comms comm with
  | some c => decide (step ≤ c.minStep + c.lead)
  | none => true

/-- The arrivals at an instance of `tred` on every member (R299). -/
def State.tredAll (s : State) (lid k desc : Nat) : Bool :=
  match aget s.launches lid with
  | none => false
  | some l => (descCores l.blk desc).all fun c => l.treds.any fun t => t.1 == c && t.2.1 == k

/-- The wave as a whole takes no run: halted (R378, R420, R422), or a fault record of it waits for room (R361). -/
def State.halted (s : State) (core : Nat) (w : Wave) : Bool :=
  (s.slot? w.aslot).elim false (fun a => a.dbgCtl.getLsbD 1) || s.hot || s.ckpt.isSome || (s.core core).disabled ||
  (s.core core).gated || s.recs.any fun r => r.uid == w.uid && r.pending

/-- The lines are present. -/
def State.presentAll (s : State) (ls : List (Nat × Nat)) : Bool := ls.all fun x => !(s.core x.1).absent.contains x.2

/-- A consuming load that arrived earlier waits for one of the lines too, and its wave can be served (R83; DEDUCED, log entry 72). -/
def State.servedFirst (s : State) (ls : List (Nat × Nat)) (order : Nat) : Bool :=
  s.resident.any fun x => !s.halted x.1 x.2.2 && x.2.2.streams.any fun t => match t.st with
    | .park (.consume l n) _ _ _ | .resume (.consume l n) _ _ _ => decide (n < order) && l.any ls.contains
    | _ => false

/-- The condition that a park waits for, on the part of a wave (DEDUCED, log entry 53). -/
def State.parkOver (s : State) (core : Nat) (w : Wave) (lanes : Mask) : ParkCond → Bool
  | .present ls => s.presentAll ls
  | .consume ls n => s.presentAll ls && !s.servedFirst ls n
  | .page a va off => s.pageOff a va != some off
  | .logRoom => decide ((s.core core).log.length < 64)
  | .replayed m sec => !((s.core core).lanesLog w.uid m).any fun e => e.va / 32 == sec
  | .entry _ => false
  | .flowRoom f => decide ((s.flow f).open'.length < 1024)
  | .answers l => l.all fun x => (s.answer x.2.1 x.2.2.1).isSome
  | .mpoll x _ => (s.answer x.2.1 x.2.2.1).isSome
  | .fence sc => s.flows.all fun f => f.open'.all fun a => !(a.openOf w.uid lanes && farIn sc a.sys)
  | .flushed => !s.openRemote w.uid fullMask
  | .record _ => false
  | .cbw _ _ passed => passed
  | .heads x => decide ((s.xp core x).heads.length < 4)
  | .copyRoom q => decide (s.queueLen core w.uid q < 16)
  | .batchRoom m => (lanesOf m).all fun l => decide (w.batchesOf l < 16)
  | .cwait m n => (lanesOf m).all fun l => decide (w.batchesOf l ≤ n)
  | .collRoom q => decide ((w.collQ.filter fun x => x.1 == q).length < 16)
  | .collRes q => ((w.collQ.find? fun x => x.1 == q).bind fun x => x.2.res).isSome
  | .xferRoom => false
  | .xferDone => false
  | .ldv _ _ expired pas m => expired || pas.any fun pa => decide (m ≤ (mget 0 s.tags (pa / 65536)).toNat)
  | .mwait _ _ woken => woken
  | .wbar _ passed => passed
  | .sbar _ _ res => res.isSome
  | .tred k _ => match aget s.launches w.lid with
    | none => false
    | some l => l.treds.any fun t => t.1 == core && t.2.1 == k && t.2.2.length == 7
  | .claim _ served => served
  | .aset ids => ids.all fun i => match (s.slot? w.aslot).bind fun a => a.sets.find? fun x => x.id == i with
    | some x => x.holder == some w.uid || x.holder.isNone
    | none => true
  | .pstep _ _ passed => passed
  | .leave => match (s.core core).alloc w.lid with
    | some a => !s.allocBusy core a
    | none => true
  | .flq i _ => match w.unres[i]? with
    | some u => u.fate != 0
    | none => true

/-- The same for a transfer processor. -/
def State.xpOver (s : State) (core x : Nat) : ParkCond → Bool
  | .present ls => ls.all fun y => !(s.core y.1).absent.contains y.2
  | .page a va off => s.pageOff a va != some off
  | .flowRoom f => decide ((s.flow f).open'.length < 1024)
  | .answers l => l.all fun y => (s.answer y.2.1 y.2.2.1).isSome
  | .heads y => decide ((s.xp core y).heads.length < 4)
  | .cbw _ _ passed => passed
  | .xferRoom => decide (((s.core core).copies.filter fun c => c.xp == x && c.from' == .prog).length < 64)
  | .xferDone => !(s.core core).copies.any fun c => c.xp == x && c.from' == .prog
  | _ => false

/-! ## Readiness (R44) -/

/-- A lane's run, where it keeps one. -/
def Wave.streamOf (w : Wave) (l : Nat) : Option Stream := w.streams.find? fun t => hasLane t.lanes l

/-- Lanes that are parked or held inside a run. -/
def Wave.stopped (w : Wave) : Mask :=
  w.streams.foldl (fun m t => match t.st with | .run | .resume _ _ _ _ => m | _ => m ||| t.lanes) 0

/-- Lanes held because a spill or fill of the wave's image has faulted (R377). -/
def State.imageHeld (s : State) (uid : Nat) : Mask :=
  s.recs.foldl (fun m r => if r.uid == uid && r.kind == 0x28 && r.held then m ||| (r.lanes &&& ~~~ r.done) else m) 0

/-- Lanes that are ready: not ended, not waiting, and running, between runs, or parked on a condition that holds. -/
def State.readyLanes (s : State) (core : Nat) (w : Wave) : Mask :=
  let off := w.ended ||| w.atBarrier
  let stuck := w.streams.foldl (fun m t =>
    match t.st with
    | .run => m
    | .resume _ _ _ _ => m
    | .park c _ _ _ => if s.parkOver core w t.lanes c then m else m ||| t.lanes
    | .join _ _ => m ||| t.lanes
    | .held _ _ _ => m ||| t.lanes) 0
  ~~~ (off ||| stuck ||| s.imageHeld w.uid)

def State.ready (s : State) (core : Nat) (w : Wave) : Bool := !s.halted core w && s.readyLanes core w != 0

/-! ## Parts and grants (R44, R45, R350) -/

/-- Lanes of sub-waves whose counter equals the broadcast address rejoin at a run start (R38). -/
def Wave.rejoin (w : Wave) : Wave :=
  let back := maskBy fun l => (w.streamOf l).isNone && listGet 0 w.pcs l == w.bcast && !hasLane w.ended l
  { w with subs := (w.subs.map fun m => m &&& ~~~ back).filter (· != 0) }

def Wave.mainPart (w : Wave) : Mask := ~~~ (w.subs.foldl (fun m x => m ||| x) 0)

/-- The runnable parts, at most four: main, then sub-waves, oldest first (R45; DESIGN CHOICE, log entry 14); ascending lowest lane. -/
def State.parts (s : State) (core : Nat) (w : Wave) : List Mask :=
  let r := s.readyLanes core w
  sortBy (fun a b => decide (lowLane a < lowLane b)) (((w.mainPart :: w.subs).filter fun m => m &&& r != 0).take 4)

def Wave.pickPart (w : Wave) (ps : List Mask) : Option Mask :=
  match ps.find? fun m => decide (w.turn ≤ lowLane m) with
  | some m => some m
  | none => ps.head?

/-- The runs of a granted part: kept runs go on; lanes between runs start one, the broadcast group together, the others each
alone (R36, R38, R47, R285). -/
def Wave.startRuns (w : Wave) (part : Mask) : Wave :=
  let rid := 2 * (w.runs + 1)
  let keep := w.streams.map fun t =>
    if t.lanes &&& part == 0 then t
    else
      match t.st with
      | .park c n r i => { t with st := .resume c n r i }
      | _ => t
  let free := maskBy fun l => hasLane part l && (w.streamOf l).isNone
  let group := maskBy fun l => hasLane free l && listGet 0 w.pcs l == w.bcast
  let alone := lanesOf (free &&& ~~~ group)
  let fresh := (if group == 0 then [] else [(⟨group, 0, 0, true, .run, 0, false, rid, [], none⟩ : Stream)]) ++
    alone.map fun l => ⟨laneMask l, 0, 0, false, .run, 0, false, rid, [], none⟩
  let bcFirst := keep.filter (·.bc) ++ (fresh ++ keep.filter fun t => !t.bc)
  { w with
    streams := bcFirst
    bcLanes := group
    runs := w.runs + 1
    waited := 0
    t := mdrop (fun k => hasLane free (k % 32)) w.t
    stage := mdrop (fun k => hasLane free (k / 128)) w.stage }

/-- A wave that has yielded holds back (R350), unless it or a runnable part of it would wait for more than 32 run slots (R45; DESIGN
CHOICE, log entry 14). -/
def State.holdsBack (s : State) (core : Nat) (w : Wave) : Bool :=
  !w.yieldTo.isEmpty && decide (w.waited < 32 / max 1 (s.parts core w).length - 8)

/-- The scan of R44 over the slots of a scheduler; a wave that has yielded comes after every other ready wave (R350). A wave that
pre-emption waits for takes no run (DEDUCED, log entry 36). -/
def State.nextSlot (s : State) (core sched : Nat) : Option Nat :=
  let c := s.core core
  let off := s.leaving core
  let order := (List.range 8).map fun i => 8 * sched + (listGet 7 c.last sched + 1 + i) % 8
  let rdy := order.filter fun k => match aget c.slots k with
    | some w => s.ready core w && !off.contains w.uid
    | none => false
  match rdy.find? fun k => (aget c.slots k).elim false fun w => !s.holdsBack core w with
  | some k => some k
  | none => rdy.head?

/-- Grant a run to the next ready wave of a scheduler. -/
def State.grantRun (s : State) (core sched : Nat) : State :=
  if (listGet none (s.core core).grants sched).isSome then s
  else
    match s.nextSlot core sched with
    | none => s
    | some k =>
      match s.wave? core k with
      | none => s
      | some w =>
        let w := w.rejoin
        match w.pickPart (s.parts core w) with
        | none => s
        | some m =>
          let part := m &&& s.readyLanes core w
          let s := s.modCore core fun c => { c with
            last := listPut 7 4 c.last sched (k % 8)
            grants := listPut none 4 c.grants sched (some ⟨k, part⟩)
            slots := c.slots.map fun x => (x.1, if x.1 / 8 == sched then { x.2 with waited := x.2.waited + 1 } else x.2) }
          s.setWave core k { w.startRuns part with turn := lowLane m + 1 }

/-- The run that a granted wave executes next (DEDUCED, log entry 19). -/
def Stream.going (g : Grant) (t : Stream) : Bool :=
  t.lanes &&& ~~~ g.lanes == 0 && (match t.st with | .run | .resume _ _ _ _ => true | _ => false)

/-- A fault record of a wave waits for room in its ring: the wave parks (R361). -/
def State.recordWaits (s : State) (uid : Nat) : Bool := s.recs.any fun r => r.uid == uid && r.pending

/-- The grant ends when no run of the part is left (R44), or when the wave parks for its record (R361). A wave that has executed in it, `did`,
has won a run (R66, R350). -/
def State.endGrant (s : State) (core slot : Nat) (did : Bool) : State :=
  let sched := slot / 8
  match listGet none (s.core core).grants sched, s.wave? core slot with
  | some g, some w =>
    if g.slot == slot && (!(w.streams.any (Stream.going g)) || s.recordWaits w.uid) then
      let s := s.modCore core fun c => { c with grants := listPut none 4 c.grants sched none }
      if did then s.mapWaves fun _ x => { x with yieldTo := x.yieldTo.filter (· != w.uid) } else s
    else s
  | _, _ => s

/-! ## After an instruction of a wave -/

/-- Where a lane goes on: the target of a transfer it has taken, else the next instruction. -/
def Focus.target (f : Focus) (l : Nat) : Nat :=
  match f.taken.find? fun x => x.1 == l with
  | some x => x.2
  | none => f.pc + f.len

/-- Where the broadcast address goes after an instruction (R37, R40): to the counter of the lowest lane that a barrier has released; after the
broadcast group, to that of its lowest lane that goes on, or of the lowest lane of the wave that is neither parked nor waiting. Where every
lane is parked or waits, it stays (DEDUCED, log entry 35). -/
def Wave.leadTo (w : Wave) (f : Focus) (on : Mask) : Option Va :=
  let go := on &&& ~~~ w.atBarrier
  let rest := ~~~ (w.ended ||| w.atBarrier ||| w.stopped)
  if f.joined != 0 then some (listGet 0 w.pcs (lowLane f.joined))
  else if !f.lead then none
  else if go != 0 then some (listGet 0 w.pcs (lowLane go))
  else if rest != 0 then some (listGet 0 w.pcs (lowLane rest))
  else none

/-- The broadcast address moves, and a suspended run that it leaves behind is the broadcast group's no more (R36, R38). -/
def Wave.retarget (w : Wave) (f : Focus) (on : Mask) : Wave :=
  match w.leadTo f on with
  | none => w
  | some b => { w with
      bcast := b
      streams := w.streams.map fun t => { t with bc := t.bc && listGet 0 w.pcs (lowLane t.lanes) == b } }

/-- A park that leaves the other lanes of the run free to go on (R340, R341, R343, R374): `wbar`, `sbar`, a blocked claim, a
logged atomic. Every other park suspends the run (R46; DEDUCED, log entry 34). -/
def ParkCond.loose : ParkCond → Bool
  | .wbar _ _ | .sbar _ _ _ | .claim _ _ | .entry _ => true
  | _ => false

/-- The run waits for lanes that are parked. -/
def Stream.waits (t : Stream) : Bool :=
  match t.st with
  | .park _ _ _ _ | .resume _ _ _ _ => true
  | _ => false

/-- The name of the run that lanes keep which park: behind a logged atomic they are a part of their own (R46, R374). -/
def ParkCond.run (c : ParkCond) (rid : Nat) : Nat :=
  match c with
  | .entry (i :: _) => 2 * i + 1
  | _ => rid

/-- What an instruction keeps over every park of it: the time that a condition says, or the time that it has kept (R268, R270). -/
def ParkCond.since (c : ParkCond) (old : Option Since) : Option Since :=
  match c with
  | .mwait _ dl _ | .mpoll _ dl => some (.mwait dl)
  | .ldv t0 limit e _ _ => some (.ldv t0 limit e)
  | _ => old

/-- The runs that one becomes: lanes held and lanes parked keep it (R46, R365), the others go on, end it, or wait for the
parked lanes of the group `g` (R42). An instruction that has not been fetched (length 0) is no execution yet. -/
def Stream.split (t : Stream) (f : Focus) (rbf : Bool) (held : List (Mask × Nat)) (on : Mask) (g : Nat) : List Stream :=
  let since := t.since
  let t : Stream := { t with accs := [], since := none }
  (if on == 0 then []
   else if g != 0 then
     [{ t with lanes := on, count := t.count + 1, one := false, grp := g, st := .join ((lanesOf on).map fun l => (l, f.target l)) rbf }]
   else if rbf then [] else [{ t with lanes := on, count := t.count + 1, one := false, st := .run, grp := 0 }]) ++
  (held.map fun h => { t with lanes := h.1, bc := false, one := false, rid := 2 * h.2 + 1, st := .held h.2 f.len rbf, grp := 0 }) ++
  f.parks.filterMap fun p =>
    let m := p.2 &&& ~~~ (held.foldl (fun m h => m ||| h.1) 0)
    if m == 0 then none
    else some { t with
      lanes := m
      one := f.bc && f.len != 0
      accs := f.accs.filter fun x => hasLane m x.1
      since := p.1.since since
      rid := p.1.run t.rid
      st := .park p.1 f.len rbf f.insn
      grp := if p.1.loose then 0 else g }

/-- The group of a run after an instruction: its own, or a new one where the instruction parks lanes of it and others are done. -/
def Stream.group (t : Stream) (f : Focus) (on : Mask) (new : Nat) : Nat :=
  if t.grp != 0 then t.grp
  else if on != 0 && f.parks.any (fun p => !p.1.loose && p.2 != 0) then new
  else 0

/-- One suspended run none of whose lanes is parked any more goes on, or ends. -/
def Wave.mergeOne (w : Wave) : Wave :=
  let closed (t : Stream) : Bool := match t.st with
    | .join _ _ => !(w.streams.any fun u => u.grp == t.grp && u.waits)
    | _ => false
  match w.streams.find? closed with
  | none => w
  | some t =>
    let mine := w.streams.filter fun u => u.grp == t.grp
    let others := w.streams.filter fun u => u.grp != t.grp
    let lanes := mine.foldl (fun m u => m ||| u.lanes) 0
    let dest := mine.flatMap fun u => match u.st with
      | .join l _ => l
      | _ => []
    let rbf := match t.st with
      | .join _ r => r
      | _ => false
    { w.endRun (if rbf then lanes else 0) with
      pcs := (List.range 32).map fun l => match dest.find? fun x => x.1 == l with
        | some x => BitVec.ofNat 57 x.2
        | none => listGet 0 w.pcs l
      streams := (if rbf then [] else
        [{ t with lanes := lanes, lwr := mine.foldl (fun m u => m ||| u.lwr) 0, st := .run, grp := 0 }]) ++ others }

def Wave.mergeRuns (w : Wave) : Wave := iterate Wave.mergeOne w.streams.length w

/-- Lanes that a run which goes on has kept waiting. -/
def Wave.joining (w : Wave) : Mask :=
  w.streams.foldl (fun m t => match t.st with | .join _ _ => m ||| t.lanes | _ => m) 0

/-- The latches that an instruction names are written for every lane of the part that holds the run (R164). -/
def Stream.mark (t old : Stream) (marks : BitVec 4) : Stream :=
  if old.rid != 0 && t.rid == old.rid then { t with lwr := t.lwr ||| marks } else t

/-- What an instruction leaves of a wave (R37, R42, R46): lanes `p` park, lanes under `held` keep the run, the rest go on
(DEDUCED, log entry 11). A run that ends loses its latches (R7). The sequential step wraps at the top of the address space (DESIGN CHOICE, log entry 65). -/
def Wave.advance (w : Wave) (f : Focus) (rbf : Bool) (marks : BitVec 4) (held : List (Mask × Nat)) (p : Mask) (new : Nat) : Wave :=
  let h := held.foldl (fun m x => m ||| x.1) 0
  let on := f.lanes &&& ~~~ h &&& ~~~ p &&& ~~~ w.ended
  let old := (w.streams.find? fun t => t.lanes &&& f.lanes != 0).getD ⟨f.lanes, 0, 0, f.lead, .run, 0, false, 0, [], none⟩
  let old := { old with lwr := old.lwr ||| marks }
  let before := w.joining
  let g := old.group f on new
  let rest := (w.streams.filter fun (t : Stream) => t.lanes &&& f.lanes == 0).map fun t => t.mark old marks
  let w : Wave := { w.endRun ((if rbf && g == 0 then on else 0) ||| (f.lanes &&& w.ended)) with
    pcs := (List.range 32).map fun l => if hasLane on l && g == 0 then BitVec.ofNat 57 (f.target l) else listGet 0 w.pcs l
    streams := old.split f rbf held on g ++ rest }
  let w := w.mergeRuns
  w.retarget f ((on ||| before) &&& ~~~ w.joining)

/-- The end of an instruction of a wave: its faults become records, its lanes go on, park or are held, and the grant ends
with the run. `marks` are the latches the instruction names as destinations (R164). -/
def State.finishWave (s : State) (rbf : Bool) (marks : BitVec 4) : State :=
  let f := s.focus
  match f.unit with
  | .wave core slot =>
    if f.gone then { s.forget f.accs with focus := Focus.idle }
    else
      let (s, held) := s.takeFaults f.holds
      let h := held.foldl (fun m x => m ||| x.1) 0
      let p := f.parks.foldl (fun m x => m ||| x.2) 0
      let (new, s) := if p == 0 then (0, s) else s.newId
      let before := (s.wave? core slot).elim 0 Wave.joining
      let s := s.modWave core slot fun w => w.advance f rbf marks held p new
      let back := before &&& ~~~ (s.wave? core slot).elim 0 Wave.joining
      let s := s.modCore core fun c => { c with
        grants := c.grants.map fun g => match g with
          | some x => if x.slot == slot then some { x with lanes := (x.lanes &&& ~~~ (h ||| p)) ||| back } else g
          | none => none }
      let s := { s.forget (f.accs.filter fun x => !hasLane (p &&& ~~~ h) x.1) with focus := Focus.idle }
      let s := match s.wave? core slot with
        | some w => if w.ended == fullMask then s.reap core w.uid else s
        | none => s
      s.endGrant core slot true
  | _ => { s with focus := Focus.idle }

/-! ## After an instruction of a transfer processor (R317, R334) -/

/-- The loop stack and the next offset. -/
def loopStep : Nat → List Loop → Nat → List Loop × Nat
  | 0, l, x => (l, x)
  | n + 1, l, x =>
    match l with
    | [] => ([], x)
    | t :: ls =>
      if x == t.stop then
        if t.rem > 1 then ({ t with rem := t.rem - 1 } :: ls, t.start) else loopStep n ls x
      else if x < t.start || x > t.stop then loopStep n ls x
      else (l, x)

/-- A fault stops the transfer processor (R334): state, kind and cause, and the record; it is parked until the ring has room for that (R361). -/
def State.xpStop (s : State) (i x kind cause pc addr info : Nat) (insn : BitVec 128) (recCause : Nat) : State :=
  let s := s.modXp i x fun p => { p with st := .stopped, quit := false, pc := pc, kind := kind, cause := cause % 2 ^ 14 }
  let (s, id) := s.xpRecord i x kind recCause s.focus.pc addr insn info 0
  if s.recs.any fun r => r.id == id && r.pending then s.modXp i x fun p => { p with st := .parked (.record id) } else s

/-- The end of an instruction of a transfer processor, which leaves the d registers `old` where it faults (R334). One whose launch has left its
core halts here (R333). -/
def State.finishXp (s : State) (old : Map Word) : State :=
  let f := s.focus
  let s := match f.unit with
    | .xp i x =>
      match f.holds with
      | h :: _ =>
        let brk := h.kind == 0x0A
        (s.modXp i x fun p => { p with d := old }).xpStop i x h.kind (if brk then h.info else h.cause) (if brk then f.pc + 8 else f.pc)
          h.addr h.info f.insn (if brk then 0 else h.cause)
      | [] =>
        match f.parks with
        | (c, _) :: _ => s.modXp i x fun p => { p with st := .parked c }
        | [] =>
          match (s.xp i x).st with
          | .halted => s.modXp i x fun p => { p with quit := false }
          | _ =>
            let next := f.target 0
            let (ls, next) := loopStep 5 (s.xp i x).loops next
            if next > 16383 then (s.modXp i x fun p => { p with d := old }).xpStop i x 2 1 f.pc 0 0 f.insn 1
            else s.modXp i x fun p => { p with pc := next, loops := ls, st := if p.quit then .halted else .running, quit := false }
    | _ => s
  { s.forget (if f.parks.isEmpty then f.accs else []) with focus := Focus.idle }

/-! ## Meanings -/

/-- The Active lanes (R177): those that execute the instruction and whose guard holds. -/
def State.active (s : State) (g : Guard) : Mask :=
  let p := s.w.pred g.pred.toNat
  s.focus.lanes &&& (if g.neg then ~~~ p else p)

/-- An instruction that only a wave executes. -/
def State.onWave (s : State) (rbf : Bool) (marks : BitVec 4) (body : State → State) : Host.Outcome State Fault Refusal :=
  match s.focus.unit with
  | .wave _ _ => .next ((body s).finishWave rbf marks)
  | .xp _ _ => .fault .wrongUnit
  | .none => .fault .noExecutor

/-- An instruction that only a transfer processor executes. -/
def State.onXp (s : State) (body : State → State) : Host.Outcome State Fault Refusal :=
  match s.focus.unit with
  | .xp _ _ => .next ((body s).finishXp s.x.d)
  | .wave _ _ => .fault .wrongUnit
  | .none => .fault .noExecutor

/-- An instruction that both execute; a transfer processor on which it faults keeps the registers `old`. -/
def State.onBothFrom (s : State) (old : Map Word) (rbf : Bool) (marks : BitVec 4) (wave xp : State → State) :
    Host.Outcome State Fault Refusal :=
  match s.focus.unit with
  | .wave _ _ => .next ((wave s).finishWave rbf marks)
  | .xp _ _ => .next ((xp s).finishXp old)
  | .none => .fault .noExecutor

/-- An instruction that both execute: one that faults on a transfer processor changes no register (R334). -/
def State.onBoth (s : State) (rbf : Bool) (marks : BitVec 4) (wave xp : State → State) : Host.Outcome State Fault Refusal :=
  s.onBothFrom s.x.d rbf marks wave xp

/-! ## Fetch and decode (R39, R157, R158, R174, R175) -/

def addrBlock (pc : Nat) : Nat := pc / 32 * 32

/-- The 32-byte fetch block that a wave reads: the content now, or the one it was first read with (R39; DEDUCED, log entry 9). -/
def State.codeBlock (s : State) (lid pa : Nat) (now : List Byte) : State × List Byte :=
  match s.code.find? fun x => x.1 == lid && x.2.1 == pa with
  | none => ({ s with code := s.code ++ [(lid, pa, now)] }, now)
  | some x =>
    if x.2.2 == now then (s, now)
    else
      let (old, s) := s.draw
      (s, if old then x.2.2 else now)

/-- What fetching comes to: a word (from the program counter to the end of its block), a held fault, or a park. -/
inductive Fetch where
  | word (w : BitVec 128)
  | hold (kind cause : Nat)
  | park (c : ParkCond)
deriving DecidableEq, Repr

/-- The word at an offset of a block. What would lie in the next block, of which nothing is read, is 0 (DESIGN CHOICE, log entry 78). -/
def blockWord (bs : List Byte) (off : Nat) : BitVec 128 := BitVec.ofNat 128 (ofBytes ((bs.drop off).take 16))

/-- The word that a wave takes from a block of an address that has been read. -/
def State.codeWord (s : State) (w : Wave) (pa pc : Nat) (now : List Byte) : State × Fetch :=
  if w.handler.isSome then (s, .word (blockWord now (pc % 32)))
  else
    let (s, bs) := s.codeBlock w.lid pa now
    (s, .word (blockWord bs (pc % 32)))

/-- The read of a block in the external window that a run has waited for (R384): its flow and number, and the address of the block. -/
def Stream.fetching (t : Stream) : Option (Nat × Nat × Nat) :=
  match t.st with
  | .resume (.answers ((_, f, q, pa) :: _)) 0 _ _ => some (f, q, pa)
  | _ => none

/-- Read the instruction of a run, or raise what its fetch meets on every lane of it (R39; DEDUCED, log entry 15). A block in the external
window is read as a load is (R71, R384, R388). -/
def State.fetchWave (s : State) (core : Nat) (w : Wave) (t : Stream) (pc : Nat) : State × Fetch :=
  match t.fetching with
  | some (f, q, pa) =>
    let s' := s.forget [(0, f, q, 0)]
    match s.answer f q with
    | some (some (.done d)) => s'.codeWord w pa pc (toBytes 32 (joinDWords d))
    | _ => (s', .hold 5 4)
  | none =>
    match s.reach core w.aslot pc .fetch with
    | (s, .fault k c) => (s, .hold k c)
    | (s, .park c) => (s, .park c)
    | (s, .ok a) =>
      let pa := addrBlock a.pa
      if isExt a.pa then
        match s.issue core 0 w.aslot (.new .load w.uid 0 (lowLane t.lanes) t.lanes (addrBlock pc) pa (.load 32) false true noEvent) with
        | (s, .sent f q) => (s, .park (.answers [(lowLane t.lanes, f, q, pa)]))
        | (s, .full f) => (s, .park (.flowRoom f))
        | (s, .bad) => (s, .hold 5 4)
      else if s.poisoned a.pa then (s, .hold 0x27 0)
      else
        let s := (s.tokRead core w.aslot pc a).combine a.pa
        s.codeWord w pa pc (rdBytes s.mem pa 32)

/-- The word of the next instruction of a run: an instruction that has parked has been fetched and executes again as it is (R46; DEDUCED, log
entry 15). -/
def State.nextWord (s : State) (core : Nat) (w : Wave) (t : Stream) (pc : Nat) : State × Fetch :=
  match t.st with
  | .resume _ n _ i => if n == 0 then s.fetchWave core w t pc else (s, .word i)
  | _ => s.fetchWave core w t pc

/-- Decode for the wave's run (R42, R47, R49). -/
def Wave.decCtx (w : Wave) (t : Stream) (pc : Nat) : DecCtx := ⟨.core, pc % 32, decide (t.count ≥ 24), w.d, t.lwr, w.priv⟩

def wordLen (w : BitVec 128) : Nat := lenBytes (w.extractLsb' 0 2)

/-- The word of the instruction alone. The length code 0b11 has length 0, so its word is 0 and code 2 adds 0 to the counter (DESIGN CHOICE, log
entry 78). -/
def ownWord (w : BitVec 128) : BitVec 128 := BitVec.ofNat 128 (w.toNat % 2 ^ (8 * wordLen w))

/-- The focus of the next run of a granted wave. -/
def Stream.focus (t : Stream) (core slot pc : Nat) (word : BitVec 128) : Focus where
  unit := .wave core slot
  lanes := t.lanes
  bc := t.bc || t.one
  lead := t.bc
  pc := pc
  len := wordLen word
  insn := ownWord word
  resume := match t.st with | .resume c n _ _ => if n == 0 then none else some c | _ => none
  parks := []
  taken := []
  holds := []
  joined := 0
  gone := false
  accs := t.accs
  since := t.since

/-- The next instruction of a granted wave: ready to execute (with the instruction), or the step is over because the fetch or
the decode has faulted or parked. -/
def State.nextWave (s : State) (core slot : Nat) (g : Grant) : State × Option Instr :=
  match s.wave? core slot with
  | none => (s, none)
  | some w =>
    match w.streams.find? (Stream.going g) with
    | none => (s.endGrant core slot false, none)
    | some t =>
      if s.recordWaits w.uid then (s.endGrant core slot false, none) else
      let stale := match t.st with | .resume c _ _ _ => !s.parkOver core w t.lanes c | _ => false
      if stale then
        -- the condition no longer holds: the run stays suspended
        let back (u : Stream) : Stream := match u.st with
          | .resume c n r i => if u.lanes == t.lanes then { u with st := .park c n r i } else u
          | _ => u
        ((s.modWave core slot fun w => { w with streams := w.streams.map back }).endGrant core slot false, none)
      else
        let pc := w.pc (lowLane t.lanes)
        match s.nextWord core w t pc with
        | (s, .hold k c) =>
          let s := { s with focus := { t.focus core slot pc 0 with len := 0 } }
          ((s.hold t.lanes k c pc 0).finishWave false 0, none)
        | (s, .park c) =>
          let s := { s with focus := { t.focus core slot pc 0 with len := 0 } }
          ((s.parkOn t.lanes c).finishWave false 0, none)
        | (s, .word x) =>
          let s := { s with focus := t.focus core slot pc x }
          match decodeWord (w.decCtx t pc) x with
          | .ok e => (s.modWave core slot fun w => { w with ran := true }, some e.instr)
          | .error c => ((s.hold t.lanes 1 c 0 0).finishWave (x.getLsbD 2) 0, none)

/-- The next instruction of a running transfer processor. -/
def State.nextXp (s : State) (i x : Nat) : State × Option Instr :=
  let p := s.xp i x
  let go := match p.st with
    | .running => some none
    | .parked c => if s.xpOver i x c then some (some c) else none
    | _ => none
  if (s.core i).disabled || (s.core i).gated then (s, none)
  else
    match go with
    | none => (s, none)
    | some c =>
      let word := blockWord (rdBytes p.store (addrBlock p.pc) 32) (p.pc % 32)
      let accs := match c with
        | some (.answers l) => l
        | _ => []
      let s : State := { s with focus := ⟨.xp i x, 1, false, false, p.pc, wordLen word, ownWord word, c, [], [], [], 0, false, accs, none⟩ }
      match decodeWord ⟨.xp, p.pc, false, 256, 15, false⟩ word with
      | .ok e => (s, some e.instr)
      | .error c => ((s.hold 1 1 c 0 0).finishXp p.d, none)

end Sys2Proof.Machine
end

