-- ==== Sys2Proof/Machine/Operands.lean ====
section
/-! DEFINITION. Operand forms (R162 to R166, R203, R204, R259, R260): reading sources, writing results, the lanes that one
execution reads and writes under the uniform bit, and the shapes in which an instruction runs. Values are numbers
below 2^32, or 2^64 where an operand is a pair. -/

namespace Sys2Proof.Machine
open Sys2Proof

/-! ## Sources -/

/-- A register or latch of a lane (R162); a pair where the operand is `wide` (R163). -/
def Wave.src (w : Wave) (wide : Bool) (x : Src) (l : Nat) : Nat :=
  match x, wide with
  | .reg n, false => (w.vreg n.toNat l).toNat
  | .reg n, true => (w.vpair n.toNat l).toNat
  | .latch t, false => (w.latch t.toNat l).toNat
  | .latch t, true => (joinWords (w.latch t.toNat l) (w.latch (t.toNat + 1) l)).toNat

/-- A scalar register, or pair. -/
def Wave.scal (w : Wave) (wide : Bool) (n : SReg) : Nat :=
  if wide then (w.spair n.toNat).toNat else (w.sreg n.toNat).toNat

def Wave.bsrc (w : Wave) (wide : Bool) (x : BSrc) (l : Nat) : Nat :=
  match x with
  | .vec y => w.src wide y l
  | .scal n => w.scal wide n

/-- A scalar register of a wave, a d register of a transfer processor (R204). -/
def State.scal (s : State) (wide : Bool) (n : SReg) : Nat :=
  if wide then (s.spair n.toNat).toNat else (s.sreg n.toNat).toNat

def State.setScal (s : State) (wide : Bool) (n : SReg) (x : Nat) : State :=
  if wide then s.setS64 n.toNat (BitVec.ofNat 64 x) else s.setS n.toNat (BitVec.ofNat 32 x)

/-! ## Results (R164) -/

/-- Write a result of one lane to the latch and the register that the destination names. -/
def Wave.writeResult (w : Wave) (d : Dst) (wide : Bool) (l : Nat) (x : Nat) : Wave :=
  let lo := BitVec.ofNat 32 x
  let hi := BitVec.ofNat 32 (x / 2 ^ 32)
  let w := match d.latch with
    | none => w
    | some t => if wide then (w.setT t.toNat l lo).setT (t.toNat + 1) l hi else w.setT t.toNat l lo
  match d.reg with
  | none => w
  | some n => if wide then (w.setV n.toNat l lo).setV (n.toNat + 1) l hi else w.setV n.toNat l lo

/-- Write one result to every lane of a mask. -/
def Wave.writeLanes (w : Wave) (d : Dst) (wide : Bool) (m : Mask) (x : Nat) : Wave :=
  (lanesOf m).foldl (fun w l => w.writeResult d wide l x) w

def State.writeLanes (s : State) (d : Dst) (wide : Bool) (m : Mask) (x : Nat) : State :=
  s.modW fun w => w.writeLanes d wide m x

/-- The latches that an instruction marks written (R164). -/
def dstMarks (d : Dst) (wide : Bool) : BitVec 4 :=
  match d.latch with
  | none => 0
  | some t => if wide then BitVec.ofNat 4 (3 * 2 ^ t.toNat) else BitVec.ofNat 4 (2 ^ t.toNat)

/-! ## Who executes (R48, R166, R203) -/

/-- The executions of a per-lane instruction: the lane whose operands each reads, and the lanes that each writes. Under the
uniform bit the broadcast group executes once; every other run is one lane alone. -/
def groupsOf (uni bc : Bool) (act : Mask) : List (Nat × Mask) :=
  if uni && bc then (if act == 0 then [] else [(lowLane act, act)])
  else (lanesOf act).map fun l => (l, laneMask l)

def State.groups (s : State) (g : Guard) (uni : Bool) : List (Nat × Mask) := groupsOf uni s.focus.bc (s.active g)

/-- Every execution reads its operands; then the results are written (R165). -/
def State.perLane (s : State) (g : Guard) (uni : Bool) (d : Dst) (wide : Bool) (f : Nat → Nat) : State :=
  let rs := (s.groups g uni).map fun x => (x.2, f x.1)
  s.modW fun w => rs.foldl (fun w r => w.writeLanes d wide r.1 r.2) w

/-- A scalar instruction executes once when any lane is Active (R203). -/
def State.scalar (s : State) (g : Guard) (f : State → State) : State := if s.active g == 0 then s else f s

/-- Thread the state through the executions in ascending lane order (R176). -/
def State.eachGroup (s : State) (g : Guard) (uni : Bool) (f : State → Nat → Mask → State) : State :=
  (s.groups g uni).foldl (fun s x => f s x.1 x.2) s

/-! ## The general forms (R203) -/

/-- One source; `wd` and `wa` say which operands are pairs. -/
def State.gen1 (s : State) (c : Ctl) (wd wa : Bool) (o : Gen1) (f : Nat → Nat) : Host.Outcome State Fault Refusal :=
  match o with
  | .vec uni d a => s.onWave c.rbf (dstMarks d wd) fun s => s.perLane c.guard uni d wd fun l => f (s.w.src wa a l)
  | .scal d a =>
    let body (s : State) : State := s.scalar c.guard fun s => s.setScal wd d (f (s.scal wa a))
    s.onBoth c.rbf 0 body body

def State.gen2 (s : State) (c : Ctl) (wd wa wb : Bool) (o : Gen2) (f : Nat → Nat → Nat) :
    Host.Outcome State Fault Refusal :=
  match o with
  | .vec uni d a b => s.onWave c.rbf (dstMarks d wd) fun s =>
      s.perLane c.guard uni d wd fun l => f (s.w.src wa a l) (s.w.bsrc wb b l)
  | .scal d a b =>
    let body (s : State) : State := s.scalar c.guard fun s => s.setScal wd d (f (s.scal wa a) (s.scal wb b))
    s.onBoth c.rbf 0 body body

def State.gen3 (s : State) (c : Ctl) (w : Bool) (o : Gen3) (f : Nat → Nat → Nat → Nat) :
    Host.Outcome State Fault Refusal :=
  match o with
  | .vec uni d a b e => s.onWave c.rbf (dstMarks d w) fun s =>
      s.perLane c.guard uni d w fun l => f (s.w.src w a l) (s.w.bsrc w b l) (s.w.src w e l)
  | .scal d a b e =>
    let body (s : State) : State := s.scalar c.guard fun s => s.setScal w d (f (s.scal w a) (s.scal w b) (s.scal w e))
    s.onBoth c.rbf 0 body body

def State.genM (s : State) (c : Ctl) (w : Bool) (o : GenM) (f : Nat → Nat) : Host.Outcome State Fault Refusal :=
  match o with
  | .vec uni d b => s.onWave c.rbf (dstMarks d w) fun s => s.perLane c.guard uni d w fun l => f (s.w.bsrc w b l)
  | .scal d b =>
    let body (s : State) : State := s.scalar c.guard fun s => s.setScal w d (f (s.scal w b))
    s.onBoth c.rbf 0 body body

def State.gen0 (s : State) (c : Ctl) (w : Bool) (o : Gen0) (x : Nat) : Host.Outcome State Fault Refusal :=
  match o with
  | .vec uni d => s.onWave c.rbf (dstMarks d w) fun s => s.perLane c.guard uni d w fun _ => x
  | .scal d =>
    let body (s : State) : State := s.scalar c.guard fun s => s.setScal w d x
    s.onBoth c.rbf 0 body body

/-- A per-lane instruction of waves with one result. -/
def State.vec (s : State) (c : Ctl) (uni : Bool) (d : Dst) (wide : Bool) (f : State → Nat → Nat) :
    Host.Outcome State Fault Refusal :=
  s.onWave c.rbf (dstMarks d wide) fun s => s.perLane c.guard uni d wide (f s)

/-- An instruction of waves that executes once. -/
def State.once (s : State) (c : Ctl) (f : State → State) : Host.Outcome State Fault Refusal :=
  s.onWave c.rbf 0 fun s => s.scalar c.guard f

/-- An instruction that R347 names faults on its Active lanes in commit mode. -/
def State.plainOnly (s : State) (g : Guard) (f : State → State) : State :=
  if s.w.commit && s.active g != 0 then s.hold (s.active g) 0x21 0 0 0 else f s

/-- The same for one that executes once. -/
def State.oncePlain (s : State) (c : Ctl) (f : State → State) : Host.Outcome State Fault Refusal :=
  s.once c fun s => s.plainOnly c.guard f

/-! ## Addresses (R259, R260) -/

/-- A 24-bit byte offset, sign-extended. -/
def off24 (x : BitVec 24) : Int := x.toInt

/-- GAddr (R260): base, index times scale, offset, modulo 2^64. -/
def Wave.gaddr (w : Wave) (base : ABase) (idx : Option Src) (scale : Nat) (off : BitVec 24) (l : Nat) : Nat :=
  let b := match base with
    | .vec x => w.src true x l
    | .scal n => w.scal true n
  let i := match idx with
    | some x => sextN 32 (w.src false x l) * scale
    | none => 0
  wrapN 64 ((b : Int) + i + off24 off)

/-- The address of a scalar form. -/
def State.saddr (s : State) (base : SReg) (off : BitVec 24) : Nat := wrapN 64 ((s.scal true base : Int) + off24 off)

/-- SOff (R260). -/
def Wave.soff (w : Wave) (a : Src) (off : BitVec 24) (l : Nat) : Nat := wrapN 32 ((w.src false a l : Int) + off24 off)

/-- Bytes of an access (R259). -/
def szBytes (x : Sz) : Nat :=
  match x with
  | .b8 | .b8s => 1
  | .b16 | .b16s => 2
  | .b32 => 4
  | .b64 => 8

def stBytes (x : StSz) : Nat :=
  match x with
  | .b8 => 1
  | .b16 => 2
  | .b32 => 4
  | .b64 => 8

def szWide (x : Sz) : Bool := x == .b64

/-- A loaded value, extended (R259). -/
def szExtend (x : Sz) (v : Nat) : Nat :=
  match x with
  | .b8s => wrapN 32 (sextN 8 v)
  | .b16s => wrapN 32 (sextN 16 v)
  | _ => v

end Sys2Proof.Machine
end

