-- ==== Sys2Proof/Machine/Flags.lean ====
section
/-! DEFINITION. Conditions and predicates. The part keeps no flags: an integer or floating-point instruction leaves nothing
beside its result (R217, R153), and what a comparison yields is a predicate of each lane (R7, R229, R244). -/

namespace Sys2Proof.Machine
open Sys2Proof

/-- The integer conditions on W-bit values (R229). -/
def icondHolds (c : ICond) (n a b : Nat) : Bool :=
  match c with
  | .eq => a == b
  | .ne => a != b
  | .lt => decide (sextN n a < sextN n b)
  | .le => decide (sextN n a ≤ sextN n b)
  | .gt => decide (sextN n b < sextN n a)
  | .ge => decide (sextN n b ≤ sextN n a)
  | .ltu => decide (a < b)
  | .leu => decide (a ≤ b)
  | .gtu => decide (b < a)
  | .geu => decide (b ≤ a)

def wbits (w : Bool) : Nat := if w then 64 else 32

/-- Write one predicate of each lane of a mask; a write to p15 is discarded (R7). -/
def State.setPreds (s : State) (p : Nat) (m : Mask) (f : Nat → Bool) : State :=
  s.modW fun w => (lanesOf m).foldl (fun w l => w.setP p l (f l)) w

/-- The lanes of a mask whose predicate holds. -/
def Wave.predOf (w : Wave) (p : BitVec 4) (l : Nat) : Bool := hasLane (w.pred p.toNat) l

/-- What a comparison yields on each lane: its own result, or the one of the scalar form. -/
def State.cmp2 (s : State) (wide : Bool) (o : Cmp2) (f : Nat → Nat → Bool) (l : Nat) : Bool :=
  match o with
  | .vec a b => f (s.w.src wide a l) (s.w.bsrc wide b l)
  | .scal a b => f (s.scal wide a) (s.scal wide b)

def State.cmp1 (s : State) (wide : Bool) (o : Cmp1) (l : Nat) : Nat :=
  match o with
  | .vec a => s.w.src wide a l
  | .scal a => s.scal wide a

end Sys2Proof.Machine
end

