-- ==== Sys2Proof/Machine/Memory.lean ====
section
/-! DEFINITION. Loads, stores, contributions, atomics, the scratchpad, prefetch, fences and `mwait` (R258 to R269, R276,
R283). -/

namespace Sys2Proof.Machine
open Sys2Proof

/-! ## Global memory (R263, R264, R267) -/

/-- `ld` (R263). -/
def execLd (c : Ctl) (sz : Sz) (m : MAttr) (o : LdOps) (off : BitVec 24) (s : State) : Host.Outcome State Fault Refusal :=
  match o with
  | .vec uni d base idx =>
    s.onWave c.rbf (dstMarks d (szWide sz)) fun s =>
      s.eachGroup c.guard uni fun s l k =>
        let va := s.w.gaddr base idx (szBytes sz) off l
        let (s, r) := s.loadLane l k va (szBytes sz) false true true m.scope
        s.deliver k va false r fun s v => s.writeLanes d (szWide sz) k (szExtend sz v)
  | .scal d base =>
    let body (s : State) : State :=
      s.scalar c.guard fun s =>
        let act := s.active c.guard
        let va := s.saddr base off
        let (s, r) := s.loadLane (lowLane act) act va (szBytes sz) false true true m.scope
        s.deliver act va false r fun s v => s.setScal (szWide sz) d (szExtend sz v)
    s.onBoth c.rbf 0 body body

/-- The bytes that a store writes (R264). -/
def lowBytes (n x : Nat) : List Byte := toBytes n x

/-- Run a store of either form behind a check: `f` performs it, for a count of events, a lane, the lanes it stands for, an address and a
value. -/
def State.storeForm (s : State) (c : Ctl) (wide : Bool) (size : Nat) (o : StOps) (off : BitVec 24)
    (gate : State → (State → State) → State) (f : State → Nat → Nat → Mask → Nat → Nat → State × LaneRes) :
    Host.Outcome State Fault Refusal :=
  s.onWave c.rbf 0 fun s => gate s fun s =>
    match o with
    | .vec uni base idx data =>
      s.eachGroup c.guard uni fun s l k =>
        let va := s.w.gaddr base idx size off l
        let (s, r) := f s (lanesOf k).length l k va (s.w.src wide data l)
        s.deliver k va false r fun s _ => s
    | .scal base data =>
      s.scalar c.guard fun s =>
        let act := s.active c.guard
        let va := s.saddr base off
        let (s, r) := f s 1 (lowLane act) act va (s.scal wide data)
        s.deliver act va false r fun s _ => s

/-- `st` (R264): the lanes of a release wait together, so that the highest lane's byte still lands last. -/
def execSt (c : Ctl) (sz : StSz) (m : MAttr) (o : StOps) (off : BitVec 24) (s : State) :
    Host.Outcome State Fault Refusal :=
  s.storeForm c (sz == .b64) (stBytes sz) o off (fun s f => s.relGate m.ord (s.active c.guard) f) fun s ev l k va x =>
    s.storeLane ev l k va (lowBytes (stBytes sz) x) m.ord m.scope

/-- `st.cr` (R264, R94). -/
def execStCr (c : Ctl) (w : Bool) (m : MAttr) (o : StOps) (off : BitVec 24) (s : State) :
    Host.Outcome State Fault Refusal :=
  s.storeForm c w (if w then 8 else 4) o off (fun s f => s.plainOnly c.guard fun s => s.relGate m.ord (s.active c.guard) f) fun s ev l k va x =>
    s.contribLane ev l k va w x m.ord m.scope

/-- `atom` (R267): lanes in ascending order, each one event; those of a release wait together. -/
def execAtom (c : Ctl) (uni : Bool) (op : AtomOp) (w : Bool) (m : MAttr) (d : Dst) (base : ABase) (b e : Src)
    (off : BitVec 24) (s : State) : Host.Outcome State Fault Refusal :=
  s.onWave c.rbf (dstMarks d w) fun s => s.plainOnly c.guard fun s => s.relGate m.ord (s.active c.guard) fun s =>
    s.eachGroup c.guard uni fun s l k =>
      let va := s.w.gaddr base none 1 off l
      let cmp := match op with
        | .cas => s.w.src w e l
        | _ => 0
      let (s, r) := s.atomLane (lanesOf k).length l k va op w (s.w.src w b l) cmp d m.ord m.scope
      s.deliver k va (d.reg.isSome || d.latch.isSome) r fun s v => s.writeLanes d w k v

/-! ## Scratchpad (R80 to R84, R265, R266) -/

/-- The launch of the unit in execution; a handler wave has none. -/
def State.curLid (s : State) : Option Nat :=
  match s.focus.unit with
  | .wave _ _ => if s.w.handler.isSome then none else some s.w.lid
  | .xp _ _ => s.x.bind.lid
  | .none => none

/-- The physical scratchpad byte of an offset in the launch's allocation on a core (R80, R84); the fault's kind where there is
none. -/
def State.spadByte (s : State) (core off size : Nat) (bad : Bool) : Except Nat Nat :=
  if off % size != 0 then .error 3
  else if bad then .error 4
  else
    match s.curLid.bind (s.core core).alloc with
    | none => .error 4
    | some a => if off + size ≤ 128 * a.lines then .ok (128 * a.base + off) else .error 4

/-- The target core of `ldc` and `stc` (R260): the core, and whether its operand is out of form. -/
def State.target (s : State) (x : Option BSrc) (l : Nat) : Nat × Bool :=
  match x with
  | none => (s.cur, false)
  | some b =>
    let v := s.w.bsrc false b l
    (coreOfCluster (coreCluster s.cur) (v % 64), decide (64 ≤ v))

/-- One lane's scratchpad operand: lane, lanes, target core, offset, and where it lies. -/
structure SpadOp where
  lane  : Nat
  lanes : Mask
  core  : Nat
  off   : Nat
  loc   : Except Nat Nat

def State.spadOp (s : State) (a : Src) (core : Option BSrc) (off : BitVec 24) (size l : Nat) (k : Mask) : SpadOp :=
  let o := s.w.soff a off l
  let t := s.target core l
  ⟨l, k, t.1, o, s.spadByte t.1 o size t.2⟩

/-- The executions that are served together: the broadcast group's lanes, or one diverged lane (R36, R81). -/
def State.spadSets (s : State) (g : Guard) (uni : Bool) : List (List (Nat × Mask)) :=
  let gs := s.groups g uni
  if s.focus.bc then (if gs.isEmpty then [] else [gs]) else gs.map fun x => [x]

def rdSpad (c : Core) (a n : Nat) : Nat := ofBytes ((List.range n).map fun i => mget 0 c.spad (a + i))

def Core.wrSpad (c : Core) (a : Nat) (bs : List Byte) : Core :=
  { c with spad := ((List.range bs.length).foldl (fun m i => mset 0 m (a + i) (listGet 0 bs i)) c.spad) }

/-- Set or clear a line's presence bit (R82). -/
def Core.setPresent (c : Core) (line : Nat) (b : Bool) : Core :=
  { c with absent := if b then c.absent.filter (· != line) else if c.absent.contains line then c.absent else line :: c.absent }

def State.holdSpad (s : State) (m : Mask) (kind : Nat) : State := s.hold m kind 0 0 0

/-- The place in the order of arrival of a consuming load: the one that it has waited in, or a new one (R83). -/
def State.arrival (s : State) : Nat × State :=
  match s.focus.resume with
  | some (.consume _ n) => (n, s)
  | _ => s.newId

/-- One scratchpad load: faulting lanes are held; the others park while a line that they name is absent, else read (R83).
Under `.pclr` every lane must name the line of the lowest (R266), and loads that arrived earlier are served first (R83). -/
def State.spadLoad (s : State) (gs : List (Nat × Mask)) (sz : Sz) (pclr : Bool) (d : Dst) (a : Src) (core : Option BSrc)
    (off : BitVec 24) : State :=
  let ops := gs.map fun x => s.spadOp a core off (szBytes sz) x.1 x.2
  let one := ops.head?
  let judge (o : SpadOp) : Except Nat Nat :=
    match o.loc, one with
    | .ok p, some f => if pclr && (o.off / 128 != f.off / 128 || o.core != f.core) then .error 4 else .ok p
    | x, _ => x
  let s := ops.foldl (fun s o => match judge o with
    | .error k => s.holdSpad o.lanes k
    | .ok _ => s) s
  let good := ops.filterMap fun o => match judge o with
    | .ok p => some (o, p)
    | .error _ => none
  let lines := dedup (good.map fun x => (x.1.core, x.2 / 128))
  let gone := lines.filter fun x => (s.core x.1).absent.contains x.2
  let (n, s) := if pclr && !lines.isEmpty then s.arrival else (0, s)
  if gone.isEmpty && !(pclr && s.servedFirst lines n) then
    let rs := good.map fun x => (x.1.lanes, szExtend sz (rdSpad (s.core x.1.core) x.2 (szBytes sz)))
    let s := s.modW fun w => rs.foldl (fun w r => w.writeLanes d (szWide sz) r.1 r.2) w
    if pclr then good.foldl (fun s x => s.modCore x.1.core fun c => c.setPresent (x.2 / 128) false) s else s
  else s.parkOn (good.foldl (fun m x => m ||| x.1.lanes) 0) (if pclr then .consume lines n else .present gone)

/-- One scratchpad store: lanes in ascending order; never parks on presence (R83, R266). A release comes after the earlier events of its lanes,
which wait together (R81, R108). -/
def State.spadStore (s : State) (gs : List (Nat × Mask)) (sz : StSz) (pset : Bool) (m : MAttr) (a : Src)
    (core : Option BSrc) (data : Src) (off : BitVec 24) : State :=
  let all := gs.foldl (fun n x => n ||| x.2) 0
  let run (s : State) : State := gs.foldl (fun s x =>
    let o := s.spadOp a core off (stBytes sz) x.1 x.2
    match o.loc with
    | .error k => s.holdSpad o.lanes k
    | .ok p =>
      let bs := lowBytes (stBytes sz) (s.w.src (sz == .b64) data x.1)
      let s := s.modCore o.core fun c => c.wrSpad p bs
      let s := if pset then s.modCore o.core fun c => c.setPresent (p / 128) true else s
      s.relEvent m.ord (lanesOf x.2).length) s
  if ordReleases m.ord then s.afterAll all run else run s

/-- `lds` (R265). -/
def execLds (c : Ctl) (uni : Bool) (sz : Sz) (pclr : Bool) (_m : MAttr) (d : Dst) (a : Src) (off : BitVec 24) (s : State) :
    Host.Outcome State Fault Refusal :=
  s.onWave c.rbf (dstMarks d (szWide sz)) fun s =>
    (s.spadSets c.guard uni).foldl (fun s gs => s.spadLoad gs sz pclr d a none off) s

/-- `sts` (R265). -/
def execSts (c : Ctl) (uni : Bool) (sz : StSz) (pset : Bool) (m : MAttr) (a : Src) (data : Src) (off : BitVec 24)
    (s : State) : Host.Outcome State Fault Refusal :=
  s.onWave c.rbf 0 fun s => s.spadStore (s.groups c.guard uni) sz pset m a none data off

/-- `ldc` (R265, R84). -/
def execLdc (c : Ctl) (uni : Bool) (sz : Sz) (pclr : Bool) (_m : MAttr) (d : Dst) (a : Src) (core : BSrc)
    (off : BitVec 24) (s : State) : Host.Outcome State Fault Refusal :=
  s.onWave c.rbf (dstMarks d (szWide sz)) fun s =>
    (s.spadSets c.guard uni).foldl (fun s gs => s.spadLoad gs sz pclr d a (some core) off) s

/-- `stc` (R265, R84). -/
def execStc (c : Ctl) (uni : Bool) (sz : StSz) (pset : Bool) (m : MAttr) (a : Src) (core : BSrc) (data : Src)
    (off : BitVec 24) (s : State) : Host.Outcome State Fault Refusal :=
  s.onWave c.rbf 0 fun s => s.spadStore (s.groups c.guard uni) sz pset m a (some core) data off

/-! ## Prefetch (R276, R102) -/

/-- A speculative access of a kind: one that the L1 answers is not translated (R20); else a read token and the sector, or one more miss. -/
def State.speculate (s : State) (core aslot va : Nat) (k : AKind) (fill : Bool) : State :=
  if va < 2 ^ 57 && (s.l1Hit core aslot va k).isSome then s
  else
    let s := if va < 2 ^ 57 then s.combineTables aslot va else s
    match s.specTrans aslot va k with
    | none => s.modCore core fun c => { c with smiss := c.smiss + 1 }
    | some a => if fill then (s.tokRead core aslot va a).combine a.pa else s

/-- `prefetch` (R276). -/
def execPrefetch (c : Ctl) (uni home : Bool) (_evict : BitVec 3) (base : ABase) (idx : Option Src) (off : BitVec 24)
    (s : State) : Host.Outcome State Fault Refusal :=
  s.onWave c.rbf 0 fun s =>
    s.eachGroup c.guard uni fun s l _ => s.speculate s.cur s.curAslot (s.w.gaddr base idx 1 off l) .load (!home)

/-! ## Fences (R269, R126) -/

/-- Enter one unperformed access in the wave's list (R282); answers the index of its entry, 16 where the list is full. -/
def Wave.enter (w : Wave) (u : Unres) : Wave × Nat :=
  if w.unres.length ≥ 16 then ({ w with more := min (w.more + 1) 0x7FFFFF }, 16)
  else ({ w with unres := w.unres ++ [u] }, w.unres.length)

/-- Report the accesses of some lanes in a scope that ended without being performed; the lanes of each and its index. What other lanes
issued stays for them to report (R106). -/
def State.report (s : State) (lanes : Mask) (c : Scope) : State × List (Mask × Nat) :=
  let hit (x : Mask × Unres) : Bool := x.1 &&& lanes != 0 && farIn c x.2.sys
  let w := s.w
  let left := (w.remErr.map fun x => if hit x then (x.1 &&& ~~~ lanes, x.2) else x).filter fun x => x.1 != 0
  let (w', out) := (w.remErr.filter hit).foldl (fun (acc : Wave × List (Mask × Nat)) x =>
    let (w, i) := acc.1.enter { x.2 with lane := lowLane (x.1 &&& lanes) }
    (w, acc.2 ++ [(x.1 &&& lanes, i)])) ({ w with remErr := left }, [])
  (s.modW fun _ => w', out)

/-- A fault record that holds no lane: dlv 2 (R126, R362). -/
def State.statusRecord (s : State) (lanes : Mask) (kind cause info : Nat) : State :=
  let w := s.w
  (s.raise ⟨w.aslot, s.cur, w.uid, s.curSlot, w.unitNo, s.focus.pc, 0, s.focus.insn, w.stamp, lanes, info, kind, cause, 2, 0,
    none⟩).1

/-- `fence` (R269): waits for the remote accesses of its lanes in its scope; local ones are performed or logged at once. -/
def execFence (c : Ctl) (strict : Bool) (ord : Ord) (scope : Scope) (p : BitVec 4) (s : State) :
    Host.Outcome State Fault Refusal :=
  s.onWave c.rbf 0 fun s =>
    s.scalar c.guard fun s =>
      let act := s.active c.guard
      let wait := s.flows.foldl (fun m f => f.open'.foldl (fun m a =>
        if a.openOf s.w.uid act && farIn scope a.sys then m ||| (a.lanes &&& act) else m) m) 0
      let s := if wait == 0 then s else s.parkOn wait (.fence scope)
      let go := act &&& ~~~ wait
      if go == 0 then s
      else
        let (s, errs) := s.report go scope
        let bad := errs.foldl (fun m x => m ||| x.1) 0
        let idx (l : Nat) : Nat := ((errs.find? fun x => hasLane x.1 l).map (·.2)).getD 16
        let s := if ordReleases ord then s.bump s.waveId 1 else s
        if strict then
          let s := (lanesOf bad).foldl (fun s l => s.hold (laneMask l) 0x16 0 0 (idx l)) s
          s.setPreds p.toNat (go &&& ~~~ bad) fun _ => true
        else
          let s := if bad == 0 then s else s.statusRecord bad 0x16 0 (idx (lowLane bad))
          s.setPreds p.toNat go fun l => !hasLane bad l

/-! ## `mwait` (R268) -/

/-- What `mwait` goes on with: the deadline that its first park set, which stands over every other park of it. -/
def Focus.deadline (f : Focus) : Option (Option Nat) :=
  match f.since with
  | some (.mwait dl) => some dl
  | _ => none

/-- The instruction makes its remote accesses anew. -/
def State.reissue (s : State) : State := (s.forget s.focus.accs).modF fun f => { f with accs := [] }

/-- `mwait` parks until a write performs on the sector of the word, or its limit passes; a word in the external window is read again. -/
def State.watch (s : State) (act : Mask) (va : Nat) (dl : Option Nat) : State :=
  match s.reissue.reach s.cur s.curAslot va .load with
  | (s, .ok a) => s.parkOn act (.mwait a.pa dl (isExt a.pa))
  | (s, .park c) => s.parkOn act c
  | (s, .fault k c) => s.hold act k c va 0

/-- `mwait` (R268): once for the wave. -/
def execMwait (c : Ctl) (w : Bool) (m : MAttr) (d sA sE sT : SReg) (off : BitVec 24) (s : State) :
    Host.Outcome State Fault Refusal :=
  s.oncePlain c fun s =>
    let act := s.active c.guard
    let va := s.saddr sA off
    let n := if w then 8 else 4
    let want := s.scal w sE
    let limit := s.scal false sT
    let dl := s.focus.deadline.getD (if limit == 0 then none else some (s.cyc + 1024 * limit))
    let expired := s.focus.deadline.isSome && dl.elim false fun t => decide (t ≤ s.cyc)
    let (s, r) := s.loadLane (lowLane act) act va n true false false m.scope
    match r with
    | .done v =>
      if v != want || expired then s.setScal w d v else s.watch act va dl
    | .wait x => (s.modF fun f => { f with accs := [x] }).parkOn act (.mpoll x dl)
    | r => s.deliver act va false r fun s _ => s

end Sys2Proof.Machine
end

