-- ==== Sys2Proof/Machine/Blocks.lean ====
section
/-! DEFINITION. Versioned blocks (R96, R97, R270 to R272), sealed regions (R91, R92, R273) and commutative ranges (R93 to R95,
R274, R275). -/

namespace Sys2Proof.Machine
open Sys2Proof

/-! ## Step tags -/

def State.tag (s : State) (pa : Nat) : Nat := (mget 0 s.tags (pa / 65536)).toNat
def State.setTag (s : State) (pa u : Nat) : State := { s with tags := mset 0 s.tags (pa / 65536) (BitVec.ofNat 32 u) }

/-- The silence timeout in µs of the communicator that a register names: 0 where it is not live or not the slot's (R270, R393). -/
def State.silence (s : State) (x : Nat) : Nat :=
  if 256 ≤ x then 0
  else
    match aget s.comms x with
    | some c => if c.aslot == s.curAslot then bitsN c.w1.toNat 55 32 else 0
    | none => 0

/-- The start and limit of a wait that goes on, over whatever else it has parked on, and whether its limit has passed. -/
def Focus.ldvWait (f : Focus) : Option (Nat × Nat × Bool) :=
  match f.since with
  | some (.ldv t0 limit expired) => some (t0, limit, expired)
  | _ => none

/-- A load of some lanes at the home slice (R117). -/
def State.homeLoad (s : State) (lanes : Mask) (va size : Nat) (a : Acc) (scope : Scope) : State × LaneRes :=
  if s.poisoned a.pa then (s, .hold 0x27 0 0)
  else
    match s.raceCheck s.checked s.curAslot s.partyId s.focus.pc lanes va a.pa false false scope with
    | (s, some r) => (s, r)
    | (s, none) =>
      let (s, x) := (s.homeToken a.pa).physLoad a.pa size
      (s, .done x)

/-- `ldv` (R270). -/
def execLdv (c : Ctl) (uni : Bool) (sz : Sz) (m : MAttr) (d : Dst) (base : ABase) (sM sC : SReg) (off : BitVec 24)
    (s : State) : Host.Outcome State Fault Refusal :=
  s.onWave c.rbf (dstMarks d (szWide sz)) fun s =>
    s.eachGroup c.guard uni fun s l k =>
      let va := s.w.gaddr base none 1 off l
      let want := s.scal false sM
      let comm := s.scal false sC
      if s.behind k va (szBytes sz) false then s.parkOn k (.replayed k (va / 32)) else
      match s.gtrans s.cur s.curAslot va (szBytes sz) false .load with
      | (s, .fault kind cause) => s.hold k kind cause va 0
      | (s, .park p) => s.parkOn k p
      | (s, .ok a) =>
        if !a.ver then s.hold k 0x12 0 va 0
        else if isExt a.pa then s.hold k 5 4 va 0
        else if want ≤ s.tag a.pa then
          let (s, r) := s.homeLoad k va (szBytes sz) a m.scope
          s.deliver k va false r fun s v => s.writeLanes d (szWide sz) k (szExtend sz v)
        else
          let (t0, limit, expired) := s.focus.ldvWait.getD (s.us, s.silence comm, false)
          if expired || decide (t0 + limit < s.us) then s.hold k 0x13 0 va (comm % 256)
          else s.parkOn k (.ldv t0 limit false [a.pa] want)

/-! ## Reading a range of bytes -/

/-- The pieces of a range, none of which crosses a sector. -/
def pieces (va n : Nat) : List (Nat × Nat) :=
  (List.range (n / 32 + 2)).filterMap fun i =>
    let lo := max va (va / 32 * 32 + 32 * i)
    let hi := min (va + n) (va / 32 * 32 + 32 * i + 32)
    if lo < hi then some (lo, hi - lo) else none

/-- What reading a range has come to. -/
structure Reading where
  s     : State
  bytes : List (List Byte)        -- newest first
  stop  : Option (Nat × LaneRes)  -- address and outcome that ended it
  waits : List (Nat × Nat × Nat × Nat)
  pts   : List (Nat × Nat × Bool) -- the sectors of bonded DRAM that it has read, for the race detector

/-- What a reading makes of the outcome of one piece: a task sees its own buffered bytes (R345, R347). -/
def Reading.take (r : Reading) (s : State) (x : Nat × Nat) (res : LaneRes) : Reading :=
  match res with
  | .done v => { r with s := s, bytes := toBytes x.2 (s.w.overlay x.1 x.2 v) :: r.bytes }
  | .wait y => { r with s := s, waits := r.waits ++ [y] }
  | y => { r with s := s, stop := some (x.1, y) }

/-- Read one piece for the lanes of a mask. Where a flow is full, the replies of the pieces before it are awaited first. -/
def Reading.piece (lane : Nat) (lanes : Mask) (r : Reading) (x : Nat × Nat) : Reading :=
  let s := r.s
  if r.stop.isSome then r
  else
    match s.replied lane x.1 with
    | some res => r.take s x res
    | none =>
      if s.behind lanes x.1 x.2 false then r.take s x (.park (.replayed lanes (x.1 / 32))) else
      match s.ltrans s.cur s.curAslot x.1 x.2 false .load with
      | (s, .fault k c) => r.take s x (.hold k c 0)
      | (s, .park p) => r.take s x (.park p)
      | (s, .ok a) =>
        if isExt a.pa then
          match s.remote s.flowUnit lane lanes x.1 a.pa .load (.load x.2) false noEvent with
          | (s, .park p) => if r.waits.isEmpty then r.take s x (.park p) else { r with s := s }
          | (s, y) => r.take s x y
        else if s.poisoned a.pa then r.take s x (.hold 0x27 0 0)
        else
          let (s, v) := (s.tokRead s.cur s.curAslot x.1 a).physLoad a.pa x.2
          { r.take s x (.done v) with pts := r.pts ++ [(x.1, a.pa, false)] }

/-- The same of the unit in execution. -/
def State.raceAll (s : State) (lanes : Mask) (pts : List (Nat × Nat × Bool)) (write : Bool) (scope : Scope) : State × Option LaneRes :=
  s.raceEach s.checked s.curAslot s.partyId s.focus.pc lanes pts write scope

/-- Read a range; the continuation gets its bytes. The race detector sees the range as a whole, once it has been read. -/
def State.reading (s : State) (lanes : Mask) (va n : Nat) (k : State → List Byte → State) : State :=
  let r := (pieces va n).foldl (Reading.piece (lowLane lanes) lanes) ⟨s, [], none, [], []⟩
  match r.stop with
  | some (a, res) => r.s.deliver lanes a false res fun s _ => s
  | none =>
    if !r.waits.isEmpty then r.waits.foldl (fun s x => s.await lanes x) r.s
    else
      match r.s.raceAll lanes r.pts false .wv with
      | (s, some res) => s.deliver lanes va false res fun s _ => s
      | (s, none) => k s r.bytes.reverse.flatten

/-! ## Blocks as a whole -/

/-- Every token of the lines of a range goes home, and its partials are combined (R90, R95). -/
def State.homeRange (s : State) (pa n : Nat) : State :=
  let inside (line : Nat) : Bool := decide (pa / 128 ≤ line) && decide (line < (pa + n + 127) / 128)
  let ls := dedup (s.cores.flatMap fun c => (c.2.partials.map fun p => p.pa / 128).filter inside)
  let s := s.mapCores fun _ c => { c with l1 := mdrop inside c.l1 }
  ls.foldl (fun s l => s.combine (l * 128)) s

def State.anySealed (s : State) (pa n : Nat) : Bool :=
  s.sealed.any fun x => decide (pa / 128 ≤ x.1) && decide (x.1 < (pa + n + 127) / 128)

/-- The block that a register pair names, for a load or a store: its physical address (R271, R272). -/
def State.blockAt (s : State) (lanes : Mask) (va : Nat) (k : AKind) (go : State → Nat → State) : State :=
  if 2 ^ 57 ≤ va then s.hold lanes 2 0 va 0
  else if va % 65536 != 0 then s.hold lanes 3 0 va 0
  else
    match s.translate s.cur s.curAslot va k with
    | (s, .fault kind cause) => s.hold lanes kind cause va 0
    | (s, .park p) => s.parkOn lanes p
    | (s, .ok a) =>
      if !a.ver then s.hold lanes 0x12 0 va 0
      else if isExt a.pa then s.hold lanes 5 4 va 0
      else go s a.pa

def vfmtNum (f : VFmt) : NumFmt :=
  match f with
  | .f32 => fF32
  | .bf16 => fBF16
  | .f16 => fF16

/-- A list cut into pieces of `n` bytes, as numbers. -/
def chunks (n : Nat) : Nat → List Byte → List Nat
  | 0, _ => []
  | i + 1, l => ofBytes (l.take n) :: chunks n i (l.drop n)

/-- The new elements of a block (R271). -/
def vupdElems (add : Bool) (f : NumFmt) (rm : RMode) (draw : Nat → Nat) (old src : List Nat) : List Nat :=
  ((List.range old.length).zip (old.zip src)).map fun x =>
    let d := fF32.decode x.2.2
    let v := if add then sumFV rm [f.decode x.2.1, d] else d
    f.round rm (draw x.1) false v

/-- Check the writes of every sector of a range as one access. -/
def State.raceRange (s : State) (lanes : Mask) (va pa n : Nat) (scope : Scope) : State × Option LaneRes :=
  s.raceAll lanes ((List.range (n / 32)).map fun i => (va + 32 * i, pa + 32 * i, true)) true scope

/-- A release that a wave has made once for some lanes: it takes their sequence numbers and counts an interval (R122, R131; DEDUCED, log entries 22
and 52). -/
def State.released (s : State) (lanes : Mask) : State := (s.modW fun w => w.nextSeq lanes).bump s.waveId 1

/-- `vupd` (R271): one indivisible step at the block's home slice, an acquire-release (R117). -/
def execVupd (c : Ctl) (add : Bool) (fmt : VFmt) (rm : RMode) (m : MAttr) (d sB sS sP : SReg) (s : State) :
    Host.Outcome State Fault Refusal :=
  s.oncePlain c fun s =>
    let act := s.active c.guard
    let f := vfmtNum fmt
    let eb := f.width / 8
    let n := 65536 / eb
    let src := s.scal true sS
    let p := sP.toNat
    let reg (i : Nat) : Nat := (s.sreg (p + i)).toNat
    let e := (s.spair (p + 2)).toNat
    let u := reg 4
    s.blockAt act (s.scal true sB) .atomic fun s pa =>
      if s.anySealed pa 65536 then s.hold act 0x10 0 (s.scal true sB) 0
      else s.afterAll act fun s =>
        if u ≤ s.tag pa then (s.setScal false d 0).released act
        else if 2 ^ 57 ≤ src then s.hold act 2 0 src 0
        else if src % 4 != 0 then s.hold act 3 0 src 0
        else s.reading act src (4 * n) fun s bs =>
          match s.raceRange act (s.scal true sB) pa 65536 m.scope with
          | (s, some r) => s.deliver act (s.scal true sB) false r fun s _ => s
          | (s, none) =>
            let s := s.homeRange pa 65536
            let draw (i : Nat) : Nat := drawRound (reg 0) (reg 1) ((e + i) % 2 ^ 64) u
            let new := vupdElems add f rm draw (chunks eb n (rdBytes s.mem pa 65536)) (chunks 4 n bs)
            (((s.wrMem pa (new.flatMap (toBytes eb))).setTag pa u).setScal false d 1).released act

/-- `vstep.rd` (R272). -/
def execVstepRd (c : Ctl) (_m : MAttr) (d sB : SReg) (s : State) : Host.Outcome State Fault Refusal :=
  s.once c fun s =>
    s.blockAt (s.active c.guard) (s.scal true sB) .load fun s pa => s.setScal false d (s.tag pa)

/-- `vstep.set` (R272): a release that needs write permission. -/
def execVstepSet (c : Ctl) (_m : MAttr) (sB sU : SReg) (s : State) : Host.Outcome State Fault Refusal :=
  s.oncePlain c fun s =>
    let act := s.active c.guard
    s.blockAt act (s.scal true sB) .store fun s pa => s.afterAll act fun s =>
      let u := s.scal false sU
      (if s.tag pa < u then s.setTag pa u else s).released act

/-! ## Ranges of lines -/

/-- The pages of a range: for each its part of the range as virtual address, physical address and length; or the first fault,
else the first page that parks the instruction (R273). An outbound page is accepted. -/
def State.rangePages (s : State) (lanes : Mask) (base len : Nat) (go : State → List (Nat × Nat × Nat) → State) : State :=
  let n := (base + len - 1) / 65536 - base / 65536 + 1
  let r := (List.range n).foldl (fun (acc : State × Option (Nat × Nat × Nat) × Option ParkCond × List (Nat × Nat × Nat)) i =>
    let (s, bad, wait, out) := acc
    let lo := max base ((base / 65536 + i) * 65536)
    let hi := min (base + len) ((base / 65536 + i + 1) * 65536)
    if bad.isSome then acc
    else if 2 ^ 57 ≤ lo then (s, some (2, 0, lo), wait, out)
    else
      match s.lookup s.cur s.curAslot lo with
      | (s, .fault c) => (s, some (5, c, lo), wait, out)
      | (s, .leaf l) =>
        match leafFault s s.curAslot lo .atomic l with
        | some c => (s, some (5, c, lo), wait, out)
        | none =>
          if isExt (l.pa lo) then (s, some (5, 4, lo), wait, out)
          else if pteOff l.pte == 3 then (s, some (5, 5, lo), wait, out)
          else if pteOff l.pte == 2 then (s, none, some (wait.getD (.page s.curAslot lo 2)), out)
          else (s.setUsed .load l, none, wait, out ++ [(lo, l.pa lo, hi - lo)])) (s, none, none, [])
  let (s, bad, wait, out) := r
  match bad, wait with
  | some (k, c, a), _ => s.hold lanes k c a 0
  | none, some p => s.parkOn lanes p
  | none, none => go s out

/-- The base and length of a range, in form (R273) (DEDUCED, log entry 23). -/
def State.lineRange (s : State) (lanes : Mask) (base len : Nat) (go : State → List (Nat × Nat × Nat) → State) : State :=
  if 2 ^ 57 ≤ base then s.hold lanes 2 0 base 0
  else if base % 128 != 0 || len % 128 != 0 || decide (len < 128) || decide (2 ^ 30 < len) then s.hold lanes 3 0 base 0
  else s.rangePages lanes base len go

def ASlot.rangeMeets (a : ASlot) (base len : Nat) : Bool := a.ranges.any fun r => overlaps r.base r.len base len

/-- `seal` (R273, R91). -/
def execSeal (c : Ctl) (_m : MAttr) (sB sL : SReg) (s : State) : Host.Outcome State Fault Refusal :=
  s.oncePlain c fun s =>
    let act := s.active c.guard
    let base := s.scal true sB
    let len := s.scal false sL
    s.lineRange act base len fun s ps =>
      if (s.slot? s.curAslot).elim false (·.rangeMeets base len) then s.hold act 0x11 0 base 0
      else s.afterAll act fun s =>
        let one (s : State) (p : Nat × Nat × Nat) : State :=
          let s := s.homeRange p.2.1 p.2.2
          { s with sealed := (List.range (p.2.2 / 128)).foldl (fun m i => aput m (p.2.1 / 128 + i) s.curAslot) s.sealed }
        (ps.foldl one s).released act

/-- The oldest logged entry of one of some lanes, with the lane, that `unseal` of a range waits for. One that a sealed line of the range has
stopped waits for the `unseal` itself, and so does what stands behind it (R122, R273, R373; DEDUCED, log entry 60). -/
def State.beforeUnseal (s : State) (lanes : Mask) (base len : Nat) : Option (Nat × LogEnt) :=
  (lanesOf lanes).findSome? fun l => ((s.core s.cur).lanesLog s.w.uid (laneMask l)).head?.bind fun e =>
    if e.why == 0x10 && decide (base ≤ e.va) && decide (e.va < base + len) then none else some (l, e)

/-- `unseal` (R273, R92): the epoch rises, and the lines' logged entries may be replayed (R373). -/
def execUnseal (c : Ctl) (_m : MAttr) (sB sL : SReg) (s : State) : Host.Outcome State Fault Refusal :=
  s.oncePlain c fun s =>
    let act := s.active c.guard
    let base := s.scal true sB
    let len := s.scal false sL
    s.lineRange act base len fun s ps =>
      match s.beforeUnseal act base len with
      | some (l, e) => s.parkOn act (.replayed (laneMask l) (e.va / 32))
      | none => s.afterRemote act fun s =>
        let hit (pa : Nat) : Bool := ps.any fun p => decide (p.2.1 ≤ pa) && decide (pa < p.2.1 + p.2.2)
        let s : State := { s with sealed := mdrop (fun line => hit (line * 128)) s.sealed }
        let s := (s.modSlot s.curAslot fun a => { a with epoch := a.epoch + 1 }).released act
        s.trigger s.curAslot fun why _ pa => why == 0x10 && hit pa

/-- `crdecl` (R274, R93). -/
def execCrdecl (c : Ctl) (op : CrOp) (_m : MAttr) (sB sL : SReg) (s : State) : Host.Outcome State Fault Refusal :=
  s.oncePlain c fun s =>
    let act := s.active c.guard
    let base := s.scal true sB
    let len := s.scal false sL
    s.lineRange act base len fun s ps =>
      match s.slot? s.curAslot with
      | none => s
      | some a =>
        if decide (64 ≤ a.ranges.length) || a.rangeMeets base len then s.hold act 0x11 0 base 0
        else s.afterAll act fun s =>
          let s := ps.foldl (fun s p => s.homeRange p.2.1 p.2.2) s
          (s.modSlot s.curAslot fun a => { a with ranges := a.ranges ++ [⟨base, len, op⟩] }).released act

/-- `crflush` (R275, R95). -/
def execCrflush (c : Ctl) (fin : Bool) (_m : MAttr) (sB : SReg) (s : State) : Host.Outcome State Fault Refusal :=
  s.oncePlain c fun s =>
    let act := s.active c.guard
    let base := s.scal true sB
    if 2 ^ 57 ≤ base then s.hold act 2 0 base 0
    else
      match (s.slot? s.curAslot).bind fun a => a.ranges.find? fun r => r.base == base with
      | none => s.hold act 0x11 0 base 0
      | some r =>
        s.rangePages act base r.len fun s ps => s.afterAll act fun s =>
          let s := ps.foldl (fun s p => s.homeRange p.2.1 p.2.2) s
          let s := if fin then s.modSlot s.curAslot fun a => { a with ranges := a.ranges.filter fun x => x.base != base } else s
          s.released act

end Sys2Proof.Machine
end

