-- ==== Sys2Proof/Machine/Copies.lean ====
section
/-! DEFINITION. Copy commands and batches (R277 to R280), operation packets (R281, R392) and the flow query (R282). -/

namespace Sys2Proof.Machine
open Sys2Proof

/-! ## Pushing a copy (R277) -/

/-- The physical scratchpad byte where `len` bytes of a launch's allocation on a core begin. -/
def State.spadRange (s : State) (lid : Option Nat) (core off len : Nat) : Option Nat :=
  match lid.bind (s.core core).alloc with
  | none => none
  | some a => if off + len ≤ 128 * a.lines then some (128 * a.base + off) else none

/-- The lines of a byte range of a scratchpad, with their core. -/
def spadLines (core a n : Nat) : List (Nat × Nat) :=
  if n == 0 then [] else (List.range ((a + n - 1) / 128 - a / 128 + 1)).map fun i => (core, a / 128 + i)

/-- An operand of a copy is out of its form (R277). -/
def operandBad (k : MKind) (x : Nat) : Bool :=
  match k with
  | .g => false
  | .l => decide (2 ^ 32 ≤ x)
  | .c => decide (2 ^ 38 ≤ x)

def isGlob (k : MKind) : Bool :=
  match k with
  | .g => true
  | _ => false

/-- The core of a scratchpad operand that a core's unit uses. -/
def operandCore (core : Nat) (k : MKind) (x : Nat) : Nat :=
  match k with
  | .c => coreOfCluster (coreCluster core) (x / 2 ^ 32 % 64)
  | _ => core

/-- The place of an operand of `len` bytes, for a unit of a core that is bound to a launch or to none; none where a scratchpad end
leaves the allocation. -/
def State.placeOf (s : State) (lid : Option Nat) (core : Nat) (k : MKind) (x len : Nat) : Option Place :=
  if isGlob k then some (.glob x)
  else
    let c := operandCore core k x
    (s.spadRange lid c (x % 2 ^ 32) len).map fun a => .spad c a

def placeLines (p : Place) (len : Nat) : List (Nat × Nat) :=
  match p with
  | .spad c a => spadLines c a len
  | _ => []

/-- Make the lines of a list absent (R82). -/
def State.clearLines (s : State) (ls : List (Nat × Nat)) : State :=
  ls.foldl (fun s x => s.modCore x.1 fun c => c.setPresent x.2 false) s

/-- A copy of a unit of a core enters its engine: destination lines are absent from then on (R82). -/
def State.pushCopy (s : State) (core : Nat) (k : Copy) : State :=
  (s.clearLines k.lines).modCore core fun c => { c with copies := c.copies ++ [k] }

/-- The first check of a copy that fails: kind of the fault (R277) (DEDUCED, log entry 58). -/
def copyBad (sk dk : MKind) (src dst len : Nat) : Option Nat :=
  if (isGlob sk && decide (2 ^ 57 ≤ src)) || (isGlob dk && decide (2 ^ 57 ≤ dst)) then some 2
  else if len == 0 || decide (2 ^ 24 < len) then some 0x14
  else if (!isGlob sk && src % 4 != 0) || (!isGlob dk && dst % 4 != 0) || ((!isGlob sk || !isGlob dk) && len % 4 != 0) then some 0x14
  else if operandBad sk src || operandBad dk dst then some 0x14
  else none

/-- The remote accesses of some lanes that have no answer yet: flow and number. -/
def State.openAccs (s : State) (uid : Nat) (lanes : Mask) : List (Nat × Nat) :=
  (List.range s.flows.length).flatMap fun i => ((s.flow i).open'.filter fun a => a.openOf uid lanes).map fun a => (i, a.seq)

/-- `cpy` (R277): a release at .co, so the copy reads its source after the lanes' earlier stores (R113). -/
def execCpy (c : Ctl) (sk dk : MKind) (q : BitVec 3) (sS sD sL : SReg) (s : State) : Host.Outcome State Fault Refusal :=
  s.once c fun s =>
    let act := s.active c.guard
    if s.w.commit && isGlob dk then s.hold act 0x21 0 0 0 else
    let src := s.scal true sS
    let dst := s.scal true sD
    let len := s.scal false sL
    match copyBad sk dk src dst len with
    | some k => s.hold act k 0 (if k == 2 then (if isGlob sk && decide (2 ^ 57 ≤ src) then src else dst) else 0) 0
    | none =>
      match s.placeOf s.curLid s.cur sk src len, s.placeOf s.curLid s.cur dk dst len with
      | some a, some b =>
        if s.queueLen s.cur s.w.uid q.toNat ≥ 16 then s.parkOn act (.copyRoom q.toNat)
        else
          let (id, s) := s.newId
          let w := s.w
          let lines := placeLines b len
          let after := ((s.core s.cur).lanesLog w.uid act).map (·.id)
          let k : Copy := ⟨id, if isGlob dk then 1 else 0, .queue w.uid s.curSlot q.toNat act, w.aslot, s.curLid, .lin a, b, len, 0,
            false, false, lines, placeLines a len, after, s.openAccs w.uid act, s.focus.pc, none, [], [], []⟩
          let s := (s.bump s.waveId 1).pushCopy s.cur k
          s.modW fun w => { w with copyOpen := w.copyOpen ++ (lanesOf act).map fun l => (l, id) }
      | _, _ => s.hold act 4 0 0 0

/-! ## Batches (R279, R280) -/

/-- The sets of lanes that a lane-form instruction serves together: the broadcast group, or each diverged lane (R36). -/
def State.actSets (s : State) (g : Guard) : List Mask :=
  let act := s.active g
  if act == 0 then [] else if s.focus.bc then [act] else (lanesOf act).map laneMask

/-- A copy has ended with error status. -/
def Wave.failed (w : Wave) (id : Nat) : Bool := w.copyBad.any fun x => x.1 == id

/-- A batch is finished once none of its copies is unfinished: those that ended well have left it. -/
def Wave.batchDone (w : Wave) (b : Nat × List Nat) : Bool := b.2.all w.failed

/-- The stores of the failed copies of a finished batch enter the list, each once (R279, R282). -/
def Wave.reportBatch (w : Wave) (b : Nat × List Nat) : Wave :=
  let out := (w.copyBad.filter fun x => b.2.contains x.1).flatMap (·.2)
  out.foldl (fun w u => (w.enter u).1)
    { w with
      copyErr := if b.2.isEmpty then w.copyErr else w.copyErr ||| laneMask b.1
      copyBad := w.copyBad.map fun x => if b.2.contains x.1 then (x.1, []) else x }

/-- Finished batches leave; one with an error sets its lane's bit (R279). A failed copy is forgotten with the last set that holds it. -/
def Wave.settle (w : Wave) : Wave :=
  let done := w.batches.filter w.batchDone
  let left := w.batches.filter fun b => !w.batchDone b
  let w : Wave := { done.foldl Wave.reportBatch w with batches := left }
  { w with copyBad := w.copyBad.filter fun x => (w.copyOpen.any fun y => y.2 == x.1) || left.any fun b => b.2.contains x.1 }

/-- The open set of a lane. -/
def Wave.openOf (w : Wave) (l : Nat) : List Nat := (w.copyOpen.filter fun x => x.1 == l).map (·.2)

def Wave.sealBatch (w : Wave) (l : Nat) : Wave :=
  let ids := w.openOf l
  ({ w with
    copyOpen := w.copyOpen.filter fun x => x.1 != l
    batches := if ids.isEmpty then w.batches else w.batches ++ [(l, ids)] } : Wave).settle

/-- `cseal` (R279). -/
def execCseal (c : Ctl) (s : State) : Host.Outcome State Fault Refusal :=
  s.onWave c.rbf 0 fun s =>
    (s.actSets c.guard).foldl (fun s m =>
      let w := s.w
      let full := (lanesOf m).filter fun l => (w.openOf l).any (fun k => !w.failed k) && decide (w.batchesOf l ≥ 16)
      if full.isEmpty then s.modW fun w => (lanesOf m).foldl Wave.sealBatch w
      else s.parkOn m (.batchRoom (maskOf full))) s

/-- `cwait` (R280). -/
def execCwait (c : Ctl) (n : BitVec 4) (p : BitVec 4) (s : State) : Host.Outcome State Fault Refusal :=
  s.onWave c.rbf 0 fun s =>
    (s.actSets c.guard).foldl (fun s m =>
      let w := s.w
      if (lanesOf m).all fun l => decide (w.batchesOf l ≤ n.toNat) then
        (s.setPreds p.toNat m fun l => !hasLane w.copyErr l).modW fun w => { w with copyErr := w.copyErr &&& ~~~ m }
      else s.parkOn m (.cwait m n.toNat)) s

/-! ## The near-memory operation unit (R281, R392) -/

/-- What the unit finds at a virtual address of a slot: it walks the tables itself. -/
def State.unitTrans (s : State) (aslot va size : Nat) (k : AKind) : State × Tr :=
  if 2 ^ 57 ≤ va then (s, .fault 2 0)
  else if va % 32 + size > 32 then (s, .fault 3 0)
  else
    let s := s.combineTables aslot va
    match s.walk aslot va with
    | .fault c => (s, .fault 5 c)
    | .leaf l =>
      match leafFault s aslot va k l with
      | some c => (s, .fault 5 c)
      | none =>
        if isExt (l.pa va) then (s, .fault 5 4)
        else if pteOff l.pte == 3 then (s, .fault 5 5)
        else if pteOff l.pte == 2 || (pteOff l.pte == 1 && k.writes) then (s, .park (.page aslot va (pteOff l.pte)))
        else if !k.writes && s.poisoned (l.pa va) then (s, .fault 0x27 0)
        else if k.writes && s.sealedLine (l.pa va) then (s, .fault 0x10 0)
        else (s.setUsed k l, .ok (l.acc va))

/-- Compare and swap of up to four words of one sector (R281). -/
def State.ropCasAt (s : State) (pa : Nat) (cmp new : List DWord) : State × List DWord :=
  let s := (s.tokHome pa).combine pa
  let old := (List.range cmp.length).map fun i => BitVec.ofNat 64 (s.rdMem (pa + 8 * i) 8)
  if old == cmp then (s.physStore pa (new.flatMap fun w => toBytes 8 w.toNat), old) else (s, old)

/-- Where an enqueue writes (R281): the node, and the old tail's node if there is one, each translated before anything is written; and the
old tail. `behind` tells what a write at an address stands behind (R122). -/
def State.ropEnqFind (s : State) (aslot pa node : Nat) (behind : Nat → Option ParkCond) : State × Except Tr (Nat × Option Nat × Nat) :=
  let s := (s.tokHome pa).combine pa
  let tail := s.rdMem (pa + 8) 8
  match (behind node).or (if tail == 0 then none else behind tail) with
  | some c => (s, .error (.park c))
  | none =>
  match s.unitTrans aslot node 8 .store with
  | (s, .ok n) =>
    if tail == 0 then (s, .ok (n.pa, none, tail))
    else
      match s.unitTrans aslot tail 8 .store with
      | (s, .ok t) => (s, .ok (n.pa, some t.pa, tail))
      | (s, t) => (s, .error t)
  | (s, t) => (s, .error t)

/-- Enqueue (R281): the node's link, then the old tail's link or the head, then the tail. -/
def State.ropEnqDo (s : State) (pa node n : Nat) (t : Option Nat) : State :=
  let put (s : State) (a x : Nat) : State := (s.tokHome a).physStore a (toBytes 8 x)
  put (put (put s n 0) (t.getD pa) node) (pa + 8) node

/-- Where a chase stands: the pointer, the hops done, whether a hop met a fault, what holds the unit back, and the sectors that it has read. -/
structure Chase where
  p    : Nat
  n    : Nat
  bad  : Bool
  park : Option ParkCond
  pts  : List (Nat × Nat × Bool)

/-- Follow pointers (R281). `behind` tells what a hop to an address stands behind, `stop` whether a hop that reads an address meets a fault. -/
def State.chaseFrom (s : State) (aslot off : Nat) (behind : Nat → Option ParkCond) (stop : Nat → Bool) : Nat → Chase → State × Chase
  | 0, c => (s, c)
  | h + 1, c =>
    let va := (c.p + off) % 2 ^ 64
    if c.p == 0 then (s, c)
    else
      match behind va with
      | some k => (s, { c with park := some k })
      | none =>
        match s.unitTrans aslot va 8 .load with
        | (s, .ok a) =>
          if stop a.pa then (s, { c with bad := true })
          else
            let (s, x) := (s.homeToken a.pa).physLoad a.pa 8
            s.chaseFrom aslot off behind stop h { c with p := x, n := c.n + 1, pts := c.pts ++ [(va, a.pa, false)] }
        | (s, .fault _ _) => (s, { c with bad := true })
        | (s, .park k) => (s, { c with park := some k })

/-- A lane of some has a logged entry for the sector of an address. -/
def State.behindEntry (s : State) (lanes : Mask) (va : Nat) : Option ParkCond :=
  if s.hasEntry lanes va then some (.replayed lanes (va / 32)) else none

/-- The address of an operation packet: a reply is taken first; else it is held back by the thread's own logged entries and, for a release, its
remote accesses (R108, R122); checked; local or remote. -/
def State.ropAt (s : State) (act : Mask) (va size align : Nat) (m : MAttr) (req : RemReq) (loc : State → Nat → State)
    (done : State → Nat → State) : State :=
  let rel := ordReleases m.ord
  let entries := (s.core s.cur).lanesLog s.w.uid act
  let behind := if rel then entries else entries.filter fun e => e.va / 32 == va / 32
  match s.replied (lowLane act) va, behind with
  | some r, _ => s.deliver act va false r fun s v => done (s.modW fun w => w.nextSeq act) v
  | none, e :: _ => s.parkOn act (.replayed act (e.va / 32))
  | none, [] =>
    if 2 ^ 57 ≤ va then s.hold act 2 0 va 0
    else if va % align != 0 || va % 32 + size > 32 then s.hold act 3 0 va 0
    else
      match s.translate s.cur s.curAslot va .atomic with
      | (s, .fault k c) => s.hold act k c va 0
      | (s, .park c) => s.parkOn act c
      | (s, .ok a) => s.relGate m.ord act fun s =>
        if isExt a.pa then
          let (s, r) := s.remote 0 (lowLane act) act va a.pa .packet req rel (s.relCount m.ord 1)
          s.deliver act va false r fun s _ => s
        else if s.poisoned a.pa then s.hold act 0x27 0 va 0
        else if s.sealedLine a.pa then s.hold act 0x10 0 va 0
        else loc s a.pa

/-- Perform a packet's writes unless the race detector stops them. -/
def State.raced (s : State) (act : Mask) (va : Nat) (pts : List (Nat × Nat × Bool)) (scope : Scope) (f : State → State) : State :=
  match s.raceAll act pts true scope with
  | (s, some r) => s.deliver act va false r fun s _ => s
  | (s, none) => f s

/-- The sequence number and the interval of a packet that has been performed. -/
def State.ropDone (s : State) (act : Mask) (m : MAttr) : State := (s.modW fun w => w.nextSeq act).relEvent m.ord 1

def State.regList (s : State) (n base : Nat) : List DWord := (List.range n).map fun i => s.spair (base + 2 * i)

def State.setRegs (s : State) (base : Nat) (ws : List DWord) : State :=
  ((List.range ws.length).zip ws).foldl (fun s x => s.setS64 (base + 2 * x.1) x.2) s

/-- `rop.cas` (R281). -/
def execRopCas (c : Ctl) (m : MAttr) (n : BitVec 2) (d sA sB sC : SReg) (off : BitVec 24) (s : State) :
    Host.Outcome State Fault Refusal :=
  s.oncePlain c fun s =>
    let act := s.active c.guard
    let k := n.toNat + 1
    let cmp := s.regList k sB.toNat
    let new := s.regList k sC.toNat
    let va := s.saddr sA off
    s.ropAt act va (8 * k) 8 m (.ropCas cmp new)
      (fun s pa => s.raced act va [(va, pa, true)] m.scope fun s =>
        let (s, old) := s.ropCasAt pa cmp new
        (s.setRegs d.toNat old).ropDone act m)
      fun s v => s.setRegs d.toNat ((List.range k).map fun i => BitVec.ofNat 64 (v / 2 ^ (64 * i)))

/-- `rop.enq` (R281). -/
def execRopEnq (c : Ctl) (m : MAttr) (d sA sB : SReg) (off : BitVec 24) (s : State) : Host.Outcome State Fault Refusal :=
  s.oncePlain c fun s =>
    let act := s.active c.guard
    let node := s.scal true sB
    let va := s.saddr sA off
    s.ropAt act va 16 16 m (.ropEnq (BitVec.ofNat 64 node))
      (fun s pa =>
        match s.ropEnqFind s.curAslot pa node (s.behindEntry act) with
        | (s, .ok (n, t, old)) =>
          let pts := (va, pa, true) :: (node, n, false) :: t.toList.map fun t => (old, t, false)
          s.raced act va pts m.scope fun s => ((s.ropEnqDo pa node n t).setScal true d old).ropDone act m
        | (s, .error (.fault k cz)) => s.hold act k cz node 0
        | (s, .error (.park p)) => s.parkOn act p
        | (s, .error (.ok _)) => s)
      fun s v => s.setScal true d v

/-- The results of a chase (R281). -/
def State.chaseDone (s : State) (d p hops : Nat) (bad : Bool) : State :=
  (s.setS64 d (BitVec.ofNat 64 p)).setS (d + 2) (BitVec.ofNat 32 (hops + b2n bad * 2 ^ 31))

/-- `rop.chase` (R281): a hop that meets a fault ends it and raises nothing. -/
def execRopChase (c : Ctl) (m : MAttr) (d sA sH : SReg) (off : BitVec 24) (s : State) : Host.Outcome State Fault Refusal :=
  s.oncePlain c fun s =>
    let act := s.active c.guard
    let h := s.scal false sH
    let hops := h % 256
    let o := h / 256 % 256 * 8
    let va := s.saddr sA off
    if hops == 0 || decide (16 < hops) || decide (65536 ≤ h) then s.hold act 0x15 0 va 0
    else
      let trapped (s : State) (pa : Nat) : Bool := (s.raceTrap s.checked s.curAslot s.partyId pa).isSome
      let loc (s : State) : State :=
        match s.chaseFrom s.curAslot o (s.behindEntry act) (trapped s) hops ⟨va, 0, false, none, []⟩ with
        | (s, ⟨_, _, _, some k, _⟩) => s.parkOn act k
        | (s, ⟨p, n, bad, none, pts⟩) =>
          match s.raceAll act pts false m.scope with
          | (s, some r) => s.deliver act va false r fun s _ => s
          | (s, none) => (s.chaseDone d.toNat p n bad).ropDone act m
      let go (s : State) : State :=
        let s := if 2 ^ 57 ≤ va then s else s.combineTables s.curAslot va
        match if 2 ^ 57 ≤ va then (WalkRes.fault 1) else s.walk s.curAslot va with
        | .leaf l =>
          if isExt (l.pa va) && (leafFault s s.curAslot va .load l).isNone then
            if s.hasEntry act va then s.parkOn act (.replayed act (va / 32))
            else
              let (s, r) := s.remote 0 (lowLane act) act va (l.pa va) .packet (.ropChase hops o) (ordReleases m.ord) (s.relCount m.ord 1)
              s.deliver act va false r fun s _ => s
          else loc s
        | .fault _ => loc s
      match s.replied (lowLane act) va with
      | some r => s.deliver act va false r fun s v =>
          (s.chaseDone d.toNat (v % 2 ^ 64) (v / 2 ^ 64 % 2 ^ 31) (bitN v 95)).modW fun w => w.nextSeq act
      | none => if ordReleases m.ord then s.afterAll act go else go s

/-! ## `flq` (R282) -/

def Unres.status (u : Unres) (more : Nat) : Nat := u.fate * 2 ^ 30 + u.lane * 2 ^ 25 + u.kind * 2 ^ 23 + more

/-- `flq` (R282): an entry whose fate is not known asks the target and waits. -/
def execFlq (c : Ctl) (clr : Bool) (d sI : SReg) (s : State) : Host.Outcome State Fault Refusal :=
  s.once c fun s =>
    let act := s.active c.guard
    let i := s.scal false sI
    let w := s.w
    let show' (s : State) (va st : Nat) : State := (s.setScal true d va).setS (d.toNat + 2) (BitVec.ofNat 32 st)
    match w.unres[i]? with
    | none => show' s 0 w.more
    | some u =>
      if u.fate == 0 then s.parkOn act (.flq i s.us)
      else
        let s := show' s u.va (u.status w.more)
        if u.fate == 3 then s.modW fun w => { w with unres := w.unres.set i { u with fate := 0 } }
        else if clr then s.modW fun w => { w with unres := w.unres.eraseIdx i }
        else s

end Sys2Proof.Machine
end

