-- ==== Sys2Proof/Machine/Matrix.lean ====
section
/-! DEFINITION. The matrix instructions (R284 to R303). Lane 8 q + i holds row i of quarter q. -/

namespace Sys2Proof.Machine
open Sys2Proof

/-! ## Operands (R284, R286) -/

def mmaANum (f : MmaFmt) : NumFmt :=
  match f with
  | .f64 => fF64
  | .f32 => fF32
  | .bf16 => fBF16
  | .f16 => fF16
  | .e4m3 | .b8e4m3 | .p2 => fE4M3
  | .e5m2 => fE5M2
  | .b6e3m2 => fE3M2
  | .b6e2m3 => fE2M3
  | .b4e2m1 => fE2M1

/-- K (R284, R153). -/
def mmaK (f : MmaFmt) : Nat :=
  match f with
  | .f64 => 4
  | .f32 => 8
  | .bf16 | .f16 => 32
  | .e4m3 | .e5m2 | .b8e4m3 | .b6e3m2 | .b6e2m3 => 64
  | .b4e2m1 | .p2 => 128

def mmaBlocked (f : MmaFmt) : Bool := f.recs != 0

/-- Bits of an element of either operand. -/
def mmaBits (f : MmaFmt) : Nat := (mmaANum f).width

/-- Payload bytes of a record: 32 elements (R140). -/
def mmaPl (f : MmaFmt) : Nat := 4 * mmaBits f

/-- The column span CB (R284). -/
def mmaCb (f : MmaFmt) : Nat := if mmaBlocked f then f.recs * (mmaPl f + 1) else mmaK f * mmaBits f / 8

def mmaWide (f : MmaFmt) : Bool :=
  match f with
  | .f64 => true
  | _ => false

def mmaAcc (f : MmaFmt) : NumFmt := if mmaWide f then fF64 else fF32

/-- Element k of a row of staging, without its scale. -/
def aElem (f : MmaFmt) (row : Nat) (k : Nat) : FV := (mmaANum f).decode (row / 2 ^ (k * mmaBits f) % 2 ^ mmaBits f)

/-- Element k of a column of B, without its scale: records have a scale byte in front. -/
def bElem (f : MmaFmt) (col : Nat) (k : Nat) : FV :=
  let bit := if mmaBlocked f then (k / 32 * (mmaPl f + 1) + 1) * 8 + k % 32 * mmaBits f else k * mmaBits f
  let x := col / 2 ^ bit % 2 ^ mmaBits f
  match f with
  | .p2 => p2Weight x
  | _ => (mmaANum f).decode x

/-- The scale byte of block b: byte `sel[2b+1:2b]` of a register, or byte b of a FIFO entry. -/
def scaleByte (reg sel b : Nat) : Nat := bitsN reg (8 * (sel / 4 ^ b % 4) + 7) (8 * (sel / 4 ^ b % 4))

/-- Byte selectors that name byte b for block b (R286). -/
def idSel : Nat := 0xE4

/-- A row or column of values: each element times the scale of its block (R140, R290). -/
def scaled (f : MmaFmt) (elem : Nat → FV) (reg sel : Nat) : List FV :=
  (List.range (mmaK f)).map fun k =>
    if mmaBlocked f then mulFV (scaleFV (scaleByte reg sel (k / 32))) (elem k) else elem k

/-- One output (R152). -/
def dotFV (f : NumFmt) (c : Nat) (a b : List FV) : Nat :=
  f.round .rn 0 false (sumFV .rn (f.decode c :: List.zipWith mulFV a b))

/-- A row of the wave's staging partition, from byte `ao` on (R285). -/
def Wave.stageRow (w : Wave) (l ao n : Nat) : Nat := ofBytes ((List.range n).map fun i => mget 0 w.stage (l * 128 + ao + i))

def Wave.setStage (w : Wave) (l ro : Nat) (bs : List Byte) : Wave :=
  { w with stage := (List.range bs.length).foldl (fun m i => mset 0 m (l * 128 + ro + i) (listGet 0 bs i)) w.stage }

def quarterMask (q : Nat) : Mask := BitVec.ofNat 32 (255 * 2 ^ (8 * q))

/-- The physical scratchpad byte of the launch's allocation, and its size in bytes (R80). -/
def State.spadBase (s : State) : Option (Nat × Nat) :=
  (s.curLid.bind (s.core s.cur).alloc).map fun a => (128 * a.base, 128 * a.lines)

/-- The absent ones among the lines that some bytes of the allocation touch, with their core. -/
def State.absentOf (s : State) (spans : List (Nat × Nat)) : List (Nat × Nat) :=
  let ls := dedup (spans.flatMap fun x => spadLines s.cur x.1 x.2)
  ls.filter fun x => (s.core s.cur).absent.contains x.2

/-! ## The quarter operation (R290) -/

/-- A quarter that performs: its number, its Active lanes, its B offset. -/
structure Quarter where
  q  : Nat
  m  : Mask
  bo : Nat

/-- The spans that a B read touches: payload bytes alone for records (R284). -/
def bSpans (f : MmaFmt) (base bstride : Nat) : List (Nat × Nat) :=
  (List.range 8).flatMap fun j =>
    if mmaBlocked f then (List.range f.recs).map fun r => (base + j * bstride + r * (mmaPl f + 1) + 1, mmaPl f)
    else [(base + j * bstride, mmaCb f)]

/-- The results of one quarter for its Active lanes: lane and column values. `sA` and `sB` give the scale words of a lane. -/
def State.quarter (s : State) (f : MmaFmt) (vC bstride ao asel bsel : Nat) (sA sB : Nat → Nat) (base : Nat) (x : Quarter) :
    List (Nat × List Nat) :=
  let w := s.w
  let c := s.core s.cur
  let cols := (List.range 8).map fun j => scaled f (bElem f (rdSpad c (base + x.bo + j * bstride) (mmaCb f))) (sB (8 * x.q + j)) bsel
  (lanesOf x.m).map fun l =>
    let a := scaled f (aElem f (w.stageRow l ao f.ca)) (sA l) asel
    (l, (List.range 8).map fun j =>
      let acc := if mmaWide f then (w.vpair (vC + 2 * j) l).toNat else (w.vreg (vC + j) l).toNat
      dotFV (mmaAcc f) acc a (listGet [] cols j))

def Wave.setAcc (w : Wave) (wide : Bool) (vC l j x : Nat) : Wave :=
  if wide then w.setV64 (vC + 2 * j) l (BitVec.ofNat 64 x) else w.setV (vC + j) l (BitVec.ofNat 32 x)

def Wave.fifo (w : Wave) (q : Nat) : List (List Word) := listGet [] w.sfifo q

/-- Empty the FIFO of a quarter under a fault (R300, R301). -/
def State.desync (s : State) (q : Nat) (m : Mask) (cause : Nat) : State :=
  (s.hold m 0x18 cause 0 (2 ^ q)).modW fun w => { w with sfifo := listPut [] 4 w.sfifo q [] }

/-- The quarters of a set of Active lanes, with their offsets; faulting ones are held (R289, R301). -/
def State.quarters (s : State) (f : MmaFmt) (sf : Bool) (b : MmaB) (bstride : Nat) (act : Mask) : State × List Quarter :=
  (List.range 4).foldl (fun (acc : State × List Quarter) q =>
    let (s, out) := acc
    let m := act &&& quarterMask q
    if m == 0 then acc
    else
      let bo := match b with
        | .wave n => s.w.scal false n
        | .quarter x => s.w.src false x (lowLane m)
      if !mmaBlocked f && bo % 4 != 0 then (s.hold m 3 0 0 0, out)
      else
        match s.spadBase with
        | none => (s.hold m 4 0 0 0, out)
        | some (_, n) =>
          if bo + 7 * bstride + mmaCb f > n then (s.hold m 4 0 0 0, out)
          else if sf && decide ((s.w.fifo q).length < 2) then (s.desync q m 1, out)
          else if !sf && mmaBlocked f && !(s.w.fifo q).isEmpty then (s.desync q m 3, out)
          else (s, out ++ [⟨q, m, bo⟩])) (s, [])

/-- `mma` (R288 to R290, R301). -/
def execMma (c : Ctl) (fmt : MmaFmt) (sf : Bool) (vC : BitVec 5) (b : MmaB) (bsw : BitVec 13) (aoq : BitVec 3)
    (vA vB : Src) (asel bsel : BitVec 8) (s : State) : Host.Outcome State Fault Refusal :=
  s.onWave c.rbf 0 fun s =>
    (s.actSets c.guard).foldl (fun s act =>
      let bstride := 4 * bsw.toNat
      let (s, qs) := s.quarters fmt sf b bstride act
      let base := (s.spadBase.getD (0, 0)).1
      let gone := s.absentOf (qs.flatMap fun x => bSpans fmt (base + x.bo) bstride)
      if !gone.isEmpty then s.parkOn (qs.foldl (fun m x => m ||| x.m) 0) (.present gone)
      else
        let w := s.w
        let entry (i l : Nat) : Nat := (listGet 0 (listGet [] (w.fifo (l / 8)) i) (l % 8)).toNat
        let sA (l : Nat) : Nat := if sf then entry 0 l else w.src false vA l
        let sB (l : Nat) : Nat := if sf then entry 1 l else w.src false vB l
        let selA := if sf then idSel else asel.toNat
        let selB := if sf then idSel else bsel.toNat
        let out := qs.flatMap (s.quarter fmt (8 * vC.toNat) bstride (16 * aoq.toNat) selA selB sA sB base)
        let s := s.modW fun w => out.foldl (fun w r =>
          ((List.range 8).zip r.2).foldl (fun w y => w.setAcc (mmaWide fmt) (8 * vC.toNat) r.1 y.1 y.2) w) w
        if sf then
          s.modW fun w => qs.foldl (fun (w : Wave) x => { w with sfifo := listPut [] 4 w.sfifo x.q ((w.fifo x.q).drop 2) }) w
        else s) s

/-- `mzero` (R297). -/
def execMzero (c : Ctl) (_uni w : Bool) (cnt : BitVec 2) (vC : BitVec 5) (s : State) : Host.Outcome State Fault Refusal :=
  s.onWave c.rbf 0 fun s =>
    let n := 8 * (cnt.toNat + 1) * (if w then 2 else 1)
    let act := s.active c.guard
    s.modW fun w => (lanesOf act).foldl (fun w l =>
      (List.range n).foldl (fun w j => w.setV (8 * vC.toNat + j) l 0) w) w

/-! ## Filling the staging partitions (R293, R294) -/

/-- What one lane of `mgat` or `mldt` does: the fault that holds it, or the spans it reads, and its row and scale bytes. -/
structure Gather where
  lane  : Nat
  bad   : Option Nat
  spans : List (Nat × Nat)      -- physical
  row   : Core → List Byte
  scale : Core → List Nat

/-- The scale bytes as the result word: 0x7F above (R293). -/
def scaleWord (sc : List Nat) : Nat := ofBytes ((List.range 4).map fun t => BitVec.ofNat 8 (listGet 0x7F sc t))

/-- Serve the lanes of one execution together: faulting lanes held, the others parked while a line is absent, else written. -/
def State.gather (s : State) (gs : List Gather) (ro : Nat) (d : Option Dst) : State :=
  let s := gs.foldl (fun s g => match g.bad with
    | some k => s.hold (laneMask g.lane) k 0 0 0
    | none => s) s
  let good := gs.filter fun g => g.bad.isNone
  let gone := s.absentOf (good.flatMap (·.spans))
  if !gone.isEmpty then s.parkOn (maskOf (good.map (·.lane))) (.present gone)
  else
    let c := s.core s.cur
    s.modW fun w => good.foldl (fun w g =>
      let w := w.setStage g.lane ro (g.row c)
      match d with
      | some d => w.writeResult d false g.lane (scaleWord (g.scale c))
      | none => w) w

def spadBytes (c : Core) (a n : Nat) : List Byte := (List.range n).map fun i => mget 0 c.spad (a + i)

/-- One lane of `mgat` (R293). -/
def State.mgatLane (s : State) (kind : GKind) (vI : Src) (sB sR : SReg) (n l : Nat) : Gather :=
  let a := (s.w.scal false sB + s.w.src false vI l * s.w.scal false sR) % 2 ^ 32
  let ext := n * kind.rs
  let words := match kind with
    | .w => true
    | _ => false
  match s.spadBase with
  | none => ⟨l, some (if words && a % 4 != 0 then 3 else 4), [], fun _ => [], fun _ => []⟩
  | some (base, size) =>
    if words && a % 4 != 0 then ⟨l, some 3, [], fun _ => [], fun _ => []⟩
    else if a + ext > size then ⟨l, some 4, [], fun _ => [], fun _ => []⟩
    else
      ⟨l, none, [(base + a, ext)],
        fun c => if words then spadBytes c (base + a) ext
          else (List.range n).flatMap fun t => spadBytes c (base + a + t * kind.rs + 1) kind.pl,
        fun c => (List.range n).map fun t => rdSpad c (base + a + t * kind.rs) 1⟩

/-- `mgat` (R293). -/
def execMgat (c : Ctl) (kind : GKind) (d : Dst) (vI : Src) (sB sR : SReg) (n : BitVec 6) (ro : BitVec 3) (s : State) :
    Host.Outcome State Fault Refusal :=
  let words := match kind with
    | .w => true
    | _ => false
  s.onWave c.rbf (if words then 0 else dstMarks d false) fun s =>
    (s.actSets c.guard).foldl (fun s act =>
      s.gather ((lanesOf act).map (s.mgatLane kind vI sB sR n.toNat)) (16 * ro.toNat) (if words then none else some d)) s

/-- Bits of an element of a record kind. -/
def gkindBits (k : GKind) : Nat := k.pl / 4

/-- One lane of `mldt` (R294): of a record it reads the payload, and the scale byte only of a block's first row, so that alone waits to be
present (R142; DEDUCED, log entry 66). -/
def State.mldtLane (s : State) (kind : GKind) (vC : Src) (sP : SReg) (n l : Nat) : Gather :=
  let p (i : Nat) : Nat := (s.w.sreg (sP.toNat + i)).toNat
  let col := s.w.src false vC l
  let bits := gkindBits kind
  let at' (row : Nat) : Nat := p 0 + row * p 1 + col / 32 * kind.rs
  let live (row : Nat) : Bool := decide (row < p 2) && decide (col < p 4)
  let rows := ((List.range (32 * n)).map fun m => p 3 + m).filter live
  match s.spadBase with
  | none => ⟨l, if rows.isEmpty then none else some 4, [], fun _ => List.replicate (n * kind.pl) 0,
      fun _ => List.replicate n 0x7F⟩
  | some (base, size) =>
    if rows.any fun r => decide (at' r + kind.rs > size) then ⟨l, some 4, [], fun _ => [], fun _ => []⟩
    else
      let elem (c : Core) (row : Nat) : Nat :=
        if live row then rdSpad c (base + at' row + 1) kind.pl / 2 ^ (col % 32 * bits) % 2 ^ bits else 0
      let pay (c : Core) (t : Nat) : List Byte :=
        toBytes kind.pl (((List.range 32).map fun m => elem c (p 3 + 32 * t + m) * 2 ^ (m * bits)).foldl (· + ·) 0)
      let span (r : Nat) : Nat × Nat :=
        if (r - p 3) % 32 == 0 then (base + at' r, kind.rs) else (base + at' r + 1, kind.pl)
      ⟨l, none, rows.map span,
        fun c => (List.range n).flatMap (pay c),
        fun c => (List.range n).map fun t =>
          if live (p 3 + 32 * t) then rdSpad c (base + at' (p 3 + 32 * t)) 1 else 0x7F⟩

/-- `mldt` (R294, R142). -/
def execMldt (c : Ctl) (kind : GKind) (d : Dst) (vI : Src) (sP : SReg) (n : BitVec 6) (ro : BitVec 3) (s : State) :
    Host.Outcome State Fault Refusal :=
  s.onWave c.rbf (dstMarks d false) fun s =>
    (s.actSets c.guard).foldl (fun s act =>
      if (s.w.sreg (sP.toNat + 3)).toNat % 32 != 0 then
        (lanesOf act).foldl (fun s l => s.hold (laneMask l) 0x17 4 0 (2 ^ (l / 8))) s
      else s.gather ((lanesOf act).map (s.mldtLane kind vI sP n.toNat)) (16 * ro.toNat) (some d)) s

/-! ## `mst` (R295, R296) -/

def mstNum (f : MstFmt) : NumFmt :=
  match f with
  | .f64 => fF64
  | .f32 => fF32
  | .bf16 => fBF16
  | .f16 => fF16
  | .e5m2 => fE5M2
  | .e4m3 | .b8e4m3 => fE4M3
  | .b6e3m2 => fE3M2
  | .b6e2m3 => fE2M3
  | .b4e2m1 => fE2M1

/-- Emax (R143). -/
def mstEmax (f : MstFmt) : Int :=
  match f with
  | .b4e2m1 | .b6e2m3 => 2
  | .b6e3m2 => 4
  | _ => 8

/-- What one lane stores: its address in the allocation and its bytes. -/
def mstBytes (dfmt : MstFmt) (rm : RMode) (sat : Bool) (draw : Nat → Nat) (block : List FV) (xs : List FV) : List Byte :=
  let f := mstNum dfmt
  if dfmt.blocked then
    let sc := blockScale (mstEmax dfmt) block
    let zero := block.all FV.isZero
    let els := (List.range xs.length).map fun j => blockElem f rm (draw j) sc zero (listGet .nan xs j)
    BitVec.ofNat 8 sc ::
      toBytes (4 * f.width) (((List.range xs.length).map fun j => listGet 0 els j * 2 ^ (j * f.width)).foldl (· + ·) 0)
  else
    (List.range xs.length).flatMap fun j => toBytes (f.width / 8) (f.round rm (draw j) sat (listGet .nan xs j))

/-- The bytes that a lane's row takes. -/
def mstLen (dfmt : MstFmt) (n : Nat) : Nat :=
  if dfmt.blocked then 4 * (mstNum dfmt).width + 1 else n * ((mstNum dfmt).width / 8)

/-- `mst` (R295, R296). -/
def execMst (c : Ctl) (dfmt : MstFmt) (sf64 sq : Bool) (rm : RMode) (sat pset : Bool) (sB : SReg) (vI : Src) (sR : SReg)
    (vC : BitVec 5) (cnt : BitVec 2) (ve : Src) (sb : SReg) (s : State) : Host.Outcome State Fault Refusal :=
  s.onWave c.rbf 0 fun s =>
    (s.actSets c.guard).foldl (fun s act =>
      let w := s.w
      let n := 8 * (cnt.toNat + 1)
      let vals (l : Nat) : List FV := (List.range n).map fun j =>
        if sf64 then fF64.decode (w.vpair (8 * vC.toNat + 2 * j) l).toNat else fF32.decode (w.vreg (8 * vC.toNat + j) l).toNat
      let draw (l j : Nat) : Nat := match rm with
        | .sr => drawRound (w.sreg sb.toNat).toNat (w.sreg (sb.toNat + 1)).toNat ((w.src true ve l + j) % 2 ^ 64)
            (w.sreg (sb.toNat + 2)).toNat
        | _ => 0
      if sq && act != fullMask then
        (lanesOf act).foldl (fun s l => s.hold (laneMask l) 0x17 1 0 (2 ^ (l / 8))) s
      else
        let block := if sq then (lanesOf act).flatMap vals else []
        let a (l : Nat) : Nat := (w.scal false sB + w.src false vI l * w.scal false sR) % 2 ^ 32
        let bad (l : Nat) : Option Nat :=
          if !dfmt.blocked && a l % ((mstNum dfmt).width / 8) != 0 then some 3
          else
            match s.spadBase with
            | none => some 4
            | some (_, size) => if a l + mstLen dfmt n > size then some 4 else none
        let base := (s.spadBase.getD (0, 0)).1
        let stop := sq && (lanesOf act).any fun l => (bad l).isSome
        (lanesOf act).foldl (fun s l =>
          match bad l with
          | some k => s.hold (laneMask l) k 0 0 0
          | none =>
            if stop then s
            else
              let bs := mstBytes dfmt rm sat (draw l) (if sq then block else vals l) (vals l)
              s.modCore s.cur fun c =>
                let c := c.wrSpad (base + a l) bs
                if pset then (spadLines s.cur (base + a l) bs.length).foldl (fun c x => c.setPresent x.2 true) c else c) s) s

/-! ## `tred` (R298, R299) -/

/-- `tred` (R298, R299): the wave arrives once and waits; the combine is an event of its own. A length that is 0 or no multiple of the element
is an alignment fault, and a handler wave, which has no launch, names no sub-rectangle (DESIGN CHOICE, log entry 80). -/
def execTred (c : Ctl) (w pset : Bool) (sS sO sL sD : SReg) (s : State) : Host.Outcome State Fault Refusal :=
  s.once c fun s =>
    let act := s.active c.guard
    let lid := s.w.lid
    let wrong (s : State) (cause : Nat) : State :=
      (lanesOf act).foldl (fun s l => s.hold (laneMask l) 0x17 cause 0 (2 ^ (l / 8))) s
    match s.focus.resume with
    | some (.tred k _) =>
      let bad := (aget s.launches lid).elim false fun l => l.tredBad.contains (s.cur, k)
      let drop (l : Launch) : Launch := { l with tredBad := l.tredBad.filter (· != (s.cur, k)) }
      let s' : State := match aget s.launches lid with
        | some l => { s with launches := aput s.launches lid (drop l) }
        | none => s
      if bad then wrong s' 3 else s'
    | _ =>
      let es := if w then 8 else 4
      let desc := s.scal false sS
      let o := s.scal false sO
      let len := s.scal false sL
      let d := s.scal false sD
      match s.curLid.bind (aget s.launches), s.spadBase with
      | some l, some (_, size) =>
        if !descOk l.blk desc s.cur then wrong s 2
        else if len == 0 || len % es != 0 || o % es != 0 || d % es != 0 then s.hold act 3 0 0 0
        else if o + len > size || d + len > size then s.hold act 4 0 0 0
        else
          s.arriving act fun s =>
            let k := ((s.core s.cur).alloc lid).elim 0 (·.treds)
            let s := s.modCore s.cur fun c => { c with
              allocs := c.allocs.map fun a => if a.lid == lid then { a with treds := a.treds + 1 } else a }
            let arrive : Launch := { l with treds := l.treds ++ [(s.cur, k, [desc, b2n w, len, d, o, b2n pset])] }
            let s : State := { s with launches := aput s.launches lid arrive }
            (s.bump s.waveId 1).parkOn act (.tred k desc)
      | some l, none => if !descOk l.blk desc s.cur then wrong s 2 else s.hold act 4 0 0 0
      | none, _ => wrong s 2

/-! ## The scale FIFO (R300) -/

/-- `msf` (R300). -/
def execMsf (c : Ctl) (vS : Src) (s : State) : Host.Outcome State Fault Refusal :=
  s.onWave c.rbf 0 fun s =>
    (s.actSets c.guard).foldl (fun s act =>
      (List.range 4).foldl (fun s q =>
        let m := act &&& quarterMask q
        if m == 0 then s
        else if (s.w.fifo q).length ≥ 8 then s.desync q m 2
        else
          let e := (List.range 8).map fun i => BitVec.ofNat 32 (s.w.src false vS (8 * q + i))
          s.modW fun w => { w with sfifo := listPut [] 4 w.sfifo q (w.fifo q ++ [e]) }) s) s

end Sys2Proof.Machine
end

