-- ==== Sys2Proof/Machine/Transfer.lean ====
section
/-! DEFINITION. The transfer processor's instructions (R316 to R333) and the counted barriers, which waves use as well. A
transfer processor has no lanes: what it holds, parks and transfers stands on lane 0. -/

namespace Sys2Proof.Machine
open Sys2Proof

/-- The one lane that stands for a transfer processor. -/
def xpLane : Mask := 1

def State.xpHold (s : State) (kind cause addr : Nat) : State := s.hold xpLane kind cause addr 0

/-! ## Loops (R317) -/

/-- `xloop` (R317). -/
def execXloop (n : DReg) (e : BitVec 18) (s : State) : Host.Outcome State Fault Refusal :=
  s.onXp fun s =>
    let stop := s.focus.pc + e.toNat
    let k := (s.x.dreg n.toNat).toNat
    let ls := s.x.loops
    if k == 0 then s.modF fun f => { f with taken := [(0, stop)] }
    else if decide (4 ≤ ls.length) || (ls.head?.elim false fun t => decide (t.stop < stop)) then s.xpHold 7 0 0
    else s.modX fun p => { p with loops := ⟨s.focus.pc + 8, stop, k⟩ :: p.loops }

/-! ## Tensor index arithmetic (R318, R319) -/

/-- A tensor descriptor as its registers hold it. -/
structure TDesc where
  base   : Nat
  esz    : Nat
  n      : Nat
  ext    : List Nat
  stride : List Int
deriving DecidableEq, Repr

/-- The descriptor at dT; none where it raises the tensor-descriptor fault (R318). -/
def XP.tdesc (p : XP) (t : Nat) : Option TDesc :=
  let h := (p.dreg (t + 2)).toNat
  let n := bitsN h 1 0 + 1
  let ext := (List.range n).map fun i => (p.dreg (t + 3 + 2 * i)).toNat
  let str := (List.range n).map fun i => (p.dreg (t + 4 + 2 * i)).toInt
  if t % 2 != 0 || decide (31 < t + 2) || bitsN h 31 5 != 0 || decide (3 < bitsN h 4 2) || decide (31 < t + 2 + 2 * n) ||
      ext.any (fun e => e == 0 || decide (2 ^ 31 ≤ e)) then none
  else some ⟨(p.dpair t).toNat, bitsN h 4 2, n, ext, str⟩

/-- The descriptor with its coordinates, whose registers must exist (R318). -/
def XP.tcoord (p : XP) (t k : Nat) : Option (TDesc × List Nat) :=
  match p.tdesc t with
  | none => none
  | some d => if 31 < k + d.n - 1 then none else some (d, (List.range d.n).map fun i => (p.dreg (k + i)).toNat)

/-- Σ stride i · c i. -/
def dotStride : List Int → List Nat → Int
  | x :: xs, c :: cs => x * c + dotStride xs cs
  | _, _ => 0

/-- Run an index instruction on a good descriptor (R319). -/
def State.tensor (s : State) (t k : DReg) (f : State → TDesc → List Nat → State) : Host.Outcome State Fault Refusal :=
  s.onXp fun s =>
    match s.x.tcoord t.toNat k.toNat with
    | none => s.xpHold 6 0 0
    | some d => f s d.1 d.2

/-- `tadr` (R319). -/
def execTadr (d t k : DReg) (s : State) : Host.Outcome State Fault Refusal :=
  s.tensor t k fun s x c => s.modX fun p => p.setD64 d.toNat (BitVec.ofNat 64 (wrapN 64 ((x.base : Int) + dotStride x.stride c)))

/-- `tin` (R319). -/
def execTin (d t k : DReg) (s : State) : Host.Outcome State Fault Refusal :=
  s.tensor t k fun s x c =>
    s.modX fun p => p.setD d.toNat (BitVec.ofNat 32 (b2n ((c.zip x.ext).all fun y => decide (y.1 < y.2))))

/-- Advance coordinates: the new ones and how many dimensions wrapped (R319). -/
def tadvance : List Nat → List Nat → List Nat × Nat
  | c :: cs, e :: es =>
    if c + 1 < e then ((c + 1) :: cs, 0)
    else
      let r := tadvance cs es
      (0 :: r.1, r.2 + 1)
  | cs, _ => (cs, 0)

/-- `tinc` (R319): dD is written last. -/
def execTinc (d t k : DReg) (s : State) : Host.Outcome State Fault Refusal :=
  s.tensor t k fun s x c =>
    let r := tadvance c x.ext
    s.modX fun p =>
      ((List.range x.n).foldl (fun p i => p.setD (k.toNat + i) (BitVec.ofNat 32 (listGet 0 r.1 i))) p).setD d.toNat
        (BitVec.ofNat 32 r.2)

/-! ## Index loads (R320) -/

/-- `lidx` (R320). -/
def execLidx (w : Bool) (d a : DReg) (e : BitVec 18) (s : State) : Host.Outcome State Fault Refusal :=
  s.onXp fun s =>
    let n := if w then 8 else 4
    let off := wrapN 32 (((s.x.dreg a.toNat).toNat : Int) + e.toInt)
    match s.spadByte s.cur off n false with
    | .error k => s.xpHold k 0 0
    | .ok x =>
      if (s.core s.cur).absent.contains (x / 128) then s.parkOn xpLane (.present [(s.cur, x / 128)])
      else s.modX fun p =>
        let v := rdSpad (s.core s.cur) x n
        if w then p.setD64 d.toNat (BitVec.ofNat 64 v) else p.setD d.toNat (BitVec.ofNat 32 v)

/-! ## Transfers (R321 to R327) -/

/-- Program transfers of a transfer processor that have not completed. -/
def State.progCount (s : State) (core x : Nat) : Nat :=
  ((s.core core).copies.filter fun c => c.xp == x && c.from' == .prog).length

/-- Issue a program transfer, or park behind 64 others (R321). -/
def State.issueXfer (s : State) (shape : CShape) (dst : Place) (total : Nat) (lines src : List (Nat × Nat)) : State :=
  if s.progCount s.cur s.curX ≥ 64 then s.parkOn xpLane .xferRoom
  else
    let (id, s) := s.newId
    s.pushCopy s.cur ⟨id, s.curX, .prog, s.curAslot, s.curLid, shape, dst, total, 0, false, false, lines, src, [], [], s.focus.pc, none, [], [], []⟩

/-- `xfer` (R322): the checks of R277, each as a transfer-operand fault. -/
def execXfer (sk dk : MKind) (a d l : DReg) (s : State) : Host.Outcome State Fault Refusal :=
  s.onXp fun s =>
    let src := (s.x.dpair a.toNat).toNat
    let dst := (s.x.dpair d.toNat).toNat
    let len := (s.x.dreg l.toNat).toNat
    match copyBad sk dk src dst len with
    | some _ => s.xpHold 9 0 0
    | none =>
      match s.placeOf s.curLid s.cur sk src len, s.placeOf s.curLid s.cur dk dst len with
      | some p, some q => s.issueXfer (.lin p) q len (placeLines q len) (placeLines p len)
      | _, _ => s.xpHold 4 0 0

/-- The lines of a list of operands of `n` bytes, where they lie in the allocation. -/
def State.operandLines (s : State) (k : MKind) (ops : List Nat) (n : Nat) : List (Nat × Nat) :=
  dedup (ops.flatMap fun x =>
    if operandBad k x then [] else (s.placeOf s.curLid s.cur k x n).elim [] fun p => placeLines p n)

/-- `xfer.g` (R323) (DEDUCED, log entry 48). -/
def execXferG (sk dk : MKind) (a d i r : DReg) (rb : BitVec 16) (n : BitVec 10) (s : State) :
    Host.Outcome State Fault Refusal :=
  s.onXp fun s =>
    let src := (s.x.dpair a.toNat).toNat
    let dst := (s.x.dpair d.toNat).toNat
    let io := (s.x.dreg i.toNat).toNat
    let rows := n.toNat + 1
    let row := rb.toNat
    match copyBad sk dk src dst row with
    | some _ => s.xpHold 9 0 0
    | none =>
      if io % 4 != 0 then s.xpHold 9 0 0
      else
        match s.spadRange s.curLid s.cur io (4 * rows), s.placeOf s.curLid s.cur dk dst (rows * row) with
        | some ia, some q =>
          let gone := (spadLines s.cur ia (4 * rows)).filter fun x => (s.core x.1).absent.contains x.2
          if !gone.isEmpty then s.parkOn xpLane (.present gone)
          else
            let idx := (List.range rows).map fun k => rdSpad (s.core s.cur) (ia + 4 * k) 4
            let off (x : Nat) : Int := (x : Int) * (s.x.dreg r.toNat).toInt
            let live := idx.filter (· != 0xFFFFFFFF)
            if (!isGlob sk || !isGlob dk) && live.any (fun x => off x % 4 != 0) then s.xpHold 9 0 0
            else
              let ops := idx.map fun x => if x == 0xFFFFFFFF then none else some (wrapN 64 ((src : Int) + off x))
              let lines := if isGlob sk then [] else s.operandLines sk (ops.filterMap id) row
              s.issueXfer (.rows sk row ops) q (rows * row) (placeLines q (rows * row)) lines
        | _, _ => s.xpHold 4 0 0

/-- The elements of a box, dimension 0 fastest: Σ stride i · e i (R324). -/
def boxOffsets : List Nat → List Int → List Int
  | e :: es, x :: xs => (boxOffsets es xs).flatMap fun o => (List.range e).map fun (i : Nat) => o + x * (i : Int)
  | _, _ => [0]

/-- `xfer.t` (R324). -/
def execXferT (sk dk : MKind) (t d : DReg) (s : State) : Host.Outcome State Fault Refusal :=
  s.onXp fun s =>
    let dst := (s.x.dpair d.toNat).toNat
    match s.x.tdesc t.toNat with
    | none => s.xpHold 6 0 0
    | some x =>
      let e := 2 ^ x.esz
      let total := e * x.ext.foldl (· * ·) 1
      if (copyBad sk dk x.base dst total).isSome || (!isGlob sk && (decide (x.esz < 2) || x.stride.any fun y => y % 4 != 0)) then
        s.xpHold 9 0 0
      else
        match s.placeOf s.curLid s.cur dk dst total with
        | none => s.xpHold 4 0 0
        | some q =>
          if isGlob sk then s.issueXfer (.box sk x.base x.esz x.ext x.stride) q total (placeLines q total) []
          else
            let ops := (boxOffsets x.ext x.stride).map fun o => wrapN 64 ((x.base : Int) + o)
            if ops.any (operandBad sk) || ops.any (fun y => (s.placeOf s.curLid s.cur sk y e).isNone) then s.xpHold 4 0 0
            else s.issueXfer (.box sk x.base x.esz x.ext x.stride) q total (placeLines q total) (s.operandLines sk ops e)

/-- A convolution descriptor (R325): its fields, or none where one is outside its limits. `w` reads its 32-bit words. Answers
shape, destination offset, row bytes, pitch and rows. -/
def convDesc (w : Nat → Nat) : Option (CShape × Nat × Nat × Nat × Nat) :=
  let base := w 0 + 2 ^ 32 * w 1
  let h := bitsN (w 2) 15 0
  let wd := bitsN (w 2) 31 16
  let c := bitsN (w 3) 15 0
  let gs := bitsN (w 3) 31 16
  let dw := bitsN (w 4) 31 28
  let dh := bitsN (w 4) 27 24
  let sw := bitsN (w 4) 23 20
  let sh := bitsN (w 4) 19 16
  let ks := bitsN (w 4) 15 8
  let kr := bitsN (w 4) 7 0
  let esz := bitsN (w 5) 17 16
  let pw := bitsN (w 5) 15 8
  let ph := bitsN (w 5) 7 0
  let ow := bitsN (w 6) 15 0
  let g := bitsN (w 6) 31 16
  let np := bitsN (w 8) 15 0
  let dest := w 9
  let pitch := w 10
  let cg := c / gs
  let row := kr * ks * cg * 2 ^ esz
  let zero := [h, wd, gs, dw, dh, sw, sh, ks, kr, ow, np].any (· == 0)
  let res := bitsN (w 5) 31 18 != 0 || bitsN (w 8) 31 16 != 0 || (List.range 5).any fun i => w (11 + i) != 0
  if zero || res || c % gs != 0 || decide (gs ≤ g) || decide (2 ^ 57 ≤ base) || dest % 4 != 0 || pitch % 4 != 0 ||
      row % 4 != 0 || decide (pitch < row) then none
  else some (.conv base h wd c cg g dh dw sh sw kr ks esz ph pw ow (w 7) np pitch, dest, row, pitch, np)

/-- `cgen` (R325, R326). -/
def execCgen (a : DReg) (s : State) : Host.Outcome State Fault Refusal :=
  s.onXp fun s =>
    let off := (s.x.dreg a.toNat).toNat
    if off % 64 != 0 then s.xpHold 9 0 0
    else
      match s.spadRange s.curLid s.cur off 64 with
      | none => s.xpHold 4 0 0
      | some x =>
        if (s.core s.cur).absent.contains (x / 128) then s.parkOn xpLane (.present [(s.cur, x / 128)])
        else
          match convDesc fun i => rdSpad (s.core s.cur) (x + 4 * i) 4 with
          | none => s.xpHold 9 0 0
          | some (shape, dest, row, pitch, np) =>
            match s.spadRange s.curLid s.cur dest ((np - 1) * pitch + row) with
            | none => s.xpHold 9 0 0
            | some q =>
              let lines := dedup ((List.range np).flatMap fun r => spadLines s.cur (q + r * pitch) row)
              s.issueXfer shape (.spad s.cur q) (np * row) lines []

/-- `xwait` (R327). -/
def execXwait (d : DReg) (s : State) : Host.Outcome State Fault Refusal :=
  s.onXp fun s =>
    if s.progCount s.cur s.curX > 0 then s.parkOn xpLane .xferDone
    else s.modX fun p => { (p.setD d.toNat (BitVec.ofNat 32 (b2n p.err))) with err := false }

/-! ## Counted barriers (R328 to R330) -/

/-- Whether the unit is a transfer processor, and the lanes that wait or fault. -/
def State.unitLanes (s : State) (c : Ctl) : Mask :=
  match s.focus.unit with
  | .xp _ _ => xpLane
  | _ => s.active c.guard

/-- An instruction that a wave executes once if a lane is Active, and a transfer processor always. -/
def State.onceBoth (s : State) (c : Ctl) (f : State → State) : Host.Outcome State Fault Refusal :=
  s.onBoth c.rbf 0 (fun s => s.scalar c.guard f) f

/-- `cba` (R329, R330): a release of the Active lanes of a wave, which carries their sequence numbers (R122); a transfer processor first waits
for its transfers (R115). -/
def execCba (c : Ctl) (cb : BitVec 4) (k : BitVec 18) (s : State) : Host.Outcome State Fault Refusal :=
  s.onceBoth c fun s =>
    let add (s : State) (made : State → State) : State :=
      match s.cbAdd s.cur cb.toNat k.toNat with
      | (s, true) => made s
      | (s, false) => s.hold (s.unitLanes c) 8 cb.toNat 0 0
    match s.focus.unit with
    | .xp _ _ => if s.progCount s.cur s.curX > 0 then s.parkOn xpLane .xferDone else add s fun s => s.bump s.partyId 1
    | _ =>
      let act := s.active c.guard
      s.afterAll act fun s => add s fun s => s.released act

/-- The resumed instruction was a wait that has passed. -/
def Focus.cbPassed (f : Focus) : Bool :=
  match f.resume with
  | some (.cbw _ _ true) => true
  | _ => false

/-- `cbw` (R329, R330): the waiter joins the list, and passes when it is first and the counter is high enough. -/
def execCbw (c : Ctl) (cb : BitVec 4) (k : BitVec 18) (s : State) : Host.Outcome State Fault Refusal :=
  s.onceBoth c fun s =>
    if s.focus.cbPassed then s
    else
      let b := (s.core s.cur).cbar cb.toNat
      if b.wait.isEmpty && decide (k.toNat ≤ b.count) then s.modCb s.cur cb.toNat fun b => { b with count := b.count - k.toNat }
      else
        let me := s.unitLanes c
        let who : Waiter := match s.focus.unit with
          | .xp _ x => .xp x
          | _ => .wave s.w.uid me
        (s.modCb s.cur cb.toNat fun b => { b with wait := b.wait ++ [(who, k.toNat)] }).parkOn me (.cbw cb.toNat k.toNat false)

/-- `cbset` (R329). -/
def execCbset (c : Ctl) (cb : BitVec 4) (k : BitVec 18) (s : State) : Host.Outcome State Fault Refusal :=
  s.onceBoth c fun s => s.modCb s.cur cb.toNat fun b => { b with count := k.toNat }

/-! ## Other instructions -/

/-- Push a chain head, or park on a full FIFO (R310). -/
def State.pushHead (s : State) (lanes : Mask) (x : Nat) (h : Head) : State :=
  if (s.xp s.cur x).heads.length ≥ 4 then s.parkOn lanes (.heads x)
  else s.modXp s.cur x fun p => { p with heads := p.heads ++ [h] }

/-- `chain` (R331). -/
def execChain (x : Bool) (h : DReg) (s : State) : Host.Outcome State Fault Refusal :=
  s.onXp fun s => s.pushHead xpLane (b2n x) ⟨(s.x.dpair h.toNat).toNat, s.x.bind⟩

/-- `xhalt` (R332). -/
def execXhalt (s : State) : Host.Outcome State Fault Refusal := s.onXp fun s => s.modX fun p => { p with st := .halted }

end Sys2Proof.Machine
end

