-- ==== Sys2Proof/Machine/Tasks.lean ====
section
/-! DEFINITION. Launch blocks (R53, R54), `exit` (R338, R339), barriers of a launch (R340, R341), the register window (R342),
atomic sets (R344), `age` and `yield` (R349, R350). -/

namespace Sys2Proof.Machine
open Sys2Proof

/-! ## Launch blocks -/

/-- Read the fields of a block (R53). `w` are its eight 64-bit words; depth is set when the block is created. -/
def blockOf (w : List DWord) : Block :=
  let f (i : Nat) : Nat := (listGet 0 w i).toNat
  let b := f 1
  let c := f 2
  { entry := bitsN (f 0) 56 2 * 4
    kind := bitsN b 63 61
    prio := bitsN b 60 58
    fuse := bitN b 57
    race := bitN b 56
    commit := bitN b 55
    child := bitN b 54
    flt := bitN b 53
    waves := bitsN b 52 48 + 1
    vregs := 8 * bitsN b 47 42
    spad := bitsN b 41 30
    depth := 0
    h := bitsN c 19 15 + 1
    w := bitsN c 14 10 + 1
    y0 := bitsN c 9 5
    x0 := bitsN c 4 0
    image := bitsN (f 3) 56 12 * 4096
    args := (List.range 4).flatMap fun i => [lowWord (listGet 0 w (4 + i)), highWord (listGet 0 w (4 + i))] }

/-- A condition of R54 that rejects a block, whoever creates it. -/
def blockBad (w : List DWord) : Bool :=
  let f (i : Nat) : Nat := (listGet 0 w i).toNat
  let k := blockOf w
  bitsN (f 0) 63 57 != 0 || bitsN (f 0) 1 0 != 0 || bitsN (f 1) 24 0 != 0 || bitsN (f 2) 63 20 != 0 ||
  bitsN (f 3) 63 57 != 0 || bitsN (f 3) 11 0 != 0 || decide (3 ≤ k.kind) || k.vregs == 0 || decide (256 < k.vregs) ||
  decide (2048 < k.spad) || decide (4096 < k.waves * k.vregs) ||
  (!k.flt && (decide (32 < k.x0 + k.w) || decide (32 < k.y0 + k.h))) ||
  (k.kind == 2 && (k.waves != 1 || k.w != 1 || k.h != 1 || k.flt))

/-- A block, or the kind of fault with which it is rejected: launch-block or task-depth (R54). -/
def checkBlock (w : List DWord) (depth : Nat) : Except Nat Block :=
  if blockBad w then .error 0x19
  else
    let k := blockOf w
    if k.child && decide (16 ≤ depth) then .error 0x1A
    else .ok { k with depth := if k.child then depth + 1 else depth }

/-- Create a launch or task (R34, R53): it takes the creation counter's value. -/
def State.newLaunch (s : State) (k : Block) (root aslot : Nat) (priv : Bool) : State × Nat :=
  let l : Launch := ⟨k, root, aslot, priv, k.h * k.w * k.waves, [], [], []⟩
  let roots := match aget s.roots root with
    | some r => aput s.roots root { r with live := r.live + 1 }
    | none => s.roots
  ({ s with stamp := s.stamp + 1, launches := aput s.launches s.stamp l, roots := roots }, s.stamp)

/-- Enter a launch in the distributor's queue of its priority (R56). -/
def State.enqueue (s : State) (prio lid : Nat) : State :=
  { s with dist := { s.dist with queues := listPut [] 8 s.dist.queues prio (listGet [] s.dist.queues prio ++ [lid]) } }

/-- Blocks that a deque holds on chip and in its spill area (R62). -/
def dequeCap : Nat := 64 + 65536

/-! ## `exit` -/

/-- Read and check the successor blocks one by one (R339): number and address of each. -/
def State.readBlocks (lanes : Mask) (depth : Nat) (go : State → List Block → State) :
    List (Nat × Nat) → List Block → State → State
  | [], acc, s => go s acc.reverse
  | (k, a) :: rest, acc, s =>
    if a % 64 != 0 then s.hold lanes 3 0 a 0
    else
      s.reading lanes a 64 fun s bs =>
        match checkBlock ((List.range 8).map fun i => BitVec.ofNat 64 (ofBytes ((bs.drop (8 * i)).take 8))) depth with
        | .error kind => s.hold lanes kind 0 a k
        | .ok b => State.readBlocks lanes depth go rest (b :: acc) s

/-- Create one successor: a task at the near end of the core's deque, any other at the distributor (R339, R61). -/
def State.createOne (s : State) (core : Nat) (k : Block) (root aslot : Nat) (priv : Bool) : State :=
  let (s, lid) := s.newLaunch k root aslot priv
  if k.kind == 2 then s.modCore core fun c => { c with deque := lid :: c.deque, lastSteal := none } else s.enqueue k.prio lid

/-- A root that does not exist: that of what a handler wave creates (DEDUCED, log entry 26). -/
def noRoot : Nat := 2 ^ 64

/-- From the commit point on (R339): drain, release the sets, create the successors, leave the core (R333), end (DEDUCED, log entry 28). -/
def State.exitGo (s : State) : State :=
  let w := s.w
  let core := s.cur
  let lanes := s.focus.lanes
  match s.depart core s.curSlot w s.focus.pc s.focus.insn with
  | (s, some c) => s.parkOn lanes c
  | (s, none) =>
    let root := (s.curLid.bind (aget s.launches)).elim noRoot (·.root)
    let s := (w.exits.foldl (fun s k => s.createOne core k root w.aslot w.priv) s).modW fun w => { w with exits := [] }
    match s.lastOut core w with
    | (s, true) => s.parkOn lanes .leave
    | (s, false) => (s.endWave core w.uid).modF fun f => { f with gone := true }

/-- The commit point (R339): the other lanes of the wave end with it (DEDUCED, log entry 49). -/
def State.commitExit (s : State) (ks : List Block) : State :=
  (s.modW fun w => { w with
    past := true
    exits := ks
    ended := ~~~ s.focus.lanes
    streams := w.streams.filter fun t => t.lanes &&& s.focus.lanes != 0 }).exitGo

/-- `exit` (R338, R339). -/
def execExit (c : Ctl) (n : BitVec 3) (sB : SReg) (s : State) : Host.Outcome State Fault Refusal :=
  s.once c fun s =>
    if s.w.past then s.exitGo
    else
      let act := s.active c.guard
      let adr := (List.range n.toNat).map fun k => (k, (s.spair (sB.toNat + 2 * k)).toNat)
      State.readBlocks act s.w.depth (fun s ks =>
        let tasks := (ks.filter fun k => k.kind == 2).length
        if tasks != 0 && decide (dequeCap < (s.core s.cur).deque.length + tasks) then s.hold act 0x1B 0 0 0
        else s.commitExit ks) adr [] s

/-! ## Barriers -/

/-- `wbar` (R340). -/
def execWbar (c : Ctl) (s : State) : Host.Outcome State Fault Refusal :=
  s.once c fun s =>
    match s.focus.resume with
    | some (.wbar _ _) => s
    | _ =>
      let act := s.active c.guard
      s.arriving act fun s =>
        let s := (s.modW fun w => { w with wbars := w.wbars + 1 }).bump s.waveId 1
        let w := s.w
        if w.handler.isSome || s.wbarDone s.cur w.lid w.wbars then s.barScan w.lid
        else s.parkOn act (.wbar w.wbars false)

/-- `sbar` (R341). -/
def execSbar (c : Ctl) (sS : SReg) (s : State) : Host.Outcome State Fault Refusal :=
  s.once c fun s =>
    let act := s.active c.guard
    match s.focus.resume with
    | some (.sbar _ _ res) => if res == some false then s.hold act 0x1C 2 0 0 else s
    | _ =>
      let desc := s.scal false sS
      match s.curLid.bind (aget s.launches) with
      | none => s.hold act 0x1C 1 0 0
      | some l =>
        if !descOk l.blk desc s.cur then s.hold act 0x1C 1 0 0
        else
          s.arriving act fun s =>
            let s := (s.modW fun w => { w with sbars := w.sbars ++ [desc] }).bump s.waveId 1
            let w := s.w
            let s := s.barScan w.lid
            match s.sbarDone w.lid w.sbars.length s.cur desc with
            | some true => s
            | some false => s.hold act 0x1C 2 0 0
            | none => s.parkOn act (.sbar w.sbars.length desc none)

/-! ## The register window (R51, R342) -/

/-- The blocked claims of a wave: lanes and n. -/
def Wave.claims (w : Wave) : List (Mask × Nat) :=
  w.streams.filterMap fun t => match t.st with
    | .park (.claim n false) _ _ _ => some (t.lanes, n)
    | _ => none

/-- Blocked claims of resident waves of a core, oldest first (R35, R51): slot, lanes and n. Of two parts of one wave, the earlier in its list
comes first (DESIGN CHOICE, log entry 75). -/
def State.claims (s : State) (core : Nat) : List (Nat × Mask × Nat) :=
  (sortBy (fun a b => a.2.older b.2) (s.core core).slots).flatMap fun x => x.2.claims.map fun y => (x.1, y)

/-- Give a wave n registers more from the pool; they read 0 until they are written (R50, R342). -/
def State.takeRegs (s : State) (core slot n : Nat) : State :=
  (s.modWave core slot fun w => { w with d := w.d + n, v := mdrop (fun k => decide (32 * w.d ≤ k)) w.v }).modCore core fun c => { c with free := c.free - n }

/-- `rrel` (R342). -/
def execRrel (c : Ctl) (n : BitVec 18) (s : State) : Host.Outcome State Fault Refusal :=
  s.once c fun s =>
    let d := s.w.d
    let n := n.toNat
    if d < n + 8 then s.hold (s.active c.guard) 0x1D 0 0 n
    else
      (s.modW fun w => { w with d := d - n, v := mdrop (fun k => decide (32 * (d - n) ≤ k)) w.v }).modCore s.cur fun c =>
        { c with free := c.free + n }

/-- `rclaim` (R342, R51): served at once when no claim is blocked and the pool has room; else it blocks. A wave whose blocked claim
has been served goes on. -/
def execRclaim (c : Ctl) (n : BitVec 18) (s : State) : Host.Outcome State Fault Refusal :=
  s.once c fun s =>
    let n := n.toNat
    match s.focus.resume with
    | some (.claim _ _) => s
    | _ =>
      if s.w.d + n > 256 then s.hold (s.active c.guard) 0x1D 0 0 n
      else if (s.claims s.cur).isEmpty && decide (n ≤ (s.core s.cur).free) then s.takeRegs s.cur s.curSlot n
      else s.parkOn (s.active c.guard) (.claim n false)

/-! ## Atomic sets (R344) -/

/-- `aset` (R344). -/
def execAset (c : Ctl) (sB sL sI : SReg) (s : State) : Host.Outcome State Fault Refusal :=
  s.oncePlain c fun s =>
    let act := s.active c.guard
    let base := s.scal true sB
    let len := s.scal false sL
    let id := s.scal false sI
    let live := (s.slot? s.curAslot).elim [] (·.sets)
    let fault (cause : Nat) : State := s.hold act 0x1F cause 0 id
    if base % 128 != 0 || len % 128 != 0 || decide (len < 128) || decide (2 ^ 30 < len) then fault 1
    else if 255 < id then fault 2
    else if live.any fun x => x.id == id || overlaps x.base x.len base len then fault 3
    else s.modSlot s.curAslot fun a => { a with sets := a.sets ++ [⟨id, base, len, none, []⟩] }

/-- `aset.del` (R344). -/
def execAsetDel (c : Ctl) (sI : SReg) (s : State) : Host.Outcome State Fault Refusal :=
  s.oncePlain c fun s =>
    let act := s.active c.guard
    let id := s.scal false sI
    let fault (cause : Nat) : State := s.hold act 0x1F cause 0 id
    if 255 < id then fault 2
    else
      match ((s.slot? s.curAslot).elim [] (·.sets)).find? fun x => x.id == id with
      | none => fault 4
      | some x =>
        if x.holder.isSome then fault 5
        else s.modSlot s.curAslot fun a => { a with sets := a.sets.filter fun y => y.id != id }

/-! ## `age` and `yield` -/

/-- `age` (R349). -/
def execAge (c : Ctl) (sD : SReg) (s : State) : Host.Outcome State Fault Refusal :=
  s.once c fun s => s.setScal true sD s.w.stamp

/-- `age.lt` (R349). -/
def execAgeLt (c : Ctl) (p : BitVec 4) (sA : SReg) (s : State) : Host.Outcome State Fault Refusal :=
  s.once c fun s =>
    let lt := decide (s.w.stamp < s.scal true sA)
    s.setPreds p.toNat (s.active c.guard) fun _ => lt

/-- `yield` (R350): the waves of the scheduler that are ready go first. -/
def execYield (c : Ctl) (s : State) : Host.Outcome State Fault Refusal :=
  s.once c fun s =>
    let k := s.curSlot / 8
    let me := s.curSlot
    let others := ((s.core s.cur).slots.filter fun x => x.1 / 8 == k && x.1 != me && s.ready s.cur x.2).map fun x => x.2.uid
    s.modW fun w => { w with yieldTo := others }

end Sys2Proof.Machine
end

