-- ==== Sys2Proof/Machine/System.lean ====
section
/-! DEFINITION. `trap` and the return from a handler (R354, R355), system registers (R356, R357, R368, R415) and `gen`
(R358). -/

namespace Sys2Proof.Machine
open Sys2Proof

/-- `trap` (R354): the user trap takes the Active lanes into a held record. -/
def execTrap (c : Ctl) (code : BitVec 18) (s : State) : Host.Outcome State Fault Refusal :=
  s.once c fun s => s.hold (s.active c.guard) 0x23 0 0 code.toNat

/-! ## `rft` -/

/-- The resolution word of a record at an external address as it will be once every store that has been issued to it is performed. -/
def State.wordAt (s : State) (fr pa : Nat) : Nat :=
  ((s.flows.flatMap (·.open')).foldl (fun (r : Option FRec) a => match a.req with
    | .store _ d => if a.pa == pa then r.map fun r => r.heed d.toNat else r
    | _ => r) (s.recs.find? fun r => r.id == fr)).elim 0 FRec.res

/-- Store a code in a record's resolution word, through the L1 (R20), as the store of handler lane `h` (R355); none where it would fault, or
what it waits for. A record in the external window takes its code once the store is performed (R366; DEDUCED, log entry 50). -/
def State.storeCode (s : State) (h fr va lane code : Nat) : State × Except (Option ParkCond) Unit :=
  let put (x : Nat) : Nat := putBits x (2 * lane + 1) (2 * lane) code
  match s.reach s.cur s.curAslot va .store with
  | (s, .ok a) =>
    if isExt a.pa then
      let req : RemReq := .store 8 (BitVec.ofNat 64 (put (s.wordAt fr a.pa)))
      match s.issue s.cur 0 s.curAslot (.new .store s.w.uid 0 h (laneMask h) va a.pa req false false noEvent) with
      | (s, .sent _ _) => (s, .ok ())
      | (s, .full f) => (s, .error (some (.flowRoom f)))
      | (s, .bad) => (s, .error none)
    else if s.sealedLine a.pa then (s, .error none)
    else
      let (s, x) := (s.tokWrite s.cur s.curAslot va a).physLoad a.pa 8
      (s.physStore a.pa (toBytes 8 (put x)), .ok ())
  | (s, .fault _ _) => (s, .error none)
  | (s, .park c) => (s, .error (some c))

/-- Write a register of a lane of a pre-empted origin to its context image (R372): what the write waits for, or whether it has met a fault,
which is the image's (R377). A word beyond bonded DRAM stays on the chip (DESIGN CHOICE, log entry 20). -/
def State.imageWord (s : State) (core : Nat) (w : Wave) (n l : Nat) (x : Word) : State × Except ParkCond Bool :=
  let va := w.image + 128 * n + 4 * l
  if w.handler.isSome then (s, .ok true)
  else if 2 ^ 57 ≤ va then (s, .ok false)
  else
    match s.translate core w.aslot va .store with
    | (s, .ok a) =>
      if isExt a.pa then (s, .ok true)
      else if s.sealedLine a.pa then (s, .ok false)
      else ((s.tokHome a.pa).physStore a.pa (toBytes 4 x.toNat), .ok true)
    | (s, .park c) => (s, .error c)
    | (s, .fault _ _) => (s, .ok false)

/-- The fault of a wave's image (R377): on every lane of it. -/
def State.imageFault (s : State) (core slot : Nat) (w : Wave) (spill : Bool) : State :=
  let lanes := ~~~ w.ended
  (s.raise ⟨w.aslot, core, w.uid, slot, w.unitNo, w.pc (lowLane lanes), w.image, 0, w.stamp, lanes, 0, 0x28,
    if spill then 1 else 2, 0, 0, none⟩).1

/-- A handler lane writes a register of its origin (R355, R372): what it waits for. -/
def State.rftWrite (s : State) (o : Origin) (core : Nat) (ow : Wave) (n : Nat) (x : Word) : State × Option ParkCond :=
  let put (s : State) : State := s.modUid o.uid fun ow => ow.setV n o.lane x
  if (s.findSlot o.uid).isSome then (put s, none)
  else
    match s.imageWord core ow n o.lane x with
    | (s, .error c) => (s, some c)
    | (s, .ok true) => (put s, none)
    | (s, .ok false) => ((put s).imageFault core o.slot ow true, none)

/-- One handler lane returns (R355, R372) (DEDUCED, log entry 50). -/
def State.rftLane (s : State) (code : Nat) (wr : Option (BitVec 8 × Src)) (h : Nat) : State :=
  let w := s.w
  let fault : State := s.hold (laneMask h) 0x24 0 0 0
  let done (s : State) : State := s.modW fun w => ({ w with ended := w.ended ||| laneMask h } : Wave).dropAll (laneMask h)
  match w.handler.bind fun l => l[h]? with
  | none => fault
  | some o =>
    match s.findWave o.uid with
    | none => done s
    | some (oc, ow) =>
      if wr.elim false fun x => decide (ow.d ≤ x.1.toNat) then fault
      else if hasLane ow.ended o.lane then done s
      else
        match s.storeCode h o.fr (o.va + 0x38) o.lane code with
        | (s, .error none) => s.hold (laneMask h) 0x24 0 0 0
        | (s, .error (some p)) => s.parkOn (laneMask h) p
        | (s1, .ok ()) =>
          match wr with
          | none => done s1
          | some x => match s1.rftWrite o oc ow x.1.toNat (BitVec.ofNat 32 (w.src false x.2 h)) with
            | (s1, none) => done s1
            | (_, some p) => s.parkOn (laneMask h) p

def State.rft (s : State) (c : Ctl) (code : Nat) (wr : Option (BitVec 8 × Src)) : Host.Outcome State Fault Refusal :=
  s.onWave c.rbf 0 fun s => (lanesOf (s.active c.guard)).foldl (fun s h => s.rftLane code wr h) s

/-- `rft.next` (R355). -/
def execRftNext (c : Ctl) (wr : Option (BitVec 8 × Src)) (s : State) : Host.Outcome State Fault Refusal := s.rft c 2 wr

/-- `rft.again` (R355). -/
def execRftAgain (c : Ctl) (wr : Option (BitVec 8 × Src)) (s : State) : Host.Outcome State Fault Refusal := s.rft c 1 wr

/-- `rft.end` (R355). -/
def execRftEnd (c : Ctl) (wr : Option (BitVec 8 × Src)) (s : State) : Host.Outcome State Fault Refusal := s.rft c 3 wr

/-! ## System registers -/

/-- wave.loc (R33). -/
def Wave.loc (w : Wave) (slot : Nat) : Nat :=
  b2n w.task * 2 ^ 31 + w.depth * 2 ^ 26 + slot * 2 ^ 21 + w.wix * 2 ^ 16 + w.prio * 2 ^ 13 + w.ry * 2 ^ 5 + w.rx

/-- xp0.stat, xp1.stat and xp.stat (R309). -/
def XP.stat (p : XP) : Nat :=
  let st := match p.st with
    | .halted => 0
    | .running => 1
    | .parked _ => 2
    | .stopped => 3
  st * 2 ^ 30 + b2n p.err * 2 ^ 29 + p.heads.length * 2 ^ 26 + b2n p.walk.isSome * 2 ^ 25 + p.loops.length * 2 ^ 22 +
    p.kind % 256 * 2 ^ 14 + p.cause % 2 ^ 14

/-- dev.id and slot.id (R415). -/
def State.devId (s : State) : Nat := b2n (s.boot.mode == 2) * 2 ^ 31 + s.devNo % 4096
def Wave.slotId (w : Wave) : Nat := b2n w.priv * 2 ^ 31 + w.aslot % 512

/-- Read a system register of a wave (R357, R368, R415); none where the number names no register that it may read. -/
def State.readCsr (s : State) (num : Nat) : Option (Bool × Nat) :=
  let c := s.core s.cur
  let w := s.w
  let a := (s.slot? w.aslot).getD (ASlot.fresh 0 false 0)
  match num with
  | 0x000 => some (false, (coreId s.cur).toNat)
  | 0x001 => some (false, c.smiss.toNat)
  | 0x002 => some (true, c.cdl.toNat)
  | 0x010 => some (false, w.loc s.curSlot)
  | 0x011 => some (true, w.stamp)
  | 0x020 => some (true, bitsN a.root 51 12 * 4096)
  | 0x021 => some (false, a.gen)
  | 0x028 => some (true, a.raceCtl.toNat)
  | 0x029 => some (false, a.raceHead)
  | 0x02A => some (false, a.raceDrop)
  | 0x032 => some (false, c.xp0.stat)
  | 0x033 => some (false, c.xp1.stat)
  | 0x100 => some (true, a.fltBase.toNat)
  | 0x101 => some (false, a.fltHead)
  | 0x102 => some (false, a.fltTail)
  | 0x108 => some (true, a.trapVec.toNat)
  | 0x109 => some (false, a.trapCfg.toNat)
  | 0x110 => some (false, a.dbgCtl.toNat)
  | 0x200 => some (false, s.devId)
  | 0x201 => some (false, w.slotId)
  | _ => none

/-- The illegal-instruction fault for a register that is not there (R357). -/
def State.noCsr (s : State) (m : Mask) : State := s.hold m 1 0x11 0 0

/-- `csrr` (R356, R307). -/
def execCsrr (c : Ctl) (sD : SReg) (num : BitVec 18) (s : State) : Host.Outcome State Fault Refusal :=
  let wave (s : State) : State := s.scalar c.guard fun s =>
    match s.readCsr num.toNat with
    | some (wide, x) => s.setScal wide sD x
    | none => s.noCsr (s.active c.guard)
  let xp (s : State) : State :=
    match num.toNat with
    | 0x000 => s.setScal false sD (coreId s.cur).toNat
    | 0x034 => s.setScal false sD s.x.stat
    | _ => s.noCsr xpLane
  s.onBoth c.rbf 0 wave xp

/-- Change the registers of the wave's slot. -/
def State.modMine (s : State) (f : ASlot → ASlot) : State := s.modSlot s.curAslot f

/-- flt.base keeps base and size, the size at most 12 (R360). -/
def fltBaseOf (x : Nat) : DWord := BitVec.ofNat 64 (bitsN x 56 12 * 2 ^ 12 + min (bitsN x 3 0) 12)
/-- trap.vec keeps table and en (R368). -/
def trapVecOf (x : Nat) : DWord := BitVec.ofNat 64 (bitsN x 56 9 * 2 ^ 9 + bitsN x 0 0)
/-- trap.cfg keeps prio and vregs (R368). -/
def trapCfgOf (x : Nat) : Word := BitVec.ofNat 32 (bitsN x 8 0)
/-- race.ctl keeps base, size and mode (R132). -/
def raceCtlOf (x : Nat) : DWord := BitVec.ofNat 64 (bitsN x 56 12 * 2 ^ 12 + bitsN x 11 8 * 2 ^ 8 + bitsN x 0 0)
/-- dbg.ctl keeps halt and bkpt (R378). -/
def dbgCtlOf (x : Nat) : Word := BitVec.ofNat 32 (bitsN x 1 0)

/-- `csrw` of the registers that have no row of their own (R356, R357, R368). A smaller ring may be full, a larger one has
room (R361). -/
def execCsrw (c : Ctl) (num : BitVec 18) (sA : SReg) (s : State) : Host.Outcome State Fault Refusal :=
  s.once c fun s =>
    let w := s.scal false sA
    let d := s.scal true sA
    match num.toNat with
    | 0x001 => s.modCore s.cur fun c => { c with smiss := BitVec.ofNat 32 w }
    | 0x028 => s.modMine fun a => { a with raceCtl := raceCtlOf d }
    | 0x029 => s.modMine fun a => { a with raceHead := w }
    | 0x02A => s.modMine fun a => { a with raceDrop := w }
    | 0x100 => (s.modMine fun a => { a with fltBase := fltBaseOf d }).writeAll s.curAslot
    | 0x108 => s.modMine fun a => { a with trapVec := trapVecOf d }
    | 0x109 => s.modMine fun a => { a with trapCfg := trapCfgOf w }
    | _ => s.noCsr (s.active c.guard)

/-- The binding that a wave gives to a chain head (R310). -/
def Wave.bind (w : Wave) : Bind := if w.handler.isSome then .slot w.aslot else .launch w.aslot w.lid

/-- `csrw xp0.chan` and `csrw xp1.chan` (R309, R310). -/
def execCsrwXpChan (c : Ctl) (x : Bool) (sA : SReg) (s : State) : Host.Outcome State Fault Refusal :=
  s.once c fun s => s.pushHead (s.active c.guard) (b2n x) ⟨s.scal true sA, s.w.bind⟩

/-- `csrw flt.tail` (R360, R361): room in the ring lets waiting records be written. -/
def execCsrwFltTail (c : Ctl) (sA : SReg) (s : State) : Host.Outcome State Fault Refusal :=
  s.once c fun s => (s.modMine fun a => { a with fltTail := s.scal false sA }).writeAll s.curAslot

/-- The lanes of a wave that are executing a run. -/
def State.grantedLanes (s : State) (core uid : Nat) : Mask :=
  (s.core core).grants.foldl (fun m g => match g with
    | some g => if (s.wave? core g.slot).elim false (·.uid == uid) then m ||| g.lanes else m
    | none => m) 0

/-- The lanes of the main part that a debug halt has parked: the others have not reached one (R45, R378). -/
def State.haltedLanes (s : State) (core : Nat) (w : Wave) : Mask :=
  w.mainPart &&& s.readyLanes core w &&& ~~~ s.grantedLanes core w.uid

/-- Lanes that resume together from a debug halt are a sub-wave (R45). -/
def Wave.subWave (w : Wave) (m : Mask) : Wave :=
  if m == 0 then w
  else { w with
    subs := w.subs ++ [m]
    streams := w.streams.map fun t => { t with bc := t.bc && t.lanes &&& m == 0 } }

/-- Write dbg.ctl of a slot (R378): clearing halt releases the lanes that it has halted. -/
def State.setDbg (s : State) (aslot x : Nat) : State :=
  let was := (s.slot? aslot).elim false fun a => a.dbgCtl.getLsbD 1
  let s' := s.modSlot aslot fun a => { a with dbgCtl := dbgCtlOf x }
  if was && !bitN x 1 then s'.mapWaves fun core w => if w.aslot == aslot then w.subWave (s.haltedLanes core w) else w else s'

/-- `csrw dbg.ctl` (R378). -/
def execCsrwDbgCtl (c : Ctl) (sA : SReg) (s : State) : Host.Outcome State Fault Refusal :=
  s.once c fun s => s.setDbg s.curAslot (s.scal false sA)

/-- `gen` (R358, R75): it waits for the wave's remote stores; every other is performed or logged before any later instruction (DEDUCED, log
entry 29). -/
def execGen (c : Ctl) (sD : SReg) (s : State) : Host.Outcome State Fault Refusal :=
  s.oncePlain c fun s => s.afterWave (s.active c.guard) fun s =>
    let g := (s.slot? s.curAslot).elim 0 (·.gen)
    if g == 0xFFFFFFFF then s.hold (s.active c.guard) 0x25 0 0 0
    else (s.modMine fun a => { a with gen := g + 1 }).setScal false sD (g + 1)

end Sys2Proof.Machine
end

