-- ==== Sys2Proof/Machine/Sched.lean ====
section
/-! DEFINITION. Runs, placement, admission, steals and claims (R44, R51, R52, R56 to R66, R377): the steps of the schedulers, the
distributor and the admission logic. A step whose condition does not hold changes nothing (DESIGN CHOICE, log entry 5). -/

namespace Sys2Proof.Machine
open Sys2Proof

/-! ## The context image (R376, R377) -/

/-- The byte ranges of its image that a wave uses (R347, R376): its registers, and what its commit buffer holds beyond the chip. The image of a
handler wave is the firmware's. -/
def Wave.imageUse (w : Wave) : List (Nat × Nat) :=
  if w.handler.isSome then []
  else (w.image, 128 * w.d) :: (if w.spilled.isEmpty then [] else [(w.image + 0x8000, 32 * w.spilled.length)])

/-- A range of the image by pages. -/
def byPages (x : Nat × Nat) : List (Nat × Nat) :=
  let here := 65536 - x.1 % 65536
  if x.2 ≤ here then [x] else [(x.1, here), (x.1 + here, x.2 - here)]

/-- What a spill or fill of a range within a page meets: nothing, a fault, or a page that waits (R377). A page beyond bonded DRAM takes
part in neither (DESIGN CHOICE, log entry 20). -/
def State.imagePart (s : State) (core aslot : Nat) (k : AKind) (x : Nat × Nat) : State × Except Bool Unit :=
  if 2 ^ 57 ≤ x.1 then (s, .error true)
  else
    match s.translate core aslot x.1 k with
    | (s, .ok a) =>
      let bad := if k.writes then (List.range ((x.2 + 127) / 128)).any fun i => s.sealedLine (a.pa + 128 * i)
        else (List.range ((x.2 + 31) / 32)).any fun i => s.poisoned (a.pa + 32 * i)
      (s, if !isExt a.pa && bad then .error true else .ok ())
    | (s, .park _) => (s, .error false)
    | (s, .fault _ _) => (s, .error true)

/-- The same of the whole image (DESIGN CHOICE, log entry 25). -/
def State.imageMeets (s : State) (core : Nat) (w : Wave) (k : AKind) : State × Except Bool Unit :=
  (w.imageUse.flatMap byPages).foldl (fun acc x =>
    match acc.2 with
    | .ok () => acc.1.imagePart core w.aslot k x
    | .error _ => acc) (s, .ok ())

/-- Write a line or part of one to the image. -/
def State.imageWrite (s : State) (aslot va : Nat) (bs : List Byte) : State :=
  match s.walk aslot va with
  | .leaf l => if isExt (l.pa va) then s else (s.tokHome (l.pa va)).physStore (l.pa va) bs
  | .fault _ => s

/-- Write a wave's registers and the spilled sectors of its commit buffer to its image (R347, R376; DESIGN CHOICE, log entry 20). -/
def State.spillOut (s : State) (w : Wave) : State :=
  let word (n l : Nat) : List Byte := toBytes 4 (w.vreg n l).toNat
  let s := (List.range (4 * w.d)).foldl (fun s i =>
    s.imageWrite w.aslot (w.image + 32 * i) ((List.range 8).flatMap fun j => word (i / 4) (8 * (i % 4) + j))) s
  ((List.range w.spilled.length).zip w.spilled).foldl (fun s x => s.imageWrite w.aslot (w.image + 0x8000 + 32 * x.1) x.2) s

/-- A spill or fill of the image of a resident wave (R377): a fault holds every lane of the wave; and whether it need not wait for a page. -/
def State.useImage (s : State) (core slot : Nat) (use : ImageUse) : State × Bool :=
  match use, s.wave? core slot with
  | .keep, _ | _, none => (s, true)
  | use, some w =>
    let spill := use == .spill
    match s.imageMeets core w (if spill then .store else .load) with
    | (s, .ok ()) => (if spill && w.handler.isNone then s.spillOut w else s, true)
    | (s, .error true) => (s.imageFault core slot w spill, true)
    | (s, .error false) => (s, false)

/-- `RUN_GRANT` (R36, R38, R44, R45, R366, R377). -/
def execRunGrant (core sched : Nat) (image : ImageUse) (s : State) : Host.Outcome State Fault Refusal :=
  .next
    (if sched ≥ 4 || (listGet none (s.core core).grants sched).isSome then s
     else
       let s := s.reapAll core sched
       match s.nextSlot core sched with
       | none => s
       | some k => match s.useImage core k image with
         | (s, true) => s.grantRun core sched
         | (s, false) => s)

/-! ## The mode of a cluster (R86) -/

/-- Change the mode of a core's cluster: every L1 of it is written back and emptied (R86). -/
def State.setMode (s : State) (core : Nat) (fuse : Bool) : State :=
  let cl := coreCluster core
  if (s.cluster cl).fused == fuse then s
  else (s.mapCores fun i c => if coreCluster i == cl then { c with l1 := [] } else c).modCluster cl fun c => { c with fused := fuse }

/-! ## Admission of one wave (R32, R57, R371) -/

/-- The free slot on the scheduler with the fewest waves (R57). -/
def Core.pickSlot (c : Core) : Option Nat :=
  let load (k : Nat) : Nat := (c.slots.filter fun x => x.1 / 8 == k).length
  let free := (List.range 32).filter fun k => (aget c.slots k).isNone
  free.foldl (fun best k => match best with
    | none => some k
    | some b => if load (k / 8) < load (b / 8) then some k else best) none

/-- The state of a wave admitted for the first time (R32). A task reads 0 as its core's column and row: the spec does not say what they are
relative to where it runs on its creator's or a thief's core (R33; DESIGN CHOICE, log entry 67). -/
def freshWave (uid lid : Nat) (l : Launch) (core wix : Nat) : Wave :=
  let k := l.blk
  let task := k.kind == 2
  let rx := if task then 0 else coreX core - k.x0
  let ry := if task then 0 else coreY core - k.y0
  let idx := if task then 0 else (ry * k.w + rx) * k.waves + wix
  { Wave.empty with
    uid := uid
    lid := lid
    aslot := l.aslot
    priv := l.priv
    race := k.race
    commit := task && k.commit
    prio := k.prio
    stamp := lid
    wix := wix
    rx := rx
    ry := ry
    task := task
    depth := k.depth
    image := k.image + 65536 * idx
    d := k.vregs
    pcs := List.replicate 32 (BitVec.ofNat 57 k.entry)
    bcast := BitVec.ofNat 57 k.entry
    s := (List.range 8).foldl (fun m i => mset 0 m i (listGet 0 k.args i)) []
    ran := true }

/-- Put a wave into a free slot of a core; its D leaves the pool; the slot's interval counts under race = 1 (R131). A `new` wave keeps
the slot as a mark of its age (R35). -/
def State.seat (s : State) (core : Nat) (w : Wave) (new : Bool) : State × Nat :=
  let k := ((s.core core).pickSlot).getD 0
  let w := if new then { w with seat := k } else w
  let s := s.modCore core fun c => { c with slots := aput c.slots k w, free := c.free - w.d }
  (if w.race then s.bump (32 * core + k) 1 else s, k)

/-- Take a launch's scratchpad allocation on a core, zero and present (R57, R80, R82); a launch admitted to an empty core zeroes its
counted barriers (R328). -/
def State.openLaunch (s : State) (core lid : Nat) (k : Block) : State :=
  let c := s.core core
  if (c.alloc lid).isSome then s
  else
    let idle (p : XP) : Bool := match p.st with
      | .halted | .stopped => true
      | _ => false
    let base := (c.spadRoom k.spad).getD 0
    let inside (x : Nat) : Bool := decide (128 * base ≤ x) && decide (x < 128 * (base + k.spad))
    let reset := c.slots.isEmpty && idle c.xp0 && idle c.xp1
    s.modCore core fun c => { c with
      allocs := c.allocs ++ [⟨lid, base, k.spad, [], k.waves, 0⟩]
      spad := mdrop inside c.spad
      absent := c.absent.filter fun x => !(decide (base ≤ x) && decide (x < base + k.spad))
      cb := if reset then c.cb.map fun b => { b with count := 0 } else c.cb }

/-- Admit wave `wix` of a launch (R57). -/
def State.admitNew (s : State) (core lid wix : Nat) : State × Nat :=
  match aget s.launches lid with
  | none => (s, 32)
  | some l =>
    let s := (s.setMode core l.blk.fuse).openLaunch core lid l.blk
    let (uid, s) := s.newId
    s.seat core (freshWave uid lid l core wix) true

/-- Readmit a pre-empted wave (R66): it stands again where it left off; waits at counted barriers begin anew at the back (R329). -/
def State.readmit (s : State) (core uid : Nat) : State × Nat :=
  match (s.core core).pre.find? fun w => w.uid == uid with
  | none => (s, 32)
  | some w =>
    let s := if w.handler.isSome then s else (aget s.launches w.lid).elim s fun l => s.setMode core l.blk.fuse
    let s := s.modCore core fun c => { c with pre := c.pre.filter fun x => x.uid != uid }
    let (s, k) := s.seat core { w with ran := false } false
    let s := w.streams.foldl (fun s t => match t.st with
      | .park (.cbw cb n false) _ _ _ => s.modCb core cb fun b => { b with wait := b.wait ++ [(.wave uid t.lanes, n)] }
      | _ => s) s
    (s.barScan w.lid, k)

/-- A handler wave (R370, R371): lane k serves the k-th origin, and lanes beyond do not exist. -/
def handlerWave (uid aslot entry prio d stamp : Nat) (os : List Origin) : Wave :=
  let tag (o : Origin) : Word := BitVec.ofNat 32 (o.core * 2 ^ 18 + o.slot * 2 ^ 13 + o.lane * 2 ^ 8 + o.kind)
  let put (w : Wave) (x : Nat × Origin) : Wave :=
    let w := (w.setV 0 x.1 (tag x.2)).setV64 2 x.1 (BitVec.ofNat 64 x.2.va)
    (List.range 4).foldl (fun w i => w.setV (4 + i) x.1 (listGet 0 x.2.ops i)) w
  let w : Wave := { Wave.empty with
    uid := uid
    handler := some os
    aslot := aslot
    prio := prio
    stamp := stamp
    d := d
    pcs := List.replicate 32 (BitVec.ofNat 57 entry)
    bcast := BitVec.ofNat 57 entry
    ended := maskBy fun l => decide (os.length ≤ l)
    ran := true }
  ((List.range os.length).zip os).foldl put w

/-! ## Admission (R57, R65, R66) -/

/-! ### Pre-emption (R65, R375) -/

/-- Take one wave off its core, to be readmitted there (R65, R329). -/
def State.preempt (s : State) (core slot : Nat) : State :=
  match s.wave? core slot with
  | none => s
  | some w =>
    let s := (s.modCore core fun c => c.anew { c with
      slots := adel c.slots slot
      pre := c.pre ++ [w]
      free := c.free + w.d }).cbLeave core (Waiter.ofWave w.uid)
    s.mapWaves fun _ x => { x with yieldTo := x.yieldTo.filter (· != w.uid) }

/-- Put a gang back in its queue, before younger blocks (DEDUCED, log entry 51). -/
def State.requeue (s : State) (lid : Nat) : State :=
  let p := s.prioOf lid
  let q := listGet [] s.dist.queues p
  { s with dist := { s.dist with queues := listPut [] 8 s.dist.queues p (insertBy (fun a b => decide (a < b)) lid q) } }

/-- Pre-empt one victim; a gang goes all together (R59), once each of its waves has executed a run (R66). None where one is executing a run. -/
def State.preemptOne (s : State) (core : Nat) (x : Nat × Wave) : Option State :=
  if s.inGang x.2 then
    let ws := s.gangWaves x.2.lid
    if ws.any fun y => s.granted y.1 y.2 || !(s.wave? y.1 y.2).elim true (·.ran) then none
    else some ((ws.foldl (fun s y => s.preempt y.1 y.2) s).requeue x.2.lid)
  else if s.granted core x.1 then none
  else some (s.preempt core x.1)

/-- Pre-empt until the need is met (R65). -/
def State.makeRoom (core : Nat) (n : Need) : Nat → State → State
  | 0, s => s
  | k + 1, s =>
    if s.unitOk core n then s
    else
      match s.victims core n.prio with
      | [] => s
      | x :: _ =>
        match s.preemptOne core x with
        | none => s
        | some s => State.makeRoom core n k s

/-! ### One admission -/

def State.takeIn (s : State) (core : Nat) (x : Cand) : State × Nat :=
  match x with
  | .listed (.launch lid nx) =>
    let waves := (aget s.launches lid).elim 1 fun l => l.blk.waves
    let s := s.modCore core fun c => { c with adm := c.adm.filterMap fun a =>
      if a == (.launch lid nx) then (if nx + 1 < waves then some (.launch lid (nx + 1)) else none) else some a }
    s.admitNew core lid nx
  | .listed (.handler aslot entry prio d stamp os) =>
    let (uid, s) := s.newId
    let s := s.modCore core fun c => { c with adm := c.adm.erase (.handler aslot entry prio d stamp os) }
    s.seat core (handlerWave uid aslot entry prio d stamp os) true
  | .task lid =>
    let s := s.modCore core fun c => c.anew { c with deque := c.deque.tail }
    s.admitNew core lid 0
  | .back uid => s.readmit core uid

/-- `CORE_ADMIT` (R57, R65, R66, R328): the first candidate, if it fits, and if not, after pre-emption. -/
def State.coreAdmit (s : State) (core : Nat) (image : ImageUse) : State :=
  match s.firstCand core with
  | none => s
  | some x =>
    match s.need core x with
    | none => s
    | some n =>
      if s.ckpt.isSome || !s.placeOk core n || s.oldAlloc core x then s
      else
        let s := State.makeRoom core n 64 s
        if s.unitOk core n && s.placeOk core n then
          let (s, k) := s.takeIn core x
          (s.useImage core k image).1
        else s

def execCoreAdmit (core : Nat) (image : ImageUse) (s : State) : Host.Outcome State Fault Refusal := .next (s.coreAdmit core image)

/-! ## The distributor (R56 to R60) -/

/-- The head of the highest non-empty queue, with its priority. -/
def Distrib.head (d : Distrib) : Option (Nat × Nat) :=
  ((List.range 8).map fun i => 7 - i).findSome? fun p => (listGet [] d.queues p).head?.map fun l => (p, l)

def State.popHead (s : State) (p : Nat) : State :=
  { s with dist := { s.dist with queues := listPut [] 8 s.dist.queues p ((listGet [] s.dist.queues p).tail) } }

/-- The candidate origins of a floating launch in cyclic order from the pointer (R58). -/
def floatOrigins (h w ptr : Nat) : List Nat :=
  let all := (List.range (32 / h)).flatMap fun j => (List.range (32 / w)).map fun i => 32 * (j * h) + i * w
  all.filter (fun o => decide (ptr < o)) ++ all.filter fun o => decide (o ≤ ptr)

/-- The origin of a floating launch; none where no candidate fits (R58). -/
def State.chooseOrigin (s : State) (k : Block) : Option Nat :=
  let cells (o : Nat) : List Nat := ({ k with x0 := o % 32, y0 := o / 32 } : Block).cores
  let fit := (floatOrigins k.h k.w s.dist.ptr).filter fun o => (cells o).all fun c => s.fitsAll c k k.waves
  let win := fit.take 5
  let calm := win.filter fun o => !(cells o).any fun c => (s.core c).droop
  let l := if calm.isEmpty then win else calm
  let heat (o : Nat) : Nat := (cells o).foldl (fun m c => max m (s.core c).temp) 0
  l.foldl (fun best o => match best with
    | none => some o
    | some b => if heat o < heat b then some o else best) none

def State.modLaunch (s : State) (lid : Nat) (f : Launch → Launch) : State :=
  match aget s.launches lid with
  | some l => { s with launches := aput s.launches lid (f l) }
  | none => s

/-- Give a floating launch its origin; none where it waits. -/
def State.settle (s : State) (lid : Nat) : Option State :=
  match aget s.launches lid with
  | none => none
  | some l =>
    if !l.blk.flt then some s
    else
      match s.chooseOrigin l.blk with
      | none => none
      | some o => some (({ s with dist := { s.dist with ptr := o } } : State).modLaunch lid fun l =>
          { l with blk := { l.blk with x0 := o % 32, y0 := o / 32 } })

/-- The core that stands in for another: the core itself, else the lowest enabled one of its cluster, else of its die (R56, R64). Where its
die has none, the spec names no place, and the core itself stays (DESIGN CHOICE, log entry 68). -/
def State.standIn (s : State) (core : Nat) : Nat :=
  let on (c : Nat) : Bool := !(s.core c).disabled
  if on core then core
  else
    match allCores.find? fun c => on c && coreCluster c == coreCluster core with
    | some c => c
    | none => (allCores.find? fun c => on c && coreDie c == coreDie core).getD core

/-- Push a task at the near end of a deque. -/
def State.pushTask (s : State) (core lid : Nat) : State :=
  s.modCore core fun c => { c with deque := lid :: c.deque, lastSteal := none }

/-- A gang that has waves already, pre-empted, keeps its origin (R59). -/
def State.gangPlaced (s : State) (lid : Nat) : Bool := s.cores.any fun c => c.2.pre.any fun w => w.handler.isNone && w.lid == lid

/-- `DISTRIBUTOR_PLACE` (R56, R58). -/
def State.distribute (s : State) : State :=
  match s.dist.head with
  | none => s
  | some (p, lid) =>
    match aget s.launches lid with
    | none => s.popHead p
    | some l =>
      if s.dist.gang.isSome then s
      else if l.blk.kind == 2 then
        let c := s.standIn (32 * l.blk.y0 + l.blk.x0)
        if (s.core c).deque.length < dequeCap then (s.popHead p).pushTask c lid else s
      else if l.blk.kind == 1 then
        match (if s.gangPlaced lid then some s else s.settle lid) with
        | none => s
        | some s =>
          let cs := (aget s.launches lid).elim [] fun l => l.blk.cores
          { s with dist := { s.dist with gang := some (lid, [], cs) } }
      else
        match s.settle lid with
        | none => s
        | some s =>
          let cs := (aget s.launches lid).elim [] fun l => l.blk.cores
          cs.foldl (fun s c => s.modCore c fun k => { k with adm := k.adm ++ [.launch lid 0] }) (s.popHead p)

def execDistributorPlace (s : State) : Host.Outcome State Fault Refusal := .next s.distribute

/-! ### Gangs (R59, R60) -/

/-- Reserve the footprint of a gang on a core, after pre-emption where it lacks only slots or pool (R59, R65); false where it lacks room. The
reservation holds the cluster's mode (R86). -/
def State.reserve (s : State) (core lid : Nat) (k : Block) : State × Bool :=
  let n := s.gangWants core lid k
  if (s.core core).resv.isSome || !s.placeOk core n then (s, false)
  else
    let s := State.makeRoom core n 64 s
    if !s.unitOk core n || !s.placeOk core n then (s, false)
    else
      let lines := n.spad.getD 0
      match (s.core core).spadRoom lines with
      | none => (s, false)
      | some b => ((s.setMode core k.fuse).modCore core fun c => { c with resv := some ⟨lid, n.d, n.slots, lines, b⟩, free := c.free - n.d }, true)

def State.unreserve (s : State) (core : Nat) : State :=
  s.modCore core fun c => match c.resv with
    | some r => c.anew { c with resv := none, free := c.free + r.d }
    | none => c

/-- Admit every wave of a gang on one of its cores, at commit. -/
def State.seatGang (s : State) (lid : Nat) (k : Block) (core : Nat) : State :=
  let ws := s.gangNeed core lid k
  let s := s.unreserve core
  ws.foldl (fun s x =>
    match (s.core core).pre.find? fun w => w.handler.isNone && w.lid == lid && w.wix == x.1 with
    | some w => (s.readmit core w.uid).1
    | none => (s.admitNew core lid x.1).1) s

/-- A block of higher priority than the gang waits (R60). -/
def State.gangOusted (s : State) : Bool :=
  match s.dist.gang, s.dist.head with
  | some (lid, _, _), some (p, _) => decide (s.prioOf lid < p)
  | _, _ => false

/-- `GANG_RELEASE` (R60): every reservation goes; the gang is at the head of its queue still. -/
def State.gangFree (s : State) : State :=
  match s.dist.gang with
  | some (_, got, _) =>
    if s.gangOusted then
      { (got.foldl State.unreserve s) with dist := { s.dist with gang := none } }
    else s
  | none => s

/-- `GANG_RESERVE` (R59): the next core, and the commit after the last; a gang that has to give way does (R60). -/
def State.gangStep (s : State) : State :=
  match s.dist.gang with
  | none => s
  | some (lid, got, todo) =>
    if s.ckpt.isSome then s
    else if s.gangOusted then s.gangFree
    else
    match aget s.launches lid, todo with
    | none, _ => { s with dist := { s.dist with gang := none } }
    | some _, [] => s
    | some l, c :: rest =>
      match s.reserve c lid l.blk with
      | (s, false) => s
      | (s, true) =>
        if rest.isEmpty then
          let p := l.blk.prio
          let q := (listGet [] s.dist.queues p).filter (· != lid)
          let s : State := { s with dist := { s.dist with gang := none, queues := listPut [] 8 s.dist.queues p q } }
          (got ++ [c]).foldl (fun s c => s.seatGang lid l.blk c) s
        else { s with dist := { s.dist with gang := some (lid, got ++ [c], rest) } }

def execGangReserve (s : State) : Host.Outcome State Fault Refusal := .next s.gangStep

def execGangRelease (s : State) : Host.Outcome State Fault Refusal := .next s.gangFree

/-! ## Steals (R63) -/

/-- The victims of a thief in order: its cluster, then the other clusters of its die, each by distance. -/
def stealOrder (core : Nat) : List Nat :=
  let near (a b : Nat) : Bool := decide (manhattan core a < manhattan core b)
  sortBy near (allCores.filter fun c => c != core && coreCluster c == coreCluster core) ++
  sortBy near (allCores.filter fun c => coreDie c == coreDie core && coreCluster c != coreCluster core)

/-- A block fits a thief's free resources. -/
def State.stealFits (s : State) (core lid : Nat) : Bool :=
  (aget s.launches lid).elim false fun l => s.fitsAll core l.blk 1

def State.stealDue (s : State) (core : Nat) : Bool :=
  (s.core core).idle && (s.core core).lastSteal.elim true fun t => decide (t + 64 ≤ s.cyc)

/-- `STEAL_ATTEMPT` (R63): the far-end block of the first victim whose block fits. -/
def State.steal (s : State) (core : Nat) : State :=
  if !s.stealDue core then s
  else
    let full := (stealOrder core).filter fun v => (s.core v).deque.getLast?.elim false (s.stealFits core)
    match full.head? with
    | none => s.modCore core fun c => { c with lastSteal := some s.cyc }
    | some v =>
      match (s.core v).deque.getLast? with
      | none => s
      | some lid => (s.modCore v fun c => c.anew { c with deque := c.deque.dropLast }).pushTask core lid

def execStealAttempt (core : Nat) (s : State) : Host.Outcome State Fault Refusal := .next (s.steal core)

/-! ## Claims (R51, R52, R343) -/

/-- Change the park of a stream of a wave. -/
def State.modStream (s : State) (core slot : Nat) (lanes : Mask) (f : Stream → Stream) : State :=
  s.modWave core slot fun w => { w with streams := w.streams.map fun u => if u.lanes == lanes then f u else u }

/-- `RCLAIM_SERVE` (R51): the oldest blocked claim, once it fits. -/
def State.serveClaim (s : State) (core : Nat) : State :=
  match s.claims core with
  | (k, m, n) :: _ =>
    if n ≤ (s.core core).free then
      (s.takeRegs core k n).modStream core k m fun t => match t.st with
        | .park (.claim n _) len r i => { t with st := .park (.claim n true) len r i }
        | _ => t
    else s
  | [] => s

def execRclaimServe (core : Nat) (s : State) : Host.Outcome State Fault Refusal := .next (s.serveClaim core)

/-- The wave is blocked in `rclaim`: its other lanes have ended or wait at a reconvergence barrier (DEDUCED, log entry 27). -/
def Wave.allInClaim (w : Wave) : Bool :=
  !w.claims.isEmpty && ~~~ (w.claims.foldl (fun m x => m ||| x.1) (w.ended ||| w.atBarrier)) == 0

/-- The conditions of R52. -/
def State.deadlocked (s : State) (core : Nat) : Bool :=
  let c := s.core core
  !c.slots.isEmpty && c.slots.all (fun x => x.2.allInClaim) && c.resv.isNone &&
  (s.claims core).all fun x => decide (c.free < x.2.2)

/-- A blocked claim ends in a claim-deadlock fault (R343). -/
def State.failClaim (s : State) (core slot : Nat) (lanes : Mask) : State :=
  match s.wave? core slot with
  | none => s
  | some w =>
    match (w.streams.find? fun t => t.lanes == lanes).map (·.st) with
    | some (StreamSt.park (.claim n _) len rbf insn) =>
      let (s, id) := s.raise ⟨w.aslot, core, w.uid, slot, w.unitNo, w.pc (lowLane lanes), 0, insn, w.stamp, lanes, 0, 0x1E, n, 0, 0,
        none⟩
      s.modStream core slot lanes fun t => { t with st := .held id len rbf, bc := false, one := false, rid := 2 * id + 1 }
    | _ => s

/-- `CLAIM_DEADLOCK` (R52, R343): the report in core.cdl, and every blocked claim faults. -/
def State.declareDeadlock (s : State) (core : Nat) : State :=
  if !s.deadlocked core then s
  else
    let cl := s.claims core
    let c := s.core core
    let slots := (dedup (cl.map (·.1))).foldl (fun n k => n + 2 ^ k) 0
    let minc := cl.foldl (fun n x => min n x.2.2) 255
    let count := min (bitsN c.cdl.toNat 11 4 + 1) 255
    let cdl := BitVec.ofNat 64 (slots * 2 ^ 32 + c.free * 2 ^ 20 + minc * 2 ^ 12 + count * 2 ^ 4)
    cl.foldl (fun s x => s.failClaim core x.1 x.2.1) (s.modCore core fun c => { c with cdl := cdl })

def execClaimDeadlock (core : Nat) (s : State) : Host.Outcome State Fault Refusal := .next (s.declareDeadlock core)

end Sys2Proof.Machine
end

