-- ==== Sys2Proof/Machine/Coherence.lean ====
section
/-! DEFINITION. Token requests (R88, R89) and the time limits of `ldv` and `mwait` (R97, R268, R270). -/

namespace Sys2Proof.Machine
open Sys2Proof

/-! ## Tokens -/

def State.asked (s : State) (core line : Nat) : Nat :=
  ((s.fails.find? fun x => x.1 == line && x.2.1 == core).map (·.2.2)).getD 0

def State.setAsked (s : State) (core line n : Nat) : State :=
  { s with fails := (if n == 0 then [] else [(line, core, n)]) ++ s.fails.filter fun x => !(x.1 == line && x.2.1 == core) }

/-- `HOME_TOKEN_REQUEST` (R89): a transient request succeeds or not; after four retries a persistent request follows
(DESIGN CHOICE, log entry 13). -/
def execHomeTokenRequest (core line : Nat) (write ok : Bool) (s : State) : Host.Outcome State Fault Refusal :=
  .next
    (if !s.mayAsk core line then s
     else if ok && !s.outranked core line then ((s.setAsked core line 0).noteServed core line).giveTokens core line write
     else
       let n := s.asked core line + 1
       if n < 5 then s.setAsked core line n
       else
         let s := s.setAsked core line 0
         if s.preqs.any fun r => r.line == line && r.core == core then s
         else { s with preqs := s.preqs ++ [⟨line, core, write, []⟩] })

/-- `PERSISTENT_REQUEST` (R89): the arbiter of a line serves the next requester. -/
def execPersistentRequest (line : Nat) (s : State) : Host.Outcome State Fault Refusal := .next (s.arbitrate line)

/-! ## Time limits -/

/-- Change every stream of the wave in a slot. -/
def State.modStreams (s : State) (core slot : Nat) (f : Stream → Stream) : State :=
  s.modWave core slot fun w => { w with streams := w.streams.map f }

/-- A versioned load whose silence timeout has passed (R97, R270) (DEDUCED, log entry 57). -/
def ldvLate (us : Nat) (t : Stream) : Stream :=
  match t.st with
  | .park (.ldv t0 limit e pas m) n r i =>
    { t with st := .park (.ldv t0 limit (e || decide (t0 + limit < us)) pas m) n r i }
  | _ => t

/-- `LDV_STALENESS_TIMEOUT` (R270): the load executes again and faults. -/
def execLdvStalenessTimeout (core slot : Nat) (s : State) : Host.Outcome State Fault Refusal :=
  .next (s.modStreams core slot (ldvLate s.us))

/-- An `mwait` whose time limit has passed (R268). -/
def mwaitLate (cyc : Nat) (t : Stream) : Stream :=
  match t.st with
  | .park (.mwait pa (some dl) woken) n r i => { t with st := .park (.mwait pa (some dl) (woken || decide (dl ≤ cyc))) n r i }
  | _ => t

/-- `MWAIT_TIMEOUT` (R268). -/
def execMwaitTimeout (core slot : Nat) (s : State) : Host.Outcome State Fault Refusal :=
  .next (s.modStreams core slot (mwaitLate s.cyc))

end Sys2Proof.Machine
end

