-- ==== Sys2Proof/Machine/Engine.lean ====
section
/-! DEFINITION. The transfer engines (R277, R278, R308, R321 to R326): turns of a copy, its completion, and the combine of `tred`
(R299). -/

namespace Sys2Proof.Machine
open Sys2Proof

/-! ## Where the bytes of a copy lie -/

/-- A place some bytes further on. -/
def Place.plus (p : Place) (n : Nat) : Place :=
  match p with
  | .glob va => .glob (va + n)
  | .spad c a => .spad c (a + n)
  | .store o => .store (o + n)
  | .frame pa va => .frame (pa + n) (va + n)

/-- The same sector from an offset on. -/
def Place.atOff (p : Place) (o : Nat) : Place :=
  match p with
  | .glob va => .glob (va / 32 * 32 + o)
  | .spad c a => .spad c (a / 32 * 32 + o)
  | .store a => .store (a / 32 * 32 + o)
  | .frame pa va => .frame (pa / 32 * 32 + o) (va / 32 * 32 + o)

/-- The next piece of a copy's source: where it lies (none: zeros) and how far it reaches; or a row outside its limits (R323). -/
inductive Seg where
  | piece (p : Option Place) (len : Nat)
  | outside

def kindLimit (k : MKind) : Nat :=
  match k with
  | .g => 2 ^ 57
  | .l => 2 ^ 32
  | .c => 2 ^ 38

/-- The place of one row or element of `n` bytes with its operand. -/
def State.operandPlace (s : State) (core : Nat) (lid : Option Nat) (k : MKind) (x n : Nat) : Option Place :=
  if x + n ≤ kindLimit k then s.placeOf lid core k x n else none

/-- The coordinates of element `i` of a box, dimension 0 first. -/
def coords : List Nat → Nat → List Nat
  | [], _ => []
  | e :: es, i => i % e :: coords es (i / e)

/-- Where source byte `pos` of a copy lies (R322 to R326). -/
def State.segAt (s : State) (core : Nat) (c : Copy) (pos : Nat) : Seg :=
  match c.shape with
  | .lin p => .piece (some (p.plus pos)) (c.total - pos)
  | .rows k row ops =>
    let off := pos % row
    match listGet none ops (pos / row) with
    | none => .piece none (row - off)
    | some x => match s.operandPlace core c.lid k x row with
      | some p => .piece (some (p.plus off)) (row - off)
      | none => .outside
  | .box k base esz ext stride =>
    let e := 2 ^ esz
    let off := pos % e
    let x := wrapN 64 ((base : Int) + dotStride stride (coords ext (pos / e)))
    match s.operandPlace core c.lid k x e with
    | some p => .piece (some (p.plus off)) (e - off)
    | none => if isGlob k then .piece (some (.glob (x + off))) (e - off) else .outside
  | .conv base h w ch cg g dh dw sh sw r ks esz ph pw ow p0 _ _ =>
    let e := 2 ^ esz
    let row := r * ks * cg * e
    let p := p0 + pos / row
    let i := pos % row / e
    let off := pos % row % e
    let cc := i % cg
    let kk := i / cg
    let iy : Int := (p / ow * sh + kk / ks * dh : Nat) - (ph : Int)
    let ix : Int := (p % ow * sw + kk % ks * dw : Nat) - (pw : Int)
    if 0 ≤ iy && iy < (h : Int) && 0 ≤ ix && ix < (w : Int) then
      let x := wrapN 64 ((base : Int) + ((iy * w + ix) * ch + (g * cg + cc : Nat)) * e)
      .piece (some (.glob (x + off))) (e - off)
    else .piece none (e - off)

/-- Where destination byte `pos` goes, and how many bytes follow it there. -/
def Copy.target (c : Copy) (pos : Nat) : Place × Nat :=
  match c.shape with
  | .conv _ _ _ _ cg _ _ _ _ _ r ks esz _ _ _ _ _ pitch =>
    let row := r * ks * cg * 2 ^ esz
    (c.dst.plus (pos / row * pitch + pos % row), row - pos % row)
  | _ => (c.dst.plus pos, c.total - pos)

/-- The address of a place in its memory. -/
def Place.addr (p : Place) : Nat :=
  match p with
  | .glob va => va
  | .spad _ a => a
  | .store o => o
  | .frame pa _ => pa

/-- The bytes that are written as one: to the end of the destination's sector (R107). -/
def Copy.chunk (c : Copy) : Nat :=
  let t := c.target c.pos
  min t.2 (32 - t.1.addr % 32)

/-! ## Reading and writing -/

def State.copy? (s : State) (core id : Nat) : Option Copy := (s.core core).copies.find? fun c => c.id == id

def State.modCopy (s : State) (core id : Nat) (f : Copy → Copy) : State :=
  s.modCore core fun c => { c with copies := c.copies.map fun k => if k.id == id then f k else k }

/-- What reading or writing some bytes of a copy comes to: done, held back, or a fault. -/
inductive CRes where
  | bytes (b : List Byte)
  | blocked
  | asked (flow seq : Nat)
  | fault

/-- Whether a copy's accesses are checked for races (R130). -/
def State.copyRace (s : State) (c : Copy) : Bool := (c.lid.bind (aget s.launches)).elim false (·.blk.race)

/-- Two places lie in the same memory: global memory, or the scratchpad of one core. -/
def Place.same (p q : Place) : Bool :=
  match p, q with
  | .glob _, .glob _ => true
  | .spad i _, .spad j _ => i == j
  | .frame _ _, .frame _ _ => true
  | _, _ => false

/-- Two places lie in one sector. -/
def Place.inSector (p q : Place) : Bool := p.same q && p.addr / 32 == q.addr / 32

/-- The bytes of a copy's source, from a position on, that lie in the sector of a place, as offsets in it: what one event reads, however many
rows or elements it comes to (R107). Zeros of a convolution that stand between come with them. -/
def State.sectorRun (s : State) (core : Nat) (c : Copy) (p : Place) : Nat → Nat → List (Option Nat)
  | 0, _ => []
  | k + 1, pos =>
    if c.total ≤ pos then []
    else
      match s.segAt core c pos with
      | .piece (some q) len =>
        if p.inSector q then
          let n := min len (32 - q.addr % 32)
          (List.range n).map (fun i => some (q.addr % 32 + i)) ++ s.sectorRun core c p k (pos + n)
        else []
      | .piece none len => if 32 < len then [] else List.replicate len none ++ s.sectorRun core c p k (pos + len)
      | .outside => []

/-- The first offset in the sector that a run reads, and how many bytes it reaches. -/
def runSpan (r : List (Option Nat)) : Nat × Nat :=
  let l := r.filterMap id
  let lo := l.foldl min 31
  (lo, l.foldl max 0 + 1 - lo)

/-- The bytes of a run from those that have been read. -/
def runBytes (r : List (Option Nat)) (bs : List Byte) : List Byte :=
  r.map fun o => o.elim 0 fun i => listGet 0 bs (i - (runSpan r).1)

/-- Elements that one turn reads at most from one sector. -/
def runFuel : Nat := 4096

/-- Where a copy has overwritten its own source, the original or the new content is read, one choice for each piece (R278, log
entry 10). -/
def State.overlapped (s : State) (c : Copy) (p : Place) (now : List Byte) : State × List Byte :=
  let a := p.addr
  let same := p.same c.dst
  let old (i : Nat) : Option Byte := aget c.saved (a + i)
  if !same || (List.range now.length).all fun i => (old i).isNone then (s, now)
  else
    let (orig, s) := s.draw
    (s, if orig then (List.range now.length).map fun i => (old i).getD (listGet 0 now i) else now)

/-- The lane that a copy's accesses are entered under: the lowest that issued it. -/
def Copy.lane (c : Copy) : Nat :=
  match c.from' with
  | .queue _ _ _ lanes => lowLane lanes
  | _ => 0

/-- Read `n` bytes of a copy's source at a place, within one sector (R107): at the home slice, which needs a token (R88). -/
def State.copyRead (s : State) (core : Nat) (c : Copy) (p : Place) (n : Nat) : State × CRes :=
  match p with
  | .store _ => (s, .fault)
  | .frame pa va =>
    if s.poisoned pa then (s, .fault)
    else
      match s.raceCheck (s.copyRace c) c.aslot (xpId core c.xp) c.pc 1 va pa false false .dv with
      | (s, some (.park _)) => (s, .blocked)
      | (s, some _) => (s, .fault)
      | (s, none) =>
        let s := (s.homeToken pa).combine pa
        (s, .bytes (rdBytes s.mem pa n))
  | .spad k a =>
    let (s, bs) := s.overlapped c p ((List.range n).map fun i => mget 0 (s.core k).spad (a + i))
    (s, .bytes bs)
  | .glob va =>
    if 2 ^ 57 ≤ va then (s, .fault)
    else
      match s.translate core c.aslot va .load with
      | (s, .fault _ _) => (s, .fault)
      | (s, .park _) => (s, .blocked)
      | (s, .ok a) =>
        if isExt a.pa then
          match s.issue core (1 + c.xp) c.aslot (.new .load 0 c.id 0 0 va a.pa (.load n) false true noEvent) with
          | (s, .sent f q) => (s, .asked f q)
          | (s, .full _) => (s, .blocked)
          | (s, .bad) => (s, .fault)
        else if s.poisoned a.pa then (s, .fault)
        else
          match s.raceCheck (s.copyRace c) c.aslot (xpId core c.xp) c.pc 1 va a.pa false false .dv with
          | (s, some (.park _)) => (s, .blocked)
          | (s, some _) => (s, .fault)
          | (s, none) =>
            let s := (s.homeToken a.pa).combine a.pa
            let (s, bs) := s.overlapped c p (rdBytes s.mem a.pa n)
            (s, .bytes bs)

/-- Keep the bytes that a write replaces, for what the copy reads later (R278). -/
def State.keepOld (s : State) (core : Nat) (c : Copy) (p : Place) (old : List Byte) : State :=
  let a := p.addr
  let glob := p.same (.glob 0)
  let near := match c.shape with
    | .lin q => q.same p && overlaps q.addr c.total a old.length
    | .rows k _ _ => isGlob k == glob
    | .box k _ _ _ _ => isGlob k == glob
    | .conv _ _ _ _ _ _ _ _ _ _ _ _ _ _ _ _ _ _ _ => glob
  if !near then s
  else s.modCopy core c.id fun c => { c with saved :=
    ((List.range old.length).foldl (fun m i => if (aget m (a + i)).isSome then m else aput m (a + i) (listGet 0 old i)) c.saved) }

/-- Write one chunk of a copy (R107): never across a sector. -/
def State.copyWrite (s : State) (core : Nat) (c : Copy) (p : Place) (bs : List Byte) : State × CRes :=
  match p with
  | .store o =>
    (s.modXp core c.xp fun x => { x with store := (List.range bs.length).foldl (fun m i => mset 0 m (o + i) (listGet 0 bs i)) x.store },
      .bytes [])
  | .frame pa va =>
    match s.raceCheck (s.copyRace c) c.aslot (xpId core c.xp) c.pc 1 va pa true false .dv with
    | (s, some (.park _)) => (s, .blocked)
    | (s, some _) => (s, .fault)
    | (s, none) => ((s.tokHome pa).physStore pa bs, .bytes [])
  | .spad k a =>
    let s := s.keepOld core c p ((List.range bs.length).map fun i => mget 0 (s.core k).spad (a + i))
    (s.modCore k fun x => x.wrSpad a bs, .bytes [])
  | .glob va =>
    if 2 ^ 57 ≤ va then (s, .fault)
    else
      match s.translate core c.aslot va .store with
      | (s, .fault _ _) => (s, .fault)
      | (s, .park _) => (s, .blocked)
      | (s, .ok a) =>
        if isExt a.pa then
          let o := a.pa % 32
          let all := List.replicate o 0 ++ bs ++ List.replicate (32 - o - bs.length) 0
          match s.issue core (1 + c.xp) c.aslot
              (.new .store 0 c.id c.lane 0 va (a.pa / 32 * 32) (.sector (byteMask o bs.length) all) false false noEvent) with
          | (s, .sent _ _) => (s, .bytes [])
          | (s, .full _) => (s, .blocked)
          | (s, .bad) => (s, .fault)
        else if s.sealedLine a.pa then (s, .fault)
        else
          match s.raceCheck (s.copyRace c) c.aslot (xpId core c.xp) c.pc 1 va a.pa true false .dv with
          | (s, some (.park _)) => (s, .blocked)
          | (s, some _) => (s, .fault)
          | (s, none) =>
            let s := (s.tokHome a.pa).combine a.pa
            ((s.keepOld core c p (rdBytes s.mem a.pa bs.length)).physStore a.pa bs, .bytes [])

/-! ## A turn (R308) -/

/-- A copy ends with error status; a program transfer or queue command has a fault record (R278, R335). -/
def State.failCopy (s : State) (core : Nat) (c : Copy) (addr : Nat) : State :=
  let s := s.modCopy core c.id fun c => { c with err := true, done := true, buf := [], rd := none }
  let note (cause : Nat) : State :=
    (s.raise ⟨c.aslot, core, 0, 0, 2 + c.xp, 0, addr, 0, 0, 0, 0, 0x0C, cause, 2, 0, none⟩).1
  match c.from' with
  | .prog => note 1
  | .queue _ _ _ _ => note 2
  | .walk => s

/-- One piece of work on a copy: how many bytes it has written, and whether it moved at all. What a source sector holds for it is read at
once, also beyond the sector that it writes next (R107). -/
def State.copyStep (s : State) (core id : Nat) : State × Nat × Bool :=
  match s.copy? core id with
  | none => (s, 0, false)
  | some c =>
    if c.done then (s, 0, false)
    else if c.total ≤ c.pos then (s.modCopy core id fun c => { c with done := true }, 0, true)
    else
      let k := c.chunk
      let t := c.target c.pos
      if k ≤ c.buf.length then
        match s.copyWrite core c t.1 (c.buf.take k) with
        | (s, .bytes _) =>
          (s.modCopy core id fun c => { c with pos := c.pos + k, buf := c.buf.drop k, done := decide (c.total ≤ c.pos + k) }, k, true)
        | (s, .fault) => (s.failCopy core c t.1.addr, 0, true)
        | (s, _) => (s, 0, false)
      else
        match c.rd with
        | some (f, q) =>
          match s.answer f q with
          | none => (s, 0, false)
          | some a =>
            let s := s.modFlow f fun x => { x with answers := x.answers.filter fun y => y.1 != q }
            match a with
            | some (.done d) =>
              let r := match s.segAt core c (c.pos + c.buf.length) with
                | .piece (some p) _ => s.sectorRun core c p runFuel (c.pos + c.buf.length)
                | _ => []
              (s.modCopy core id fun c => { c with rd := none, buf := c.buf ++ runBytes r (toBytes (runSpan r).2 (joinDWords d)) }, 0, true)
            | _ => (s.failCopy core c 0, 0, true)
        | none =>
          match s.segAt core c (c.pos + c.buf.length) with
          | .outside =>
            -- the rows before it are written (R323)
            if c.buf.isEmpty then (s.failCopy core c 0, 0, true)
            else
              match s.copyWrite core c t.1 c.buf with
              | (s, .blocked) => (s, 0, false)
              | (s, _) => (s.failCopy core c 0, 0, true)
          | .piece none len =>
            (s.modCopy core id fun c => { c with buf := c.buf ++ List.replicate (min len (k - c.buf.length)) 0 }, 0, true)
          | .piece (some p) _ =>
            let r := s.sectorRun core c p runFuel (c.pos + c.buf.length)
            match s.copyRead core c (p.atOff (runSpan r).1) (runSpan r).2 with
            | (s, .bytes b) => (s.modCopy core id fun c => { c with buf := c.buf ++ runBytes r b }, 0, true)
            | (s, .asked f q) => (s.modCopy core id fun c => { c with rd := some (f, q) }, 0, true)
            | (s, .blocked) => (s, 0, false)
            | (s, .fault) => (s.failCopy core c p.addr, 0, true)

/-- Work on a copy until a number of bytes is written or it cannot go on; whether it moved. -/
def State.copyRun (core id : Nat) : Nat → Nat → Bool → State → State × Bool
  | 0, _, moved, s => (s, moved)
  | fuel + 1, left, moved, s =>
    let k := (s.copy? core id).elim 0 fun c => c.chunk
    if left == 0 || (decide (left < k) && moved) then (s, moved)
    else
      match s.copyStep core id with
      | (s, _, false) => (s, moved)
      | (s, n, true) => State.copyRun core id fuel (left - n) true s

/-- A program transfer waits for a source line: one that is absent, or, where the transfer itself has made it so by its destination, one that
an earlier copy writes still (R321, R322). -/
def State.lineAwaited (s : State) (c : Copy) (x : Nat × Nat) : Bool :=
  if c.lines.contains x then s.cores.any fun k => k.2.copies.any fun e => decide (e.id < c.id) && e.lines.contains x
  else (s.core x.1).absent.contains x.2

/-- A copy may be served: no logged entry and no remote access stands before it (R113), and a program transfer awaits no source line
(DEDUCED, log entry 47). -/
def State.copyReady (s : State) (core : Nat) (c : Copy) : Bool :=
  !c.done && c.after.all (fun e => !(s.core core).log.any fun x => x.id == e) &&
  c.wait.all (fun x => !(s.flow x.1).open'.any fun a => a.seq == x.2) &&
  (match c.rd with | some (f, q) => (s.answer f q).isSome | none => true) &&
  (c.from' != .prog || !c.srcLines.any (s.lineAwaited c))

/-- The queue of a wave that a copy stands in: the wave's name and the queue's number, which stay when the wave moves (R114). -/
def Copy.queueOf (c : Copy) : Nat × Nat :=
  match c.from' with
  | .queue uid _ q _ => (uid, q)
  | _ => (0, 0)

/-- Where a queue comes in the round, by wave slot and queue number (R308); the wave's name tells two apart that a slot has had. -/
def Copy.queueKey (c : Copy) : Nat :=
  match c.from' with
  | .queue uid slot q _ => (8 * slot + q) * 2 ^ 64 + uid
  | _ => 0

def Copy.ofQueue (c : Copy) : Bool :=
  match c.from' with
  | .queue _ _ _ _ => true
  | _ => false

/-- The first copy that is not done of each of the engine's queues, in the order in which they have turns (R308). -/
def State.queueHeads (s : State) (core x : Nat) : List Copy :=
  let l := (s.core core).copies.filter fun c => c.xp == x && c.ofQueue && !c.done
  let heads := (dedup (l.map Copy.queueOf)).filterMap fun k => l.find? fun c => c.queueOf == k
  let order := sortBy (fun (a b : Copy) => decide (a.queueKey < b.queueKey)) heads
  let start := (s.xp core x).rrQ
  (order.filter fun c => decide (start ≤ c.queueKey)) ++ order.filter fun c => decide (c.queueKey < start)

/-- The copies that the engine may turn to, in order: the sources in turn from the one after the last served (R308). -/
def State.engineOrder (s : State) (core x : Nat) : List (Nat × Copy) :=
  let of (src : Nat) : List Copy :=
    match src with
    | 0 => ((s.core core).copies.find? fun c => c.xp == x && c.from' == .prog && !c.done).toList
    | 1 => s.queueHeads core x
    | _ => ((s.core core).copies.find? fun c => c.xp == x && c.from' == .walk && !c.done).toList
  let last := (s.xp core x).rrSrc
  [1, 2, 3].flatMap fun k => ((of ((last + k) % 3)).filter (s.copyReady core)).map fun c => ((last + k) % 3, c)

/-- Serve the first of a list of copies that can move. -/
def State.serveFirst (s : State) (core x bytes : Nat) : List (Nat × Copy) → State
  | [] => s
  | (src, c) :: rest =>
    match State.copyRun core c.id (2 * bytes + 4) bytes false s with
    | (s, true) => s.modXp core x fun p => { p with rrSrc := src, rrQ := if src == 1 then c.queueKey + 1 else p.rrQ }
    | (s, false) => s.serveFirst core x bytes rest

/-- `XP_ENGINE_TURN` (R308): one turn of at most 4 KiB of one transfer. -/
def execXpEngineTurn (core x bytes : Nat) (s : State) : Host.Outcome State Fault Refusal :=
  .next (if x ≥ 2 || (s.core core).offline then s else s.serveFirst core x (min bytes 4096) (s.engineOrder core x))

/-! ## Completion (R82, R278, R279) -/

/-- A copy's remote stores have all been answered. -/
def State.copyQuiet (s : State) (id : Nat) : Bool := s.flows.all fun f => f.open'.all fun a => a.copy != id

/-- Lines become present that no copy in flight writes any more (R82). -/
def State.linesPresent (s : State) (ls : List (Nat × Nat)) : State :=
  let busy (x : Nat × Nat) : Bool := s.cores.any fun c => c.2.copies.any fun k => k.lines.contains x
  ls.foldl (fun s x => if busy x then s else s.modCore x.1 fun c => c.setPresent x.2 true) s

/-- Take a completed copy off its engine: lines, batches and allocations follow. -/
def State.endCopy (s : State) (core : Nat) (c : Copy) : State :=
  let s := (s.modCore core fun k => { k with copies := k.copies.filter fun y => y.id != c.id }).linesPresent c.lines
  let s := match c.from' with
    | .queue uid _ _ _ =>
      s.modUid uid fun w =>
        let w := if c.err then { w with copyBad := w.copyBad ++ [(c.id, c.bad)] }
          else
            { w with
              copyOpen := w.copyOpen.filter fun (y : Nat × Nat) => y.2 != c.id
              batches := w.batches.map fun (b : Nat × List Nat) => (b.1, b.2.filter (· != c.id)) }
        w.settle
    | .prog => if c.err then s.modXp core c.xp fun p => { p with err := true } else s
    | .walk => s
  (dedup (core :: (c.lines ++ c.srcLines).map (·.1))).foldl State.freeAllocs s

/-- `COPY_COMPLETE` (R278, R279): a queue command. -/
def execCopyComplete (core id : Nat) (s : State) : Host.Outcome State Fault Refusal :=
  .next
    (match s.copy? core id with
     | some c => if c.done && c.ofQueue && s.copyQuiet id then s.endCopy core c else s
     | none => s)

/-- `PROGRAM_TRANSFER_COMPLETE` (R321). -/
def execProgramTransferComplete (core x id : Nat) (s : State) : Host.Outcome State Fault Refusal :=
  .next
    (match s.copy? core id with
     | some c => if c.done && c.from' == .prog && c.xp == x && s.copyQuiet id then s.endCopy core c else s
     | none => s)

/-! ## `tred` (R299) -/

/-- The entries of the k-th instance on the members that a descriptor names, in member order; none unless all have arrived. -/
def Launch.tredSet (l : Launch) (k desc : Nat) : Option (List (Nat × List Nat)) :=
  let es := (descCores l.blk desc).map fun c => (l.treds.find? fun t => t.1 == c && t.2.1 == k).map fun t => (c, t.2.2)
  if es.all Option.isSome then some (es.filterMap id) else none

/-- Mark the instance over on its members. -/
def Launch.tredOver (l : Launch) (k : Nat) (cores : List Nat) (bad : Bool) : Launch :=
  { l with
    treds := l.treds.map fun t => if t.2.1 == k && cores.contains t.1 && t.2.2.length < 7 then (t.1, k, t.2.2 ++ [0]) else t
    tredBad := if bad then l.tredBad ++ cores.map fun c => (c, k) else l.tredBad }

/-- The lines of a byte range of a launch's allocation on a core. -/
def State.tredLines (s : State) (lid core off len : Nat) : List (Nat × Nat) :=
  match (s.core core).alloc lid with
  | some a => spadLines core (128 * a.base + off) len
  | none => []

/-- Combine the paired instances: element by element over the tree (R154). -/
def State.tredRun (s : State) (lid : Nat) (w pset : Bool) (len d : Nat) (es : List (Nat × List Nat)) : State :=
  let n := if w then 8 else 4
  let f := if w then fF64 else fF32
  let base (c : Nat) : Nat := ((s.core c).alloc lid).elim 0 fun a => 128 * a.base
  let leaf (i : Nat) (e : Nat × List Nat) : Nat := rdSpad (s.core e.1) (base e.1 + listGet 0 e.2 4 + i * n) n
  let out := (List.range (len / n)).flatMap fun i => toBytes n (treeSum (faddE f .rn) 0 (es.map (leaf i)))
  match es with
  | [] => s
  | (c0, _) :: _ =>
    let s := s.modCore c0 fun c => c.wrSpad (base c0 + d) out
    if pset then (s.tredLines lid c0 d len).foldl (fun s x => s.modCore x.1 fun c => c.setPresent x.2 true) s else s

/-- `TRED_COMPLETE` (R299): the instance that the wave in a slot waits for. Where the members differ in pset, that of member 0 counts, which
writes the result (DESIGN CHOICE, log entry 80). -/
def State.tredStep (s : State) (core slot : Nat) : State :=
  let parked := (s.wave? core slot).bind fun w => w.streams.findSome? fun t => match t.st with
    | .park (.tred k desc) _ _ _ => some (w.lid, k, desc)
    | _ => none
  match parked with
  | none => s
  | some (lid, k, desc) =>
    match (aget s.launches lid).bind fun l => (l.tredSet k desc).map fun es => (l, es) with
    | none => s
    | some (_, es) =>
      let mine := ((es.find? fun e => e.1 == core).map (·.2)).getD []
      if 7 ≤ mine.length then s
      else
        let key (e : List Nat) : List Nat := (e.take 4).set 3 (listGet 0 e 3)
        let named := (es.filter fun e => listGet 0 e.2 0 == desc).map (·.1)
        if es.any fun e => key e.2 != key mine then s.modLaunch lid fun l => l.tredOver k named true
        else
          let w := listGet 0 mine 1 == 1
          let len := listGet 0 mine 2
          let d := listGet 0 mine 3
          let src := es.flatMap fun e => s.tredLines lid e.1 (listGet 0 e.2 4) len
          if src.any fun x => (s.core x.1).absent.contains x.2 then s
          else
            let pset := es.head?.elim false fun e => listGet 0 e.2 5 == 1
            (s.tredRun lid w pset len d es).modLaunch lid fun l => l.tredOver k (es.map (·.1)) false

def execTredComplete (core slot : Nat) (s : State) : Host.Outcome State Fault Refusal := .next (s.tredStep core slot)

end Sys2Proof.Machine
end

