-- ==== Sys2Proof/Machine/Walks.lean ====
section
/-! DEFINITION. Chain walks (R310 to R314): heads, transfer records of every kind, moves of pages to and from their backing
regions. -/

namespace Sys2Proof.Machine
open Sys2Proof

/-! ## The walk as it stands -/

def State.setWalk (s : State) (core x : Nat) (w : Option Walk) : State := s.modXp core x fun p => { p with walk := w }

/-- The walk ends; what it held of an allocation is released (R333). -/
def State.endWalk (s : State) (core x : Nat) : State := (s.setWalk core x none).freeAllocs core

/-- A fault record of the chain walker (R335, R362). -/
def State.walkRecord (s : State) (core : Nat) (b : Bind) (kind cause addr : Nat) : State :=
  (s.raise ⟨b.aslot.getD 0, core, 0, 0, 4, 0, addr, 0, 0, 0, 0, kind, cause, 2, 0, none⟩).1

def Bind.race (s : State) (b : Bind) : Bool := (b.lid.bind (aget s.launches)).elim false (·.blk.race)

/-- `CHAIN_WALK_START` (R310): the next head; one of bad form ends the walk at once. -/
def execChainWalkStart (core x : Nat) (s : State) : Host.Outcome State Fault Refusal :=
  .next
    (let p := s.xp core x
     if x ≥ 2 || (s.core core).offline || p.walk.isSome then s
     else
       match p.heads with
       | [] => s
       | h :: rest =>
         let s := s.modXp core x fun p => { p with heads := rest }
         if h.addr % 64 != 0 || decide (2 ^ 57 ≤ h.addr) then
           (s.walkRecord core h.bind 0x0B 1 h.addr).freeAllocs core
         else if h.addr == 0 then s.freeAllocs core
         else s.setWalk core x (some ⟨h.bind, h.addr, [], false, [], none⟩))

/-! ## Reading a record -/

/-- How an access of the walker comes out. -/
inductive WRes where
  | ok
  | wait
  | fault

/-- The record's words once its two sectors have been read, or nothing yet. -/
def State.walkRead (s : State) (core x : Nat) (w : Walk) : State × WRes :=
  let got (s : State) (bs : List Byte) : State × WRes :=
    (s.setWalk core x (some { w with
      words := (List.range 8).map fun i => BitVec.ofNat 64 (ofBytes ((bs.drop (8 * i)).take 8)), acc := [] }), .ok)
  match w.acc with
  | _ :: _ =>
    let as := w.acc.map fun a => s.answer a.1 a.2
    if as.any Option.isNone then (s, .wait)
    else
      let s := s.forget (w.acc.map fun a => (0, a.1, a.2, 0))
      let ds := as.map fun a => match a with
        | some (some (.done d)) => some (joinDWords d)
        | _ => none
      if ds.any Option.isNone then (s, .fault) else got s (ds.flatMap fun d => toBytes 32 (d.getD 0))
  | [] =>
    let aslot := w.bind.aslot.getD 0
    if 2 ^ 57 ≤ w.cur || w.cur % 64 != 0 then (s, .fault)
    else
      match s.translate core aslot w.cur .load with
      | (s, .fault _ _) => (s, .fault)
      | (s, .park _) => (s, .wait)
      | (s, .ok a) =>
        if isExt a.pa then
          let ask (o : Nat) : FlowAcc := .new .load 0 0 0 0 (w.cur + o) (a.pa + o) (.load 32) false true noEvent
          match s.issue core (1 + x) aslot (ask 0) with
          | (s1, .sent f q) =>
            match s1.issue core (1 + x) aslot (ask 32) with
            | (s2, .sent g r) => (s2.setWalk core x (some { w with acc := [(f, q), (g, r)] }), .wait)
            | _ => (s, .wait)
          | (s, .full _) => (s, .wait)
          | (s, .bad) => (s, .fault)
        else if s.poisoned a.pa || s.poisoned (a.pa + 32) then (s, .fault)
        else
          let pts := [(w.cur, a.pa, false), (w.cur + 32, a.pa + 32, false)]
          match s.raceEach (Bind.race s w.bind) aslot (xpId core x) 0 1 pts false .sy with
          | (s, some (.park _)) => (s, .wait)
          | (s, some _) => (s, .fault)
          | (s, none) =>
            let s := (s.homeToken a.pa).combine a.pa
            got s (rdBytes s.mem a.pa 64)

/-! ## The fields of a record (R311) -/

def Walk.word (w : Walk) (i : Nat) : Nat := (listGet 0 w.words i).toNat
def Walk.next (w : Walk) : Nat := w.word 0
def Walk.own (w : Walk) : Bool := bitN (w.word 1) 63
def Walk.kind (w : Walk) : Nat := bitsN (w.word 1) 62 60
def Walk.skind (w : Walk) : Nat := bitsN (w.word 1) 59 58
def Walk.dkind (w : Walk) : Nat := bitsN (w.word 1) 57 56
def Walk.arr (w : Walk) : Bool := bitN (w.word 1) 55
def Walk.cb (w : Walk) : Nat := bitsN (w.word 1) 54 51
def Walk.src (w : Walk) : Nat := w.word 2
def Walk.dest (w : Walk) : Nat := w.word 3
def Walk.len (w : Walk) : Nat := bitsN (w.word 4) 31 0
def Walk.k (w : Walk) : Nat := bitsN (w.word 4) 63 32

def kindOf (n : Nat) : MKind := if n = 0 then .g else if n = 1 then .l else .c

/-! ## Check (R313) -/

/-- Status 0x02: reserved bits, kinds, len, k and next. -/
def Walk.malformed (w : Walk) : Bool :=
  bitsN (w.word 1) 50 48 != 0 || bitsN (w.word 1) 39 0 != 0 || decide (6 ≤ w.kind) || w.skind == 3 || w.dkind == 3 ||
  (w.kind != 0 && (w.skind != 0 || w.dkind != 0)) ||
  ((w.kind == 0 || w.kind == 1 || w.kind == 4 || w.kind == 5) && (w.len == 0 || decide (2 ^ 24 < w.len))) ||
  (w.arr && (w.k == 0 || decide (65536 < w.k))) || w.next % 64 != 0

/-- The page that a record of kind 4 or 5 moves, and its backing region (R314). -/
def Walk.page (w : Walk) : Nat := if w.kind = 4 then w.src else w.dest
def Walk.backing (w : Walk) : Nat := if w.kind = 4 then w.dest else w.src

/-- A mapped page of 64 KiB. -/
def State.pageLeaf (s : State) (aslot va : Nat) : Option Leaf :=
  match s.walk aslot va with
  | .leaf l => if l.level = 0 then some l else none
  | .fault _ => none

/-- Status 0x05 of an offload record: length, form and mapping of its operands (R314). -/
def State.offloadBad (s : State) (aslot : Nat) (w : Walk) : Bool :=
  w.len != 65536 || decide (2 ^ 57 ≤ w.page) || w.page % 65536 != 0 || decide (2 ^ 57 ≤ w.backing) ||
  w.backing % 65536 != 0 ||
  (w.kind == 4 && match s.walk aslot w.backing with
    | .leaf l => !pteW l.pte
    | .fault _ => true)

/-- Status 0x06 of an offload record (R314). -/
def State.wrongPage (s : State) (aslot : Nat) (w : Walk) : Bool :=
  match s.pageLeaf aslot w.page with
  | some l => pteOff l.pte != (if w.kind = 4 then 0 else 3) || isExt (l.pa w.page)
  | none => true

def isActive (r : XRun) : Bool :=
  match r with
  | .running | .parked _ => true
  | _ => false

/-- Status 0x05 of a record of the other kinds (R312). -/
def State.operandsBad (s : State) (core : Nat) (w : Walk) : Bool :=
  match w.kind with
  | 0 =>
    let sk := kindOf w.skind
    let dk := kindOf w.dkind
    (copyBad sk dk w.src w.dest w.len).isSome || (s.placeOf w.bind.lid core sk w.src w.len).isNone ||
      (s.placeOf w.bind.lid core dk w.dest w.len).isNone
  | 1 => decide (2 ^ 57 ≤ w.src) || w.len % 4 != 0 || w.dest % 4 != 0 || decide (16384 < w.dest + w.len)
  | 2 => w.src % 4 != 0 || decide (16384 ≤ w.src)
  | _ => false

/-- The status of a record; 0 where it is good (R313) (DEDUCED, log entry 38). -/
def State.checkRec (s : State) (core x : Nat) (w : Walk) : Nat :=
  let aslot := w.bind.aslot.getD 0
  if w.malformed then 2
  else if (w.kind == 1 || w.kind == 2) && isActive (s.xp core x).st then 3
  else if w.bind.lid.isNone && w.kind == 0 && (w.skind != 0 || w.dkind != 0) then 4
  else if w.kind == 4 || w.kind == 5 then
    if s.offloadBad aslot w then 5 else if s.wrongPage aslot w then 6 else 0
  else if s.operandsBad core w then 5
  else 0

/-! ## After the effect -/

/-- The walk goes to the next record, or ends. -/
def State.walkNext (s : State) (core x : Nat) (w : Walk) : State :=
  if w.next == 0 || w.next % 64 != 0 then s.endWalk core x
  else s.setWalk core x (some ⟨w.bind, w.next, [], false, [], none⟩)

/-- The write-back of word 0x08: own 0 and the status (R313), a release, which counts once it is performed (R131) (DEDUCED, log entry 39). -/
def State.writeBack (s : State) (core x : Nat) (w : Walk) (st : Nat) : State :=
  let aslot := w.bind.aslot.getD 0
  let v := putBits (putBits (w.word 1) 63 63 0) 47 40 st
  let bad (s : State) : State := (s.walkRecord core w.bind 0x0B 4 w.cur).endWalk core x
  let later (s : State) : State := s.setWalk core x (some { w with busy := false, acc := [], wb := some st })
  match s.translate core aslot (w.cur + 8) .store with
  | (s, .fault _ _) => bad s
  | (s, .park _) => later s
  | (s, .ok a) =>
    if isExt a.pa then
      match s.issue core (1 + x) aslot
          (.new .store 0 0 0 0 (w.cur + 8) a.pa (.store 8 (BitVec.ofNat 64 v)) true true (xpId core x, 1)) with
      | (s, .sent f q) => s.setWalk core x (some { w with busy := false, acc := [(f, q)], wb := some st })
      | (s, .full _) => later s
      | (s, .bad) => bad s
    else if s.sealedLine a.pa then bad s
    else
      match s.raceCheck (Bind.race s w.bind) aslot (xpId core x) 0 1 (w.cur + 8) a.pa true false .sy with
      | (s, some (.park _)) => later s
      | (s, some _) => bad s
      | (s, none) =>
        ((((s.tokHome a.pa).physStore a.pa (toBytes 8 v)).bump (xpId core x) 1)).walkNext core x w

/-- A record is over with a status: its arrive, its fault record and its write-back (R313). -/
def State.closeRec (s : State) (core x : Nat) (w : Walk) (st : Nat) : State :=
  let s :=
    if w.arr && st != 2 then
      match s.cbAdd core w.cb w.k with
      | (s, true) => s.bump (xpId core x) 1
      | (s, false) => s.walkRecord core w.bind 8 w.cb w.cur
    else s
  let s := if st == 0 then s else s.walkRecord core w.bind 0x0B 3 w.cur
  s.writeBack core x w st

/-- Go on with a write-back that has been held back, or whose answer was awaited. -/
def State.goBack (s : State) (core x : Nat) (w : Walk) (st : Nat) : State :=
  match w.acc with
  | [] => s.writeBack core x w st
  | a :: _ =>
    match s.answer a.1 a.2 with
    | none => s
    | some r =>
      let s := s.forget [(0, a.1, a.2, 0)]
      match r with
      | some (.done _) => s.walkNext core x w
      | _ => (s.walkRecord core w.bind 0x0B 4 w.cur).endWalk core x

/-! ## The effects (R312, R314) -/

/-- Start a record's transfer. -/
def State.walkCopy (s : State) (core x : Nat) (w : Walk) (src dst : Place) (len : Nat) : State :=
  let (id, s) := s.newId
  let k : Copy := ⟨id, x, .walk, w.bind.aslot.getD 0, w.bind.lid, .lin src, dst, len, 0, false, false,
    placeLines dst len, placeLines src len, [], [], 0, none, [], [], []⟩
  (s.pushCopy core k).setWalk core x (some { w with busy := true })

/-- Start the program (R312, kind 2). -/
def startProgram (w : Walk) (p : XP) : XP :=
  { p with
    pc := w.src
    d := (List.range 6).foldl (fun m i => mset 0 m i (BitVec.ofNat 32 (bitsN (w.word (5 + i / 2)) (32 * (i % 2) + 31) (32 * (i % 2))))) []
    loops := []
    err := false
    st := .running
    quit := false
    bind := w.bind }

/-- A page leaves for its backing region: every token of its lines goes home and its partials combine first (R314). A leaf that names what the
slot may not reach ends the move with a memory fault (R71, R72). -/
def State.sendOut (s : State) (core x : Nat) (w : Walk) : State :=
  let aslot := w.bind.aslot.getD 0
  match s.pageLeaf aslot w.page with
  | none => s
  | some l =>
    let pa := l.pa w.page
    if (leafFault s aslot w.page .load l).isSome then s.closeRec core x w 1
    else ((s.setOff aslot w.page 1).homeRange pa 65536).walkCopy core x w (.frame pa w.page) (.glob w.backing) 65536

/-- A page comes in. -/
def State.bringIn (s : State) (core x : Nat) (w : Walk) : State :=
  let aslot := w.bind.aslot.getD 0
  match s.pageLeaf aslot w.page with
  | none => s
  | some l =>
    if (leafFault s aslot w.page .load l).isSome then s.closeRec core x w 1
    else (s.setOff aslot w.page 2).walkCopy core x w (.glob w.backing) (.frame (l.pa w.page) w.page) 65536

/-- What a good record does. -/
def State.recEffect (s : State) (core x : Nat) (w : Walk) : State :=
  match w.kind with
  | 0 =>
    match s.placeOf w.bind.lid core (kindOf w.skind) w.src w.len, s.placeOf w.bind.lid core (kindOf w.dkind) w.dest w.len with
    | some a, some b => s.walkCopy core x w a b w.len
    | _, _ => s
  | 1 => s.walkCopy core x w (.glob w.src) (.store w.dest) w.len
  | 2 => (s.modXp core x (startProgram w)).closeRec core x w 0
  | 3 => s.closeRec core x w 0
  | 4 => s.sendOut core x w
  | 5 => s.bringIn core x w
  | _ => s

/-- The copy of the record that the walk is at. -/
def State.walkDone (s : State) (core x : Nat) : Option Copy :=
  (s.core core).copies.find? fun c => c.xp == x && c.from' == .walk && c.done && s.copyQuiet c.id

/-- The check of a record that moves a page looks through the tables for it and for its backing region (R74, R95). -/
def State.seePages (s : State) (w : Walk) : State :=
  let aslot := w.bind.aslot.getD 0
  if w.kind == 4 || w.kind == 5 then (s.combineTables aslot w.page).combineTables aslot w.backing else s

/-- One step at the record of a walk: it is read; it ends the walk if it is not the walker's; if `mine` names its kind and status, it
is acted on. -/
def State.recStep (s : State) (core x : Nat) (mine : Nat → Nat → Bool) : State :=
  let act (s : State) : State :=
    match (s.xp core x).walk with
    | none => s
    | some w =>
      if !w.own then s.endWalk core x
      else
        let t := s.seePages w
        let st := t.checkRec core x w
        if !mine w.kind st then s
        else if st != 0 then t.closeRec core x w st
        else t.recEffect core x w
  if x ≥ 2 || (s.core core).offline then s
  else
    match (s.xp core x).walk with
    | none => s
    | some w =>
      if w.words.isEmpty then
        match s.walkRead core x w with
        | (s, .ok) => act s
        | (s, .wait) => s
        | (s, .fault) => (s.walkRecord core w.bind 0x0B 2 w.cur).endWalk core x
      else
        match w.wb with
        | some st => s.goBack core x w st
        | none =>
          if w.busy then
            if mine w.kind 0 && decide (w.kind < 4) then
              match s.walkDone core x with
              | some c => (s.endCopy core c).closeRec core x w (b2n c.err)
              | none => s
            else s
          else act s

/-- Records of a kind that are not malformed. -/
def recOfKind (k kind st : Nat) : Bool := kind == k && st != 2

/-- `REC_COPY` (R312). -/
def execRecCopy (core x : Nat) (s : State) : Host.Outcome State Fault Refusal := .next (s.recStep core x (recOfKind 0))

/-- `REC_LOAD_IMAGE` (R312). -/
def execRecLoadImage (core x : Nat) (s : State) : Host.Outcome State Fault Refusal := .next (s.recStep core x (recOfKind 1))

/-- `REC_START_PROGRAM` (R312). -/
def execRecStartProgram (core x : Nat) (s : State) : Host.Outcome State Fault Refusal := .next (s.recStep core x (recOfKind 2))

/-- `REC_ARRIVE_ONLY` (R312). -/
def execRecArriveOnly (core x : Nat) (s : State) : Host.Outcome State Fault Refusal := .next (s.recStep core x (recOfKind 3))

/-- `REC_OFFLOAD_OUT` (R314). -/
def execRecOffloadOut (core x : Nat) (s : State) : Host.Outcome State Fault Refusal := .next (s.recStep core x (recOfKind 4))

/-- `REC_OFFLOAD_IN` (R314). -/
def execRecOffloadIn (core x : Nat) (s : State) : Host.Outcome State Fault Refusal := .next (s.recStep core x (recOfKind 5))

/-- `REC_BAD` (R313): status 0x02. -/
def execRecBad (core x : Nat) (s : State) : Host.Outcome State Fault Refusal := .next (s.recStep core x fun _ st => st == 2)

/-! ## Pages that have moved (R314) -/

/-- The logged stores that wait on a page get code 1 (R100, R373) (DEDUCED, log entry 40). -/
def State.replayPage (s : State) (aslot page : Nat) : State :=
  let es := s.cores.flatMap fun c => c.2.log.filter fun e =>
    e.aslot == aslot && e.va / 65536 == page / 65536 && e.why == 5 &&
    s.recs.any fun r => e.fr == some r.id && bitsN (r.word 6) 55 48 == 5
  es.foldl (fun s e => match e.fr with
    | some id => s.giveCode id e.lane 1
    | none => s) s

/-- The end of a page's transfer: its new state, and the record's status. -/
def State.offloadEnd (s : State) (core x kind : Nat) : State :=
  match (s.xp core x).walk, s.walkDone core x with
  | some w, some c =>
    if w.busy && w.kind == kind then
      let aslot := w.bind.aslot.getD 0
      let off := if kind = 4 then (if c.err then 0 else 3) else (if c.err then 3 else 0)
      let s := (s.endCopy core c).setOff aslot w.page off
      let s := if kind == 5 && !c.err then s.replayPage aslot w.page else s
      s.closeRec core x w (b2n c.err)
    else s
  | _, _ => s

/-- `OFFLOAD_OUT_COMPLETE` (R314). -/
def execOffloadOutComplete (core x : Nat) (s : State) : Host.Outcome State Fault Refusal := .next (s.offloadEnd core x 4)

/-- `OFFLOAD_IN_COMPLETE` (R314). -/
def execOffloadInComplete (core x : Nat) (s : State) : Host.Outcome State Fault Refusal := .next (s.offloadEnd core x 5)

end Sys2Proof.Machine
end

