-- ==== Sys2Proof/Machine/Traps.lean ====
section
/-! DEFINITION. Side-log replay (R373, R374), fault records that waited for room (R361), resolutions (R366), handler waves
(R370), poison and rollback (R379, R98), the loss of a core (R380, R381), speculative accesses (R102). -/

namespace Sys2Proof.Machine
open Sys2Proof

/-! ## Replay of the side log -/

/-- How performing a logged access ends. -/
inductive Replay where
  | done (v : Nat)
  | fault (kind cause : Nat)
  | wait

def LogAct.kind (a : LogAct) : AKind :=
  match a with
  | .store _ _ | .sector _ _ => .store
  | .contrib _ _ => .contrib
  | .atomic _ _ _ _ _ => .atomic

/-- What a logged access asks of a peer. -/
def LogAct.req (a : LogAct) : RemKind × RemReq :=
  match a with
  | .store n d => (.store, .store n d)
  | .contrib w d => (.contrib, .contrib w d)
  | .atomic op w b c _ => (.atomic, .atomic op w b c)
  | .sector m bs => (.store, .sector m ((List.range 32).map fun i => mget 0 bs i))

/-- Change one entry of a core's log. -/
def State.modEntry (s : State) (core id : Nat) (f : LogEnt → LogEnt) : State :=
  s.modCore core fun c => { c with log := c.log.map fun e => if e.id == id then f e else e }

/-- How many events an entry counts as when it is performed as a release (R106, R131). -/
def LogEnt.events (e : LogEnt) : Nat :=
  match e.act with
  | .sector _ _ => 1
  | _ => (lanesOf e.lanes).length

/-- The party of an entry: the slot in which its wave made it (R130). -/
def LogEnt.party (e : LogEnt) (core : Nat) : Nat := 32 * core + e.slot

/-- Replay at a peer or in host memory: the entry stands until the access is resolved, so that no later one passes it (R122, R123). As a release
it counts its events once it is performed (R131). -/
def State.replayIssue (s : State) (core : Nat) (e : LogEnt) (pa : Nat) : State × Replay :=
  let ev := if e.rel then (e.party core, e.events) else noEvent
  match s.issue core 0 e.aslot (.new e.act.req.1 e.uid 0 e.lane e.lanes e.va pa e.act.req.2 e.rel e.writes ev) with
  | (s, .sent f q) => (s.modEntry core e.id fun e => { e with acc := some (f, q) }, .wait)
  | (s, .full _) => (s, .wait)
  | (s, .bad) => (s, .fault 5 4)

/-- What a replay that has been sent has come to. One whose result is written is over with the answer; any other that is not performed is
reported as a remote store is (R388). -/
def State.replayReply (s : State) (core : Nat) (e : LogEnt) (f q : Nat) : State × Replay :=
  let free (s : State) : State := s.modEntry core e.id fun e => { e with acc := none }
  if e.writes then
    match s.answer f q with
    | none => (s, .wait)
    | some a =>
      let s := free (s.forget [(0, f, q, 0)])
      match a with
      | some (.done d) => (s, .done (joinDWords d))
      | _ => (s, .fault 5 4)
  else if (s.flow f).open'.any fun a => a.seq == q then (s, .wait)
  else (free s, .done 0)

/-- What stands in the way of a logged access to bonded DRAM, in the order of its instruction (R264, R267): kind of the fault. -/
def State.replayBad (s : State) (e : LogEnt) (pa : Nat) : Option Nat :=
  let sealed := if s.sealedLine pa then some 0x10 else none
  match e.act with
  | .contrib w _ => if (s.contribRange e.aslot e.va (if w then 8 else 4)).isNone then some 0x11 else sealed
  | .atomic _ _ _ _ _ => if s.poisoned pa then some 0x27 else sealed
  | _ => sealed

/-- Perform a logged access to bonded DRAM. -/
def State.replayHere (s : State) (core : Nat) (e : LogEnt) (a : Acc) : State × Nat :=
  match e.act with
  | .store k d => ((s.tokWrite core e.aslot e.va a).physStore a.pa (toBytes k d.toNat), 0)
  | .sector m bs => ((s.tokHome a.pa).physSector a.pa m bs, 0)
  | .contrib w d =>
    ((s.contribRange e.aslot e.va (if w then 8 else 4)).elim s fun r => s.modCore core fun c => c.contribute a.pa r.op d.toNat, 0)
  | .atomic op w b c _ => s.atomAt a.pa op w b.toNat c.toNat

/-- Perform a logged access, translated anew (R373) unless it has been sent already (R388); a release after what its lanes have under way
(R108, R122) (DEDUCED, log entry 41). -/
def State.replayAct (s : State) (core : Nat) (e : LogEnt) : State × Replay :=
  match e.acc with
  | some (f, q) => s.replayReply core e f q
  | none =>
    match s.translate core e.aslot e.va e.act.kind with
    | (s, .fault k c) => (s, .fault k c)
    | (s, .park _) => (s, .wait)
    | (s, .ok a) =>
      if e.rel && s.openRemote e.uid e.lanes then (s, .wait)
      else if isExt a.pa then s.replayIssue core e a.pa
      else
        match s.replayBad e a.pa with
        | some k => (s, .fault k 0)
        | none =>
          match s.raceNote e.race e.aslot (e.party core) e.pc e.lanes e.va a.pa true (e.act.kind == .atomic) e.scope with
          | (s, some _) => (s, .wait)
          | (s, none) =>
            let (s, v) := s.replayHere core e a
            (if e.rel then s.bump (e.party core) e.events else s, .done v)

/-- The lanes that an entry holds are over with it (R374): `res` is the value that replay writes; with `stop` they end. An atomic that carried
the run-boundary flag has ended its run, whose latches are lost. -/
def Wave.entryOver (w : Wave) (id : Nat) (res : Option (Dst × Bool × Nat)) (stop : Bool) : Wave :=
  let mine (t : Stream) : Bool := match t.st with
    | .park (.entry ids) _ _ _ => ids.contains id
    | _ => false
  let ts := w.streams.filter mine
  let lanes := ts.foldl (fun m t => m ||| t.lanes) 0
  let len (l : Nat) : Nat := ((ts.find? fun t => hasLane t.lanes l).map fun t => match t.st with
    | .park _ n _ _ => n
    | _ => 0).getD 0
  let one (t : Stream) : List Stream :=
    if !mine t then [t]
    else if stop then []
    else match t.st with
      | .park _ _ true _ => []
      | _ => [{ t with bc := false, one := false, st := .run, count := t.count + 1 }]
  let w := match res with
    | some (d, wide, v) =>
      let d : Dst := { d with reg := d.reg.bind fun n => if n.toNat + b2n wide < w.d then some n else none }
      w.writeLanes d wide lanes v
    | none => w
  let spent := ts.foldl (fun m t => match t.st with
    | .park _ _ true _ => m ||| t.lanes
    | _ => m) 0
  let w : Wave := { w.endRun (if stop then lanes else spent) with
    streams := w.streams.flatMap one
    subs := (w.subs.map fun m => m &&& ~~~ lanes).filter (· != 0) ++ (if lanes == 0 || stop then [] else [lanes])
    bcLanes := w.bcLanes &&& ~~~ lanes }
  if stop then ({ w with ended := w.ended ||| lanes } : Wave).dropAll lanes
  else { w with pcs := (List.range 32).map fun l => if hasLane lanes l then listGet 0 w.pcs l + BitVec.ofNat 57 (len l) else listGet 0 w.pcs l }

/-- An entry leaves the log, and its record is over. -/
def State.dropEntry (s : State) (core : Nat) (e : LogEnt) : State :=
  let s := s.modCore core fun c => { c with log := c.log.filter fun x => x.id != e.id }
  (match e.fr with
   | some id => s.modRec id fun r => { r with entry := none }
   | none => s).dropDone

/-- The entry leaves with its lanes, if it holds any. -/
def State.finishEntry (s : State) (core : Nat) (e : LogEnt) (v : Option Nat) (stop : Bool) : State :=
  let s := s.dropEntry core e
  if !e.writes then s
  else
    let res := match e.act, v with
      | .atomic _ w _ _ d, some x => some (d, w, x)
      | _, _ => none
    let s := s.modUid e.uid fun w => w.entryOver e.id res stop
    if stop then s.reap core e.uid else s

/-- The entry faults again: it stays with a new record. -/
def State.againFault (s : State) (core : Nat) (e : LogEnt) (kind cause : Nat) : State :=
  let unit := (s.findWave e.uid).elim 0 fun x => x.2.unitNo
  let (s, id) := s.raise ⟨e.aslot, core, e.uid, e.slot, unit, e.pc, e.va, e.insn, e.stamp, e.lanes, 0, kind, cause, 1, e.seq,
    some e.id⟩
  let s := match e.fr with
    | some old => s.modRec old fun r => { r with entry := none }
    | none => s
  (s.modEntry core e.id fun e => { e with fr := some id, why := kind }).dropDone

/-- What is to become of an entry: 0 nothing yet, 1 replay, 2 or 3 drop. -/
def State.entryCode (s : State) (e : LogEnt) : Nat :=
  match e.fr with
  | none => 1
  | some id => (((s.recs.find? fun r => r.id == id).bind fun r => r.codes.find? fun x => x.1 == e.lane).map (·.2)).getD 0

/-- `SIDE_LOG_REPLAY` (R373, R374): the entry at an index, if it is the oldest of its lanes. -/
def State.replayStep (s : State) (core idx : Nat) : State :=
  let log := (s.core core).log
  match log[idx]? with
  | none => s
  | some e =>
    let first := (log.take idx).all fun x => x.uid != e.uid || x.lanes &&& e.lanes == 0
    let away := (s.core core).pre.any fun w => w.uid == e.uid
    let code := s.entryCode e
    if !first || code == 0 || (away && e.writes) || (s.core core).disabled then s
    else if code == 1 then
      match s.replayAct core e with
      | (s, .done v) => s.finishEntry core e (some v) false
      | (s, .fault k c) => s.againFault core e k c
      | (s, .wait) => s
    else s.finishEntry core e none (code == 3)

def execSideLogReplay (core idx : Nat) (s : State) : Host.Outcome State Fault Refusal := .next (s.replayStep core idx)

/-! ## Records and resolutions -/

/-- The codes of triggers that a full flow has held back from records leave (R373, R386). -/
def State.payAll (s : State) (aslot : Nat) : State :=
  (s.recs.filter fun r => r.aslot == aslot && r.owe).foldl State.payRec s

/-- `FAULT_RECORD_WRITE` (R361): the oldest record of a slot that waits for room. -/
def execFaultRecordWrite (slot : Nat) (s : State) : Host.Outcome State Fault Refusal := .next ((s.payAll slot).writeOne slot)

/-- Lanes held because of the wave's image (R377): they go on or end, and once none is left a code 1 has the image tried again; whether that
need not wait for a page (DEDUCED, log entry 42). -/
def State.imageCodes (s : State) (core slot : Nat) (r : FRec) : State × Bool :=
  let stop := r.coded 3
  let s := s.modWave core slot fun w =>
    (({ w with
      ended := w.ended ||| stop
      streams := (w.streams.map fun (t : Stream) => { t with lanes := t.lanes &&& ~~~ stop }).filter fun (t : Stream) => t.lanes != 0
      bcLanes := w.bcLanes &&& ~~~ stop } : Wave).mergeRuns).dropAll stop
  let done := r.done ||| r.coded 1 ||| r.coded 2 ||| stop
  if r.lanes &&& ~~~ done == 0 && r.codes.any (fun x => x.2 == 1) then
    s.useImage core slot (if bitsN (r.word 6) 55 48 == 1 then .spill else .fill)
  else (s, true)

/-- `RESOLUTION_OBSERVED` (R366): the codes of a held record act on the lanes of its resident wave (DEDUCED, log entry 12). -/
def State.resolve (s : State) (core id : Nat) : State :=
  match s.recs.find? fun r => r.id == id with
  | none => s
  | some r =>
    match s.findSlot r.uid with
    | none => s
    | some (c, slot) =>
      let again := r.coded 1
      let next := r.coded 2
      let stop := r.coded 3
      let all := again ||| next ||| stop
      if c != core || !r.held || all == 0 || (s.core core).disabled then s
      else
        match (if r.kind == 0x28 then s.imageCodes core slot r
            else (s.modWave core slot fun w => w.release id again next stop, true)) with
        | (s, true) => ((s.modRec id fun r => { r with done := r.done ||| all }).dropDone).reap core r.uid
        | (_, false) => s

def execResolutionObserved (core rec : Nat) (s : State) : Host.Outcome State Fault Refusal := .next (s.resolve core rec)

/-! ## Handler waves (R370) -/

/-- A group may form a wave: 32 lanes, or its oldest has waited 512 cycles. -/
def HGroup.due (g : HGroup) (cyc : Nat) : Bool :=
  decide (32 ≤ g.lanes.length) || (g.lanes.head?.elim false fun x => decide (x.2 + 512 ≤ cyc))

/-- `HANDLER_WAVE_FORM` (R370): the first 32 lanes of the first group that may. -/
def State.formHandler (s : State) (core : Nat) : State :=
  match (s.core core).handlers.find? fun g => g.due s.cyc && (s.slot? g.aslot).elim false fun a => decide (1 ≤ trapVregs a) && decide (trapVregs a ≤ 32) with
  | none => s
  | some g =>
    match s.slot? g.aslot with
    | none => s
    | some a =>
      let os := (g.lanes.take 32).map (·.1)
      let stamp := os.foldl (fun n o => min n o.stamp) (os.head?.elim 0 (·.stamp))
      let rest := g.lanes.drop 32
      s.modCore core fun c => { c with
        handlers := c.handlers.filterMap fun x =>
          if x.aslot == g.aslot && x.entry == g.entry then (if rest.isEmpty then none else some { x with lanes := rest }) else some x
        adm := c.adm ++ [.handler g.aslot g.entry (bitsN a.trapCfg.toNat 8 6) (8 * trapVregs a) stamp os] }

def execHandlerWaveForm (core : Nat) (s : State) : Host.Outcome State Fault Refusal :=
  .next (if (s.core core).offline then s else s.formHandler core)

/-! ## Errors in memory (R379, R98) -/

/-- The entries of a table that may be valid: those with a nonzero byte. -/
def tableEntries (m : List Host.Cell) (table n : Nat) : List Nat :=
  dedup ((m.filter fun x => decide (table ≤ x.1) && decide (x.1 < table + 8 * n)).map fun x => (x.1 - table) / 8)

/-- A versioned leaf below a table maps a frame. -/
def mapsVersioned (m : List Host.Cell) (frame : Nat) : Nat → Nat → Bool
  | 0, table => (tableEntries m table 32).any fun i =>
      let e := rdNum m (table + 8 * i) 8
      pteValid e && !pteBad 0 e && pteVer e && ptePa e / 65536 == frame
  | l + 1, table => (tableEntries m table 512).any fun i =>
      let e := rdNum m (table + 8 * i) 8
      pteValid e && !pteBad (l + 1) e && pteKind e == 0 && mapsVersioned m frame l (ptePa e)

/-- Replace the bytes of a range by those of an image. -/
def spliceMem (m img : List Host.Cell) (a n : Nat) : List Host.Cell :=
  m.filter (fun x => decide (x.1 < a)) ++ img.filter (fun x => decide (a ≤ x.1) && decide (x.1 < a + n)) ++
    m.filter fun x => decide (a + n ≤ x.1)

/-- Roll a versioned block back to the last checkpoint, or to zeros (R98, R421). -/
def State.rollback (s : State) (aslot frame : Nat) : State :=
  let a := frame * 65536
  let img := s.lehr.elim [] (·.mem)
  let tag := s.lehr.elim 0 fun l => mget 0 l.tags frame
  let m := spliceMem s.mem img a 65536
  let s : State := { s with mem := m, tags := mset 0 s.tags frame tag, recs := s.recs.map (FRec.observe m a 65536) }
  let s := (s.wake a 65536).mapCores fun _ c => { c with l1 := mdrop (fun k => k / 512 == frame) c.l1 }
  (s.countUe (dieOf a)).devRecord aslot 0x2A 0 0 tag.toNat

/-- The slot that maps a frame as a versioned block. -/
def State.versionedBy (s : State) (frame : Nat) : Option Nat :=
  (s.frameSlot frame).bind fun k => if (s.slot? k).elim false fun a => mapsVersioned s.mem frame 4 a.root then some k else none

/-- Poison a sector. -/
def State.poisonOne (s : State) (pa : Nat) : State :=
  if s.poisoned pa then s else { s with poison := (pa / 32) :: s.poison }.countUe (dieOf pa)

/-- An uncorrectable error in a sector (R379) (DEDUCED, log entry 45). -/
def State.spoil (s : State) (pa : Nat) : State :=
  if isExt pa || !s.backed pa then s
  else
    match s.versionedBy (pa / 65536) with
    | some k => s.rollback k (pa / 65536)
    | none => s.poisonOne pa

/-- `POISON_SECTOR` (R379): the sector that contains a physical address. -/
def execPoisonSector (pa : Nat) (s : State) : Host.Outcome State Fault Refusal :=
  .next ((if isExt pa || !s.backed pa then s else s.tokHome pa).spoil pa)

/-! ## The loss of a core (R380, R381) -/

/-- The slots that have something on a core. -/
def State.slotsOn (s : State) (core : Nat) : List Nat :=
  let c := s.core core
  let ofLaunch (lid : Nat) : List Nat := (aget s.launches lid).toList.map (·.aslot)
  dedup (c.slots.map (fun x => x.2.aslot) ++ c.pre.map (·.aslot) ++ c.log.map (·.aslot) ++ c.deque.flatMap ofLaunch ++
    (c.adm.flatMap fun a => match a with
      | .launch lid _ => ofLaunch lid
      | .handler k _ _ _ _ _ => [k]) ++ c.copies.map (·.aslot) ++
    [c.xp0, c.xp1].flatMap fun p => (p.heads.map (·.bind) ++ p.walk.toList.map (·.bind) ++
      (if isActive p.st then [p.bind] else [])).filterMap Bind.aslot)

/-- The root of a launch completes with a status, the first that is not 0 (R409). -/
def State.rootStatus (s : State) (lid st : Nat) : State :=
  match (aget s.launches lid).bind fun l => (aget s.roots l.root).map fun r => (l.root, r) with
  | some (k, r) => { s with roots := aput s.roots k { r with status := if r.status == 0 then st else r.status } }
  | none => s

/-- The copies of a core's engines end with error status. -/
def State.abortCopies (s : State) (core : Nat) : State :=
  (s.core core).copies.foldl (fun s c =>
    let s := if c.done then s else s.failCopy core c 0
    s.endCopy core ((s.copy? core c.id).getD { c with err := true })) s

/-- A walk of the core ends; a page that it was moving goes back (R314). -/
def State.abortWalk (s : State) (core x : Nat) : State :=
  match (s.xp core x).walk with
  | none => s
  | some w =>
    let s := s.setWalk core x none
    if w.busy && w.kind == 4 then s.setOff (w.bind.aslot.getD 0) w.page 0
    else if w.busy && w.kind == 5 then s.setOff (w.bind.aslot.getD 0) w.page 3
    else s

/-- A transfer processor of a lost core. -/
def State.abortXp (s : State) (core x : Nat) : State :=
  (s.abortWalk core x).modXp core x fun p => { p with heads := [], st := .halted, quit := false, bind := .none, loops := [] }

/-- A wave of a lost core: a task restarts elsewhere, any other ends (R381). -/
def State.loseWave (s : State) (core heir : Nat) (w : Wave) : State :=
  if w.handler.isNone && w.task then
    ((s.removeWave core w.uid).anewTask w.lid).pushTask heir w.lid
  else
    let s := if w.handler.isNone then s.rootStatus w.lid 1 else s
    s.endWave core w.uid

/-- Waves of a launch that the core had still to admit end as well. -/
def State.loseAdm (s : State) (core : Nat) (a : Adm) : State :=
  match a with
  | .handler _ _ _ _ _ _ => s
  | .launch lid nx =>
    match aget s.launches lid with
    | none => s
    | some l =>
      let s := s.rootStatus lid 1
      let alone := ((s.core core).alloc lid).isNone
      let s := (List.range l.blk.waves).foldl (fun s i => if nx ≤ i && !alone then s.leftCore core lid i else s) s
      if alone then
        let s := s.leave core lid
        ((List.range (l.blk.waves - nx)).foldl (fun s _ => s.launchLess lid) s).barScan lid
      else s

/-- A gang being reserved that needs the core waits again (R60). -/
def State.loseGang (s : State) (core : Nat) : State :=
  match s.dist.gang with
  | some (_, got, todo) =>
    if got.contains core || todo.contains core then
      { (got.foldl State.unreserve s) with dist := { s.dist with gang := none } }
    else s
  | none => s

/-- The changed lines and partials that the core held are lost (R380): a versioned block is rolled back, once, and the sectors of any other
line are poisoned (R379, R414). -/
def State.loseLines (s : State) (core : Nat) : State :=
  let c := s.core core
  let lines := dedup ((c.l1.filter fun x => x.2.dirty).map (·.1) ++ c.partials.map fun p => p.pa / 128)
  let s := s.modCore core fun c => { c with l1 := [], partials := [] }
  let s := (dedup (lines.map (· / 512))).foldl (fun s f => (s.versionedBy f).elim s fun k => s.rollback k f) s
  (lines.filter fun l => (s.versionedBy (l / 512)).isNone).foldl (fun s l =>
    (List.range 4).foldl (fun s i => s.poisonOne (128 * l + 32 * i)) s) s

/-- `CORE_DISABLE` (R380, R381) (DEDUCED, log entry 46). -/
def State.loseCore (s : State) (core : Nat) : State :=
  let slots := s.slotsOn core
  let lost := (s.core core).log.length
  let ws := (s.core core).slots.map (·.2) ++ (s.core core).pre
  let older (a b : Wave) : Bool := decide (b.stamp < a.stamp)
  let s := (s.modCore core fun c => { c with disabled := true }).abortCopies core
  let s := (s.abortXp core 0).abortXp core 1
  let heir := s.standIn core
  let tasks := (s.core core).deque
  let s := tasks.reverse.foldl (fun s lid => s.pushTask heir lid) (s.modCore core fun c => { c with deque := [] })
  let s := (sortBy older ws).foldl (fun s w => s.loseWave core heir w) s
  let s := (s.core core).adm.foldl (fun s a => s.loseAdm core a) s
  let s := s.loseGang core
  let gone := (s.core core).log.map (·.id)
  let s : State := { s with recs := s.recs.map fun (r : FRec) => if r.entry.elim false gone.contains then { r with entry := none } else r }
  let s := s.modCore core fun c => { c with
    slots := []
    pre := []
    adm := []
    allocs := []
    resv := none
    grants := [none, none, none, none]
    log := []
    handlers := []
    copies := []
    free := 4096
    cb := c.cb.map fun b => { b with wait := [] } }
  let s : State := { s with preqs := s.preqs.filter fun r => r.core != core }
  let s := ((s.loseLines core).countUe (coreDie core)).dropDone
  (slots.foldl (fun s k => s.devRecord k 0x29 0 0 lost) s).devEvent 2 core 0 []

def execCoreDisable (core : Nat) (s : State) : Host.Outcome State Fault Refusal :=
  .next (if core ≥ 1024 || (s.core core).disabled then s else s.loseCore core)

/-! ## Speculative accesses (R102) -/

/-- `SPECULATIVE_ACCESS` (R102): what a load, store or fetch of a scout pass or a wrong path of a wave meets. -/
def execSpeculativeAccess (core slot : Nat) (a : SpecAcc) (s : State) : Host.Outcome State Fault Refusal :=
  .next
    (match s.wave? core slot with
     | some w => s.speculate core w.aslot a.va.toNat (if a.write then .store else if a.fetch then .fetch else .load) false
     | none => s)

end Sys2Proof.Machine
end

