-- ==== Sys2Proof/Machine/Collectives.lean ====
section
/-! DEFINITION. Collective commands and results, `pstep` (R351 to R353); the collective engines, the closer of a quorum reduction,
exchange, broadcast and barrier, the progress table (R393 to R402). -/

namespace Sys2Proof.Machine
open Sys2Proof

/-! ## A communicator's entry (R393) -/

def Comm.eng (c : Comm) : Nat := bitsN c.w0.toNat 61 60
def Comm.vc (c : Comm) : Nat := bitsN c.w0.toNat 59 57
def Comm.n (c : Comm) : Nat := bitsN c.w0.toNat 56 45 + 1
def Comm.quorum (c : Comm) : Nat := bitsN c.w0.toNat 32 21 + 1
def Comm.floor' (c : Comm) : Nat := bitsN c.w0.toNat 20 9 + 1
def Comm.sil (c : Comm) : Nat := bitsN c.w1.toNat 55 32
def Comm.tmr (c : Comm) : Nat := bitsN c.w1.toNat 31 8

def Comm.peer (c : Comm) (r : Nat) : Peer := listGet ⟨true, 0, 0⟩ c.table r

/-- The members that the progress table does not mark absent; the device itself never is (R401). -/
def Comm.present (c : Comm) : List Nat := (List.range c.n).filter fun r => r == c.rank || (c.peer r).live

/-- The closer of quorum reductions (R396). -/
def Comm.closer (c : Comm) : Nat := c.present.headD c.rank

def State.modComm (s : State) (k : Nat) (f : Comm → Comm) : State :=
  match aget s.comms k with
  | some c => { s with comms := aput s.comms k (f c) }
  | none => s

/-! ## Messages of the engines (R395) -/

/-- Where the messages of an engine go: a route of the communicator's slot. -/
def engPa (route : Nat) : Nat := 2 ^ 51 + 2 ^ 50 + route * 2 ^ 40

/-- A message to a member leaves in the engine's own flow through the member's route, unit 5 (R386, R387, R391, R395); a member whose route
entry does not serve any more is unreachable. -/
def State.tell (s : State) (c : Comm) (rank : Nat) (m : EngMsg) : State :=
  let r := listGet 0 c.members rank
  let e := s.route c.aslot r
  if !routeOk e then s
  else
    let (s, i) := s.flowOf c.eng 5 c.aslot r
    s.enterFlow i e (.own .store (engPa r) (.engine m) false false)

def wordsBytes (ws : List Word) : List Byte := ws.flatMap fun w => toBytes 4 w.toNat
def bytesWords (bs : List Byte) : List Word :=
  (List.range (bs.length / 4)).map fun i => BitVec.ofNat 32 (ofBytes ((bs.drop (4 * i)).take 4))

/-! ## Accesses of the part's own (R393, R395, R408, R409) -/

/-- Where the sector of an address lies. -/
inductive EngAt where
  | dram (pa : Nat)
  | far (pa : Nat)
  | wait
  | fault

def State.engAt (s : State) (core aslot va : Nat) (k : AKind) : State × EngAt :=
  if 2 ^ 57 ≤ va then (s, .fault)
  else
    match s.translate core aslot va k with
    | (s, .fault _ _) => (s, .fault)
    | (s, .park _) => (s, .wait)
    | (s, .ok a) =>
      if isExt a.pa then (s, .far a.pa)
      else if (k.writes && s.sealedLine a.pa) || (!k.writes && s.poisoned a.pa) then (s, .fault)
      else (s, .dram a.pa)

/-- How far an access of the part's own has come. -/
inductive PartRes where
  | ok (bs : List Byte)
  | fault
  | wait

/-- The flow of a user: unit 3 stands for the engines, by die, and unit 4 for the firmware and its walker (R386, R405; DEDUCED, log
entry 44). -/
def PartUser.unit (u : PartUser) : Nat :=
  match u with
  | .src _ | .dst _ => 3
  | _ => 4

/-- An access in an external window is issued once, and is over with its answer (R388). -/
def State.far (s : State) (u : PartUser) (die aslot va pa : Nat) (k : RemKind) (r : RemReq) : State × PartRes :=
  match s.fetches.find? fun x => x.who == u && x.va == va with
  | some x =>
    match s.answer x.flow x.seq with
    | none => (s, .wait)
    | some (some (.done d)) => (s, .ok (d.flatMap fun w => toBytes 8 w.toNat))
    | some _ => (s, .fault)
  | none =>
    match s.issue die u.unit aslot (.own k pa r (k == .store) true) with
    | (s, .sent f q) => ({ s with fetches := s.fetches ++ [⟨u, va, f, q⟩] }, .wait)
    | (s, .full _) => (s, .wait)
    | (s, .bad) => (s, .fault)

/-- A store that nobody waits for. -/
def State.post (s : State) (u : PartUser) (die aslot pa : Nat) (r : RemReq) : State × PartRes :=
  match s.issue die u.unit aslot (.own .store pa r true false) with
  | (s, .sent _ _) => (s, .ok [])
  | (s, .full _) => (s, .wait)
  | (s, .bad) => (s, .fault)

/-- A user has taken what it asked for. -/
def State.partDone (s : State) (u : PartUser) : State :=
  let gone := s.fetches.filter fun x => x.who == u
  let s : State := { s with fetches := s.fetches.filter fun x => x.who != u }
  gone.foldl (fun s x => s.modFlow x.flow fun f => { f with answers := f.answers.filter fun y => y.1 != x.seq }) s

/-- Who accesses for whom: the user, the core whose TLB translates, the die whose flow it takes, the slot; whether its stores are left to
their flow. -/
structure PartCtx where
  who   : PartUser
  core  : Nat
  die   : Nat
  aslot : Nat
  post  : Bool

/-- Read up to the end of a range, each sector as one event (R107). -/
def State.engRead (x : PartCtx) : Nat → Nat → Nat → List Byte → State → State × PartRes
  | 0, _, _, acc, s => (s, .ok acc)
  | fuel + 1, va, n, acc, s =>
    if n == 0 then (s, .ok acc)
    else
      let k := min n (32 - va % 32)
      match s.engAt x.core x.aslot va .load with
      | (s, .fault) => (s, .fault)
      | (s, .wait) => (s, .wait)
      | (s, .far pa) =>
        match s.far x.who x.die x.aslot va pa .load (.load k) with
        | (s, .ok bs) => State.engRead x fuel (va + k) (n - k) (acc ++ bs.take k) s
        | r => r
      | (s, .dram pa) =>
        let s := (s.homeToken pa).combine pa
        State.engRead x fuel (va + k) (n - k) (acc ++ rdBytes s.mem pa k) s

/-- The store of a part of one sector as it travels. -/
def sectorReq (pa : Nat) (bs : List Byte) : RemReq :=
  .sector (maskOf ((List.range bs.length).map fun i => pa % 32 + i)) (List.replicate (pa % 32) 0 ++ bs)

/-- Write bytes sector by sector; with the outcome come the bytes that are left. -/
def State.engWrite (x : PartCtx) : Nat → Nat → List Byte → State → State × PartRes × (Nat × List Byte)
  | 0, va, bs, s => (s, .ok [], (va, bs))
  | fuel + 1, va, bs, s =>
    if bs.isEmpty then (s, .ok [], (va, bs))
    else
      let k := min bs.length (32 - va % 32)
      match s.engAt x.core x.aslot va .store with
      | (s, .far pa) =>
        let r := sectorReq pa (bs.take k)
        match (if x.post then s.post x.who x.die x.aslot pa r else s.far x.who x.die x.aslot va pa .store r) with
        | (s, .ok _) => State.engWrite x fuel (va + k) (bs.drop k) s
        | (s, r) => (s, r, (va, bs))
      | (s, .dram pa) => State.engWrite x fuel (va + k) (bs.drop k) ((s.tokHome pa).physStore pa (bs.take k))
      | (s, .wait) => (s, .wait, (va, bs))
      | (s, .fault) => (s, .fault, (va, bs))

/-- Write pieces one after another; the first that does not come to its end is left with those behind it. -/
def State.engPieces (x : PartCtx) : List (Nat × List Byte) → State → State × PartRes × List (Nat × List Byte)
  | [], s => (s, .ok [], [])
  | p :: rest, s =>
    match State.engWrite x (p.2.length + 1) p.1 p.2 s with
    | (s, .ok _, _) => State.engPieces x rest s
    | (s, r, left) => (s, r, left :: rest)

/-! ## Completing a command (R352, R395) -/

def collWord (st cnt late : Nat) : Word := BitVec.ofNat 32 (st * 2 ^ 30 + cnt % 2 ^ 13 * 2 ^ 17 + min late 0x1FFFF)

/-- A record of the engine (R395). -/
def State.collRecord (s : State) (aslot cause : Nat) : State := s.devRecord aslot 0x22 cause 0 0

/-- The result word of a command enters its place in the queue. -/
def State.collResult (s : State) (uid id st cnt late : Nat) : State :=
  s.modUid uid fun w => { w with collQ := w.collQ.map fun (x : Nat × CollSlot) =>
    if x.2.cmd == id then (x.1, { x.2 with res := some (collWord st cnt late) }) else x }

/-- The bytes of some pieces. -/
def piecesLen (l : List (Nat × List Byte)) : Nat := l.foldl (fun n p => n + p.2.length) 0

/-- The first `n` bytes of some pieces, and the others. -/
def cutPieces : Nat → List (Nat × List Byte) → List (Nat × List Byte) × List (Nat × List Byte)
  | _, [] => ([], [])
  | n, p :: rest =>
    if p.2.length ≤ n then
      let r := cutPieces (n - p.2.length) rest
      (p :: r.1, r.2)
    else if n == 0 then ([], p :: rest)
    else ([(p.1, p.2.take n)], (p.1 + n, p.2.drop n) :: rest)

/-- A command whose destination is written, or has met a fault: its result word enters the queue (R352, R395). -/
def State.pendOver (s : State) (k aslot : Nat) (p : CollPend) (fault : Bool) : State :=
  let s := (s.partDone (.dst p.id)).modComm k fun c => { c with pend := c.pend.filter fun q => q.id != p.id }
  if fault then (s.collRecord aslot 4).collResult p.uid p.id 3 p.cnt p.late else s.collResult p.uid p.id p.st p.cnt p.late

/-- Write one chunk of the destination of a command that has its result; the result word follows once every write is performed (R352, R395).
False where the chunk is not ready. -/
def State.writeChunk (s : State) (k : Nat) (c : Comm) (p : CollPend) : State × Bool :=
  let (now, later) := cutPieces (4096 - p.out % 4096) p.left
  let keep (s : State) (left : List (Nat × List Byte)) : State :=
    let q : CollPend := { p with left := left, out := p.out + (piecesLen p.left - piecesLen left) }
    s.modComm k fun c => { c with pend := c.pend.map fun x => if x.id == p.id then q else x }
  match State.engPieces ⟨.dst p.id, p.core, c.eng, c.aslot, false⟩ now s with
  | (s, .wait, left) => (keep s (left ++ later), false)
  | (s, .fault, _) => (s.pendOver k c.aslot p true, true)
  | (s, .ok _, _) => (if later.isEmpty then s.pendOver k c.aslot p false else keep (s.partDone (.dst p.id)) later, true)

/-- The source has been read and the command's messages have left. -/
def CollCmd.away (m : CollCmd) : Bool := decide (m.len < m.sent)

/-- The commands without result, oldest first. -/
def Comm.own (c : Comm) : List CollCmd := c.cmds.filter fun m => !m.given

def Comm.modCmd (c : Comm) (id : Nat) (f : CollCmd → CollCmd) : Comm :=
  { c with cmds := (c.cmds.map fun x => if x.id == id then f x else x).filter fun x => !(x.given && x.away) }

/-- A command has its result: its engine writes the pieces of its destination chunk by chunk, then the result word enters its place in the queue,
which is at once where nothing is written. Its messages still leave (DEDUCED, log entry 44). -/
def State.finishCmd (s : State) (k id st cnt late : Nat) (pieces : List (Nat × List Word)) : State :=
  match (aget s.comms k).bind fun c => c.own.find? fun m => m.id == id with
  | none => s
  | some m =>
    let p : CollPend := ⟨id, m.uid, m.core, st, cnt, late, 0, pieces.map fun p => (m.dst + p.1, wordsBytes p.2)⟩
    let s := s.modComm k fun c => ({ c with pend := c.pend ++ [p] } : Comm).modCmd id fun x => { x with given := true }
    match aget s.comms k with
    | some c => if piecesLen p.left == 0 then s.pendOver k c.aslot p false else s
    | none => s

/-! ## The closer (R396 to R398, R156) -/

/-- The weight of a contribution that is `d` steps late. -/
def lateWeight (d : Nat) : FV := .fin false 1 (-(d : Int))

/-- The accepted contributions of step t, by rank and then by lateness. -/
def Comm.accepted (c : Comm) (t : Nat) : List (Nat × Contrib) :=
  let l := (c.parts.filter fun p => p.op == .red && p.into == some t).map fun p => (t - p.step, p)
  sortBy (fun a b => if a.2.rank != b.2.rank then decide (a.2.rank < b.2.rank) else decide (a.1 < b.1)) l

/-- The result of a quorum reduction (R156). A contribution that is shorter than the step's command has no part in the elements it lacks
(DEDUCED, log entry 33). -/
def reduceParts (n : Nat) (ps : List (Nat × Contrib)) : List Word :=
  (List.range n).map fun i =>
    let l := ps.filter fun p => decide (i < p.2.data.length)
    let num := l.map fun p => fF32.round .rn 0 false (mulFV (lateWeight p.1) (fF32.decode (listGet 0 p.2.data i).toNat))
    let den := l.map fun p => fF32.round .rn 0 false (lateWeight p.1)
    BitVec.ofNat 32 (divF fF32 .rn (fF32.decode (treeSum (faddE fF32 .rn) 0 num)) (fF32.decode (treeSum (faddE fF32 .rn) 0 den)))

/-- Send a step's outcome to one member (R397, R398); the device takes its own at once. -/
def State.reply (s : State) (k : Nat) (c : Comm) (rank : Nat) (r : CollRes) : State :=
  if rank != c.rank then s.tell c rank (.result k r.step r.st r.cnt r.late r.data)
  else
    match c.own.find? fun m => m.op == .red && m.step == r.step with
    | some m => s.finishCmd k m.id r.st r.cnt r.late (if r.data.isEmpty then [] else [(0, r.data)])
    | none => s

/-- The step after t. -/
def nextStep (t : Nat) : Nat := (t + 1) % 2 ^ 32

/-- Step t is over: its slots are freed and the next one becomes current. -/
def Comm.advance (c : Comm) (t : Nat) (r : CollRes) : Comm :=
  { c with
    cur := some (nextStep t)
    closed := true
    parts := c.parts.filter fun p => !(p.op == .red && p.into == some t)
    timer := none
    expiries := 0
    late := 0
    results := c.results ++ [r] }

/-- Close step t (R398). -/
def State.closeStep (s : State) (k t st : Nat) : State :=
  match aget s.comms k with
  | none => s
  | some c =>
    let ps := c.accepted t
    let n := match c.own.find? fun m => m.op == .red && m.step == t with
      | some m => m.len / 4
      | none => ps.foldl (fun n p => max n p.2.data.length) 0
    let r : CollRes := ⟨t, st, ps.length, c.late, reduceParts n ps⟩
    let s := (List.range c.n).foldl (fun s i => s.reply k c i r) s
    s.modComm k fun c => c.advance t r

/-- A stall (R398): status 2 to the members whose command for t is present. -/
def State.stallStep (s : State) (k t : Nat) : State :=
  match aget s.comms k with
  | none => s
  | some c =>
    let r : CollRes := ⟨t, 2, 0, 0, []⟩
    let has (i : Nat) : Bool :=
      (c.parts.any fun p => p.op == .red && p.into == some t && p.step == t && p.rank == i) ||
      (i == c.rank && c.own.any fun m => m.op == .red && m.step == t)
    let s := ((List.range c.n).filter has).foldl (fun s i => s.reply k c i r) s
    (s.modComm k fun c => c.advance t r).devEvent 4 0 c.aslot [k, t]

/-- What becomes of a contribution of step `x` while t is current (R397): accepted, held, refused as too new, dropped as too old. -/
inductive Fate where
  | accept | keep | tooNew | tooOld
deriving DecidableEq, Repr

def fate (t lead x : Nat) : Fate :=
  if x == t then .accept
  else if t < x then (if x ≤ t + lead then .keep else .tooNew)
  else if t ≤ x + lead then .accept
  else .tooOld

/-- Treat one contribution that is not yet accepted. -/
def State.treat (s : State) (k t : Nat) (p : Contrib) : State :=
  match aget s.comms k with
  | none => s
  | some c =>
    let drop (s : State) : State := s.modComm k fun c => { c with parts := c.parts.erase p, late := c.late + 1 }
    match fate t c.lead p.step with
    | .accept => s.modComm k fun c => { c with parts := c.parts.map fun x => if x == p then { x with into := some t } else x }
    | .keep => s
    | .tooNew => (drop s).reply k c p.rank ⟨p.step, 3, 0, 0, []⟩
    | .tooOld => drop s

/-- Contributions of the current step that count toward Q. -/
def Comm.onTime (c : Comm) (t : Nat) : Nat :=
  (c.parts.filter fun p => p.op == .red && p.into == some t && p.step == t).length

/-- The closer's current step (R397): the oldest that it has not closed; before its first, that of its own oldest reduction without a
result. -/
def Comm.now (c : Comm) : Option Nat :=
  if c.closed then c.cur else (c.own.find? fun m => m.op == .red).map (·.step)

/-- Another step is current: what the former one had accepted is held again and its timer ends. -/
def Comm.turnTo (c : Comm) (t : Option Nat) : Comm :=
  if c.cur == t then c
  else { c with cur := t, timer := none, expiries := 0, parts := c.parts.map fun p => { p with into := none } }

/-- Find the current step, treat what is held, start the timer, close on the quorum, and again for the next step (R397, R398). -/
def State.settleRed (k : Nat) : Nat → State → State
  | 0, s => s
  | fuel + 1, s =>
    let s := s.modComm k fun c => c.turnTo c.now
    match aget s.comms k with
    | none => s
    | some c =>
      match c.cur with
      | none => s
      | some t =>
        let s := (c.parts.filter fun p => p.op == .red && p.into.isNone).foldl (fun s p => s.treat k t p) s
        match aget s.comms k with
        | none => s
        | some c =>
          let any := c.parts.any fun p => p.op == .red && p.into == some t
          let s := if any && c.timer.isNone then s.modComm k fun c => { c with timer := some (s.us + c.tmr) } else s
          if c.quorum ≤ c.onTime t then State.settleRed k fuel (s.closeStep k t 0) else s

def State.settleComm (s : State) (k : Nat) : State :=
  State.settleRed k ((aget s.comms k).elim 0 (·.parts.length) + 1) s

/-- A contribution reaches this device as closer. -/
def State.addPart (s : State) (k : Nat) (p : Contrib) : State :=
  (s.modComm k fun c => { c with parts := c.parts ++ [p] }).settleComm k

/-! ## Exchange, broadcast and barrier (R400) -/

/-- The bytes that each member's part of a command has. -/
def CollCmd.partLen (m : CollCmd) (n : Nat) : Nat :=
  match m.op with
  | .red | .bcast => m.len
  | .a2a => m.len / n
  | .bar => 0

/-- The parts that have arrived for a command. -/
def Comm.arrived (c : Comm) (m : CollCmd) : List Contrib := c.parts.filter fun p => p.op == m.op && p.step == m.step

/-- The parts of the other members. -/
def Comm.others (c : Comm) (m : CollCmd) : List Contrib := (c.arrived m).filter fun p => p.rank != c.rank

/-- What is written for the parts that have arrived (R400). -/
def Comm.pieces (c : Comm) (m : CollCmd) : List (Nat × List Word) :=
  match m.op with
  | .a2a => (c.arrived m).map fun p => (p.rank * (m.len / c.n), p.data)
  | .bcast => ((c.arrived m).filter fun p => p.rank == m.root).map fun p => (0, p.data)
  | _ => []

/-- Complete one of these commands (R400). -/
def State.closeOther (s : State) (k : Nat) (m : CollCmd) (st cnt : Nat) (pieces : List (Nat × List Word)) : State :=
  (s.finishCmd k m.id st cnt 0 pieces).modComm k fun c => { c with parts := c.parts.filter fun p => !(p.op == m.op && p.step == m.step) }

/-- Close the command if its closure set has arrived: the device's own part with the push, except that what it sends itself must have been
read. -/
def State.tryOther (s : State) (k id : Nat) : State :=
  match (aget s.comms k).bind fun c => (c.own.find? fun m => m.id == id).map fun m => (c, m) with
  | none => s
  | some (c, m) =>
    let has (r : Nat) : Bool := r == c.rank || (c.others m).any fun p => p.rank == r
    match m.op with
    | .red => s
    | .bcast => if (m.root != c.rank || m.away) && has m.root then s.closeOther k m 0 c.present.length (c.pieces m) else s
    | op => if (op == .bar || m.away) && c.present.all has then s.closeOther k m 0 ((c.others m).length + 1) (c.pieces m) else s

/-! ## Pushing a command (R351) -/

/-- A parameter outside its limits (R351). -/
def collBad (op : CollOp) (n : Nat) (p : Nat → Nat) : Bool :=
  let len := p 6
  let root := p 7
  let size := len % 4 != 0 || decide (len < 4) || decide (2 ^ 24 < len)
  decide (256 ≤ p 0) ||
  (match op with
   | .red => size || root != 0
   | .a2a => size || root != 0 || len % (4 * n) != 0
   | .bcast => size || decide (n ≤ root)
   | .bar => (List.range 6).any fun i => p (2 + i) != 0)

/-- A message meets a command of its communicator and step with another op or length (R394). -/
def Comm.mismatch (c : Comm) (op : CollOp) (step len : Nat) : Bool :=
  let l := c.own.filter fun m => m.step == step
  match l.find? fun m => m.op == op with
  | some m => m.partLen c.n != len
  | none => !l.isEmpty

def State.mismatchEvent (s : State) (k : Nat) (c : Comm) (step : Nat) : State := s.devEvent 3 0 c.aslot [k, step]

/-- The result of a step meets a command of its step with another op or, where it has data, another length (R394). -/
def Comm.oddResult (c : Comm) (r : CollRes) : Bool :=
  if 2 ≤ r.st then c.own.any (fun m => m.step == r.step) && !c.own.any fun m => m.step == r.step && m.op == .red
  else c.mismatch .red r.step (4 * r.data.length)

/-- What other members have sent for a step, and what does not match the command now pushed for it: discarded, each with its report (R394). -/
def State.rejectHeld (s : State) (k step : Nat) : State :=
  match aget s.comms k with
  | none => s
  | some c =>
    let bad (p : Contrib) : Bool := p.rank != c.rank && p.step == step && c.mismatch p.op step p.len
    let odd (r : CollRes) : Bool := r.step == step && c.oddResult r
    let n := (c.parts.filter bad).length + (c.results.filter odd).length
    iterate (fun s => s.mismatchEvent k c step) n
      (s.modComm k fun c => { c with parts := c.parts.filter fun p => !bad p, results := c.results.filter fun r => !odd r })

/-- The result of a step that has come before its command: what is written and answered (R398). -/
def State.giveResult (s : State) (k : Nat) (m : CollCmd) (r : CollRes) : State :=
  s.finishCmd k m.id r.st r.cnt r.late (if decide (2 ≤ r.st) then [] else [(0, r.data)])

/-- A command enters its communicator. -/
def State.pushed (s : State) (k : Nat) (m : CollCmd) : State :=
  let s := (s.modComm k fun c => { c with cmds := c.cmds ++ [m] }).rejectHeld k m.step
  if m.op != .red then s.tryOther k m.id
  else
    (match (aget s.comms k).bind fun (c : Comm) => c.results.find? fun (r : CollRes) => r.step == m.step with
     | some r => s.giveResult k m r
     | none => s).settleComm k

/-- `coll.red`, `coll.a2a`, `coll.bcast` and `coll.bar` (R351). -/
def State.coll (s : State) (c : Ctl) (op : CollOp) (q : BitVec 4) (sP : SReg) : Host.Outcome State Fault Refusal :=
  s.oncePlain c fun s =>
    let act := s.active c.guard
    let p (i : Nat) : Nat := (s.sreg (sP.toNat + i)).toNat
    let k := p 0 % 256
    match (aget s.comms k).filter fun x => x.aslot == s.curAslot with
    | none => s.hold act 0x22 1 0 0
    | some x =>
      if collBad op x.n p then s.hold act 0x22 2 0 0
      else if (s.w.collQ.filter fun y => y.1 == q.toNat).length ≥ 16 then s.parkOn act (.collRoom q.toNat)
      else s.afterAll act fun s =>
        let (id, s) := s.newId
        let len := p 6
        let away := op == .bcast && p 7 != x.rank
        let m : CollCmd := ⟨id, s.cur, s.w.uid, op, p 1, p 2 + 2 ^ 32 * p 3, p 4 + 2 ^ 32 * p 5, len, p 7,
          if away then len + 1 else 0, [], s.us, 0, none, false⟩
        let s := (s.bump s.waveId 1).modW fun w => { w with collQ := w.collQ ++ [(q.toNat, ⟨id, none⟩)] }
        s.pushed k m

/-- `coll.red` (R351). -/
def execCollRed (c : Ctl) (q : BitVec 4) (sP : SReg) (s : State) : Host.Outcome State Fault Refusal := s.coll c .red q sP

/-- `coll.a2a` (R351). -/
def execCollA2a (c : Ctl) (q : BitVec 4) (sP : SReg) (s : State) : Host.Outcome State Fault Refusal := s.coll c .a2a q sP

/-- `coll.bcast` (R351). -/
def execCollBcast (c : Ctl) (q : BitVec 4) (sP : SReg) (s : State) : Host.Outcome State Fault Refusal := s.coll c .bcast q sP

/-- `coll.bar` (R351). -/
def execCollBar (c : Ctl) (q : BitVec 4) (sP : SReg) (s : State) : Host.Outcome State Fault Refusal := s.coll c .bar q sP

/-- The first place of a queue leaves it. -/
def dropFirst (q : Nat) (l : List (Nat × CollSlot)) : List (Nat × CollSlot) :=
  match l with
  | [] => []
  | x :: xs => if x.1 == q then xs else x :: dropFirst q xs

/-- `coll.res` (R352). -/
def execCollRes (c : Ctl) (sD : SReg) (q : BitVec 4) (s : State) : Host.Outcome State Fault Refusal :=
  s.once c fun s =>
    match (s.w.collQ.find? fun x => x.1 == q.toNat).bind fun x => x.2.res with
    | none => s.parkOn (s.active c.guard) (.collRes q.toNat)
    | some r => (s.modW fun w => { w with collQ := dropFirst q.toNat w.collQ }).setScal false sD r.toNat

/-! ## `pstep` and the progress table (R353, R401, R402) -/

/-- Parked `pstep`s of a communicator whose condition holds pass. -/
def State.pstepScan (s : State) (k : Nat) : State :=
  let one (t : Stream) : Stream := match t.st with
    | .park (.pstep c x false) n r i => { t with st := .park (.pstep c x (c == k && s.stepOk c x)) n r i }
    | _ => t
  s.mapWaves fun _ w => { w with streams := w.streams.map one }

/-- `pstep` (R353): the publication is at the device's own entry at once (DEDUCED, log entry 30). -/
def execPstep (c : Ctl) (sS sC : SReg) (s : State) : Host.Outcome State Fault Refusal :=
  s.oncePlain c fun s =>
    let act := s.active c.guard
    match s.focus.resume with
    | some (.pstep _ _ _) => s
    | _ =>
      let x := s.scal false sC
      let k := x % 256
      let step := s.scal false sS
      match (aget s.comms k).filter fun y => y.aslot == s.curAslot with
      | none => s.hold act 0x22 1 0 0
      | some y =>
        if 256 ≤ x then s.hold act 0x22 1 0 0
        else
          let s := s.modComm k fun z => { z with table := listPut ⟨true, 0, 0⟩ z.n z.table z.rank ⟨true, step, s.us⟩ }
          let s := ((List.range y.n).filter (· != y.rank)).foldl (fun s r => s.tell y r (.publish k y.rank step)) s
          let s := s.pstepScan k
          if s.stepOk k step then s else s.parkOn act (.pstep k step false)

/-- Contributions whose closer is absent go to the new one (R396). -/
def State.resend (s : State) (k : Nat) : State :=
  match aget s.comms k with
  | none => s
  | some c =>
    let lost := c.own.filter fun m => m.op == .red && m.tgt.elim false fun r => !c.present.contains r
    let dest := c.closer
    lost.foldl (fun s m =>
      let s := s.modComm k fun c => c.modCmd m.id fun x => { x with tgt := some dest }
      if dest == c.rank then s.addPart k ⟨c.rank, m.step, .red, m.data, m.len, none, 0⟩
      else s.tell c dest (.part k c.rank .red m.step m.data)) s

/-- What depends on the progress table is evaluated anew (R402). -/
def State.tableChanged (s : State) (k : Nat) : State :=
  let s := (s.pstepScan k).resend k
  let ids := (aget s.comms k).elim [] fun c => c.cmds.map (·.id)
  ids.foldl (fun s id => s.tryOther k id) s

def State.setPeer (s : State) (k rank : Nat) (p : Peer) : State :=
  s.modComm k fun c => { c with table := listPut ⟨true, 0, 0⟩ c.n c.table rank p }

/-- A live communicator that has another member of this rank. -/
def State.peerOf (s : State) (k rank : Nat) : Option Comm :=
  (aget s.comms k).filter fun c => decide (rank < c.n) && rank != c.rank

/-- The published step of a member reaches the device (R401). -/
def State.hearStep (s : State) (comm rank step : Nat) : State :=
  match s.peerOf comm rank with
  | some _ => (s.setPeer comm rank ⟨true, step % 2 ^ 32, s.us⟩).tableChanged comm
  | none => s

/-- `PUBLICATION_ARRIVAL` (R401). -/
def execPublicationArrival (comm rank step : Nat) (s : State) : Host.Outcome State Fault Refusal := .next (s.hearStep comm rank step)

/-- `SILENCE_TIMEOUT` (R401). -/
def execSilenceTimeout (comm rank : Nat) (s : State) : Host.Outcome State Fault Refusal :=
  .next
    (match s.peerOf comm rank with
     | some c =>
       let p := c.peer rank
       if p.live && decide (p.last + c.sil < s.us) then (s.setPeer comm rank { p with live := false }).tableChanged comm else s
     | none => s)

/-! ## The engines (R395) -/

/-- A command's messages leave: its contribution to the closer, its parts to every member (R396, R400). -/
def State.sendCmd (s : State) (k : Nat) (c : Comm) (m : CollCmd) : State :=
  let members := (List.range c.n).filter (· != c.rank)
  let b := m.len / c.n / 4
  let part (r : Nat) : List Word := if m.op == .a2a then (m.data.drop (r * b)).take b else m.data
  let gone (s : State) (tgt : Option Nat) : State := s.modComm k fun c => c.modCmd m.id fun x => { m with tgt := tgt, given := x.given }
  match m.op with
  | .red =>
    let dest := c.closer
    let s := gone s (some dest)
    if dest == c.rank then s.addPart k ⟨c.rank, m.step, .red, m.data, m.len, none, 0⟩
    else s.tell c dest (.part k c.rank .red m.step m.data)
  | op =>
    let s := gone (members.foldl (fun s r => s.tell c r (.part k c.rank op m.step (part r))) s) none
    if m.given then s
    else (s.modComm k fun c => { c with parts := c.parts ++ [⟨c.rank, m.step, op, part c.rank, 4 * (part c.rank).length, none, 0⟩] }).tryOther k m.id

/-- A fault in reading a source ends the command: nothing of it is sent (R395). -/
def State.sourceFault (s : State) (k : Nat) (c : Comm) (m : CollCmd) : State :=
  let s := (s.finishCmd k m.id 3 0 0 []).modComm k fun c => { c with cmds := c.cmds.filter fun x => x.id != m.id }
  (s.collRecord c.aslot 3).settleComm k

/-- Read one chunk of a command's source. False where it is not ready. -/
def State.readChunk (s : State) (k : Nat) (c : Comm) (m : CollCmd) : State × Bool :=
  let n := min 4096 (m.len - m.sent)
  match State.engRead ⟨.src m.id, m.core, c.eng, c.aslot, false⟩ (n + 1) (m.src + m.sent) n [] s with
  | (s, .wait) => (s, false)
  | (s, .fault) => ((s.partDone (.src m.id)).sourceFault k c m, true)
  | (s, .ok bs) =>
    let last := decide (m.len ≤ m.sent + n)
    let m := { m with sent := if last then m.len + 1 else m.sent + n, data := m.data ++ bytesWords bs }
    let s := s.partDone (.src m.id)
    (if last then s.sendCmd k c m else s.modComm k fun c => c.modCmd m.id fun x => { m with given := x.given }, true)

/-- The work of a communicator whose chunk is next, in command order (R395): of one command its source comes before its destination. -/
inductive Work where
  | read (m : CollCmd)
  | write (p : CollPend)

def Comm.nextWork (c : Comm) : Option Work :=
  let p := c.pend.foldl (fun (b : Option CollPend) p => match b with
    | none => some p
    | some q => some (if p.id < q.id then p else q)) none
  match c.cmds.find? fun m => !m.away, p with
  | some m, some p => some (if m.id ≤ p.id then .read m else .write p)
  | some m, none => some (.read m)
  | none, some p => some (.write p)
  | none, none => none

/-- Move one chunk. -/
def State.chunk (s : State) (k : Nat) (c : Comm) (w : Work) : State × Bool :=
  match w with
  | .read m => s.readChunk k c m
  | .write p => s.writeChunk k c p

/-- Communicators of an engine's channel in the order of their turns. -/
def State.engOrder (s : State) (die vc : Nat) : List (Nat × Comm × Work) :=
  let e := listGet ⟨0, []⟩ s.engines die
  let start := listGet 0 e.comm vc
  let l := s.comms.filter fun x => x.2.eng == die && x.2.vc == vc
  ((l.filter fun x => decide (start ≤ x.1)) ++ l.filter fun x => decide (x.1 < start)).filterMap fun x =>
    x.2.nextWork.map fun m => (x.1, x.2, m)

def State.served' (s : State) (die vc k : Nat) : State :=
  { s with engines := listPut ⟨0, []⟩ 4 s.engines die (let e := listGet ⟨0, []⟩ s.engines die
      { e with vc := vc + 1, comm := listPut 0 8 e.comm vc (k + 1) }) }

/-- Serve the first of a list of candidates that is ready. -/
def State.serveChunk (s : State) (die : Nat) : List (Nat × Nat × Comm × Work) → State
  | [] => s
  | (vc, k, c, m) :: rest =>
    match s.chunk k c m with
    | (s, true) => s.served' die vc k
    | (s, false) => s.serveChunk die rest

/-- `ENGINE_CHUNK` (R395): channels in round-robin order, within one the communicators in round-robin order. -/
def execEngineChunk (die : Nat) (s : State) : Host.Outcome State Fault Refusal :=
  .next
    (let e := listGet ⟨0, []⟩ s.engines die
     s.serveChunk die ((List.range 8).flatMap fun i =>
       let vc := (e.vc + i) % 8
       (s.engOrder die vc).map fun x => (vc, x)))

/-! ## Messages of other members -/

/-- The lowest free slot of the closer's staging area, of the length of the contribution (R396; DEDUCED, log entry 44). -/
def Comm.stageSlot (c : Comm) (len : Nat) : Option Nat :=
  let used := c.parts.filter fun p => p.op == .red && p.rank != c.rank
  (sortBy (fun a b => decide (a < b)) (0 :: used.map fun p => p.at' + p.len)).find? fun a =>
    decide (a + len ≤ c.stgn) && used.all fun p => !overlaps a len p.at' p.len

/-- The contribution is written into its slot; none where that has to wait. -/
def State.stage (s : State) (c : Comm) (at' : Nat) (data : List Word) : Option State :=
  let bs := wordsBytes data
  match State.engPieces ⟨.dst 0, 256 * c.eng, c.eng, c.aslot, true⟩ [(c.stg + at', bs)] s with
  | (s, .ok _, _) => some s
  | _ => none

/-- A message of a member is here already. -/
def Comm.holds (c : Comm) (op : CollOp) (rank step : Nat) : Bool := c.parts.any fun p => p.op == op && p.step == step && p.rank == rank

/-- A contribution reaches the closer (R394, R396, R397); one that is here already is dropped (R387). False where it finds no free slot, or
its slot cannot be written now, and waits at its sender. -/
def State.hearRed (s : State) (comm rank step : Nat) (data : List Word) : State × Bool :=
  match s.peerOf comm rank with
  | none => (s, true)
  | some c =>
    let len := 4 * data.length
    let step := step % 2 ^ 32
    if c.holds .red rank step then (s, true)
    else if c.mismatch .red step len then (s.mismatchEvent comm c step, true)
    else
      match (c.stageSlot len).bind fun a => (s.stage c a data).map fun s => s.addPart comm ⟨rank, step, .red, data, len, none, a⟩ with
      | some s => (s, true)
      | none => (s, false)

/-- `CONTRIBUTION_ARRIVAL` (R394, R396, R397). -/
def execContributionArrival (comm rank step : Nat) (data : List Word) (s : State) : Host.Outcome State Fault Refusal :=
  .next (s.hearRed comm rank step data).1

/-- A part of an exchange, a broadcast or a barrier reaches the device (R400). -/
def State.hearPart (s : State) (comm rank : Nat) (op : CollOp) (step len : Nat) (data : List Word) : State :=
  match s.peerOf comm rank with
  | none => s
  | some c =>
    if op == .red || len != 4 * data.length then s
    else if c.mismatch op step len then s.mismatchEvent comm c step
    else if c.holds op rank step then s
    else
      let s := s.modComm comm fun c => { c with parts := c.parts ++ [⟨rank, step, op, data, len, none, 0⟩] }
      match c.own.find? fun m => m.op == op && m.step == step with
      | some m => s.tryOther comm m.id
      | none => s

/-- `COLLECTIVE_MESSAGE_ARRIVAL` (R400). -/
def execCollectiveMessageArrival (comm rank : Nat) (op : CollOp) (step len : Nat) (data : List Word) (s : State) :
    Host.Outcome State Fault Refusal := .next (s.hearPart comm rank op step len data)

/-- The result of a step reaches the device (R398): the first counts; one that meets a command of another op or length is discarded and
reported (R394). -/
def State.hearResult (s : State) (comm : Nat) (r : CollRes) : State :=
  match aget s.comms comm with
  | none => s
  | some c =>
    if c.results.any (fun x => x.step == r.step) || decide (4 ≤ r.st) then s
    else if c.oddResult r then s.mismatchEvent comm c r.step
    else
      let s := s.modComm comm fun c => { c with results := c.results ++ [r] }
      match c.own.find? fun m => m.op == .red && m.step == r.step with
      | some m => (s.giveResult comm m r).settleComm comm
      | none => s

/-- `RESULT_ARRIVAL` (R398). -/
def execResultArrival (comm step st cnt late : Nat) (data : List Word) (s : State) : Host.Outcome State Fault Refusal :=
  .next (s.hearResult comm ⟨step, st, cnt, late, data⟩)

/-- A message of another device's engine, as the reorder buffer of its flow delivers it (R387, R395); false where it waits. -/
def State.hear (s : State) (m : EngMsg) : State × Bool :=
  match m with
  | .part comm rank .red step data => s.hearRed comm rank step data
  | .part comm rank op step data => (s.hearPart comm rank op step (4 * data.length) data, true)
  | .result comm step st cnt late data => (s.hearResult comm ⟨step, st, cnt, late, data⟩, true)
  | .publish comm rank step => (s.hearStep comm rank step, true)

/-! ## Timers -/

/-- The timer of a quorum reduction's current step runs out (R398). -/
def State.redExpiry (s : State) (k : Nat) (c : Comm) (step : Nat) : State :=
  if c.cur != some step || !(c.timer.elim false fun t => decide (t < s.us)) then s
  else if c.floor' ≤ (c.accepted step).length then (s.closeStep k step 1).settleComm k
  else if c.expiries == 0 then s.modComm k fun c => { c with expiries := 1, timer := c.timer.map fun t => t + c.tmr }
  else (s.stallStep k step).settleComm k

/-- The timer of a command that has enough parts: it closes with them. The device's own block of an exchange that has not been read yet is
read now. -/
def State.closeOnTimer (s : State) (k : Nat) (c : Comm) (m : CollCmd) (n : Nat) : State :=
  if m.op != .a2a || m.away then s.closeOther k m 1 n (c.pieces m)
  else
    let b := m.len / c.n
    match State.engRead ⟨.src m.id, m.core, c.eng, c.aslot, false⟩ (b + 1) (m.src + c.rank * b) b [] s with
    | (s, .ok bs) => s.closeOther k m 1 n (c.pieces m ++ [(c.rank * b, bytesWords bs)])
    | (s, .fault) => s.sourceFault k c m
    | (s, .wait) => s

/-- The timer of the device's own command of another operation runs out (R400). -/
def State.otherExpiry (s : State) (k : Nat) (c : Comm) (m : CollCmd) : State :=
  if s.us ≤ m.since + (m.expiries + 1) * c.tmr then s
  else
    let n := (c.others m).length + 1
    if m.op != .bcast && decide (c.floor' ≤ n) then s.closeOnTimer k c m n
    else if m.expiries == 0 then s.modComm k fun c => c.modCmd m.id fun x => { x with expiries := 1 }
    else (s.closeOther k m 2 0 []).devEvent 4 0 c.aslot [k, m.step]

/-- `CLOSURE_TIMER_EXPIRY` (R398, R400). -/
def execClosureTimerExpiry (comm : Nat) (op : CollOp) (step : Nat) (s : State) : Host.Outcome State Fault Refusal :=
  .next
    (match aget s.comms comm with
     | none => s
     | some c =>
       if op == .red then s.redExpiry comm c step
       else
         match c.own.find? fun m => m.op == op && m.step == step with
         | some m => s.otherExpiry comm c m
         | none => s)

/-- `MEMBER_RESULT_TIMEOUT` (R399): two timer periods without a result. The step that the device itself still closes is not meant. -/
def execMemberResultTimeout (comm step : Nat) (s : State) : Host.Outcome State Fault Refusal :=
  .next
    (match aget s.comms comm with
     | none => s
     | some c =>
       match c.own.find? fun m => m.op == .red && m.step == step with
       | none => s
       | some m =>
         let mine := m.tgt.getD c.closer == c.rank && c.now.elim true fun t => decide (t ≤ step)
         if mine || decide (s.us ≤ m.since + 2 * c.tmr) then s else (s.finishCmd comm m.id 2 0 0 []).settleComm comm)

/-! ## The end of a communicator (R393) -/

/-- Every outstanding command is refused, also one whose destination waits; parked `pstep`s go on. -/
def State.endComm (s : State) (k : Nat) : State :=
  match aget s.comms k with
  | none => s
  | some c =>
    let s := c.pend.foldl (fun s p => (s.partDone (.dst p.id)).collResult p.uid p.id 3 p.cnt p.late) s
    let s := c.cmds.foldl (fun s m => s.partDone (.src m.id)) s
    let s := c.own.foldl (fun s m => s.collResult m.uid m.id 3 0 0) s
    ({ s with comms := adel s.comms k } : State).pstepScan k

end Sys2Proof.Machine
end

