-- ==== Sys2Proof/Machine/Fabric.lean ====
section
/-! DEFINITION. Flows at both ends (R125, R384 to R388, R392, R405), the flow query (R282), links (R389 to R391). -/

namespace Sys2Proof.Machine
open Sys2Proof

/-- A number of `n` 64-bit words as words. -/
def splitDWords (n x : Nat) : List DWord := (List.range n).map fun i => BitVec.ofNat 64 (x / 2 ^ (64 * i))

/-! ## Host memory through the window (R405) -/

/-- Both links to the host are down (R405). -/
def State.linksDown (s : State) : Bool := s.links.all (·.1)

/-- Perform an access in host memory. A contribution or an operation packet has no unit there to perform it. -/
def State.hostDo (s : State) (a : Nat) (r : RemReq) : State × RemAns :=
  match r with
  | .load n => (s, .done (splitDWords ((n + 7) / 8) (rdNum s.hostMem a n)))
  | .store n d => (s.setHost (wrNum s.hostMem a n d.toNat) a n, .done [])
  | .sector m bs =>
    (s.setHost ((List.range 32).foldl (fun h i => if m.getLsbD i then wrByte h (a + i) (listGet 0 bs i) else h) s.hostMem) a 32, .done [])
  | .atomic op w b c =>
    let n := if w then 8 else 4
    let old := rdNum s.hostMem a n
    (s.setHost (wrNum s.hostMem a n (atomNew op w old b.toNat c.toNat)) a n, .done [BitVec.ofNat 64 old])
  | .contrib _ _ | .ropCas _ _ | .ropEnq _ | .ropChase _ _ | .engine _ => (s, .refused)

/-! ## The end of an outgoing access (R388) -/

def remKindNo (k : RemKind) : Nat :=
  match k with
  | .load | .store => 0
  | .atomic => 1
  | .contrib => 2
  | .packet => 3

/-- A copy's remote store was not performed: the copy ends with error status and its record (R126, R278). -/
def State.copyLost (s : State) (core id : Nat) (u : Unres) : State :=
  match s.copy? core id with
  | none => s
  | some c =>
    (if c.err then s else s.failCopy core c u.va).modCopy core id fun c => { c with bad := c.bad ++ [u] }

/-- An answer that somebody waits for: an access of a copy's read that has ended is of no use any more. -/
def State.wanted (s : State) (flow : Nat) (a : FlowAcc) : Bool :=
  a.keep && (a.copy == 0 || (s.copy? (s.flow flow).core a.copy).elim false fun c => c.rd == some (flow, a.seq))

/-- The 64-bit word at an address of a peer after a write that has been performed there, from what it was: one that changes none of its bytes
leaves it. -/
def sentWord (pa old word : Nat) (r : RemReq) (ans : RemAns) : Nat :=
  let put (base : Nat) (bs : List (Option Byte)) : Nat :=
    ofBytes ((List.range 8).map fun i => if word + i < base then BitVec.ofNat 8 (old / 2 ^ (8 * i))
      else (listGet none bs (word + i - base)).getD (BitVec.ofNat 8 (old / 2 ^ (8 * i))))
  let all (n x : Nat) : List (Option Byte) := (toBytes n x).map some
  let first : Nat := match ans with
    | .done d => joinDWords d
    | .refused => 0
  match r with
  | .store n d => put pa (all n d.toNat)
  | .sector m bs => put pa ((List.range 32).map fun i => if m.getLsbD i then some (listGet 0 bs i) else none)
  | .atomic op w b c => put pa (all (if w then 8 else 4) (atomNew op w (first % 2 ^ (if w then 64 else 32)) b.toNat c.toNat))
  | .ropCas cmp new => if ans == .done cmp then put pa (new.flatMap fun x => all 8 x.toNat) else old
  | _ => old

/-- A record at a peer, whose resolution word an acknowledged access of the part has written, takes its codes (R366). -/
def FRec.heedSent (a : FlowAcc) (ans : RemAns) (r : FRec) : FRec :=
  match r.pa with
  | some p =>
    if isExt p && extRoute p != 1024 && extRoute p == extRoute a.pa && a.kind != .load && overlaps (a.pa / 32 * 32) 32 (p + 0x38) 8 then
      r.heed (sentWord a.pa r.res (p + 0x38) a.req ans)
    else r
  | none => r

/-- What follows from an access that has been performed: it counts as a release (R131), and a record at a peer takes the codes that it wrote. -/
def State.performed (s : State) (a : FlowAcc) (ans : RemAns) : State :=
  let s := if a.ev.2 == 0 then s else s.bump a.ev.1 a.ev.2
  { s with recs := s.recs.map (FRec.heedSent a ans) }

/-- An access leaves its flow with a fate: 1 not performed, 2 performed, 0 unknown; `r` is the answer that its issuer sees, `real` what
has become of an unknown one where the model decides that. The flow remembers one whose fate is unknown (R387). -/
def State.endAccess (s : State) (flow : Nat) (a : FlowAcc) (fate : Nat) (r : Option RemAns) (real : Option Bool) : State :=
  let keep := s.wanted flow a
  let s := s.modFlow flow fun f => { f with
    open' := f.open'.filter fun x => x.seq != a.seq
    answers := if keep then f.answers ++ [(a.seq, r)] else f.answers
    lost := if fate == 0 && !isMsg a.req then f.lost ++ [(a.seq, a.pa / 32)] else f.lost }
  if fate == 2 then s.performed a (r.getD (.done []))
  else if a.kind == .load then s
  else
    let u : Unres := ⟨a.va, fate, a.lane, remKindNo a.kind, flow, a.seq, a.sys, real⟩
    if a.copy != 0 then s.copyLost (s.flow flow).core a.copy u
    else if a.uid != 0 then s.modUid a.uid fun w => { w with remErr := w.remErr ++ [(a.lanes, u)] }
    else s

/-- An access of the host window waits for the earlier ones of its sector, a release for all, as in unordered delivery (R125, R387): the
spec gives this flow no delivery (R405; DESIGN CHOICE, log entry 73). -/
def Flow.turn (f : Flow) (a : FlowAcc) : Bool :=
  f.open'.all fun x => decide (a.seq ≤ x.seq) || (!a.rel && x.pa / 32 != a.pa / 32)

/-- `FLOW_ACK` (R386, R388): the answer of a peer, which comes over no link that retrains (R391); host memory answers for itself while a link
to it is up (R405) (DEDUCED, log entry 43). -/
def State.ack (s : State) (flow seq : Nat) (ans : RemAns) : State :=
  match (s.flow flow).open'.find? fun x => x.seq == seq with
  | none => s
  | some a =>
    let fin (s : State) (r : RemAns) : State :=
      s.endAccess flow a (match r with | .done _ => 2 | .refused => 1) (some r) none
    if extRoute a.pa == 1024 then
      if !(s.flow flow).turn a || s.linksDown then s
      else
        match ans with
        | .refused => fin s .refused
        | .done _ =>
          let (s, r) := s.hostDo (a.pa % 2 ^ 50) a.req
          fin s r
    else
      match (listGet Port.init s.ports a.port).st with
      | .training _ => s
      | _ => if a.sent then fin (s.flits a.port true 1 true) ans else s

def execFlowAck (flow seq : Nat) (ans : RemAns) (s : State) : Host.Outcome State Fault Refusal := .next (s.ack flow seq ans)

/-- `FLOW_TIMEOUT` (R388): 2 s from the first transmission. Whether host memory has performed it, which needs
its turn and a link to the host as ever, is a free choice, which a query then tells (R405). -/
def State.timeout (s : State) (flow seq : Nat) : State :=
  match (s.flow flow).open'.find? fun x => x.seq == seq with
  | none => s
  | some a =>
    if s.us ≤ a.first + 2000000 || !a.sent then s
    else if extRoute a.pa == 1024 && a.kind != .load then
      let (drawn, s) := s.draw
      let late := drawn && (s.flow flow).turn a && !s.linksDown
      (if late then (s.hostDo (a.pa % 2 ^ 50) a.req).1.performed a (.done []) else s).endAccess flow a 0 none (some late)
    else s.endAccess flow a 0 none none

def execFlowTimeout (flow seq : Nat) (s : State) : Host.Outcome State Fault Refusal := .next (s.timeout flow seq)

/-- The ports that an access may use and that are up. -/
def State.portsOf (s : State) (a : FlowAcc) : List Nat :=
  (routePorts a.entry).filter fun k => (listGet Port.init s.ports k).st == .up

/-- `FLOW_RETRANSMIT` (R391): after 200 µs, by another path if there is one. -/
def State.retransmit (s : State) (flow seq port : Nat) : State :=
  match (s.flow flow).open'.find? fun x => x.seq == seq with
  | none => s
  | some a =>
    let ps := s.portsOf a
    if s.us ≤ a.last + 200 || !ps.contains port || !a.sent || (port == a.port && ps.any (· != a.port)) then s
    else
      let a' : FlowAcc := { a with last := s.us, port := port }
      (s.modFlow flow fun f => { f with open' := f.open'.map fun x => if x.seq == seq then a' else x }).transmit flow a'

def execFlowRetransmit (flow seq port : Nat) (s : State) : Host.Outcome State Fault Refusal :=
  .next (s.retransmit flow seq port)

/-! ## Links (R389 to R391) -/

/-- What becomes of an access that has not left: it keeps to its port unless that is down, and leaves by it once it is up (R391). -/
def State.rerouted (s : State) (a : FlowAcc) : FlowAcc :=
  if a.sent then a
  else
    let p := if (listGet Port.init s.ports a.port).st == .down then s.pickPort a.entry 99 else a.port
    if s.portUp p then { a with port := p, first := s.us, last := s.us, sent := true } else { a with port := p }

/-- A port has changed its state: what a link that retrained, or a route whose ports were all down, has held leaves, each flow in its order. What
has left already is sent again after 200 µs (R391). -/
def State.flush (s : State) : State :=
  let held := (List.range s.flows.length).flatMap fun i => ((s.flow i).open'.filter fun a => !a.sent).map fun a => (i, a.seq)
  let s : State := { s with flows := s.flows.map fun f => { f with open' := f.open'.map s.rerouted } }
  held.foldl (fun s x => ((s.flow x.1).open'.find? fun a => a.seq == x.2).elim s (s.transmit x.1)) s

/-- A port is declared down: the traffic that it holds goes over the other ports that each route allows, and the host is told (R391, R413). -/
def State.portDown (s : State) (k : Nat) : State := (s.modPort k fun p => { p with st := .down }).flush.devEvent 8 0 0 [k]

/-- `LINK_RETRAIN` (R391). -/
def execLinkRetrain (port : Nat) (s : State) : Host.Outcome State Fault Refusal :=
  .next (if (listGet Port.init s.ports port).st == .up then s.modPort port fun p => { p with st := .training s.us } else s)

/-- `RETRAIN_BOUND` (R391): the link resumes within 50 µs, or is down. -/
def execRetrainBound (port : Nat) (up : Bool) (s : State) : Host.Outcome State Fault Refusal :=
  .next
    (match (listGet Port.init s.ports port).st with
     | .training t =>
       if up then (if s.us ≤ t + 50 then (s.modPort port fun p => { p with st := .up, fails := (0, 0) }).flush else s)
       else (if t + 50 < s.us then s.portDown port else s)
     | _ => s)

/-- `FLIT_TAG_FAIL` (R390): the flit is sent again; eight in a row in one direction take the link down. No flit passes a port that is not up. -/
def execFlitTagFail (port : Nat) (dir : Bool) (s : State) : Host.Outcome State Fault Refusal :=
  .next
    (if !s.portUp port then s
     else
       let s := s.flits port dir 1 false
       if 8 ≤ ofDir dir (listGet Port.init s.ports port).fails then s.portDown port else s)

/-- `LINK_REKEY` (R389). -/
def execLinkRekey (port : Nat) (dir : Bool) (s : State) : Host.Outcome State Fault Refusal :=
  .next (if (listGet Port.init s.ports port).st != .up then s else s.modPort port fun p => p.rekey dir s.us)

/-- `FABRIC_PORT_DOWN` (R391, R413): a port is lost. -/
def execFabricPortDown (port : Nat) (s : State) : Host.Outcome State Fault Refusal :=
  .next (if decide (18 ≤ port) || (listGet Port.init s.ports port).st == .down then s else s.portDown port)

/-! ## Incoming accesses (R125, R385, R387, R392) -/

/-- Follow pointers at the target: the first is the address of the packet, the others are virtual addresses of the target slot. -/
def State.chaseHere (s : State) (tslot off pa hops : Nat) : State × Chase :=
  let a := pa + off
  if isExt a || !s.backed a || s.frameSlot (a / 65536) != some tslot || decide (24 < a % 32) || s.poisoned a then
    (s, ⟨pa, 0, true, none, []⟩)
  else
    let (s, x) := (s.homeToken a).physLoad a 8
    s.chaseFrom tslot off (fun _ => none) (fun _ => false) (hops - 1) ⟨x, 1, false, none, []⟩

/-- The commutative range of a slot that an element at a physical address belongs to, whichever of its pages maps it (R93). -/
def State.rangeAt (s : State) (tslot pa n : Nat) : Option CrRange :=
  (s.slot? tslot).bind fun a => a.ranges.find? fun r => crBytes r.op == n && pa % n == 0 &&
    (List.range (r.len / 65536 + 2)).any fun i =>
      let va := (r.base / 65536 + i) * 65536 + pa % 65536
      decide (r.base ≤ va) && decide (va < r.base + r.len) &&
      (match s.walk tslot va with
       | .leaf l => l.pa va == pa
       | .fault _ => false)

/-- Fold a contribution of a peer into the home value (R94; DEDUCED, log entry 43). -/
def State.foldHome (s : State) (pa : Nat) (op : CrOp) (x : Nat) : State :=
  let n := crBytes op
  (s.tokHome pa).wrMem pa (toBytes n (crCombine op (s.rdMem pa n) x))

/-- Perform one packet at its home slice, or take a message of an engine; none while a page's state holds it back, or a message waits. -/
def State.serve (s : State) (p : RemPkt) : State × Option RemAns :=
  let pa := p.pa
  if isMsg p.req then
    match p.req with
    | .engine m => match s.hear m with
      | (s, true) => (s, some (.done []))
      | (s, false) => (s, none)
    | _ => (s, none)
  else if isExt pa || !s.backed pa || s.frameSlot (pa / 65536) != some p.tslot then (s, some .refused)
  else
    let writes := match p.req with
      | .load _ | .ropChase _ _ => false
      | _ => true
    let reads := match p.req with
      | .load _ | .atomic _ _ _ _ | .ropCas _ _ | .ropEnq _ => true
      | _ => false
    if (writes && s.sealedLine pa) || (reads && s.poisoned pa) then (s, some .refused)
    else
      match p.req with
      | .load n =>
        let (s, x) := (s.homeToken pa).physLoad pa n
        (s, some (.done (splitDWords ((n + 7) / 8) x)))
      | .store n d => ((s.tokHome pa).physStore pa (toBytes n d.toNat), some (.done []))
      | .sector m bs => ((s.tokHome pa).physSector (pa / 32 * 32) m ((List.range 32).foldl (fun t i => mset 0 t i (listGet 0 bs i)) []),
          some (.done []))
      | .atomic op w b c =>
        let (s, old) := s.atomAt pa op w b.toNat c.toNat
        (s, some (.done [BitVec.ofNat 64 old]))
      | .contrib w d =>
        match s.rangeAt p.tslot pa (if w then 8 else 4) with
        | some r => (s.foldHome pa r.op d.toNat, some (.done []))
        | none => (s, some .refused)
      | .ropCas cmp new =>
        let (s, old) := s.ropCasAt pa cmp new
        (s, some (.done old))
      | .ropEnq node =>
        match s.ropEnqFind p.tslot pa node.toNat fun _ => none with
        | (s, .ok (n, t, old)) => (s.ropEnqDo pa node.toNat n t, some (.done [BitVec.ofNat 64 old]))
        | (s, .error (.park _)) => (s, none)
        | (s, .error _) => (s, some .refused)
      | .ropChase hops off =>
        match s.chaseHere p.tslot off pa hops with
        | (s, ⟨x, n, bad, none, _⟩) => (s, some (.done [BitVec.ofNat 64 x, BitVec.ofNat 64 (n + b2n bad * 2 ^ 31)]))
        | (_, ⟨_, _, _, some _, _⟩) => (s, none)
      | .engine _ => (s, none)

def Rob.fresh (dev flow : Nat) : Rob := ⟨dev, flow, 0, [], [], []⟩

def State.rob (s : State) (dev flow : Nat) : Rob :=
  (s.robs.find? fun r => r.dev == dev && r.flow == flow).getD (Rob.fresh dev flow)

def State.setRob (s : State) (r : Rob) : State :=
  if s.robs.any fun x => x.dev == r.dev && x.flow == r.flow then
    { s with robs := s.robs.map fun x => if x.dev == r.dev && x.flow == r.flow then r else x }
  else { s with robs := s.robs ++ [r] }

def Rob.past (r : Rob) (seq : Nat) : Bool := decide (seq < r.next) || r.done.contains seq

/-- The first number not yet settled moves on. -/
def Rob.advance (r : Rob) : Nat → Rob
  | 0 => r
  | n + 1 => if r.done.contains r.next then ({ r with next := r.next + 1, done := r.done.filter (· != r.next) } : Rob).advance n else r

/-- A number is settled with an answer. -/
def Rob.settle (r : Rob) (seq : Nat) (a : RemAns) : Rob :=
  let r := { r with
    done := seq :: r.done
    held := r.held.filter fun p => p.seq != seq
    answers := r.answers ++ [(seq, a)] }
  r.advance r.done.length

/-- The answer to a number that has been settled: one that a query has passed over was not performed (R282). -/
def Rob.answerTo (r : Rob) (seq : Nat) : RemAns := ((r.answers.find? fun x => x.1 == seq).map (·.2)).getD .refused

/-- A packet that may be performed now: in sequence order, or in arrival order with releases held back and one sector in sequence
order, also behind what has not arrived (R125, R387). -/
def Rob.ripe (r : Rob) (p : RemPkt) : Bool :=
  (if p.ord || p.rel then p.seq == r.next else true) && p.prev.all r.past &&
  r.held.all fun q => isMsg p.req || isMsg q.req || decide (p.seq ≤ q.seq) || q.pa / 32 != p.pa / 32

/-- An acknowledgement leaves by the port that the access came through, while that is up (R386, R387, R389). -/
def State.acknowledge (s : State) (p : RemPkt) (a : RemAns) : State :=
  if s.portUp p.port then (s.send (.ack p.dev p.flow p.seq a)).flits p.port false 1 true else s

/-- A packet that the buffer holds is over with an answer. -/
def State.settled (s : State) (p : RemPkt) (a : RemAns) : State :=
  (s.setRob ((s.rob p.dev p.flow).settle p.seq a)).acknowledge p a

/-- Perform what may be performed; `skip` are numbers that cannot be served now. -/
def State.runRob (dev flow : Nat) : Nat → List Nat → State → State
  | 0, _, s => s
  | n + 1, skip, s =>
    let r := s.rob dev flow
    match r.held.find? fun p => r.ripe p && !skip.contains p.seq with
    | none => s
    | some p =>
      match s.serve p with
      | (s, some a) => State.runRob dev flow n skip (s.settled p a)
      | (s, none) => State.runRob dev flow n (p.seq :: skip) s

/-- `REMOTE_ACCESS_RECEIVE` (R387): a flit of the port that it comes through (R389). A number that is settled already is dropped and
acknowledged again. -/
def State.receive (s : State) (p : RemPkt) : State :=
  let s := s.flits p.port true 1 true
  let r := s.rob p.dev p.flow
  let run (s : State) : State := State.runRob p.dev p.flow (r.held.length + 1) [] s
  if s.boot.mode == 0 then run s
  else if r.past p.seq then run (s.acknowledge p (r.answerTo p.seq))
  else if r.held.any (fun q => q.seq == p.seq) then run s
  else run (s.setRob { r with held := r.held ++ [p] })

def execRemoteAccessReceive (p : RemPkt) (s : State) : Host.Outcome State Fault Refusal := .next (s.receive p)

/-! ## The flow query (R282) -/

/-- Every number up to one is settled: those that have not been performed are refused. -/
def Rob.close (r : Rob) (seq : Nat) : Rob :=
  ({ r with
    next := max r.next (seq + 1)
    done := r.done.filter fun x => decide (seq < x) } : Rob).advance r.done.length

/-- `FLOW_QUERY_RECEIVE` (R282): after its answer the target refuses every packet of the flow up to the number asked about. -/
def execFlowQueryReceive (dev flow seq : Nat) (s : State) : Host.Outcome State Fault Refusal :=
  .next
    (let late := (s.rob dev flow).held.filter fun p => decide (p.seq ≤ seq)
     let s := late.foldl (fun s p => s.settled p .refused) s
     State.runRob dev flow (s.rob dev flow).held.length [] (s.setRob ((s.rob dev flow).close seq)))

/-- The entry that a wave waits to learn the fate of, and since when. -/
def Wave.asking (w : Wave) : Option (Nat × Nat) :=
  w.streams.findSome? fun t => match t.st with
    | .park (.flq i t0) _ _ _ => some (i, t0)
    | _ => none

def State.setFate (s : State) (core slot i fate : Nat) : State :=
  s.modWave core slot fun w => { w with unres := (List.range w.unres.length).map fun k =>
    let u := listGet ⟨0, 0, 0, 0, 0, 0, false, none⟩ w.unres k
    if k == i && u.fate == 0 then { u with fate := fate } else u }

/-- `FLOW_QUERY_ANSWER` (R282): a peer's answer; of host memory the model itself knows it. -/
def execFlowQueryAnswer (core slot : Nat) (performed : Bool) (s : State) : Host.Outcome State Fault Refusal :=
  .next
    (match (s.wave? core slot).bind Wave.asking with
     | some (i, _) =>
       let real := ((s.wave? core slot).bind fun w => w.unres[i]?).bind (·.real)
       s.setFate core slot i (if real.getD performed then 2 else 1)
     | none => s)

/-- `FLOW_QUERY_TIMEOUT` (R282): no answer in 2 s; the target is unreachable now. -/
def execFlowQueryTimeout (core slot : Nat) (s : State) : Host.Outcome State Fault Refusal :=
  .next
    (match (s.wave? core slot).bind Wave.asking with
     | some (i, t0) => if t0 + 2000000 < s.us then s.setFate core slot i 3 else s
     | none => s)

end Sys2Proof.Machine
end

