-- ==== Sys2Proof/Machine/Host.lean ====
section
/-! DEFINITION. The host's side (R403 to R415, R418 to R421): the DRAM window, launch channels, chain heads, registers, the firmware
mailbox, slots, attestation, the lehr. -/

namespace Sys2Proof.Machine
open Sys2Proof

/-! ## BAR2 (R404) -/

/-- A sector that the host reaches: bonded DRAM in a frame of some slot. -/
def State.hostSees (s : State) (pa : Nat) : Bool := s.backed pa && (s.frameSlot (pa / 65536)).isSome

/-- Write bytes through the window, one event a sector. -/
def State.barWrite : Nat → Nat → List Byte → State → State
  | 0, _, _, s => s
  | fuel + 1, a, bs, s =>
    if bs.isEmpty then s
    else
      let k := min bs.length (32 - a % 32)
      let s :=
        if !s.hostSees a then s
        else if s.sealedLine a then s.devEvent 0x0A 0 0 [a]
        else (s.tokHome a).physStore a (bs.take k)
      State.barWrite fuel (a + k) (bs.drop k) s

/-- Read bytes through the window; all ones where the host sees nothing. -/
def State.barRead : Nat → Nat → Nat → List Byte → State → State × List Byte
  | 0, _, _, acc, s => (s, acc)
  | fuel + 1, a, n, acc, s =>
    if n == 0 then (s, acc)
    else
      let k := min n (32 - a % 32)
      if s.hostSees a then
        let s := (s.tokHome a).combine a
        State.barRead fuel (a + k) (n - k) (acc ++ rdBytes s.mem a k) s
      else State.barRead fuel (a + k) (n - k) (acc ++ List.replicate k 0xFF) s

/-- `HOST_BAR2_ACCESS` (R404). -/
def execHostBar2Access (off : Nat) (data : Option (List Byte)) (len : Nat) (s : State) : Host.Outcome State Fault Refusal :=
  .next
    (match data with
     | some bs => State.barWrite (bs.length + 1) off bs s
     | none =>
       let (s, out) := State.barRead (len + 1) off len [] s
       { s with hostOut := out })

/-! ## Launch channels (R406 to R409) -/

def State.chan (s : State) (k : Nat) : Chan := listGet Chan.init s.chans k

def State.modChan (s : State) (k : Nat) (f : Chan → Chan) : State := { s with chans := listPut Chan.init 32 s.chans k (f (s.chan k)) }

/-- `CH_HEAD` (R406). -/
def execChHead (ch : Nat) (head : DWord) (s : State) : Host.Outcome State Fault Refusal :=
  .next (s.modChan ch fun c =>
    if !c.en || decide (4 ≤ c.heads.length) then { c with ovf := true } else { c with heads := c.heads ++ [head.toNat] })

/-- `CH_STAT_CLEAR` (R406). -/
def execChStatClear (ch : Nat) (s : State) : Host.Outcome State Fault Refusal := .next (s.modChan ch fun c => { c with ovf := false })

/-- The channel whose turn it is: the highest level with work, in it round-robin (R408). -/
def State.nextChan (s : State) : Option Nat :=
  ((List.range 8).map fun i => 7 - i).findSome? fun lev =>
    ((List.range 4).map fun i => 4 * lev + (listGet 3 s.chRR lev + 1 + i) % 4).find? fun c =>
      (s.chan c).walk.isSome || !(s.chan c).heads.isEmpty

/-- The accesses of a channel's walk are translated like those of core 0 (DEDUCED, log entry 54). -/
def chanCtx (ch aslot : Nat) : PartCtx := ⟨.chan ch, 0, 0, aslot, false⟩

/-- The status of a launch record (R408), and its block where it is good; none while the read of the block waits (R100). -/
def State.checkLaunch (s : State) (ch aslot : Nat) (w : List DWord) : State × Option (Nat × Option Block) :=
  let f (i : Nat) : Nat := (listGet 0 w i).toNat
  if bitsN (f 1) 62 56 != 0 || bitsN (f 1) 47 0 != 0 || bitsN (f 4) 63 1 != 0 || f 5 != 0 || f 6 != 0 || f 7 != 0 || f 2 % 64 != 0 then
    (s, some (1, none))
  else
    match State.engRead (chanCtx ch aslot) 65 (f 2) 64 [] s with
    | (s, .wait) => (s, none)
    | (s, .fault) => (s, some (2, none))
    | (s, .ok bs) =>
      let ws := (List.range 8).map fun i => BitVec.ofNat 64 (ofBytes ((bs.drop (8 * i)).take 8))
      if blockBad ws then (s, some (3, none))
      else
        let k := blockOf ws
        (s, some (if ch / 4 < k.prio then (4, none) else (0, some k)))

/-- Hand a root launch to the distributor. -/
def State.launchRoot (s : State) (ch record aslot : Nat) (priv irq : Bool) (k : Block) : State :=
  let s : State := { s with roots := aput s.roots s.stamp ⟨record, aslot, ch, irq, 0, 0⟩ }
  let (s, lid) := s.newLaunch k s.stamp aslot priv
  (s.enqueue k.prio lid).modChan ch fun c => { c with acc := (c.acc + 1) % 2 ^ 27 }

/-- The walk of a channel ends. -/
def State.chanEnd (s : State) (ch : Nat) : State := (s.partDone (.chan ch)).modChan ch fun c => { c with walk := none, back := none }

/-- A record read or a write-back that faults, or a bad head (R408, R413); the slot is that of the walk (R406). -/
def State.launchEvent (s : State) (ch addr aslot : Nat) : State := (s.chanEnd ch).devEvent 5 0 aslot [addr]

/-- Write word 0x08 back, and go on to the next record; a page that moves, or a window, holds the walk where it is (R100, R386). -/
def State.launchBack (s : State) (ch a aslot : Nat) (priv : Bool) (v : DWord) (next : Nat) : State :=
  match State.engWrite (chanCtx ch aslot) 9 (a + 8) (toBytes 8 v.toNat) s with
  | (s, .wait, _) => s.modChan ch fun c => { c with back := some (v, next) }
  | (s, .fault, _) => s.launchEvent ch a aslot
  | (s, .ok _, _) => (s.chanEnd ch).modChan ch fun c => { c with walk := if next == 0 then none else some (next, aslot, priv) }

/-- One record of a walk (DEDUCED, log entry 54). -/
def State.launchStep (s : State) (ch a aslot : Nat) (priv : Bool) : State :=
  match (s.chan ch).back with
  | some (v, next) => s.launchBack ch a aslot priv v next
  | none =>
    if a % 64 != 0 then s.launchEvent ch a aslot
    else
      match State.engRead (chanCtx ch aslot) 65 a 64 [] s with
      | (s, .wait) => s
      | (s, .fault) => s.launchEvent ch a aslot
      | (s, .ok bs) =>
        let w := (List.range 8).map fun i => BitVec.ofNat 64 (ofBytes ((bs.drop (8 * i)).take 8))
        let f (i : Nat) : Nat := (listGet 0 w i).toNat
        if !bitN (f 1) 63 then s.chanEnd ch
        else
          match s.checkLaunch ch aslot w with
          | (s, none) => s
          | (s, some (st, k)) =>
            let s := s.partDone (.chan ch)
            let s := match k with
              | some k => s.launchRoot ch a aslot priv (bitN (f 4) 0) k
              | none => s
            s.launchBack ch a aslot priv (BitVec.ofNat 64 (putBits (putBits (f 1) 63 63 0) 55 48 st)) (f 0)

/-- One turn of the walker (R408): the channel whose turn it is goes on with its walk, or begins one at a head. -/
def State.launchTurn (s : State) : State :=
  match s.nextChan with
  | none => s
  | some ch =>
    let s : State := { s with chRR := listPut 3 8 s.chRR (ch / 4) (ch % 4) }
    let c := s.chan ch
    match c.walk with
    | some (a, aslot, priv) => s.launchStep ch a aslot priv
    | none =>
      match c.heads with
      | [] => s
      | h :: rest =>
        let s := s.modChan ch fun c => { c with heads := rest }
        match (s.slot? c.slot).filter fun a => !a.ending with
        | none => s.launchEvent ch h c.slot
        | some sl =>
          if h % 64 != 0 || decide (2 ^ 57 ≤ h) then s.launchEvent ch h c.slot
          else
            let priv := c.priv && sl.priv
            (s.modChan ch fun c => { c with walk := some (h, c.slot, priv) }).launchStep ch h c.slot priv

/-- `LAUNCH_RECORD` (R408). -/
def execLaunchRecord (s : State) : Host.Outcome State Fault Refusal :=
  .next (if s.ckpt.isSome || s.boot.mode == 0 then s else s.launchTurn)

/-- Write a root's done word, and send its vector once that is performed (R409). -/
def State.completeRoot (s : State) (key : Nat) : State :=
  match aget s.roots key with
  | none => s
  | some r =>
    match State.engWrite ⟨.root key, 0, 0, r.aslot, false⟩ 9 (r.record + 0x18) (toBytes 8 (2 ^ 63 + r.status * 2 ^ 48)) s with
    | (s, res, _) =>
      let s' : State := { (s.partDone (.root key)) with roots := adel s.roots key }
      match res with
      | .wait => s
      | .fault => s'.devEvent 9 0 r.aslot [r.record, r.status]
      | .ok _ => if r.irq then s'.sendVec (s.chan r.chan).vec else s'

/-- `LAUNCH_COMPLETE` (R409): every block of the root has ended. -/
def execLaunchComplete (root : Nat) (s : State) : Host.Outcome State Fault Refusal :=
  .next
    (match aget s.roots root with
     | some r => if r.live == 0 then s.completeRoot root else s
     | none => s)

/-! ## Chain heads of the host (R410) -/

/-- `XPH_HEAD` (R410). -/
def execXphHead (core x : Nat) (head : DWord) (s : State) : Host.Outcome State Fault Refusal :=
  .next
    (if core ≥ 1024 || x ≥ 2 then s
     else
       let full := (s.core core).disabled || decide (4 ≤ (s.xp core x).heads.length)
       let gone := (s.slot? s.xphSlot).all (·.ending)
       let s : State := { s with xphStat := s.xphStat ||| (if full then 1 else 0) ||| (if gone then 2 else 0) }
       if full || gone then s
       else s.modXp core x fun p => { p with heads := p.heads ++ [⟨head.toNat, .slot s.xphSlot⟩] })

/-- `XPH_STAT_CLEAR` (R410). -/
def execXphStatClear (bits : BitVec 2) (s : State) : Host.Outcome State Fault Refusal :=
  .next { s with xphStat := s.xphStat &&& ~~~ bits }

/-! ## Registers of BAR0 (R406, R410, R411, R413, R414, R417, R423) -/

/-- What a read of a register returns. -/
def State.bar0 (s : State) (off : Nat) : Nat :=
  let c := s.chan ((off - 0x10000) / 64)
  let inChans := decide (0x10000 ≤ off) && decide (off < 0x10800)
  if off == 0 then s.boot.mode * 2 ^ 30 + s.boot.fails * 2 ^ 28 + s.boot.stage * 2 ^ 24 + s.boot.cause * 2 ^ 16 + s.boot.die * 2 ^ 14
  else if off == 0x204 then s.mb.stat.toNat
  else if decide (0x208 ≤ off) && decide (off < 0x248) && off % 8 == 0 then (listGet 0 s.mb.args ((off - 0x208) / 8)).toNat
  else if off == 0x400 then s.ev.base.toNat
  else if off == 0x408 then s.ev.size
  else if off == 0x40C then s.ev.head
  else if off == 0x410 then s.ev.tail
  else if off == 0x414 then s.ev.drop
  else if off == 0x418 then s.ev.cfg.toNat
  else if decide (0x800 ≤ off) && decide (off < 0x820) && off % 8 == 0 then listGet 0 s.errCe ((off - 0x800) / 8)
  else if decide (0x820 ≤ off) && decide (off < 0x840) && off % 8 == 0 then listGet 0 s.errUe ((off - 0x820) / 8)
  else if decide (0x1000 ≤ off) && decide (off < 0x1080) && off % 8 == 0 then
    (List.range 64).foldl (fun n i => n + b2n (s.core (8 * (off - 0x1000) + i)).disabled * 2 ^ i) 0
  else if inChans && off % 64 == 8 then b2n c.en * 2 ^ 31 + b2n c.priv * 2 ^ 30 + c.slot * 2 ^ 6 + c.vec
  else if inChans && off % 64 == 16 then b2n c.walk.isSome * 2 ^ 31 + c.heads.length * 2 ^ 28 + b2n c.ovf * 2 ^ 27 + c.acc
  else if off == 0x1F000 then s.xphSlot
  else if off == 0x1F004 then s.xphStat.toNat
  else 0

/-- `HOST_REGISTER_WRITE` (R423): registers with a row of their own, read-only registers and reserved fields take nothing. -/
def execHostRegisterWrite (off : Nat) (val : DWord) (s : State) : Host.Outcome State Fault Refusal :=
  let w := val.toNat % 2 ^ 32
  .next
    (if decide (0x208 ≤ off) && decide (off < 0x248) && off % 8 == 0 then
       { s with mb := { s.mb with args := listPut 0 8 s.mb.args ((off - 0x208) / 8) val } }
     else if off == 0x400 then { s with ev := { s.ev with base := BitVec.ofNat 64 (val.toNat / 64 * 64) } }
     else if off == 0x408 then { s with ev := { s.ev with size := min (w % 16) 10 } }
     else if off == 0x410 then { s with ev := { s.ev with tail := w } }
     else if off == 0x414 then { s with ev := { s.ev with drop := w } }
     else if off == 0x418 then { s with ev := { s.ev with cfg := BitVec.ofNat 32 (bitsN w 31 31 * 2 ^ 31 + bitsN w 5 0) } }
     else if decide (0x800 ≤ off) && decide (off < 0x820) && off % 8 == 0 then
       { s with errCe := listPut 0 4 s.errCe ((off - 0x800) / 8) val.toNat }
     else if decide (0x820 ≤ off) && decide (off < 0x840) && off % 8 == 0 then
       { s with errUe := listPut 0 4 s.errUe ((off - 0x820) / 8) val.toNat }
     else if decide (0x10000 ≤ off) && decide (off < 0x10800) && off % 64 == 8 then
       s.modChan ((off - 0x10000) / 64) fun c =>
         { c with en := bitN w 31, priv := bitN w 30, slot := bitsN w 14 6, vec := bitsN w 5 0 }
     else if off == 0x1F000 then { s with xphSlot := bitsN w 8 0 }
     else s)

/-! ## The mailbox (R411, R412) -/

def State.arg (s : State) (i : Nat) : Nat := (listGet 0 s.mb.args i).toNat

/-- Completion with a status. -/
def State.mbDone (s : State) (st : Nat) : State := { s with mb := { s.mb with cmd := none, stat := BitVec.ofNat 32 (2 ^ 31 + st) } }

/-- Run a command at a write of mb.cmd, which clears the status: ignored with status 2 while another runs; in recovery only a firmware update is
accepted (R417) (DEDUCED, log entry 55). -/
def State.mailbox (s : State) (update : Bool) (f : State → State) : State :=
  if s.boot.mode == 0 then s
  else if s.mb.cmd.isSome then { s with mb := { s.mb with stat := 2 } }
  else if s.boot.mode == 3 && !update then s.mbDone 3
  else f { s with mb := { s.mb with stat := 0 } }

/-- Arguments from an index on that the table does not name. -/
def State.restZero (s : State) (k : Nat) : Bool := (List.range 8).all fun i => decide (i < k) || s.arg i == 0

/-- `MB_CREATE_SLOT` (R412, R419). -/
def execMbCreateSlot (s : State) : Host.Outcome State Fault Refusal :=
  .next (s.mailbox false fun s =>
    let k := s.arg 0
    let table := s.arg 1
    if decide (512 ≤ k) || decide (2 ≤ s.arg 2) || !s.restZero 3 || table % 4096 != 0 || decide (dramTop ≤ table) then s.mbDone 1
    else if (s.slot? k).isSome || decide (512 ≤ s.slots.length) then s.mbDone 3
    else ({ s with
      slots := aput s.slots k (ASlot.fresh table (bitN (s.arg 2) 0) (Config.slotKey s.fresh))
      fresh := s.fresh + 1 } : State).mbDone 0)

/-! ### Ending a slot (R411) -/

/-- Every launch of the slot leaves the queues it stands in. -/
def State.dropLaunches (s : State) (k : Nat) : State :=
  let mine (lid : Nat) : Bool := (aget s.launches lid).elim false fun l => l.aslot == k
  let s := match s.dist.gang with
    | some (lid, got, _) => if mine lid then { (got.foldl State.unreserve s) with dist := { s.dist with gang := none } } else s
    | none => s
  let s : State := { s with
    dist := { s.dist with queues := s.dist.queues.map fun q => q.filter fun l => !mine l }
    launches := s.launches.filter fun x => x.2.aslot != k
    code := s.code.filter fun x => !mine x.1 }
  s.mapCores fun _ c => { c with
    adm := c.adm.filter fun a => match a with
      | .launch lid _ => !mine lid
      | .handler j _ _ _ _ _ => j != k
    deque := c.deque.filter fun l => !mine l
    allocs := c.allocs.filter fun a => !mine a.lid }

/-- The walks of the slot end; a page that one was moving goes back (R314). -/
def State.dropWalks (s : State) (k : Nat) : State :=
  let ws := s.cores.flatMap fun c => ((List.range 2).filter fun x => (c.2.xp x).walk.elim false fun w => w.bind.aslot == some k).map fun x => (c.1, x)
  ws.foldl (fun s x => s.abortWalk x.1 x.2) s

/-- The copies, walks, heads and programs of the slot end. -/
def State.dropEngines (s : State) (k : Nat) : State :=
  let s := s.dropWalks k
  let cs := s.cores.flatMap fun c => (c.2.copies.filter fun y => y.aslot == k).map fun y => (c.1, y)
  let s := cs.foldl (fun s x => s.endCopy x.1 { x.2 with err := true }) s
  let xp (p : XP) : XP :=
    let out (b : Bind) : Bool := b.aslot == some k
    { p with
      heads := p.heads.filter fun h => !out h.bind
      st := if out p.bind && isActive p.st then .halted else p.st
      bind := if out p.bind then .none else p.bind }
  s.mapCores fun _ c => { c with
    xp0 := xp c.xp0
    xp1 := xp c.xp1
    handlers := c.handlers.filter fun g => g.aslot != k
    log := c.log.filter fun e => e.aslot != k
    l1 := c.l1.filter fun e => e.2.slot != k }

/-- End what a slot has: its waves, walks and communicators, and its roots, which complete with status 0x02. -/
def State.emptySlot (s : State) (k : Nat) : State :=
  let roots := (s.roots.filter fun r => r.2.aslot == k).map (·.1)
  let s : State := { s with roots := s.roots.map fun (r : Nat × Root) => if r.2.aslot == k then (r.1, { r.2 with status := 2 }) else r }
  let ws := s.waves.filter fun x => x.2.aslot == k
  let s := ws.foldl (fun s x => s.endWave x.1 x.2.uid) s
  let s := (s.dropEngines k).dropLaunches k
  let s := ((s.comms.filter fun c => c.2.aslot == k).map (·.1)).foldl State.endComm s
  let walks := (List.range 32).filter fun ch => (s.chan ch).walk.elim false fun w => w.2.1 == k
  roots.foldl State.completeRoot (walks.foldl State.chanEnd s)

/-- The slot itself goes, with its key and its frames (DEDUCED, log entry 7). -/
def State.dropSlot (s : State) (k : Nat) : State :=
  { s with
    slots := adel s.slots k
    frames := s.frames.filter fun f => f.2.2 != k
    sealed := s.sealed.filter fun x => x.2 != k
    recs := s.recs.filter fun r => r.aslot != k
    clusters := s.clusters.map fun c => (c.1, { c.2 with tlb := c.2.tlb.filter fun e => e.aslot != k }) }

/-- End a slot. The command runs on while a done word of one of its roots has still to be performed (R409). -/
def State.endSlot (s : State) (k : Nat) : State :=
  let s := s.emptySlot k
  if s.roots.any fun r => r.2.aslot == k then
    { (s.modSlot k fun a => { a with ending := true }) with mb := { s.mb with cmd := some 2 } }
  else (s.dropSlot k).mbDone 0

/-- The slot that is being ended. -/
def State.endingSlot (s : State) : Option Nat := (s.slots.find? fun x => x.2.ending).map (·.1)

/-- `MB_END_SLOT` (R411, R412): the command is given, or goes on. -/
def execMbEndSlot (s : State) : Host.Outcome State Fault Refusal :=
  .next
    (match s.endingSlot with
     | some k => s.endSlot k
     | none => s.mailbox false fun s =>
       let k := s.arg 0
       if decide (512 ≤ k) || !s.restZero 1 then s.mbDone 1
       else if (s.slot? k).isNone then s.mbDone 3
       else s.endSlot k)

/-! ### Frames and routes -/

/-- Zero the bytes of a range of DRAM. -/
def State.zeroRange (s : State) (a n : Nat) : State :=
  let out (x : Nat) : Bool := decide (x < a) || decide (a + n ≤ x)
  let m := s.mem.filter fun x => out x.1
  let s : State := { s with
    mem := m
    recs := s.recs.map (FRec.observe m a n)
    poison := s.poison.filter fun p => out (32 * p) }
  (s.wake a n).mapCores fun _ c => { c with
    l1 := mdrop (fun l => !out (128 * l)) c.l1
    partials := c.partials.filter fun p => out p.pa }

/-- `MB_ASSIGN_FRAMES` (R412, R72). -/
def execMbAssignFrames (s : State) : Host.Outcome State Fault Refusal :=
  .next (s.mailbox false fun s =>
    let k := s.arg 0
    let a := s.arg 1
    let n := s.arg 2
    if decide (512 ≤ k) || a % 65536 != 0 || n == 0 || decide (12582912 < n) || !s.restZero 3 then s.mbDone 1
    else if (s.slot? k).isNone || decide (dramTop < a + 65536 * n) ||
        s.frames.any (fun f => f.2.2 != k && overlaps f.1 f.2.1 (a / 65536) n) then s.mbDone 3
    else ({ (s.zeroRange a (65536 * n)) with frames := (a / 65536, n, k) :: s.frames } : State).mbDone 0)

/-- `MB_ROUTE_ENTRY` (R412, R385). -/
def execMbRouteEntry (s : State) : Host.Outcome State Fault Refusal :=
  .next (s.mailbox false fun s =>
    let x := s.arg 0
    let k := bitsN x 8 0
    if bitsN x 15 9 != 0 || bitsN x 63 26 != 0 || !s.restZero 3 then s.mbDone 1
    else if (s.slot? k).isNone then s.mbDone 3
    else (s.modSlot k fun a => { a with
      routes := mset (0, 0) a.routes (bitsN x 25 16) (BitVec.ofNat 64 (s.arg 1), BitVec.ofNat 64 (s.arg 2)) }).mbDone 0)

/-! ### Communicators (R393) -/

/-- A communicator's entry with a field out of range. -/
def commBad (w0 w1 stg : Nat) : Bool :=
  !bitN w0 63 || bitN w0 62 || bitsN w0 8 0 != 0 || bitsN w1 7 0 != 0 || decide (bitsN w0 56 45 < bitsN w0 44 33) ||
  decide (bitsN w0 56 45 < bitsN w0 32 21) || decide (bitsN w0 32 21 < bitsN w0 20 9) || bitsN w1 55 32 == 0 ||
  bitsN w1 31 8 == 0 || stg % 4096 != 0

/-- The member table: route indexes in rank order; none inside where it cannot be read or names an entry that is not valid, none while the
read waits. -/
def State.readMembers (s : State) (aslot mem n rank : Nat) : State × Option (Option (List Nat)) :=
  match State.engRead ⟨.mailbox, 0, 0, aslot, false⟩ (2 * n + 1) mem (2 * n) [] s with
  | (s, .wait) => (s, none)
  | (s, .fault) => (s, some none)
  | (s, .ok bs) =>
    let l := (List.range n).map fun i => ofBytes ((bs.drop (2 * i)).take 2)
    let good (i : Nat) : Bool := i == rank || (let x := listGet 0 l i
      decide (x < 1024) && routeOk (s.route aslot x))
    (s, some (if (List.range n).all good then some l else none))

/-- A live communicator from its entry (R393). -/
def Comm.fresh (aslot : Nat) (w0 w1 : DWord) (mem stg stgn us : Nat) (members : List Nat) : Comm where
  aslot := aslot
  w0 := w0
  w1 := w1
  mem := mem
  stg := stg
  stgn := stgn
  members := members
  table := List.replicate members.length ⟨true, 0, us⟩
  cmds := []
  pend := []
  cur := none
  closed := false
  parts := []
  timer := none
  expiries := 0
  late := 0
  results := []

/-- Create a communicator (R393, R412). The command runs on while the read of its member table waits. -/
def State.createComm (s : State) : State :=
  let x := s.arg 0
  let k := bitsN x 7 0
  let aslot := bitsN x 24 16
  let w0 := s.arg 1
  let w1 := s.arg 2
  let n := bitsN w0 56 45 + 1
  if bitsN x 15 9 != 0 || bitsN x 63 25 != 0 || !s.restZero 6 || commBad w0 w1 (s.arg 4) then s.mbDone 1
  else if (aget s.comms k).isSome || decide (4096 < s.comms.foldl (fun m c => m + c.2.n) n) || (s.slot? aslot).isNone then s.mbDone 3
  else
    match s.readMembers aslot (s.arg 3) n (bitsN w0 44 33) with
    | (s, none) => { s with mb := { s.mb with cmd := some 5 } }
    | (s, some none) => (s.partDone .mailbox).mbDone 3
    | (s, some (some l)) =>
      let s := s.partDone .mailbox
      let c := Comm.fresh aslot (BitVec.ofNat 64 w0) (BitVec.ofNat 64 w1) (s.arg 3) (s.arg 4) (s.arg 5) s.us l
      ({ s with comms := aput s.comms k c } : State).mbDone 0

/-- `MB_CREATE_COMMUNICATOR` (R393, R412): the command is given, or goes on. -/
def execMbCreateCommunicator (s : State) : Host.Outcome State Fault Refusal :=
  .next
    (if !bitN (s.arg 0) 8 then s
     else if s.mb.cmd == some 5 then s.createComm
     else s.mailbox false State.createComm)

/-- `MB_END_COMMUNICATOR` (R393). -/
def execMbEndCommunicator (s : State) : Host.Outcome State Fault Refusal :=
  .next
    (if bitN (s.arg 0) 8 then s
     else s.mailbox false fun s =>
       let x := s.arg 0
       if bitsN x 15 9 != 0 || bitsN x 63 25 != 0 || !s.restZero 6 then s.mbDone 1
       else if (aget s.comms (bitsN x 7 0)).isNone then s.mbDone 3
       else (s.endComm (bitsN x 7 0)).mbDone 0)

/-! ### The lehr (R420, R421) -/

def State.lehrKey (s : State) : Nat := s.arg 1 + 2 ^ 64 * s.arg 2 + 2 ^ 128 * s.arg 3 + 2 ^ 192 * s.arg 4

/-- `MB_CHECKPOINT` (R420): admission stops and every wave halts at a run boundary. -/
def execMbCheckpoint (s : State) : Host.Outcome State Fault Refusal :=
  .next (s.mailbox false fun s =>
    if s.arg 0 % 4096 != 0 || !s.restZero 5 then s.mbDone 1
    else if s.linksDown then s.mbDone 3
    else { s with ckpt := some (s.arg 0, s.lehrKey), mb := { s.mb with cmd := some 6 } })

/-- Nothing that a checkpoint waits for is under way. -/
def State.quiet (s : State) : Bool :=
  (s.cores.all fun c => c.2.copies.isEmpty && c.2.xp0.walk.isNone && c.2.xp1.walk.isNone && c.2.grants.all Option.isNone) &&
  (s.flows.all fun f => f.open'.isEmpty) && s.comms.all fun c => c.2.cmds.all fun m => m.away || m.sent == 0

/-- `CHECKPOINT_DONE` (R420): changed lines are written back, the image is taken, the part resumes. -/
def execCheckpointDone (s : State) : Host.Outcome State Fault Refusal :=
  .next
    (match s.ckpt with
     | none => s
     | some (base, key) =>
       if s.linksDown then ({ s with ckpt := none } : State).mbDone 3
       else if !s.quiet then s
       else
         let s := s.mapCores fun _ c => { c with l1 := c.l1.map fun e => (e.1, { e.2 with dirty := false }) }
         let s := s.setHost (lehrWrite base key s.mem s.tags s.hostMem) base (dramTop + dramTop / 65536 * 4)
         (({ s with ckpt := none, lehr := some ⟨base, key, s.mem, s.tags⟩ } : State).mbDone 0).devEvent 6 0 0 [])

/-- `MB_RESTORE` (R421): memory and tags are read from the image in host memory. -/
def execMbRestore (s : State) : Host.Outcome State Fault Refusal :=
  .next (s.mailbox false fun s =>
    if s.arg 0 % 4096 != 0 || !s.restZero 5 then s.mbDone 1
    else if !s.slots.isEmpty || s.linksDown then s.mbDone 3
    else
      let base := s.arg 0
      let m := lehrMem base s.lehrKey s.hostMem
      let t := lehrTags base s.hostMem
      ({ (s.mapCores fun _ c => { c with l1 := [], partials := [] }) with
        mem := m, tags := t, poison := [], lehr := some ⟨base, s.lehrKey, m, t⟩ } : State).mbDone 0)

/-! ### Attestation, wave state, firmware, device number -/

/-- The attestation report (R412, R418): a root table is the 4 KiB of its level-4 table (DESIGN CHOICE, log entry 17: the digests of
the ROM and the firmware, and the signatures). -/
def State.report' (s : State) (nonce : List Byte) : List Byte :=
  let body := nonce ++ (List.range 64).map Config.romByte ++ (List.range 64).map (Config.fwByte s.fw) ++ toBytes 4 s.boot.fails ++
    toBytes 4 s.slots.length ++ s.slots.flatMap fun a => toBytes 8 a.1 ++ shake256 (rdBytes s.mem a.2.root 4096)
  body ++ (List.range (384 + 29792)).map fun i => Config.attestByte s.fresh (body.length + i)

/-- `MB_ATTEST` (R418). -/
def execMbAttest (s : State) : Host.Outcome State Fault Refusal :=
  .next (s.mailbox false fun s =>
    if !s.restZero 2 then s.mbDone 1
    else
      let r := s.report' (rdBytes s.hostMem (s.arg 0) 64)
      ({ (s.setHost (wrBytes s.hostMem (s.arg 1) r) (s.arg 1) r.length) with
        fresh := s.fresh + 1
        mb := { s.mb with args := listPut 0 8 s.mb.args 2 (BitVec.ofNat 64 r.length) } } : State).mbDone 0)

/-- A wave whose state the debugger may read: pre-empted, or halted under R378 or R422 at a run boundary. -/
def State.readableWave (s : State) (core stamp wix : Nat) : Option (Nat × Wave) :=
  let is (w : Wave) : Bool := w.stamp == stamp && w.wix == wix
  let c := s.core core
  let haltd (x : Nat × Wave) : Bool :=
    ((s.slot? x.2.aslot).elim false (fun a => a.dbgCtl.getLsbD 1) || s.hot) && !s.granted core x.1
  match c.slots.find? fun x => is x.2 && haltd x with
  | some x => some x
  | none => (c.pre.find? is).map fun w => (0, w)

/-- The buffer of command 0x09 (R412). -/
def Wave.dump (w : Wave) (slot : Nat) : List Byte :=
  let regs := (List.range 256).flatMap fun n => (List.range 32).flatMap fun l =>
    if n < w.d then toBytes 4 (w.vreg n l).toNat else toBytes 4 0
  let lwr := (w.streams.map (·.lwr)).foldl (fun a b => a ||| b) 0
  let cbuf := w.spilled.flatMap id
  regs ++ cbuf ++ List.replicate (0x10000 - regs.length - cbuf.length) 0 ++
  ((List.range 128).flatMap fun n => toBytes 4 (w.sreg n).toNat) ++
  ((List.range 16).flatMap fun n => toBytes 4 (w.pred n).toNat) ++
  ((List.range 32).flatMap fun l => toBytes 8 (w.pc l)) ++
  ((List.range 4).flatMap fun k => (List.range 32).flatMap fun l => toBytes 4 (w.latch k l).toNat) ++
  toBytes 8 (lwr.toNat + w.d / 8 * 2 ^ 8 + slot * 2 ^ 16) ++ toBytes 8 w.bcast.toNat ++
  ((List.range 8).flatMap fun k => toBytes 4 (((listGet ⟨none, 0⟩ w.rb k).members.getD 0).toNat)) ++
  toBytes 4 w.stopped.toNat ++ List.replicate (0x11000 - 0x10574) 0

/-- `MB_READ_WAVE` (R412). -/
def execMbReadWave (s : State) : Host.Outcome State Fault Refusal :=
  .next (s.mailbox false fun s =>
    let x := s.arg 0
    if bitsN x 15 10 != 0 || bitsN x 63 21 != 0 || !s.restZero 3 then s.mbDone 1
    else
      match s.readableWave (bitsN x 9 0) (s.arg 1) (bitsN x 20 16) with
      | none => s.mbDone 3
      | some (k, w) => (s.setHost (wrBytes s.hostMem (s.arg 2) (w.dump k)) (s.arg 2) 0x11000).mbDone 0)

/-- `MB_FIRMWARE_UPDATE` (R412, R416): refused unless the image verifies; minimal and recovery mode end with a new start (R417). -/
def execMbFirmwareUpdate (verified : Bool) (s : State) : Host.Outcome State Fault Refusal :=
  .next (s.mailbox true fun s =>
    if !s.restZero 2 then s.mbDone 1
    else if !verified then s.mbDone 3
    else
      let again := s.boot.mode == 2 || s.boot.mode == 3
      (({ s with update := true, boot := if again then { s.boot with mode := 0, stage := 0 } else s.boot } : State).mbDone 0))

/-- `MB_SET_DEVICE` (R412). -/
def execMbSetDevice (s : State) : Host.Outcome State Fault Refusal :=
  .next (s.mailbox false fun s =>
    if decide (4096 ≤ s.arg 0) || !s.restZero 1 then s.mbDone 1
    else if !s.slots.isEmpty then s.mbDone 3
    else ({ s with devNo := s.arg 0 } : State).mbDone 0)

/-- `MB_BAD_COMMAND` (R411): an unknown code, or any write while a command runs. -/
def execMbBadCommand (cmd : Word) (s : State) : Host.Outcome State Fault Refusal :=
  .next
    (let bad := decide (256 ≤ cmd.toNat) || cmd == 0 || decide (0x0B < cmd.toNat)
     if bad || s.mb.cmd.isSome then s.mailbox true fun s => s.mbDone 1 else s)

end Sys2Proof.Machine
end

