-- ==== Sys2Proof/Machine/Power.lean ====
section
/-! DEFINITION. Starts (R416, R417), links of the host (R403, R405), clock, temperature and power (R87, R422), corrected errors
(R414). -/

namespace Sys2Proof.Machine
open Sys2Proof

/-! ## Starts -/

/-- The part after a start: memory, host memory and the names that the model gives go on, everything else is as at reset
(DEDUCED, log entry 56). -/
def State.restart (s : State) (b : Boot) : State :=
  { State.reset with
    mem := s.mem
    hostMem := s.hostMem
    boot := b
    fw := s.fw + b2n s.update
    uids := s.uids
    fresh := s.fresh
    links := s.links
    msix := s.msix
    hostOut := s.hostOut
    tape := s.tape }

/-- In minimal mode only die 0 runs (R417). -/
def State.onlyDie0 (s : State) : State :=
  (allCores.filter fun i => coreDie i != 0).foldl (fun s i => s.modCore i fun c => { c with disabled := true }) s

/-- A start that succeeds: ready, with the ports that have trained. -/
def State.started (s : State) (down : List Nat) : State :=
  let s := s.restart { s.boot with mode := 1, fails := 0, stage := 6 }
  let s : State := { s with ports := (List.range 18).map fun k =>
    { Port.init with st := if down.contains k then .down else .up, keys := (1, 1) } }
  ((List.range 18).filter down.contains).foldl (fun s k => s.devEvent 8 0 0 [k]) s

/-- A start that fails: another follows, or minimal or recovery mode (R417). -/
def State.startFailed (s : State) (stage cause die : Nat) : State :=
  let fails := min (s.boot.fails + 1) 3
  let mode := if fails < 3 then 0 else if cause == 1 then 3 else 2
  let s := s.restart ⟨mode, fails, stage, cause, die % 4⟩
  if mode == 2 then s.onlyDie0 else s

/-- `DEVICE_START` (R416, R417). -/
def execDeviceStart (how : StartEnd) (s : State) : Host.Outcome State Fault Refusal :=
  .next
    (if s.boot.mode != 0 then s
     else
       match how with
       | .ok down => s.started down
       | .failed stage cause die =>
         if stage == 0 || decide (5 < stage) || cause == 0 || decide (6 < cause) then s else s.startFailed stage cause die)

/-! ## Host links -/

/-- `HOST_LINK_DEGRADE` (R403). -/
def execHostLinkDegrade (link : Nat) (s : State) : Host.Outcome State Fault Refusal :=
  .next { s with links := listPut (false, false) 2 s.links link ((listGet (false, false) s.links link).1, true) }

/-- `HOST_LINK_DOWN` (R405). A link that comes back in minimal or recovery mode has been reset: the host asks for a start (R417). -/
def execHostLinkDown (link : Nat) (down : Bool) (s : State) : Host.Outcome State Fault Refusal :=
  .next
    (let old := listGet (false, false) s.links link
     let s : State := { s with links := listPut (false, false) 2 s.links link (down, old.2) }
     if !down && old.1 && (s.boot.mode == 2 || s.boot.mode == 3) then { s with boot := { s.boot with mode := 0, stage := 0 } } else s)

/-! ## Clock and temperature (R422) -/

/-- `CLOCK_THROTTLE` (R422): steps of 0.25 GHz between 1.00 and 1.75 GHz. -/
def execClockThrottle (up : Bool) (s : State) : Host.Outcome State Fault Refusal :=
  .next
    (let go (m : Nat) : State := { s with mhz := m, sub := s.sub * m / s.mhz }
     if up then (if s.mhz < 1750 then go (s.mhz + 250) else s)
     else (if 1000 < s.mhz then (go (s.mhz - 250)).devEvent 7 0 0 [] else s))

/-- `THERMAL_HALT` (R422): a core is at 105 degrees. -/
def execThermalHalt (core : Nat) (s : State) : Host.Outcome State Fault Refusal :=
  .next (if s.hot || (s.core core).temp < 105 then s else ({ s with hot := true } : State).devEvent 7 core 0 [])

/-- `THERMAL_RELEASE` (R422): every core is below 95 degrees. -/
def execThermalRelease (s : State) : Host.Outcome State Fault Refusal :=
  .next (if s.cores.all fun c => decide (c.2.temp < 95) then { s with hot := false } else s)

/-! ## Power and corrected errors -/

/-- `CORE_POWER_GATE` (R87, R30): a gated core holds no tokens and asks for none, and its L1 is empty. -/
def execCorePowerGate (core : Nat) (gate : Bool) (s : State) : Host.Outcome State Fault Refusal :=
  .next
    (if 1024 ≤ core then s
     else if gate then
       ({ s with preqs := s.preqs.filter fun r => r.core != core } : State).modCore core fun c => { c with gated := true, l1 := [] }
     else s.modCore core fun c => c.anew { c with gated := false })

/-- `CORRECTABLE_ERROR` (R414). -/
def execCorrectableError (die : Nat) (s : State) : Host.Outcome State Fault Refusal :=
  .next { s with errCe := listPut 0 4 s.errCe die (min (listGet 0 s.errCe die + 1) (2 ^ 64 - 1)) }

end Sys2Proof.Machine
end

