-- ==== Sys2Proof/Machine/Auto.lean ====
section
/-! DEFINITION. What moves next when the tape of turns is empty (DESIGN CHOICE, log entry 5), which instructions are steps of the part's
other agents, and where a word is placed so that the next step fetches it (DESIGN CHOICE, log entry 6). -/

namespace Sys2Proof.Machine
open Sys2Proof

/-- A step of an agent other than a wave or a transfer processor, or an input from outside: what a turn may name. -/
def isEvent (i : Instr) : Bool :=
  match i with
  | .runGrant _ _ _ | .distributorPlace | .gangReserve | .gangRelease | .coreAdmit _ _ | .stealAttempt _
  | .rclaimServe _ | .claimDeadlock _ | .homeTokenRequest _ _ _ _ | .persistentRequest _ | .ldvStalenessTimeout _ _
  | .mwaitTimeout _ _ | .copyComplete _ _ | .xpEngineTurn _ _ _ | .programTransferComplete _ _ _
  | .chainWalkStart _ _ | .recCopy _ _ | .recLoadImage _ _ | .recStartProgram _ _ | .recArriveOnly _ _
  | .recOffloadOut _ _ | .recOffloadIn _ _ | .recBad _ _ | .offloadOutComplete _ _ | .offloadInComplete _ _
  | .tredComplete _ _ | .sideLogReplay _ _ | .faultRecordWrite _ | .resolutionObserved _ _ | .handlerWaveForm _
  | .poisonSector _ | .coreDisable _ | .remoteAccessReceive _ | .flowAck _ _ _ | .flowRetransmit _ _ _
  | .flowTimeout _ _ | .linkRetrain _ | .retrainBound _ _ | .flitTagFail _ _ | .linkRekey _ _ | .engineChunk _
  | .contributionArrival _ _ _ _ | .closureTimerExpiry _ _ _ | .resultArrival _ _ _ _ _ _ | .publicationArrival _ _ _
  | .silenceTimeout _ _ | .hostBar2Access _ _ _ | .chHead _ _ | .chStatClear _ | .launchRecord | .launchComplete _
  | .xphHead _ _ _ | .xphStatClear _ | .hostRegisterWrite _ _ | .mbCreateSlot | .mbEndSlot | .mbAssignFrames
  | .mbRouteEntry | .mbCreateCommunicator | .mbEndCommunicator | .mbCheckpoint | .mbRestore | .mbAttest | .mbReadWave
  | .mbFirmwareUpdate _ | .mbSetDevice | .mbBadCommand _ | .checkpointDone | .deviceStart _ | .fabricPortDown _
  | .hostLinkDegrade _ | .clockThrottle _ | .thermalHalt _ | .thermalRelease | .collectiveMessageArrival _ _ _ _ _ _
  | .memberResultTimeout _ _ | .flowQueryReceive _ _ _ | .flowQueryAnswer _ _ _ | .flowQueryTimeout _ _
  | .speculativeAccess _ _ _ | .corePowerGate _ _ | .hostLinkDown _ _ | .correctableError _ => true
  | _ => false

/-! ## What can move by itself -/

/-- The events of a chain walk at the record where it stands. -/
def State.walkMoves (s : State) (core x : Nat) : List Instr :=
  let p := s.xp core x
  match p.walk with
  | none => if p.heads.isEmpty then [] else [.chainWalkStart core x]
  | some w =>
    if w.busy && decide (4 ≤ w.kind) then
      (if (s.walkDone core x).isSome then [if w.kind == 4 then .offloadOutComplete core x else .offloadInComplete core x] else [])
    else if w.words.isEmpty || w.wb.isSome then [.recCopy core x]
    else if w.busy && (s.walkDone core x).isNone then []
    else if s.checkRec core x w == 2 then [.recBad core x]
    else match w.kind with
      | 0 => [.recCopy core x]
      | 1 => [.recLoadImage core x]
      | 2 => [.recStartProgram core x]
      | 3 => [.recArriveOnly core x]
      | 4 => [.recOffloadOut core x]
      | _ => [.recOffloadIn core x]

/-- The events of a wave whose time limit has passed, or whose instance of `tred` is complete. -/
def State.waveMoves (s : State) (core slot : Nat) (w : Wave) : List Instr :=
  w.streams.flatMap fun t => match t.st with
    | .park (.ldv t0 limit false _ _) _ _ _ => if t0 + limit < s.us then [.ldvStalenessTimeout core slot] else []
    | .park (.mwait _ (some dl) false) _ _ _ => if dl ≤ s.cyc then [.mwaitTimeout core slot] else []
    | .park (.flq _ t0) _ _ _ => if t0 + 2000000 < s.us then [.flowQueryTimeout core slot] else []
    | .park (.tred k desc) _ _ _ => if s.tredAll w.lid k desc then [.tredComplete core slot] else []
    | _ => []

/-- The events of one core. -/
def State.coreMoves (s : State) (core : Nat) (c : Core) : List Instr :=
  (if !c.offline && (s.firstCand core).isSome then [.coreAdmit core .keep] else []) ++
  (if s.stealDue core && (s.cores.any fun x => x.1 != core && !x.2.deque.isEmpty) then [.stealAttempt core] else []) ++
  (match s.claims core with
   | x :: _ => if x.2.2 ≤ c.free then [.rclaimServe core] else if s.deadlocked core then [.claimDeadlock core] else []
   | [] => []) ++
  ((List.range 2).flatMap fun x =>
    (if (s.engineOrder core x).isEmpty then [] else [.xpEngineTurn core x 4096]) ++ s.walkMoves core x) ++
  (c.copies.filter fun k => k.done && k.from' != .walk).map
    (fun k => if k.from' == .prog then .programTransferComplete core k.xp k.id else .copyComplete core k.id) ++
  ((List.range c.log.length).filter fun i => (c.log[i]?).elim false fun e => s.entryCode e != 0).map (fun i => .sideLogReplay core i) ++
  (if c.handlers.any fun g => g.due s.cyc then [.handlerWaveForm core] else []) ++
  c.slots.flatMap fun x => s.waveMoves core x.1 x.2

/-- The events of flows, links and communicators. -/
def State.fabricMoves (s : State) : List Instr :=
  ((List.range s.flows.length).flatMap fun f => (s.flow f).open'.flatMap fun a =>
    if a.sent && decide (a.first + 2000000 < s.us) then [.flowTimeout f a.seq]
    else if extRoute a.pa == 1024 && (s.flow f).turn a && !s.linksDown then [.flowAck f a.seq (.done [])] else []) ++
  ((List.range 18).filter fun k => match (listGet Port.init s.ports k).st with
    | .training t => decide (t + 50 < s.us)
    | _ => false).map (fun k => .retrainBound k false) ++
  (s.comms.flatMap fun x =>
    (match x.2.cur, x.2.timer with
     | some t, some due => if due < s.us then [.closureTimerExpiry x.1 .red t] else []
     | _, _ => []) ++
    (x.2.own.flatMap fun m =>
      if m.op == .red then
        (if m.tgt.getD x.2.closer != x.2.rank && decide (m.since + 2 * x.2.tmr < s.us) then [.memberResultTimeout x.1 m.step] else [])
      else if m.since + (m.expiries + 1) * x.2.tmr < s.us then [.closureTimerExpiry x.1 m.op m.step] else []) ++
    ((List.range x.2.n).filter fun r => r != x.2.rank && (x.2.peer r).live && decide ((x.2.peer r).last + x.2.sil < s.us)).map
      fun r => .silenceTimeout x.1 r) ++
  ((List.range 4).filter fun d => s.comms.any fun x => x.2.eng == d && x.2.nextWork.isSome).map fun d => .engineChunk d

/-- A record can go on: it awaits room that is there, or stores that have been answered, or owes its word. -/
def State.recordMoves (s : State) (r : FRec) : Bool :=
  r.owe || (r.pending && (s.slot? r.aslot).elim false (fun a => !fltFull a) && (r.acc.isEmpty || (s.recAcked r).isSome))

/-- The events of the device. -/
def State.deviceMoves (s : State) : List Instr :=
  (match s.dist.gang with
   | some _ => if s.gangOusted then [.gangRelease] else [.gangReserve]
   | none => if s.dist.head.isSome then [.distributorPlace] else []) ++
  (if s.nextChan.isSome then [.launchRecord] else []) ++
  (s.roots.filter fun r => r.2.live == 0).map (fun r => .launchComplete r.1) ++
  (dedup ((s.recs.filter s.recordMoves).map (·.aslot))).map (fun k => .faultRecordWrite k) ++
  (s.recs.filter fun r => r.held && (r.coded 1 ||| r.coded 2 ||| r.coded 3) != 0).map (fun r => .resolutionObserved r.core r.id) ++
  s.preqs.map (fun r => .persistentRequest r.line) ++
  (if s.mb.cmd == some 5 then [.mbCreateCommunicator] else []) ++ (if s.endingSlot.isSome then [.mbEndSlot] else []) ++
  (if s.ckpt.isSome && (s.quiet || s.linksDown) then [.checkpointDone] else [])

/-- Codes that a core can act on now: their waves are resident (R366). -/
def State.codesDue (s : State) : List Instr :=
  (s.recs.filter fun r => r.held && r.kind != 0x28 && (r.coded 1 ||| r.coded 2 ||| r.coded 3) != 0 &&
    (s.findSlot r.uid).elim false (fun x => x.1 == r.core) && !(s.core r.core).disabled).map fun r => .resolutionObserved r.core r.id

/-- What can move by itself. -/
def State.movable (s : State) : List Act :=
  (s.cores.flatMap fun c =>
    ((List.range 4).filter fun k => (listGet none c.2.grants k).isSome || (s.nextSlot c.1 k).isSome ||
        !(s.deadWaves c.1 k).isEmpty).map
        (fun k => Act.wave c.1 k) ++
    ((List.range 2).filter fun x => match (c.2.xp x).st with
      | .running => true
      | .parked p => s.xpOver c.1 x p
      | _ => false).map (fun x => Act.xp c.1 x) ++
    (s.coreMoves c.1 c.2).map Act.event) ++
  s.fabricMoves.map Act.event ++ s.deviceMoves.map Act.event

/-- The fixed policy: a part that has not started starts; a code is acted on at once (R366); else what can move takes turns. -/
def State.autoAct (s : State) : Act :=
  if s.boot.mode == 0 then .event (.deviceStart (.ok []))
  else
    match s.codesDue with
    | i :: _ => .event i
    | [] =>
      let l := s.movable
      listGet .idle l (s.cyc % l.length)

/-! ## The order of one cycle -/

/-- The place of a turn among those of one cycle, where a rule fixes it: cores in ascending index with the host as 1,024 (R34, R89), on a core
XP0 and XP1 with their engines before the waves, which come by slot (R83, R328), thieves behind every owner and by index (R62). -/
def State.rankOf (s : State) (a : Act) : Option Nat :=
  match a with
  | .wave core sched => (listGet none (s.core core).grants sched).map fun g => core * 64 + 2 + g.slot
  | .xp core x | .event (.xpEngineTurn core x _) => some (core * 64 + x)
  | .event (.coreAdmit core _) => some (core * 64 + 40)
  | .event (.homeTokenRequest core _ _ _) => some (core * 64)
  | .event .launchRecord => some (1024 * 64)
  | .event (.stealAttempt core) => some (1025 * 64 + core)
  | _ => none

/-- The cycles of a turn pass. One that comes before an earlier one of the same cycle belongs to the next (DEDUCED, log entry 71). -/
def State.pass (s : State) (t : Turn) : State :=
  match s.rankOf t.act with
  | none => s.tick t.dt
  | some r => { s.tick (if t.dt == 0 && decide (r < s.rank) then 1 else t.dt) with rank := r }

/-! ## Placing one word -/

def placeVa : Nat := 0x10000

/-- A link and a leaf of a page table (R69, R70): the leaf maps the first GiB, executable and writable. -/
def placeTables (m : List Host.Cell) : List Host.Cell :=
  wrNum (wrNum (wrNum m 0x1000 8 0x2001) 0x2000 8 0x3001) 0x3000 8 (2 ^ 59 + 2 ^ 58 + 3)

/-- A wave that is about to fetch at `placeVa`, with a run granted to all of its lanes. -/
def placeWave (uid : Nat) : Wave :=
  { Wave.empty with
    uid := uid
    priv := true
    pcs := List.replicate 32 (BitVec.ofNat 57 placeVa)
    bcast := BitVec.ofNat 57 placeVa
    streams := [⟨fullMask, 0, 15, true, .run, 0, false, 0, [], none⟩] }

/-- The word of an instruction that a wave fetches: a live slot 0 that maps it, and a granted wave in slot 0 of core 0. A word that
only a transfer processor accepts goes to the store of XP0 of core 0, which runs. -/
def State.placeWord (s : State) (nbits w : Nat) : State :=
  let bs := toBytes 16 (w % 2 ^ nbits)
  let xp := match decode .core bs with
    | .ok _ => false
    | .error _ => match decode .xp bs with | .ok _ => true | .error _ => false
  let s : State := { s with boot := { s.boot with mode := 1 } }
  if xp then
    let put (p : XP) : XP :=
      { p with
        pc := 0
        st := .running
        bind := .slot 0
        store := (List.range 16).foldl (fun m i => mset 0 m i (listGet 0 bs i)) p.store }
    let s : State := { s with slots := aput s.slots 0 (ASlot.fresh 0x1000 true 0), tape := [⟨1, .xp 0 0⟩] }
    s.modXp 0 0 put
  else
    let s : State := { s with
      mem := wrBytes (placeTables s.mem) placeVa bs
      frames := (0, 16384, 0) :: s.frames
      slots := aput s.slots 0 (ASlot.fresh 0x1000 true 0)
      uids := s.uids + 1
      tape := [⟨1, .wave 0 0⟩] }
    (s.setWave 0 0 (placeWave s.uids)).modCore 0 fun c => { c with grants := listPut none 4 c.grants 0 (some ⟨0, fullMask⟩) }

end Sys2Proof.Machine
end

