-- ==== Sys2Proof/Machine/Control.lean ====
section
/-! DEFINITION. Control transfer, reconvergence and breakpoints (R207 to R216), and the instructions that do nothing (R172,
R173). -/

namespace Sys2Proof.Machine
open Sys2Proof

/-- Transfer one lane to a 64-bit target (R207). A transfer processor checks its store's size as well. -/
def State.transfer (s : State) (l t : Nat) : State :=
  let onXp := match s.focus.unit with
    | .xp _ _ => true
    | _ => false
  if 2 ^ 57 ≤ t then s.hold (laneMask l) 2 0 0 0
  else if t % 4 != 0 then s.hold (laneMask l) 3 0 0 0
  else if onXp && decide (2 ^ 14 ≤ t) then s.hold (laneMask l) 2 1 0 0
  else s.modF fun f => { f with taken := f.taken ++ [(l, t)] }

/-- Transfer the lanes of a mask, each to its own target. -/
def State.transferAll (s : State) (m : Mask) (t : Nat → Nat) : State :=
  (lanesOf m).foldl (fun s l => s.transfer l (t l)) s

/-- A pc-relative target (R207). -/
def State.relTarget (s : State) (off : Word) : Nat := wrapN 57 ((s.focus.pc : Int) + off.toInt)

/-- `nop` (R173). -/
def execNop (_len : BitVec 2) (rbf : Bool) (s : State) : Host.Outcome State Fault Refusal := s.onBoth rbf 0 id id

/-- A hint (R172): only the program counter advances. -/
def execHint (_len : BitVec 2) (rbf : Bool) (_rest : BitVec 125) (s : State) : Host.Outcome State Fault Refusal :=
  s.onBoth rbf 0 id id

/-- `br` (R209). -/
def execBr (c : Ctl) (off : Word) (s : State) : Host.Outcome State Fault Refusal :=
  let body (s : State) : State := s.transferAll (s.active c.guard) fun _ => s.relTarget off
  s.onBoth c.rbf 0 body body

/-- `bcmp` (R210). -/
def execBcmp (c : Ctl) (cond : ICond) (w : Bool) (o : Cmp2) (off : Word) (s : State) :
    Host.Outcome State Fault Refusal :=
  let body (s : State) : State :=
    let go := (lanesOf (s.active c.guard)).filter (s.cmp2 w o (icondHolds cond (wbits w)))
    s.transferAll (maskOf go) fun _ => s.relTarget off
  s.onBoth c.rbf 0 body body

/-- The decrement of `dbnz` (R211). -/
def decr (w : Bool) (x : Nat) : Nat := (x + 2 ^ wbits w - 1) % 2 ^ wbits w

/-- `dbnz` (R211). -/
def execDbnz (c : Ctl) (w : Bool) (r : GReg) (off : Word) (s : State) : Host.Outcome State Fault Refusal :=
  let body (s : State) : State :=
    match r with
    | .s n =>
      s.scalar c.guard fun s =>
        let x := decr w (s.scal w n)
        let s := s.setScal w n x
        if x == 0 then s else s.transferAll (s.active c.guard) fun _ => s.relTarget off
    | .v n =>
      let act := s.active c.guard
      let x (l : Nat) : Nat := decr w (s.w.src w (.reg n) l)
      let t := s.relTarget off
      let go := maskOf ((lanesOf act).filter fun l => x l != 0)
      (s.perLane c.guard false ⟨some n, none⟩ w x).transferAll go fun _ => t
  s.onBoth c.rbf 0 body body

/-- Transfer every Active lane to the value of a pair (R212). -/
def State.jump (s : State) (c : Ctl) (t : Cmp1) : Host.Outcome State Fault Refusal :=
  let body (s : State) : State := s.transferAll (s.active c.guard) (s.cmp1 true t)
  s.onBoth c.rbf 0 body body

/-- `brx` (R212). -/
def execBrx (c : Ctl) (t : Cmp1) (s : State) : Host.Outcome State Fault Refusal := s.jump c t

/-- `ret` (R212). -/
def execRet (c : Ctl) (t : Cmp1) (s : State) : Host.Outcome State Fault Refusal := s.jump c t

/-- One entry of the table of `btab`, for the lanes of a mask (R214). -/
def State.tableJump (s : State) (base n i : Nat) (l : Nat) (m : Mask) : State :=
  let a := (base + 8 * i) % 2 ^ 64
  if n ≤ i then s
  else if base % 8 != 0 then s.hold m 3 0 a 0
  else
    let (s, r) := s.loadLane l m a 8 true false true .wv
    s.deliver m a false r fun s e => s.transferAll m fun _ => e

/-- `btab` (R214). -/
def execBtab (c : Ctl) (base : SReg) (idx : Cmp1) (n : Word) (s : State) : Host.Outcome State Fault Refusal :=
  let body (s : State) : State :=
    let act := s.active c.guard
    let b := s.scal true base
    match idx with
    | .scal i => if act == 0 then s else s.tableJump b n.toNat (s.scal false i) (lowLane act) act
    | .vec i => (lanesOf act).foldl (fun s l => s.tableJump b n.toNat (s.w.src false i l) l (laneMask l)) s
  s.onBoth c.rbf 0 body body

/-- Write the link and transfer (R213): a vector pair of each lane, a d pair on a transfer processor. Targets are read before the
link is written, and the link is written even where the transfer faults (R235). -/
def State.linkJump (s : State) (c : Ctl) (link : BitVec 8) (t : State → Nat → Nat) : Host.Outcome State Fault Refusal :=
  let back := s.focus.pc + s.focus.len
  let linked (s : State) : State := s.setS64 link.toNat (BitVec.ofNat 64 back)
  let wave (s : State) : State :=
    (s.perLane c.guard false ⟨some link, none⟩ true fun _ => back).transferAll (s.active c.guard) (t s)
  let xp (s : State) : State := (linked s).transferAll (s.active c.guard) (t s)
  s.onBothFrom (linked s).x.d c.rbf 0 wave xp

/-- `call` (R213). -/
def execCall (c : Ctl) (link : BitVec 8) (off : Word) (s : State) : Host.Outcome State Fault Refusal :=
  s.linkJump c link fun s _ => s.relTarget off

/-- `callx` (R213). -/
def execCallx (c : Ctl) (link : BitVec 8) (t : Src) (s : State) : Host.Outcome State Fault Refusal :=
  s.linkJump c link fun s l =>
    match s.focus.unit, t with
    | .xp _ _, .reg n => (s.spair n.toNat).toNat
    | _, _ => s.w.src true t l

def Wave.modRb (w : Wave) (k : Nat) (f : RBar → RBar) : Wave :=
  { w with rb := listPut ⟨none, 0⟩ 8 w.rb k (f (listGet ⟨none, 0⟩ w.rb k)) }

/-- `rcv.arm` (R40, R215): lanes waiting at the barrier are released first. -/
def execRcvArm (c : Ctl) (rb : BitVec 3) (s : State) : Host.Outcome State Fault Refusal :=
  s.onWave c.rbf 0 fun s =>
    let act := s.active c.guard
    if act == 0 then s else s.modW fun w => w.modRb rb.toNat fun _ => ⟨some act, 0⟩

/-- `rcv.join` (R40, R215): lanes that arrive have their earlier accesses behind them (R109, R123; DEDUCED, log entry 60). -/
def execRcvJoin (c : Ctl) (rb : BitVec 3) (s : State) : Host.Outcome State Fault Refusal :=
  s.onWave c.rbf 0 fun s =>
    let b := listGet ⟨none, 0⟩ s.w.rb rb.toNat
    match b.members with
    | none => s
    | some m =>
      let here := s.active c.guard &&& m
      let all := b.waiting ||| here
      if here == 0 then s
      else s.afterAll here fun s =>
        let s := s.bump s.waveId 1
        if m &&& ~~~ all == 0 then
          (s.modW fun w => w.modRb rb.toNat fun _ => ⟨none, 0⟩).modF fun f => { f with joined := all }
        else s.modW fun w => w.modRb rb.toNat fun _ => ⟨some m, all⟩

/-- `rcv.drop` (R215). -/
def execRcvDrop (c : Ctl) (rb : BitVec 3) (s : State) : Host.Outcome State Fault Refusal :=
  s.onWave c.rbf 0 fun s =>
    let act := s.active c.guard
    if act == 0 then s else s.modW fun w => w.modRb rb.toNat fun b => b.drop act

/-- `brk` (R216, R364). -/
def execBrk (c : Ctl) (code : BitVec 18) (s : State) : Host.Outcome State Fault Refusal :=
  let body (s : State) : State := s.hold (s.active c.guard) 0x0A 0 0 code.toNat
  s.onBoth c.rbf 0 body body

end Sys2Proof.Machine
end

