-- ==== Sys2Proof/Machine/Integer.lean ====
section
/-! DEFINITION. Integer, address and bit instructions (R217 to R234). The helpers compute on W-bit values as numbers; a result is
written modulo 2^W (R217). -/

namespace Sys2Proof.Machine
open Sys2Proof

/-! ## Arithmetic on W-bit values -/

/-- A signed or unsigned reading (R217). -/
def readW (s : Bool) (n x : Nat) : Int := if s then sextN n x else (x : Int)

def subW (n a b : Nat) : Nat := (a + 2 ^ n - b) % 2 ^ n

/-- The upper half of the product (R217). -/
def mulhW (s : Bool) (n a b : Nat) : Nat := wrapN n (readW s n a * readW s n b / ((2 ^ n : Nat) : Int))

/-- Quotient and remainder (R218). -/
def divW (s : Bool) (n a b : Nat) : Nat :=
  let x := readW s n a
  let y := readW s n b
  if y == 0 then 2 ^ n - 1
  else if s && x == -((2 ^ (n - 1) : Nat) : Int) && y == -1 then a
  else wrapN n (x.tdiv y)

def remW (s : Bool) (n a b : Nat) : Nat :=
  let x := readW s n a
  let y := readW s n b
  if y == 0 then a
  else if s && x == -((2 ^ (n - 1) : Nat) : Int) && y == -1 then 0
  else wrapN n (x.tmod y)

def minW (s : Bool) (n a b : Nat) : Nat := if readW s n a ≤ readW s n b then a else b
def maxW (s : Bool) (n a b : Nat) : Nat := if readW s n b ≤ readW s n a then a else b

/-- Saturation (R217). -/
def clampW (s : Bool) (n : Nat) (x : Int) : Nat :=
  let lo : Int := if s then -((2 ^ (n - 1) : Nat) : Int) else 0
  let hi : Int := if s then ((2 ^ (n - 1) : Nat) : Int) - 1 else ((2 ^ n : Nat) : Int) - 1
  wrapN n (if x < lo then lo else if hi < x then hi else x)

def addsW (s : Bool) (n a b : Nat) : Nat := clampW s n (readW s n a + readW s n b)
def subsW (s : Bool) (n a b : Nat) : Nat := clampW s n (readW s n a - readW s n b)

def absW (n a : Nat) : Nat := (sextN n a).natAbs

/-- The 18-bit immediate, sign-extended to W bits (R220). -/
def immW (n : Nat) (imm : BitVec 18) : Nat := wrapN n imm.toInt

def notW (n a : Nat) : Nat := 2 ^ n - 1 - a % 2 ^ n

/-! ## Shifts (R222) -/

def shlW (n a k : Nat) : Nat := a * 2 ^ (k % n) % 2 ^ n
def shrW (n a k : Nat) : Nat := a / 2 ^ (k % n)
def sraW (n a k : Nat) : Nat := wrapN n (sextN n a / ((2 ^ (k % n) : Nat) : Int))
def rolW (n a k : Nat) : Nat := (a * 2 ^ (k % n)) % 2 ^ n ||| a / 2 ^ (n - k % n)
def rorW (n a k : Nat) : Nat := a / 2 ^ (k % n) ||| (a * 2 ^ (n - k % n)) % 2 ^ n

/-! ## Bit fields, counts and reorders (R224 to R228) -/

def bfeW (s : Bool) (n a pos len : Nat) : Nat :=
  let x := a / 2 ^ pos % 2 ^ len
  if s then wrapN n (sextN len x) else x

def bfiW (a b pos len : Nat) : Nat := putBits b (pos + len - 1) pos a

def popcW (n a : Nat) : Nat := ((List.range n).filter (bitN a)).length

def clzW (n a : Nat) : Nat := ((List.range n).find? fun i => bitN a (n - 1 - i)).getD n
def ctzW (n a : Nat) : Nat := ((List.range n).find? fun i => bitN a i).getD n

/-- The number whose bit `i` is `f i`, for `i` below `n`. -/
def ofBits (f : Nat → Bool) : Nat → Nat
  | 0 => 0
  | n + 1 => ofBits f n + b2n (f n) * 2 ^ n

def brevW (n a : Nat) : Nat := ofBits (fun i => bitN a (n - 1 - i)) n
def bswapW (n a : Nat) : Nat := ofBytes (toBytes (n / 8) a).reverse

/-- The carry-less product (R227). -/
def clmulW (n a b : Nat) : Nat := (List.range n).foldl (fun p i => if bitN b i then p ^^^ (a * 2 ^ i) else p) 0

/-- The prefix exclusive OR (R228): the carry-less product with all ones. -/
def pxorW (n a : Nat) : Nat := clmulW n a (2 ^ n - 1) % 2 ^ n

/-- `pdep` and `pext` (R228): the count of mask bits passed, and the result so far. -/
def pdepW (n a b : Nat) : Nat :=
  ((List.range n).foldl (fun (kr : Nat × Nat) i =>
    if bitN b i then (kr.1 + 1, kr.2 + b2n (bitN a kr.1) * 2 ^ i) else kr) (0, 0)).2

def pextW (n a b : Nat) : Nat :=
  ((List.range n).foldl (fun (kr : Nat × Nat) i =>
    if bitN b i then (kr.1 + 1, kr.2 + b2n (bitN a i) * 2 ^ kr.1) else kr) (0, 0)).2

/-! ## Arithmetic -/

/-- `add` (R217). -/
def execAdd (c : Ctl) (w : Bool) (o : Gen2) (s : State) : Host.Outcome State Fault Refusal :=
  s.gen2 c w w w o fun a b => a + b

/-- `sub` (R217). -/
def execSub (c : Ctl) (w : Bool) (o : Gen2) (s : State) : Host.Outcome State Fault Refusal :=
  s.gen2 c w w w o (subW (wbits w))

/-- `mul` (R217). -/
def execMul (c : Ctl) (w : Bool) (o : Gen2) (s : State) : Host.Outcome State Fault Refusal :=
  s.gen2 c w w w o fun a b => a * b

/-- `mulh` (R217). -/
def execMulh (c : Ctl) (sg w : Bool) (o : Gen2) (s : State) : Host.Outcome State Fault Refusal :=
  s.gen2 c w w w o (mulhW sg (wbits w))

/-- `mad` (R217). -/
def execMad (c : Ctl) (w : Bool) (o : Gen3) (s : State) : Host.Outcome State Fault Refusal :=
  s.gen3 c w o fun a b e => a * b + e

/-- `div` (R218). -/
def execDiv (c : Ctl) (sg w : Bool) (o : Gen2) (s : State) : Host.Outcome State Fault Refusal :=
  s.gen2 c w w w o (divW sg (wbits w))

/-- `rem` (R218). -/
def execRem (c : Ctl) (sg w : Bool) (o : Gen2) (s : State) : Host.Outcome State Fault Refusal :=
  s.gen2 c w w w o (remW sg (wbits w))

/-- `min` (R217). -/
def execMin (c : Ctl) (sg w : Bool) (o : Gen2) (s : State) : Host.Outcome State Fault Refusal :=
  s.gen2 c w w w o (minW sg (wbits w))

/-- `max` (R217). -/
def execMax (c : Ctl) (sg w : Bool) (o : Gen2) (s : State) : Host.Outcome State Fault Refusal :=
  s.gen2 c w w w o (maxW sg (wbits w))

/-- `adds` (R217). -/
def execAdds (c : Ctl) (sg w : Bool) (o : Gen2) (s : State) : Host.Outcome State Fault Refusal :=
  s.gen2 c w w w o (addsW sg (wbits w))

/-- `subs` (R217). -/
def execSubs (c : Ctl) (sg w : Bool) (o : Gen2) (s : State) : Host.Outcome State Fault Refusal :=
  s.gen2 c w w w o (subsW sg (wbits w))

/-- `abs` (R219). -/
def execAbs (c : Ctl) (w : Bool) (o : Gen1) (s : State) : Host.Outcome State Fault Refusal :=
  s.gen1 c w w o (absW (wbits w))

/-- `addi` (R220). -/
def execAddi (c : Ctl) (w : Bool) (o : Gen1) (imm : BitVec 18) (s : State) : Host.Outcome State Fault Refusal :=
  s.gen1 c w w o fun a => a + immW (wbits w) imm

/-! ## Logic -/

/-- `and` (R221). -/
def execAnd (c : Ctl) (w : Bool) (o : Gen2) (s : State) : Host.Outcome State Fault Refusal :=
  s.gen2 c w w w o fun a b => a &&& b

/-- `or` (R221). -/
def execOr (c : Ctl) (w : Bool) (o : Gen2) (s : State) : Host.Outcome State Fault Refusal :=
  s.gen2 c w w w o fun a b => a ||| b

/-- `xor` (R221). -/
def execXor (c : Ctl) (w : Bool) (o : Gen2) (s : State) : Host.Outcome State Fault Refusal :=
  s.gen2 c w w w o fun a b => a ^^^ b

/-- `andn` (R221). -/
def execAndn (c : Ctl) (w : Bool) (o : Gen2) (s : State) : Host.Outcome State Fault Refusal :=
  s.gen2 c w w w o fun a b => a &&& notW (wbits w) b

/-- `andi` (R220). -/
def execAndi (c : Ctl) (w : Bool) (o : Gen1) (imm : BitVec 18) (s : State) : Host.Outcome State Fault Refusal :=
  s.gen1 c w w o fun a => a &&& immW (wbits w) imm

/-- `ori` (R220). -/
def execOri (c : Ctl) (w : Bool) (o : Gen1) (imm : BitVec 18) (s : State) : Host.Outcome State Fault Refusal :=
  s.gen1 c w w o fun a => a ||| immW (wbits w) imm

/-- `xori` (R220). -/
def execXori (c : Ctl) (w : Bool) (o : Gen1) (imm : BitVec 18) (s : State) : Host.Outcome State Fault Refusal :=
  s.gen1 c w w o fun a => a ^^^ immW (wbits w) imm

/-! ## Shifts: a register count is a single word (R222); an immediate one is zero-extended (R223) -/

/-- `shl` (R222). -/
def execShl (c : Ctl) (w : Bool) (o : Gen2) (s : State) : Host.Outcome State Fault Refusal :=
  s.gen2 c w w false o (shlW (wbits w))

/-- `shr` (R222). -/
def execShr (c : Ctl) (w : Bool) (o : Gen2) (s : State) : Host.Outcome State Fault Refusal :=
  s.gen2 c w w false o (shrW (wbits w))

/-- `sra` (R222). -/
def execSra (c : Ctl) (w : Bool) (o : Gen2) (s : State) : Host.Outcome State Fault Refusal :=
  s.gen2 c w w false o (sraW (wbits w))

/-- `rol` (R222). -/
def execRol (c : Ctl) (w : Bool) (o : Gen2) (s : State) : Host.Outcome State Fault Refusal :=
  s.gen2 c w w false o (rolW (wbits w))

/-- `ror` (R222). -/
def execRor (c : Ctl) (w : Bool) (o : Gen2) (s : State) : Host.Outcome State Fault Refusal :=
  s.gen2 c w w false o (rorW (wbits w))

/-- `shli` (R223). -/
def execShli (c : Ctl) (w : Bool) (o : Gen1) (n : BitVec 18) (s : State) : Host.Outcome State Fault Refusal :=
  s.gen1 c w w o fun a => shlW (wbits w) a n.toNat

/-- `shri` (R223). -/
def execShri (c : Ctl) (w : Bool) (o : Gen1) (n : BitVec 18) (s : State) : Host.Outcome State Fault Refusal :=
  s.gen1 c w w o fun a => shrW (wbits w) a n.toNat

/-- `srai` (R223). -/
def execSrai (c : Ctl) (w : Bool) (o : Gen1) (n : BitVec 18) (s : State) : Host.Outcome State Fault Refusal :=
  s.gen1 c w w o fun a => sraW (wbits w) a n.toNat

/-- `roli` (R223). -/
def execRoli (c : Ctl) (w : Bool) (o : Gen1) (n : BitVec 18) (s : State) : Host.Outcome State Fault Refusal :=
  s.gen1 c w w o fun a => rolW (wbits w) a n.toNat

/-- `rori` (R223). -/
def execRori (c : Ctl) (w : Bool) (o : Gen1) (n : BitVec 18) (s : State) : Host.Outcome State Fault Refusal :=
  s.gen1 c w w o fun a => rorW (wbits w) a n.toNat

/-! ## Bit fields, counts, carry-less product and permutation -/

/-- `bfe` (R224). -/
def execBfe (c : Ctl) (sg w : Bool) (o : Gen1) (pos : BitVec 6) (len : BitVec 7) (s : State) :
    Host.Outcome State Fault Refusal :=
  s.gen1 c w w o fun a => bfeW sg (wbits w) a pos.toNat len.toNat

/-- `bfi` (R225). -/
def execBfi (c : Ctl) (w : Bool) (o : Gen2) (pos : BitVec 6) (len : BitVec 7) (s : State) :
    Host.Outcome State Fault Refusal :=
  s.gen2 c w w w o fun a b => bfiW a b pos.toNat len.toNat

/-- `popc` (R226): the result is a single register. -/
def execPopc (c : Ctl) (w : Bool) (o : Gen1) (s : State) : Host.Outcome State Fault Refusal :=
  s.gen1 c false w o (popcW (wbits w))

/-- `clz` (R226). -/
def execClz (c : Ctl) (w : Bool) (o : Gen1) (s : State) : Host.Outcome State Fault Refusal :=
  s.gen1 c false w o (clzW (wbits w))

/-- `ctz` (R226). -/
def execCtz (c : Ctl) (w : Bool) (o : Gen1) (s : State) : Host.Outcome State Fault Refusal :=
  s.gen1 c false w o (ctzW (wbits w))

/-- `brev` (R226). -/
def execBrev (c : Ctl) (w : Bool) (o : Gen1) (s : State) : Host.Outcome State Fault Refusal :=
  s.gen1 c w w o (brevW (wbits w))

/-- `bswap` (R226). -/
def execBswap (c : Ctl) (w : Bool) (o : Gen1) (s : State) : Host.Outcome State Fault Refusal :=
  s.gen1 c w w o (bswapW (wbits w))

/-- `clmul` (R227). -/
def execClmul (c : Ctl) (w : Bool) (o : Gen2) (s : State) : Host.Outcome State Fault Refusal :=
  s.gen2 c w w w o fun a b => clmulW (wbits w) a b

/-- `clmulh` (R227). -/
def execClmulh (c : Ctl) (w : Bool) (o : Gen2) (s : State) : Host.Outcome State Fault Refusal :=
  s.gen2 c w w w o fun a b => clmulW (wbits w) a b / 2 ^ wbits w

/-- `pxor` (R228). -/
def execPxor (c : Ctl) (w : Bool) (o : Gen1) (s : State) : Host.Outcome State Fault Refusal :=
  s.gen1 c w w o (pxorW (wbits w))

/-- `pdep` (R228). -/
def execPdep (c : Ctl) (w : Bool) (o : Gen2) (s : State) : Host.Outcome State Fault Refusal :=
  s.gen2 c w w w o (pdepW (wbits w))

/-- `pext` (R228). -/
def execPext (c : Ctl) (w : Bool) (o : Gen2) (s : State) : Host.Outcome State Fault Refusal :=
  s.gen2 c w w w o (pextW (wbits w))

/-! ## Comparison and selection -/

/-- `icmp` (R229). -/
def execIcmp (c : Ctl) (cond : ICond) (w : Bool) (p : BitVec 4) (o : Cmp2) (s : State) :
    Host.Outcome State Fault Refusal :=
  s.onWave c.rbf 0 fun s => s.setPreds p.toNat (s.active c.guard) (s.cmp2 w o (icondHolds cond (wbits w)))

/-- `icmpi` (R229). -/
def execIcmpi (c : Ctl) (cond : ICond) (w : Bool) (p : BitVec 4) (a : Cmp1) (imm : BitVec 18) (s : State) :
    Host.Outcome State Fault Refusal :=
  s.onWave c.rbf 0 fun s =>
    s.setPreds p.toNat (s.active c.guard) fun l => icondHolds cond (wbits w) (s.cmp1 w a l) (immW (wbits w) imm)

/-- `isel` (R230). -/
def execIsel (c : Ctl) (w uni : Bool) (d : Dst) (a : Src) (b : BSrc) (p : BitVec 4) (s : State) :
    Host.Outcome State Fault Refusal :=
  s.vec c uni d w fun s l => if s.w.predOf p l then s.w.src w a l else s.w.bsrc w b l

/-- The operations of `plop` (R231). -/
def plopB (op : POp) (a b : Bool) : Bool :=
  match op with
  | .and => a && b
  | .or => a || b
  | .xor => a != b
  | .andn => a && !b

/-- `plop` (R231). -/
def execPlop (c : Ctl) (op : POp) (pd pa pb : BitVec 4) (s : State) : Host.Outcome State Fault Refusal :=
  s.onWave c.rbf 0 fun s =>
    s.setPreds pd.toNat (s.active c.guard) fun l => plopB op (s.w.predOf pa l) (s.w.predOf pb l)

/-! ## Moves and addresses -/

/-- `mov` (R232). -/
def execMov (c : Ctl) (w : Bool) (o : GenM) (s : State) : Host.Outcome State Fault Refusal := s.genM c w o id

/-- `movi` (R232). -/
def execMovi (c : Ctl) (sg w : Bool) (o : Gen0) (imm : Word) (s : State) : Host.Outcome State Fault Refusal :=
  s.gen0 c w o (if w && sg then wrapN 64 imm.toInt else imm.toNat)

/-- The address that `lea` forms (R233). -/
def leaW (u : Bool) (sh : Nat) (imm : Word) (a b : Nat) : Nat :=
  wrapN 64 ((a : Int) + (if u then (b : Int) else sextN 32 b) * ((2 ^ sh : Nat) : Int) + imm.toInt)

/-- `lea` (R233). -/
def execLea (c : Ctl) (u : Bool) (sh : BitVec 3) (o : Gen2) (imm : Word) (s : State) : Host.Outcome State Fault Refusal :=
  s.gen2 c true true false o (leaW u sh.toNat imm)

/-- `lane` (R234). -/
def execLane (c : Ctl) (d : Dst) (s : State) : Host.Outcome State Fault Refusal := s.vec c false d false fun _ l => l

end Sys2Proof.Machine
end

