-- ==== Sys2Proof/Machine/Float.lean ====
section
/-! DEFINITION. Floating-point arithmetic, conversion, the random draw and the lane operations (R236 to R256). -/

namespace Sys2Proof.Machine
open Sys2Proof

/-! ## Elements (R138, R237) -/

def fWide (f : FFmt) : Bool := f == .f64

/-- Apply an operation to each element: one, or the two of a packed operand. -/
def elem1 (f : FFmt) (op : Nat → Nat) (a : Nat) : Nat :=
  match f with
  | .f32 | .f64 => op a
  | .f16 | .bf16 => op (a % 2 ^ 16) + op (a / 2 ^ 16) * 2 ^ 16

def elem2 (f : FFmt) (op : Nat → Nat → Nat) (a b : Nat) : Nat :=
  match f with
  | .f32 | .f64 => op a b
  | .f16 | .bf16 => op (a % 2 ^ 16) (b % 2 ^ 16) + op (a / 2 ^ 16) (b / 2 ^ 16) * 2 ^ 16

def elem3 (f : FFmt) (op : Nat → Nat → Nat → Nat) (a b e : Nat) : Nat :=
  match f with
  | .f32 | .f64 => op a b e
  | .f16 | .bf16 =>
    op (a % 2 ^ 16) (b % 2 ^ 16) (e % 2 ^ 16) + op (a / 2 ^ 16) (b / 2 ^ 16) (e / 2 ^ 16) * 2 ^ 16

def State.fop1 (s : State) (c : Ctl) (uni : Bool) (f : FFmt) (d : Dst) (a : Src) (op : NumFmt → Nat → Nat) :
    Host.Outcome State Fault Refusal :=
  s.vec c uni d (fWide f) fun s l => elem1 f (op (ffmtNum f)) (s.w.src (fWide f) a l)

def State.fop2 (s : State) (c : Ctl) (uni : Bool) (f : FFmt) (d : Dst) (a : Src) (b : BSrc)
    (op : NumFmt → Nat → Nat → Nat) : Host.Outcome State Fault Refusal :=
  s.vec c uni d (fWide f) fun s l => elem2 f (op (ffmtNum f)) (s.w.src (fWide f) a l) (s.w.bsrc (fWide f) b l)

def State.fop3 (s : State) (c : Ctl) (uni : Bool) (f : FFmt) (d : Dst) (a : Src) (b : BSrc) (e : Src)
    (op : NumFmt → Nat → Nat → Nat → Nat) : Host.Outcome State Fault Refusal :=
  s.vec c uni d (fWide f) fun s l =>
    elem3 f (op (ffmtNum f)) (s.w.src (fWide f) a l) (s.w.bsrc (fWide f) b l) (s.w.src (fWide f) e l)

/-! ## Arithmetic (R241) -/

def faddM (m : RMode) (f : NumFmt) (x y : Nat) : Nat := faddE f m x y
def fsubM (m : RMode) (f : NumFmt) (x y : Nat) : Nat := f.round m 0 false (sumFV m [f.decode x, (f.decode y).negate])
def fmulM (m : RMode) (f : NumFmt) (x y : Nat) : Nat := f.round m 0 false (mulFV (f.decode x) (f.decode y))
def fdivM (m : RMode) (f : NumFmt) (x y : Nat) : Nat := divF f m (f.decode x) (f.decode y)
def ffmaM (m : RMode) (f : NumFmt) (x y z : Nat) : Nat :=
  f.round m 0 false (sumFV m [mulFV (f.decode x) (f.decode y), f.decode z])
def ffmsM (m : RMode) (f : NumFmt) (x y z : Nat) : Nat :=
  f.round m 0 false (sumFV m [mulFV (f.decode x) (f.decode y), (f.decode z).negate])
def fnmaM (m : RMode) (f : NumFmt) (x y z : Nat) : Nat :=
  f.round m 0 false (sumFV m [(mulFV (f.decode x) (f.decode y)).negate, f.decode z])

/-- `fadd` (R241). -/
def execFadd (c : Ctl) (uni : Bool) (fmt : FFmt) (rm : RMode) (d : Dst) (a : Src) (b : BSrc) (s : State) :
    Host.Outcome State Fault Refusal := s.fop2 c uni fmt d a b (faddM rm)

/-- `fsub` (R241). -/
def execFsub (c : Ctl) (uni : Bool) (fmt : FFmt) (rm : RMode) (d : Dst) (a : Src) (b : BSrc) (s : State) :
    Host.Outcome State Fault Refusal := s.fop2 c uni fmt d a b (fsubM rm)

/-- `fmul` (R241). -/
def execFmul (c : Ctl) (uni : Bool) (fmt : FFmt) (rm : RMode) (d : Dst) (a : Src) (b : BSrc) (s : State) :
    Host.Outcome State Fault Refusal := s.fop2 c uni fmt d a b (fmulM rm)

/-- `fdiv` (R241, R150). -/
def execFdiv (c : Ctl) (uni : Bool) (fmt : FFmt) (rm : RMode) (d : Dst) (a : Src) (b : BSrc) (s : State) :
    Host.Outcome State Fault Refusal := s.fop2 c uni fmt d a b (fdivM rm)

/-- `fsqrt` (R241, R150). -/
def execFsqrt (c : Ctl) (uni : Bool) (fmt : FFmt) (rm : RMode) (d : Dst) (a : Src) (s : State) :
    Host.Outcome State Fault Refusal := s.fop1 c uni fmt d a fun f x => sqrtF f rm (f.decode x)

/-- `ffma` (R241): one rounding. -/
def execFfma (c : Ctl) (uni : Bool) (fmt : FFmt) (rm : RMode) (d : Dst) (a : Src) (b : BSrc) (e : Src) (s : State) :
    Host.Outcome State Fault Refusal := s.fop3 c uni fmt d a b e (ffmaM rm)

/-- `ffms` (R241). -/
def execFfms (c : Ctl) (uni : Bool) (fmt : FFmt) (rm : RMode) (d : Dst) (a : Src) (b : BSrc) (e : Src) (s : State) :
    Host.Outcome State Fault Refusal := s.fop3 c uni fmt d a b e (ffmsM rm)

/-- `fnma` (R241): the product is negated before the rounding. -/
def execFnma (c : Ctl) (uni : Bool) (fmt : FFmt) (rm : RMode) (d : Dst) (a : Src) (b : BSrc) (e : Src) (s : State) :
    Host.Outcome State Fault Refusal := s.fop3 c uni fmt d a b e (fnmaM rm)

/-! ## Exact operations (R242) -/

/-- `fmin` (R242, R151). -/
def execFmin (c : Ctl) (uni : Bool) (fmt : FFmt) (d : Dst) (a : Src) (b : BSrc) (s : State) :
    Host.Outcome State Fault Refusal := s.fop2 c uni fmt d a b fminE

/-- `fmax` (R242, R151). -/
def execFmax (c : Ctl) (uni : Bool) (fmt : FFmt) (d : Dst) (a : Src) (b : BSrc) (s : State) :
    Host.Outcome State Fault Refusal := s.fop2 c uni fmt d a b fmaxE

/-- The value with a given sign; a NaN gives the default NaN (R242). -/
def signedAs (f : NumFmt) (x : Nat) (neg : Bool) : Nat :=
  if (f.decode x).isNan then f.dnan else f.sign neg (x % 2 ^ (f.eb + f.mb))

def NumFmt.signOf (f : NumFmt) (x : Nat) : Bool := bitN x (f.eb + f.mb)

/-- `fabs` (R242). -/
def execFabs (c : Ctl) (uni : Bool) (fmt : FFmt) (d : Dst) (a : Src) (s : State) : Host.Outcome State Fault Refusal :=
  s.fop1 c uni fmt d a fun f x => signedAs f x false

/-- `fneg` (R242). -/
def execFneg (c : Ctl) (uni : Bool) (fmt : FFmt) (d : Dst) (a : Src) (s : State) : Host.Outcome State Fault Refusal :=
  s.fop1 c uni fmt d a fun f x => signedAs f x (!f.signOf x)

/-- `fsgn` (R242). -/
def execFsgn (c : Ctl) (uni : Bool) (fmt : FFmt) (d : Dst) (a : Src) (b : BSrc) (s : State) :
    Host.Outcome State Fault Refusal := s.fop2 c uni fmt d a b fun f x y => signedAs f x (f.signOf y)

/-- `frcp` (R243). -/
def execFrcp (c : Ctl) (uni : Bool) (fmt : FFmt) (d : Dst) (a : Src) (s : State) : Host.Outcome State Fault Refusal :=
  s.fop1 c uni fmt d a fun f x => rcpF f (f.decode x)

/-- `frsq` (R243). -/
def execFrsq (c : Ctl) (uni : Bool) (fmt : FFmt) (d : Dst) (a : Src) (s : State) : Host.Outcome State Fault Refusal :=
  s.fop1 c uni fmt d a fun f x => rsqF f (f.decode x)

/-! ## Comparison and classes -/

/-- `fcmp` (R244). -/
def execFcmp (c : Ctl) (cond : FCond) (f64 : Bool) (p : BitVec 4) (a : Src) (b : BSrc) (s : State) :
    Host.Outcome State Fault Refusal :=
  s.onWave c.rbf 0 fun s =>
    let f := if f64 then fF64 else fF32
    s.setPreds p.toNat (s.active c.guard) fun l =>
      fcondHolds cond (f.decode (s.w.src f64 a l)) (f.decode (s.w.bsrc f64 b l))

/-- `fclass` (R245): a single register, even under .f64. -/
def execFclass (c : Ctl) (uni : Bool) (fmt : FFmt) (d : Dst) (a : Src) (s : State) : Host.Outcome State Fault Refusal :=
  s.vec c uni d false fun s l => elem1 fmt (ffmtNum fmt).classMask (s.w.src (fWide fmt) a l)

/-! ## Conversion and draw -/

/-- How many results (R246). -/
def ccntN (c : CCnt) : Nat :=
  match c with
  | .x1 => 1
  | .x2 => 2
  | .x4 => 4

/-- The converted elements of one lane, packed (R248). -/
def cvtLane (w : Wave) (dty sty : CTy) (sel : Nat) (cnt : Nat) (rm : RMode) (sat : Bool) (srcs : List Src) (ei : Src)
    (sb : Nat) (l : Nat) : Nat :=
  let sw := sty.width
  let dw := dty.width
  ((List.range cnt).map fun k =>
    let x := w.src (sw == 64) (listGet (.reg 0) srcs k) l
    let x := if sw < 32 then bitsN x (sw * sel + sw - 1) (sw * sel) else x
    let draw := match rm with
      | .sr => drawRound (w.sreg sb).toNat (w.sreg (sb + 1)).toNat ((w.src true ei l + k) % 2 ^ 64) (w.sreg (sb + 2)).toNat
      | _ => 0
    convert dty sty rm draw sat x * 2 ^ (dw * k)).foldl (· + ·) 0

/-- `cvt` (R248). -/
def execCvt (c : Ctl) (uni : Bool) (dty sty : CTy) (sel : BitVec 2) (cnt : CCnt) (rm : RMode) (sat : Bool) (d : Dst)
    (a b e f : Src) (ei : Src) (sb : SReg) (s : State) : Host.Outcome State Fault Refusal :=
  s.vec c uni d (dty.width == 64) fun s l =>
    cvtLane s.w dty sty sel.toNat (ccntN cnt) rm sat [a, b, e, f] ei sb.toNat l

/-- Word `i` of a draw. -/
def drawWord (x : Nat × Nat × Nat × Nat) (i : Nat) : Nat :=
  match i with
  | 0 => x.1
  | 1 => x.2.1
  | 2 => x.2.2.1
  | _ => x.2.2.2

/-- `rng` (R250). -/
def execRng (c : Ctl) (uni : Bool) (wsel : BitVec 2) (d : Dst) (e : Src) (j : BSrc) (sb : SReg) (s : State) :
    Host.Outcome State Fault Refusal :=
  s.vec c uni d false fun s l =>
    let w := s.w
    drawWord (drawWords (w.sreg sb.toNat).toNat (w.sreg (sb.toNat + 1)).toNat (w.src true e l) (w.sreg (sb.toNat + 2)).toNat
      (w.bsrc false j l)) wsel.toNat

/-! ## Lane operations -/

/-- The group of a lane (R251). -/
def State.laneGroup (s : State) (g : Guard) (l : Nat) : Mask := if s.focus.bc then s.active g else laneMask l

/-- The lane that `shfl` reads (R253). -/
def shflFrom (m : ShflMode) (l b : Nat) : Option Nat :=
  match m with
  | .idx => if b < 32 then some b else none
  | .up => if b ≤ l then some (l - b) else none
  | .down => if l + b < 32 then some (l + b) else none
  | .xor => if b < 32 then some (l ^^^ b) else none

/-- `shfl` (R253). -/
def execShfl (c : Ctl) (mode : ShflMode) (d : Dst) (a : Src) (b : BSrc) (s : State) : Host.Outcome State Fault Refusal :=
  s.vec c false d false fun s l =>
    match shflFrom mode l (s.w.bsrc false b l) with
    | some m => s.w.src false a (if hasLane (s.laneGroup c.guard l) m then m else l)
    | none => s.w.src false a l

/-- The value of a vote over a group (R254). -/
def voteVal (op : VoteOp) (g p : Mask) : Nat :=
  match op with
  | .any => b2n (g &&& p != 0)
  | .all => b2n (g &&& ~~~ p == 0)
  | .ballot => (g &&& p).toNat
  | .eq => b2n (g &&& p == 0 || g &&& ~~~ p == 0)

/-- `vote` (R254). -/
def execVote (c : Ctl) (op : VoteOp) (d : Dst) (p : BitVec 4) (s : State) : Host.Outcome State Fault Refusal :=
  s.vec c false d false fun s l => voteVal op (s.laneGroup c.guard l) (s.w.pred p.toNat)

def laneTyWide (t : LaneTy) : Bool :=
  match t with
  | .u64 | .s64 | .f64 => true
  | _ => false

def laneTyFloat (t : LaneTy) : Option NumFmt :=
  match t with
  | .f32 => some fF32
  | .f64 => some fF64
  | _ => none

def laneTySigned (t : LaneTy) : Bool :=
  match t with
  | .s32 | .s64 => true
  | _ => false

/-- One combine (R255). -/
def laneCombine (op : LaneOp) (t : LaneTy) (x y : Nat) : Nat :=
  let n := wbits (laneTyWide t)
  match laneTyFloat t, op with
  | some f, .add => faddE f .rn x y
  | some f, .min => fminE f x y
  | some f, .max => fmaxE f x y
  | _, .add => (x + y) % 2 ^ n
  | _, .min => minW (laneTySigned t) n x y
  | _, .max => maxW (laneTySigned t) n x y
  | _, .and => x &&& y
  | _, .or => x ||| y
  | _, .xor => x ^^^ y

/-- The identity of an exclusive fold (R256). -/
def laneIdent (op : LaneOp) (t : LaneTy) : Nat :=
  let n := wbits (laneTyWide t)
  match laneTyFloat t, op with
  | some f, .add => f.sign true 0
  | some f, .min => f.infEnc
  | some f, .max => f.sign true f.infEnc
  | _, .and => 2 ^ n - 1
  | _, .min => if laneTySigned t then 2 ^ (n - 1) - 1 else 2 ^ n - 1
  | _, .max => if laneTySigned t then 2 ^ (n - 1) else 0
  | _, _ => 0

/-- A leaf as a result: a NaN is the default NaN, even where it is the only leaf (R137). -/
def laneLeaf (t : LaneTy) (x : Nat) : Nat :=
  match laneTyFloat t with
  | some f => if (f.decode x).isNan then f.dnan else x
  | none => x

/-- The leaves of a group (R255). -/
def Wave.leaves (w : Wave) (t : LaneTy) (a : Src) (g : Mask) : List Nat :=
  (lanesOf g).map fun l => laneLeaf t (w.src (laneTyWide t) a l)

/-- `lred` (R255). -/
def execLred (c : Ctl) (op : LaneOp) (ty : LaneTy) (d : Dst) (a : Src) (s : State) : Host.Outcome State Fault Refusal :=
  s.vec c false d (laneTyWide ty) fun s l =>
    treeSum (laneCombine op ty) 0 (s.w.leaves ty a (s.laneGroup c.guard l))

/-- A left fold; the identity where there is no leaf. -/
def foldLeft (f : Nat → Nat → Nat) (e : Nat) : List Nat → Nat
  | [] => e
  | x :: xs => xs.foldl f x

/-- `lscan` (R256). -/
def execLscan (c : Ctl) (op : LaneOp) (ty : LaneTy) (x : Bool) (d : Dst) (a : Src) (s : State) :
    Host.Outcome State Fault Refusal :=
  s.vec c false d (laneTyWide ty) fun s l =>
    let g := maskOf ((lanesOf (s.laneGroup c.guard l)).filter fun m => if x then decide (m < l) else decide (m ≤ l))
    foldLeft (laneCombine op ty) (laneIdent op ty) (s.w.leaves ty a g)

end Sys2Proof.Machine
end

