-- ==== Sys2Proof/Machine/Dispatch.lean ====
section
/-! DEFINITION. One step of one instruction or event: one arm per constructor, each one call of its meaning. -/

namespace Sys2Proof.Machine
open Sys2Proof

def exec (i : Instr) (s : State) : Host.Outcome State Fault Refusal :=
  match i with
  | .nop len rbf => Sys2Proof.Machine.execNop len rbf s
  | .hint len rbf rest => Sys2Proof.Machine.execHint len rbf rest s
  | .br c off => Sys2Proof.Machine.execBr c off s
  | .bcmp c cond w o off => Sys2Proof.Machine.execBcmp c cond w o off s
  | .dbnz c w r off => Sys2Proof.Machine.execDbnz c w r off s
  | .brx c t => Sys2Proof.Machine.execBrx c t s
  | .ret c t => Sys2Proof.Machine.execRet c t s
  | .btab c base idx n => Sys2Proof.Machine.execBtab c base idx n s
  | .call c link off => Sys2Proof.Machine.execCall c link off s
  | .callx c link t => Sys2Proof.Machine.execCallx c link t s
  | .rcvArm c rb => Sys2Proof.Machine.execRcvArm c rb s
  | .rcvJoin c rb => Sys2Proof.Machine.execRcvJoin c rb s
  | .rcvDrop c rb => Sys2Proof.Machine.execRcvDrop c rb s
  | .brk c code => Sys2Proof.Machine.execBrk c code s
  | .add c w o => Sys2Proof.Machine.execAdd c w o s
  | .sub c w o => Sys2Proof.Machine.execSub c w o s
  | .mul c w o => Sys2Proof.Machine.execMul c w o s
  | .mulh c sg w o => Sys2Proof.Machine.execMulh c sg w o s
  | .mad c w o => Sys2Proof.Machine.execMad c w o s
  | .div c sg w o => Sys2Proof.Machine.execDiv c sg w o s
  | .rem c sg w o => Sys2Proof.Machine.execRem c sg w o s
  | .min c sg w o => Sys2Proof.Machine.execMin c sg w o s
  | .max c sg w o => Sys2Proof.Machine.execMax c sg w o s
  | .adds c sg w o => Sys2Proof.Machine.execAdds c sg w o s
  | .subs c sg w o => Sys2Proof.Machine.execSubs c sg w o s
  | .abs c w o => Sys2Proof.Machine.execAbs c w o s
  | .addi c w o imm => Sys2Proof.Machine.execAddi c w o imm s
  | .and c w o => Sys2Proof.Machine.execAnd c w o s
  | .or c w o => Sys2Proof.Machine.execOr c w o s
  | .xor c w o => Sys2Proof.Machine.execXor c w o s
  | .andn c w o => Sys2Proof.Machine.execAndn c w o s
  | .andi c w o imm => Sys2Proof.Machine.execAndi c w o imm s
  | .ori c w o imm => Sys2Proof.Machine.execOri c w o imm s
  | .xori c w o imm => Sys2Proof.Machine.execXori c w o imm s
  | .shl c w o => Sys2Proof.Machine.execShl c w o s
  | .shr c w o => Sys2Proof.Machine.execShr c w o s
  | .sra c w o => Sys2Proof.Machine.execSra c w o s
  | .rol c w o => Sys2Proof.Machine.execRol c w o s
  | .ror c w o => Sys2Proof.Machine.execRor c w o s
  | .shli c w o n => Sys2Proof.Machine.execShli c w o n s
  | .shri c w o n => Sys2Proof.Machine.execShri c w o n s
  | .srai c w o n => Sys2Proof.Machine.execSrai c w o n s
  | .roli c w o n => Sys2Proof.Machine.execRoli c w o n s
  | .rori c w o n => Sys2Proof.Machine.execRori c w o n s
  | .bfe c sg w o pos len => Sys2Proof.Machine.execBfe c sg w o pos len s
  | .bfi c w o pos len => Sys2Proof.Machine.execBfi c w o pos len s
  | .popc c w o => Sys2Proof.Machine.execPopc c w o s
  | .clz c w o => Sys2Proof.Machine.execClz c w o s
  | .ctz c w o => Sys2Proof.Machine.execCtz c w o s
  | .brev c w o => Sys2Proof.Machine.execBrev c w o s
  | .bswap c w o => Sys2Proof.Machine.execBswap c w o s
  | .clmul c w o => Sys2Proof.Machine.execClmul c w o s
  | .clmulh c w o => Sys2Proof.Machine.execClmulh c w o s
  | .pxor c w o => Sys2Proof.Machine.execPxor c w o s
  | .pdep c w o => Sys2Proof.Machine.execPdep c w o s
  | .pext c w o => Sys2Proof.Machine.execPext c w o s
  | .icmp c cond w p o => Sys2Proof.Machine.execIcmp c cond w p o s
  | .icmpi c cond w p a imm => Sys2Proof.Machine.execIcmpi c cond w p a imm s
  | .isel c w uni d a b p => Sys2Proof.Machine.execIsel c w uni d a b p s
  | .plop c op pd pa pb => Sys2Proof.Machine.execPlop c op pd pa pb s
  | .mov c w o => Sys2Proof.Machine.execMov c w o s
  | .movi c sg w o imm => Sys2Proof.Machine.execMovi c sg w o imm s
  | .lea c u sh o imm => Sys2Proof.Machine.execLea c u sh o imm s
  | .lane c d => Sys2Proof.Machine.execLane c d s
  | .fadd c uni fmt rm d a b => Sys2Proof.Machine.execFadd c uni fmt rm d a b s
  | .fsub c uni fmt rm d a b => Sys2Proof.Machine.execFsub c uni fmt rm d a b s
  | .fmul c uni fmt rm d a b => Sys2Proof.Machine.execFmul c uni fmt rm d a b s
  | .fdiv c uni fmt rm d a b => Sys2Proof.Machine.execFdiv c uni fmt rm d a b s
  | .fsqrt c uni fmt rm d a => Sys2Proof.Machine.execFsqrt c uni fmt rm d a s
  | .ffma c uni fmt rm d a b e => Sys2Proof.Machine.execFfma c uni fmt rm d a b e s
  | .ffms c uni fmt rm d a b e => Sys2Proof.Machine.execFfms c uni fmt rm d a b e s
  | .fnma c uni fmt rm d a b e => Sys2Proof.Machine.execFnma c uni fmt rm d a b e s
  | .fmin c uni fmt d a b => Sys2Proof.Machine.execFmin c uni fmt d a b s
  | .fmax c uni fmt d a b => Sys2Proof.Machine.execFmax c uni fmt d a b s
  | .fabs c uni fmt d a => Sys2Proof.Machine.execFabs c uni fmt d a s
  | .fneg c uni fmt d a => Sys2Proof.Machine.execFneg c uni fmt d a s
  | .fsgn c uni fmt d a b => Sys2Proof.Machine.execFsgn c uni fmt d a b s
  | .frcp c uni fmt d a => Sys2Proof.Machine.execFrcp c uni fmt d a s
  | .frsq c uni fmt d a => Sys2Proof.Machine.execFrsq c uni fmt d a s
  | .fcmp c cond f64 p a b => Sys2Proof.Machine.execFcmp c cond f64 p a b s
  | .fclass c uni fmt d a => Sys2Proof.Machine.execFclass c uni fmt d a s
  | .cvt c uni dty sty sel cnt rm sat d a b e f ei sb => Sys2Proof.Machine.execCvt c uni dty sty sel cnt rm sat d a b e f ei sb s
  | .rng c uni wsel d e j sb => Sys2Proof.Machine.execRng c uni wsel d e j sb s
  | .shfl c mode d a b => Sys2Proof.Machine.execShfl c mode d a b s
  | .vote c op d p => Sys2Proof.Machine.execVote c op d p s
  | .lred c op ty d a => Sys2Proof.Machine.execLred c op ty d a s
  | .lscan c op ty x d a => Sys2Proof.Machine.execLscan c op ty x d a s
  | .ld c sz m o off => Sys2Proof.Machine.execLd c sz m o off s
  | .st c sz m o off => Sys2Proof.Machine.execSt c sz m o off s
  | .stCr c w m o off => Sys2Proof.Machine.execStCr c w m o off s
  | .lds c uni sz pclr m d a off => Sys2Proof.Machine.execLds c uni sz pclr m d a off s
  | .sts c uni sz pset m a data off => Sys2Proof.Machine.execSts c uni sz pset m a data off s
  | .ldc c uni sz pclr m d a core off => Sys2Proof.Machine.execLdc c uni sz pclr m d a core off s
  | .stc c uni sz pset m a core data off => Sys2Proof.Machine.execStc c uni sz pset m a core data off s
  | .ldv c uni sz m d base sM sC off => Sys2Proof.Machine.execLdv c uni sz m d base sM sC off s
  | .vupd c add fmt rm m d sB sS sP => Sys2Proof.Machine.execVupd c add fmt rm m d sB sS sP s
  | .vstepRd c m d sB => Sys2Proof.Machine.execVstepRd c m d sB s
  | .vstepSet c m sB sU => Sys2Proof.Machine.execVstepSet c m sB sU s
  | .atom c uni op w m d base b e off => Sys2Proof.Machine.execAtom c uni op w m d base b e off s
  | .mwait c w m d sA sE sT off => Sys2Proof.Machine.execMwait c w m d sA sE sT off s
  | .fence c strict ord scope p => Sys2Proof.Machine.execFence c strict ord scope p s
  | .seal c m sB sL => Sys2Proof.Machine.execSeal c m sB sL s
  | .unseal c m sB sL => Sys2Proof.Machine.execUnseal c m sB sL s
  | .crdecl c op m sB sL => Sys2Proof.Machine.execCrdecl c op m sB sL s
  | .crflush c fin m sB => Sys2Proof.Machine.execCrflush c fin m sB s
  | .prefetch c uni home evict base idx off => Sys2Proof.Machine.execPrefetch c uni home evict base idx off s
  | .cpy c sk dk q sS sD sL => Sys2Proof.Machine.execCpy c sk dk q sS sD sL s
  | .cseal c => Sys2Proof.Machine.execCseal c s
  | .cwait c n p => Sys2Proof.Machine.execCwait c n p s
  | .ropCas c m n d sA sB sC off => Sys2Proof.Machine.execRopCas c m n d sA sB sC off s
  | .ropEnq c m d sA sB off => Sys2Proof.Machine.execRopEnq c m d sA sB off s
  | .ropChase c m d sA sH off => Sys2Proof.Machine.execRopChase c m d sA sH off s
  | .flq c clr d sI => Sys2Proof.Machine.execFlq c clr d sI s
  | .mma c fmt sf vC b bsw aoq vA vB asel bsel => Sys2Proof.Machine.execMma c fmt sf vC b bsw aoq vA vB asel bsel s
  | .mgat c kind d vI sB sR n ro => Sys2Proof.Machine.execMgat c kind d vI sB sR n ro s
  | .mldt c kind d vI sP n ro => Sys2Proof.Machine.execMldt c kind d vI sP n ro s
  | .mst c dfmt sf64 sq rm sat pset sB vI sR vC cnt ve sb => Sys2Proof.Machine.execMst c dfmt sf64 sq rm sat pset sB vI sR vC cnt ve sb s
  | .mzero c uni w cnt vC => Sys2Proof.Machine.execMzero c uni w cnt vC s
  | .tred c w pset sS sO sL sD => Sys2Proof.Machine.execTred c w pset sS sO sL sD s
  | .msf c vS => Sys2Proof.Machine.execMsf c vS s
  | .xloop n e => Sys2Proof.Machine.execXloop n e s
  | .tadr d t k => Sys2Proof.Machine.execTadr d t k s
  | .tin d t k => Sys2Proof.Machine.execTin d t k s
  | .tinc d t k => Sys2Proof.Machine.execTinc d t k s
  | .lidx w d a e => Sys2Proof.Machine.execLidx w d a e s
  | .xfer sk dk sg d l => Sys2Proof.Machine.execXfer sk dk sg d l s
  | .xferG sk dk sg d ig r rb n => Sys2Proof.Machine.execXferG sk dk sg d ig r rb n s
  | .xferT sk dk t d => Sys2Proof.Machine.execXferT sk dk t d s
  | .cgen a => Sys2Proof.Machine.execCgen a s
  | .xwait d => Sys2Proof.Machine.execXwait d s
  | .cba c cb k => Sys2Proof.Machine.execCba c cb k s
  | .cbw c cb k => Sys2Proof.Machine.execCbw c cb k s
  | .cbset c cb k => Sys2Proof.Machine.execCbset c cb k s
  | .chain x h => Sys2Proof.Machine.execChain x h s
  | .xhalt => Sys2Proof.Machine.execXhalt s
  | .exit c n sB => Sys2Proof.Machine.execExit c n sB s
  | .wbar c => Sys2Proof.Machine.execWbar c s
  | .sbar c sS => Sys2Proof.Machine.execSbar c sS s
  | .rclaim c n => Sys2Proof.Machine.execRclaim c n s
  | .rrel c n => Sys2Proof.Machine.execRrel c n s
  | .aset c sB sL sI => Sys2Proof.Machine.execAset c sB sL sI s
  | .asetDel c sI => Sys2Proof.Machine.execAsetDel c sI s
  | .age c sD => Sys2Proof.Machine.execAge c sD s
  | .ageLt c p sA => Sys2Proof.Machine.execAgeLt c p sA s
  | .yield c => Sys2Proof.Machine.execYield c s
  | .collRed c q sP => Sys2Proof.Machine.execCollRed c q sP s
  | .collA2a c q sP => Sys2Proof.Machine.execCollA2a c q sP s
  | .collBcast c q sP => Sys2Proof.Machine.execCollBcast c q sP s
  | .collBar c q sP => Sys2Proof.Machine.execCollBar c q sP s
  | .collRes c sD q => Sys2Proof.Machine.execCollRes c sD q s
  | .pstep c sS sC => Sys2Proof.Machine.execPstep c sS sC s
  | .trap c code => Sys2Proof.Machine.execTrap c code s
  | .rftNext c wr => Sys2Proof.Machine.execRftNext c wr s
  | .rftAgain c wr => Sys2Proof.Machine.execRftAgain c wr s
  | .rftEnd c wr => Sys2Proof.Machine.execRftEnd c wr s
  | .csrr c sD num => Sys2Proof.Machine.execCsrr c sD num s
  | .csrw c num sA => Sys2Proof.Machine.execCsrw c num sA s
  | .csrwXpChan c x sA => Sys2Proof.Machine.execCsrwXpChan c x sA s
  | .csrwFltTail c sA => Sys2Proof.Machine.execCsrwFltTail c sA s
  | .csrwDbgCtl c sA => Sys2Proof.Machine.execCsrwDbgCtl c sA s
  | .gen c sD => Sys2Proof.Machine.execGen c sD s
  | .runGrant core sched image => Sys2Proof.Machine.execRunGrant core sched image s
  | .distributorPlace => Sys2Proof.Machine.execDistributorPlace s
  | .gangReserve => Sys2Proof.Machine.execGangReserve s
  | .gangRelease => Sys2Proof.Machine.execGangRelease s
  | .coreAdmit core image => Sys2Proof.Machine.execCoreAdmit core image s
  | .stealAttempt core => Sys2Proof.Machine.execStealAttempt core s
  | .rclaimServe core => Sys2Proof.Machine.execRclaimServe core s
  | .claimDeadlock core => Sys2Proof.Machine.execClaimDeadlock core s
  | .homeTokenRequest core line write ok => Sys2Proof.Machine.execHomeTokenRequest core line write ok s
  | .persistentRequest line => Sys2Proof.Machine.execPersistentRequest line s
  | .ldvStalenessTimeout core slot => Sys2Proof.Machine.execLdvStalenessTimeout core slot s
  | .mwaitTimeout core slot => Sys2Proof.Machine.execMwaitTimeout core slot s
  | .copyComplete core id => Sys2Proof.Machine.execCopyComplete core id s
  | .xpEngineTurn core x bytes => Sys2Proof.Machine.execXpEngineTurn core x bytes s
  | .programTransferComplete core x id => Sys2Proof.Machine.execProgramTransferComplete core x id s
  | .chainWalkStart core x => Sys2Proof.Machine.execChainWalkStart core x s
  | .recCopy core x => Sys2Proof.Machine.execRecCopy core x s
  | .recLoadImage core x => Sys2Proof.Machine.execRecLoadImage core x s
  | .recStartProgram core x => Sys2Proof.Machine.execRecStartProgram core x s
  | .recArriveOnly core x => Sys2Proof.Machine.execRecArriveOnly core x s
  | .recOffloadOut core x => Sys2Proof.Machine.execRecOffloadOut core x s
  | .recOffloadIn core x => Sys2Proof.Machine.execRecOffloadIn core x s
  | .recBad core x => Sys2Proof.Machine.execRecBad core x s
  | .offloadOutComplete core x => Sys2Proof.Machine.execOffloadOutComplete core x s
  | .offloadInComplete core x => Sys2Proof.Machine.execOffloadInComplete core x s
  | .tredComplete core slot => Sys2Proof.Machine.execTredComplete core slot s
  | .sideLogReplay core idx => Sys2Proof.Machine.execSideLogReplay core idx s
  | .faultRecordWrite slot => Sys2Proof.Machine.execFaultRecordWrite slot s
  | .resolutionObserved core rec => Sys2Proof.Machine.execResolutionObserved core rec s
  | .handlerWaveForm core => Sys2Proof.Machine.execHandlerWaveForm core s
  | .poisonSector pa => Sys2Proof.Machine.execPoisonSector pa s
  | .coreDisable core => Sys2Proof.Machine.execCoreDisable core s
  | .remoteAccessReceive p => Sys2Proof.Machine.execRemoteAccessReceive p s
  | .flowAck flow seq ans => Sys2Proof.Machine.execFlowAck flow seq ans s
  | .flowRetransmit flow seq port => Sys2Proof.Machine.execFlowRetransmit flow seq port s
  | .flowTimeout flow seq => Sys2Proof.Machine.execFlowTimeout flow seq s
  | .linkRetrain port => Sys2Proof.Machine.execLinkRetrain port s
  | .retrainBound port up => Sys2Proof.Machine.execRetrainBound port up s
  | .flitTagFail port dir => Sys2Proof.Machine.execFlitTagFail port dir s
  | .linkRekey port dir => Sys2Proof.Machine.execLinkRekey port dir s
  | .engineChunk die => Sys2Proof.Machine.execEngineChunk die s
  | .contributionArrival comm rank step data => Sys2Proof.Machine.execContributionArrival comm rank step data s
  | .closureTimerExpiry comm op step => Sys2Proof.Machine.execClosureTimerExpiry comm op step s
  | .resultArrival comm step st cnt late data => Sys2Proof.Machine.execResultArrival comm step st cnt late data s
  | .publicationArrival comm rank step => Sys2Proof.Machine.execPublicationArrival comm rank step s
  | .silenceTimeout comm rank => Sys2Proof.Machine.execSilenceTimeout comm rank s
  | .hostBar2Access off data len => Sys2Proof.Machine.execHostBar2Access off data len s
  | .chHead ch head => Sys2Proof.Machine.execChHead ch head s
  | .chStatClear ch => Sys2Proof.Machine.execChStatClear ch s
  | .launchRecord => Sys2Proof.Machine.execLaunchRecord s
  | .launchComplete root => Sys2Proof.Machine.execLaunchComplete root s
  | .xphHead core x head => Sys2Proof.Machine.execXphHead core x head s
  | .xphStatClear bits => Sys2Proof.Machine.execXphStatClear bits s
  | .hostRegisterWrite off val => Sys2Proof.Machine.execHostRegisterWrite off val s
  | .mbCreateSlot => Sys2Proof.Machine.execMbCreateSlot s
  | .mbEndSlot => Sys2Proof.Machine.execMbEndSlot s
  | .mbAssignFrames => Sys2Proof.Machine.execMbAssignFrames s
  | .mbRouteEntry => Sys2Proof.Machine.execMbRouteEntry s
  | .mbCreateCommunicator => Sys2Proof.Machine.execMbCreateCommunicator s
  | .mbEndCommunicator => Sys2Proof.Machine.execMbEndCommunicator s
  | .mbCheckpoint => Sys2Proof.Machine.execMbCheckpoint s
  | .mbRestore => Sys2Proof.Machine.execMbRestore s
  | .mbAttest => Sys2Proof.Machine.execMbAttest s
  | .mbReadWave => Sys2Proof.Machine.execMbReadWave s
  | .mbFirmwareUpdate verified => Sys2Proof.Machine.execMbFirmwareUpdate verified s
  | .mbSetDevice => Sys2Proof.Machine.execMbSetDevice s
  | .mbBadCommand cmd => Sys2Proof.Machine.execMbBadCommand cmd s
  | .checkpointDone => Sys2Proof.Machine.execCheckpointDone s
  | .deviceStart how => Sys2Proof.Machine.execDeviceStart how s
  | .fabricPortDown port => Sys2Proof.Machine.execFabricPortDown port s
  | .hostLinkDegrade link => Sys2Proof.Machine.execHostLinkDegrade link s
  | .clockThrottle up => Sys2Proof.Machine.execClockThrottle up s
  | .thermalHalt core => Sys2Proof.Machine.execThermalHalt core s
  | .thermalRelease => Sys2Proof.Machine.execThermalRelease s
  | .collectiveMessageArrival comm rank op step len data => Sys2Proof.Machine.execCollectiveMessageArrival comm rank op step len data s
  | .memberResultTimeout comm step => Sys2Proof.Machine.execMemberResultTimeout comm step s
  | .flowQueryReceive dev flow seq => Sys2Proof.Machine.execFlowQueryReceive dev flow seq s
  | .flowQueryAnswer core slot performed => Sys2Proof.Machine.execFlowQueryAnswer core slot performed s
  | .flowQueryTimeout core slot => Sys2Proof.Machine.execFlowQueryTimeout core slot s
  | .speculativeAccess core slot va => Sys2Proof.Machine.execSpeculativeAccess core slot va s
  | .corePowerGate core gate => Sys2Proof.Machine.execCorePowerGate core gate s
  | .hostLinkDown link down => Sys2Proof.Machine.execHostLinkDown link down s
  | .correctableError die => Sys2Proof.Machine.execCorrectableError die s

end Sys2Proof.Machine
end

