-- ==== Sys2Proof/Machine/Step.lean ====
section
/-! DEFINITION. One step of the machine: the next turn of the tape, or of the fixed policy, moves one agent. -/

namespace Sys2Proof.Machine
open Sys2Proof

/-- Let an agent move. -/
def State.move (s : State) (a : Act) : Host.Outcome State Fault Refusal :=
  match a with
  | .event i => if isEvent i then exec i s else .next s
  | .wave core sched =>
    match listGet none (s.core core).grants sched with
    | none => exec (.runGrant core sched .keep) s
    | some g =>
      match s.nextWave core g.slot g with
      | (s, some i) => exec i s
      | (s, none) => .next s
  | .xp core x =>
    match s.nextXp core x with
    | (s, some i) => exec i s
    | (s, none) => .next s
  | .flits port dir n => .next (s.flits port dir n true)
  | .sensor core temp droop => .next (s.modCore core fun c => { c with temp := temp, droop := droop })
  | .idle => .next s

def step (s : State) : Host.Outcome State Fault Refusal :=
  match s.tape with
  | [] => (s.tick 1).move s.autoAct
  | t :: ts => (({ s with tape := ts } : State).pass t).move t.act

/-- A state whose next step fetches and runs the instruction of a word. -/
def State.withFetchWord (s : State) (nbits w : Nat) : State := s.placeWord nbits w

end Sys2Proof.Machine
end

