-- ==== Sys2Proof/Safety.lean ====
section
/-! DEFINITION. The terms in which the claims speak: when a wave or a transfer processor is about to execute an instruction, what an
instruction leaves of a wave beside the registers it writes, and what a result looks like in its registers. -/

namespace Sys2Proof.Claim
open Sys2Proof Sys2Proof.Machine

/-! ## A unit executes -/

/-- The wave `w`, resident in a slot of a core, executes an instruction that does not resume from a park: lanes that have not ended, and
nothing brought about yet. -/
structure Runs (s : State) (core slot : Nat) (w : Wave) : Prop where
  unit   : s.focus.unit = .wave core slot
  here   : s.wave? core slot = some w
  parks  : s.focus.parks = []
  taken  : s.focus.taken = []
  holds  : s.focus.holds = []
  joined : s.focus.joined = 0
  gone   : s.focus.gone = false
  resume : s.focus.resume = none
  accs   : s.focus.accs = []
  since  : s.focus.since = none
  lanes  : s.focus.lanes ≠ 0
  alive  : s.focus.lanes &&& w.ended = 0

/-- The transfer processor `x` of a core executes an instruction that does not resume from a park, and the next offset lies in its
store (R317). -/
structure XRuns (s : State) (core x : Nat) (p : XP) : Prop where
  unit   : s.focus.unit = .xp core x
  which  : x < 2
  here   : s.xp core x = p
  lanes  : s.focus.lanes = xpLane
  parks  : s.focus.parks = []
  taken  : s.focus.taken = []
  holds  : s.focus.holds = []
  resume : s.focus.resume = none
  accs   : s.focus.accs = []
  run    : p.st = .running
  stays  : p.quit = false
  room   : (loopStep 5 p.loops (s.focus.pc + s.focus.len)).2 ≤ 16383

/-- The lane whose operands an execution for lane `l` reads (R166): its own, or under the uniform bit of the broadcast group the lowest
Active one. -/
def srcLane (s : State) (g : Guard) (uni : Bool) (l : Nat) : Nat :=
  if uni && s.focus.bc then lowLane (s.active g) else l

/-! ## What an instruction leaves of a wave -/

/-- The address behind the instruction in execution. -/
def behind (s : State) : Nat := s.focus.pc + s.focus.len

/-- No run of the wave is a piece of a suspended one (R46). -/
def Unsplit (w : Wave) : Prop := ∀ t ∈ w.streams, t.grp = 0 ∧ ∀ l r, t.st ≠ .join l r

/-- `u` is `w` but for program counters, broadcast address, runs and the bookkeeping of grants, and for latches and staging rows, which are
kept or, where a run ends, lost (R7, R285). -/
structure SameWave (w u : Wave) : Prop where
  same    : { u with
    pcs := w.pcs, bcast := w.bcast, streams := w.streams, ran := w.ran, yieldTo := w.yieldTo, t := w.t, stage := w.stage } = w
  latches : ∀ n l, l < 32 → u.latch n l = w.latch n l ∨ u.latch n l = 0
  stage   : ∀ k, mget 0 u.stage k = mget 0 w.stage k ∨ mget 0 u.stage k = 0

/-- `u` is `w` after an instruction: the lanes of its run stand at `dest`, every other lane where it stood, and under the run-boundary flag `rbf`
they have lost their latches and staging rows (R7, R36, R157, R285). The lanes of a suspended run wait for those that are parked (R42, R46). -/
structure WentOn (f : Focus) (w u : Wave) (rbf : Bool) (dest : Nat → Nat) : Prop where
  same    : SameWave w u
  pcs     : Unsplit w → ∀ l, l < 32 → u.pc l = if hasLane f.lanes l then dest l % 2 ^ 57 else w.pc l
  latches : Unsplit w → ∀ n l, l < 32 → u.latch n l = if rbf && hasLane f.lanes l then 0 else w.latch n l
  stage   : Unsplit w → ∀ l x, l < 32 → x < 128 →
    mget 0 u.stage (128 * l + x) = if rbf && hasLane f.lanes l then 0 else mget 0 w.stage (128 * l + x)

/-- A wave without the names of waves that it yields to. -/
def calm (w : Wave) : Wave := { w with yieldTo := [] }

/-- A core without its resident waves and grants. -/
def quietCore (c : Core) : Core := { c with slots := [], grants := [], pre := c.pre.map calm }

/-- A state without what the hardware keeps of leaves and of requests for tokens. -/
def bare (s : State) : State := { s with clusters := [], preqs := [], served := [] }

/-- A state without its cores and its focus. -/
def quietState (s : State) : State := { s with cores := [], focus := Focus.idle }

/-- `t` is `s` in which the wave in a slot has become `w'` and the lanes of its run stand at `dest`. Nothing else is touched: no other wave, no
core, no memory, no special register. -/
structure EndsAt (s : State) (core slot : Nat) (w' : Wave) (t : State) (rbf : Bool) (dest : Nat → Nat) : Prop where
  wave   : ∃ u, t.wave? core slot = some u ∧ WentOn s.focus w' u rbf dest
  others : ∀ i k, ¬(i = core ∧ k = slot) → (t.wave? i k).map calm = (s.wave? i k).map calm
  cores  : ∀ i, quietCore (t.core i) = quietCore (s.core i)
  rest   : quietState t = quietState s

/-- The same where the lanes go on behind the instruction. -/
abbrev Ends (s : State) (core slot : Nat) (w' : Wave) (t : State) (rbf : Bool) : Prop :=
  EndsAt s core slot w' t rbf fun _ => behind s

/-- `t` is `s` in which a transfer processor has become `p'` at its next offset; nothing else is touched. -/
structure XEnds (s : State) (core x : Nat) (p' : XP) (t : State) : Prop where
  self   : t.xp core x = { p' with
    pc := (loopStep 5 p'.loops (s.focus.pc + s.focus.len)).2
    loops := (loopStep 5 p'.loops (s.focus.pc + s.focus.len)).1
    st := .running }
  others : ∀ i, i ≠ core → t.core i = s.core i
  mine   : (t.core core).setXp x (s.xp core x) = s.core core
  rest   : quietState t = quietState s

/-! ## Results -/

/-- Vector registers and latches of `w1` after results `val` (one a lane) for destination `d` on the lanes `act` (R164): register, or pair,
and latch of each of these lanes; every other register, latch and lane as in `w`. -/
structure VecWritten (w w1 : Wave) (act : Mask) (d : Dst) (wide : Bool) (val : Nat → Nat) : Prop where
  regs : ∀ n l, l < 32 → w1.vreg n l =
    (if hasLane act l then
      match d.reg with
      | some r => if n = r.toNat then BitVec.ofNat 32 (val l)
          else if wide = true ∧ n = r.toNat + 1 then BitVec.ofNat 32 (val l / 2 ^ 32) else w.vreg n l
      | none => w.vreg n l
    else w.vreg n l)
  latches : ∀ n l, l < 32 → w1.latch n l =
    (if hasLane act l then
      match d.latch with
      | some r => if n = r.toNat then BitVec.ofNat 32 (val l)
          else if wide = true ∧ n = r.toNat + 1 then BitVec.ofNat 32 (val l / 2 ^ 32) else w.latch n l
      | none => w.latch n l
    else w.latch n l)
  rest : { w1 with v := w.v, t := w.t } = w

/-- One scalar register, or pair, of `w1` holds a result, every other as in `w`; nothing is written where no lane is Active (R203). -/
structure ScalWritten (w w1 : Wave) (act : Mask) (n : SReg) (wide : Bool) (x : Nat) : Prop where
  regs : ∀ m, w1.sreg m =
    (if act = 0 then w.sreg m
     else if m = n.toNat then BitVec.ofNat 32 x
     else if wide = true ∧ m = n.toNat + 1 then BitVec.ofNat 32 (x / 2 ^ 32) else w.sreg m)
  rest : { w1 with s := w.s } = w

/-- The same for the d registers of a transfer processor (R204). -/
structure DWritten (p p1 : XP) (n : Nat) (wide : Bool) (x : Nat) : Prop where
  regs : ∀ m, p1.dreg m =
    (if m = n then BitVec.ofNat 32 x
     else if wide = true ∧ m = n + 1 then BitVec.ofNat 32 (x / 2 ^ 32) else p.dreg m)
  rest : { p1 with d := p.d } = p

/-- A predicate of `w1` holds a result on the lanes `act`, every other predicate and lane as in `w`; a write to p15 is discarded (R7). -/
structure PredWritten (w w1 : Wave) (act : Mask) (p : BitVec 4) (val : Nat → Bool) : Prop where
  preds : ∀ q l, q < 16 → l < 32 → hasLane (w1.pred q) l =
    (if q = p.toNat ∧ p ≠ 15 ∧ hasLane act l then val l else hasLane (w.pred q) l)
  rest : { w1 with p := w.p } = w

/-! ## How an instruction completes -/

/-- `i` completes on a wave with one result a lane: `val l` from the operands of lane `l`. -/
def VecResult (s : State) (core slot : Nat) (w : Wave) (i : Instr) (c : Ctl) (uni : Bool) (d : Dst) (wide : Bool)
    (val : Nat → Nat) : Prop :=
  ∃ t w1, exec i s = .next t ∧ Ends s core slot w1 t c.rbf ∧
    VecWritten w w1 (s.active c.guard) d wide fun l => val (srcLane s c.guard uni l)

/-- `i` completes on a wave with one scalar result. -/
def ScalResult (s : State) (core slot : Nat) (w : Wave) (i : Instr) (c : Ctl) (n : SReg) (wide : Bool) (x : Nat) : Prop :=
  ∃ t w1, exec i s = .next t ∧ Ends s core slot w1 t c.rbf ∧ ScalWritten w w1 (s.active c.guard) n wide x

/-- `i` completes on a transfer processor with one result. -/
def DResult (s : State) (core x : Nat) (p : XP) (i : Instr) (n : Nat) (wide : Bool) (v : Nat) : Prop :=
  ∃ t p1, exec i s = .next t ∧ XEnds s core x p1 t ∧ DWritten p p1 n wide v

/-- `i` completes on a wave with one predicate result a lane. -/
def PredResult (s : State) (core slot : Nat) (w : Wave) (i : Instr) (c : Ctl) (p : BitVec 4) (val : Nat → Bool) : Prop :=
  ∃ t w1, exec i s = .next t ∧ Ends s core slot w1 t c.rbf ∧ PredWritten w w1 (s.active c.guard) p val

/-- `i` completes; of the wave nothing but program counters and runs changes, and of the state what `s1` says. -/
def Passes (s s1 : State) (core slot : Nat) (w1 : Wave) (rbf : Bool) (i : Instr) : Prop :=
  ∃ t, exec i s = .next t ∧ Ends s1 core slot w1 t rbf

/-- The same for a transfer processor. -/
def XPasses (s s1 : State) (core x : Nat) (p1 : XP) (i : Instr) : Prop := ∃ t, exec i s = .next t ∧ XEnds s1 core x p1 t

/-- `i`, an event, changes the state to one of which the claim speaks. -/
def Answers (s : State) (i : Instr) (q : State → Prop) : Prop := ∃ t, exec i s = .next t ∧ q t

/-! ## The general forms (R203, R204) -/

/-- A scalar operand of a transfer processor. -/
def dval (p : XP) (wide : Bool) (n : SReg) : Nat := if wide then (p.dpair n.toNat).toNat else (p.dreg n.toNat).toNat

/-- The guard of every instruction of a transfer processor: none (R160). -/
def always : Guard := ⟨15, false⟩

/-- A value on a function of bit vectors of W bits. -/
def on1 (f : (n : Nat) → BitVec n → BitVec n) (n a : Nat) : Nat := (f n (BitVec.ofNat n a)).toNat
def on2 (f : (n : Nat) → BitVec n → BitVec n → BitVec n) (n a b : Nat) : Nat :=
  (f n (BitVec.ofNat n a) (BitVec.ofNat n b)).toNat
def on3 (f : (n : Nat) → BitVec n → BitVec n → BitVec n → BitVec n) (n a b c : Nat) : Nat :=
  (f n (BitVec.ofNat n a) (BitVec.ofNat n b) (BitVec.ofNat n c)).toNat

/-- An instruction of one general source: how it is written, whether its result is a pair, and what it computes on W-bit values. -/
structure Una where
  form : Ctl → Bool → Gen1 → Instr
  wd  : Bool → Bool
  val : Nat → Nat → Nat

/-- It completes in each of its three forms, for every guard, operand and width. -/
def Una.Holds (o : Una) : Prop :=
  ∀ (c : Ctl) (wide : Bool) (s : State),
    (∀ core slot w uni d a, Runs s core slot w →
      VecResult s core slot w (o.form c wide (.vec uni d a)) c uni d (o.wd wide) fun l =>
        o.val (wbits wide) (w.src wide a l)) ∧
    (∀ core slot w d a, Runs s core slot w →
      ScalResult s core slot w (o.form c wide (.scal d a)) c d (o.wd wide) (o.val (wbits wide) (w.scal wide a))) ∧
    (∀ core x p (d a : SReg), XRuns s core x p → c.guard = always →
      DResult s core x p (o.form c wide (.scal d a)) d.toNat (o.wd wide) (o.val (wbits wide) (dval p wide a)))

/-- An instruction of two general sources: `wb` says whether the second is a pair. -/
structure Bin where
  form : Ctl → Bool → Gen2 → Instr
  wb  : Bool → Bool
  val : Nat → Nat → Nat → Nat

def Bin.Holds (o : Bin) : Prop :=
  ∀ (c : Ctl) (wide : Bool) (s : State),
    (∀ core slot w uni d a b, Runs s core slot w →
      VecResult s core slot w (o.form c wide (.vec uni d a b)) c uni d wide fun l =>
        o.val (wbits wide) (w.src wide a l) (w.bsrc (o.wb wide) b l)) ∧
    (∀ core slot w d a b, Runs s core slot w →
      ScalResult s core slot w (o.form c wide (.scal d a b)) c d wide
        (o.val (wbits wide) (w.scal wide a) (w.scal (o.wb wide) b))) ∧
    (∀ core x p (d a b : SReg), XRuns s core x p → c.guard = always →
      DResult s core x p (o.form c wide (.scal d a b)) d.toNat wide
        (o.val (wbits wide) (dval p wide a) (dval p (o.wb wide) b)))

/-- The same with a third source; every operand has the width of the result. -/
structure Ter where
  form : Ctl → Bool → Gen3 → Instr
  val  : Nat → Nat → Nat → Nat → Nat

def Ter.Holds (o : Ter) : Prop :=
  ∀ (c : Ctl) (wide : Bool) (s : State),
    (∀ core slot w uni d a b e, Runs s core slot w →
      VecResult s core slot w (o.form c wide (.vec uni d a b e)) c uni d wide fun l =>
        o.val (wbits wide) (w.src wide a l) (w.bsrc wide b l) (w.src wide e l)) ∧
    (∀ core slot w d a b e, Runs s core slot w →
      ScalResult s core slot w (o.form c wide (.scal d a b e)) c d wide
        (o.val (wbits wide) (w.scal wide a) (w.scal wide b) (w.scal wide e))) ∧
    (∀ core x p (d a b e : SReg), XRuns s core x p → c.guard = always →
      DResult s core x p (o.form c wide (.scal d a b e)) d.toNat wide
        (o.val (wbits wide) (dval p wide a) (dval p wide b) (dval p wide e)))

/-- A result of the width of its operands, and one that is a single register (R226). -/
def asWide (wide : Bool) : Bool := wide
def single32 (_ : Bool) : Bool := false

/-- A value read as signed or as unsigned (R217). -/
def num (sg : Bool) {n : Nat} (x : BitVec n) : Int := if sg then x.toInt else (x.toNat : Int)

/-- The range of W-bit numbers (R217). -/
def least (sg : Bool) (n : Nat) : Int := if sg then -2 ^ (n - 1) else 0
def most (sg : Bool) (n : Nat) : Int := if sg then 2 ^ (n - 1) - 1 else 2 ^ n - 1

/-- Quotient and remainder of R218. -/
def quotient (sg : Bool) (n : Nat) (x y : BitVec n) : BitVec n :=
  if y = 0 then BitVec.allOnes n else if sg then x.sdiv y else x / y
def remainder (sg : Bool) (n : Nat) (x y : BitVec n) : BitVec n :=
  if y = 0 then x else if sg then x.srem y else x % y

/-- The integer conditions (R229). -/
def compares (c : ICond) {n : Nat} (x y : BitVec n) : Bool :=
  match c with
  | .eq => x == y
  | .ne => x != y
  | .lt => x.slt y
  | .le => x.sle y
  | .gt => y.slt x
  | .ge => y.sle x
  | .ltu => x.ult y
  | .leu => x.ule y
  | .gtu => y.ult x
  | .geu => y.ule x

/-- Bit `k` of the carry-less product (R227): the parity of the products of bits whose numbers add up to `k`. -/
def productBit (n : Nat) (x y : BitVec n) (k : Nat) : Bool :=
  (List.range (k + 1)).countP (fun i => y.getLsbD i && x.getLsbD (k - i)) % 2 == 1

/-- The address of `lea` (R233). -/
def leaAddress (u : Bool) (sh : BitVec 3) (imm : Word) (a b : Nat) : Nat :=
  let i : DWord := if u then BitVec.ofNat 64 (b % 2 ^ 32) else (BitVec.ofNat 32 b).signExtend 64
  (BitVec.ofNat 64 a + i <<< sh.toNat + imm.signExtend 64).toNat

/-- A predicate combination (R231). -/
def combines (o : POp) (a b : Bool) : Bool :=
  match o with
  | .and => a && b
  | .or => a || b
  | .xor => xor a b
  | .andn => a && !b

/-! ## Floating-point values (R135, R136, R144) -/

/-- The formats of arithmetic (R237). -/
def arithFmts : List NumFmt := [fF32, fF64, fF16, fBF16]

/-- Fields of an encoding: exponent, mantissa, sign. -/
def expo (f : NumFmt) (x : Nat) : Nat := x / 2 ^ f.mb % 2 ^ f.eb
def mantissa (f : NumFmt) (x : Nat) : Nat := x % 2 ^ f.mb
def negative (f : NumFmt) (x : Nat) : Bool := x.testBit (f.eb + f.mb)

/-- An encoding is a NaN, an infinity, a finite number, a zero. -/
def IsNaN (f : NumFmt) (x : Nat) : Prop :=
  x < 2 ^ f.width ∧ expo f x = 2 ^ f.eb - 1 ∧ if f.inf = true then mantissa f x ≠ 0 else f.nan = true ∧ mantissa f x = 2 ^ f.mb - 1
def IsInf (f : NumFmt) (x : Nat) : Prop := x < 2 ^ f.width ∧ f.inf = true ∧ expo f x = 2 ^ f.eb - 1 ∧ mantissa f x = 0
def IsNum (f : NumFmt) (x : Nat) : Prop := x < 2 ^ f.width ∧ ¬IsNaN f x ∧ ¬IsInf f x
def IsZero (f : NumFmt) (x : Nat) : Prop := x < 2 ^ f.width ∧ expo f x = 0 ∧ mantissa f x = 0

/-- The value of a finite encoding. -/
def value (f : NumFmt) (x : Nat) : ℚ :=
  (if negative f x then -1 else 1) * (if expo f x = 0 then (mantissa f x : ℚ) else (2 ^ f.mb + mantissa f x : Nat)) *
    2 ^ (Max.max (expo f x : Int) 1 - f.bias - f.mb)

/-- A magnitude of the format whose mantissa keeps its upper `keep` bits (R243), and the distance from it to the next such magnitude, in
the format or above its largest (R144). -/
def Kept (f : NumFmt) (keep a : Nat) : Prop := IsNum f a ∧ negative f a = false ∧ mantissa f a % 2 ^ (f.mb - keep) = 0
def gap (f : NumFmt) (keep a : Nat) : ℚ := 2 ^ (Max.max (expo f a : Int) 1 - f.bias - keep)

/-- The mode takes the upper of two neighbours for a magnitude that lies between them, at the fraction `t` of the way; `odd` is the lower
one's last bit (R144, R149). -/
def TakesUpper (m : RMode) (draw : Nat) (neg odd : Prop) (t : ℝ) : Prop :=
  match m with
  | .rn => 1 / 2 < t ∨ t = 1 / 2 ∧ odd
  | .rz => False
  | .ru => ¬neg
  | .rd => neg
  | .sr => 2 ^ 32 ≤ draw + ⌊t * 2 ^ 32⌋₊

/-- An infinity in the format, and what an overflow gives (R145). -/
def infinityIn (f : NumFmt) (sat neg : Bool) : Nat :=
  if sat = false ∧ f.inf = true then f.sign neg f.infEnc else if sat = false ∧ f.nan = true then f.dnan else f.sign neg f.maxEnc
def overflowed (f : NumFmt) (m : RMode) (sat neg : Bool) : Nat :=
  match m, neg with
  | .rz, _ | .ru, true | .rd, false => f.sign neg f.maxEnc
  | _, _ => infinityIn f sat neg

/-- `r` is what rounding `q`, not zero, to the format gives, with `keep` mantissa bits (R144, R145, R149, R243). -/
def RoundsTo (f : NumFmt) (keep : Nat) (m : RMode) (draw : Nat) (sat : Bool) (q : ℝ) (r : Nat) : Prop :=
  ∃ neg : Bool, (neg = true ↔ q < 0) ∧
    ((∃ a, Kept f keep a ∧ (value f a : ℝ) ≤ |q| ∧ |q| < value f a + gap f keep a ∧
        let up : Prop := (value f a : ℝ) < |q| ∧
          TakesUpper m draw (q < 0) (a / 2 ^ (f.mb - keep) % 2 = 1) ((|q| - value f a) / gap f keep a)
        let hi := a + 2 ^ (f.mb - keep)
        (¬up → r = f.sign neg a) ∧ (up → Kept f keep hi → r = f.sign neg hi) ∧ (up → ¬Kept f keep hi → r = overflowed f m sat neg)) ∨
      (∀ a, Kept f keep a → (value f a : ℝ) + gap f keep a ≤ |q|) ∧ r = overflowed f m sat neg)

/-- The same for a result that may be an exact zero. -/
def Rounded (f : NumFmt) (m : RMode) (q : ℚ) (r : Nat) : Prop :=
  (q ≠ 0 → RoundsTo f f.mb m 0 false q r) ∧ (q = 0 → IsZero f r)

/-! ## Special operands (R150, R151), conditions, folds -/

/-- One finite or infinite encoding lies below another: by value, and for a minimum or maximum −0 below +0 (R151). -/
def FloatLess (f : NumFmt) (x y : Nat) : Prop :=
  ¬IsNaN f x ∧ ¬IsNaN f y ∧
  (IsInf f x ∧ negative f x = true ∧ ¬(IsInf f y ∧ negative f y = true) ∨
   IsInf f y ∧ negative f y = false ∧ ¬(IsInf f x ∧ negative f x = false) ∨ IsNum f x ∧ IsNum f y ∧ value f x < value f y)
def FloatSame (f : NumFmt) (x y : Nat) : Prop :=
  IsInf f x ∧ IsInf f y ∧ negative f x = negative f y ∨ IsNum f x ∧ IsNum f y ∧ value f x = value f y
def Below (f : NumFmt) (x y : Nat) : Prop :=
  FloatLess f x y ∨ IsZero f x ∧ IsZero f y ∧ negative f x = true ∧ negative f y = false

/-- The floating-point conditions (R151, R244): −0 equals +0, and with a NaN only `ne` is true. -/
def FloatCompares (c : FCond) (f : NumFmt) (x y : Nat) : Prop :=
  match c with
  | .eq => FloatSame f x y
  | .ne => ¬FloatSame f x y
  | .lt => FloatLess f x y
  | .le => FloatLess f x y ∨ FloatSame f x y
  | .gt => FloatLess f y x
  | .ge => FloatLess f y x ∨ FloatSame f x y

/-- Minimum and maximum of two encodings (R151). -/
def LesserOf (f : NumFmt) (x y r : Nat) : Prop :=
  (IsNaN f x ∨ IsNaN f y → r = f.dnan) ∧ (¬IsNaN f x → ¬IsNaN f y → (Below f y x → r = y) ∧ (¬Below f y x → r = x))
def GreaterOf (f : NumFmt) (x y r : Nat) : Prop :=
  (IsNaN f x ∨ IsNaN f y → r = f.dnan) ∧ (¬IsNaN f x → ¬IsNaN f y → (Below f x y → r = y) ∧ (¬Below f x y → r = x))

/-- `r` is the sum of two exact terms but for a finite sum that is not zero: an operand that gives a NaN, terms that are infinities of a sign, the
signs of the terms, and the sum `q` of finite ones (R144, R150). -/
def SumOf (f : NumFmt) (m : RMode) (nan : Prop) (infs : Bool → Prop) (s1 s2 : Bool) (q : ℚ) (r : Nat) : Prop :=
  (nan ∨ infs true ∧ infs false → r = f.dnan) ∧ (∀ n, ¬nan → infs n → ¬infs (!n) → r = f.sign n f.infEnc) ∧
  (¬nan → (∀ n, ¬infs n) → q = 0 → r = f.sign (if s1 = s2 then s1 else m == .rd) 0)

/-- The sum of two encodings, and of a product and an encoding, where an operand is special or the result is zero. -/
def AddsSpecial (f : NumFmt) (m : RMode) (x y r : Nat) : Prop :=
  SumOf f m (IsNaN f x ∨ IsNaN f y) (fun n => IsInf f x ∧ negative f x = n ∨ IsInf f y ∧ negative f y = n) (negative f x) (negative f y)
    (value f x + value f y) r
def FusesSpecial (f : NumFmt) (m : RMode) (x y z r : Nat) : Prop :=
  let sp := negative f x != negative f y
  SumOf f m (IsNaN f x ∨ IsNaN f y ∨ IsNaN f z ∨ IsZero f x ∧ IsInf f y ∨ IsInf f x ∧ IsZero f y)
    (fun n => (IsInf f x ∨ IsInf f y) ∧ sp = n ∨ IsInf f z ∧ negative f z = n) sp (negative f z) (value f x * value f y + value f z) r

/-- An encoding with its sign inverted. -/
def flipped (f : NumFmt) (x : Nat) : Nat := f.sign (!negative f x) (x % 2 ^ (f.eb + f.mb))

/-- The sum of two encodings, rounded once. -/
def AddsTo (f : NumFmt) (m : RMode) (x y r : Nat) : Prop :=
  AddsSpecial f m x y r ∧
  (IsNum f x → IsNum f y → value f x + value f y ≠ 0 → RoundsTo f f.mb m 0 false (value f x + value f y : ℚ) r)

/-- The same for a product and for a square root (R150). -/
def MultipliesSpecial (f : NumFmt) (x y r : Nat) : Prop :=
  let sp := negative f x != negative f y
  (IsNaN f x ∨ IsNaN f y ∨ IsZero f x ∧ IsInf f y ∨ IsInf f x ∧ IsZero f y → r = f.dnan) ∧
  (IsInf f x ∧ ¬IsNaN f y ∧ ¬IsZero f y ∨ ¬IsNaN f x ∧ ¬IsZero f x ∧ IsInf f y → r = f.sign sp f.infEnc) ∧
  (IsZero f x ∧ IsNum f y ∨ IsNum f x ∧ IsZero f y → r = f.sign sp 0)
def RootSpecial (f : NumFmt) (x r : Nat) : Prop :=
  (IsNaN f x ∨ ¬IsZero f x ∧ negative f x = true → r = f.dnan) ∧ (IsZero f x → r = x) ∧
  (IsInf f x → negative f x = false → r = x)

/-- The same for a quotient (R150). -/
def DividesSpecial (f : NumFmt) (x y r : Nat) : Prop :=
  let sp := negative f x != negative f y
  (IsNaN f x ∨ IsNaN f y ∨ IsZero f x ∧ IsZero f y ∨ IsInf f x ∧ IsInf f y → r = f.dnan) ∧
  (IsInf f x ∧ IsNum f y ∨ IsNum f x ∧ ¬IsZero f x ∧ IsZero f y → r = f.sign sp f.infEnc) ∧
  (IsNum f x ∧ IsInf f y ∨ IsZero f x ∧ IsNum f y ∧ ¬IsZero f y → r = f.sign sp 0)
def DividesTo (f : NumFmt) (m : RMode) (x y r : Nat) : Prop :=
  DividesSpecial f x y r ∧
  (IsNum f x → IsNum f y → ¬IsZero f x → ¬IsZero f y → RoundsTo f f.mb m 0 false (value f x / value f y : ℚ) r)

/-- One combine of a lane operation on W-bit values (R255), and what a lane of an exclusive scan gets that has no leaf (R256). -/
def LaneCombines (op : LaneOp) (ty : LaneTy) (x y r : Nat) : Prop :=
  let n := wbits (laneTyWide ty)
  let less : Prop := if laneTySigned ty = true then (BitVec.ofNat n x).toInt < (BitVec.ofNat n y).toInt else x < y
  match laneTyFloat ty, op with
  | some f, .add => AddsTo f .rn x y r
  | some f, .min => LesserOf f x y r
  | some f, .max => GreaterOf f x y r
  | none, .add => r = (x + y) % 2 ^ n
  | none, .min => (less → r = x) ∧ (¬less → r = y)
  | none, .max => (less → r = y) ∧ (¬less → r = x)
  | _, .and => r = x &&& y
  | _, .or => r = x ||| y
  | _, .xor => r = x ^^^ y
def LaneIdentity (op : LaneOp) (ty : LaneTy) (r : Nat) : Prop :=
  let n := wbits (laneTyWide ty)
  match laneTyFloat ty, op with
  | some f, .add => IsZero f r ∧ negative f r = true
  | some f, .min => IsInf f r ∧ negative f r = false
  | some f, .max => IsInf f r ∧ negative f r = true
  | none, .min => (r : Int) = most (laneTySigned ty) n
  | none, .max => BitVec.ofNat n r = BitVec.ofInt n (least (laneTySigned ty) n) ∧ r < 2 ^ n
  | _, .and => r = 2 ^ n - 1
  | _, _ => r = 0

/-- One combine of a commutative range, on the bytes of an element (R93). -/
def CrCombines (op : CrOp) (x y r : Nat) : Prop :=
  match op with
  | .addf32 => AddsTo fF32 .rn (x % 2 ^ 32) (y % 2 ^ 32) r
  | .addf64 => AddsTo fF64 .rn (x % 2 ^ 64) (y % 2 ^ 64) r
  | .addi32 => r = (x + y) % 2 ^ 32
  | .addi64 => r = (x + y) % 2 ^ 64
  | .maxf32 => GreaterOf fF32 (x % 2 ^ 32) (y % 2 ^ 32) (r % 2 ^ 32)
  | .minf32 => LesserOf fF32 (x % 2 ^ 32) (y % 2 ^ 32) (r % 2 ^ 32)

/-- The tree of R95: a round combines leaves 2i and 2i + 1, and keeps an odd last one, until one leaf is left. -/
inductive TreeFolds (op : Nat → Nat → Nat → Prop) : List Nat → Nat → Prop where
  | leaf (x : Nat) : TreeFolds op [x] x
  | round (xs ys : List Nat) (r : Nat) : 2 ≤ xs.length → ys.length = (xs.length + 1) / 2 →
      (∀ i, i < xs.length / 2 → op (listGet 0 xs (2 * i)) (listGet 0 xs (2 * i + 1)) (listGet 0 ys i)) →
      (xs.length % 2 = 1 → listGet 0 ys (xs.length / 2) = listGet 0 xs (xs.length - 1)) →
      TreeFolds op ys r → TreeFolds op xs r

/-- A left fold that starts with a value. -/
def FoldsTo {α : Type} (op : Nat → α → Nat → Prop) : Nat → List α → Nat → Prop
  | x, [], r => r = x
  | x, y :: ys, r => ∃ z, op x y z ∧ FoldsTo op z ys r

/-- One element of a quorum reduction (R156): of contributions in the order of their ranks, each with the number of steps that it is late, the weighted
sum over the sum of the weights 2^−d. -/
def Reduces (gs : List (Nat × Nat)) (r : Nat) : Prop :=
  let scaled (d x y : Nat) : Prop :=
    (IsNaN fF32 x → y = fF32.dnan) ∧ (IsInf fF32 x → y = x) ∧ (IsZero fF32 x → y = x) ∧
    (IsNum fF32 x → ¬IsZero fF32 x → RoundsTo fF32 23 .rn 0 false (value fF32 x / 2 ^ d : ℚ) y)
  ∃ num den n m, num.length = gs.length ∧ den.length = gs.length ∧
    (∀ i g, gs[i]? = some g → scaled g.1 g.2 (listGet 0 num i) ∧ RoundsTo fF32 23 .rn 0 false (1 / 2 ^ g.1 : ℚ) (listGet 0 den i)) ∧
    TreeFolds (AddsTo fF32 .rn) num n ∧ TreeFolds (AddsTo fF32 .rn) den m ∧ DividesTo fF32 .rn n m r

/-- An integer that rounding gives, with a spacing of 1 (R146). -/
def RoundsInt (m : RMode) (draw : Nat) (q : ℚ) (z : Int) : Prop :=
  let lo := ⌊|q|⌋₊
  let up : Prop := (lo : ℝ) < |q| ∧ TakesUpper m draw (q < 0) (lo % 2 = 1) (|q| - lo)
  z.natAbs = lo ∧ ¬up ∧ 0 ≤ z * (if q < 0 then -1 else 1) ∨ z.natAbs = lo + 1 ∧ up ∧ 0 ≤ z * (if q < 0 then -1 else 1)

/-- The formats of R135 that `cvt` names, and its integer types (R247). -/
def floatOf (t : CTy) : Option NumFmt :=
  match t with
  | .f64 => some fF64
  | .f32 => some fF32
  | .f16 => some fF16
  | .bf16 => some fBF16
  | .e5m2 => some fE5M2
  | .e4m3 => some fE4M3
  | .i32 | .u32 | .i64 | .u64 => none
def signedInt (t : CTy) : Bool :=
  match t with
  | .i32 | .i64 => true
  | _ => false

/-- The exact value of an integer operand. -/
def intValue (t : CTy) (x : Nat) : Int := num (signedInt t) (BitVec.ofNat t.width x)

/-- One element of a conversion (R146, R149). -/
def Converts (dty sty : CTy) (m : RMode) (draw : Nat) (sat : Bool) (x r : Nat) : Prop :=
  match floatOf sty, floatOf dty with
  | some f, some g =>
    (IsNaN f x → r = g.dnan) ∧ (IsInf f x → r = infinityIn g sat (negative f x)) ∧ (IsZero f x → r = g.sign (negative f x) 0) ∧
    (IsNum f x → ¬IsZero f x → RoundsTo g g.mb m draw sat (value f x) r)
  | some f, none =>
    (IsNaN f x → r = 0) ∧
    (IsInf f x → intValue dty r = if negative f x then least (signedInt dty) dty.width else most (signedInt dty) dty.width) ∧
    (IsNum f x → ∃ z, RoundsInt m draw (value f x) z ∧
      intValue dty r = Max.max (least (signedInt dty) dty.width) (Min.min (most (signedInt dty) dty.width) z))
  | none, some g =>
    (intValue sty x = 0 → r = 0) ∧ (intValue sty x ≠ 0 → RoundsTo g g.mb m draw sat (intValue sty x) r)
  | none, none => True

/-- The four words of Philox-4x32-10 (R147), and the draw of an element (R148). -/
def philoxWords (c0 c1 c2 c3 k0 k1 : Word) : Word × Word × Word × Word :=
  (List.range 10).foldl (fun c i =>
    let p0 : DWord := 0xD2511F53 * c.1.setWidth 64
    let p1 : DWord := 0xCD9E8D57 * c.2.2.1.setWidth 64
    (p1.extractLsb' 32 32 ^^^ c.2.1 ^^^ (k0 + BitVec.ofNat 32 i * 0x9E3779B9), p1.setWidth 32,
      p0.extractLsb' 32 32 ^^^ c.2.2.2 ^^^ (k1 + BitVec.ofNat 32 i * 0xBB67AE85), p0.setWidth 32)) (c0, c1, c2, c3)
def draws (seed tid : Word) (e : DWord) (n j : Word) : Word × Word × Word × Word :=
  philoxWords (e.setWidth 32) (e.extractLsb' 32 32) n j seed tid

/-- The class of an encoding: the number of its mask bit (R245). -/
def InClass (f : NumFmt) (x bit : Nat) : Prop :=
  IsInf f x ∧ bit = (if negative f x then 0 else 7) ∨ IsNaN f x ∧ bit = 8 ∨ IsZero f x ∧ bit = (if negative f x then 3 else 4) ∨
  IsNum f x ∧ expo f x ≠ 0 ∧ bit = (if negative f x then 1 else 6) ∨
  IsNum f x ∧ ¬IsZero f x ∧ expo f x = 0 ∧ bit = if negative f x then 2 else 5

/-! ## Matrix operands (R139 to R143, R152, R153) -/

/-- `w` bits from bit `bit` on of the bytes of a place. -/
def fieldAt (b : Nat → Byte) (bit w : Nat) : Nat :=
  ((List.range w).map fun i => if (b ((bit + i) / 8)).getLsbD ((bit + i) % 8) then 2 ^ i else 0).sum

/-- A factor of a product: a NaN, an infinity, or a number, and its sign. -/
structure Factor where
  nan : Prop
  inf : Prop
  neg : Bool
  val : ℚ

/-- An encoding as a factor; a P2 weight (R141); a factor times an E8M0 scale (R139, R140). -/
def factorOf (g : NumFmt) (x : Nat) : Factor := ⟨IsNaN g x, IsInf g x, negative g x, value g x⟩
def weightOf (x : Nat) : Factor :=
  let term (y : Nat) : ℚ := if y % 8 = 7 then 0 else (if y / 8 = 1 then -1 else 1) / 2 ^ (y % 8)
  let v := term (x / 16) + term (x % 16)
  ⟨False, False, decide (v < 0), v⟩
def Factor.scaledBy (e : Factor) (b : Nat) : Factor := { e with nan := e.nan ∨ b = 255, val := e.val * 2 ^ ((b : Int) - 127) }
def Factor.IsZero (e : Factor) : Prop := ¬e.nan ∧ ¬e.inf ∧ e.val = 0

/-- One output: an accumulator and its products, exact and rounded once (R152). -/
def DotsTo (f : NumFmt) (c : Nat) (ps : List (Factor × Factor)) (r : Nat) : Prop :=
  let nan : Prop := IsNaN f c ∨ ∃ p ∈ ps, p.1.nan ∨ p.2.nan ∨ p.1.inf ∧ p.2.IsZero ∨ p.1.IsZero ∧ p.2.inf
  let infs (n : Bool) : Prop := IsInf f c ∧ negative f c = n ∨ ∃ p ∈ ps, (p.1.inf ∨ p.2.inf) ∧ (p.1.neg != p.2.neg) = n
  let q : ℚ := value f c + (ps.map fun p => p.1.val * p.2.val).sum
  (nan ∨ infs true ∧ infs false → r = f.dnan) ∧ (∀ n, ¬nan → infs n → ¬infs (!n) → r = f.sign n f.infEnc) ∧
  (¬nan → (∀ n, ¬infs n) → (q ≠ 0 → RoundsTo f f.mb .rn 0 false q r) ∧
    (q = 0 → r = f.sign (negative f c && ps.all fun p => p.1.neg != p.2.neg) 0))

/-- The formats of `mma` (R153, R284): A elements, bits of an element, K, records of a column, bytes of a column. -/
structure MatFmt where
  elem : NumFmt
  bits : Nat
  k    : Nat
  recs : Nat
  cb   : Nat
def matFmt (f : MmaFmt) : MatFmt :=
  match f with
  | .f64 => ⟨fF64, 64, 4, 0, 32⟩
  | .f32 => ⟨fF32, 32, 8, 0, 32⟩
  | .bf16 => ⟨fBF16, 16, 32, 0, 64⟩
  | .f16 => ⟨fF16, 16, 32, 0, 64⟩
  | .e4m3 => ⟨fE4M3, 8, 64, 0, 64⟩
  | .e5m2 => ⟨fE5M2, 8, 64, 0, 64⟩
  | .b8e4m3 => ⟨fE4M3, 8, 64, 2, 66⟩
  | .b6e3m2 => ⟨fE3M2, 6, 64, 2, 50⟩
  | .b6e2m3 => ⟨fE2M3, 6, 64, 2, 50⟩
  | .b4e2m1 => ⟨fE2M1, 4, 128, 4, 68⟩
  | .p2 => ⟨fE4M3, 8, 128, 4, 132⟩

/-- Element `k` of an A row, payloads without scales, and of a B column, whose records have a scale byte in front (R140, R284); `sc` gives the scale
byte of a block. -/
def rowFactor (f : MmaFmt) (b : Nat → Byte) (sc : Nat → Nat) (k : Nat) : Factor :=
  let m := matFmt f
  let e := factorOf m.elem (fieldAt b (k * m.bits) m.bits)
  if m.recs = 0 then e else e.scaledBy (sc (k / 32))
def colFactor (f : MmaFmt) (b : Nat → Byte) (sc : Nat → Nat) (k : Nat) : Factor :=
  let m := matFmt f
  let x := fieldAt b (if m.recs = 0 then k * m.bits else (k / 32 * (4 * m.bits + 1) + 1) * 8 + k % 32 * m.bits) m.bits
  let e := if f = .p2 then weightOf x else factorOf m.elem x
  if m.recs = 0 then e else e.scaledBy (sc (k / 32))

/-- The formats of `mst` (R295), and Emax of the blocked ones (R143). -/
def storedFmt (f : MstFmt) : NumFmt :=
  match f with
  | .f64 => fF64
  | .f32 => fF32
  | .bf16 => fBF16
  | .f16 => fF16
  | .e5m2 => fE5M2
  | .e4m3 | .b8e4m3 => fE4M3
  | .b6e3m2 => fE3M2
  | .b6e2m3 => fE2M3
  | .b4e2m1 => fE2M1
def storedEmax (f : MstFmt) : Option Int :=
  match f with
  | .b8e4m3 => some 8
  | .b6e3m2 => some 4
  | .b6e2m3 | .b4e2m1 => some 2
  | _ => none

/-- The bytes of a stored row of `n` values (R140, R295). -/
def rowBytes (f : MstFmt) (n : Nat) : Nat :=
  if storedEmax f = none then n * ((storedFmt f).width / 8) else 4 * (storedFmt f).width + 1

/-- The scale of a block of values of a format (R143). -/
def BlockScale (emax : Int) (g : NumFmt) (xs : List Nat) (sc : Nat) : Prop :=
  ((∃ x ∈ xs, IsNaN g x ∨ IsInf g x) → sc = 255) ∧ ((∀ x ∈ xs, IsZero g x) → sc = 127) ∧
  ((∀ x ∈ xs, IsNum g x) → (∃ x ∈ xs, ¬IsZero g x) → ∃ k : Int, (∃ x ∈ xs, (2 : ℚ) ^ k ≤ |value g x|) ∧
    (∀ x ∈ xs, |value g x| < 2 ^ (k + 1)) ∧ (sc : Int) = Max.max 0 (Min.min 254 (k - emax + 127)))

/-- The bytes of a row that `mst` stores: values `xs` of format `g`, under the scale of `block` if the format has one (R143 to R146, R296). -/
def RowStored (f : MstFmt) (g : NumFmt) (rm : RMode) (sat : Bool) (draw : Nat → Nat) (block xs : List Nat) (b : Nat → Byte) : Prop :=
  let h := storedFmt f
  match storedEmax f with
  | none => ∀ j x, xs[j]? = some x →
    let r := fieldAt b (j * h.width) h.width
    (IsNaN g x → r = h.dnan) ∧ (IsInf g x → r = infinityIn h sat (negative g x)) ∧ (IsZero g x → r = h.sign (negative g x) 0) ∧
    (IsNum g x → ¬IsZero g x → RoundsTo h h.mb rm (draw j) sat (value g x) r)
  | some emax => ∃ sc, BlockScale emax g block sc ∧ b 0 = BitVec.ofNat 8 sc ∧ ∀ j x, xs[j]? = some x →
    let r := fieldAt (fun i => b (1 + i)) (j * h.width) h.width
    (sc = 255 ∨ (∀ y ∈ block, IsZero g y) → r = 0) ∧
    (sc ≠ 255 → ¬(∀ y ∈ block, IsZero g y) → (IsZero g x → r = h.sign (negative g x) 0) ∧
      (¬IsZero g x → RoundsTo h h.mb rm (draw j) true (value g x * 2 ^ (127 - (sc : Int)) : ℚ) r))

/-! ## Global memory -/

/-- Translation of an access meets nothing (R69 to R71, R99): canonical, within a sector, a leaf with its a bit (and dt for a write) set,
permitted, resident. -/
structure Reaches (s : State) (aslot va size : Nat) (k : AKind) (l : Leaf) : Prop where
  canon  : va < 2 ^ 57
  sector : va % 32 + size ≤ 32
  walk   : s.walk aslot va = .leaf l
  allow  : leafFault s aslot va k l = none
  here   : pteOff l.pte = 0
  used   : rdNum s.mem l.ent 8 ||| 2 ^ 57 ||| (if k.writes then 2 ^ 56 else 0) = rdNum s.mem l.ent 8

/-- What a core's cluster and L1 hold for a slot is what the tables say: no older leaf (R74, R75), no line under a tag or with a right that they
do not give (R20); and no contribution to a line of the tables waits to be combined. -/
structure FreshTlb (s : State) (core aslot : Nat) : Prop where
  leaves : ∀ va, va < 2 ^ 57 → ∀ e ∈ (s.cluster (coreCluster core)).tlb, e.covers aslot (s.genOf aslot) va = true →
    ∃ l, s.walk aslot va = .leaf l ∧ pteCore e.pte.toNat = pteCore l.pte ∧ e.level = l.level ∧ e.ptePa = l.ent
  lines  : ∀ va, va < 2 ^ 57 → ∀ h, s.l1Core core va = some h → ∀ x ∈ (s.core h).l1,
    x.2.slot = aslot → x.2.gen = s.genOf aslot → x.2.vtag = va / 128 →
    let a : Acc := ⟨x.1 * 128 + va % 128, false, false, x.2.x⟩
    (x.2.valid &&& sectorBit va ≠ 0 → s.l1Plain aslot va .load a = true) ∧ (x.2.x = true → s.l1Plain aslot va .fetch a = true) ∧
      (x.2.w = true → s.l1Plain aslot va .store a = true)
  tables : ∀ va, va < 2 ^ 57 → ∀ e ∈ s.tablePath aslot va, s.linePartials (e / 128) = []

/-- A release that some lanes execute waits for none of their remote accesses (R108). -/
def Answered (s : State) (w : Wave) (o : Ord) (lanes : Mask) : Prop := ordReleases o = true → s.openRemote w.uid lanes = false

/-- What is done in the unit of `n` bytes around `pa` concerns no table entry on the way to an address. -/
def SparesTables (s : State) (aslot n pa va : Nat) : Prop := ∀ e ∈ s.tablePath aslot va, e / n ≠ pa / n

/-- No wave waits to consume a scratchpad line (R83). -/
def Unclaimed (s : State) (line : Nat × Nat) : Prop :=
  ∀ y ∈ s.resident, ∀ t ∈ y.2.2.streams, match t.st with
    | .park (.consume l _) _ _ _ | .resume (.consume l _) _ _ _ => line ∉ l
    | _ => True

/-- The sector at a physical address is bonded DRAM without poison and seal, and no contribution to its line waits to be combined. -/
structure PlainSector (s : State) (pa : Nat) : Prop where
  dram     : isExt pa = false
  clean    : s.poisoned pa = false
  unsealed : s.sealedLine pa = false
  combined : s.linePartials (pa / 128) = []

/-- A wave's accesses take no detour: it is not in commit mode and not checked for races, the side log holds nothing of its lanes, and the
TLB no older leaf. -/
structure Direct (s : State) (core : Nat) (w : Wave) (lanes : Mask) : Prop where
  plain   : w.commit = false
  unraced : w.race = false
  log     : (s.core core).lanesLog w.uid lanes = []
  tlb     : FreshTlb s core w.aslot

/-- The same for a transfer processor. -/
structure XDirect (s : State) (core : Nat) (p : XP) (aslot : Nat) : Prop where
  slot    : p.bind.aslot = some aslot
  unraced : (p.bind.lid.bind fun l => aget s.launches l).elim false (·.blk.race) = false
  log     : (s.core core).lanesLog 0 xpLane = []
  tlb     : FreshTlb s core aslot

/-- `t` differs from `s` in the wave, which has become `w'` with the lanes of its run at `dest`, and in what the hardware keeps of tokens, their
requests, L1 lines and leaves. Memory, the other waves, the other cores and every special register stay. -/
structure EndsReadAt (s : State) (core slot : Nat) (w' : Wave) (t : State) (rbf : Bool) (dest : Nat → Nat) : Prop where
  wave   : ∃ u, t.wave? core slot = some u ∧ WentOn s.focus w' u rbf dest
  others : ∀ i k, ¬(i = core ∧ k = slot) → (t.wave? i k).map calm = (s.wave? i k).map calm
  cores  : ∀ i, { quietCore (t.core i) with l1 := [] } = { quietCore (s.core i) with l1 := [] }
  rest   : bare (quietState t) = bare (quietState s)

/-- The same where the lanes go on behind the instruction. -/
abbrev EndsRead (s : State) (core slot : Nat) (w' : Wave) (t : State) (rbf : Bool) : Prop :=
  EndsReadAt s core slot w' t rbf fun _ => behind s

/-- The same for a transfer processor, which goes on behind the instruction. -/
structure XEndsRead (s : State) (core x : Nat) (p' : XP) (t : State) : Prop where
  self   : t.xp core x = { p' with
    pc := (loopStep 5 p'.loops (s.focus.pc + s.focus.len)).2
    loops := (loopStep 5 p'.loops (s.focus.pc + s.focus.len)).1
    st := .running }
  others : ∀ i, { (if i = core then (t.core i).setXp x (s.xp core x) else t.core i) with l1 := [] } = { s.core i with l1 := [] }
  rest   : bare (quietState t) = bare (quietState s)

/-- A wave but for the names that it yields to and for its runs, one of which a write may wake (R268). -/
def still (w : Wave) : Wave := { w with yieldTo := [], streams := [] }

/-- `t` differs from `s` in the wave, which has become `w'` with its store counters moved, in memory, in fault codes that a write has set,
in the interval count of releases, and in tokens, their requests, L1 lines and leaves. -/
structure EndsWrite (s : State) (core slot : Nat) (w' : Wave) (t : State) (rbf : Bool) : Prop where
  wave   : ∃ u, t.wave? core slot = some u ∧ WentOn s.focus { w' with seqs := u.seqs } u rbf fun _ => behind s
  others : ∀ i k, ¬(i = core ∧ k = slot) → (t.wave? i k).map still = (s.wave? i k).map still
  cores  : ∀ i, { t.core i with slots := [], grants := [], l1 := [], pre := (t.core i).pre.map still } =
    { s.core i with slots := [], grants := [], l1 := [], pre := (s.core i).pre.map still }
  rest   : { bare (quietState t) with mem := [], recs := [], ival := [] } = { bare (quietState s) with mem := [], recs := [], ival := [] }

/-- The bytes of memory after a store of `bs` at `pa`; every other byte as before. -/
def MemWritten (s t : State) (pa : Nat) (bs : List Byte) : Prop :=
  ∀ a, rdByte t.mem a = if pa ≤ a ∧ a < pa + bs.length then listGet 0 bs (a - pa) else rdByte s.mem a

/-- The new value of an atomic on W-bit words (R267). -/
def atomValue (op : AtomOp) (n : Nat) (old b c : BitVec n) : BitVec n :=
  let f := if n = 64 then fF64 else fF32
  match op with
  | .xchg => b
  | .add => old + b
  | .sub => old - b
  | .and => old &&& b
  | .or => old ||| b
  | .xor => old ^^^ b
  | .min => if old.sle b then old else b
  | .max => if old.sle b then b else old
  | .umin => if old.ule b then old else b
  | .umax => if old.ule b then b else old
  | .fadd => BitVec.ofNat n (faddE f .rn old.toNat b.toNat)
  | .fmin => BitVec.ofNat n (fminE f old.toNat b.toNat)
  | .fmax => BitVec.ofNat n (fmaxE f old.toNat b.toNat)
  | .cas => if old = b then c else old

/-- A pointer chase (R281) of as many hops as the list has words: each hop reads 8 bytes behind a pointer that is not 0. -/
def Chases (s : State) (aslot off : Nat) : Nat → List Nat → Prop
  | _, [] => True
  | p, q :: ps => p ≠ 0 ∧ (∃ leaf, Reaches s aslot ((p + off) % 2 ^ 64) 8 .load leaf ∧
      PlainSector s (leaf.pa ((p + off) % 2 ^ 64)) ∧ q = rdNum s.mem (leaf.pa ((p + off) % 2 ^ 64)) 8) ∧ Chases s aslot off q ps

/-- A hop of a chase meets a fault at an address: it is not canonical, crosses a sector, has no leaf that permits a load, leaves the device, or its
page is out or its sector poisoned (R72, R281). -/
def Breaks (s : State) (aslot va : Nat) : Prop :=
  2 ^ 57 ≤ va ∨ 32 < va % 32 + 8 ∨ (∃ c, s.walk aslot va = .fault c) ∨
  ∃ l, s.walk aslot va = .leaf l ∧ ((leafFault s aslot va .load l).isSome = true ∨ isExt (l.pa va) = true ∨ pteOff l.pte = 3 ∨
    pteOff l.pte = 0 ∧ s.poisoned (l.pa va) = true)

/-- What an instruction of a wave carries beside its operands (R159). -/
def ctlOf (i : Instr) : Option Ctl :=
  match i with
  | .br c _ => some c
  | .bcmp c _ _ _ _ => some c
  | .dbnz c _ _ _ => some c
  | .brx c _ => some c
  | .ret c _ => some c
  | .btab c _ _ _ => some c
  | .call c _ _ => some c
  | .callx c _ _ => some c
  | .rcvArm c _ => some c
  | .rcvJoin c _ => some c
  | .rcvDrop c _ => some c
  | .brk c _ => some c
  | .add c _ _ => some c
  | .sub c _ _ => some c
  | .mul c _ _ => some c
  | .mulh c _ _ _ => some c
  | .mad c _ _ => some c
  | .div c _ _ _ => some c
  | .rem c _ _ _ => some c
  | .min c _ _ _ => some c
  | .max c _ _ _ => some c
  | .adds c _ _ _ => some c
  | .subs c _ _ _ => some c
  | .abs c _ _ => some c
  | .addi c _ _ _ => some c
  | .and c _ _ => some c
  | .or c _ _ => some c
  | .xor c _ _ => some c
  | .andn c _ _ => some c
  | .andi c _ _ _ => some c
  | .ori c _ _ _ => some c
  | .xori c _ _ _ => some c
  | .shl c _ _ => some c
  | .shr c _ _ => some c
  | .sra c _ _ => some c
  | .rol c _ _ => some c
  | .ror c _ _ => some c
  | .shli c _ _ _ => some c
  | .shri c _ _ _ => some c
  | .srai c _ _ _ => some c
  | .roli c _ _ _ => some c
  | .rori c _ _ _ => some c
  | .bfe c _ _ _ _ _ => some c
  | .bfi c _ _ _ _ => some c
  | .popc c _ _ => some c
  | .clz c _ _ => some c
  | .ctz c _ _ => some c
  | .brev c _ _ => some c
  | .bswap c _ _ => some c
  | .clmul c _ _ => some c
  | .clmulh c _ _ => some c
  | .pxor c _ _ => some c
  | .pdep c _ _ => some c
  | .pext c _ _ => some c
  | .icmp c _ _ _ _ => some c
  | .icmpi c _ _ _ _ _ => some c
  | .isel c _ _ _ _ _ _ => some c
  | .plop c _ _ _ _ => some c
  | .mov c _ _ => some c
  | .movi c _ _ _ _ => some c
  | .lea c _ _ _ _ => some c
  | .lane c _ => some c
  | .fadd c _ _ _ _ _ _ => some c
  | .fsub c _ _ _ _ _ _ => some c
  | .fmul c _ _ _ _ _ _ => some c
  | .fdiv c _ _ _ _ _ _ => some c
  | .fsqrt c _ _ _ _ _ => some c
  | .ffma c _ _ _ _ _ _ _ => some c
  | .ffms c _ _ _ _ _ _ _ => some c
  | .fnma c _ _ _ _ _ _ _ => some c
  | .fmin c _ _ _ _ _ => some c
  | .fmax c _ _ _ _ _ => some c
  | .fabs c _ _ _ _ => some c
  | .fneg c _ _ _ _ => some c
  | .fsgn c _ _ _ _ _ => some c
  | .frcp c _ _ _ _ => some c
  | .frsq c _ _ _ _ => some c
  | .fcmp c _ _ _ _ _ => some c
  | .fclass c _ _ _ _ => some c
  | .cvt c _ _ _ _ _ _ _ _ _ _ _ _ _ _ => some c
  | .rng c _ _ _ _ _ _ => some c
  | .shfl c _ _ _ _ => some c
  | .vote c _ _ _ => some c
  | .lred c _ _ _ _ => some c
  | .lscan c _ _ _ _ _ => some c
  | .ld c _ _ _ _ => some c
  | .st c _ _ _ _ => some c
  | .stCr c _ _ _ _ => some c
  | .lds c _ _ _ _ _ _ _ => some c
  | .sts c _ _ _ _ _ _ _ => some c
  | .ldc c _ _ _ _ _ _ _ _ => some c
  | .stc c _ _ _ _ _ _ _ _ => some c
  | .ldv c _ _ _ _ _ _ _ _ => some c
  | .vupd c _ _ _ _ _ _ _ _ => some c
  | .vstepRd c _ _ _ => some c
  | .vstepSet c _ _ _ => some c
  | .atom c _ _ _ _ _ _ _ _ _ => some c
  | .mwait c _ _ _ _ _ _ _ => some c
  | .fence c _ _ _ _ => some c
  | .seal c _ _ _ => some c
  | .unseal c _ _ _ => some c
  | .crdecl c _ _ _ _ => some c
  | .crflush c _ _ _ => some c
  | .prefetch c _ _ _ _ _ _ => some c
  | .cpy c _ _ _ _ _ _ => some c
  | .cseal c => some c
  | .cwait c _ _ => some c
  | .ropCas c _ _ _ _ _ _ _ => some c
  | .ropEnq c _ _ _ _ _ => some c
  | .ropChase c _ _ _ _ _ => some c
  | .flq c _ _ _ => some c
  | .mma c _ _ _ _ _ _ _ _ _ _ => some c
  | .mgat c _ _ _ _ _ _ _ => some c
  | .mldt c _ _ _ _ _ _ => some c
  | .mst c _ _ _ _ _ _ _ _ _ _ _ _ _ => some c
  | .mzero c _ _ _ _ => some c
  | .tred c _ _ _ _ _ _ => some c
  | .msf c _ => some c
  | .cba c _ _ => some c
  | .cbw c _ _ => some c
  | .cbset c _ _ => some c
  | .exit c _ _ => some c
  | .wbar c => some c
  | .sbar c _ => some c
  | .rclaim c _ => some c
  | .rrel c _ => some c
  | .aset c _ _ _ => some c
  | .asetDel c _ => some c
  | .age c _ => some c
  | .ageLt c _ _ => some c
  | .yield c => some c
  | .collRed c _ _ => some c
  | .collA2a c _ _ => some c
  | .collBcast c _ _ => some c
  | .collBar c _ _ => some c
  | .collRes c _ _ => some c
  | .pstep c _ _ => some c
  | .trap c _ => some c
  | .rftNext c _ => some c
  | .rftAgain c _ => some c
  | .rftEnd c _ => some c
  | .csrr c _ _ => some c
  | .csrw c _ _ => some c
  | .csrwXpChan c _ _ => some c
  | .csrwFltTail c _ => some c
  | .csrwDbgCtl c _ => some c
  | .gen c _ => some c
  | _ => none

/-! ## Control -/

/-- The broadcast address follows the lowest lane of the broadcast group (R37), if none of its lanes waits at a barrier. -/
def Follows (s t : State) (core slot : Nat) (w : Wave) (dest : Nat → Nat) : Prop :=
  ∀ u, t.wave? core slot = some u → s.focus.lead = true → s.focus.lanes &&& w.atBarrier = 0 →
    u.bcast.toNat = dest (lowLane s.focus.lanes) % 2 ^ 57

/-- A pc-relative target, and the targets that a transfer accepts (R207). -/
def relative (s : State) (off : Word) : Nat := (((s.focus.pc : Int) + off.toInt) % 2 ^ 57).toNat
def Target (t : Nat) : Prop := t < 2 ^ 57 ∧ t % 4 = 0

/-- A transfer processor goes on at `dest`; a target inside its store (R207, R317). -/
structure XGoes (s : State) (core x : Nat) (p' : XP) (dest : Nat) (t : State) : Prop where
  self   : t.xp core x = { p' with pc := (loopStep 5 p'.loops dest).2, loops := (loopStep 5 p'.loops dest).1, st := .running }
  others : ∀ i, i ≠ core → t.core i = s.core i
  mine   : (t.core core).setXp x (s.xp core x) = s.core core
  rest   : quietState t = quietState s

/-- The same after a read of global memory, which leaves what the hardware keeps of tokens, L1 lines and leaves. -/
structure XGoesRead (s : State) (core x : Nat) (p' : XP) (dest : Nat) (t : State) : Prop where
  self   : t.xp core x = { p' with pc := (loopStep 5 p'.loops dest).2, loops := (loopStep 5 p'.loops dest).1, st := .running }
  others : ∀ i, { (if i = core then (t.core i).setXp x (s.xp core x) else t.core i) with l1 := [] } = { s.core i with l1 := [] }
  rest   : bare (quietState t) = bare (quietState s)

def XTarget (p : XP) (t : Nat) : Prop := t < 2 ^ 14 ∧ t % 4 = 0 ∧ (loopStep 5 p.loops t).2 ≤ 16383

/-! ## Exceptions -/

/-- The first seven words of a fault record (R362). -/
def recordWords (pc addr : Nat) (insn : BitVec 128) (stamp : Nat) (lanes : Mask) (info kind cause dlv unit slot core seq : Nat) : List DWord :=
  [BitVec.ofNat 64 (pc % 2 ^ 57), BitVec.ofNat 64 addr, insn.extractLsb' 0 64, insn.extractLsb' 64 64, BitVec.ofNat 64 stamp,
   BitVec.ofNat 64 (lanes.toNat * 2 ^ 32 + info % 2 ^ 32),
   BitVec.ofNat 64 (kind % 256 * 2 ^ 56 + cause % 256 * 2 ^ 48 + dlv * 2 ^ 46 + unit * 2 ^ 43 + slot * 2 ^ 38 + core * 2 ^ 28 +
     seq % 2 ^ 28)]

/-- The wave has become `w'` but for program counters, runs, and latches and staging rows of a run that ends; its store counters may have moved. -/
def Stands (t : State) (core slot : Nat) (w' : Wave) : Prop :=
  ∃ u, t.wave? core slot = some u ∧ SameWave { w' with seqs := u.seqs } u

/-- The wave has become `w'` and goes on behind the instruction; its store counters may have moved. -/
def KeepsWave (s t : State) (core slot : Nat) (w' : Wave) (rbf : Bool) : Prop :=
  ∃ u, t.wave? core slot = some u ∧ WentOn s.focus { w' with seqs := u.seqs } u rbf fun _ => behind s

/-- Some lanes of the run park on a condition: the wave has become `w'`, and they stay at the instruction with their latches. -/
def ParksOn (s t : State) (core slot : Nat) (w' : Wave) (rbf : Bool) (lanes : Mask) (p : ParkCond) : Prop :=
  ∃ u, t.wave? core slot = some u ∧ SameWave w' u ∧
    (∃ r ∈ u.streams, r.lanes = lanes ∧ r.st = .park p s.focus.len rbf s.focus.insn) ∧
    (Unsplit w' → ∀ l, l < 32 → hasLane lanes l = true → u.pc l = w'.pc l ∧ ∀ n, u.latch n l = w'.latch n l)

/-- Lanes of the wave have taken an exception (R361 to R365): one new record says what and where; they are held behind it where they
stood; the other lanes of the run go on. -/
structure Trapped (s t : State) (core slot : Nat) (w : Wave) (rbf : Bool) (lanes : Mask) (kind cause addr info : Nat) : Prop where
  wave : Stands t core slot w
  latches : ∀ u, t.wave? core slot = some u → ∀ n l, l < 32 →
    u.latch n l = if rbf && hasLane (s.focus.lanes &&& ~~~ lanes) l then 0 else w.latch n l
  held : ∀ u, t.wave? core slot = some u → ∃ r ∈ u.streams, r.lanes = lanes ∧ r.st = .held (s.uids + 1) s.focus.len rbf
  pcs  : ∀ u, t.wave? core slot = some u → ∀ l, l < 32 →
    u.pc l = if hasLane (s.focus.lanes &&& ~~~ lanes) l then behind s % 2 ^ 57 else w.pc l
  record : ∃ r ∈ t.recs, r.id = s.uids + 1 ∧ r.aslot = w.aslot ∧ r.core = core ∧ r.uid = w.uid ∧ r.lanes = lanes ∧ r.held = true ∧
    r.done = 0 ∧ r.kind = kind ∧
    r.words = recordWords s.focus.pc addr s.focus.insn w.stamp lanes info kind cause 0 (if w.handler.isSome then 1 else 0) slot core 0

/-- Every record has its own name. -/
def NamedRecs (s : State) : Prop := (∀ r ∈ s.recs, 1 ≤ r.id ∧ r.id ≤ s.uids) ∧ (s.recs.map (·.id)).Nodup

/-- What a resolution code or a return writes: two bits of a word, the others as before (R366). -/
def CodeAt (old new lane code : Nat) : Prop :=
  ∀ b, b < 64 → new.testBit b = if b / 2 = lane then code.testBit (b % 2) else old.testBit b

/-! ## Transfers -/

/-- A transfer processor has issued one program transfer (R321) and goes on; the destination lines are absent from then on (R82). -/
structure Issued (s t : State) (core x : Nat) (p : XP) (shape : CShape) (dst : Place) (total : Nat) (lines : List (Nat × Nat)) : Prop where
  copy  : ∃ k, (t.core core).copies = (s.core core).copies ++ [k] ∧ k.id = s.uids + 1 ∧ k.xp = x ∧ k.from' = .prog ∧
    p.bind.aslot.getD 0 = k.aslot ∧ k.lid = p.bind.lid ∧ k.shape = shape ∧ k.dst = dst ∧ k.total = total ∧ k.pos = 0 ∧ k.done = false ∧
    k.err = false ∧ k.lines = lines
  lines : ∀ i l, l ∈ (t.core i).absent ↔ l ∈ (s.core i).absent ∨ (i, l) ∈ lines
  self  : t.xp core x = { p with
    pc := (loopStep 5 p.loops (s.focus.pc + s.focus.len)).2
    loops := (loopStep 5 p.loops (s.focus.pc + s.focus.len)).1
    st := .running }
  cores : ∀ i, { t.core i with copies := [], absent := [], xp0 := XP.init, xp1 := XP.init } =
    { s.core i with copies := [], absent := [], xp0 := XP.init, xp1 := XP.init }
  rest  : { quietState t with uids := 0 } = { quietState s with uids := 0 }

/-- Program transfers of a transfer processor that are outstanding (R321). -/
def outstanding (s : State) (core x : Nat) : Nat := ((s.core core).copies.filter fun c => c.xp == x && c.from' == .prog).length

/-- A core's counted barrier set to a count, with a list of waiters (R328). -/
def withBarrier (s : State) (core cb n : Nat) (wait : List (Waiter × Nat)) : State :=
  s.modCore core fun c => { c with cb := listPut ⟨0, []⟩ 16 c.cb cb ⟨n, wait⟩ }

/-! ## Collectives -/

/-- The result word of R352. -/
def resultWord (st cnt late : Nat) : Word := BitVec.ofNat 32 (st * 2 ^ 30 + cnt % 2 ^ 13 * 2 ^ 17 + Min.min late 0x1FFFF)

/-- The command's place in its wave's queue holds its result. -/
def Resulted (s t : State) (uid id : Nat) (x : Word) : Prop :=
  ∀ i k v, s.wave? i k = some v → v.uid = uid → ∃ u, t.wave? i k = some u ∧
    u.collQ = v.collQ.map fun (y : Nat × CollSlot) => if y.2.cmd = id then (y.1, { y.2 with res := some x }) else y

/-- The open accesses of an engine's flow to the members of a route, and the number that its next one takes (R386, R387). -/
def engineOpen (s : State) (c : Comm) (route : Nat) : List FlowAcc :=
  (s.findFlow (bitsN c.w0.toNat 61 60) 5 c.aslot route).elim [] fun i => (s.flow i).open'
def engineNext (s : State) (c : Comm) (route : Nat) : Nat :=
  (s.findFlow (bitsN c.w0.toNat 61 60) 5 c.aslot route).elim 0 fun i => (s.flow i).next

/-- The engine of a communicator has sent messages to members, each in its flow by the member's route with the next number, where the route's entry
serves (R385, R395). -/
def Told (s t : State) (c : Comm) (ms : List (Nat × EngMsg)) : Prop :=
  ∀ r, ∃ as, engineOpen t c r = engineOpen s c r ++ as ∧
    as.map (·.req) = (ms.filter fun m => listGet 0 c.members m.1 == r && routeOk (s.route c.aslot r)).map (fun m => RemReq.engine m.2) ∧
    ∀ i a, as[i]? = some a → a.seq = engineNext s c r + i

/-- The result of a step `now` from the contributions accepted into it: in the order of ranks, of one rank the least late first, each element
averaged (R156, R397); a contribution that is too short has no part in an element (the model's reading, log 33). -/
def Averages (now : Nat) (parts : List Contrib) (data : List Word) : Prop :=
  ∃ ps : List Contrib, ps.Perm parts ∧ ps.Pairwise (fun a b => a.rank < b.rank ∨ a.rank = b.rank ∧ b.step ≤ a.step) ∧
    data.length = ps.foldl (fun n p => Max.max n p.data.length) 0 ∧
    ∀ i, i < data.length → Reduces ((ps.filter fun p => decide (i < p.data.length)).map fun p =>
      (now - p.step, (listGet 0 p.data i).toNat)) (listGet 0 data i).toNat

/-- The pieces of a range in global memory are mapped, plain, and found at the leaves `lf`. -/
def Mapped (s : State) (core aslot va n : Nat) (k : AKind) (lf : Nat → Leaf) : Prop :=
  FreshTlb s core aslot ∧ ∀ x ∈ pieces va n, Reaches s aslot x.1 x.2 k (lf x.1) ∧ PlainSector s ((lf x.1).pa x.1)

/-- A range within one page can be written, sector after sector, and holds no entry of the tables on the way to itself. -/
structure Storable (s : State) (core aslot va n : Nat) (leaf : Leaf) : Prop where
  mapped : Mapped s core aslot va n .store fun _ => leaf
  page   : va % 65536 + n ≤ 65536
  spare  : ∀ x ∈ pieces va n, ∀ y ∈ pieces va n, SparesTables s aslot 32 (leaf.pa x.1) y.1

/-- The bytes of a mapped range. -/
def rangeBytes (s : State) (va n : Nat) (lf : Nat → Leaf) : List Byte :=
  (pieces va n).flatMap fun x => rdBytes s.mem ((lf x.1).pa x.1) x.2

/-! ## Chain walks -/

/-- A walk of a transfer processor stands at a record that it has read and that is the walker's (R311, R313). -/
structure AtRecord (s : State) (core x : Nat) (w : Walk) : Prop where
  which : x < 2
  on    : (s.core core).disabled = false ∧ (s.core core).gated = false
  here  : (s.xp core x).walk = some w
  words : w.words.length = 8
  own   : bitN (w.word 1) 63 = true
  idle  : w.busy = false
  held  : w.wb = none

/-- The word 0x08 that a record gets back: own cleared, the status in its byte (R313). -/
def statusWord (w : Walk) (st : Nat) : Nat := putBits (putBits (w.word 1) 63 63 0) 47 40 st

/-- Where the walk goes on. -/
def nextRecord (w : Walk) : Option Walk := if w.word 0 = 0 ∨ w.word 0 % 64 ≠ 0 then none else some ⟨w.bind, w.word 0, [], false, [], none⟩

/-- Word 0x08 of the record can be written back plainly. -/
structure CanReturn (s : State) (core : Nat) (w : Walk) (leaf : Leaf) : Prop where
  reach   : Reaches s (w.bind.aslot.getD 0) (w.cur + 8) 8 .store leaf
  fresh   : FreshTlb s core (w.bind.aslot.getD 0)
  plain   : PlainSector s (leaf.pa (w.cur + 8))
  unraced : (w.bind.lid.bind (aget s.launches)).elim false (·.blk.race) = false

/-- No allocation of any core waits to be released (R333). -/
def SettledAllocs (s : State) : Prop := ∀ i, ∀ a ∈ (s.core i).allocs, a.ended.length < a.waves

/-! ## Schedulers, distributor, admission -/

/-- A wave that may take a run: one of its lanes is ready, it has not yielded, or has waited as long as R45 lets it, and pre-emption does not
wait for it (R44, R45, R350). -/
def MayRun (s : State) (core slot : Nat) : Prop :=
  ∃ w, s.wave? core slot = some w ∧ s.ready core w = true ∧ (w.yieldTo = [] ∨ s.holdsBack core w = false) ∧ w.uid ∉ s.leaving core

/-- The runs, of a new name, of a wave whose granted part has none (R36, R38): one of the lanes at the broadcast address, one of each other
lane. -/
def newRuns (part group : Mask) (rid : Nat) : List Stream :=
  (if group = 0 then [] else [⟨group, 0, 0, true, .run, 0, false, rid, [], none⟩]) ++
    (lanesOf (part &&& ~~~ group)).map fun l => ⟨laneMask l, 0, 0, false, .run, 0, false, rid, [], none⟩

/-- A wave as it is admitted for the first time (R32). -/
structure Fresh (u : Wave) (lid : Nat) (l : Launch) (wix : Nat) : Prop where
  pcs    : ∀ i, i < 32 → u.pc i = l.blk.entry % 2 ^ 57
  bcast  : u.bcast.toNat = l.blk.entry % 2 ^ 57
  args   : ∀ n, n < 8 → u.sreg n = listGet 0 l.blk.args n
  scal   : ∀ n, 8 ≤ n → u.sreg n = 0
  vec    : ∀ n i, u.vreg n i = 0
  preds  : ∀ n, n < 15 → u.pred n = 0
  barriers : ∀ n, n < 8 → listGet ⟨some 1, 1⟩ u.rb n = ⟨none, 0⟩
  queues : u.collQ = []
  group  : u.bcLanes = fullMask
  own    : u.lid = lid ∧ u.stamp = lid ∧ u.wix = wix ∧ u.aslot = l.aslot ∧ u.priv = l.priv ∧ u.prio = l.blk.prio ∧ u.d = l.blk.vregs ∧
    u.handler = none ∧ u.ended = 0

/-- The core that stands in for another (R56, R64): itself while it is enabled, else the lowest enabled one of its cluster, else of its
die. -/
def StandsIn (s : State) (c d : Nat) : Prop :=
  (s.core d).disabled = false ∧
  (d = c ∨ (s.core c).disabled = true ∧ d < 1024 ∧
    ((coreCluster d = coreCluster c ∧ ∀ e, e < d → coreCluster e = coreCluster c → (s.core e).disabled = true) ∨
     ((∀ e, e < 1024 → coreCluster e = coreCluster c → (s.core e).disabled = true) ∧ coreDie d = coreDie c ∧
      ∀ e, e < d → coreDie e = coreDie c → (s.core e).disabled = true)))

/-- Victim `a` comes before victim `b` in the order of a thief (R63). -/
def StealsFirst (core a b : Nat) : Prop :=
  let far (v : Nat) : Nat := if coreCluster v = coreCluster core then 0 else 1
  far a < far b ∨ far a = far b ∧ (manhattan core a < manhattan core b ∨ manhattan core a = manhattan core b ∧ a < b)

/-! ## Tokens, events, lost ports -/

/-- The tokens of a line after a core has got what it asked for (R88, R89): every one for a write; for a read at least one, with no other
holder of more. -/
def Tokens (t : State) (line holder : Nat) (write : Bool) : Prop :=
  (∃ e, aget (t.core holder).l1 line = some e ∧ if write then e.tokens = 1025 else 1 ≤ e.tokens) ∧
  ∀ i e, i ≠ holder → aget (t.core i).l1 line = some e → write = false ∧ e.tokens ≤ 1

/-- A report to the device event ring (R413): an entry and a vector, or one more dropped. -/
structure Reported (s t : State) (code core slot : Nat) (detail : List Nat) : Prop where
  sent : s.ev.cfg.getLsbD 31 = true → (s.ev.head + 2 ^ 32 - s.ev.tail) % 2 ^ 32 ≠ s.ev.cap →
    t.ev = { s.ev with head := (s.ev.head + 1) % 2 ^ 32 } ∧ t.msix = s.ev.cfg.toNat % 64 :: s.msix ∧
    ∀ i, i < 8 → rdNum t.hostMem ((s.ev.base.toNat + 64 * (s.ev.head % s.ev.cap)) % 2 ^ 64 + 8 * i) 8 =
      (if i = 0 then code + 256 * core else if i = 1 then slot else listGet 0 detail (i - 2)) % 2 ^ 64
  dropped : s.ev.cfg.getLsbD 31 = false ∨ (s.ev.head + 2 ^ 32 - s.ev.tail) % 2 ^ 32 = s.ev.cap →
    t.ev = { s.ev with drop := Min.min (s.ev.drop + 1) 0xFFFFFFFF } ∧ t.msix = s.msix ∧ t.hostMem = s.hostMem

def portAt (s : State) (k : Nat) : Port := listGet Port.init s.ports k

/-- What becomes of the accesses of every flow once port `k` is up again, or down (R391): one that has left stays as it is; one that its link holds
keeps its port unless that is down, goes to another of its route that is not, and leaves where the port is up. -/
def Freed (s t : State) (k : Nat) (up : Bool) : Prop :=
  let isUp (j : Nat) : Bool := if j = k then up else (portAt s j).st == .up
  let isDown (j : Nat) : Bool := if j = k then !up else (portAt s j).st == .down
  ∀ f, List.Forall₂ (fun a b : FlowAcc => (a.sent = true → b = a) ∧ (a.sent = false → ∃ p,
      (isDown a.port = false → p = a.port) ∧
      (isDown a.port = true → (∃ j ∈ routePorts a.entry, isDown j = false) → p ∈ routePorts a.entry ∧ isDown p = false) ∧
      b = if isUp p then { a with port := p, first := s.us, last := s.us, sent := true } else { a with port := p }))
    (s.flow f).open' (t.flow f).open'

/-- Every access of a flow has left. -/
def AllSent (s : State) : Prop := ∀ f, ∀ a ∈ (s.flow f).open', a.sent = true

/-- A port is down, and it is reported; what it held leaves by another port wherever the route allows one (R391, R413). -/
structure PortLost (s t : State) (k : Nat) : Prop where
  port   : (portAt t k).st = .down
  others : AllSent s → ∀ j, j < 18 → j ≠ k → portAt t j = portAt s j
  event  : Reported s t 8 0 0 [k]
  freed  : Freed s t k false

/-- Host memory after a write of bytes. -/
def HostWritten (s t : State) (a : Nat) (bs : List Byte) : Prop :=
  ∀ b, rdByte t.hostMem b = if a ≤ b ∧ b < a + bs.length then listGet 0 bs (b - a) else rdByte s.hostMem b

/-! ## The host's side -/

/-- Channel `c` is served before channel `d` at the present turn (R408): a higher level, or nearer in the round of its level. -/
def ServedFirst (s : State) (c d : Nat) : Prop :=
  let near (x : Nat) : Nat := (x % 4 + 3 - listGet 3 s.chRR (x / 4) % 4) % 4
  d / 4 < c / 4 ∨ d / 4 = c / 4 ∧ near c < near d

/-- A command may start (R411): the part is ready and none runs. -/
def MayCommand (s : State) : Prop := s.boot.mode = 1 ∧ s.mb.cmd = none

/-- A command has completed with a status. -/
def Completed (t : State) (st : Nat) : Prop := t.mb.cmd = none ∧ t.mb.stat = BitVec.ofNat 32 (2 ^ 31 + st)

/-! ## Fetch, memory -/

/-- A granted wave stands at its next instruction: its run, not suspended, at a page that it may fetch from; the content of its fetch block
has not changed since the launch first read it (R39). -/
structure AtFetch (s : State) (core : Nat) (g : Grant) (w : Wave) (r : Stream) (leaf : Leaf) : Prop where
  grant  : listGet none (s.core core).grants (g.slot / 8) = some g
  written : s.recordWaits w.uid = false
  wave   : s.wave? core g.slot = some w
  run    : w.streams.find? (Stream.going g) = some r
  going  : r.st = .run
  first  : r.accs = [] ∧ r.since = none
  lanes  : r.lanes ≠ 0
  alive  : r.lanes &&& w.ended = 0
  reach  : Reaches s w.aslot (w.pc (lowLane r.lanes)) 4 .fetch leaf
  fresh  : FreshTlb s core w.aslot
  plain  : PlainSector s (leaf.pa (w.pc (lowLane r.lanes)))
  code   : w.handler.isSome = true ∨ ∀ x ∈ s.code, x.1 = w.lid → x.2.1 = addrBlock (leaf.pa (w.pc (lowLane r.lanes))) →
    x.2.2 = rdBytes s.mem (addrBlock (leaf.pa (w.pc (lowLane r.lanes)))) 32

/-- `u` is `s` in which the run of a wave is about to execute the instruction of a word: of the rest only the clock has moved, and what the
hardware keeps of code, leaves, tokens and L1 lines. -/
structure Fetched (s u : State) (core : Nat) (g : Grant) (w : Wave) (r : Stream) (word : BitVec 128) (dt : Nat) (tape : List Turn) : Prop where
  runs  : Runs u core g.slot w
  focus : u.focus = r.focus core g.slot (w.pc (lowLane r.lanes)) word
  clock : u.cyc = s.cyc + dt ∧ u.us = s.us + (s.sub + dt) / s.mhz ∧ u.sub = (s.sub + dt) % s.mhz
  cores : ∀ i, { u.core i with l1 := [] } = { s.core i with l1 := [] }
  rest  : { bare u with cores := [], code := [], focus := s.focus, cyc := s.cyc, us := s.us, sub := s.sub, rank := s.rank } =
    { bare s with cores := [], code := [], tape := tape }

/-- Every memory of bytes is in canonical form. -/
def Canonical (s : State) : Prop :=
  Memory.wf s.mem = true ∧ Memory.wf s.hostMem = true ∧ ∀ l, s.lehr = some l → Memory.wf l.mem = true

end Sys2Proof.Claim
end

