-- ==== Sys2Proof/Certificates/Slice0/Obligations.lean ====
section
/-! DEFINITION. The statements for the provers. -/

open Sys2Proof Sys2Proof.Machine Sys2Proof.Claim

/-! ## Integer, address and bit instructions -/

/-- R217, R219, R220: `add`, `sub`, `mul`, `mad`, `abs` and `addi` compute modulo 2^W in each of their forms. -/
def Obligations.IntegerSumsAndProducts : Prop :=
  (∀ o ∈ ([⟨.add, asWide, on2 fun _ x y => x + y⟩, ⟨.sub, asWide, on2 fun _ x y => x - y⟩,
      ⟨.mul, asWide, on2 fun _ x y => x * y⟩] : List Bin), o.Holds) ∧
  (⟨.mad, on3 fun _ x y z => x * y + z⟩ : Ter).Holds ∧
  (⟨.abs, asWide, on1 fun _ x => if x.toInt < 0 then -x else x⟩ : Una).Holds ∧
  ∀ imm, (⟨fun c w o => .addi c w o imm, asWide, on1 fun n x => x + imm.signExtend n⟩ : Una).Holds

/-- R217: the upper half of the product, minimum, maximum and the saturating sums, signed and unsigned. -/
def Obligations.IntegerBoundedResults : Prop :=
  ∀ sg, ∀ o ∈ ([⟨fun c => .mulh c sg, asWide, on2 fun n x y => BitVec.ofInt n (num sg x * num sg y / 2 ^ n)⟩,
      ⟨fun c => .min c sg, asWide, on2 fun _ x y => if num sg x ≤ num sg y then x else y⟩,
      ⟨fun c => .max c sg, asWide, on2 fun _ x y => if num sg y ≤ num sg x then x else y⟩,
      ⟨fun c => .adds c sg, asWide, on2 fun n x y =>
        BitVec.ofInt n (Max.max (least sg n) (Min.min (most sg n) (num sg x + num sg y)))⟩,
      ⟨fun c => .subs c sg, asWide, on2 fun n x y =>
        BitVec.ofInt n (Max.max (least sg n) (Min.min (most sg n) (num sg x - num sg y)))⟩] : List Bin), o.Holds

/-- R218: quotient and remainder, with a zero divisor and with the most negative value divided by -1. -/
def Obligations.DivisionResults : Prop :=
  ∀ sg, ∀ o ∈ ([⟨fun c => .div c sg, asWide, on2 (quotient sg)⟩, ⟨fun c => .rem c sg, asWide, on2 (remainder sg)⟩] : List Bin),
    o.Holds

/-- R221: the bitwise operations; with them the immediate forms of R220. -/
def Obligations.LogicResults : Prop :=
  (∀ o ∈ ([⟨.and, asWide, on2 fun _ x y => x &&& y⟩, ⟨.or, asWide, on2 fun _ x y => x ||| y⟩,
      ⟨.xor, asWide, on2 fun _ x y => x ^^^ y⟩, ⟨.andn, asWide, on2 fun _ x y => x &&& ~~~y⟩] : List Bin), o.Holds) ∧
  ∀ imm, ∀ o ∈ ([⟨fun c w o => .andi c w o imm, asWide, on1 fun n x => x &&& imm.signExtend n⟩,
      ⟨fun c w o => .ori c w o imm, asWide, on1 fun n x => x ||| imm.signExtend n⟩,
      ⟨fun c w o => .xori c w o imm, asWide, on1 fun n x => x ^^^ imm.signExtend n⟩] : List Una), o.Holds

/-- R222, R223: shifts and rotations by a count taken modulo W; a register count is a single word. -/
def Obligations.ShiftResults : Prop :=
  (∀ o ∈ ([⟨.shl, single32, fun n a k => on1 (fun n x => x <<< (k % n)) n a⟩,
      ⟨.shr, single32, fun n a k => on1 (fun n x => x >>> (k % n)) n a⟩,
      ⟨.sra, single32, fun n a k => on1 (fun n x => x.sshiftRight (k % n)) n a⟩,
      ⟨.rol, single32, fun n a k => on1 (fun n x => x.rotateLeft (k % n)) n a⟩,
      ⟨.ror, single32, fun n a k => on1 (fun n x => x.rotateRight (k % n)) n a⟩] : List Bin), o.Holds) ∧
  ∀ k : BitVec 18, ∀ o ∈ ([⟨fun c w o => .shli c w o k, asWide, on1 fun n x => x <<< (k.toNat % n)⟩,
      ⟨fun c w o => .shri c w o k, asWide, on1 fun n x => x >>> (k.toNat % n)⟩,
      ⟨fun c w o => .srai c w o k, asWide, on1 fun n x => x.sshiftRight (k.toNat % n)⟩,
      ⟨fun c w o => .roli c w o k, asWide, on1 fun n x => x.rotateLeft (k.toNat % n)⟩,
      ⟨fun c w o => .rori c w o k, asWide, on1 fun n x => x.rotateRight (k.toNat % n)⟩] : List Una), o.Holds

/-- R226: counts, which are single registers, and reorders. -/
def Obligations.CountsAndReorders : Prop :=
  ∀ o ∈ ([⟨.popc, single32, fun n a => (List.range n).countP (BitVec.ofNat n a).getLsbD⟩,
      ⟨.clz, single32, fun n a => ((List.range n).takeWhile fun i => !(BitVec.ofNat n a).getLsbD (n - 1 - i)).length⟩,
      ⟨.ctz, single32, fun n a => ((List.range n).takeWhile fun i => !(BitVec.ofNat n a).getLsbD i).length⟩,
      ⟨.brev, asWide, on1 fun n x => BitVec.ofFnLE fun i : Fin n => x.getLsbD (n - 1 - i)⟩,
      ⟨.bswap, asWide, on1 fun n x => BitVec.ofFnLE fun i : Fin n => x.getLsbD (8 * (n / 8 - 1 - i / 8) + i % 8)⟩] : List Una),
    o.Holds

/-- R224, R225: bit fields of at least one bit: extracted with zero or sign extension, and inserted. -/
def Obligations.BitFields : Prop :=
  ∀ (sg : Bool) (pos : BitVec 6) (len : BitVec 7), 1 ≤ len.toNat →
    (⟨fun c w o => .bfe c sg w o pos len, asWide, on1 fun n x => BitVec.ofFnLE fun i : Fin n =>
      if sg then x.getLsbD (pos.toNat + Min.min i.val (len.toNat - 1))
      else decide (i.val < len.toNat) && x.getLsbD (pos.toNat + i)⟩ : Una).Holds ∧
    (⟨fun c w o => .bfi c w o pos len, asWide, on2 fun n x y => BitVec.ofFnLE fun i : Fin n =>
      if pos.toNat ≤ i.val ∧ i.val < pos.toNat + len.toNat then x.getLsbD (i - pos.toNat) else y.getLsbD i⟩ : Bin).Holds

/-- R227, R228: the carry-less product, the prefix exclusive OR, deposit and extraction of bits. -/
def Obligations.CarrylessAndPermutation : Prop :=
  (∀ o ∈ ([⟨.clmul, asWide, on2 fun n x y => BitVec.ofFnLE fun k : Fin n => productBit n x y k⟩,
      ⟨.clmulh, asWide, on2 fun n x y => BitVec.ofFnLE fun k : Fin n => productBit n x y (n + k)⟩,
      ⟨.pdep, asWide, on2 fun n x y => BitVec.ofFnLE fun i : Fin n =>
        y.getLsbD i && x.getLsbD ((List.range i).countP y.getLsbD)⟩,
      ⟨.pext, asWide, on2 fun n x y => BitVec.ofFnLE fun k : Fin n =>
        (((List.range n).filter y.getLsbD)[k.val]?).elim false x.getLsbD⟩] : List Bin), o.Holds) ∧
  (⟨.pxor, asWide, on1 fun n x => BitVec.ofFnLE fun i : Fin n => (List.range (i + 1)).countP x.getLsbD % 2 == 1⟩ : Una).Holds

/-- R230, R232 to R234: moves, immediates, formed addresses, lane numbers and selection. -/
def Obligations.MovesAndAddresses : Prop :=
  ∀ (c : Ctl) (s : State),
    (∀ core slot w, Runs s core slot w →
      (∀ wide uni d b, VecResult s core slot w (.mov c wide (.vec uni d b)) c uni d wide (w.bsrc wide b)) ∧
      (∀ wide d b, ScalResult s core slot w (.mov c wide (.scal d b)) c d wide (w.scal wide b)) ∧
      (∀ sg wide imm uni d, VecResult s core slot w (.movi c sg wide (.vec uni d) imm) c uni d wide fun _ =>
        if sg then (imm.signExtend 64).toNat else imm.toNat) ∧
      (∀ sg wide imm d, ScalResult s core slot w (.movi c sg wide (.scal d) imm) c d wide
        (if sg then (imm.signExtend 64).toNat else imm.toNat)) ∧
      (∀ u sh imm uni d a b, VecResult s core slot w (.lea c u sh (.vec uni d a b) imm) c uni d true fun l =>
        leaAddress u sh imm (w.src true a l) (w.bsrc false b l)) ∧
      (∀ u sh imm d a b, ScalResult s core slot w (.lea c u sh (.scal d a b) imm) c d true
        (leaAddress u sh imm (w.scal true a) (w.scal false b))) ∧
      (∀ d, VecResult s core slot w (.lane c d) c false d false fun l => l) ∧
      ∀ wide uni d a b (p : BitVec 4), VecResult s core slot w (.isel c wide uni d a b p) c uni d wide fun l =>
        if hasLane (w.pred p.toNat) l then w.src wide a l else w.bsrc wide b l) ∧
    ∀ core x p, XRuns s core x p → c.guard = always →
      (∀ wide (d b : SReg), DResult s core x p (.mov c wide (.scal d b)) d.toNat wide (dval p wide b)) ∧
      (∀ sg wide imm (d : SReg), DResult s core x p (.movi c sg wide (.scal d) imm) d.toNat wide
        (if sg then (imm.signExtend 64).toNat else imm.toNat)) ∧
      ∀ u sh imm (d a b : SReg), DResult s core x p (.lea c u sh (.scal d a b) imm) d.toNat true
        (leaAddress u sh imm (dval p true a) (dval p false b))

/-- R229, R231, R244: comparisons and combinations write one predicate of each Active lane; a scalar comparison gives every lane its one
result. -/
def Obligations.ComparisonResults : Prop :=
  ∀ (c : Ctl) (s : State) (core slot : Nat) (w : Wave), Runs s core slot w →
    (∀ cond wide p a b, PredResult s core slot w (.icmp c cond wide p (.vec a b)) c p fun l =>
      compares cond (BitVec.ofNat (wbits wide) (w.src wide a l)) (BitVec.ofNat (wbits wide) (w.bsrc wide b l))) ∧
    (∀ cond wide p a b, PredResult s core slot w (.icmp c cond wide p (.scal a b)) c p fun _ =>
      compares cond (BitVec.ofNat (wbits wide) (w.scal wide a)) (BitVec.ofNat (wbits wide) (w.scal wide b))) ∧
    (∀ cond wide p a (imm : BitVec 18), PredResult s core slot w (.icmpi c cond wide p (.vec a) imm) c p fun l =>
      compares cond (BitVec.ofNat (wbits wide) (w.src wide a l)) (imm.signExtend _)) ∧
    (∀ cond wide p a (imm : BitVec 18), PredResult s core slot w (.icmpi c cond wide p (.scal a) imm) c p fun _ =>
      compares cond (BitVec.ofNat (wbits wide) (w.scal wide a)) (imm.signExtend _)) ∧
    (∀ op p (a b : BitVec 4), PredResult s core slot w (.plop c op p a b) c p fun l =>
      combines op (hasLane (w.pred a.toNat) l) (hasLane (w.pred b.toNat) l)) ∧
    ∀ cond f64 p a b, ∃ val : Nat → Bool, PredResult s core slot w (.fcmp c cond f64 p a b) c p val ∧
      ∀ l, val l = true ↔ FloatCompares cond (if f64 then fF64 else fF32) (w.src f64 a l) (w.bsrc f64 b l)

/-! ## Floating point, conversion and lanes -/

/-- R237 to R243, R245: every floating-point instruction completes with its operation applied to each element of its operands. What the
arithmetic computes is said by `RoundedArithmetic` and `SpecialValues`; reciprocals are the exact value rounded once to nearest with 11
fraction bits, or all the format has; a class mask has the one bit of the class. -/
def Obligations.FloatResults : Prop :=
  (∀ f ∈ arithFmts, ∀ x, x < 2 ^ f.width →
    let near (q : ℝ) (r : Nat) : Prop := RoundsTo f (Min.min f.mb 11) .rn 0 false q r
    let rcp := rcpF f (f.decode x)
    let rsq := rsqF f (f.decode x)
    (IsNum f x → ¬IsZero f x → near (1 / (value f x : ℝ)) rcp ∧
      if negative f x = true then rsq = f.dnan else near (1 / Real.sqrt (value f x)) rsq) ∧
    (IsZero f x → rcp = f.sign (negative f x) f.infEnc ∧ rsq = f.sign (negative f x) f.infEnc) ∧
    (IsInf f x → rcp = f.sign (negative f x) 0 ∧ rsq = if negative f x = true then f.dnan else 0) ∧
    (IsNaN f x → rcp = f.dnan ∧ rsq = f.dnan) ∧
    ∀ bit, InClass f x bit ↔ f.classMask x = 2 ^ bit) ∧
  ∀ (c : Ctl) (uni : Bool) (f : FFmt) (s : State) (core slot : Nat) (w : Wave) (d : Dst) (a : Src) (b : BSrc) (e : Src),
    Runs s core slot w →
    let one (i : Instr) (op : NumFmt → Nat → Nat) := VecResult s core slot w i c uni d (f == .f64) fun l =>
      elem1 f (op (ffmtNum f)) (w.src (f == .f64) a l)
    let two (i : Instr) (op : NumFmt → Nat → Nat → Nat) := VecResult s core slot w i c uni d (f == .f64) fun l =>
      elem2 f (op (ffmtNum f)) (w.src (f == .f64) a l) (w.bsrc (f == .f64) b l)
    let three (i : Instr) (op : NumFmt → Nat → Nat → Nat → Nat) := VecResult s core slot w i c uni d (f == .f64) fun l =>
      elem3 f (op (ffmtNum f)) (w.src (f == .f64) a l) (w.bsrc (f == .f64) b l) (w.src (f == .f64) e l)
    (∀ m, two (.fadd c uni f m d a b) (faddM m) ∧ two (.fsub c uni f m d a b) (fsubM m) ∧
      two (.fmul c uni f m d a b) (fmulM m) ∧ two (.fdiv c uni f m d a b) (fdivM m) ∧
      one (.fsqrt c uni f m d a) (fun g x => sqrtF g m (g.decode x)) ∧
      three (.ffma c uni f m d a b e) (ffmaM m) ∧ three (.ffms c uni f m d a b e) (ffmsM m) ∧
      three (.fnma c uni f m d a b e) (fnmaM m)) ∧
    two (.fmin c uni f d a b) fminE ∧ two (.fmax c uni f d a b) fmaxE ∧
    one (.fabs c uni f d a) (fun g x => signedAs g x false) ∧ one (.fneg c uni f d a) (fun g x => signedAs g x (!negative g x)) ∧
    two (.fsgn c uni f d a b) (fun g x y => signedAs g x (negative g y)) ∧
    one (.frcp c uni f d a) (fun g x => rcpF g (g.decode x)) ∧ one (.frsq c uni f d a) (fun g x => rsqF g (g.decode x)) ∧
    VecResult s core slot w (.fclass c uni f d a) c uni d false fun l =>
      elem1 f (ffmtNum f).classMask (w.src (f == .f64) a l)

/-- R144, R145, R150, R241: on finite operands sums, differences, products, quotients, square roots and fused products are the
exact result, rounded once; an overflow gives what the mode says. -/
def Obligations.RoundedArithmetic : Prop :=
  ∀ f ∈ arithFmts, ∀ m, m ≠ .sr → ∀ x y z, IsNum f x → IsNum f y → IsNum f z →
    Rounded f m (value f x + value f y) (faddM m f x y) ∧
    Rounded f m (value f x - value f y) (fsubM m f x y) ∧
    Rounded f m (value f x * value f y) (fmulM m f x y) ∧
    (value f y ≠ 0 → Rounded f m (value f x / value f y) (fdivM m f x y)) ∧
    (0 < value f x → RoundsTo f f.mb m 0 false (Real.sqrt (value f x)) (sqrtF f m (f.decode x))) ∧
    Rounded f m (value f x * value f y + value f z) (ffmaM m f x y z) ∧
    Rounded f m (value f x * value f y - value f z) (ffmsM m f x y z) ∧
    Rounded f m (-(value f x * value f y) + value f z) (fnmaM m f x y z)

/-- R150, R151: NaN operands, infinities and zeros. The default NaNs are those of R136, the largest numbers those of R135. The sign of a zero or
infinite product, of a zero quotient and of an infinity divided by a number, and the sum of zeros that are all +0, are the model's (log 79). -/
def Obligations.SpecialValues : Prop :=
  fF32.dnan = 0x7FC00000 ∧ fF64.dnan = 0x7FF8000000000000 ∧ fF16.dnan = 0x7E00 ∧ fBF16.dnan = 0x7FC0 ∧
  fE5M2.dnan = 0x7E ∧ fE4M3.dnan = 0x7F ∧
  value fF64 fF64.maxEnc = (2 - 1 / 2 ^ 52) * 2 ^ 1023 ∧ value fF32 fF32.maxEnc = (2 - 1 / 2 ^ 23) * 2 ^ 127 ∧
  value fF16 fF16.maxEnc = 65504 ∧ value fBF16 fBF16.maxEnc = (2 - 1 / 2 ^ 7) * 2 ^ 127 ∧
  value fE5M2 fE5M2.maxEnc = 57344 ∧ value fE4M3 fE4M3.maxEnc = 448 ∧
  ∀ f ∈ arithFmts, ∀ m, m ≠ .sr → ∀ x y z, x < 2 ^ f.width → y < 2 ^ f.width → z < 2 ^ f.width →
    AddsSpecial f m x y (faddM m f x y) ∧ AddsSpecial f m x (flipped f y) (fsubM m f x y) ∧ MultipliesSpecial f x y (fmulM m f x y) ∧
    DividesSpecial f x y (fdivM m f x y) ∧ RootSpecial f x (sqrtF f m (f.decode x)) ∧ FusesSpecial f m x y z (ffmaM m f x y z) ∧
    FusesSpecial f m x y (flipped f z) (ffmsM m f x y z) ∧ FusesSpecial f m (flipped f x) y z (fnmaM m f x y z) ∧
    LesserOf f x y (fminE f x y) ∧ GreaterOf f x y (fmaxE f x y)

/-- R248, R250, R253 to R256: conversions, the random draw and the lane operations complete with the values of their entries. An element of
a conversion is its source's exact value, rounded once (R146); a draw is Philox-4x32-10 (R147, R148). -/
def Obligations.ConversionAndLaneResults : Prop :=
  (∀ (w : Wave) (dty sty : CTy) (sel : BitVec 2) (cnt : CCnt) (m : RMode) (sat : Bool) (srcs : List Src) (ei : Src) (sb l : Nat),
    (floatOf dty ≠ none ∨ floatOf sty ≠ none) → (sat = true → dty = .e5m2 ∨ dty = .e4m3) →
    (if sty.width < 32 then sty.width * (sel.toNat + 1) ≤ 32 else sel = 0) →
    (1 < ccntN cnt → ccntN cnt * dty.width ≤ 32) →
    let res := cvtLane w dty sty sel.toNat (ccntN cnt) m sat srcs ei sb l
    res < 2 ^ (ccntN cnt * dty.width) ∧ ∀ k, k < ccntN cnt →
      Converts dty sty m
        (if m = .sr then (draws (w.sreg sb) (w.sreg (sb + 1)) (BitVec.ofNat 64 (w.src true ei l + k)) (w.sreg (sb + 2)) 0).1.toNat
          else 0) sat
        (w.src (sty.width == 64) (listGet (.reg 0) srcs k) l / 2 ^ (sty.width * sel.toNat) % 2 ^ sty.width)
        (res / 2 ^ (dty.width * k) % 2 ^ dty.width)) ∧
  (∀ (seed tid n j : Word) (e : DWord),
    let x := drawWords seed.toNat tid.toNat e.toNat n.toNat j.toNat
    let y := draws seed tid e n j
    drawWord x 0 = y.1.toNat ∧ drawWord x 1 = y.2.1.toNat ∧ drawWord x 2 = y.2.2.1.toNat ∧ drawWord x 3 = y.2.2.2.toNat) ∧
  (∀ ty x, x < 2 ^ wbits (laneTyWide ty) → ∀ f, laneTyFloat ty = some f →
    (IsNaN f x → laneLeaf ty x = f.dnan) ∧ (¬IsNaN f x → laneLeaf ty x = x)) ∧
  (∀ ty x, laneTyFloat ty = none → laneLeaf ty x = x) ∧
  ∀ (c : Ctl) (s : State) (core slot : Nat) (w : Wave) (d : Dst), Runs s core slot w →
    let group (l : Nat) : Mask := if s.focus.bc then s.active c.guard else laneMask l
    (∀ uni dty sty sel cnt m sat a b e f ei (sb : SReg),
      VecResult s core slot w (.cvt c uni dty sty sel cnt m sat d a b e f ei sb) c uni d (dty.width == 64) fun l =>
        cvtLane w dty sty sel.toNat (ccntN cnt) m sat [a, b, e, f] ei sb.toNat l) ∧
    (∀ uni sel e j (sb : SReg), VecResult s core slot w (.rng c uni sel d e j sb) c uni d false fun l =>
      drawWord (drawWords (w.sreg sb.toNat).toNat (w.sreg (sb.toNat + 1)).toNat (w.src true e l) (w.sreg (sb.toNat + 2)).toNat
        (w.bsrc false j l)) sel.toNat) ∧
    (∀ mode a b, ∃ t w1, exec (.shfl c mode d a b) s = .next t ∧ Ends s core slot w1 t c.rbf ∧
      VecWritten w w1 (s.active c.guard) d false fun l =>
        let n := w.bsrc false b l
        let m : Nat := match mode with
          | .idx => n
          | .up => if n ≤ l then l - n else 32
          | .down => l + n
          | .xor => if n < 32 then l ^^^ n else 32
        w.src false a (if m < 32 ∧ hasLane (group l) m = true then m else l)) ∧
    (∀ op (p : BitVec 4), ∃ t w1, exec (.vote c op d p) s = .next t ∧ Ends s core slot w1 t c.rbf ∧
      VecWritten w w1 (s.active c.guard) d false fun l =>
        let some' := (lanesOf (group l)).any (hasLane (w.pred p.toNat))
        let every := (lanesOf (group l)).all (hasLane (w.pred p.toNat))
        match op with
        | .any => some'.toNat
        | .all => every.toNat
        | .ballot => (group l &&& w.pred p.toNat).toNat
        | .eq => (!some' || every).toNat) ∧
    ∀ op ty a, (laneTyFloat ty ≠ none → op = .add ∨ op = .min ∨ op = .max) →
      let leaves (l : Nat) (p : Nat → Bool) := ((lanesOf (group l)).filter p).map fun k => laneLeaf ty (w.src (laneTyWide ty) a k)
      (∃ t w1 val, exec (.lred c op ty d a) s = .next t ∧ Ends s core slot w1 t c.rbf ∧
        VecWritten w w1 (s.active c.guard) d (laneTyWide ty) val ∧
        ∀ l ∈ lanesOf (s.active c.guard), TreeFolds (LaneCombines op ty) (leaves l fun _ => true) (val l)) ∧
      ∀ x, ∃ t w1 val, exec (.lscan c op ty x d a) s = .next t ∧ Ends s core slot w1 t c.rbf ∧
        VecWritten w w1 (s.active c.guard) d (laneTyWide ty) val ∧
        ∀ l ∈ lanesOf (s.active c.guard), match leaves l fun k => if x then decide (k < l) else decide (k ≤ l) with
          | [] => LaneIdentity op ty (val l)
          | y :: ys => FoldsTo (LaneCombines op ty) y ys (val l)

/-! ## Global memory -/

/-- R259, R260, R263: a load whose addresses translate to plain sectors gives every Active lane the bytes there, extended; in the scalar
form the wave, and a transfer processor, one value. -/
def Obligations.LoadResults : Prop :=
  ∀ (c : Ctl) (sz : Sz) (m : MAttr) (off : BitVec 24) (s : State) (core : Nat),
    (∀ slot w uni d base idx (leaf : Nat → Leaf), Runs s core slot w → Direct s core w (s.active c.guard) →
      (∀ x ∈ s.groups c.guard uni, Reaches s w.aslot (w.gaddr base idx (szBytes sz) off x.1) (szBytes sz) .load (leaf x.1) ∧
        PlainSector s ((leaf x.1).pa (w.gaddr base idx (szBytes sz) off x.1))) →
      ∃ t w1, exec (.ld c sz m (.vec uni d base idx) off) s = .next t ∧ EndsRead s core slot w1 t c.rbf ∧
        VecWritten w w1 (s.active c.guard) d (szWide sz) fun l =>
          let k := srcLane s c.guard uni l
          szExtend sz (rdNum s.mem ((leaf k).pa (w.gaddr base idx (szBytes sz) off k)) (szBytes sz))) ∧
    (∀ slot w d base leaf, Runs s core slot w → Direct s core w (s.active c.guard) → s.active c.guard ≠ 0 →
      Reaches s w.aslot (s.saddr base off) (szBytes sz) .load leaf → PlainSector s (leaf.pa (s.saddr base off)) →
      ∃ t w1, exec (.ld c sz m (.scal d base) off) s = .next t ∧ EndsRead s core slot w1 t c.rbf ∧
        ScalWritten w w1 (s.active c.guard) d (szWide sz)
          (szExtend sz (rdNum s.mem (leaf.pa (s.saddr base off)) (szBytes sz)))) ∧
    ∀ x p (d base : SReg) aslot leaf, XRuns s core x p → c.guard = always → XDirect s core p aslot →
      Reaches s aslot (s.saddr base off) (szBytes sz) .load leaf → PlainSector s (leaf.pa (s.saddr base off)) →
      ∃ t p1, exec (.ld c sz m (.scal d base) off) s = .next t ∧ XEndsRead s core x p1 t ∧
        DWritten p p1 d.toNat (szWide sz) (szExtend sz (rdNum s.mem (leaf.pa (s.saddr base off)) (szBytes sz)))

/-- R264: a store writes the low bytes of its value, little-endian, at the address that it translates to: one access of the uniform or the
scalar form, else one of each lane, in ascending order, so that where bytes overlap the highest lane's stay. No lane stores into the tables
that a later lane's address needs. -/
def Obligations.StoreResults : Prop :=
  ∀ (c : Ctl) (sz : StSz) (m : MAttr) (off : BitVec 24) (s : State) (core slot : Nat) (w : Wave),
    Runs s core slot w → Direct s core w (s.active c.guard) → Answered s w m.ord (s.active c.guard) →
    (∀ uni base idx data (leaf : Nat → Leaf),
      let n := stBytes sz
      let va (l : Nat) : Nat := w.gaddr base idx n off l
      let pa (l : Nat) : Nat := (leaf l).pa (va l)
      (∀ x ∈ s.groups c.guard uni, Reaches s w.aslot (va x.1) n .store (leaf x.1) ∧ PlainSector s (pa x.1) ∧
        ∀ y ∈ s.groups c.guard uni, x.1 < y.1 → SparesTables s w.aslot 32 (pa x.1) (va y.1)) →
      ∃ t, exec (.st c sz m (.vec uni base idx data) off) s = .next t ∧ EndsWrite s core slot w t c.rbf ∧
        ∀ a, rdByte t.mem a =
          match (s.groups c.guard uni).reverse.find? fun x => decide (pa x.1 ≤ a) && decide (a < pa x.1 + n) with
          | some x => listGet 0 (toBytes n (w.src (sz == .b64) data x.1)) (a - pa x.1)
          | none => rdByte s.mem a) ∧
    ∀ base data leaf, s.active c.guard ≠ 0 → Reaches s w.aslot (s.saddr base off) (stBytes sz) .store leaf →
      PlainSector s (leaf.pa (s.saddr base off)) →
      ∃ t, exec (.st c sz m (.scal base data) off) s = .next t ∧ EndsWrite s core slot w t c.rbf ∧
        MemWritten s t (leaf.pa (s.saddr base off)) (toBytes (stBytes sz) (w.scal (sz == .b64) data))

/-- R94, R264: contributions within live commutative ranges change no byte of memory: each is folded, in ascending lane order, into the core's
partial of its element. -/
def Obligations.ContributionResults : Prop :=
  ∀ (c : Ctl) (wide : Bool) (m : MAttr) (off : BitVec 24) (s : State) (core slot : Nat) (w : Wave),
    Runs s core slot w → Direct s core w (s.active c.guard) → Answered s w m.ord (s.active c.guard) →
    let n := if wide then 8 else 4
    let after (t : State) (xs : List (Nat × CrOp × Nat)) : Prop :=
      t.mem = s.mem ∧
      (∀ e, let now := (t.core core).partials.find? fun p => p.pa == e
        match (((s.core core).partials.find? fun p => p.pa == e).map fun p => (p.op, p.val.toNat)).toList ++
            (xs.filter fun x => x.1 == e).map (·.2) with
        | [] => now = none
        | y :: ys => ∃ p, now = some p ∧ p.op = y.1 ∧
          FoldsTo (fun x (y : CrOp × Nat) z => CrCombines y.1 x y.2 z) y.2 ys p.val.toNat) ∧
      (t.core core).partials.filter (fun p => xs.all fun x => x.1 != p.pa) =
        (s.core core).partials.filter (fun p => xs.all fun x => x.1 != p.pa) ∧
      KeepsWave s t core slot w c.rbf ∧
      (∀ i, i ≠ core → (t.core i).partials = (s.core i).partials) ∧ t.slots = s.slots
    (∀ uni base idx data (leaf : Nat → Leaf) (r : Nat → CrRange),
      let va (l : Nat) : Nat := w.gaddr base idx n off l
      let pa (l : Nat) : Nat := (leaf l).pa (va l)
      (∀ x ∈ s.groups c.guard uni, Reaches s w.aslot (va x.1) n .contrib (leaf x.1) ∧ isExt (pa x.1) = false ∧
        s.sealedLine (pa x.1) = false ∧ s.contribRange w.aslot (va x.1) n = some (r x.1) ∧
        ∀ y ∈ s.groups c.guard uni, x.1 < y.1 → SparesTables s w.aslot 128 (pa x.1) (va y.1)) →
      ∃ t, exec (.stCr c wide m (.vec uni base idx data) off) s = .next t ∧
        after t ((s.groups c.guard uni).map fun x => (pa x.1, (r x.1).op, w.src wide data x.1))) ∧
    ∀ base data leaf r, s.active c.guard ≠ 0 →
      let va := s.saddr base off
      Reaches s w.aslot va n .contrib leaf → isExt (leaf.pa va) = false → s.sealedLine (leaf.pa va) = false →
      s.contribRange w.aslot va n = some r →
      ∃ t, exec (.stCr c wide m (.scal base data) off) s = .next t ∧ after t [(leaf.pa va, r.op, w.scal wide data)]

/-- R176, R267: atomics are performed in ascending lane order, or once under the uniform bit; each returns the value that it found and leaves
the new one, in one step. No lane writes into the tables that a later lane's address needs. -/
def Obligations.AtomicResults : Prop :=
  ∀ (c : Ctl) (uni : Bool) (op : AtomOp) (wide : Bool) (m : MAttr) (d : Dst) (base : ABase) (b e : Src) (off : BitVec 24) (s : State)
    (core slot : Nat) (w : Wave) (leaf : Nat → Leaf),
    Runs s core slot w → Direct s core w (s.active c.guard) → Answered s w m.ord (s.active c.guard) →
    let n := if wide then 8 else 4
    let va (l : Nat) : Nat := w.gaddr base none 1 off l
    let pa (l : Nat) : Nat := (leaf l).pa (va l)
    (∀ x ∈ s.groups c.guard uni, va x.1 % n = 0 ∧ Reaches s w.aslot (va x.1) n .atomic (leaf x.1) ∧ PlainSector s (pa x.1) ∧
      ∀ y ∈ s.groups c.guard uni, x.1 < y.1 → SparesTables s w.aslot 32 (pa x.1) (va y.1)) →
    let perform (mem : List Host.Cell) (l : Nat) : List Host.Cell :=
      wrBytes mem (pa l) (toBytes n (atomValue op (wbits wide) (BitVec.ofNat _ (rdNum mem (pa l) n)) (BitVec.ofNat _ (w.src wide b l))
        (BitVec.ofNat _ (w.src wide e l))).toNat)
    let memAt (p : Nat → Bool) : List Host.Cell := (((s.groups c.guard uni).map (·.1)).filter p).foldl perform s.mem
    ∃ t w1, exec (.atom c uni op wide m d base b e off) s = .next t ∧ EndsWrite s core slot w1 t c.rbf ∧
      VecWritten w w1 (s.active c.guard) d wide (fun l =>
        let k := srcLane s c.guard uni l
        rdNum (memAt fun j => decide (j < k)) (pa k) n) ∧
      t.mem = memAt fun _ => true

/-! ## The scratchpad -/

/-- R80 to R83, R265, R266: a scratchpad load whose offsets lie in the allocation and whose lines are present reads each lane's bytes. Under
`.pclr` the lanes that execute together name one line, which one read clears, and diverged lanes read and clear one after another; a line that is
absent, or for which a load of an earlier arrival waits, parks the load. `ldc` reads the scratchpad of the core of the cluster that its operand
names. That a load of a wave that takes no run is not served first is the model's reading (log 72). -/
def Obligations.ScratchpadLoads : Prop :=
  ∀ (c : Ctl) (uni : Bool) (sz : Sz) (pclr : Bool) (m : MAttr) (d : Dst) (a : Src) (b : BSrc) (off : BitVec 24) (s : State)
    (core slot : Nat) (w : Wave) (loc : Nat → Nat), Runs s core slot w →
    let n := szBytes sz
    let lanes := s.groups c.guard uni
    let read (i : Instr) (at' : Nat → Nat) : Prop :=
      let line (x : Nat × Mask) : Nat × Nat := (at' x.1, loc x.1 / 128)
      let absent (y : Nat × Nat) : Prop := y.2 ∈ (s.core y.1).absent
      (∀ x ∈ lanes, s.spadByte (at' x.1) (w.soff a off x.1) n false = .ok (loc x.1)) →
      (pclr = true → s.focus.bc = true → ∀ x ∈ lanes, ∀ y ∈ lanes, line x = line y) →
      ((∀ x ∈ lanes, ¬absent (line x)) →
        (pclr = true → (∀ x ∈ lanes, Unclaimed s (line x)) ∧
          (s.focus.bc = false → ∀ x ∈ lanes, ∀ y ∈ lanes, x.1 ≠ y.1 → line x ≠ line y)) →
        ∃ t w1, exec i s = .next t ∧
          VecWritten w w1 (s.active c.guard) d (szWide sz)
            (fun l => let k := srcLane s c.guard uni l; szExtend sz (rdSpad (s.core (at' k)) (loc k) n)) ∧
          Ends (lanes.foldl (fun s x =>
            if pclr then s.modCore (at' x.1) fun c => c.setPresent (loc x.1 / 128) false else s)
            { s with uids := s.uids + if pclr = false then 0 else if s.focus.bc then Min.min lanes.length 1 else lanes.length })
            core slot w1 t c.rbf) ∧
      (pclr = true → lanes ≠ [] → ∀ k, (∀ x ∈ lanes, line x = k) →
        (absent k ∨ ∃ y ∈ s.resident, s.halted y.1 y.2.2 = false ∧ ∃ r ∈ y.2.2.streams, ∃ ks m len rbf insn,
          r.st = .park (.consume ks m) len rbf insn ∧ k ∈ ks ∧ m ≤ s.uids) →
        (s.focus.bc = true ∨ lanes.length = 1) →
        ∃ t, exec i s = .next t ∧ ParksOn s t core slot w c.rbf (s.active c.guard) (.consume [k] (s.uids + 1)) ∧
          (∀ j, (t.core j).absent = (s.core j).absent) ∧ t.mem = s.mem)
    (∀ (k : Nat × Nat) (n i : Nat) (u : Wave) (lanes : Mask), s.parkOver i u lanes (.consume [k] n) = true ↔
      k.2 ∉ (s.core k.1).absent ∧ ∀ y ∈ s.resident, s.halted y.1 y.2.2 = false → ∀ r ∈ y.2.2.streams, ∀ ks m len rbf insn,
        r.st = .park (.consume ks m) len rbf insn ∨ r.st = .resume (.consume ks m) len rbf insn → k ∈ ks → n ≤ m) ∧
    read (.lds c uni sz pclr m d a off) (fun _ => core) ∧
    ((∀ x ∈ s.groups c.guard uni, w.bsrc false b x.1 < 64) →
      read (.ldc c uni sz pclr m d a b off) fun l => coreOfCluster (coreCluster core) (w.bsrc false b l))

/-- R81, R82, R265, R266: a scratchpad store writes each lane's bytes, the highest lane last, whether lines are present or not; `.pset`
makes the lines present. -/
def Obligations.ScratchpadStores : Prop :=
  ∀ (c : Ctl) (uni : Bool) (sz : StSz) (pset : Bool) (m : MAttr) (a data : Src) (b : BSrc) (off : BitVec 24) (s : State)
    (core slot : Nat) (w : Wave) (loc : Nat → Nat), Runs s core slot w → Answered s w m.ord (s.active c.guard) →
    (ordReleases m.ord = true → (s.core core).lanesLog w.uid (s.active c.guard) = []) →
    let n := stBytes sz
    let write (i : Instr) (at' : Nat → Nat) : Prop :=
      (∀ x ∈ s.groups c.guard uni, s.spadByte (at' x.1) (w.soff a off x.1) n false = .ok (loc x.1)) →
      ∃ t, exec i s = .next t ∧ KeepsWave s t core slot w c.rbf ∧ t.mem = s.mem ∧ t.slots = s.slots ∧
        (∀ k y, mget 0 (t.core k).spad y =
          match (s.groups c.guard uni).reverse.find? fun x => at' x.1 == k && decide (loc x.1 ≤ y) && decide (y < loc x.1 + n) with
          | some x => listGet 0 (toBytes n (w.src (sz == .b64) data x.1)) (y - loc x.1)
          | none => mget 0 (s.core k).spad y) ∧
        ∀ k line, line ∈ (t.core k).absent ↔ line ∈ (s.core k).absent ∧
          ¬(pset = true ∧ ∃ x ∈ s.groups c.guard uni, at' x.1 = k ∧ loc x.1 / 128 = line)
    write (.sts c uni sz pset m a data off) (fun _ => core) ∧
    ((∀ x ∈ s.groups c.guard uni, w.bsrc false b x.1 < 64) →
      write (.stc c uni sz pset m a b data off) fun l => coreOfCluster (coreCluster core) (w.bsrc false b l))

/-! ## Versioned blocks, sealed regions, commutative ranges -/

/-- R270, R272: a load from versioned blocks whose tags have reached the step reads like a plain load; `vstep` reads a block's tag and
raises it, never lowers it. -/
def Obligations.VersionedLoadsAndSteps : Prop :=
  ∀ (c : Ctl) (m : MAttr) (s : State) (core slot : Nat) (w : Wave),
    Runs s core slot w → Direct s core w (s.active c.guard) →
    (∀ uni sz d base sM sC off (leaf : Nat → Leaf),
      (∀ x ∈ s.groups c.guard uni, let va := w.gaddr base none 1 off x.1
        Reaches s w.aslot va (szBytes sz) .load (leaf x.1) ∧ PlainSector s ((leaf x.1).pa va) ∧ pteVer (leaf x.1).pte = true ∧
        w.scal false sM ≤ s.tag ((leaf x.1).pa va)) →
      ∃ t w1, exec (.ldv c uni sz m d base sM sC off) s = .next t ∧ EndsRead s core slot w1 t c.rbf ∧
        VecWritten w w1 (s.active c.guard) d (szWide sz) fun l =>
          let k := srcLane s c.guard uni l
          szExtend sz (rdNum s.mem ((leaf k).pa (w.gaddr base none 1 off k)) (szBytes sz))) ∧
    ∀ sB leaf, s.active c.guard ≠ 0 → w.scal true sB % 65536 = 0 → pteVer leaf.pte = true → isExt (leaf.pa (w.scal true sB)) = false →
      (∀ d, Reaches s w.aslot (w.scal true sB) 1 .load leaf →
        ∃ t w1, exec (.vstepRd c m d sB) s = .next t ∧ EndsRead s core slot w1 t c.rbf ∧
          ScalWritten w w1 (s.active c.guard) d false (s.tag (leaf.pa (w.scal true sB)))) ∧
      ∀ sU, Reaches s w.aslot (w.scal true sB) 1 .store leaf → s.openRemote w.uid (s.active c.guard) = false →
        ∃ t, exec (.vstepSet c m sB sU) s = .next t ∧ KeepsWave s t core slot w c.rbf ∧ t.mem = s.mem ∧ t.slots = s.slots ∧
          ∀ f, mget 0 t.tags f = if f = leaf.pa (w.scal true sB) / 65536
            then BitVec.ofNat 32 (Max.max (s.tag (leaf.pa (w.scal true sB))) (w.scal false sU)) else mget 0 s.tags f

/-- R271: an update of a block at a step above its tag replaces every element by the rounded new value, sets the tag and answers 1; one at
a step that the tag has reached changes nothing and answers 0. -/
def Obligations.BlockUpdates : Prop :=
  ∀ (c : Ctl) (add : Bool) (fmt : VFmt) (rm : RMode) (m : MAttr) (d sB sS sP : SReg) (s : State) (core slot : Nat) (w : Wave) (leaf : Leaf),
    Runs s core slot w → Direct s core w (s.active c.guard) → s.active c.guard ≠ 0 → s.openRemote w.uid (s.active c.guard) = false →
    let va := w.scal true sB
    let src := w.scal true sS
    let pa := leaf.pa va
    let u := (w.sreg (sP.toNat + 4)).toNat
    let eb := (vfmtNum fmt).width / 8
    let n := 65536 / eb
    va % 65536 = 0 → Reaches s w.aslot va 1 .atomic leaf → pteVer leaf.pte = true → isExt pa = false → s.anySealed pa 65536 = false →
    (u ≤ s.tag pa → ∃ t w1, exec (.vupd c add fmt rm m d sB sS sP) s = .next t ∧ KeepsWave s t core slot w1 c.rbf ∧
      ScalWritten w w1 (s.active c.guard) d false 0 ∧ t.mem = s.mem ∧ t.tags = s.tags) ∧
    (s.tag pa < u → src % 4 = 0 → w.cbuf = [] → (∀ cr ∈ s.cores, cr.2.partials = []) →
      ∀ lf : Nat → Leaf, (∀ x ∈ pieces src (4 * n), Reaches s w.aslot x.1 x.2 .load (lf x.1) ∧ PlainSector s ((lf x.1).pa x.1)) →
      let source := (pieces src (4 * n)).flatMap fun x => rdBytes s.mem ((lf x.1).pa x.1) x.2
      let draw (i : Nat) := drawRound (w.sreg sP.toNat).toNat (w.sreg (sP.toNat + 1)).toNat
        (((w.spair (sP.toNat + 2)).toNat + i) % 2 ^ 64) u
      ∃ t w1, exec (.vupd c add fmt rm m d sB sS sP) s = .next t ∧ KeepsWave s t core slot w1 c.rbf ∧
        ScalWritten w w1 (s.active c.guard) d false 1 ∧
        MemWritten s t pa ((vupdElems add (vfmtNum fmt) rm draw (chunks eb n (rdBytes s.mem pa 65536)) (chunks 4 n source)).flatMap
          (toBytes eb)) ∧
        ∀ f, mget 0 t.tags f = if f = pa / 65536 then BitVec.ofNat 32 u else mget 0 s.tags f)

/-- R91 to R93, R95, R273 to R275: sealing and unsealing mark exactly the lines of the range; declaring enters the range; flushing leaves
in an element the combined value of its partials. For a range within one page. -/
def Obligations.RangeInstructions : Prop :=
  ∀ (c : Ctl) (m : MAttr) (sB sL : SReg) (s : State) (core slot : Nat) (w : Wave) (leaf : Leaf) (a : ASlot),
    Runs s core slot w → Direct s core w (s.active c.guard) → s.active c.guard ≠ 0 → s.slot? w.aslot = some a →
    s.openRemote w.uid (s.active c.guard) = false →
    let base := w.scal true sB
    let pa := leaf.pa base
    let ok (len : Nat) : Prop := base % 128 = 0 ∧ len % 128 = 0 ∧ 128 ≤ len ∧ len ≤ 65536 - base % 65536 ∧
      Reaches s w.aslot base 1 .atomic leaf ∧ isExt pa = false
    (ok (w.scal false sL) → (∀ cr ∈ s.cores, cr.2.partials = []) → a.rangeMeets base (w.scal false sL) = false →
      (∃ t, exec (.seal c m sB sL) s = .next t ∧ KeepsWave s t core slot w c.rbf ∧ t.mem = s.mem ∧ t.slots = s.slots ∧
        ∀ line, aget t.sealed line = if pa / 128 ≤ line ∧ line < (pa + w.scal false sL) / 128 then some w.aslot else aget s.sealed line) ∧
      (∀ op, a.ranges.length < 64 → ∃ t, exec (.crdecl c op m sB sL) s = .next t ∧ KeepsWave s t core slot w c.rbf ∧ t.mem = s.mem ∧
        t.sealed = s.sealed ∧ t.slot? w.aslot = some { a with ranges := a.ranges ++ [⟨base, w.scal false sL, op⟩] })) ∧
    (ok (w.scal false sL) → (∀ cr ∈ s.cores, cr.2.log = []) →
      ∃ t, exec (.unseal c m sB sL) s = .next t ∧ KeepsWave s t core slot w c.rbf ∧ t.mem = s.mem ∧
        t.slot? w.aslot = some { a with epoch := a.epoch + 1 } ∧
        ∀ line, aget t.sealed line = if pa / 128 ≤ line ∧ line < (pa + w.scal false sL) / 128 then none else aget s.sealed line) ∧
    ∀ (fin : Bool) (r : CrRange) (e : Nat), a.ranges.find? (fun r => r.base == base) = some r → ok r.len →
      pa ≤ e → e + crBytes r.op ≤ pa + r.len → e / 128 = (e + crBytes r.op - 1) / 128 →
      (∀ cr ∈ s.cores, ∀ p ∈ cr.2.partials, p.pa = e ∧ p.op = r.op) →
      ∃ t x, exec (.crflush c fin m sB) s = .next t ∧ KeepsWave s t core slot w c.rbf ∧
        (∀ cr ∈ t.cores, cr.2.partials = []) ∧
        TreeFolds (CrCombines r.op)
          (rdNum s.mem e (crBytes r.op) :: s.cores.flatMap fun cr => cr.2.partials.map (·.val.toNat)) x ∧
        MemWritten s t e (toBytes (crBytes r.op) x) ∧
        t.slot? w.aslot = some (if fin then { a with ranges := a.ranges.filter fun x => x.base != base } else a)

/-! ## Waiting, fences, prefetch -/

/-- R131, R268, R269, R276: a fence of a wave without unresolved remote accesses sets its predicate and, with release, counts one
interval however many lanes execute it (the model's reading, log 22);
`prefetch` never faults and changes no register; `mwait` goes on with a word that differs from the one expected, and parks on one that does
not. -/
def Obligations.FencesAndWaits : Prop :=
  ∀ (c : Ctl) (s : State) (core slot : Nat) (w : Wave), Runs s core slot w →
    (∀ strict ord scope (p : BitVec 4), s.active c.guard ≠ 0 → w.remErr = [] →
      (∀ f ∈ s.flows, ∀ a ∈ f.open', a.uid ≠ w.uid ∨ a.kind = .load) →
      ∃ t w1, exec (.fence c strict ord scope p) s = .next t ∧ PredWritten w w1 (s.active c.guard) p (fun _ => true) ∧
        Ends (if ord = .rel ∨ ord = .ar then s.bump (32 * core + slot) 1 else s) core slot w1 t c.rbf) ∧
    (∀ uni home ev base idx off, ∃ t, exec (.prefetch c uni home ev base idx off) s = .next t ∧ KeepsWave s t core slot w c.rbf ∧
      t.slots = s.slots ∧ ((∀ cr ∈ s.cores, cr.2.partials = []) → t.mem = s.mem ∧
        ∀ i, { quietCore (t.core i) with l1 := [], smiss := 0 } = { quietCore (s.core i) with l1 := [], smiss := 0 })) ∧
    ∀ wide m d sA sE sT off leaf, s.active c.guard ≠ 0 → Direct s core w (s.active c.guard) →
      let va := s.saddr sA off
      let n := if wide then 8 else 4
      va % n = 0 → Reaches s w.aslot va n .load leaf → PlainSector s (leaf.pa va) →
      (rdNum s.mem (leaf.pa va) n ≠ w.scal wide sE →
        ∃ t w1, exec (.mwait c wide m d sA sE sT off) s = .next t ∧ EndsRead s core slot w1 t c.rbf ∧
          ScalWritten w w1 (s.active c.guard) d wide (rdNum s.mem (leaf.pa va) n)) ∧
      (rdNum s.mem (leaf.pa va) n = w.scal wide sE →
        ∃ t, exec (.mwait c wide m d sA sE sT off) s = .next t ∧ t.mem = s.mem ∧ ParksOn s t core slot w c.rbf (s.active c.guard)
          (.mwait (leaf.pa va) (if w.scal false sT = 0 then none else some (s.cyc + 1024 * w.scal false sT)) false))

/-! ## Copies, operation packets, the flow query -/

/-- R277, R279, R280: a copy command in form enters its queue and its destination lines become absent; `cseal` closes the open sets of
its lanes into batches; `cwait` with no more unfinished batches than allowed reports errors and clears them. -/
def Obligations.CopyCommands : Prop :=
  ∀ (c : Ctl) (s : State) (core slot : Nat) (w : Wave), Runs s core slot w →
    (∀ sk dk (q : BitVec 3) sS sD sL a b, s.active c.guard ≠ 0 → ¬(w.commit = true ∧ dk = .g) →
      copyBad sk dk (w.scal true sS) (w.scal true sD) (w.scal false sL) = none →
      s.placeOf s.curLid core sk (w.scal true sS) (w.scal false sL) = some a →
      s.placeOf s.curLid core dk (w.scal true sD) (w.scal false sL) = some b → s.queueLen core w.uid q.toNat < 16 →
      ∃ t k, exec (.cpy c sk dk q sS sD sL) s = .next t ∧ (t.core core).copies = (s.core core).copies ++ [k] ∧
        k.id = s.uids + 1 ∧ k.from' = .queue w.uid slot q.toNat (s.active c.guard) ∧ k.shape = .lin a ∧ k.dst = b ∧
        k.total = w.scal false sL ∧ k.pos = 0 ∧ k.xp = (if dk = .g then 1 else 0) ∧
        KeepsWave s t core slot { w with copyOpen := w.copyOpen ++ (lanesOf (s.active c.guard)).map fun l => (l, s.uids + 1) } c.rbf ∧
        (∀ x ∈ placeLines b (w.scal false sL), x.2 ∈ (t.core x.1).absent) ∧ t.mem = s.mem ∧ t.slots = s.slots) ∧
    (s.actSets c.guard = [s.active c.guard] → (∀ l ∈ lanesOf (s.active c.guard), w.batchesOf l < 16) →
      Passes s s core slot ((lanesOf (s.active c.guard)).foldl Wave.sealBatch w) c.rbf (.cseal c)) ∧
    ∀ (n p : BitVec 4), s.actSets c.guard = [s.active c.guard] → (∀ l ∈ lanesOf (s.active c.guard), w.batchesOf l ≤ n.toNat) →
      ∃ t w1, exec (.cwait c n p) s = .next t ∧ PredWritten w w1 (s.active c.guard) p (fun l => !hasLane w.copyErr l) ∧
        Ends s core slot { w1 with copyErr := w.copyErr &&& ~~~ s.active c.guard } t c.rbf

/-- R281, R282: operation packets on plain bonded memory, and the flow query of an entry whose fate is known. -/
def Obligations.PacketsAndQueries : Prop :=
  ∀ (c : Ctl) (s : State) (core slot : Nat) (w : Wave), Runs s core slot w → s.active c.guard ≠ 0 →
    (∀ m (n : BitVec 2) (d sA sB sC : SReg) off leaf, Direct s core w (s.active c.guard) → Answered s w m.ord (s.active c.guard) →
      let k := n.toNat + 1
      let va := s.saddr sA off
      let old := (List.range k).map fun i => BitVec.ofNat 64 (rdNum s.mem (leaf.pa va + 8 * i) 8)
      let words (r : SReg) := (List.range k).map fun i => w.spair (r.toNat + 2 * i)
      va % 8 = 0 → Reaches s w.aslot va (8 * k) .atomic leaf → PlainSector s (leaf.pa va) →
      ∃ t w1, exec (.ropCas c m n d sA sB sC off) s = .next t ∧ EndsWrite s core slot w1 t c.rbf ∧ { w1 with s := w.s } = w ∧
        (∀ i, i < k → w1.spair (d.toNat + 2 * i) = listGet 0 old i) ∧
        (∀ r, r < d.toNat ∨ d.toNat + 2 * k ≤ r → w1.sreg r = w.sreg r) ∧
        MemWritten s t (leaf.pa va) ((if old = words sB then words sC else old).flatMap fun x => toBytes 8 x.toNat)) ∧
    (∀ m (d sA sB : SReg) off leaf nleaf tleaf, Direct s core w (s.active c.guard) → Answered s w m.ord (s.active c.guard) →
      let va := s.saddr sA off
      let node := w.scal true sB
      let header := leaf.pa va
      let tail := rdNum s.mem (header + 8) 8
      let link := if tail = 0 then header else tleaf.pa tail
      let next := nleaf.pa node
      va % 16 = 0 → Reaches s w.aslot va 16 .atomic leaf → PlainSector s header →
      Reaches s w.aslot node 8 .store nleaf → PlainSector s next →
      (tail ≠ 0 → Reaches s w.aslot tail 8 .store tleaf ∧ PlainSector s link) →
      ∃ t w1, exec (.ropEnq c m d sA sB off) s = .next t ∧ EndsWrite s core slot w1 t c.rbf ∧
        ScalWritten w w1 (s.active c.guard) d true tail ∧
        ∀ x, rdByte t.mem x = if header + 8 ≤ x ∧ x < header + 16 then listGet 0 (toBytes 8 node) (x - (header + 8))
          else if link ≤ x ∧ x < link + 8 then listGet 0 (toBytes 8 node) (x - link)
          else if next ≤ x ∧ x < next + 8 then 0 else rdByte s.mem x) ∧
    (∀ m (d sA sH : SReg) off ps, Direct s core w (s.active c.guard) → Answered s w m.ord (s.active c.guard) →
      let h := w.scal false sH
      let a := s.saddr sA off
      let last := ps.getLastD a
      1 ≤ h % 256 → h % 256 ≤ 16 → h < 65536 → Chases s w.aslot (h / 256 * 8) a ps → ps.length ≤ h % 256 →
      (∀ x, a < 2 ^ 57 → s.walk w.aslot a = .leaf x → isExt (x.pa a) = false) →
      let ends (bad : Bool) : Prop := ∃ t w1, exec (.ropChase c m d sA sH off) s = .next t ∧ KeepsWave s t core slot w1 c.rbf ∧
        { w1 with s := w.s } = w ∧ t.mem = s.mem ∧ w1.spair d.toNat = BitVec.ofNat 64 last ∧
        w1.sreg (d.toNat + 2) = BitVec.ofNat 32 (ps.length + if bad then 2 ^ 31 else 0) ∧
        ∀ r, r < d.toNat ∨ d.toNat + 3 ≤ r → w1.sreg r = w.sreg r
      (ps.length = h % 256 ∨ last = 0 → ends false) ∧
      (ps.length < h % 256 → last ≠ 0 → Breaks s w.aslot ((last + h / 256 * 8) % 2 ^ 64) → ends true)) ∧
    ∀ clr (d sI : SReg),
      (w.unres[w.scal false sI]? = none → ∃ t w1, exec (.flq c clr d sI) s = .next t ∧ Ends s core slot w1 t c.rbf ∧ { w1 with s := w.s } = w ∧
        w1.spair d.toNat = 0 ∧ w1.sreg (d.toNat + 2) = BitVec.ofNat 32 w.more) ∧
      ∀ u, w.unres[w.scal false sI]? = some u → u.fate ≠ 0 → ∃ t w1, exec (.flq c clr d sI) s = .next t ∧ Ends s core slot w1 t c.rbf ∧
        { w1 with s := w.s, unres := w.unres } = w ∧ w1.spair d.toNat = BitVec.ofNat 64 u.va ∧
        w1.sreg (d.toNat + 2) = BitVec.ofNat 32 (u.status w.more) ∧
        w1.unres = (if u.fate = 3 then w.unres.set (w.scal false sI) { u with fate := 0 }
          else if clr then w.unres.eraseIdx (w.scal false sI) else w.unres)

/-! ## Control transfer and reconvergence -/

/-- R172, R173, R175, R177: `nop` and a hint do nothing, and so does every well-formed instruction of a wave on whose lanes the guard does
not hold. -/
def Obligations.HintsAndGuards : Prop :=
  ∀ s : State,
    (∀ core slot w, Runs s core slot w →
      (∀ n r, Passes s s core slot w r (.nop n r) ∧ ∀ x, Passes s s core slot w r (.hint n r x)) ∧
      ∀ i c, i.wf .core = true → ctlOf i = some c → s.active c.guard = 0 → Passes s s core slot w c.rbf i) ∧
    ∀ core x p, XRuns s core x p → (∀ n r, XPasses s s core x p (.nop n r)) ∧ ∀ n r y, XPasses s s core x p (.hint n r y)

/-- R207, R209 to R213: where branches, calls and returns send the lanes of a wave: each Active lane on which the branch is taken to
its target, every other to the next instruction. Where the broadcast address stands is the model's reading (log 35). -/
def Obligations.BranchTargets : Prop :=
  ∀ (c : Ctl) (s : State) (core slot : Nat) (w : Wave), Runs s core slot w → Unsplit w →
    let act := s.active c.guard
    let go (i : Instr) (w1 : Wave) (m : Nat → Prop) (dest : Nat → Nat) : Prop :=
      (∀ l ∈ lanesOf act, m l → Target (dest l)) →
      ∃ t, exec i s = .next t ∧ ∀ at' : Nat → Nat,
        (∀ l, (hasLane act l = true ∧ m l → at' l = dest l) ∧ (¬(hasLane act l = true ∧ m l) → at' l = behind s)) →
        EndsAt s core slot w1 t c.rbf at' ∧ Follows s t core slot w at'
    (∀ off, go (.br c off) w (fun _ => True) fun _ => relative s off) ∧
    (∀ cond wide a b off, go (.bcmp c cond wide (.vec a b) off) w
      (fun l => compares cond (BitVec.ofNat (wbits wide) (w.src wide a l)) (BitVec.ofNat (wbits wide) (w.bsrc wide b l)) = true)
      fun _ => relative s off) ∧
    (∀ cond wide a b off, go (.bcmp c cond wide (.scal a b) off) w
      (fun _ => compares cond (BitVec.ofNat (wbits wide) (w.scal wide a)) (BitVec.ofNat (wbits wide) (w.scal wide b)) = true)
      fun _ => relative s off) ∧
    (∀ wide n off, ∃ w1,
      VecWritten w w1 act ⟨some n, none⟩ wide (fun l => (w.src wide (.reg n) l + 2 ^ wbits wide - 1) % 2 ^ wbits wide) ∧
      go (.dbnz c wide (.v n) off) w1 (fun l => w.src wide (.reg n) l ≠ 1) fun _ => relative s off) ∧
    (∀ wide n off, ∃ w1, ScalWritten w w1 act n wide ((w.scal wide n + 2 ^ wbits wide - 1) % 2 ^ wbits wide) ∧
      go (.dbnz c wide (.s n) off) w1 (fun _ => w.scal wide n ≠ 1) fun _ => relative s off) ∧
    (∀ a, go (.brx c (.vec a)) w (fun _ => True) (w.src true a) ∧ go (.ret c (.vec a)) w (fun _ => True) (w.src true a)) ∧
    (∀ n, go (.brx c (.scal n)) w (fun _ => True) (fun _ => w.scal true n) ∧
      go (.ret c (.scal n)) w (fun _ => True) fun _ => w.scal true n) ∧
    ∀ link, ∃ w1, VecWritten w w1 act ⟨some link, none⟩ true (fun _ => behind s) ∧
      (∀ off, go (.call c link off) w1 (fun _ => True) fun _ => relative s off) ∧
      ∀ a, go (.callx c link a) w1 (fun _ => True) (w.src true a)

/-- R207, R209 to R213: where branches, calls and returns send a transfer processor; a target inside its store. -/
def Obligations.TransferProcessorBranches : Prop :=
  ∀ (c : Ctl) (s : State) (core x : Nat) (p : XP), XRuns s core x p → c.guard = always →
    let go (i : Instr) (p1 : XP) (m : Prop) (dest : Nat) : Prop :=
      (m → XTarget p dest → ∃ t, exec i s = .next t ∧ XGoes s core x p1 dest t) ∧
      (¬m → ∃ t, exec i s = .next t ∧ XGoes s core x p1 (behind s) t)
    (∀ off, go (.br c off) p True (relative s off)) ∧
    (∀ cond wide (a b : SReg) off, go (.bcmp c cond wide (.scal a b) off) p
      (compares cond (BitVec.ofNat (wbits wide) (dval p wide a)) (BitVec.ofNat (wbits wide) (dval p wide b)) = true)
      (relative s off)) ∧
    (∀ wide n off, ∃ p1, DWritten p p1 n.toNat wide ((dval p wide n + 2 ^ wbits wide - 1) % 2 ^ wbits wide) ∧
      go (.dbnz c wide (.s n) off) p1 (dval p wide n ≠ 1) (relative s off)) ∧
    (∀ n, go (.brx c (.scal n)) p True (dval p true n) ∧ go (.ret c (.scal n)) p True (dval p true n)) ∧
    ∀ link : BitVec 8, ∃ p1, DWritten p p1 link.toNat true (behind s) ∧
      (∀ off, go (.call c link off) p1 True (relative s off)) ∧
      ∀ n : BitVec 8, go (.callx c link (.reg n)) p1 True (p.dpair n.toNat).toNat

/-- R214: an index below the number of entries loads its entry of the table and goes there; any other falls through: on a wave, and on a
transfer processor whose entry names a place of its store (R206, R306). -/
def Obligations.TableBranches : Prop :=
  (∀ (c : Ctl) (base : SReg) (n : Word) (s : State) (core x : Nat) (p : XP) (aslot : Nat) (leaf : Leaf) (i : SReg),
    XRuns s core x p → c.guard = always →
    let entry : Nat := (dval p true base + 8 * dval p false i) % 2 ^ 64
    let target : Nat := rdNum s.mem (leaf.pa entry) 8
    (n.toNat ≤ dval p false i → ∃ t, exec (.btab c base (.scal i) n) s = .next t ∧ XGoes s core x p (behind s) t) ∧
    (dval p false i < n.toNat → XDirect s core p aslot → dval p true base % 8 = 0 → Reaches s aslot entry 8 .load leaf →
      PlainSector s (leaf.pa entry) → XTarget p target →
      ∃ t, exec (.btab c base (.scal i) n) s = .next t ∧ XGoesRead s core x p target t)) ∧
  ∀ (c : Ctl) (base : SReg) (n : Word) (s : State) (core slot : Nat) (w : Wave) (leaf : Nat → Leaf) (idx : Cmp1),
    Runs s core slot w → Unsplit w → Direct s core w (s.active c.guard) →
    let index (l : Nat) : Nat := match idx with
      | .vec a => w.src false a l
      | .scal r => w.scal false r
    let entry (l : Nat) : Nat := (w.scal true base + 8 * index l) % 2 ^ 64
    let target (l : Nat) : Nat := rdNum s.mem ((leaf l).pa (entry l)) 8
    (∀ l ∈ lanesOf (s.active c.guard), index l < n.toNat → w.scal true base % 8 = 0 ∧
      Reaches s w.aslot (entry l) 8 .load (leaf l) ∧ PlainSector s ((leaf l).pa (entry l)) ∧ Target (target l)) →
    let at' (l : Nat) : Nat := if hasLane (s.active c.guard) l && decide (index l < n.toNat) then target l else behind s
    ∃ t, exec (.btab c base idx n) s = .next t ∧ EndsReadAt s core slot w t c.rbf at' ∧ Follows s t core slot w at'

/-- R40, R109, R131, R215: arming names the members, joining waits until every member has joined, dropping takes the lanes out. Where
the broadcast address stands is the model's reading (log 35), and so is that a join counts one interval however many lanes arrive
(log 22) and that it waits for the logged stores of its lanes (log 60). -/
def Obligations.Reconvergence : Prop :=
  ∀ (c : Ctl) (rb : BitVec 3) (s : State) (core slot : Nat) (w : Wave), Runs s core slot w → Unsplit w →
    let act := s.active c.guard
    let b := listGet ⟨none, 0⟩ w.rb rb.toNat
    let settled (lanes : Mask) : Prop := s.openRemote w.uid lanes = false ∧ (s.core core).lanesLog w.uid lanes = []
    let ends (i : Instr) (s1 : State) (x : RBar) (q : Wave → Prop) : Prop :=
      ∃ t w1, exec i s = .next t ∧ Ends s1 core slot w1 t c.rbf ∧ { w1 with rb := w.rb } = w ∧
        (∀ k, k < 8 → listGet ⟨none, 0⟩ w1.rb k = if k = rb.toNat then x else listGet ⟨none, 0⟩ w.rb k) ∧
        ∀ u, t.wave? core slot = some u → q u
    ends (.rcvArm c rb) s (if act = 0 then b else ⟨some act, 0⟩) (fun _ => True) ∧
    (∀ m, b.members = some m →
      ends (.rcvDrop c rb) s (if act = 0 then b else if m &&& ~~~ act &&& ~~~ b.waiting = 0 then ⟨none, 0⟩
        else ⟨some (m &&& ~~~ act), b.waiting⟩) (fun _ => True) ∧
      (act &&& m ≠ 0 → settled (act &&& m) → m &&& ~~~ (b.waiting ||| act &&& m) ≠ 0 →
        ends (.rcvJoin c rb) (s.bump (32 * core + slot) 1) ⟨some m, b.waiting ||| act &&& m⟩ fun _ => True) ∧
      (act &&& m ≠ 0 → settled (act &&& m) → m &&& ~~~ (b.waiting ||| act &&& m) = 0 →
        ends (.rcvJoin c rb) (s.bump (32 * core + slot) 1) ⟨none, 0⟩ fun u =>
          u.bcast.toNat = u.pc (lowLane (b.waiting ||| act &&& m))) ∧
      (act &&& m = 0 → ends (.rcvJoin c rb) s b fun _ => True)) ∧
    (b.members = none → ends (.rcvDrop c rb) s b (fun _ => True) ∧ ends (.rcvJoin c rb) s b fun _ => True)

/-! ## Exceptions -/

/-- R216, R354, R361 to R365, R334: `brk` and `trap` take the Active lanes into a held record; a global access takes one on an address
that is not canonical, crosses a sector or has no translation; a transfer processor stops at `brk`, once its record, if it is bound, has room. -/
def Obligations.TakingExceptions : Prop :=
  ∀ (c : Ctl) (s : State), NamedRecs s →
    (∀ core slot w, Runs s core slot w → Unsplit w → s.active c.guard ≠ 0 →
      let takes (i : Instr) (kind cause addr info : Nat) : Prop :=
        ∃ t, exec i s = .next t ∧ Trapped s t core slot w c.rbf (s.active c.guard) kind cause addr info
      (∀ code, takes (.brk c code) 0x0A 0 0 code.toNat ∧ takes (.trap c code) 0x23 0 0 code.toNat) ∧
      ∀ (m : MAttr) (r base : SReg) (off : BitVec 24), w.commit = false → (s.core core).lanesLog w.uid (s.active c.guard) = [] →
        let va := s.saddr base off
        (2 ^ 57 ≤ va → (∀ sz, takes (.ld c sz m (.scal r base) off) 2 0 va 0) ∧ ∀ sz, takes (.st c sz m (.scal base r) off) 2 0 va 0) ∧
        (va < 2 ^ 57 → (∀ sz, 32 < va % 32 + szBytes sz → takes (.ld c sz m (.scal r base) off) 3 0 va 0) ∧
          ∀ sz, 32 < va % 32 + stBytes sz → takes (.st c sz m (.scal base r) off) 3 0 va 0) ∧
        (va < 2 ^ 57 → (s.cluster (coreCluster core)).tlb = [] → s.l1Hit core w.aslot va .load = none →
          (∀ e ∈ s.tablePath w.aslot va, s.linePartials (e / 128) = []) → ∀ sz, va % 32 + szBytes sz ≤ 32 →
          (∀ cause, s.walk w.aslot va = .fault cause → takes (.ld c sz m (.scal r base) off) 5 cause va 0) ∧
          ∀ leaf cause, s.walk w.aslot va = .leaf leaf → leafFault s w.aslot va .load leaf = some cause →
            takes (.ld c sz m (.scal r base) off) 5 cause va 0)) ∧
    ∀ core x p, XRuns s core x p → c.guard = always → ∀ code, ∃ t, exec (.brk c code) s = .next t ∧
      t.xp core x = { p with
        st := if t.recs.any (fun r => r.id == s.uids + 1 && r.pending) then .parked (.record (s.uids + 1)) else .stopped
        pc := s.focus.pc + 8, kind := 0x0A, cause := code.toNat % 2 ^ 14 } ∧
      ∀ a, p.bind.aslot = some a → ∃ r ∈ t.recs, r.id = s.uids + 1 ∧ r.aslot = a ∧ r.lanes = 0 ∧ r.kind = 0x0A ∧
        r.words = recordWords s.focus.pc 0 s.focus.insn 0 0 code.toNat 0x0A 0 0 (2 + x) 0 core 0

/-- R355, R366, R372: a returning handler lane writes its code for the lane it stands for, writes the register named, and ends; a register
of a pre-empted origin is written in its context image too. With its last lane the handler wave ends and returns its registers. Readings of the
model: log 24, 50. -/
def Obligations.HandlerReturns : Prop :=
  (∀ (c : Ctl) (wr : Option (BitVec 8 × Src)) (s : State) (core slot : Nat) (w : Wave) (os : List Origin) (o : Nat → Origin) (k : Nat → Nat)
      (ow : Nat → Wave) (leaf : Nat → Leaf), Runs s core slot w → FreshTlb s core w.aslot → w.handler = some os →
    (s.waves.map (·.2.uid)).Nodup → s.active c.guard ≠ 0 →
    let act := lanesOf (s.active c.guard)
    let va (h : Nat) : Nat := (o h).va + 0x38
    let pa (h : Nat) : Nat := (leaf h).pa (va h)
    (∀ h ∈ act, os[h]? = some (o h) ∧ s.findWave (o h).uid = some (k h, ow h) ∧ (o h).uid ≠ w.uid ∧
      hasLane (ow h).ended (o h).lane = false ∧ (o h).lane < 32 ∧ Reaches s w.aslot (va h) 8 .store (leaf h) ∧ PlainSector s (pa h) ∧
      (∀ x, wr = some x → x.1.toNat < (ow h).d ∧ s.findSlot (o h).uid ≠ none) ∧
      ∀ g ∈ act, h ≠ g → (h < g → SparesTables s w.aslot 32 (pa h) (va g)) ∧ ((o h).uid ≠ (o g).uid ∨ (o h).lane ≠ (o g).lane) ∧
        (pa h = pa g ∨ pa h + 8 ≤ pa g ∨ pa g + 8 ≤ pa h)) →
    let returns (i : Instr) (code : Nat) : Prop := ∃ t, exec i s = .next t ∧
      (w.ended ||| s.active c.guard ≠ fullMask → ∃ u, t.wave? core slot = some u ∧ u.ended = w.ended ||| s.active c.guard ∧
        u.v = w.v ∧ u.s = w.s ∧ u.p = w.p) ∧
      (w.ended ||| s.active c.guard = fullMask → w.commit = false → s.openRemote w.uid fullMask = false →
        t.wave? core slot = none ∧ (t.core core).free = (s.core core).free + w.d) ∧
      (∀ h ∈ act, ∃ ou, t.findWave (o h).uid = some (k h, ou) ∧ ou.s = (ow h).s ∧ ou.p = (ow h).p ∧
        (∀ n l, l < 32 → ou.vreg n l =
          match wr, act.find? fun g => (o g).uid == (o h).uid && (o g).lane == l with
          | some x, some g => if n = x.1.toNat then BitVec.ofNat 32 (w.src false x.2 g) else (ow h).vreg n l
          | _, _ => (ow h).vreg n l) ∧
        (∀ b, b < 64 → (rdNum t.mem (pa h) 8).testBit b =
          if ∃ g ∈ act, pa g = pa h ∧ (o g).lane = b / 2 then code.testBit (b % 2) else (rdNum s.mem (pa h) 8).testBit b) ∧
        ∀ r ∈ s.recs, r.pa.map (· + 0x38) = some (pa h) → hasLane r.lanes (o h).lane = true → (∀ x ∈ r.codes, x.1 ≠ (o h).lane) →
          r.held = true → r.uid ≠ w.uid → hasLane r.done (o h).lane = false → ∃ r' ∈ t.recs, r'.id = r.id ∧ ((o h).lane, code) ∈ r'.codes) ∧
      ∀ a, (∀ h ∈ act, ¬(pa h ≤ a ∧ a < pa h + 8)) → rdByte t.mem a = rdByte s.mem a
    returns (.rftAgain c wr) 1 ∧ returns (.rftNext c wr) 2 ∧ returns (.rftEnd c wr) 3) ∧
  ∀ (c : Ctl) (x : BitVec 8 × Src) (s : State) (core slot : Nat) (w : Wave) (os : List Origin) (h : Nat) (o : Origin) (k : Nat)
    (ow : Wave) (leaf img : Leaf), Runs s core slot w → FreshTlb s core w.aslot →
    s.active c.guard = laneMask h → w.handler = some os → os[h]? = some o → s.findSlot o.uid = none →
    s.findWave o.uid = some (k, ow) → o.uid ≠ w.uid → (s.waves.map (·.2.uid)).Nodup → hasLane ow.ended o.lane = false → o.lane < 32 →
    x.1.toNat < ow.d → ow.handler = none →
    let va := o.va + 0x38
    let pa := leaf.pa va
    let word := ow.image + 128 * x.1.toNat + 4 * o.lane
    let cell := img.pa word
    Reaches s w.aslot va 8 .store leaf → PlainSector s pa → Reaches s ow.aslot word 4 .store img → FreshTlb s k ow.aslot →
    PlainSector s cell → cell / 32 ≠ pa / 32 → SparesTables s ow.aslot 32 pa word →
    let returns (i : Instr) (code : Nat) : Prop := ∃ t ou, exec i s = .next t ∧
      (w.ended ||| laneMask h ≠ fullMask → ∃ u, t.wave? core slot = some u ∧ u.ended = w.ended ||| laneMask h ∧ u.v = w.v ∧ u.s = w.s ∧
        u.p = w.p) ∧
      (w.ended ||| laneMask h = fullMask → w.commit = false → s.openRemote w.uid fullMask = false →
        t.wave? core slot = none ∧ (t.core core).free = (s.core core).free + w.d) ∧
      t.findWave o.uid = some (k, ou) ∧ ou.s = ow.s ∧ ou.p = ow.p ∧
      (∀ n l, l < 32 → ou.vreg n l = if n = x.1.toNat ∧ l = o.lane then BitVec.ofNat 32 (w.src false x.2 h) else ow.vreg n l) ∧
      CodeAt (rdNum s.mem pa 8) (rdNum t.mem pa 8) o.lane code ∧
      ∀ a, ¬(pa ≤ a ∧ a < pa + 8) → rdByte t.mem a =
        if cell ≤ a ∧ a < cell + 4 then listGet 0 (toBytes 4 (w.src false x.2 h)) (a - cell) else rdByte s.mem a
    returns (.rftAgain c (some x)) 1 ∧ returns (.rftNext c (some x)) 2 ∧ returns (.rftEnd c (some x)) 3

/-- R361, R362, R373: while the ring has room, the oldest waiting record of a slot is written at its head: 64 bytes, the last word with the
codes that the record's lanes have been given so far, else 0; the head moves on. That codes given before the record is written are written with
it is the model's reading (log 52). -/
def Obligations.RecordsWritten : Prop :=
  ∀ (aslot : Nat) (s : State) (a : ASlot) (r : FRec) (leaf : Leaf),
    s.slot? aslot = some a → s.recs.find? (fun r => r.aslot == aslot && r.pending) = some r → NamedRecs s → r.words.length = 7 →
    r.acc = [] → (∀ x ∈ s.recs, x.owe = false) →
    (r.codes.map (·.1)).Nodup → (∀ x ∈ r.codes, x.1 < 32 ∧ x.2 < 4) →
    let size := bitsN a.fltBase.toNat 3 0 + 6
    let va := (bitsN a.fltBase.toNat 56 12 * 4096 + 64 * (a.fltHead % 2 ^ size)) % 2 ^ 57
    let pa := leaf.pa va
    (a.fltHead + 2 ^ 32 - a.fltTail) % 2 ^ 32 ≠ 2 ^ size → a.trapVec.getLsbD 0 = false →
    Reaches s aslot va 32 .store leaf → FreshTlb s r.core aslot → PlainSector s pa →
    ∃ t, exec (.faultRecordWrite aslot) s = .next t ∧
      MemWritten s t pa (r.words.flatMap (fun x => toBytes 8 x.toNat) ++ toBytes 8 (r.codes.map fun x => x.2 * 4 ^ x.1).sum) ∧
      t.slots = aput s.slots aslot { a with fltHead := (a.fltHead + 1) % 2 ^ 32 } ∧
      (∃ r' ∈ t.recs, r'.id = r.id ∧ r'.pa = some pa ∧ r'.words = r.words) ∧
      (∀ i k, (t.wave? i k).map still = (s.wave? i k).map still)

/-- R366, R45: the codes of a record act on its held lanes: 1 executes the instruction again, 2 goes on behind it, 3 ends the lane;
the resumed lanes form a sub-wave, and every register stays. R370: a group that is due forms a handler wave of its first 32 lanes, with the
stamp of its oldest origin wave. R373, R374: the oldest entry of a thread in the log is performed, where it is diverted or has code 1, and dropped
under code 2 or 3; it leaves the log, unless it faults again; a lane that an atomic holds gets its result, goes on behind it, or ends. How resumed
lanes go on together, and what a replay checks, are the model's readings (log 11, 12, 41). -/
def Obligations.ResolutionsAndReplay : Prop :=
  (∀ (s : State) (core slot : Nat) (w : Wave) (r : FRec) (h : Stream) (len : Nat) (rbf : Bool),
    s.recs.find? (fun x => x.id == r.id) = some r → r.held = true → r.kind ≠ 0x28 → (s.core core).disabled = false →
    s.findSlot r.uid = some (core, slot) → s.wave? core slot = some w → h ∈ w.streams → h.st = .held r.id len rbf →
    (∀ x ∈ w.streams, ∀ n b, x.st = .held r.id n b → x = h) →
    let again := r.coded 1
    let next := r.coded 2
    let stop := r.coded 3
    again ||| next ||| stop ≠ 0 → w.ended ||| stop ≠ fullMask →
    ∃ t u k, exec (.resolutionObserved core r.id) s = .next t ∧ t.wave? core slot = some u ∧ u.ended = w.ended ||| stop ∧
      u.v = w.v ∧ u.s = w.s ∧ u.p = w.p ∧
      (∀ n l, l < 32 → u.latch n l = if hasLane stop l || rbf && hasLane (next &&& h.lanes) l then 0 else w.latch n l) ∧
      (∀ l, l < 32 → u.pc l = if hasLane next l then (w.pc l + len) % 2 ^ 57 else w.pc l) ∧
      (again ||| next ≠ 0 → again ||| next ∈ u.subs) ∧
      (again &&& h.lanes ≠ 0 → ∃ x ∈ u.streams, x.lanes = again &&& h.lanes ∧ x.st = .run ∧ x.count = h.count ∧ x.lwr = h.lwr ∧ x.rid = k) ∧
      (next &&& h.lanes ≠ 0 → rbf = false → ∃ x ∈ u.streams, x.lanes = next &&& h.lanes ∧ x.st = .run ∧ x.count = h.count + 1 ∧
        x.lwr = h.lwr ∧ x.rid = k) ∧
      t.mem = s.mem ∧ t.slots = s.slots) ∧
  (∀ (s : State) (core : Nat) (g : HGroup) (rest : List HGroup) (a : ASlot) (o : Origin) (c0 : Nat) (ls : List (Origin × Nat)),
    (s.core core).handlers = g :: rest → (∀ x ∈ rest, x.aslot ≠ g.aslot ∨ x.entry ≠ g.entry) → g.lanes = (o, c0) :: ls →
    32 ≤ g.lanes.length ∨ c0 + 512 ≤ s.cyc → s.slot? g.aslot = some a → 1 ≤ a.trapCfg.toNat % 64 → a.trapCfg.toNat % 64 ≤ 32 →
    (s.core core).disabled = false → (s.core core).gated = false →
    ∃ t stamp, exec (.handlerWaveForm core) s = .next t ∧ (∀ x ∈ (g.lanes.take 32).map (·.1), stamp ≤ x.stamp) ∧
      (∃ x ∈ (g.lanes.take 32).map (·.1), x.stamp = stamp) ∧
      (t.core core).adm = (s.core core).adm ++
        [.handler g.aslot g.entry (bitsN a.trapCfg.toNat 8 6) (8 * (a.trapCfg.toNat % 64)) stamp ((g.lanes.take 32).map (·.1))] ∧
      (t.core core).handlers = (if g.lanes.length ≤ 32 then rest else { g with lanes := g.lanes.drop 32 } :: rest) ∧
      t.mem = s.mem ∧ t.slots = s.slots ∧ ∀ i k, t.wave? i k = s.wave? i k) ∧
  ∀ (s : State) (core idx : Nat) (e : LogEnt) (code : Nat) (leaf : Leaf),
    (s.core core).log[idx]? = some e → (∀ x ∈ (s.core core).log.take idx, x.uid ≠ e.uid ∨ x.lanes &&& e.lanes = 0) →
    (s.core core).disabled = false → e.race = false → e.acc = none → FreshTlb s core e.aslot →
    (e.fr = none ∧ code = 1 ∨ ∃ id r, e.fr = some id ∧ s.recs.find? (fun r => r.id == id) = some r ∧
      r.codes.find? (fun x => x.1 == e.lane) = some (e.lane, code)) →
    let pa := leaf.pa e.va
    let gone (t : State) : Prop := (t.core core).log = (s.core core).log.filter (fun x => x.id != e.id) ∧
      ∀ r ∈ t.recs, some r.id = e.fr → r.entry = none
    let idle (t : State) : Prop := ∀ i k, (t.wave? i k).map still = (s.wave? i k).map still
    let free := e.rel = true → s.openRemote e.uid e.lanes = false
    let counted (t : State) : Prop :=
      t.ival = (if e.rel = true then s.bump (32 * core + e.slot) (lanesOf e.lanes).length else s).ival
    -- what is dropped changes nothing
    (e.writes = false → code = 2 ∨ code = 3 → ∃ t, exec (.sideLogReplay core idx) s = .next t ∧ gone t ∧ idle t ∧ t.mem = s.mem) ∧
    -- a store, plain or a release
    (∀ n d, e.act = .store n d → e.writes = false → code = 1 → n ≤ 8 → free → Reaches s e.aslot e.va n .store leaf → PlainSector s pa →
      ∃ t, exec (.sideLogReplay core idx) s = .next t ∧ gone t ∧ idle t ∧ MemWritten s t pa (toBytes n d.toNat) ∧ counted t) ∧
    -- one that faults again stays, with a new record
    (∀ cause, e.writes = false → code = 1 → e.va < 2 ^ 57 → s.walk e.aslot e.va = .fault cause → NamedRecs s →
      ∃ t, exec (.sideLogReplay core idx) s = .next t ∧ idle t ∧
        (t.core core).log = ((s.core core).log.map fun x => if x.id = e.id then { x with fr := some (s.uids + 1), why := 5 } else x) ∧
        ∃ r ∈ t.recs, r.id = s.uids + 1 ∧ r.entry = some e.id ∧ r.kind = 5 ∧ r.lanes = e.lanes) ∧
    -- an atomic
    ∀ op wide b y (d : Dst), e.act = .atomic op wide b y d →
      let n := if wide then 8 else 4
      let old := rdNum s.mem pa n
      let put (t : State) : Prop := MemWritten s t pa
        (toBytes n (atomValue op (wbits wide) (BitVec.ofNat _ old) (BitVec.ofNat _ b.toNat) (BitVec.ofNat _ y.toNat)).toNat)
      (wide = false → b.toNat < 2 ^ 32 ∧ y.toNat < 2 ^ 32) →
      (e.writes = false → code = 1 → free → Reaches s e.aslot e.va n .atomic leaf → PlainSector s pa →
        ∃ t, exec (.sideLogReplay core idx) s = .next t ∧ gone t ∧ idle t ∧ put t ∧ counted t) ∧
      ∀ (i slot len : Nat) (w : Wave) (x : Stream) (rbf : Bool) (insn : BitVec 128), e.writes = true → s.wave? i slot = some w →
        w.uid = e.uid → (s.waves.map (·.2.uid)).Nodup → x ∈ w.streams → x.lanes = e.lanes → x.st = .park (.entry [e.id]) len rbf insn →
        (∀ z ∈ w.streams, z ≠ x → ∀ l m q j, z.st = .park (.entry l) m q j → e.id ∉ l) → (∀ v ∈ (s.core core).pre, v.uid ≠ e.uid) →
        (w.ended ||| e.lanes ≠ fullMask) → (∀ r, d.reg = some r → r.toNat + (if wide then 1 else 0) < w.d) →
        let resumes (t : State) (w1 : Wave) : Prop := ∃ u, t.wave? i slot = some u ∧ u.v = w1.v ∧ u.s = w.s ∧ u.p = w.p ∧ u.ended = w.ended ∧
          (∀ m l, l < 32 → u.latch m l = if rbf && hasLane e.lanes l then 0 else w1.latch m l) ∧
          (∀ l, l < 32 → u.pc l = if hasLane e.lanes l then (w.pc l + len) % 2 ^ 57 else w.pc l) ∧
          (rbf = false → ∃ z ∈ u.streams, z.lanes = e.lanes ∧ z.st = .run ∧ z.count = x.count + 1)
        (code = 1 → free → Reaches s e.aslot e.va n .atomic leaf → PlainSector s pa → ∃ t w1, exec (.sideLogReplay core idx) s = .next t ∧
          gone t ∧ put t ∧ counted t ∧ VecWritten w w1 e.lanes d wide (fun _ => old) ∧ resumes t w1) ∧
        (code = 2 → ∃ t, exec (.sideLogReplay core idx) s = .next t ∧ gone t ∧ t.mem = s.mem ∧ resumes t w) ∧
        (code = 3 → ∃ t u, exec (.sideLogReplay core idx) s = .next t ∧ gone t ∧ t.mem = s.mem ∧ t.wave? i slot = some u ∧
          u.ended = w.ended ||| e.lanes ∧ u.v = w.v ∧ u.s = w.s)

/-! ## Matrix instructions -/

/-- R139 to R141, R152, R153, R284 to R290, R301: `mma` adds to each accumulator of an Active lane the exact products of its staging row and
a column of B, rounded once, in every format; the scales come from registers or from the FIFO of the quarter. -/
def Obligations.MatrixProducts : Prop :=
  ∀ (c : Ctl) (fmt : MmaFmt) (sf : Bool) (vC : BitVec 5) (b : MmaB) (bsw : BitVec 13) (aoq : BitVec 3) (vA vB : Src)
      (asel bsel : BitVec 8) (s : State) (core slot : Nat) (w : Wave) (a : Alloc),
    Runs s core slot w → w.handler = none → (s.core core).alloc w.lid = some a → (s.core core).absent = [] →
    s.actSets c.guard = [s.active c.guard] →
    let act := s.active c.guard
    let m := matFmt fmt
    let step := 4 * bsw.toNat
    let bo (l : Nat) : Nat := match b with
      | .wave n => w.scal false n
      | .quarter x => w.src false x (lowLane (act &&& quarterMask (l / 8)))
    let entry (i l : Nat) : Nat := (listGet 0 (listGet [] (w.fifo (l / 8)) i) (l % 8)).toNat
    let byte (x i : Nat) : Nat := x / 256 ^ i % 256
    let scA (l k : Nat) : Nat := if sf then byte (entry 0 l) k else byte (w.src false vA l) (asel.toNat / 4 ^ k % 4)
    let scB (l k : Nat) : Nat := if sf then byte (entry 1 l) k else byte (w.src false vB l) (bsel.toNat / 4 ^ k % 4)
    let row (l : Nat) (i : Nat) : Byte := mget 0 w.stage (128 * l + 16 * aoq.toNat + i)
    let col (l j : Nat) (i : Nat) : Byte := mget 0 (s.core core).spad (128 * a.base + bo l + j * step + i)
    let products (l j : Nat) := (List.range m.k).map fun k =>
      (rowFactor fmt (row l) (scA l) k, colFactor fmt (col l j) (scB (l / 8 * 8 + j)) k)
    let k := if fmt = .f64 then 2 else 1
    let old (l j : Nat) : Nat := if fmt = .f64 then (w.vpair (8 * vC.toNat + 2 * j) l).toNat else (w.vreg (8 * vC.toNat + j) l).toNat
    (∀ l ∈ lanesOf act, (m.recs = 0 → bo l % 4 = 0) ∧ bo l + 7 * step + m.cb ≤ 128 * a.lines ∧
      (if sf then 2 ≤ (w.fifo (l / 8)).length else m.recs ≠ 0 → w.fifo (l / 8) = [])) →
    ∃ t w1, ∃ new : Nat → Nat → Nat, exec (.mma c fmt sf vC b bsw aoq vA vB asel bsel) s = .next t ∧ Ends s core slot w1 t c.rbf ∧
      { w1 with v := w.v, sfifo := w.sfifo } = w ∧
      (∀ l ∈ lanesOf act, ∀ j, j < 8 → DotsTo (if fmt = .f64 then fF64 else fF32) (old l j) (products l j) (new l j)) ∧
      (∀ n l, l < 32 → w1.vreg n l =
        if hasLane act l = true ∧ 8 * vC.toNat ≤ n ∧ n < 8 * vC.toNat + 8 * k then
          BitVec.ofNat 32 (new l ((n - 8 * vC.toNat) / k) / 2 ^ (32 * ((n - 8 * vC.toNat) % k)))
        else w.vreg n l) ∧
      ∀ q, q < 4 → w1.fifo q = if sf = true ∧ act &&& quarterMask q ≠ 0 then (w.fifo q).drop 2 else w.fifo q

/-- R293, R294, R297, R300: `mzero` clears accumulators, `msf` appends a quarter's scale words to its FIFO, `mgat` and `mldt` fill the
staging rows of the Active lanes and answer the scale bytes of their blocks. -/
def Obligations.MatrixOperands : Prop :=
  ∀ (c : Ctl) (s : State) (core slot : Nat) (w : Wave), Runs s core slot w →
    (∀ uni wide cnt vC, ∃ t w1, exec (.mzero c uni wide cnt vC) s = .next t ∧ Ends s core slot w1 t c.rbf ∧ { w1 with v := w.v } = w ∧
      ∀ n l, l < 32 → w1.vreg n l = if hasLane (s.active c.guard) l = true ∧ 8 * vC.toNat ≤ n ∧
        n < 8 * vC.toNat + 8 * (cnt.toNat + 1) * (if wide then 2 else 1) then 0 else w.vreg n l) ∧
    (s.actSets c.guard = [s.active c.guard] → ∀ vS,
      (∀ l ∈ lanesOf (s.active c.guard), (w.fifo (l / 8)).length < 8) →
      ∃ t w1, exec (.msf c vS) s = .next t ∧ Ends s core slot w1 t c.rbf ∧ { w1 with sfifo := w.sfifo } = w ∧
        ∀ q, q < 4 → w1.fifo q = if s.active c.guard &&& quarterMask q = 0 then w.fifo q
          else w.fifo q ++ [(List.range 8).map fun i => BitVec.ofNat 32 (w.src false vS (8 * q + i))]) ∧
    ∀ (d : Dst) (vI : Src) (n : BitVec 6) (ro : BitVec 3) (a : Alloc), s.actSets c.guard = [s.active c.guard] →
      w.handler = none → (s.core core).alloc w.lid = some a → (s.core core).absent = [] →
      let spad (x : Nat) : Byte := mget 0 (s.core core).spad (128 * a.base + x)
      let from' := 16 * ro.toNat
      let staged (w1 : Wave) (len : Nat) (val : Nat → Nat → Byte) : Prop := ∀ l x, x < 128 → mget 0 w1.stage (128 * l + x) =
        if hasLane (s.active c.guard) l = true ∧ from' ≤ x ∧ x < from' + len then val l (x - from') else mget 0 w.stage (128 * l + x)
      (∀ sB sR, let at' (l : Nat) : Nat := (w.scal false sB + w.src false vI l * w.scal false sR) % 2 ^ 32
        (from' + 4 * n.toNat ≤ 128 → (∀ l ∈ lanesOf (s.active c.guard), at' l % 4 = 0 ∧ at' l + 4 * n.toNat ≤ 128 * a.lines) →
          ∃ t w1, exec (.mgat c .w d vI sB sR n ro) s = .next t ∧ Ends s core slot w1 t c.rbf ∧ { w1 with stage := w.stage } = w ∧
            staged w1 (4 * n.toNat) fun l x => spad (at' l + x)) ∧
        ∀ kind, kind ≠ .w → from' + n.toNat * kind.pl ≤ 128 →
          (∀ l ∈ lanesOf (s.active c.guard), at' l + n.toNat * kind.rs ≤ 128 * a.lines) →
          ∃ t w1, exec (.mgat c kind d vI sB sR n ro) s = .next t ∧ Ends s core slot w1 t c.rbf ∧
            VecWritten w { w1 with stage := w.stage } (s.active c.guard) d false (fun l => ofBytes ((List.range 4).map fun t =>
              if t < n.toNat then spad (at' l + t * kind.rs) else 0x7F)) ∧
            staged w1 (n.toNat * kind.pl) fun l x => spad (at' l + x / kind.pl * kind.rs + 1 + x % kind.pl)) ∧
      ∀ kind (sP : SReg), kind ≠ .w → from' + n.toNat * kind.pl ≤ 128 →
        let p (i : Nat) : Nat := (w.sreg (sP.toNat + i)).toNat
        let col (l : Nat) : Nat := w.src false vI l
        let bits := kind.pl / 4
        let rec' (l r : Nat) : Nat := p 0 + r * p 1 + col l / 32 * kind.rs
        let live (l r : Nat) : Prop := r < p 2 ∧ col l < p 4
        p 3 % 32 = 0 → (∀ l ∈ lanesOf (s.active c.guard), ∀ r, p 3 ≤ r → r < p 3 + 32 * n.toNat → live l r →
          rec' l r + kind.rs ≤ 128 * a.lines) →
        ∃ t w1, exec (.mldt c kind d vI sP n ro) s = .next t ∧ Ends s core slot w1 t c.rbf ∧
          (∃ sc : Nat → Nat, VecWritten w { w1 with stage := w.stage } (s.active c.guard) d false sc ∧
            ∀ l i, i < 4 → (i < n.toNat → live l (p 3 + 32 * i) → sc l / 2 ^ (8 * i) % 256 = (spad (rec' l (p 3 + 32 * i))).toNat) ∧
              (¬(i < n.toNat ∧ live l (p 3 + 32 * i)) → sc l / 2 ^ (8 * i) % 256 = 0x7F)) ∧
          ∃ val : Nat → Nat → Byte, staged w1 (n.toNat * kind.pl) val ∧ ∀ l m b, m < 32 * n.toNat → b < bits →
            let to' := m / 32 * kind.pl * 8 + m % 32 * bits + b
            let src := col l % 32 * bits + b
            (live l (p 3 + m) → (val l (to' / 8)).getLsbD (to' % 8) = (spad (rec' l (p 3 + m) + 1 + src / 8)).getLsbD (src % 8)) ∧
            (¬live l (p 3 + m) → (val l (to' / 8)).getLsbD (to' % 8) = false)

/-- R143 to R146, R295, R296: `mst` stores the rows of the Active lanes as elements of the format, the highest lane last; a blocked row has the
scale of its own values, or under `.sq` of the values of all lanes. -/
def Obligations.MatrixStores : Prop :=
  ∀ (c : Ctl) (f : MstFmt) (sf64 sq : Bool) (rm : RMode) (sat pset : Bool) (sB : SReg) (vI : Src) (sR : SReg) (vC : BitVec 5)
      (cnt : BitVec 2) (ve : Src) (sb : SReg) (s : State) (core slot : Nat) (w : Wave) (a : Alloc),
    Runs s core slot w → w.handler = none → (s.core core).alloc w.lid = some a → s.actSets c.guard = [s.active c.guard] →
    (sq = true → s.active c.guard = fullMask) → (storedEmax f ≠ none → cnt = 3) →
    let n := 8 * (cnt.toNat + 1)
    let at' (l : Nat) : Nat := (w.scal false sB + w.src false vI l * w.scal false sR) % 2 ^ 32
    let vals (l : Nat) : List Nat := (List.range n).map fun j =>
      if sf64 then (w.vpair (8 * vC.toNat + 2 * j) l).toNat else (w.vreg (8 * vC.toNat + j) l).toNat
    let draw (l j : Nat) : Nat := if rm = .sr then drawRound (w.sreg sb.toNat).toNat (w.sreg (sb.toNat + 1)).toNat
      ((w.src true ve l + j) % 2 ^ 64) (w.sreg (sb.toNat + 2)).toNat else 0
    (∀ l ∈ lanesOf (s.active c.guard), (storedEmax f = none → at' l % ((storedFmt f).width / 8) = 0) ∧
      at' l + rowBytes f n ≤ 128 * a.lines) →
    ∃ t, ∃ bytes : Nat → Nat → Byte, exec (.mst c f sf64 sq rm sat pset sB vI sR vC cnt ve sb) s = .next t ∧
      KeepsWave s t core slot w c.rbf ∧ t.mem = s.mem ∧ t.slots = s.slots ∧
      (∀ i, i ≠ core → (t.core i).spad = (s.core i).spad ∧ (t.core i).absent = (s.core i).absent) ∧
      (∀ l ∈ lanesOf (s.active c.guard), RowStored f (if sf64 then fF64 else fF32) rm sat (draw l)
        (if sq then (List.range 32).flatMap vals else vals l) (vals l) (bytes l)) ∧
      (∀ y, mget 0 (t.core core).spad y =
        match (lanesOf (s.active c.guard)).reverse.find? fun l =>
            decide (128 * a.base + at' l ≤ y) && decide (y < 128 * a.base + at' l + rowBytes f n) with
        | some l => bytes l (y - (128 * a.base + at' l))
        | none => mget 0 (s.core core).spad y) ∧
      ∀ line, line ∈ (t.core core).absent ↔ line ∈ (s.core core).absent ∧ ¬(pset = true ∧ ∃ l ∈ lanesOf (s.active c.guard),
        128 * line < 128 * a.base + at' l + rowBytes f n ∧ 128 * a.base + at' l < 128 * line + 128)

/-- R298, R299: `tred` arrives at its instance and waits; when every member named has arrived alike, the instance combines the members'
elements over the tree into the first member's scratchpad, and the waves go on. -/
def Obligations.TileReductions : Prop :=
  (∀ (c : Ctl) (wide pset : Bool) (sS sO sL sD : SReg) (s : State) (core slot : Nat) (w : Wave) (l : Launch) (a : Alloc),
    Runs s core slot w → s.active c.guard ≠ 0 → w.handler = none → aget s.launches w.lid = some l →
    (s.core core).alloc w.lid = some a → descOk l.blk (w.scal false sS) core = true →
    let es := if wide then 8 else 4
    let len := w.scal false sL
    s.openRemote w.uid fullMask = false → (s.core core).lanesLog w.uid fullMask = [] →
    len ≠ 0 → len % es = 0 → w.scal false sO % es = 0 → w.scal false sD % es = 0 →
    w.scal false sO + len ≤ 128 * a.lines → w.scal false sD + len ≤ 128 * a.lines →
    ∃ t, exec (.tred c wide pset sS sO sL sD) s = .next t ∧
      ParksOn s t core slot w c.rbf (s.active c.guard) (.tred a.treds (w.scal false sS)) ∧
      (aget t.launches w.lid).map (·.treds) = some (l.treds ++
        [(core, a.treds, [w.scal false sS, if wide then 1 else 0, len, w.scal false sD, w.scal false sO, if pset then 1 else 0])]) ∧
      ((t.core core).alloc w.lid).map (·.treds) = some (a.treds + 1) ∧ t.mem = s.mem) ∧
  (∀ (c : Ctl) (wide pset : Bool) (sS sO sL sD : SReg) (s : State) (core slot k desc : Nat) (w : Wave) (l : Launch),
    Runs { s with focus := { s.focus with resume := none } } core slot w → s.focus.resume = some (.tred k desc) →
    s.active c.guard ≠ 0 → aget s.launches w.lid = some l → l.tredBad = [] →
    ∃ t, exec (.tred c wide pset sS sO sL sD) s = .next t ∧ Ends { s with launches := aput s.launches w.lid l } core slot w t c.rbf) ∧
  ∀ (s : State) (core slot k desc : Nat) (w : Wave) (x : Stream) (l : Launch) (r : Nat) (rbf : Bool) (i : BitVec 128) (wide pset : Bool)
      (len d : Nat) (off : Nat → Nat) (c0 : Nat) (cs : List Nat) (al : Nat → Alloc),
    s.wave? core slot = some w → w.streams = [x] → x.st = .park (.tred k desc) r rbf i → aget s.launches w.lid = some l →
    descCores l.blk desc = c0 :: cs → core ∈ c0 :: cs →
    (∀ m ∈ c0 :: cs, (l.treds.find? fun t => t.1 == m && t.2.1 == k) =
        some (m, k, [desc, if wide then 1 else 0, len, d, off m, if pset then 1 else 0]) ∧
      (s.core m).absent = [] ∧ (s.core m).alloc w.lid = some (al m)) →
    let es := if wide then 8 else 4
    let f := if wide then fF64 else fF32
    ∃ t l', ∃ elem : Nat → Nat, exec (.tredComplete core slot) s = .next t ∧ aget t.launches w.lid = some l' ∧ l'.tredBad = l.tredBad ∧
      (∀ j, j < len / es → TreeFolds (AddsTo f .rn)
        ((c0 :: cs).map fun m => rdSpad (s.core m) (128 * (al m).base + off m + j * es) es) (elem j)) ∧
      (∀ m ∈ c0 :: cs, ∃ e ∈ l'.treds, e.1 = m ∧ e.2.1 = k ∧ e.2.2.length = 7) ∧
      (∀ m y, mget 0 (t.core m).spad y = if m = c0 ∧ 128 * (al c0).base + d ≤ y ∧ y < 128 * (al c0).base + d + len / es * es
        then BitVec.ofNat 8 (elem ((y - (128 * (al c0).base + d)) / es) / 2 ^ (8 * ((y - (128 * (al c0).base + d)) % es)))
        else mget 0 (s.core m).spad y) ∧
      t.mem = s.mem ∧ ∀ i k, t.wave? i k = s.wave? i k

/-! ## The transfer processor -/

/-- R317: a loop repeats its body, is left at the end of the last round, and is dropped where control leaves it. R318 to R320: tensor
addresses, bounds and advance; index loads. R332: halting. -/
def Obligations.IndexArithmetic : Prop :=
  (∀ n (l : Loop) ls,
    loopStep (n + 1) (l :: ls) l.stop = (if 1 < l.rem then ({ l with rem := l.rem - 1 } :: ls, l.start) else loopStep n ls l.stop) ∧
    ∀ a, a ≠ l.stop → loopStep (n + 1) (l :: ls) a = if l.start ≤ a ∧ a < l.stop then (l :: ls, a) else loopStep n ls a) ∧
  ∀ (s : State) (core x : Nat) (p : XP), XRuns s core x p →
    (∀ (n : DReg) (e : BitVec 18), let stop := s.focus.pc + e.toNat
      let k := (p.dreg n.toNat).toNat
      (k = 0 → (loopStep 5 p.loops stop).2 ≤ 16383 → ∃ t, exec (.xloop n e) s = .next t ∧ XGoes s core x p stop t) ∧
      (k ≠ 0 → p.loops.length < 4 → (∀ l ∈ p.loops.head?, stop ≤ l.stop) →
        let p1 : XP := { p with loops := ⟨s.focus.pc + 8, stop, k⟩ :: p.loops }
        (loopStep 5 p1.loops (behind s)).2 ≤ 16383 → ∃ t, exec (.xloop n e) s = .next t ∧ XGoes s core x p1 (behind s) t)) ∧
    (∀ (d t k : DReg), let h := (p.dreg (t.toNat + 2)).toNat
      let n := bitsN h 1 0 + 1
      let ext (i : Nat) : Nat := (p.dreg (t.toNat + 3 + 2 * i)).toNat
      let stride (i : Nat) : Int := (p.dreg (t.toNat + 4 + 2 * i)).toInt
      let at' (i : Nat) : Nat := (p.dreg (k.toNat + i)).toNat
      t.toNat % 2 = 0 → h < 32 → h / 4 % 8 ≤ 3 → t.toNat + 2 + 2 * n ≤ 31 → k.toNat + n ≤ 32 →
      (∀ i, i < n → 1 ≤ ext i ∧ ext i < 2 ^ 31) →
      DResult s core x p (.tadr d t k) d.toNat true
        (((p.dpair t.toNat).toNat + ((List.range n).map fun i => stride i * at' i).sum) % 2 ^ 64 : Int).toNat ∧
      DResult s core x p (.tin d t k) d.toNat false (if ∀ i, i < n → at' i < ext i then 1 else 0) ∧
      ∃ u p1 m, exec (.tinc d t k) s = .next u ∧ XEnds s core x p1 u ∧ { p1 with d := p.d } = p ∧ m ≤ n ∧
        (∀ i, i < m → ext i ≤ at' i + 1) ∧ (m < n → at' m + 1 < ext m) ∧
        ∀ r, p1.dreg r = if r = d.toNat then BitVec.ofNat 32 m
          else if k.toNat ≤ r ∧ r < k.toNat + m then 0
          else if r = k.toNat + m ∧ m < n then p.dreg r + 1 else p.dreg r) ∧
    (∀ w (d a : DReg) (e : BitVec 18) (al : Alloc), let n := if w then 8 else 4
      let off := (((p.dreg a.toNat).toNat + e.toInt) % 2 ^ 32 : Int).toNat
      p.bind.lid.bind (s.core core).alloc = some al → off % n = 0 → off + n ≤ 128 * al.lines →
      (128 * al.base + off) / 128 ∉ (s.core core).absent →
      DResult s core x p (.lidx w d a e) d.toNat w (rdSpad (s.core core) (128 * al.base + off) n)) ∧
    ∃ t, exec .xhalt s = .next t ∧ t.xp core x = { p with st := .halted } ∧ (∀ i, i ≠ core → t.core i = s.core i) ∧
      (t.core core).setXp x p = s.core core ∧ quietState t = quietState s

/-- R310, R321 to R327, R331: the transfers of a transfer processor that are in form enter its engine; `xwait` answers the error bit
once none is outstanding, and waits while one is; `chain` pushes a head. Readings of the model: log 48. -/
def Obligations.TransferInstructions : Prop :=
  ∀ (s : State) (core x : Nat) (p : XP), XRuns s core x p →
    (∀ sk dk (a d l : DReg) from' to', outstanding s core x < 64 →
      let len := (p.dreg l.toNat).toNat
      copyBad sk dk (p.dpair a.toNat).toNat (p.dpair d.toNat).toNat len = none →
      s.placeOf p.bind.lid core sk (p.dpair a.toNat).toNat len = some from' →
      s.placeOf p.bind.lid core dk (p.dpair d.toNat).toNat len = some to' →
      ∃ t, exec (.xfer sk dk a d l) s = .next t ∧ Issued s t core x p (.lin from') to' len (placeLines to' len)) ∧
    (∀ sk dk (a d i r : DReg) (rb : BitVec 16) (n : BitVec 10) al to', outstanding s core x < 64 →
      let rows := n.toNat + 1
      let io := (p.dreg i.toNat).toNat
      let index (k : Nat) : Nat := rdSpad (s.core core) (128 * al.base + io + 4 * k) 4
      let off (k : Nat) : Int := index k * (p.dreg r.toNat).toInt
      copyBad sk dk (p.dpair a.toNat).toNat (p.dpair d.toNat).toNat rb.toNat = none → io % 4 = 0 →
      p.bind.lid.bind (s.core core).alloc = some al → io + 4 * rows ≤ 128 * al.lines → (s.core core).absent = [] →
      (sk ≠ .g ∨ dk ≠ .g → ∀ k, k < rows → index k ≠ 0xFFFFFFFF → off k % 4 = 0) →
      s.placeOf p.bind.lid core dk (p.dpair d.toNat).toNat (rows * rb.toNat) = some to' →
      ∃ t, exec (.xferG sk dk a d i r rb n) s = .next t ∧ Issued s t core x p
        (.rows sk rb.toNat ((List.range rows).map fun k => if index k = 0xFFFFFFFF then none
          else some ((((p.dpair a.toNat).toNat : Int) + off k) % 2 ^ 64).toNat)) to' (rows * rb.toNat)
        (placeLines to' (rows * rb.toNat))) ∧
    (∀ sk dk (tD d : DReg) q to', outstanding s core x < 64 → p.tdesc tD.toNat = some q →
      let total := 2 ^ q.esz * q.ext.foldl (· * ·) 1
      copyBad sk dk q.base (p.dpair d.toNat).toNat total = none →
      (sk ≠ .g → 2 ≤ q.esz ∧ (∀ y ∈ q.stride, y % 4 = 0) ∧ ∀ o ∈ boxOffsets q.ext q.stride,
        operandBad sk ((q.base + o) % 2 ^ 64 : Int).toNat = false ∧
        (s.placeOf p.bind.lid core sk ((q.base + o) % 2 ^ 64 : Int).toNat (2 ^ q.esz)).isSome = true) →
      s.placeOf p.bind.lid core dk (p.dpair d.toNat).toNat total = some to' →
      ∃ t, exec (.xferT sk dk tD d) s = .next t ∧
        Issued s t core x p (.box sk q.base q.esz q.ext q.stride) to' total (placeLines to' total)) ∧
    (∀ (a : DReg) al shape dest row pitch np, outstanding s core x < 64 →
      let off := (p.dreg a.toNat).toNat
      off % 64 = 0 → p.bind.lid.bind (s.core core).alloc = some al → off + 64 ≤ 128 * al.lines → (s.core core).absent = [] →
      convDesc (fun i => rdSpad (s.core core) (128 * al.base + off + 4 * i) 4) = some (shape, dest, row, pitch, np) →
      dest + ((np - 1) * pitch + row) ≤ 128 * al.lines →
      ∃ t ls, exec (.cgen a) s = .next t ∧ Issued s t core x p shape (.spad core (128 * al.base + dest)) (np * row) ls ∧
        ∀ y, y ∈ ls ↔ ∃ r, r < np ∧ y ∈ spadLines core (128 * al.base + dest + r * pitch) row) ∧
    (∀ d : DReg, (outstanding s core x = 0 → ∃ t p1, exec (.xwait d) s = .next t ∧ XEnds s core x { p1 with err := false } t ∧
        DWritten p p1 d.toNat false (if p.err then 1 else 0)) ∧
      (outstanding s core x ≠ 0 → ∃ t, exec (.xwait d) s = .next t ∧ t.xp core x = { p with st := .parked .xferDone } ∧
        (t.core core).setXp x p = s.core core)) ∧
    ∀ y (h : DReg), (s.xp core (if y then 1 else 0)).heads.length < 4 → ∃ t, exec (.chain y h) s = .next t ∧
      (t.xp core (if y then 1 else 0)).heads = (s.xp core (if y then 1 else 0)).heads ++ [⟨(p.dpair h.toNat).toNat, p.bind⟩] ∧
      (∀ z, z < 2 → { t.xp core z with heads := [], pc := 0, loops := [], st := .running } =
        { s.xp core z with heads := [], pc := 0, loops := [], st := .running }) ∧
      (t.xp core x).pc = (loopStep 5 p.loops (behind s)).2 ∧ (t.xp core x).st = .running ∧ quietState t = quietState s

/-- R115, R328 to R330: arriving adds to the counter, waiting subtracts from it where it is high enough and joins the list where it is not,
setting gives it a value; an arrival that is enough lets the first waiter pass. A transfer processor arrives once its transfers are
complete, a wave once the earlier accesses of its Active lanes are performed, which it waits for before that; its arrival is a release, which takes
their numbers. Readings of the model: that an arrival counts one interval (R131, log 22), what a release waits for (log 60), its number (log 52). -/
def Obligations.CountedBarriers : Prop :=
  ∀ (c : Ctl) (cb : BitVec 4) (k : BitVec 18) (s : State) (core : Nat),
    let b := (s.core core).cbar cb.toNat
    (∀ slot w, Runs s core slot w → s.active c.guard ≠ 0 →
      (∀ e es, (s.core core).lanesLog w.uid (s.active c.guard) = e :: es → ∃ t, exec (.cba c cb k) s = .next t ∧
        (t.core core).cb = (s.core core).cb ∧
        ParksOn s t core slot w c.rbf (s.active c.guard) (.replayed (s.active c.guard) (e.va / 32))) ∧
      ((s.core core).lanesLog w.uid (s.active c.guard) = [] → s.openRemote w.uid (s.active c.guard) = true → ∃ t,
        exec (.cba c cb k) s = .next t ∧ (t.core core).cb = (s.core core).cb ∧
        ParksOn s t core slot w c.rbf (s.active c.guard) (.fence .sy)) ∧
      (b.count + k.toNat < 2 ^ 32 → (s.core core).lanesLog w.uid (s.active c.guard) = [] → s.openRemote w.uid (s.active c.guard) = false →
        (b.wait = [] → ∃ q, Passes s ((withBarrier s core cb.toNat (b.count + k.toNat) []).bump (32 * core + slot) 1) core slot
            { w with seqs := q } c.rbf (.cba c cb k) ∧
          ∀ l, l < 32 → mget 0 q l = mget 0 w.seqs l + if hasLane (s.active c.guard) l then 1 else 0) ∧
        ∀ y n q, b.wait = [(.xp y, n)] → y < 2 → n ≤ b.count + k.toNat → (s.xp core y).st = .parked (.cbw cb.toNat n q) →
          ∃ t, exec (.cba c cb k) s = .next t ∧ (t.core core).cbar cb.toNat = ⟨b.count + k.toNat - n, []⟩ ∧
            t.xp core y = { s.xp core y with st := .parked (.cbw cb.toNat n true) } ∧ KeepsWave s t core slot w c.rbf) ∧
      (b.wait = [] → Passes s (withBarrier s core cb.toNat k.toNat []) core slot w c.rbf (.cbset c cb k)) ∧
      (b.wait = [] → k.toNat ≤ b.count → Passes s (withBarrier s core cb.toNat (b.count - k.toNat) []) core slot w c.rbf (.cbw c cb k)) ∧
      (b.wait = [] → b.count < k.toNat → ∃ t, exec (.cbw c cb k) s = .next t ∧
        ParksOn s t core slot w c.rbf (s.active c.guard) (.cbw cb.toNat k.toNat false) ∧
        (t.core core).cbar cb.toNat = ⟨b.count, [(.wave w.uid (s.active c.guard), k.toNat)]⟩)) ∧
    ∀ x p, XRuns s core x p → c.guard = always →
      (b.count + k.toNat < 2 ^ 32 → b.wait = [] → outstanding s core x = 0 →
        XPasses s ((withBarrier s core cb.toNat (b.count + k.toNat) []).bump (2 ^ 15 + 32 * core + x) 1) core x p (.cba c cb k)) ∧
      (b.wait = [] → XPasses s (withBarrier s core cb.toNat k.toNat []) core x p (.cbset c cb k)) ∧
      (b.wait = [] → k.toNat ≤ b.count → XPasses s (withBarrier s core cb.toNat (b.count - k.toNat) []) core x p (.cbw c cb k)) ∧
      (b.wait = [] → b.count < k.toNat → ∃ t, exec (.cbw c cb k) s = .next t ∧
        t.xp core x = { p with st := .parked (.cbw cb.toNat k.toNat false) } ∧
        (t.core core).cbar cb.toNat = ⟨b.count, [(.xp x, k.toNat)]⟩)

/-! ## Tasks and synchronisation -/

/-- R338, R339, R34, R51: `exit` ends the wave, returns its registers to the pool, and creates a launch from each successor block that
it names: a task at the near end of the core's deque, any other in the distributor's queue of its priority. The instant at which
successors exist is the model's reading (log 49). -/
def Obligations.ExitAndSuccessors : Prop :=
  ∀ (c : Ctl) (n : BitVec 3) (sB : SReg) (s : State) (core slot : Nat) (w : Wave) (l : Launch) (al : Alloc) (lf : Nat → Leaf)
    (b : Nat → Block), Runs s core slot w → s.active c.guard ≠ 0 → Direct s core w (s.active c.guard) → w.past = false → w.cbuf = [] →
    s.openRemote w.uid fullMask = false → w.handler = none → (s.waves.map (·.2.uid)).Nodup → aget s.launches w.lid = some l → (s.core core).alloc w.lid = some al →
    (∀ x ∈ s.launches, x.1 < s.stamp) → (∀ cr ∈ s.cores, cr.2.copies = [] ∧ cr.2.partials = []) →
    (∀ x, x < 2 → (s.xp core x).heads = [] ∧ (s.xp core x).walk = none) →
    let addr (k : Nat) : Nat := (w.spair (sB.toNat + 2 * k)).toNat
    let bytes (k : Nat) : List Byte := rangeBytes s (addr k) 64 lf
    let words (k : Nat) : List DWord := (List.range 8).map fun i => BitVec.ofNat 64 (ofBytes (((bytes k).drop (8 * i)).take 8))
    let new := List.range n.toNat
    let tasks := new.filter fun k => (b k).kind == 2
    (∀ k, k < n.toNat → addr k % 64 = 0 ∧ checkBlock (words k) w.depth = .ok (b k) ∧ (b k).prio < 8 ∧
      Mapped s core w.aslot (addr k) 64 .load lf) →
    (s.core core).deque.length + tasks.length ≤ 64 + 65536 →
    ∃ t, exec (.exit c n sB) s = .next t ∧ t.wave? core slot = none ∧ (t.core core).free = (s.core core).free + w.d ∧ t.mem = s.mem ∧
      t.stamp = s.stamp + n.toNat ∧
      (∀ k, k < n.toNat → ∃ l', aget t.launches (s.stamp + k) = some l' ∧ l'.blk = b k ∧ l'.root = l.root ∧ l'.aslot = w.aslot ∧
        l'.priv = w.priv ∧ l'.left = (b k).h * (b k).w * (b k).waves) ∧
      (t.core core).deque = (tasks.map (s.stamp + ·)).reverse ++ (s.core core).deque ∧
      (∀ p, p < 8 → listGet [] t.dist.queues p = listGet [] s.dist.queues p ++
        (new.filter fun k => (b k).kind != 2 && (b k).prio == p).map (s.stamp + ·)) ∧
      (if l.left ≤ 1 then aget t.launches w.lid = none else (aget t.launches w.lid).map (·.left) = some (l.left - 1)) ∧
      ∀ i k, ¬(i = core ∧ k = slot) → (t.wave? i k).map still = (s.wave? i k).map still

/-- R340, R341: a wave at a barrier of its launch goes on once every wave of the launch, on its core or on the cores that the
descriptor names, has arrived as often, and waits before that; its arrival lets the waiting waves of the core go on. Where every wave of
a descriptor's cores has arrived and one of them names another, the wave takes the fault. Readings of the model: which parks suspend a whole run
(log 34), that a wave arrives once its remote accesses are resolved and its logged ones replayed, which it waits for before that (log 60), and that
an arrival counts one interval (R131, log 22). -/
def Obligations.LaunchBarriers : Prop :=
  ∀ (c : Ctl) (s : State) (core slot : Nat) (w : Wave) (l : Launch) (al : Alloc), Runs s core slot w → Unsplit w →
    s.active c.guard ≠ 0 → w.handler = none → aget s.launches w.lid = some l → (s.core core).alloc w.lid = some al → (s.waves.map (·.2.uid)).Nodup →
    let early (i : Instr) : Prop :=
      (∀ e es, (s.core core).lanesLog w.uid fullMask = e :: es → ∃ t, exec i s = .next t ∧ t.ival = s.ival ∧
        ParksOn s t core slot w c.rbf (s.active c.guard) (.replayed fullMask (e.va / 32))) ∧
      ((s.core core).lanesLog w.uid fullMask = [] → s.openRemote w.uid fullMask = true → ∃ t, exec i s = .next t ∧ t.ival = s.ival ∧
        ParksOn s t core slot w c.rbf (s.active c.guard) .flushed)
    early (.wbar c) ∧ (∀ sS : SReg, descOk l.blk (w.scal false sS) core = true → early (.sbar c sS)) ∧
    ((s.core core).lanesLog w.uid fullMask = [] → s.openRemote w.uid fullMask = false →
    let waits (i : Instr) (w1 : Wave) (p : ParkCond) : Prop := ∃ t, exec i s = .next t ∧
      ParksOn s t core slot w1 c.rbf (s.active c.guard) p ∧ t.ival = (s.bump (32 * core + slot) 1).ival ∧ t.mem = s.mem
    let passes (i : Instr) (w1 : Wave) (more : State → Prop) : Prop := ∃ t u, exec i s = .next t ∧ t.wave? core slot = some u ∧
      WentOn s.focus w1 u c.rbf (fun _ => behind s) ∧ (∀ r ∈ u.streams, r.lanes &&& s.active c.guard ≠ 0 → r.st = .run) ∧
      t.ival = (s.bump (32 * core + slot) 1).ival ∧ t.mem = s.mem ∧ more t
    let here := w.wbars + 1
    let all := ∀ i, i < al.waves → i ∈ al.ended ∨ i = w.wix ∨
      ∃ x ∈ (s.core core).slots, x.2.handler = none ∧ x.2.lid = w.lid ∧ x.2.wix = i ∧ here ≤ x.2.wbars
    (all → passes (.wbar c) { w with wbars := here } fun t =>
      ∀ k v, k ≠ slot → s.wave? core k = some v → v.lid = w.lid → v.handler = none →
        ∀ r ∈ v.streams, ∀ q n b i, r.st = .park (.wbar here q) n b i →
          ∃ u, t.wave? core k = some u ∧ { r with st := .park (.wbar here true) n b i } ∈ u.streams) ∧
    (¬all → waits (.wbar c) { w with wbars := here } (.wbar here false)) ∧
    ∀ sS : SReg, let desc := w.scal false sS
      let k := w.sbars.length + 1
      let arrived (d : Nat) : Prop :=
        ∀ i ∈ descCores l.blk d, s.allArrived i w.lid (fun x => decide (k ≤ x.sbars.length) || x.uid == w.uid) = true
      let names : List (Nat × Nat) := (core, desc) :: (s.resident.filter fun x => x.2.2.handler.isNone && x.2.2.lid == w.lid &&
        x.2.2.uid != w.uid && decide (k ≤ x.2.2.sbars.length)).map fun x => (x.1, listGet 0 x.2.2.sbars (k - 1))
      let clash : Prop := ∃ d ∈ names.map (·.2), core ∈ descCores l.blk d ∧ arrived d ∧ ∃ x ∈ names, x.1 ∈ descCores l.blk d ∧ x.2 ≠ d
      let w1 : Wave := { w with sbars := w.sbars ++ [desc] }
      descOk l.blk desc core = true →
      (¬clash → arrived desc → passes (.sbar c sS) w1 fun _ => True) ∧
      (¬clash → ¬arrived desc → waits (.sbar c sS) w1 (.sbar k desc none)) ∧
      (clash → NamedRecs s → ∃ t, exec (.sbar c sS) s = .next t ∧ Trapped s t core slot w1 c.rbf (s.active c.guard) 0x1C 2 0 0))

/-- R51, R52, R342, R343: the register window grows and shrinks with the pool; a claim that does not fit, or that comes behind
another, waits until it is served; the registers gained read 0 (R50); R344: atomic sets are declared and deleted; R349, R350: age and yield. When a
wave counts as blocked in `rclaim` is the model's reading (log 27). -/
def Obligations.WindowsSetsAndAge : Prop :=
  (∀ (c : Ctl) (s : State) (core slot : Nat) (w : Wave), Runs s core slot w → s.active c.guard ≠ 0 →
    (∀ n : BitVec 18, n.toNat + 8 ≤ w.d → ∃ t w1, exec (.rrel c n) s = .next t ∧ KeepsWave s t core slot w1 c.rbf ∧
      { w1 with v := w.v, d := w.d } = w ∧ w1.d = w.d - n.toNat ∧
      (∀ r l, l < 32 → r < w.d - n.toNat → w1.vreg r l = w.vreg r l) ∧ (t.core core).free = (s.core core).free + n.toNat ∧
      quietState t = quietState s) ∧
    (∀ n : BitVec 18, w.d + n.toNat ≤ 256 →
      ((s.claims core).isEmpty = true → n.toNat ≤ (s.core core).free → ∃ t w1, exec (.rclaim c n) s = .next t ∧
        KeepsWave s t core slot w1 c.rbf ∧ { w1 with v := w.v, d := w.d } = w ∧ w1.d = w.d + n.toNat ∧
        (∀ r l, l < 32 → w1.vreg r l = if r < w.d then w.vreg r l else 0) ∧
        (t.core core).free = (s.core core).free - n.toNat ∧ quietState t = quietState s) ∧
      ((s.claims core).isEmpty = false ∨ (s.core core).free < n.toNat → ∃ t, exec (.rclaim c n) s = .next t ∧
        ParksOn s t core slot w c.rbf (s.active c.guard) (.claim n.toNat false) ∧ (t.core core).free = (s.core core).free)) ∧
    (∀ (sB sL sI : SReg) a, w.commit = false → s.slot? w.aslot = some a →
      let base := w.scal true sB
      let len := w.scal false sL
      let id := w.scal false sI
      (base % 128 = 0 → len % 128 = 0 → 128 ≤ len → len ≤ 2 ^ 30 → id ≤ 255 →
        (∀ x ∈ a.sets, x.id ≠ id ∧ (x.base + x.len ≤ base ∨ base + len ≤ x.base)) →
        Passes s { s with slots := aput s.slots w.aslot { a with sets := a.sets ++ [⟨id, base, len, none, []⟩] } } core slot w c.rbf
          (.aset c sB sL sI)) ∧
      ∀ x, id ≤ 255 → a.sets.find? (fun x => x.id == id) = some x → x.holder = none →
        Passes s { s with slots := aput s.slots w.aslot { a with sets := a.sets.filter fun y => y.id != id } } core slot w c.rbf
          (.asetDel c sI)) ∧
    (∀ d, ScalResult s core slot w (.age c d) c d true w.stamp) ∧
    (∀ p sA, PredResult s core slot w (.ageLt c p sA) c p fun _ => decide (w.stamp < w.scal true sA)) ∧
    ∃ t u, exec (.yield c) s = .next t ∧ Ends s core slot w t c.rbf ∧ t.wave? core slot = some u ∧
      ∀ x ∈ (s.core core).slots, x.1 / 8 = slot / 8 → x.1 ≠ slot → x.2.uid ≠ w.uid → s.ready core x.2 = true → x.2.uid ∈ u.yieldTo) ∧
  (∀ (s : State) (core slot n : Nat) (w : Wave) (m : Mask) (rest : List (Nat × Mask × Nat)),
    s.claims core = (slot, m, n) :: rest → s.wave? core slot = some w → (m, n) ∈ w.claims → n ≤ (s.core core).free →
    ∃ t u, exec (.rclaimServe core) s = .next t ∧ t.wave? core slot = some u ∧ SameWave { w with d := w.d + n, v := u.v } u ∧
      (∀ r l, l < 32 → u.vreg r l = if r < w.d then w.vreg r l else 0) ∧
      (t.core core).free = (s.core core).free - n ∧ (∃ r ∈ u.streams, ∃ k b i, r.lanes = m ∧ r.st = .park (.claim n true) k b i) ∧
      quietState t = quietState s) ∧
  ∀ (s : State) (core slot n len : Nat) (w : Wave) (m : Mask) (rbf b : Bool) (insn : BitVec 128) (cnt rid : Nat) (lwr : BitVec 4)
      (one : Bool), NamedRecs s → s.findSlot w.uid = some (core, slot) → (s.core core).slots = [(slot, w)] → (s.core core).resv = none →
    w.streams = [⟨m, cnt, lwr, b, .park (.claim n false) len rbf insn, 0, one, rid, [], none⟩] → w.ended ||| w.atBarrier ||| m = fullMask →
    (s.core core).free < n → n ≤ 255 → slot < 32 →
    ∃ t u r, exec (.claimDeadlock core) s = .next t ∧
      (t.core core).cdl = BitVec.ofNat 64 (2 ^ (32 + slot) + (s.core core).free * 2 ^ 20 + n * 2 ^ 12 +
        Min.min (bitsN (s.core core).cdl.toNat 11 4 + 1) 255 * 2 ^ 4) ∧
      t.wave? core slot = some u ∧ SameWave w u ∧ r ∈ t.recs ∧ r.id = s.uids + 1 ∧ r.kind = 0x1E ∧ r.lanes = m ∧
      ∃ h ∈ u.streams, h.lanes = m ∧ h.st = .held (s.uids + 1) len rbf

/-! ## Collectives -/

/-- R351 to R353: a push enters its command with the communicator, where a reduction may become the current step (R397), and in its queue; a result is
taken from the head of the queue, or waited for; a publication goes to every member and waits while it leads the slowest live member by more than the
lead. Readings of the model: that a wave sees its own publication at once (log 30), that a push counts one interval (R131, log 22) and waits for
what its lanes have under way (log 60). -/
def Obligations.CollectiveInstructions : Prop :=
  ∀ (c : Ctl) (s : State) (core slot : Nat) (w : Wave), Runs s core slot w → s.active c.guard ≠ 0 →
    (∀ (q : BitVec 4) (sP : SReg) (x : Comm), w.commit = false →
      let p (i : Nat) : Nat := (w.sreg (sP.toNat + i)).toNat
      let len := p 6
      let good := len % 4 = 0 ∧ 4 ≤ len ∧ len ≤ 2 ^ 24
      p 0 < 256 → aget s.comms (p 0) = some x → x.aslot = w.aslot → (w.collQ.filter fun y => y.1 == q.toNat).length < 16 →
      (s.core core).lanesLog w.uid (s.active c.guard) = [] → s.openRemote w.uid (s.active c.guard) = false →
      x.cur = none → x.closed = false → x.timer = none → x.expiries = 0 → x.parts = [] → x.cmds = [] →
      let pushes (i : Instr) (op : CollOp) (sent : Nat) : Prop :=
        let m : CollCmd := ⟨s.uids + 1, core, w.uid, op, p 1, p 2 + 2 ^ 32 * p 3, p 4 + 2 ^ 32 * p 5, len, p 7, sent, [], s.us, 0, none, false⟩
        let x' : Comm := { x with cmds := [m], cur := if op = .red then some (p 1) else none }
        Passes s ({ s with comms := aput s.comms (p 0) x', uids := s.uids + 1 }.bump (32 * core + slot) 1) core slot
          { w with collQ := w.collQ ++ [(q.toNat, ⟨s.uids + 1, none⟩)] } c.rbf i
      (good → p 7 = 0 → (∀ r ∈ x.results, r.step ≠ p 1) → pushes (.collRed c q sP) .red 0) ∧
      (good → p 7 = 0 → len % (4 * x.n) = 0 → pushes (.collA2a c q sP) .a2a 0) ∧
      (good → p 7 < x.n → pushes (.collBcast c q sP) .bcast (if p 7 = x.rank then 0 else len + 1)) ∧
      ((∀ i, 2 ≤ i → i < 8 → p i = 0) → (∃ r ∈ x.present, r ≠ x.rank) → pushes (.collBar c q sP) .bar 0)) ∧
    (∀ (d : SReg) (q : BitVec 4) y,
      w.collQ.find? (fun x => x.1 == q.toNat) = some y →
      (∀ r, y.2.res = some r → ∃ t w1, exec (.collRes c d q) s = .next t ∧ ScalWritten w w1 (s.active c.guard) d false r.toNat ∧
        Ends s core slot { w1 with collQ := w.collQ.eraseP fun x => x.1 == q.toNat } t c.rbf) ∧
      (y.2.res = none → ∃ t, exec (.collRes c d q) s = .next t ∧ quietState t = quietState s ∧
        ParksOn s t core slot w c.rbf (s.active c.guard) (.collRes q.toNat))) ∧
    ∀ (sS sC : SReg) (x : Comm), w.commit = false →
      let k := w.scal false sC
      let step := w.scal false sS
      k < 256 → aget s.comms k = some x → x.aslot = w.aslot → x.rank < x.n →
      let table := listPut ⟨true, 0, 0⟩ x.n x.table x.rank ⟨true, step, s.us⟩
      let go := ∀ p ∈ table, p.live = true → step ≤ p.step + bitsN x.w1.toNat 63 56
      ∃ t, exec (.pstep c sS sC) s = .next t ∧ t.comms = aput s.comms k { x with table := table } ∧
        Told s t x (((List.range x.n).filter (· != x.rank)).map fun r => (r, .publish k x.rank step)) ∧
        t.mem = s.mem ∧ t.slots = s.slots ∧ (¬go → ParksOn s t core slot w c.rbf (s.active c.guard) (.pstep k step false)) ∧
        (go → ∃ u, t.wave? core slot = some u ∧ WentOn s.focus w u c.rbf (fun _ => behind s) ∧
          (Unsplit w → ∀ r ∈ u.streams, r.lanes &&& s.active c.guard ≠ 0 → r.st = .run))

/-- R395 to R402, R156: the engine reads a command's source by chunks and sends its contribution to the closer, and writes a destination by chunks,
the result word last; the closer accepts, holds or discards a contribution by its step, and closes a step on its quorum, with the weighted mean, on
its timer or as a stall, with its report (R413); results and timeouts complete commands; publications and silence change the progress table.
Readings of the model: log 33, 44, 57. -/
def Obligations.CollectiveEvents : Prop :=
  ∀ (s : State) (k : Nat) (c : Comm), aget s.comms k = some c →
    let timer := bitsN c.w1.toNat 31 8
    let lead := bitsN c.w1.toNat 63 56
    let quorum := bitsN c.w0.toNat 32 21 + 1
    let toAll (r : CollRes) : List (Nat × EngMsg) :=
      ((List.range c.n).filter (· != c.rank)).map fun i => (i, .result k r.step r.st r.cnt r.late r.data)
    -- what the closer has of the step `now`, and that it waits for more
    let due (now : Nat) : List Contrib := c.parts.filter fun p => p.into == some now
    let onTime (now : Nat) : Nat := (c.parts.filter fun p => p.into == some now && p.step == now).length
    let closes (now : Nat) : Prop := c.cmds = [] ∧ c.cur = some now ∧ c.closed = true ∧ now + 1 < 2 ^ 32 ∧
      (∀ p ∈ c.parts, p.op = .red ∧ (p.into = some now ∧ p.step ≤ now ∨ p.into = none ∧ now < p.step ∧ p.step ≤ now + lead)) ∧
      (c.timer = none ↔ due now = []) ∧ onTime now < quorum ∧ (c.parts.filter fun p => p.step == now + 1).length < quorum
    -- after the step: the next one is current, what is held for it is accepted, and its timer runs once it has something
    let ended (now : Nat) (r : CollRes) : Comm := { c with
      parts := (c.parts.filter fun p => p.into.isNone).map fun p => if p.step = now + 1 then { p with into := some (now + 1) } else p
      cur := some (now + 1)
      timer := if c.parts.any fun p => p.step == now + 1 then some (s.us + timer) else none
      expiries := 0
      late := 0
      results := c.results ++ [r] }
    -- the command has its result: its messages still leave; a device that has closed no step has a current one only for its own commands
    let resolved (m : CollCmd) : Comm :=
      let c1 : Comm := { c with cmds := if m.len < m.sent then [] else [{ m with given := true }] }
      if c.closed = true ∨ c.cur = none then c1 else { c1 with cur := none, timer := none, expiries := 0 }
    (∀ (die : Nat) (m : CollCmd) lf, s.comms = [(k, c)] → die < 4 → bitsN c.w0.toNat 61 60 = die → c.cmds = [m] → c.pend = [] →
      m.op = .red → m.sent < m.len → m.given = false → c.closer ≠ c.rank →
      let n := Min.min 4096 (m.len - m.sent)
      m.src + m.sent + n ≤ 2 ^ 57 → Mapped s m.core c.aslot (m.src + m.sent) n .load lf →
      let data := m.data ++ bytesWords (rangeBytes s (m.src + m.sent) n lf)
      ∃ t, exec (.engineChunk die) s = .next t ∧ t.mem = s.mem ∧ (∀ i j, t.wave? i j = s.wave? i j) ∧
        (m.sent + n < m.len → t.comms = [(k, { c with cmds := [{ m with sent := m.sent + n, data := data }] })] ∧ Told s t c []) ∧
        (m.sent + n = m.len → t.comms = [(k, { c with cmds := [{ m with sent := m.len + 1, data := data, tgt := some c.closer }] })] ∧
          Told s t c [(c.closer, .part k c.rank .red m.step data)])) ∧
    (∀ (die : Nat) (p : CollPend) (d : Nat) (bs : List Byte) (leaf : Leaf), s.comms = [(k, c)] → die < 4 → bitsN c.w0.toNat 61 60 = die →
      c.cmds = [] → c.pend = [p] → p.left = [(d, bs)] → bs ≠ [] →
      let n := Min.min (4096 - p.out % 4096) bs.length
      Storable s p.core c.aslot d n leaf →
      ∃ t, exec (.engineChunk die) s = .next t ∧ MemWritten s t (leaf.pa d) (bs.take n) ∧
        (n = bs.length → Resulted s t p.uid p.id (resultWord p.st p.cnt p.late) ∧ t.comms = [(k, { c with pend := [] })]) ∧
        (n < bs.length → t.comms = [(k, { c with pend := [{ p with out := p.out + n, left := [(d + n, bs.drop n)] }] })] ∧
          ∀ i j, (t.wave? i j).map still = (s.wave? i j).map still)) ∧
    (∀ (rank step a : Nat) (data : List Word) (leaf : Leaf), rank < c.n → rank ≠ c.rank → step < 2 ^ 32 →
      (∀ p ∈ c.parts, ¬(p.op = .red ∧ p.rank = rank ∧ p.step = step)) → c.stageSlot (4 * data.length) = some a →
      Storable s (256 * c.eng) c.aslot (c.stg + a) (4 * data.length) leaf →
      let part (into : Option Nat) : Contrib := ⟨rank, step, .red, data, 4 * data.length, into, a⟩
      let arrives (q : State → Prop) : Prop := ∃ t, exec (.contributionArrival k rank step data) s = .next t ∧
        MemWritten s t (leaf.pa (c.stg + a)) (wordsBytes data) ∧ (∀ i j, (t.wave? i j).map still = (s.wave? i j).map still) ∧ q t
      let keeps (c' : Comm) (ms : List (Nat × EngMsg)) : Prop := arrives fun t => t.comms = aput s.comms k c' ∧ Told s t c ms
      (c.cmds = [] → c.closed = false → c.cur = none → keeps { c with parts := c.parts ++ [part none] } []) ∧
      ∀ now, closes now →
        (now < step → step ≤ now + lead → (step = now + 1 → (c.parts.filter fun p => p.step == now + 1).length + 1 < quorum) →
          keeps { c with parts := c.parts ++ [part none] } []) ∧
        (now + lead < step → keeps { c with late := c.late + 1 } [(rank, .result k step 3 0 0 [])]) ∧
        (step + lead < now → keeps { c with late := c.late + 1 } []) ∧
        (step ≤ now → now ≤ step + lead → (step = now → onTime now + 1 < quorum) →
          keeps { c with parts := c.parts ++ [part (some now)], timer := some (c.timer.getD (s.us + timer)) } []) ∧
        (step = now → quorum ≤ onTime now + 1 → arrives fun t => ∃ r : CollRes, r.step = now ∧ r.st = 0 ∧ r.cnt = (due now).length + 1 ∧
          r.late = c.late ∧ Averages now (due now ++ [part (some now)]) r.data ∧ Told s t c (toAll r) ∧
          aget t.comms k = some (ended now r))) ∧
    (∀ (op : CollOp) (rank step : Nat) (data : List Word), op ≠ .red → rank < c.n → rank ≠ c.rank → c.cmds = [] →
      (∀ p ∈ c.parts, ¬(p.op = op ∧ p.step = step ∧ p.rank = rank)) →
      let more : Comm := { c with parts := c.parts ++ [⟨rank, step, op, data, 4 * data.length, none, 0⟩] }
      exec (.collectiveMessageArrival k rank op step (4 * data.length) data) s = .next { s with comms := aput s.comms k more }) ∧
    (∀ (m : CollCmd) (st cnt late : Nat) (data : List Word), c.cmds = [m] → m.op = .red → m.given = false → c.pend = [] →
      c.parts = [] → c.results = [] → st < 4 → (if st < 2 then data ≠ [] ∧ 4 * data.length = m.len else data = []) →
      let got : Comm := { resolved m with results := [⟨m.step, st, cnt, late, data⟩] }
      ∃ t, exec (.resultArrival k m.step st cnt late data) s = .next t ∧ t.mem = s.mem ∧
        (st < 2 → (∀ i j, t.wave? i j = s.wave? i j) ∧ aget t.comms k =
          some { got with pend := [⟨m.id, m.uid, m.core, st, cnt, late, 0, [(m.dst, wordsBytes data)]⟩] }) ∧
        (2 ≤ st → Resulted s t m.uid m.id (resultWord st cnt late) ∧ aget t.comms k = some got)) ∧
    (∀ (m : CollCmd) (r : Nat), c.cmds = [m] → m.op = .red → m.given = false → c.pend = [] → c.parts = [] → m.tgt = some r → r ≠ c.rank →
      m.since + 2 * timer < s.us →
      ∃ t, exec (.memberResultTimeout k m.step) s = .next t ∧ Resulted s t m.uid m.id (resultWord 2 0 0) ∧ t.mem = s.mem ∧
        aget t.comms k = some (resolved m)) ∧
    (∀ now expiry, closes now → c.timer = some expiry → expiry < s.us →
      let floor' := bitsN c.w0.toNat 20 9 + 1
      (floor' ≤ (due now).length → ∃ t, ∃ r : CollRes, exec (.closureTimerExpiry k .red now) s = .next t ∧ r.step = now ∧ r.st = 1 ∧
        r.cnt = (due now).length ∧ r.late = c.late ∧ Averages now (due now) r.data ∧ Told s t c (toAll r) ∧
        aget t.comms k = some (ended now r)) ∧
      ((due now).length < floor' → c.expiries = 0 →
        exec (.closureTimerExpiry k .red now) s =
          .next { s with comms := aput s.comms k { c with expiries := 1, timer := some (expiry + timer) } }) ∧
      ((due now).length < floor' → c.expiries ≠ 0 → ∃ t, exec (.closureTimerExpiry k .red now) s = .next t ∧
        Told s t c (((List.range c.n).filter fun i => i != c.rank && (due now).any fun p => p.rank == i && p.step == now).map
          fun i => (i, .result k now 2 0 0 [])) ∧
        Reported s t 4 0 c.aslot [k, now] ∧ aget t.comms k = some (ended now ⟨now, 2, 0, 0, []⟩))) ∧
    ∀ rank, rank < c.n → rank ≠ c.rank → c.cmds = [] →
      (∀ step, ∃ t, exec (.publicationArrival k rank step) s = .next t ∧
        t.comms = aput s.comms k { c with table := listPut ⟨true, 0, 0⟩ c.n c.table rank ⟨true, step % 2 ^ 32, s.us⟩ } ∧
        t.mem = s.mem ∧ Told s t c []) ∧
      ((c.peer rank).live = true → (c.peer rank).last + bitsN c.w1.toNat 55 32 < s.us →
        ∃ t, exec (.silenceTimeout k rank) s = .next t ∧
          t.comms = aput s.comms k { c with table := listPut ⟨true, 0, 0⟩ c.n c.table rank { c.peer rank with live := false } } ∧
          t.mem = s.mem ∧ Told s t c [])

/-! ## System registers -/

/-- R29, R33, R307, R309, R356 to R358, R360, R361, R368, R378, R415: the registers that a wave reads and writes, with the bits that each
keeps; no decoded instruction has another number; `gen` makes a new generation, once the wave's remote stores are answered (log 29). -/
def Obligations.SystemRegisters : Prop :=
  ∀ (c : Ctl) (r : SReg) (s : State),
    (∀ num : BitVec 18, (num.toNat ∉ [0x000, 0x001, 0x002, 0x010, 0x011, 0x020, 0x021, 0x028, 0x029, 0x02A, 0x032, 0x033, 0x100, 0x101, 0x102,
        0x108, 0x109, 0x110, 0x200, 0x201] → (Instr.csrr c r num).wf .core = false) ∧
      (num.toNat ∉ [0x001, 0x028, 0x029, 0x02A, 0x100, 0x108, 0x109] → (Instr.csrw c num r).wf .core = false) ∧
      (num.toNat ≠ 0x000 → num.toNat ≠ 0x034 → (Instr.csrr c r num).wf .xp = false)) ∧
    (∀ core slot w a, Runs s core slot w → s.slot? w.aslot = some a → core < 1024 →
      let k := s.core core
      let reads (num : BitVec 18) (wide : Bool) (v : Nat) : Prop := ScalResult s core slot w (.csrr c r num) c r wide v
      reads 0x000 false ((2 * (core / 512) + core % 32 / 16) * 2 ^ 24 + core / 32 / 8 * 2 ^ 22 + core % 32 / 8 * 2 ^ 20 + core * 2 ^ 10 +
        core / 32 * 2 ^ 5 + core % 32) ∧
      reads 0x001 false k.smiss.toNat ∧ reads 0x002 true k.cdl.toNat ∧
      reads 0x010 false ((if w.task then 1 else 0) * 2 ^ 31 + w.depth * 2 ^ 26 + slot * 2 ^ 21 + w.wix * 2 ^ 16 + w.prio * 2 ^ 13 +
        w.ry * 2 ^ 5 + w.rx) ∧
      reads 0x011 true w.stamp ∧ reads 0x020 true (bitsN a.root 51 12 * 2 ^ 12) ∧ reads 0x021 false a.gen ∧
      reads 0x028 true a.raceCtl.toNat ∧ reads 0x029 false a.raceHead ∧ reads 0x02A false a.raceDrop ∧
      reads 0x032 false k.xp0.stat ∧ reads 0x033 false k.xp1.stat ∧ reads 0x100 true a.fltBase.toNat ∧ reads 0x101 false a.fltHead ∧
      reads 0x102 false a.fltTail ∧ reads 0x108 true a.trapVec.toNat ∧ reads 0x109 false a.trapCfg.toNat ∧
      reads 0x110 false a.dbgCtl.toNat ∧
      reads 0x200 false ((if s.boot.mode = 2 then 1 else 0) * 2 ^ 31 + s.devNo % 2 ^ 12) ∧
      reads 0x201 false ((if w.priv then 1 else 0) * 2 ^ 31 + w.aslot % 2 ^ 9) ∧
      (s.active c.guard ≠ 0 →
        let x := w.scal false r
        let y := w.scal true r
        let sets (i : Instr) (a' : ASlot) : Prop := Passes s { s with slots := aput s.slots w.aslot a' } core slot w c.rbf i
        let idle := ∀ f ∈ s.recs, f.aslot = w.aslot → f.pending = false
        let base : DWord := BitVec.ofNat 64 (bitsN y 56 12 * 2 ^ 12 + Min.min (y % 16) 12)
        let dbg : ASlot := { a with dbgCtl := BitVec.ofNat 32 (x % 4) }
        Passes s (s.modCore core fun k => { k with smiss := BitVec.ofNat 32 x }) core slot w c.rbf (.csrw c 0x001 r) ∧
        sets (.csrw c 0x028 r) { a with raceCtl := BitVec.ofNat 64 (bitsN y 56 12 * 2 ^ 12 + bitsN y 11 8 * 2 ^ 8 + y % 2) } ∧
        sets (.csrw c 0x029 r) { a with raceHead := x } ∧ sets (.csrw c 0x02A r) { a with raceDrop := x } ∧
        (idle → sets (.csrw c 0x100 r) { a with fltBase := base }) ∧
        Answers s (.csrw c 0x100 r) (fun t => KeepsWave s t core slot w c.rbf ∧ (t.slot? w.aslot).map (·.fltBase) = some base) ∧
        sets (.csrw c 0x108 r) { a with trapVec := BitVec.ofNat 64 (bitsN y 56 9 * 2 ^ 9 + y % 2) } ∧
        sets (.csrw c 0x109 r) { a with trapCfg := BitVec.ofNat 32 (x % 2 ^ 9) } ∧
        (idle → sets (.csrwFltTail c r) { a with fltTail := x }) ∧
        Answers s (.csrwFltTail c r) (fun t => KeepsWave s t core slot w c.rbf ∧ (t.slot? w.aslot).map (·.fltTail) = some x) ∧
        (a.dbgCtl.getLsbD 1 = false ∨ x / 2 % 2 = 1 → sets (.csrwDbgCtl c r) dbg) ∧
        (a.dbgCtl.getLsbD 1 = true → x / 2 % 2 = 0 → Answers s (.csrwDbgCtl c r) fun t => t.slots = aput s.slots w.aslot dbg ∧
          ∀ i k v, s.wave? i k = some v → ∃ u, t.wave? i k = some u ∧
            (if i = core ∧ k = slot then SameWave { v with subs := u.subs } u else { still u with subs := v.subs } = still v) ∧
            u.subs = v.subs ++ if v.aslot = w.aslot ∧ s.haltedLanes i v ≠ 0 then [s.haltedLanes i v] else []) ∧
        (∀ b, (s.xp core (if b then 1 else 0)).heads.length < 4 →
          Passes s (s.modXp core (if b then 1 else 0) fun p => { p with
            heads := p.heads ++ [⟨y, if w.handler.isSome then .slot w.aslot else .launch w.aslot w.lid⟩] }) core slot w c.rbf
            (.csrwXpChan c b r)) ∧
        (w.commit = false → a.gen ≠ 2 ^ 32 - 1 → s.openRemote w.uid fullMask = false → ∃ t w1, exec (.gen c r) s = .next t ∧
          ScalWritten w w1 (s.active c.guard) r false (a.gen + 1) ∧
          Ends { s with slots := aput s.slots w.aslot { a with gen := a.gen + 1 } } core slot w1 t c.rbf))) ∧
    ∀ core x p, XRuns s core x p →
      DResult s core x p (.csrr c r 0x000) r.toNat false (coreId core).toNat ∧
      DResult s core x p (.csrr c r 0x034) r.toNat false p.stat

/-! ## Copies and chain walks -/

/-- R82, R277 to R279, R308, R321: a turn moves the bytes of a copy; a completed copy leaves its engine, its destination lines become
present, and its batches, or the error bit of the program's transfers, follow. Readings of the model: log 47. -/
def Obligations.CopyEvents : Prop :=
  ∀ (s : State) (core : Nat) (k : Copy), SettledAllocs s → s.flows = [] → (∀ i, (s.core i).copies = if i = core then [k] else []) →
    (s.core core).disabled = false → (s.core core).gated = false →
    (∀ (va i a bytes : Nat) (leaf : Leaf), k.xp < 2 → k.shape = .lin (.glob va) → k.dst = .spad i a → k.pos = 0 → k.buf = [] → k.rd = none →
      k.done = false → k.after = [] → k.srcLines = [] → 1 ≤ k.total → a % 32 + k.total ≤ 32 → k.total ≤ bytes → k.lid = none →
      Reaches s k.aslot va k.total .load leaf → FreshTlb s core k.aslot → PlainSector s (leaf.pa va) →
      ∃ t, exec (.xpEngineTurn core k.xp bytes) s = .next t ∧ t.mem = s.mem ∧
        (∀ j y, mget 0 (t.core j).spad y = if j = i ∧ a ≤ y ∧ y < a + k.total then rdByte s.mem (leaf.pa va + (y - a))
          else mget 0 (s.core j).spad y) ∧
        (t.core core).copies = [{ k with pos := k.total, done := true }]) ∧
    (∀ uid slot q lanes w, k.from' = .queue uid slot q lanes → k.done = true → k.err = false → k.bad = [] → s.wave? core slot = some w →
      w.uid = uid → w.copyBad = [] →
      ∃ t u, exec (.copyComplete core k.id) s = .next t ∧ (t.core core).copies = [] ∧
        (∀ i l, l ∈ (t.core i).absent ↔ l ∈ (s.core i).absent ∧ (i, l) ∉ k.lines) ∧ t.wave? core slot = some u ∧
        u.copyOpen = w.copyOpen.filter (fun y => y.2 != k.id) ∧
        u.batches = (w.batches.map fun b => (b.1, b.2.filter (· != k.id))).filter (fun b => !b.2.isEmpty) ∧ u.copyErr = w.copyErr ∧
        u.s = w.s ∧ u.v = w.v ∧ t.mem = s.mem) ∧
    (k.from' = .prog → k.done = true → k.xp < 2 → ∃ t, exec (.programTransferComplete core k.xp k.id) s = .next t ∧
      (t.core core).copies = [] ∧ (∀ i l, l ∈ (t.core i).absent ↔ l ∈ (s.core i).absent ∧ (i, l) ∉ k.lines) ∧
      t.xp core k.xp = { s.xp core k.xp with err := (s.xp core k.xp).err || k.err } ∧ t.mem = s.mem)

/-- R310 to R314: a walk starts at the next head; a good record of each kind has its effect; what is over is written back with its
status and the walk goes to the next record; a page that moves changes the state of its leaf. Readings of the model: log 38, 39, 40. -/
def Obligations.WalkRecords : Prop :=
  (∀ (s : State) (core x : Nat) (h : Head) (rest : List Head), x < 2 → (s.core core).disabled = false → (s.core core).gated = false →
    (s.xp core x).walk = none → (s.xp core x).heads = h :: rest → h.addr % 64 = 0 → h.addr < 2 ^ 57 → h.addr ≠ 0 →
    exec (.chainWalkStart core x) s = .next ((s.modXp core x fun p => { p with heads := rest }).modXp core x fun p =>
      { p with walk := some ⟨h.bind, h.addr, [], false, [], none⟩ })) ∧
  (∀ (s : State) (core x : Nat) (w : Walk), AtRecord s core x w →
    let copies (i : Instr) (src dst : Place) (len : Nat) (q : State → Prop) : Prop := ∃ t k, exec i s = .next t ∧
      (t.core core).copies = (s.core core).copies ++ [k] ∧ k.shape = .lin src ∧ k.dst = dst ∧ k.total = len ∧ k.pos = 0 ∧
      k.from' = .walk ∧ k.xp = x ∧ k.aslot = w.bind.aslot.getD 0 ∧ (t.xp core x).walk = some { w with busy := true } ∧ q t
    (s.checkRec core x w = 0 →
      (w.kind = 0 → ∀ a b, s.placeOf w.bind.lid core (kindOf w.skind) w.src w.len = some a →
        s.placeOf w.bind.lid core (kindOf w.dkind) w.dest w.len = some b →
        copies (.recCopy core x) a b w.len fun t => t.mem = s.mem ∧ ∀ y ∈ placeLines b w.len, y.2 ∈ (t.core y.1).absent) ∧
      (w.kind = 1 → copies (.recLoadImage core x) (.glob w.src) (.store w.dest) w.len fun t => t.mem = s.mem) ∧
      ∀ l, s.walk (w.bind.aslot.getD 0) (if w.kind = 4 then w.src else w.dest) = .leaf l → l.level = 0 →
        leafFault s (w.bind.aslot.getD 0) (if w.kind = 4 then w.src else w.dest) .load l = none →
        (w.kind = 4 → (∀ cr ∈ s.cores, cr.2.partials = []) → copies (.recOffloadOut core x) (.frame (l.pa w.src) w.src) (.glob w.dest) 65536
          fun t => MemWritten s t l.ent (toBytes 8 (putBits l.pte 63 62 1))) ∧
        (w.kind = 5 → (∀ cr ∈ s.cores, cr.2.partials = []) → copies (.recOffloadIn core x) (.glob w.src) (.frame (l.pa w.dest) w.dest) 65536
          fun t => MemWritten s t l.ent (toBytes 8 (putBits l.pte 63 62 2)))) ∧
    ∀ leaf, CanReturn s core w leaf → SettledAllocs s →
      let returns (i : Instr) (st : Nat) (q : State → Prop) : Prop := ∃ t, exec i s = .next t ∧
        MemWritten s t (leaf.pa (w.cur + 8)) (toBytes 8 (statusWord w st)) ∧ (t.xp core x).walk = nextRecord w ∧ q t
      (s.checkRec core x w = 0 → w.kind = 2 → w.arr = false → returns (.recStartProgram core x) 0 fun t =>
        (t.xp core x).pc = w.src ∧ (t.xp core x).st = .running ∧ (t.xp core x).bind = w.bind ∧ (t.xp core x).loops = [] ∧
        ∀ i, (t.xp core x).dreg i = if i < 6 then BitVec.ofNat 32 (w.word (5 + i / 2) / 2 ^ (32 * (i % 2))) else 0) ∧
      (s.checkRec core x w = 0 → w.kind = 3 → w.arr = true → ((s.core core).cbar w.cb).wait = [] →
        ((s.core core).cbar w.cb).count + w.k < 2 ^ 32 → returns (.recArriveOnly core x) 0 fun t =>
          (t.core core).cbar w.cb = ⟨((s.core core).cbar w.cb).count + w.k, []⟩) ∧
      (w.malformed = true → (∀ a, s.slot? (w.bind.aslot.getD 0) = some a →
          (a.fltHead + 2 ^ 32 - a.fltTail) % 2 ^ 32 = 2 ^ (bitsN a.fltBase.toNat 3 0 + 6)) →
        returns (.recBad core x) 2 fun t => ∃ r ∈ t.recs, r.id = s.uids + 1 ∧ r.kind = 0x0B ∧ r.lanes = 0 ∧
          r.words = recordWords 0 w.cur 0 0 0 0 0x0B 3 2 4 0 core 0)) ∧
  ∀ (s : State) (core x : Nat) (w : Walk) (k : Copy) (l leaf : Leaf) (v : Nat), x < 2 → (s.xp core x).walk = some w → w.busy = true →
    (∀ i, (s.core i).copies = if i = core then [k] else []) → k.xp = x → k.from' = .walk → k.done = true → k.err = false → s.flows = [] →
    SettledAllocs s → w.arr = false → (∀ i, (s.core i).log = [] ∧ (s.core i).partials = []) →
    let page := if w.kind = 4 then w.src else w.dest
    s.walk (w.bind.aslot.getD 0) page = .leaf l → v = (if w.kind = 4 then 3 else 0) →
    CanReturn (s.setOff (w.bind.aslot.getD 0) page v) core w leaf →
    (l.ent + 8 ≤ leaf.pa (w.cur + 8) ∨ leaf.pa (w.cur + 8) + 8 ≤ l.ent) →
    let ends (i : Instr) : Prop := ∃ t, exec i s = .next t ∧ rdNum t.mem l.ent 8 = putBits l.pte 63 62 v % 2 ^ 64 ∧
      rdNum t.mem (leaf.pa (w.cur + 8)) 8 = statusWord w 0 % 2 ^ 64 ∧ (t.xp core x).walk = nextRecord w ∧ (t.core core).copies = []
    (w.kind = 4 → ends (.offloadOutComplete core x)) ∧ (w.kind = 5 → ends (.offloadInComplete core x))

/-! ## Schedulers, distributor and admission -/

/-- R32, R36, R38, R44, R45, R47, R56 to R60, R63, R64: a scheduler grants a run to the next ready wave; the distributor places the
head of the highest queue; a gang is reserved core by core and gives way; a core admits its first candidate; an idle core steals. The
turn, and what becomes of a context image, are inputs of the model (log 5, 20). Readings of the model: which run a granted part starts (log 19), who
may take one (log 14, 36), the lowest free lines of an allocation (log 32), how a gang is reserved and when it gives way (log 51). -/
def Obligations.Scheduling : Prop :=
  (∀ (s : State) (core sched i : Nat) (w : Wave), sched < 4 → i < 8 → listGet none (s.core core).grants sched = none →
    (∀ x ∈ (s.core core).slots, x.1 / 8 = sched → x.2.ended ≠ fullMask) →
    let slot (j : Nat) : Nat := 8 * sched + (listGet 7 (s.core core).last sched + 1 + j) % 8
    (∀ j, j < i → ¬MayRun s core (slot j)) → MayRun s core (slot i) → s.wave? core (slot i) = some w → w.subs = [] → w.streams = [] →
    let part := s.readyLanes core w
    Answers s (.runGrant core sched .keep) fun t =>
      (∀ j, j < 4 → listGet none (t.core core).grants j = if j = sched then some ⟨slot i, part⟩ else listGet none (s.core core).grants j) ∧
      listGet 7 (t.core core).last sched = slot i % 8 ∧
      (∃ u group, t.wave? core (slot i) = some u ∧ (∀ l, l < 32 → hasLane group l = (hasLane part l && listGet 0 w.pcs l == w.bcast)) ∧
        u.streams = newRuns part group (2 * (w.runs + 1)) ∧ u.runs = w.runs + 1 ∧ u.waited = 0 ∧ (∀ n l, l < 32 → u.latch n l = if hasLane part l then 0 else w.latch n l) ∧ u.v = w.v ∧
        u.s = w.s ∧ u.p = w.p ∧ u.pcs = w.pcs ∧ u.bcast = w.bcast) ∧
      (∀ c k, ¬(c = core ∧ k = slot i) → t.wave? c k =
        (s.wave? c k).map fun v => if c = core ∧ k / 8 = sched then { v with waited := v.waited + 1 } else v) ∧ t.mem = s.mem) ∧
  (∀ (s : State) (p lid : Nat) (rest : List Nat) (l : Launch), p < 8 → listGet [] s.dist.queues p = lid :: rest →
    (∀ q, p < q → q < 8 → listGet [] s.dist.queues q = []) → aget s.launches lid = some l → s.dist.gang = none →
    let popped (t : State) : Prop := ∀ q, q < 8 → listGet [] t.dist.queues q = if q = p then rest else listGet [] s.dist.queues q
    let cells (o : Nat) : List Nat := ({ l.blk with x0 := o % 32, y0 := o / 32 } : Block).cores
    (l.blk.kind = 0 → l.blk.flt = false → l.blk.x0 + l.blk.w ≤ 32 → Answers s .distributorPlace fun t => popped t ∧ ∀ i,
      (l.blk.y0 ≤ i / 32 ∧ i / 32 < l.blk.y0 + l.blk.h ∧ l.blk.x0 ≤ i % 32 ∧ i % 32 < l.blk.x0 + l.blk.w →
        t.core i = { s.core i with adm := (s.core i).adm ++ [.launch lid 0] }) ∧
      (¬(l.blk.y0 ≤ i / 32 ∧ i / 32 < l.blk.y0 + l.blk.h ∧ l.blk.x0 ≤ i % 32 ∧ i % 32 < l.blk.x0 + l.blk.w) → t.core i = s.core i)) ∧
    (l.blk.kind = 0 → l.blk.flt = true →
      let win := ((floatOrigins l.blk.h l.blk.w s.dist.ptr).filter fun o => (cells o).all fun c => s.fitsAll c l.blk l.blk.waves).take 5
      let droops (o : Nat) : Bool := (cells o).any fun c => (s.core c).droop
      (win = [] → exec .distributorPlace s = .next s) ∧
      (win ≠ [] → Answers s .distributorPlace fun t => ∃ o ∈ win, (droops o = true → ∀ q ∈ win, droops q = true) ∧
        (∀ q ∈ win, (droops q = true → droops o = true) → ∀ c ∈ cells o, ∃ d ∈ cells q, (s.core c).temp ≤ (s.core d).temp) ∧
        t.dist.ptr = o ∧ popped t ∧ (aget t.launches lid).map (·.blk) = some { l.blk with x0 := o % 32, y0 := o / 32 })) ∧
    (l.blk.kind = 1 → l.blk.flt = false →
      exec .distributorPlace s = .next { s with dist := { s.dist with gang := some (lid, [], l.blk.cores) } }) ∧
    (l.blk.kind = 2 → ∀ d, StandsIn s (32 * l.blk.y0 + l.blk.x0) d →
      ((s.core d).deque.length < 64 + 65536 → Answers s .distributorPlace fun t => popped t ∧
        t.core d = { s.core d with deque := lid :: (s.core d).deque, lastSteal := none } ∧ ∀ i, i ≠ d → t.core i = s.core i) ∧
      (64 + 65536 ≤ (s.core d).deque.length → exec .distributorPlace s = .next s))) ∧
  (∀ (s : State) (lid core : Nat) (got rest : List Nat) (l : Launch) (b : Nat), s.dist.gang = some (lid, got, core :: rest) →
    (∀ p, p < 8 → l.blk.prio < p → listGet [] s.dist.queues p = []) → s.ckpt = none → aget s.launches lid = some l →
    (s.core core).pre = [] → (s.core core).alloc lid = none → (s.core core).disabled = false → (s.core core).gated = false →
    (s.core core).resv = none → l.blk.waves ≤ (s.core core).freeSlots →
    l.blk.waves * l.blk.vregs ≤ (s.core core).free → (s.core core).spadRoom l.blk.spad = some b →
    (s.cluster (coreCluster core)).fused = l.blk.fuse →
    (rest ≠ [] → Answers s .gangReserve fun t =>
      t.core core = { s.core core with
        resv := some ⟨lid, l.blk.waves * l.blk.vregs, l.blk.waves, l.blk.spad, b⟩
        free := (s.core core).free - l.blk.waves * l.blk.vregs } ∧
      (∀ i, i ≠ core → t.core i = s.core i) ∧ t.dist = { s.dist with gang := some (lid, got ++ [core], rest) }) ∧
    (rest = [] → got = [] → l.blk.waves = 1 → ∀ k, k < 32 → s.wave? core k = none →
      (∀ j, j < 32 → s.wave? core j = none →
        let load (x : Nat) : Nat := ((s.core core).slots.filter fun y => y.1 / 8 == x / 8).length
        load k < load j ∨ load k = load j ∧ k ≤ j) →
      Answers s .gangReserve fun t => t.dist.gang = none ∧ lid ∉ listGet [] t.dist.queues l.blk.prio ∧ (t.core core).resv = none ∧
        ∃ u, t.wave? core k = some u ∧ Fresh u lid l 0)) ∧
  (∀ (s : State) (lid : Nat) (got todo : List Nat), s.dist.gang = some (lid, got, todo) →
    ((∃ p, p < 8 ∧ s.prioOf lid < p ∧ listGet [] s.dist.queues p ≠ []) → Answers s .gangRelease fun t =>
      t.dist = { s.dist with gang := none } ∧ ∀ i, t.core i = if i ∈ got then
        (match (s.core i).resv with
          | some r => (s.core i).anew { s.core i with resv := none, free := (s.core i).free + r.d }
          | none => s.core i)
        else s.core i) ∧
    ((∀ p, p < 8 → s.prioOf lid < p → listGet [] s.dist.queues p = []) → exec .gangRelease s = .next s)) ∧
  (∀ (s : State) (core lid nx b : Nat) (l : Launch), (s.core core).adm = [.launch lid nx] → (s.core core).deque = [] →
    (s.core core).pre = [] → s.ckpt = none → aget s.launches lid = some l → (s.core core).alloc lid = none →
    (s.core core).spadRoom l.blk.spad = some b → (s.core core).disabled = false → (s.core core).gated = false →
    (s.cluster (coreCluster core)).fused = l.blk.fuse →
    (l.blk.vregs ≤ (s.core core).free → 1 ≤ (s.core core).freeSlots → ∀ k, k < 32 → s.wave? core k = none →
      (∀ j, j < 32 → s.wave? core j = none →
        let load (x : Nat) : Nat := ((s.core core).slots.filter fun y => y.1 / 8 == x / 8).length
        load k < load j ∨ load k = load j ∧ k ≤ j) →
      Answers s (.coreAdmit core .keep) fun t => (∃ u, t.wave? core k = some u ∧ Fresh u lid l nx) ∧
        (∀ j, j ≠ k → t.wave? core j = s.wave? core j) ∧
        (t.core core).adm = (if nx + 1 < l.blk.waves then [.launch lid (nx + 1)] else []) ∧
        (t.core core).free = (s.core core).free - l.blk.vregs ∧
        (t.core core).allocs = (s.core core).allocs ++ [⟨lid, b, l.blk.spad, [], l.blk.waves, 0⟩] ∧
        (∀ a, mget 0 (t.core core).spad a =
          if 128 * b ≤ a ∧ a < 128 * (b + l.blk.spad) then 0 else mget 0 (s.core core).spad a) ∧
        (∀ i, i ≠ core → t.core i = s.core i) ∧ t.mem = s.mem) ∧
    ((s.core core).free < l.blk.vregs → (s.core core).slots = [] → exec (.coreAdmit core .keep) s = .next s)) ∧
  ∀ (s : State) (core : Nat), (s.core core).deque = [] → 1 ≤ (s.core core).freeSlots → (s.core core).disabled = false →
    (s.core core).gated = false → (s.core core).lastSteal.elim True (fun x => x + 64 ≤ s.cyc) →
    let fits (v lid : Nat) : Prop := (s.core v).deque.getLast? = some lid ∧ s.stealFits core lid = true
    let mine (v : Nat) : Prop := v < 1024 ∧ v ≠ core ∧ coreDie v = coreDie core
    (∀ v lid, mine v → fits v lid → (∀ u x, mine u → StealsFirst core u v → ¬fits u x) →
      Answers s (.stealAttempt core) fun t => (t.core v).deque = (s.core v).deque.dropLast ∧ (t.core core).deque = [lid] ∧
        (t.core core).lastSteal = none ∧ ∀ i, i ≠ core → i ≠ v → t.core i = s.core i) ∧
    ((∀ v x, mine v → ¬fits v x) →
      exec (.stealAttempt core) s = .next (s.modCore core fun c => { c with lastSteal := some s.cyc }))

/-! ## Tokens, time limits, lost data, power -/

/-- R88, R89, R97, R102, R268, R270: token requests, transient and persistent; the ends of a wait in `ldv` and `mwait`; a speculative
access that meets nothing it may use. R87, R98, R379 to R381, R403, R413, R414, R422: poison and rollback, a lost core, errors
counted, links, clock, heat, power. Inputs and readings of the model: log 13, 45, 46, 56, 57. -/
def Obligations.TokensLossAndPower : Prop :=
  (∀ (s : State) (core line : Nat) (write : Bool), s.backed (line * 128) = true → isExt (line * 128) = false →
    (∀ h, coreCluster h = coreCluster core → (s.core h).disabled = false ∧ (s.core h).gated = false) → core < 1024 →
    s.sealedLine (line * 128) = false → s.boot.mode ≠ 0 →
    -- a persistent request of another core, which has seen this one served since it stands, comes first
    let outranked : Prop := ∃ r ∈ s.preqs, r.line = line ∧ r.core ≠ core ∧ core ∈ r.served
    let note (l : List PReq) : List PReq := l.map fun r => if r.line = line then { r with served := core :: r.served } else r
    (∀ ok, ok = false ∨ outranked →
      (s.asked core line < 4 → Answers s (.homeTokenRequest core line write ok) fun t =>
        t.asked core line = s.asked core line + 1 ∧ t.preqs = s.preqs ∧ t.cores = s.cores) ∧
      (s.asked core line = 4 → (∀ r ∈ s.preqs, r.line = line → r.core ≠ core) →
        Answers s (.homeTokenRequest core line write ok) fun t =>
          t.asked core line = 0 ∧ t.preqs = s.preqs ++ [⟨line, core, write, []⟩] ∧ t.cores = s.cores)) ∧
    (∀ k, s.frameSlot (line * 128 / 65536) = some k → ¬outranked → ∃ h, ((s.cluster (coreCluster core)).fused = false → h = core) ∧
      Answers s (.homeTokenRequest core line write true) fun t => t.asked core line = 0 ∧ Tokens t line h write ∧ t.mem = s.mem ∧
        t.preqs = note s.preqs ∧ ∀ i, { t.core i with l1 := [] } = { s.core i with l1 := [] }) ∧
    ∀ k, s.frameSlot (line * 128 / 65536) = some k → (∃ r ∈ s.preqs, r.line = line ∧ r.core = core) →
      (∀ r ∈ s.preqs, r.line = line → r.core = core → r.write = write) →
      let mark := mget 0 s.served line
      (∀ r ∈ s.preqs, r.line = line → mark ≤ r.core → mark ≤ core ∧ core ≤ r.core) →
      ((∀ r ∈ s.preqs, r.line = line → r.core < mark) → ∀ r ∈ s.preqs, r.line = line → core ≤ r.core) →
      ∃ h, ((s.cluster (coreCluster core)).fused = false → h = core) ∧ Answers s (.persistentRequest line) fun t => Tokens t line h write ∧
        t.preqs = note (s.preqs.filter fun r => !(r.line == line && r.core == core)) ∧ mget 0 t.served line = core + 1 ∧ t.mem = s.mem) ∧
  (∀ (s : State) (core slot : Nat) (w : Wave), s.wave? core slot = some w →
    (∀ r t0 limit pas m len rbf insn, w.streams = [r] → r.st = .park (.ldv t0 limit false pas m) len rbf insn →
      (t0 + limit < s.us → Answers s (.ldvStalenessTimeout core slot) fun t =>
        let c := ParkCond.ldv t0 limit true pas m
        let u := { w with streams := [{ r with st := .park c len rbf insn }] }
        t.wave? core slot = some u ∧ t.parkOver core u r.lanes c = true ∧ t.mem = s.mem) ∧
      (s.us ≤ t0 + limit → Answers s (.ldvStalenessTimeout core slot) fun t => t.wave? core slot = some w ∧ t.mem = s.mem)) ∧
    (∀ r pa dl len rbf insn, w.streams = [r] → r.st = .park (.mwait pa (some dl) false) len rbf insn →
      (dl ≤ s.cyc → Answers s (.mwaitTimeout core slot) fun t =>
        let c := ParkCond.mwait pa (some dl) true
        let u := { w with streams := [{ r with st := .park c len rbf insn }] }
        t.wave? core slot = some u ∧ t.parkOver core u r.lanes c = true ∧ t.mem = s.mem) ∧
      (s.cyc < dl → Answers s (.mwaitTimeout core slot) fun t => t.wave? core slot = some w ∧ t.mem = s.mem)) ∧
    ∀ (write fetch : Bool) (va : DWord),
      let i := Instr.speculativeAccess core slot ⟨va, write, fetch⟩
      let k : AKind := if write then .store else if fetch then .fetch else .load
      -- beside the counter nothing changes but tokens of the tables' lines, which the walk reads at their home slices
      let counts (n : Word) := Answers s i fun t => { t with cores := [] } = { s with cores := [] } ∧
        ∀ j, { t.core j with l1 := [] } = { s.core j with l1 := [], smiss := (s.core j).smiss + if j = core then n else 0 }
      (2 ^ 57 ≤ va.toNat → counts 1) ∧
      (va.toNat < 2 ^ 57 → (s.l1Hit core w.aslot va.toNat k).isSome = true → exec i s = .next s) ∧
      (va.toNat < 2 ^ 57 → s.l1Hit core w.aslot va.toNat k = none →
        (∀ e ∈ s.tablePath w.aslot va.toNat, s.linePartials (e / 128) = []) →
        (∀ f, s.walk w.aslot va.toNat = .fault f → counts 1) ∧
        ∀ l, s.walk w.aslot va.toNat = .leaf l →
          (pteOff l.pte ≠ 0 → counts 1) ∧ ((leafFault s w.aslot va.toNat k l).isSome = true → counts 1) ∧
          (write = true → s.sealedLine (l.pa va.toNat) = true → counts 1) ∧
          (pteOff l.pte = 0 → leafFault s w.aslot va.toNat k l = none → write = false ∨ s.sealedLine (l.pa va.toNat) = false →
            counts 0))) ∧
  (∀ (s : State) (pa : Nat), isExt pa = false → s.backed pa = true → s.poisoned pa = false →
    let die := pa / 65536 % 4
    let counted (t : State) : Prop := listGet 0 t.errUe die = Min.min (listGet 0 s.errUe die + 1) (2 ^ 64 - 1)
    (∀ k a, s.frameSlot (pa / 65536) = some k → s.slot? k = some a → mapsVersioned s.mem (pa / 65536) 4 a.root = false →
      Answers s (.poisonSector pa) fun t => t.poison = (pa / 32) :: s.poison ∧ counted t ∧ t.mem = s.mem) ∧
    ∀ k a, s.frameSlot (pa / 65536) = some k → s.slot? k = some a → mapsVersioned s.mem (pa / 65536) 4 a.root = true →
      fltFull a = true → Answers s (.poisonSector pa) fun t => t.poison = s.poison ∧ counted t ∧
        (∀ y, rdByte t.mem y = if y / 65536 = pa / 65536 then s.lehr.elim 0 (fun x => rdByte x.mem y) else rdByte s.mem y) ∧
        mget 0 t.tags (pa / 65536) = s.lehr.elim 0 (fun x => mget 0 x.tags (pa / 65536)) ∧
        ∃ r ∈ t.recs, r.id = s.uids + 1 ∧ r.aslot = k ∧ r.kind = 0x2A) ∧
  (∀ (s : State) (core heir : Nat), core < 1024 → (s.core core).disabled = false →
    let c := s.core core
    c.slots = [] → c.pre = [] → c.adm = [] → c.log = [] → c.copies = [] → c.partials = [] → (∀ e ∈ c.l1, e.2.dirty = false) →
    c.xp0.walk = none → c.xp1.walk = none → s.dist.gang = none → NamedRecs s → (∀ k a, s.slot? k = some a → fltFull a = true) →
    StandsIn (s.modCore core fun c => { c with disabled := true }) core heir →
    Answers s (.coreDisable core) fun t => (t.core core).disabled = true ∧ (t.core core).l1 = [] ∧ (t.core core).deque = [] ∧
      (t.core core).xp0.st = .halted ∧ (t.core core).xp1.st = .halted ∧
      (t.core heir).deque = c.deque ++ (s.core heir).deque ∧
      listGet 0 t.errUe (coreDie core) = Min.min (listGet 0 s.errUe (coreDie core) + 1) (2 ^ 64 - 1) ∧
      (∀ lid ∈ c.deque, ∀ l, aget s.launches lid = some l → ∃ r ∈ t.recs, r.aslot = l.aslot ∧ r.kind = 0x29) ∧
      Reported s t 2 core 0 [] ∧ t.mem = s.mem) ∧
  ∀ (s : State),
    (∀ die, die < 4 → Answers s (.correctableError die) fun t =>
      listGet 0 t.errCe die = Min.min (listGet 0 s.errCe die + 1) (2 ^ 64 - 1) ∧ { t with errCe := s.errCe } = s) ∧
    (∀ core, s.hot = false → 105 ≤ (s.core core).temp → Answers s (.thermalHalt core) fun t => t.hot = true ∧ Reported s t 7 core 0 [] ∧
      { t with hot := false, ev := s.ev, msix := s.msix, hostMem := s.hostMem } = s) ∧
    ((∀ c ∈ s.cores, c.2.temp < 95) → exec .thermalRelease s = .next { s with hot := false }) ∧
    ((∃ c ∈ s.cores, 95 ≤ c.2.temp) → exec .thermalRelease s = .next s) ∧
    (s.mhz < 1750 → Answers s (.clockThrottle true) fun t => t.mhz = s.mhz + 250 ∧ { t with mhz := s.mhz, sub := s.sub } = s) ∧
    (1000 < s.mhz → Answers s (.clockThrottle false) fun t => t.mhz = s.mhz - 250 ∧ Reported s t 7 0 0 [] ∧
      { t with mhz := s.mhz, sub := s.sub, ev := s.ev, msix := s.msix, hostMem := s.hostMem } = s) ∧
    (∀ core gate, core < 1024 → Answers s (.corePowerGate core gate) fun t =>
      t.core core = (if gate then { s.core core with gated := true, l1 := [] } else (s.core core).anew { s.core core with gated := false }) ∧
      t.preqs = (if gate then s.preqs.filter (·.core != core) else s.preqs) ∧ ∀ i, i ≠ core → t.core i = s.core i) ∧
    ∀ link, link < 2 → let old := listGet (false, false) s.links link
      (Answers s (.hostLinkDegrade link) fun t => listGet (false, false) t.links link = (old.1, true) ∧ { t with links := s.links } = s) ∧
      ∀ down, s.boot.mode = 1 → Answers s (.hostLinkDown link down) fun t =>
        listGet (false, false) t.links link = (down, old.2) ∧ { t with links := s.links } = s

/-! ## Flows and links -/

/-- R125, R282, R385 to R388, R405: a target performs a packet of a flow once, behind the earlier ones of its sector, and answers it, also again
where it has come again; acknowledgement, refusal and timeout give an access its fate, and one performed counts as the release that it is (R131); a
query settles what has not been performed. R389 to R391: retries, retraining, keys and lost ports. Inputs and readings of the model: log 43, 44, 57,
73. -/
def Obligations.FlowsAndLinks : Prop :=
  (∀ (s : State) (p : RemPkt), s.boot.mode = 1 → (s.rob p.dev p.flow).held = [] →
    let b := s.rob p.dev p.flow
    let acked (t : State) (a : RemAns) : Prop := (portAt s p.port).st = .up → (portAt s p.port).flits.2 + 1 < 2 ^ 48 →
      t.outbox = .ack p.dev p.flow p.seq a :: s.outbox
    let settled (t : State) (a : RemAns) : Prop := (t.rob p.dev p.flow).answers = b.answers ++ [(p.seq, a)] ∧
      (t.rob p.dev p.flow).past p.seq = true ∧ (t.rob p.dev p.flow).held = []
    (b.past p.seq = true → Answers s (.remoteAccessReceive p) fun t => t.robs = s.robs ∧ t.mem = s.mem ∧
      ∀ a, b.answers.find? (fun x => x.1 == p.seq) = some (p.seq, a) → acked t a) ∧
    (b.past p.seq = false → ((p.ord || p.rel) = true ∧ p.seq ≠ b.next ∨ ∃ q, p.prev = some q ∧ b.past q = false) → Answers s (.remoteAccessReceive p) fun t =>
      (t.rob p.dev p.flow).held = [p] ∧ (t.rob p.dev p.flow).answers = b.answers ∧ t.mem = s.mem) ∧
    (b.past p.seq = false → ((p.ord || p.rel) = true → p.seq = b.next) → (∀ q, p.prev = some q → b.past q = true) →
      (∀ comm rank step c, p.req = .engine (.publish comm rank step) → aget s.comms comm = some c → rank < c.n → rank ≠ c.rank →
        Answers s (.remoteAccessReceive p) fun t => settled t (.done []) ∧ t.mem = s.mem ∧
          (aget t.comms comm).map (·.peer rank) = some ⟨true, step % 2 ^ 32, s.us⟩) ∧
      ((∀ m, p.req ≠ .engine m) → s.frameSlot (p.pa / 65536) ≠ some p.tslot →
        Answers s (.remoteAccessReceive p) fun t => settled t .refused ∧ acked t .refused ∧ t.mem = s.mem) ∧
      (s.frameSlot (p.pa / 65536) = some p.tslot → s.backed p.pa = true → PlainSector s p.pa →
        (∀ n, p.req = .load n → 0 < n → n ≤ 8 → Answers s (.remoteAccessReceive p) fun t =>
          settled t (.done [BitVec.ofNat 64 (rdNum s.mem p.pa n)]) ∧ acked t (.done [BitVec.ofNat 64 (rdNum s.mem p.pa n)]) ∧
          t.mem = s.mem) ∧
        (∀ n d, p.req = .store n d → n ≤ 8 → Answers s (.remoteAccessReceive p) fun t =>
          settled t (.done []) ∧ acked t (.done []) ∧ MemWritten s t p.pa (toBytes n d.toNat)) ∧
        ∀ op w x y, p.req = .atomic op w x y → (w = false → x.toNat < 2 ^ 32 ∧ y.toNat < 2 ^ 32) →
          Answers s (.remoteAccessReceive p) fun t =>
          let n := if w then 8 else 4
          let old := rdNum s.mem p.pa n
          settled t (.done [BitVec.ofNat 64 old]) ∧
          MemWritten s t p.pa (toBytes n (atomValue op (8 * n) (BitVec.ofNat _ old) (BitVec.ofNat _ x.toNat) (BitVec.ofNat _ y.toNat)).toNat)))) ∧
  (∀ (s : State) (f core slot : Nat) (a : FlowAcc) (w : Wave), f < s.flows.length → a ∈ (s.flow f).open' →
    (∀ x ∈ (s.flow f).open', x.seq = a.seq → x = a) → s.wave? core slot = some w → w.uid = a.uid → a.uid ≠ 0 → a.copy = 0 →
    let leaves (t : State) (r : Option RemAns) : Prop := (t.flow f).open' = (s.flow f).open'.filter (fun x => x.seq != a.seq) ∧
      (t.flow f).answers = (if a.keep then (s.flow f).answers ++ [(a.seq, r)] else (s.flow f).answers) ∧ t.mem = s.mem
    let told (t : State) (fate : Nat) (real : Option Bool) : Prop := ∃ u, t.wave? core slot = some u ∧
      u.remErr = if a.kind = .load then w.remErr
        else w.remErr ++ [(a.lanes, ⟨a.va, fate, a.lane, remKindNo a.kind, f, a.seq, a.sys, real⟩)]
    let quiet (t : State) : Prop := ∃ u, t.wave? core slot = some u ∧ u.remErr = w.remErr
    -- what has been performed counts as the release that it is; what has timed out is remembered
    let counts (t : State) : Prop := t.ival = if a.ev.2 = 0 then s.ival else (s.bump a.ev.1 a.ev.2).ival
    let remembers (t : State) : Prop := (∀ m, a.req ≠ .engine m) → (t.flow f).lost = (s.flow f).lost ++ [(a.seq, a.pa / 32)]
    (extRoute a.pa ≠ 1024 → (∃ t0, (portAt s a.port).st = .training t0) ∨ a.sent = false →
      ∀ d, exec (.flowAck f a.seq d) s = .next s) ∧
    (a.sent = false → exec (.flowTimeout f a.seq) s = .next s ∧ ∀ port, exec (.flowRetransmit f a.seq port) s = .next s) ∧
    (extRoute a.pa ≠ 1024 → (∀ t0, (portAt s a.port).st ≠ .training t0) → a.sent = true →
      (∀ d, Answers s (.flowAck f a.seq (.done d)) fun t => leaves t (some (.done d)) ∧ quiet t ∧ counts t ∧ t.hostMem = s.hostMem) ∧
      (Answers s (.flowAck f a.seq .refused) fun t => leaves t (some .refused) ∧ told t 1 none ∧ t.ival = s.ival ∧ t.hostMem = s.hostMem) ∧
      (a.first + 2000000 < s.us → Answers s (.flowTimeout f a.seq) fun t => leaves t none ∧ told t 0 none ∧ remembers t ∧
        t.ival = s.ival ∧ t.hostMem = s.hostMem) ∧
      ∀ port, a.last + 200 < s.us → port ∈ s.portsOf a → (port = a.port → ∀ j ∈ s.portsOf a, j = a.port) →
        Answers s (.flowRetransmit f a.seq port) fun t => t.mem = s.mem ∧
          (t.flow f).open' = (s.flow f).open'.map fun x => if x.seq = a.seq then { x with last := s.us, port := port } else x) ∧
    (extRoute a.pa = 1024 → a.kind ≠ .load → a.sent = true → a.first + 2000000 < s.us → Answers s (.flowTimeout f a.seq) fun t =>
      (t.flow f).open' = (s.flow f).open'.filter (fun x => x.seq != a.seq) ∧ remembers t ∧ t.mem = s.mem ∧
      ∃ late, (late = true → (s.flow f).turn a = true ∧ s.linksDown = false) ∧ told t 0 (some late) ∧ t.hostMem = if late then (s.hostDo (a.pa % 2 ^ 50) a.req).1.hostMem else s.hostMem) ∧
    (extRoute a.pa = 1024 → s.linksDown = true → ∀ d, exec (.flowAck f a.seq d) s = .next s) ∧
    (extRoute a.pa = 1024 → (s.flow f).turn a = true → s.linksDown = false → ∀ d,
      (∀ n, a.req = .load n → 0 < n → n ≤ 8 → Answers s (.flowAck f a.seq (.done d)) fun t =>
        leaves t (some (.done [BitVec.ofNat 64 (rdNum s.hostMem (a.pa % 2 ^ 50) n)])) ∧ quiet t ∧ t.hostMem = s.hostMem) ∧
      ∀ n x, a.req = .store n x → n ≤ 8 → Answers s (.flowAck f a.seq (.done d)) fun t =>
        leaves t (some (.done [])) ∧ quiet t ∧ HostWritten s t (a.pa % 2 ^ 50) (toBytes n x.toNat))) ∧
  (∀ (s : State) (k : Nat), k < 18 →
    let p := portAt s k
    (p.st = .up → exec (.linkRetrain k) s = .next (s.modPort k fun p => { p with st := .training s.us })) ∧
    (∀ t0, p.st = .training t0 →
      (s.us ≤ t0 + 50 → Answers s (.retrainBound k true) fun t => Freed s t k true ∧ (AllSent s →
        portAt t k = { p with st := .up, fails := (0, 0) } ∧ ∀ j, j < 18 → j ≠ k → portAt t j = portAt s j)) ∧
      (t0 + 50 < s.us → Answers s (.retrainBound k false) fun t => PortLost s t k)) ∧
    (p.st = .up → p.fails.1 < 8 → p.fails.2 < 8 → ∀ dir,
      let n := if dir then p.fails.2 else p.fails.1
      (if dir then p.flits.2 else p.flits.1) + 1 < 2 ^ 48 →
      (n < 7 → Answers s (.flitTagFail k dir) fun t => (portAt t k).st = .up ∧
        (portAt t k).fails = if dir then (p.fails.1, n + 1) else (n + 1, p.fails.2)) ∧
      (n = 7 → Answers s (.flitTagFail k dir) fun t => PortLost s t k)) ∧
    (p.st = .up → ∀ dir, Answers s (.linkRekey k dir) fun t => (portAt t k).st = .training s.us ∧
      (portAt t k).keys = (if dir then (p.keys.1, p.keys.2 + 1) else (p.keys.1 + 1, p.keys.2)) ∧
      (portAt t k).flits = if dir then (p.flits.1, 0) else (0, p.flits.2)) ∧
    (p.st ≠ .down → Answers s (.fabricPortDown k) fun t => PortLost s t k)) ∧
  (∀ (s : State) (dev flow seq : Nat), let b := s.rob dev flow
    (∀ p ∈ b.held, p.dev = dev ∧ p.flow = flow ∧ p.seq ≤ seq) → Answers s (.flowQueryReceive dev flow seq) fun t =>
      (t.rob dev flow).held = [] ∧ (t.rob dev flow).answers = b.answers ++ b.held.map (fun p => (p.seq, .refused)) ∧
      (∀ q, (t.rob dev flow).past q = (decide (q ≤ seq) || b.past q)) ∧ t.mem = s.mem) ∧
  ∀ (s : State) (core slot i t0 : Nat) (w : Wave) (r : Stream) (x : Unres) (len : Nat) (rbf : Bool) (insn : BitVec 128),
    s.wave? core slot = some w → w.streams = [r] → r.st = .park (.flq i t0) len rbf insn → w.unres[i]? = some x → x.fate = 0 →
    let fated (fate : Nat) (t : State) : Prop := ∃ u, t.wave? core slot = some u ∧ u.unres[i]? = some { x with fate := fate } ∧
      (∀ j, j ≠ i → u.unres[j]? = w.unres[j]?) ∧ t.parkOver core u r.lanes (.flq i t0) = true ∧ t.mem = s.mem
    (∀ b, Answers s (.flowQueryAnswer core slot b) (fated (if x.real.getD b then 2 else 1))) ∧
    (t0 + 2000000 < s.us → Answers s (.flowQueryTimeout core slot) (fated 3))

/-! ## The host's side -/

/-- R404, R406 to R410, R413, R414, R423: the DRAM window, launch channels and their records, the done word, chain heads, registers.
Readings of the model: log 54. -/
def Obligations.HostAccess : Prop :=
  (∀ (s : State) (off : Nat),
    (∀ bs : List Byte, bs ≠ [] → off % 32 + bs.length ≤ 32 →
      (s.hostSees off = true → PlainSector s off → Answers s (.hostBar2Access off (some bs) 0) fun t => MemWritten s t off bs) ∧
      (s.hostSees off = true → s.sealedLine off = true →
        Answers s (.hostBar2Access off (some bs) 0) fun t => t.mem = s.mem ∧ Reported s t 0x0A 0 0 [off]) ∧
      (s.hostSees off = false → exec (.hostBar2Access off (some bs) 0) s = .next s)) ∧
    ∀ n, 0 < n → off % 32 + n ≤ 32 →
      (s.hostSees off = true → s.linePartials (off / 128) = [] →
        Answers s (.hostBar2Access off none n) fun t => t.hostOut = rdBytes s.mem off n ∧ t.mem = s.mem) ∧
      (s.hostSees off = false → Answers s (.hostBar2Access off none n) fun t => t.hostOut = List.replicate n 0xFF ∧ t.mem = s.mem)) ∧
  (∀ (s : State) (ch : Nat) (head : DWord), ch < 32 →
    ((s.chan ch).en = true → (s.chan ch).heads.length < 4 → Answers s (.chHead ch head) fun t =>
      t.chan ch = { s.chan ch with heads := (s.chan ch).heads ++ [head.toNat] } ∧ { t with chans := s.chans } = s) ∧
    ((s.chan ch).en = false ∨ 4 ≤ (s.chan ch).heads.length → Answers s (.chHead ch head) fun t =>
      t.chan ch = { s.chan ch with ovf := true } ∧ { t with chans := s.chans } = s) ∧
    (Answers s (.chStatClear ch) fun t => t.chan ch = { s.chan ch with ovf := false } ∧ { t with chans := s.chans } = s)) ∧
  (∀ (s : State) (ch : Nat) (head : Nat) (rest : List Nat), ch < 32 → s.boot.mode ≠ 0 → s.ckpt = none → (s.chan ch).walk = none →
    (s.chan ch).back = none → (s.chan ch).heads = head :: rest →
    (∀ d, d < 32 → d ≠ ch → ((s.chan d).walk.isSome = true ∨ (s.chan d).heads ≠ []) → ServedFirst s ch d) →
    let k := (s.chan ch).slot
    ((∀ a, s.slot? k = some a → a.ending = true) ∨ head % 64 ≠ 0 ∨ 2 ^ 57 ≤ head → Answers s .launchRecord fun t =>
      (t.chan ch).walk = none ∧ (t.chan ch).heads = rest ∧ Reported s t 5 0 k [head] ∧ t.mem = s.mem) ∧
    ∀ sl (lf : Nat → Leaf) (wl : Leaf), s.slot? k = some sl → sl.ending = false → head % 64 = 0 → head < 2 ^ 57 →
      Mapped s 0 k head 64 .load lf → Reaches s k (head + 8) 8 .store wl → PlainSector s (wl.pa (head + 8)) →
      let word (i : Nat) : Nat := rdNum s.mem ((lf (head + 32 * (i / 4))).pa (head + 8 * i)) 8
      (bitN (word 1) 63 = false → Answers s .launchRecord fun t => (t.chan ch).walk = none ∧ (t.chan ch).heads = rest ∧ t.mem = s.mem ∧
        t.launches = s.launches) ∧
      (bitN (word 1) 63 = true →
        let priv := (s.chan ch).priv && sl.priv
        let status (t : State) (st : Nat) : Prop :=
          MemWritten s t (wl.pa (head + 8)) (toBytes 8 (putBits (putBits (word 1) 63 63 0) 55 48 st)) ∧
          (t.chan ch).walk = (if word 0 = 0 then none else some (word 0, k, priv))
        (word 5 ≠ 0 → Answers s .launchRecord fun t => status t 1 ∧ t.launches = s.launches) ∧
        (bitsN (word 1) 62 56 = 0 → bitsN (word 1) 47 0 = 0 → bitsN (word 4) 63 1 = 0 → word 5 = 0 → word 6 = 0 → word 7 = 0 →
          word 2 % 64 = 0 →
          (2 ^ 57 ≤ word 2 → Answers s .launchRecord fun t => status t 2 ∧ t.launches = s.launches) ∧
          ∀ lb : Nat → Leaf, Mapped s 0 k (word 2) 64 .load lb →
            let bw := (List.range 8).map fun i => BitVec.ofNat 64 (rdNum s.mem ((lb (word 2 + 32 * (i / 4))).pa (word 2 + 8 * i)) 8)
            (blockBad bw = true → Answers s .launchRecord fun t => status t 3 ∧ t.launches = s.launches) ∧
            (blockBad bw = false → ch / 4 < (blockOf bw).prio →
              Answers s .launchRecord fun t => status t 4 ∧ t.launches = s.launches) ∧
            (blockBad bw = false → (blockOf bw).prio ≤ ch / 4 → Answers s .launchRecord fun t => status t 0 ∧
              aget t.launches s.stamp = some ⟨blockOf bw, s.stamp, k, priv, (blockOf bw).h * (blockOf bw).w * (blockOf bw).waves, [], [], []⟩ ∧
              t.stamp = s.stamp + 1 ∧ aget t.roots s.stamp = some ⟨head, k, ch, bitN (word 4) 0, 1, 0⟩ ∧
              listGet [] t.dist.queues (blockOf bw).prio = listGet [] s.dist.queues (blockOf bw).prio ++ [s.stamp] ∧
              (t.chan ch).acc = ((s.chan ch).acc + 1) % 2 ^ 27)))) ∧
  (∀ (s : State) (key : Nat) (r : Root) (l : Leaf), aget s.roots key = some r → r.live = 0 → r.status < 256 →
    Reaches s r.aslot (r.record + 0x18) 8 .store l → FreshTlb s 0 r.aslot → PlainSector s (l.pa (r.record + 0x18)) →
    Answers s (.launchComplete key) fun t => MemWritten s t (l.pa (r.record + 0x18)) (toBytes 8 (2 ^ 63 + r.status * 2 ^ 48)) ∧
      aget t.roots key = none ∧ t.msix = (if r.irq then (s.chan r.chan).vec :: s.msix else s.msix) ∧ t.ev = s.ev) ∧
  (∀ (s : State) (key : Nat) (r : Root), aget s.roots key = some r → r.live = 0 → 2 ^ 57 ≤ r.record + 0x18 →
    Answers s (.launchComplete key) fun t =>
      Reported s t 9 0 r.aslot [r.record, r.status] ∧ aget t.roots key = none ∧ t.mem = s.mem) ∧
  (∀ (s : State) (core x : Nat) (head : DWord), core < 1024 → x < 2 →
    let full := (s.core core).disabled = true ∨ 4 ≤ (s.xp core x).heads.length
    let gone := ∀ a, s.slot? s.xphSlot = some a → a.ending = true
    (¬full → ¬gone → exec (.xphHead core x head) s = .next
      (s.modXp core x fun p => { p with heads := p.heads ++ [⟨head.toNat, .slot s.xphSlot⟩] })) ∧
    (full → ¬gone → exec (.xphHead core x head) s = .next { s with xphStat := s.xphStat ||| 1 }) ∧
    (¬full → gone → exec (.xphHead core x head) s = .next { s with xphStat := s.xphStat ||| 2 }) ∧
    (full → gone → exec (.xphHead core x head) s = .next { s with xphStat := s.xphStat ||| 3 }) ∧
    ∀ bits, exec (.xphStatClear bits) s = .next { s with xphStat := s.xphStat &&& ~~~ bits }) ∧
  ∀ (s : State) (v : DWord),
    let reads (off n : Nat) : Prop := Answers s (.hostRegisterWrite off v) fun t => t.bar0 off = n ∧ t.mem = s.mem ∧ t.hostMem = s.hostMem
    let low := v.toNat % 2 ^ 32
    (∀ i, i < 8 → reads (0x208 + 8 * i) v.toNat) ∧ reads 0x400 (v.toNat / 64 * 64) ∧ reads 0x408 (Min.min (low % 16) 10) ∧
    reads 0x410 low ∧ reads 0x414 low ∧ reads 0x418 (bitsN low 31 31 * 2 ^ 31 + bitsN low 5 0) ∧
    (∀ i, i < 4 → reads (0x800 + 8 * i) v.toNat ∧ reads (0x820 + 8 * i) v.toNat) ∧
    (∀ ch, ch < 32 → reads (0x10008 + 64 * ch) (bitsN low 31 30 * 2 ^ 30 + bitsN low 14 0)) ∧ reads 0x1F000 (bitsN low 8 0) ∧
    ∀ off ∈ ([0x000, 0x204, 0x40C, 0x1000] : List Nat), exec (.hostRegisterWrite off v) s = .next s

/-- R98, R393, R411, R412, R415 to R421: each command of the mailbox, what refuses it, and a command while one runs or in recovery;
the end of a checkpoint; a start that succeeds and one that fails. Readings of the model: what becomes of frames and records of a slot that ends
(log 7), of what a digest of a root table is taken (log 74), and log 18, 55, 56, 63. -/
def Obligations.MailboxCommands : Prop :=
  -- a slot ends: its roots complete with status 2, and while a done word waits the command runs on
  let slotEnds (k : Nat) (t : State) : Prop := (∀ x ∈ t.roots, x.2.aslot = k → x.2.status = 2) ∧
    ((∃ x ∈ t.roots, x.2.aslot = k) → t.mb.cmd = some 2 ∧ (t.slot? k).map (·.ending) = some true) ∧
    ((∀ x ∈ t.roots, x.2.aslot ≠ k) → Completed t 0 ∧ t.slot? k = none ∧ (∀ f ∈ t.frames, f.2.2 ≠ k) ∧ ∀ r ∈ t.recs, r.aslot ≠ k)
  (∀ (s : State) (k : Nat), s.endingSlot = some k → Answers s .mbEndSlot (slotEnds k)) ∧
  (∀ (s : State), MayCommand s → s.endingSlot = none →
    let a := s.arg
    let gone := s.linksDown = true
    let ends (i : Instr) (st : Nat) (q : State → Prop) : Prop := Answers s i fun t => Completed t st ∧ q t
    -- create and end a slot
    (a 0 < 512 → a 2 < 2 → s.restZero 3 = true → a 1 % 4096 = 0 → a 1 < 0xC000000000 →
      (s.slot? (a 0) = none → s.slots.length < 512 → ends .mbCreateSlot 0 fun t =>
        t.slot? (a 0) = some (ASlot.fresh (a 1) (bitN (a 2) 0) (Config.slotKey s.fresh)) ∧ t.fresh = s.fresh + 1 ∧ ∀ j, j ≠ a 0 → t.slot? j = s.slot? j) ∧
      (s.slot? (a 0) ≠ none → ends .mbCreateSlot 3 fun t => t.slots = s.slots)) ∧
    (a 1 % 4096 ≠ 0 ∨ 0xC000000000 ≤ a 1 → ends .mbCreateSlot 1 fun t => t.slots = s.slots) ∧
    (a 0 < 512 → s.restZero 1 = true →
      (s.slot? (a 0) ≠ none → Answers s .mbEndSlot fun t => slotEnds (a 0) t ∧
        ((∀ x ∈ s.roots, x.2.aslot ≠ a 0) → ∀ x ∈ t.roots, x.2.aslot ≠ a 0)) ∧
      (s.slot? (a 0) = none → ends .mbEndSlot 3 fun t => t.slots = s.slots)) ∧
    -- frames and routes
    (a 0 < 512 → a 1 % 65536 = 0 → 1 ≤ a 2 → a 2 ≤ 12582912 → s.restZero 3 = true → s.slot? (a 0) ≠ none →
      let mine (f : Nat) : Prop := a 1 / 65536 ≤ f ∧ f < a 1 / 65536 + a 2
      (a 1 + 65536 * a 2 ≤ 0xC000000000 → (∀ f ∈ s.frames, f.2.2 ≠ a 0 → f.1 + f.2.1 ≤ a 1 / 65536 ∨ a 1 / 65536 + a 2 ≤ f.1) →
        ends .mbAssignFrames 0 fun t => (∀ n, mine n → t.frameSlot n = some (a 0)) ∧ (∀ n, ¬mine n → t.frameSlot n = s.frameSlot n) ∧
          (∀ y, mine (y / 65536) → rdByte t.mem y = 0) ∧ ∀ y, ¬mine (y / 65536) → rdByte t.mem y = rdByte s.mem y) ∧
      (0xC000000000 < a 1 + 65536 * a 2 → ends .mbAssignFrames 3 fun t => t.frames = s.frames ∧ t.mem = s.mem)) ∧
    (bitsN (a 0) 15 9 = 0 → bitsN (a 0) 63 26 = 0 → s.restZero 3 = true → s.slot? (bitsN (a 0) 8 0) ≠ none →
      ends .mbRouteEntry 0 fun t => t.route (bitsN (a 0) 8 0) (bitsN (a 0) 25 16) = (BitVec.ofNat 64 (a 1), BitVec.ofNat 64 (a 2)) ∧
        ∀ k r, k ≠ bitsN (a 0) 8 0 ∨ r ≠ bitsN (a 0) 25 16 → t.route k r = s.route k r) ∧
    -- communicators
    (bitsN (a 0) 15 9 = 0 → bitsN (a 0) 63 25 = 0 →
      let k := bitsN (a 0) 7 0
      let owner := bitsN (a 0) 24 16
      let n := bitsN (a 1) 56 45 + 1
      (bitN (a 0) 8 = true → s.restZero 6 = true →
        (commBad (a 1) (a 2) (a 4) = true → ends .mbCreateCommunicator 1 fun t => t.comms = s.comms) ∧
        (commBad (a 1) (a 2) (a 4) = false → aget s.comms k ≠ none → ends .mbCreateCommunicator 3 fun t => t.comms = s.comms) ∧
        (commBad (a 1) (a 2) (a 4) = false → aget s.comms k = none → s.comms.foldl (fun m c => m + c.2.n) n ≤ 4096 →
          s.slot? owner ≠ none → ∀ lf, Mapped s 0 owner (a 3) (2 * n) .load lf →
          let member (i : Nat) : Nat := ofBytes (((rangeBytes s (a 3) (2 * n) lf).drop (2 * i)).take 2)
          (∀ i, i < n → i ≠ bitsN (a 1) 44 33 → member i < 1024 ∧ routeOk (s.route owner (member i)) = true) →
          ends .mbCreateCommunicator 0 fun t => ∃ c, aget t.comms k = some c ∧ c.aslot = owner ∧ c.w0 = BitVec.ofNat 64 (a 1) ∧
            c.w1 = BitVec.ofNat 64 (a 2) ∧ c.stg = a 4 ∧ c.stgn = a 5 ∧ c.members = (List.range n).map member ∧
            c.table = List.replicate n ⟨true, 0, s.us⟩ ∧ c.cmds = [] ∧ c.cur = none ∧ c.parts = [])) ∧
      (bitN (a 0) 8 = false → s.restZero 6 = true →
        (aget s.comms k ≠ none → ends .mbEndCommunicator 0 fun t => aget t.comms k = none) ∧
        (aget s.comms k = none → ends .mbEndCommunicator 3 fun t => t.comms = s.comms))) ∧
    -- checkpoint and restore
    (a 0 % 4096 = 0 → s.restZero 5 = true →
      (¬gone → Answers s .mbCheckpoint fun t => t.ckpt = some (a 0, s.lehrKey) ∧ t.mb.cmd = some 6 ∧ t.mb.stat = 0 ∧ t.mem = s.mem) ∧
      (gone → ends .mbCheckpoint 3 fun t => t.ckpt = s.ckpt ∧ t.lehr = s.lehr) ∧
      (s.slots ≠ [] ∨ gone → ends .mbRestore 3 fun t => t.mem = s.mem ∧ t.tags = s.tags ∧ t.lehr = s.lehr) ∧
      (¬gone → s.slots = [] → ends .mbRestore 0 fun t =>
        (∀ i, 16 * i < dramTop → rdNum t.mem (16 * i) 16 =
          (lehrDec s.lehrKey (16 * i) (BitVec.ofNat 128 (rdNum s.hostMem (a 0 + 16 * i) 16))).toNat) ∧
        (∀ f, 65536 * f < dramTop → (mget 0 t.tags f).toNat = rdNum s.hostMem (a 0 + dramTop + 4 * f) 4) ∧
        t.poison = [] ∧ t.lehr = some ⟨a 0, s.lehrKey, t.mem, t.tags⟩ ∧ ∀ i, (t.core i).partials = [] ∧ (t.core i).l1 = [])) ∧
    -- attestation, wave state, firmware, device number, unknown codes
    (s.restZero 2 = true → ends .mbAttest 0 fun t => rdBytes t.hostMem (a 1) 64 = rdBytes s.hostMem (a 0) 64 ∧
      rdNum t.hostMem (a 1 + 0xC0) 4 = s.boot.fails % 2 ^ 32 ∧ rdNum t.hostMem (a 1 + 0xC4) 4 = s.slots.length % 2 ^ 32 ∧
      (∀ i x, s.slots[i]? = some x → rdNum t.hostMem (a 1 + 200 + 72 * i) 8 = x.1 % 2 ^ 64 ∧
        rdBytes t.hostMem (a 1 + 208 + 72 * i) 64 = shake256 (rdBytes s.mem x.2.root 4096)) ∧
      t.arg 2 = (200 + 72 * s.slots.length + 384 + 29792) % 2 ^ 64 ∧ t.mem = s.mem) ∧
    (bitsN (a 0) 15 10 = 0 → bitsN (a 0) 63 21 = 0 → s.restZero 3 = true →
      let core := bitsN (a 0) 9 0
      let named (w : Wave) : Bool := w.stamp == a 1 && w.wix == bitsN (a 0) 20 16
      (∀ x ∈ (s.core core).slots, named x.2 = false) →
      ((∀ w ∈ (s.core core).pre, named w = false) → ends .mbReadWave 3 fun t => t.hostMem = s.hostMem) ∧
      ∀ w, (s.core core).pre.find? named = some w → w.cbuf.length ≤ 1280 → ends .mbReadWave 0 fun t => t.mem = s.mem ∧
        (∀ i b, w.spilled[i]? = some b → rdBytes t.hostMem (a 2 + 0x8000 + 32 * i) 32 = b) ∧
        (∀ n l, n < 256 → l < 32 → rdNum t.hostMem (a 2 + 4 * (32 * n + l)) 4 = if n < w.d then (w.vreg n l).toNat else 0) ∧
        (∀ n, n < 128 → rdNum t.hostMem (a 2 + 0x10000 + 4 * n) 4 = (w.sreg n).toNat) ∧
        (∀ n, n < 16 → rdNum t.hostMem (a 2 + 0x10200 + 4 * n) 4 = (w.pred n).toNat) ∧
        (∀ l, l < 32 → rdNum t.hostMem (a 2 + 0x10240 + 8 * l) 8 = w.pc l) ∧
        ∀ n l, n < 4 → l < 32 → rdNum t.hostMem (a 2 + 0x10340 + 4 * (32 * n + l)) 4 = (w.latch n l).toNat) ∧
    (s.restZero 2 = true → (ends (.mbFirmwareUpdate true) 0 fun t => t.update = true ∧ t.boot = s.boot) ∧
      ends (.mbFirmwareUpdate false) 3 fun t => t.update = s.update ∧ t.boot = s.boot) ∧
    (a 0 < 4096 → s.restZero 1 = true → (s.slots = [] → ends .mbSetDevice 0 fun t => t.devNo = a 0) ∧
      (s.slots ≠ [] → ends .mbSetDevice 3 fun t => t.devNo = s.devNo)) ∧
    ∀ c : Word, 256 ≤ c.toNat ∨ c = 0 ∨ 0x0B < c.toNat → ends (.mbBadCommand c) 1 fun t => { t with mb := s.mb } = s) ∧
  (∀ (s : State) (n : Nat), s.boot.mode ≠ 0 → s.mb.cmd = some n → s.endingSlot = none → ∀ i ∈ ([.mbCreateSlot, .mbEndSlot, .mbAssignFrames, .mbRouteEntry,
      .mbCheckpoint, .mbRestore, .mbAttest, .mbReadWave, .mbFirmwareUpdate true, .mbSetDevice, .mbBadCommand 0] : List Instr),
    exec i s = .next { s with mb := { s.mb with stat := 2 } }) ∧
  (∀ (s : State), s.boot.mode = 3 → s.mb.cmd = none → s.endingSlot = none → (∀ i ∈ ([.mbCreateSlot, .mbEndSlot, .mbAssignFrames, .mbRouteEntry, .mbCheckpoint,
      .mbRestore, .mbAttest, .mbReadWave, .mbSetDevice] : List Instr), Answers s i fun t => Completed t 3 ∧ { t with mb := s.mb } = s) ∧
    (∀ c : Word, 256 ≤ c.toNat ∨ c = 0 ∨ 0x0B < c.toNat → Answers s (.mbBadCommand c) fun t => Completed t 1 ∧ { t with mb := s.mb } = s) ∧
    (s.restZero 2 = true → Answers s (.mbFirmwareUpdate true) fun t => Completed t 0 ∧ t.update = true ∧ t.boot.mode = 0)) ∧
  (∀ (s : State) (base key : Nat), s.ckpt = some (base, key) →
    (s.linksDown = true → Answers s .checkpointDone fun t => t.ckpt = none ∧ Completed t 3 ∧ t.lehr = s.lehr ∧ t.mem = s.mem) ∧
    (s.linksDown = false → s.quiet = true → Answers s .checkpointDone fun t => t.ckpt = none ∧ Completed t 0 ∧
      t.lehr = some ⟨base, key, s.mem, s.tags⟩ ∧ t.mem = s.mem ∧ ∃ h, Reported { s with hostMem := h } t 6 0 0 [] ∧
        (∀ i, 16 * i < dramTop → rdNum h (base + 16 * i) 16 = (lehrEnc key (16 * i) (BitVec.ofNat 128 (rdNum s.mem (16 * i) 16))).toNat) ∧
        (∀ f, 65536 * f < dramTop → rdNum h (base + dramTop + 4 * f) 4 = (mget 0 s.tags f).toNat) ∧
        ∀ y, y < base ∨ base + dramTop + dramTop / 65536 * 4 ≤ y → rdByte h y = rdByte s.hostMem y)) ∧
  ∀ (s : State), s.boot.mode = 0 →
    (∀ down, Answers s (.deviceStart (.ok down)) fun t => t.boot = { s.boot with mode := 1, fails := 0, stage := 6 } ∧
      (∀ k, k < 18 → (portAt t k).st = if k ∈ down then .down else .up) ∧ t.slots = [] ∧ t.launches = [] ∧ (∀ i, t.core i = Core.init) ∧
      t.mem = s.mem) ∧
    ∀ stage cause die, 1 ≤ stage → stage ≤ 5 → 1 ≤ cause → cause ≤ 6 → Answers s (.deviceStart (.failed stage cause die)) fun t =>
      t.boot = ⟨if s.boot.fails + 1 < 3 then 0 else if cause = 1 then 3 else 2, Min.min (s.boot.fails + 1) 3, stage, cause, die % 4⟩ ∧
      (2 ≤ s.boot.fails → cause ≠ 1 → ∀ i, i < 1024 → (t.core i).disabled = decide (coreDie i ≠ 0)) ∧ t.slots = [] ∧ t.mem = s.mem

/-! ## Encoding, step, reset, memory -/

/-- R157 to R174: a unit of either kind decodes the bytes of every well-formed instruction to that instruction, with its length. -/
def Obligations.DecodeEncode : Prop :=
  ∀ (u : UnitK) (i : Instr), i.wf u = true → decode u (encodeBytes i) = .ok (i, lenBytes i.fields.len)

/-- R4, R158, R159, R161, R174: words written out from the encodings of the manual decode to the instructions that they stand for, or are
refused with their cause. -/
def Obligations.DecodedWords : Prop :=
  decode .core (toBytes 8 ((2 : Nat) ^ 4)) = .ok (.nop 0 false, 8) ∧
  decode .core (toBytes 8 (0x020 * 2 ^ 4 + 5 * 2 ^ 22 + 7 * 2 ^ 30 + 9 * 2 ^ 39)) =
    .ok (.add ⟨⟨15, false⟩, false⟩ false (.vec false ⟨some 5, none⟩ (.reg 7) (.vec (.reg 9))), 8) ∧
  decode .core (toBytes 8 (0x021 * 2 ^ 4 + 6 * 2 ^ 22 + 8 * 2 ^ 30 + 10 * 2 ^ 39 + 2 ^ 61 + 2 ^ 63)) =
    .ok (.sub ⟨⟨15, false⟩, false⟩ true (.scal 6 8 10), 8) ∧
  decode .core (toBytes 12 (1 + 2 ^ 2 + 0x002 * 2 ^ 4 + 3 * 2 ^ 17 + 2 ^ 21 + 0xFFFFFFF8 * 2 ^ 64)) =
    .ok (.br ⟨⟨2, true⟩, true⟩ 0xFFFFFFF8, 12) ∧
  decode .xp (toBytes 8 (0x17C * 2 ^ 4)) = .ok (.xhalt, 8) ∧
  decode .core (toBytes 8 (0x17C * 2 ^ 4)) = .error 0x05 ∧
  decode .core (toBytes 8 3) = .error 0x01 ∧
  decode .core (toBytes 8 (0x1D0 * 2 ^ 4)) = .error 0x03

/-- R36, R39, R44, R174, R317, R334: at a turn of a granted wave, or of a running transfer processor, the step executes the
instruction that stands at the program counter; a word that does not decode raises an illegal-instruction fault. Turns and their
length are the model's (log 4, 5); that the code has not changed since it was first read is a premise (log 9). -/
def Obligations.StepRunsDecoded : Prop :=
  (∀ (s : State) (core dt : Nat) (g : Grant) (w : Wave) (r : Stream) (leaf : Leaf) (ts : List Turn),
    AtFetch s core g w r leaf → s.tape = ⟨dt, .wave core (g.slot / 8)⟩ :: ts →
    let pc := w.pc (lowLane r.lanes)
    let word := blockWord (rdBytes s.mem (addrBlock (leaf.pa pc)) 32) (pc % 32)
    -- a turn that comes before an earlier one of its cycle takes the next (R328, log 71)
    let n := if dt = 0 ∧ core * 64 + 2 + g.slot < s.rank then 1 else dt
    -- a wave has run once it has executed an instruction (R66)
    let ran : Wave := { w with ran := true }
    (∀ e, decodeWord (w.decCtx r pc) word = .ok e →
      ∃ u, Fetched (s.modWave core g.slot fun _ => ran) u core g ran r word n ts ∧ step s = exec e.instr u) ∧
    (∀ c, decodeWord (w.decCtx r pc) word = .error c → NamedRecs s → Unsplit w →
      ∃ u t, Fetched s u core g w r word n ts ∧ step s = .next t ∧ Trapped u t core g.slot w (word.getLsbD 2) r.lanes 1 c 0 0)) ∧
  ∀ (s : State) (core x dt : Nat) (ts : List Turn), x < 2 → s.tape = ⟨dt, .xp core x⟩ :: ts → (s.core core).disabled = false →
    (s.core core).gated = false → (s.xp core x).st = .running →
    let p := s.xp core x
    let word := blockWord (rdBytes p.store (addrBlock p.pc) 32) (p.pc % 32)
    (∀ e, decodeWord ⟨.xp, p.pc, false, 256, 15, false⟩ word = .ok e → step s = exec e.instr
      { (({ s with tape := ts } : State).pass ⟨dt, .xp core x⟩) with
        focus := ⟨.xp core x, 1, false, false, p.pc, wordLen word, ownWord word, none, [], [], [], 0, false, [], none⟩ }) ∧
    (∀ c, decodeWord ⟨.xp, p.pc, false, 256, 15, false⟩ word = .error c → c < 2 ^ 14 → ∃ t, step s = .next t ∧
      (t.xp core x).st = .stopped ∧ (t.xp core x).pc = p.pc ∧ (t.xp core x).kind = 1 ∧ (t.xp core x).cause = c ∧ (t.xp core x).d = p.d)

/-- R44, R51, R58, R304, R328, R406, R408, R410, R413, R414, R417: what reset leaves; and every memory is in canonical form. What the
manual gives no reset value for, memory among it, is the model's choice (log 1, 2). -/
def Obligations.ResetState : Prop :=
  let s := State.reset
  Canonical s ∧ s.boot.mode = 0 ∧ s.boot.stage = 0 ∧ s.slots = [] ∧ s.launches = [] ∧ s.recs = [] ∧ s.dist.ptr = 1023 ∧
  (∀ i, (s.core i).slots = [] ∧ (s.core i).free = 4096 ∧ (s.core i).deque = [] ∧
    (∀ k, k < 4 → listGet none (s.core i).grants k = none ∧ listGet 0 (s.core i).last k = 7) ∧
    (∀ b, b < 16 → (s.core i).cbar b = ⟨0, []⟩) ∧ (s.core i).smiss = 0 ∧ (s.core i).cdl = 0 ∧
    ∀ x, x < 2 → (s.xp i x).st = .halted ∧ (s.xp i x).err = false ∧ (s.xp i x).heads = []) ∧
  (∀ c, c < 32 → s.chan c = ⟨[], false, false, 0, 0, false, 0, none, none⟩) ∧
  (∀ d, d < 32 → d % 4 ≠ 0 → ServedFirst s (d / 4 * 4) d) ∧
  (∀ off ∈ ([0x000, 0x400, 0x408, 0x40C, 0x410, 0x414, 0x418, 0x800, 0x808, 0x810, 0x818, 0x820, 0x828, 0x830, 0x838, 0x10008, 0x107C8, 0x1F000,
    0x1F004] : List Nat), s.bar0 off = 0) ∧
  ∀ a n, rdNum s.mem a n = 0

/-- Whatever step the machine takes, from any state, its memories keep their canonical form. The form is the model's own: rising
addresses, no byte listed that reads 0 (log 1). -/
def Obligations.MemoryStaysCanonical : Prop :=
  ∀ s t : State, Canonical s → step s = .next t → Canonical t
end

