-- ==== Sys2Proof/Laws/Map.lean ====
section
/-! SUPPORT. The small laws of the sparse tables and of byte memory: what a write changes, what it leaves, and that every operation keeps
the canonical form. -/

namespace Sys2Proof.Machine
open Sys2Proof

/-! ## Tables without a default -/

theorem aget_aput_same {α : Type} (m : Map α) (k : Nat) (v : α) : aget (aput m k v) k = some v := by
  induction m with
  | nil => simp [aput, aget]
  | cons x m ih =>
    obtain ⟨a, w⟩ := x
    by_cases h : k < a
    · simp [aput, aget, h]
    · by_cases e : k = a
      · simp [aput, aget, e]
      · simp [aput, aget, h, e, ih]

theorem aget_aput_ne {α : Type} (m : Map α) (k j : Nat) (v : α) (h : j ≠ k) : aget (aput m k v) j = aget m j := by
  induction m with
  | nil => simp [aput, aget, h]
  | cons x m ih =>
    obtain ⟨a, w⟩ := x
    by_cases l : k < a
    · simp [aput, aget, *]
    · by_cases e : k = a
      · subst e
        simp [aput, aget, *]
      · simp [aput, aget, *]

@[simp] theorem aget_aput {α : Type} (m : Map α) (k j : Nat) (v : α) :
    aget (aput m k v) j = if j = k then some v else aget m j := by
  by_cases h : j = k
  · subst h; simp [aget_aput_same]
  · simp [h, aget_aput_ne]

@[simp] theorem aget_adel {α : Type} (m : Map α) (k j : Nat) : aget (adel m k) j = if j = k then none else aget m j := by
  induction m with
  | nil => simp [adel, aget]
  | cons x m ih =>
    obtain ⟨a, w⟩ := x
    unfold adel at ih ⊢
    by_cases e : a = k
    · subst e
      by_cases f : j = a <;> simp_all [aget]
    · by_cases f : j = a
      · subst f
        simp_all [aget]
      · simp_all [aget]

/-! ## Tables with a default -/

theorem mget_filter {α : Type} (d : α) (m : Map α) (k j : Nat) :
    mget d (m.filter fun x => x.1 != k) j = if j = k then d else mget d m j := by
  induction m with
  | nil => simp [mget]
  | cons x m ih =>
    obtain ⟨a, w⟩ := x
    by_cases e : a = k
    · subst e
      by_cases f : j = a <;> simp_all [mget]
    · by_cases f : j = a
      · subst f
        simp_all [mget]
      · simp_all [mget]

theorem mget_minsert {α : Type} (d : α) (m : Map α) (k j : Nat) (v : α) (h : mget d m k = d) (hk : ∀ x ∈ m, x.1 ≠ k) :
    mget d (minsert k v m) j = if j = k then v else mget d m j := by
  induction m with
  | nil => simp [mget, minsert]
  | cons x m ih =>
    obtain ⟨a, w⟩ := x
    have ha : a ≠ k := hk (a, w) (by simp)
    have hk' : ¬k = a := fun e => ha e.symm
    simp only [mget, hk', if_false] at h
    have ih := ih h fun x hx => hk x (by simp [hx])
    by_cases l : k < a
    · simp [minsert, mget, l]
    · by_cases f : j = a
      · subst f
        simp [minsert, mget, l, ha]
      · simp [minsert, mget, l, f, ih]

/-- A table reads what was written, whatever the value. -/
@[simp] theorem mget_mset {α : Type} [DecidableEq α] (d : α) (m : Map α) (k j : Nat) (v : α) :
    mget d (mset d m k v) j = if j = k then v else mget d m j := by
  unfold mset
  dsimp only
  split
  · subst_vars
    exact mget_filter _ m k j
  · rw [mget_minsert, mget_filter]
    · split <;> rfl
    · rw [mget_filter]
      simp
    · intro x hx
      simpa using (List.mem_filter.mp hx).2

theorem mwf_weaken {α : Type} [DecidableEq α] (d : α) (m : Map α) (lo lo' : Nat) (h : mwf d lo m = true) (hl : lo' ≤ lo) :
    mwf d lo' m = true := by
  cases m with
  | nil => rfl
  | cons x m =>
    obtain ⟨a, v⟩ := x
    simp only [mwf, Bool.and_eq_true, decide_eq_true_eq] at h ⊢
    exact ⟨⟨by omega, h.1.2⟩, h.2⟩

theorem mwf_filter {α : Type} [DecidableEq α] (d : α) (p : Nat × α → Bool) (m : Map α) (lo : Nat) (h : mwf d lo m = true) :
    mwf d lo (m.filter p) = true := by
  induction m generalizing lo with
  | nil => rfl
  | cons x m ih =>
    obtain ⟨a, v⟩ := x
    simp only [mwf, Bool.and_eq_true, decide_eq_true_eq] at h
    have ih := ih (a + 1) h.2
    simp only [List.filter_cons]
    split
    · simp only [mwf, Bool.and_eq_true, decide_eq_true_eq]
      exact ⟨h.1, ih⟩
    · exact mwf_weaken d _ _ _ ih (by omega)

theorem mwf_minsert {α : Type} [DecidableEq α] (d : α) (m : Map α) (lo k : Nat) (v : α) (h : mwf d lo m = true) (hl : lo ≤ k)
    (hv : v ≠ d) (hk : ∀ x ∈ m, x.1 ≠ k) : mwf d lo (minsert k v m) = true := by
  induction m generalizing lo with
  | nil => simp [minsert, mwf, *]
  | cons x m ih =>
    obtain ⟨a, w⟩ := x
    have ha : a ≠ k := hk (a, w) (by simp)
    simp only [mwf, Bool.and_eq_true, decide_eq_true_eq, Bool.not_eq_true', decide_eq_false_iff_not] at h
    unfold minsert
    split
    · simp only [mwf, Bool.and_eq_true, decide_eq_true_eq, Bool.not_eq_true', decide_eq_false_iff_not]
      exact ⟨⟨hl, hv⟩, ⟨by omega, h.1.2⟩, h.2⟩
    · simp only [mwf, Bool.and_eq_true, decide_eq_true_eq, Bool.not_eq_true', decide_eq_false_iff_not]
      exact ⟨h.1, ih (a + 1) h.2 (by omega) fun x hx => hk x (by simp [hx])⟩

theorem mwf_mset {α : Type} [DecidableEq α] (d : α) (m : Map α) (k : Nat) (v : α) (h : mwf d 0 m = true) :
    mwf d 0 (mset d m k v) = true := by
  unfold mset
  dsimp only
  split
  · exact mwf_filter d _ m 0 h
  · rename_i hv
    refine mwf_minsert d _ 0 k v (mwf_filter d _ m 0 h) (Nat.zero_le _) hv ?_
    intro x hx
    simpa using (List.mem_filter.mp hx).2

/-! ## Rows -/

/-- A row reads what was written; every other place as before. -/
theorem listGet_listPut {α : Type} (d : α) (n : Nat) (l : List α) (i j : Nat) (x : α) (h : j < n) :
    listGet d (listPut d n l i x) j = if j = i then x else listGet d l j := by
  simp [listGet, listPut, h]

/-! ## Byte memory (R4) -/

theorem wf_wrByte (m : List Host.Cell) (a : Nat) (b : Byte) (h : Memory.wf m = true) : Memory.wf (wrByte m a b) = true :=
  mwf_mset 0 m a b h

theorem wf_wrBytes (m : List Host.Cell) (a : Nat) (bs : List Byte) (h : Memory.wf m = true) :
    Memory.wf (wrBytes m a bs) = true := by
  induction bs generalizing m a with
  | nil => exact h
  | cons b bs ih => exact ih _ _ (wf_wrByte m a b h)

theorem wf_wrNum (m : List Host.Cell) (a n x : Nat) (h : Memory.wf m = true) : Memory.wf (wrNum m a n x) = true :=
  wf_wrBytes m a _ h

theorem wf_wrMasked (m : List Host.Cell) (a : Nat) (mask : BitVec 32) (bs : Map Byte) (h : Memory.wf m = true) :
    Memory.wf (wrMasked m a mask bs) = true := by
  unfold wrMasked
  generalize List.range 32 = l
  induction l generalizing m with
  | nil => exact h
  | cons i l ih =>
    simp only [List.foldl_cons]
    apply ih
    split
    · exact wf_wrByte _ _ _ h
    · exact h

theorem rdByte_wrByte (m : List Host.Cell) (a b : Nat) (x : Byte) :
    rdByte (wrByte m a x) b = if b = a then x else rdByte m b := mget_mset 0 m a b x

/-- A byte read after a write of several: the byte written, or what was there. -/
theorem rdByte_wrBytes (m : List Host.Cell) (a : Nat) (bs : List Byte) (b : Nat) :
    rdByte (wrBytes m a bs) b = if a ≤ b ∧ b < a + bs.length then listGet 0 bs (b - a) else rdByte m b := by
  induction bs generalizing m a with
  | nil =>
    simp only [wrBytes, List.length_nil, Nat.add_zero]
    rw [if_neg (by omega)]
  | cons x bs ih =>
    simp only [wrBytes, ih, rdByte_wrByte, List.length_cons]
    by_cases e : b = a
    · subst e
      simp [listGet]
    · by_cases f : a + 1 ≤ b ∧ b < a + 1 + bs.length
      · have g : a ≤ b ∧ b < a + (bs.length + 1) := by omega
        have k : b - a = (b - (a + 1)) + 1 := by omega
        simp [f, g, listGet, k]
      · have g : ¬(a ≤ b ∧ b < a + (bs.length + 1)) := by omega
        rw [if_neg f, if_neg g, if_neg e]

theorem reset_mem_wf : Memory.wf State.reset.mem = true := rfl

end Sys2Proof.Machine
end

