-- ==== Sys2Proof/Laws/Parts.lean ====
section
/-! SUPPORT. Reading a part of the state after a part has been changed: cores, waves, transfer processors, slots, registers. -/

namespace Sys2Proof.Machine
open Sys2Proof

/-! ## Cores and waves -/

@[simp] theorem core_setCore (s : State) (i j : Nat) (c : Core) : (s.setCore i c).core j = if j = i then c else s.core j := by
  by_cases h : j = i <;> simp [State.core, State.setCore, h]

@[simp] theorem core_modCore (s : State) (i j : Nat) (f : Core → Core) :
    (s.modCore i f).core j = if j = i then f (s.core i) else s.core j := by simp [State.modCore]

theorem core_setWave (s : State) (i k j : Nat) (w : Wave) :
    (s.setWave i k w).core j = if j = i then { s.core i with slots := aput (s.core i).slots k w } else s.core j := by
  simp [State.setWave]

@[simp] theorem wave_setWave (s : State) (i k j l : Nat) (w : Wave) :
    (s.setWave i k w).wave? j l = if j = i ∧ l = k then some w else s.wave? j l := by
  by_cases h : j = i
  · subst h
    by_cases e : l = k <;> simp [State.wave?, core_setWave, e]
  · simp [State.wave?, core_setWave, h]

theorem modWave_some (s : State) (i k : Nat) (w : Wave) (f : Wave → Wave) (h : s.wave? i k = some w) :
    s.modWave i k f = s.setWave i k (f w) := by simp [State.modWave, h]

/-- A change of a core that keeps its slots keeps its waves. -/
theorem wave_modCore (s : State) (i j l : Nat) (f : Core → Core) (h : (f (s.core i)).slots = (s.core i).slots) :
    (s.modCore i f).wave? j l = s.wave? j l := by
  by_cases e : j = i
  · subst e; simp [State.wave?, h]
  · simp [State.wave?, e]

/-! ## The unit in execution -/

theorem w_of_unit (s : State) (i k : Nat) (w : Wave) (h : s.focus.unit = .wave i k) (e : s.wave? i k = some w) : s.w = w := by
  simp [State.w, h, e]

theorem modW_of_unit (s : State) (i k : Nat) (w : Wave) (f : Wave → Wave) (h : s.focus.unit = .wave i k)
    (e : s.wave? i k = some w) : s.modW f = s.setWave i k (f w) := by simp [State.modW, h, modWave_some _ _ _ _ _ e]

theorem x_of_unit (s : State) (i x : Nat) (h : s.focus.unit = .xp i x) : s.x = s.xp i x := by simp [State.x, h]

theorem modX_of_unit (s : State) (i x : Nat) (f : XP → XP) (h : s.focus.unit = .xp i x) : s.modX f = s.modXp i x f := by
  simp [State.modX, h]

@[simp] theorem xp_modXp_same (s : State) (i x : Nat) (f : XP → XP) : (s.modXp i x f).xp i x = f (s.xp i x) := by
  by_cases h : x = 0 <;> simp [State.modXp, State.xp, Core.setXp, Core.xp, h]

@[simp] theorem focus_setCore (s : State) (i : Nat) (c : Core) : (s.setCore i c).focus = s.focus := rfl
@[simp] theorem focus_modCore (s : State) (i : Nat) (f : Core → Core) : (s.modCore i f).focus = s.focus := rfl
@[simp] theorem focus_setWave (s : State) (i k : Nat) (w : Wave) : (s.setWave i k w).focus = s.focus := rfl
@[simp] theorem focus_modXp (s : State) (i x : Nat) (f : XP → XP) : (s.modXp i x f).focus = s.focus := rfl
@[simp] theorem focus_modF (s : State) (f : Focus → Focus) : (s.modF f).focus = f s.focus := rfl

@[simp] theorem mem_setCore (s : State) (i : Nat) (c : Core) : (s.setCore i c).mem = s.mem := rfl
@[simp] theorem mem_modCore (s : State) (i : Nat) (f : Core → Core) : (s.modCore i f).mem = s.mem := rfl
@[simp] theorem mem_setWave (s : State) (i k : Nat) (w : Wave) : (s.setWave i k w).mem = s.mem := rfl
@[simp] theorem mem_modXp (s : State) (i x : Nat) (f : XP → XP) : (s.modXp i x f).mem = s.mem := rfl
@[simp] theorem slots_setCore (s : State) (i : Nat) (c : Core) : (s.setCore i c).slots = s.slots := rfl
@[simp] theorem slots_modCore (s : State) (i : Nat) (f : Core → Core) : (s.modCore i f).slots = s.slots := rfl
@[simp] theorem slots_setWave (s : State) (i k : Nat) (w : Wave) : (s.setWave i k w).slots = s.slots := rfl

theorem focus_modWave (s : State) (i k : Nat) (f : Wave → Wave) : (s.modWave i k f).focus = s.focus := by
  unfold State.modWave; split <;> rfl

theorem focus_modW (s : State) (f : Wave → Wave) : (s.modW f).focus = s.focus := by
  unfold State.modW; split
  · exact focus_modWave _ _ _ _
  · rfl

theorem focus_modX (s : State) (f : XP → XP) : (s.modX f).focus = s.focus := by
  unfold State.modX; split <;> rfl

/-! ## The clock (R3) -/

@[simp] theorem tick_cyc (s : State) (dt : Nat) : (s.tick dt).cyc = s.cyc + dt := rfl
@[simp] theorem tick_mem (s : State) (dt : Nat) : (s.tick dt).mem = s.mem := rfl
@[simp] theorem tick_cores (s : State) (dt : Nat) : (s.tick dt).cores = s.cores := rfl
@[simp] theorem tick_slots (s : State) (dt : Nat) : (s.tick dt).slots = s.slots := rfl
@[simp] theorem tick_focus (s : State) (dt : Nat) : (s.tick dt).focus = s.focus := rfl

/-! ## Registers of a wave (R7): which field a write reaches -/

@[simp] theorem setV_s (w : Wave) (n l : Nat) (x : Word) : (w.setV n l x).s = w.s := rfl
@[simp] theorem setV_p (w : Wave) (n l : Nat) (x : Word) : (w.setV n l x).p = w.p := rfl
@[simp] theorem setV_t (w : Wave) (n l : Nat) (x : Word) : (w.setV n l x).t = w.t := rfl
@[simp] theorem setV_pcs (w : Wave) (n l : Nat) (x : Word) : (w.setV n l x).pcs = w.pcs := rfl
@[simp] theorem setS_v (w : Wave) (n : Nat) (x : Word) : (w.setS n x).v = w.v := rfl
@[simp] theorem setS_p (w : Wave) (n : Nat) (x : Word) : (w.setS n x).p = w.p := rfl
@[simp] theorem setS_t (w : Wave) (n : Nat) (x : Word) : (w.setS n x).t = w.t := rfl
@[simp] theorem setS_pcs (w : Wave) (n : Nat) (x : Word) : (w.setS n x).pcs = w.pcs := rfl
@[simp] theorem setT_v (w : Wave) (n l : Nat) (x : Word) : (w.setT n l x).v = w.v := rfl
@[simp] theorem setT_s (w : Wave) (n l : Nat) (x : Word) : (w.setT n l x).s = w.s := rfl
@[simp] theorem setT_p (w : Wave) (n l : Nat) (x : Word) : (w.setT n l x).p = w.p := rfl
@[simp] theorem setT_pcs (w : Wave) (n l : Nat) (x : Word) : (w.setT n l x).pcs = w.pcs := rfl

theorem setP_15 (w : Wave) (l : Nat) (b : Bool) : w.setP 15 l b = w := rfl
theorem pred_15 (w : Wave) : w.pred 15 = fullMask := rfl

theorem setP_v (w : Wave) (n l : Nat) (b : Bool) : (w.setP n l b).v = w.v := by unfold Wave.setP; split <;> rfl
theorem setP_s (w : Wave) (n l : Nat) (b : Bool) : (w.setP n l b).s = w.s := by unfold Wave.setP; split <;> rfl
theorem setP_t (w : Wave) (n l : Nat) (b : Bool) : (w.setP n l b).t = w.t := by unfold Wave.setP; split <;> rfl

end Sys2Proof.Machine
end

