-- ==== Sys2Proof/Laws/Run.lean ====
section
/-! SUPPORT. What the end of an instruction leaves: of a wave everything but its program counters, runs and grants; of a transfer
processor everything but its offset, loops and run state. -/

namespace Sys2Proof.Machine
open Sys2Proof Sys2Proof.Claim

/-! ## The wave itself -/

theorem sameWave_refl (w : Wave) : SameWave w w := ⟨rfl, fun _ _ _ => .inl rfl, fun _ => .inl rfl⟩

theorem sameWave_trans {a b c : Wave} (h : SameWave a b) (k : SameWave b c) : SameWave a c := by
  refine ⟨?_, ?_, ?_⟩
  · have e := h.same
    have f := k.same
    cases a; cases b; cases c
    simp_all
  · intro n l hl
    rcases k.latches n l hl with e | e
    · rw [e]; exact h.latches n l hl
    · exact .inr e
  · intro i
    rcases k.stage i with e | e
    · rw [e]; exact h.stage i
    · exact .inr e

theorem sameWave_ended {a b : Wave} (h : SameWave a b) : b.ended = a.ended := by
  rw [← h.same]

theorem mget_mdrop {α : Type} (d : α) (p : Nat → Bool) (m : Map α) (k : Nat) : mget d (mdrop p m) k = if p k then d else mget d m k := by
  induction m with
  | nil => simp [mdrop, mget]
  | cons x m ih =>
    obtain ⟨a, v⟩ := x
    have ih' : mget d (m.filter fun x => !p x.1) k = if p k then d else mget d m k := ih
    by_cases hp : p a = true
    · by_cases e : k = a
      · subst e; simp [mdrop, hp, ih']
      · simp [mdrop, hp, ih', mget, e]
    · by_cases e : k = a
      · subst e; simp [mdrop, hp, mget]
      · simp [mdrop, hp, ih', mget, e]

/-- The end of a run: the latches and staging rows of its lanes read 0 (R7, R285). -/
theorem latch_endRun (w : Wave) (m : Mask) (n l : Nat) (hl : l < 32) : (w.endRun m).latch n l = if hasLane m l then 0 else w.latch n l := by
  have e : (32 * n + l) % 32 = l := by omega
  simp only [Wave.latch, Wave.endRun, mget_mdrop, e]

theorem stage_endRun (w : Wave) (m : Mask) (l x : Nat) (hx : x < 128) :
    mget 0 (w.endRun m).stage (128 * l + x) = if hasLane m l then 0 else mget 0 w.stage (128 * l + x) := by
  have e : (128 * l + x) / 128 = l := by omega
  simp only [Wave.endRun, mget_mdrop, e]

theorem endRun_same (w : Wave) (m : Mask) : SameWave w (w.endRun m) := by
  refine ⟨rfl, ?_, ?_⟩
  · intro n l hl
    rw [latch_endRun _ _ _ _ hl]
    split <;> simp
  · intro k
    simp only [Wave.endRun, mget_mdrop]
    split <;> simp

/-- What changes program counters, runs and the broadcast address alone. -/
theorem runs_same (w : Wave) (pcs : List Va) (b : Va) (streams : List Stream) :
    SameWave w { w with pcs := pcs, bcast := b, streams := streams } := ⟨rfl, fun _ _ _ => .inl rfl, fun _ => .inl rfl⟩

theorem mergeOne_same (w : Wave) : SameWave w w.mergeOne := by
  unfold Wave.mergeOne
  dsimp only
  split
  · exact sameWave_refl w
  · exact sameWave_trans (endRun_same w _) (runs_same _ _ _ _)

theorem iterate_same (f : Wave → Wave) (h : ∀ w, SameWave w (f w)) (n : Nat) (w : Wave) : SameWave w (iterate f n w) := by
  induction n generalizing w with
  | zero => exact sameWave_refl w
  | succ n ih => exact sameWave_trans (h w) (ih (f w))

theorem retarget_same (w : Wave) (f : Focus) (on : Mask) : SameWave w (w.retarget f on) := by
  unfold Wave.retarget
  split
  · exact sameWave_refl w
  · exact runs_same _ _ _ _

theorem advance_same (w : Wave) (f : Focus) (rbf : Bool) (marks : BitVec 4) (held : List (Mask × Nat)) (p : Mask) (new : Nat) :
    SameWave w (w.advance f rbf marks held p new) := by
  unfold Wave.advance
  extract_lets h on old old' before g rest src w1 w2
  have h1 : SameWave w w1 := sameWave_trans (endRun_same w _) (runs_same _ _ _ _)
  have h2 : SameWave w1 w2 := iterate_same _ mergeOne_same _ w1
  exact sameWave_trans (sameWave_trans h1 h2) (retarget_same _ _ _)

/-! ## A wave without suspended runs -/

theorem mergeOne_unsplit (w : Wave) (h : Unsplit w) : w.mergeOne = w := by
  unfold Wave.mergeOne
  dsimp only
  have e : ∀ (p : Stream → Bool), (∀ t ∈ w.streams, p t = false) → w.streams.find? p = none := by
    intro p hp
    rw [List.find?_eq_none]
    intro t ht
    simp [hp t ht]
  rw [e]
  intro t ht
  split
  · next l r hs => exact absurd hs ((h t ht).2 l r)
  · rfl

theorem mergeRuns_unsplit (w : Wave) (h : Unsplit w) : w.mergeRuns = w := by
  have e : ∀ n, iterate Wave.mergeOne n w = w := by
    intro n
    induction n with
    | zero => rfl
    | succ n ih =>
      show iterate Wave.mergeOne n w.mergeOne = w
      rw [mergeOne_unsplit w h, ih]
  exact e _

theorem retarget_keeps (w : Wave) (f : Focus) (on : Mask) :
    (w.retarget f on).pcs = w.pcs ∧ (w.retarget f on).t = w.t ∧ (w.retarget f on).stage = w.stage := by
  unfold Wave.retarget
  split <;> exact ⟨rfl, rfl, rfl⟩

theorem and_not_of_disjoint (a b : Mask) (h : a &&& b = 0) : a &&& ~~~(0 : Mask) &&& ~~~(0 : Mask) &&& ~~~b = a := by
  have e : a &&& ~~~b = a := by
    ext i hi
    have k := congrArg (fun m => m.getLsbD i) h
    simp only [BitVec.getLsbD_and] at k
    rw [BitVec.getLsbD_eq_getElem hi, BitVec.getLsbD_eq_getElem hi] at k
    simp only [BitVec.getElem_and, BitVec.getElem_not]
    cases hx : a[i]
    · simp
    · rw [hx, Bool.true_and] at k
      simp [k]
  have z : a &&& ~~~(0 : Mask) &&& ~~~(0 : Mask) = a := by
    have : (~~~(0 : Mask)) = BitVec.allOnes 32 := rfl
    rw [this, BitVec.and_allOnes, BitVec.and_allOnes]
  rw [z, e]

/-- **What an instruction leaves of a wave without suspended runs** none of whose lanes it ends, parks or holds. -/
theorem advance_unsplit (w : Wave) (f : Focus) (rbf : Bool) (marks : BitVec 4) (hu : Unsplit w) (he : f.lanes &&& w.ended = 0)
    (hp : f.parks = []) :
    ∃ (streams : List Stream) (on : Mask), w.advance f rbf marks [] 0 0 =
      ({ w.endRun (if rbf then f.lanes else 0) with
        pcs := (List.range 32).map fun l => if hasLane f.lanes l then BitVec.ofNat 57 (f.target l) else listGet 0 w.pcs l
        streams := streams } : Wave).retarget f on := by
  have hold : ∀ p : Stream → Bool, ((w.streams.find? p).getD ⟨f.lanes, 0, 0, f.lead, .run, 0, false, 0, [], none⟩).grp = 0 := by
    intro p
    cases e : w.streams.find? p with
    | none => rfl
    | some t => exact (hu t (List.mem_of_find?_eq_some e)).1
  unfold Wave.advance
  extract_lets h on old old' before g rest src w1 w2
  have hon : on = f.lanes := and_not_of_disjoint _ _ he
  have hg0 : old'.grp = 0 := hold _
  have hg : g = 0 := by simp [g, Stream.group, hg0, hp]
  have hb : ((if rbf && g == 0 then on else 0) ||| (f.lanes &&& w.ended)) = if rbf then f.lanes else 0 := by
    rw [he, hg, hon]; simp
  have hw1 : Unsplit w1 := by
    intro t ht
    rcases List.mem_append.mp ht with ht | ht
    · simp only [Stream.split, hp, hg, List.map_nil, List.append_nil, List.filterMap_nil] at ht
      split at ht
      · cases ht
      · simp only [bne_self_eq_false, Bool.false_eq_true, if_false] at ht
        split at ht
        · cases ht
        · rcases List.mem_singleton.mp ht with rfl
          exact ⟨rfl, fun _ _ h => by cases h⟩
    · obtain ⟨u, hu', rfl⟩ := List.mem_map.mp ht
      have k := hu u (List.mem_filter.mp hu').1
      unfold Stream.mark
      split <;> exact k
  have hw2 : w2 = w1 := mergeRuns_unsplit w1 hw1
  refine ⟨w1.streams, (on ||| before) &&& ~~~w2.joining, ?_⟩
  rw [hw2]
  congr 1
  have hs : src = w.endRun (if rbf then f.lanes else 0) := congrArg w.endRun hb
  show w1 = _
  simp only [w1, hg, hon, beq_self_eq_true, Bool.and_true, hs]
  rfl

theorem listGet_lanes (d : Va) (f : Nat → Va) (l : Nat) (hl : l < 32) : listGet d ((List.range 32).map f) l = f l := by
  simp [listGet, hl]

theorem advance_wentOn (w : Wave) (f : Focus) (rbf : Bool) (marks : BitVec 4)
    (he : f.lanes &&& w.ended = 0) (hp : f.parks = []) : WentOn f w (w.advance f rbf marks [] 0 0) rbf f.target := by
  refine ⟨advance_same _ _ _ _ _ _ _, ?_, ?_, ?_⟩
  · intro hu l hl
    obtain ⟨q, on, e⟩ := advance_unsplit w f rbf marks hu he hp
    rw [e, Wave.pc, (retarget_keeps _ _ _).1, listGet_lanes _ _ _ hl]
    split
    · exact BitVec.toNat_ofNat _ _
    · rfl
  · intro hu n l hl
    obtain ⟨q, on, e⟩ := advance_unsplit w f rbf marks hu he hp
    rw [e, Wave.latch, (retarget_keeps _ _ _).2.1]
    refine (latch_endRun w (if rbf then f.lanes else 0) n l hl).trans ?_
    cases rbf <;> simp [hasLane]
  · intro hu l x hl hx
    obtain ⟨q, on, e⟩ := advance_unsplit w f rbf marks hu he hp
    rw [e, (retarget_keeps _ _ _).2.2]
    refine (stage_endRun w (if rbf then f.lanes else 0) l x hx).trans ?_
    cases rbf <;> simp [hasLane]

/-! ## Parts of the state -/

theorem aget_map {α β : Type} (f : Nat → α → β) (m : Map α) (k : Nat) :
    aget (m.map fun x => (x.1, f x.1 x.2)) k = (aget m k).map (f k) := by
  induction m with
  | nil => rfl
  | cons x m ih =>
    obtain ⟨a, v⟩ := x
    by_cases e : k = a
    · simp [aget, e]
    · simp [aget, e, ih]

theorem core_mapWaves (s : State) (f : Nat → Wave → Wave) (i : Nat) :
    (s.mapWaves f).core i = { s.core i with
      slots := (s.core i).slots.map fun k => (k.1, f i k.2)
      pre := (s.core i).pre.map (f i) } := by
  have h := aget_map
    (fun i (c : Core) => { c with slots := c.slots.map (fun (k : Nat × Wave) => (k.1, f i k.2)), pre := c.pre.map (f i) }) s.cores i
  refine Eq.trans (congrArg (fun c => c.getD Core.init) h) ?_
  simp only [State.core]
  cases aget s.cores i <;> rfl

theorem wave_mapWaves (s : State) (f : Nat → Wave → Wave) (i k : Nat) :
    (s.mapWaves f).wave? i k = (s.wave? i k).map (f i) := by
  simp only [State.wave?, core_mapWaves]
  exact aget_map (fun _ w => f i w) _ _

/-! ## The end of an instruction -/

@[simp] theorem takeFaults_nil (s : State) : s.takeFaults [] = (s, []) := rfl

theorem wave_focus (s : State) (f : Focus) (i k : Nat) : ({ s with focus := f } : State).wave? i k = s.wave? i k := rfl

theorem core_focus (s : State) (f : Focus) (i : Nat) : ({ s with focus := f } : State).core i = s.core i := rfl

@[simp] theorem forget_nil (s : State) : s.forget [] = s := rfl

theorem wentOn_yielding {f : Focus} {w u : Wave} {rbf : Bool} {dest : Nat → Nat} (h : WentOn f w u rbf dest) (l : List Nat) :
    WentOn f w { u with yieldTo := l } rbf dest :=
  ⟨sameWave_trans h.same ⟨rfl, fun _ _ _ => .inl rfl, fun _ => .inl rfl⟩, h.pcs, h.latches, h.stage⟩

theorem endGrant_ends (s s1 : State) (core slot : Nat) (w1 : Wave) (did rbf : Bool) (dest : Nat → Nat)
    (h : EndsAt s core slot w1 s1 rbf dest) : EndsAt s core slot w1 (s1.endGrant core slot did) rbf dest := by
  unfold State.endGrant
  dsimp only
  split
  · next g w hg hw =>
    split
    · have plain : EndsAt s core slot w1 (s1.modCore core fun c => { c with grants := listPut none 4 c.grants (slot / 8) none }) rbf
          dest := by
        obtain ⟨hu, ho, hc, hr⟩ := h
        refine ⟨?_, ?_, ?_, hr⟩
        · rw [wave_modCore _ _ _ _ _ (by rfl)]; exact hu
        · intro i k n; rw [wave_modCore _ _ _ _ _ (by rfl)]; exact ho i k n
        · intro i
          rw [← hc i, core_modCore]
          split
          · subst_vars; rfl
          · rfl
      cases did with
      | false => exact plain
      | true =>
      simp only [if_true]
      obtain ⟨⟨u, hu, su⟩, ho, hc, hr⟩ := h
      rw [hw] at hu
      cases hu
      have hm : ∀ (s : State) (i k : Nat),
          ((s.mapWaves fun _ x => { x with yieldTo := x.yieldTo.filter (· != w.uid) }).wave? i k).map calm =
            (s.wave? i k).map calm := by
        intro s i k
        rw [wave_mapWaves]
        cases s.wave? i k <;> rfl
      have hq : ∀ (s : State) (i : Nat),
          quietCore ((s.mapWaves fun _ x => { x with yieldTo := x.yieldTo.filter (· != w.uid) }).core i) =
            quietCore (s.core i) := by
        intro s i
        rw [core_mapWaves]
        simp only [quietCore, List.map_map]
        rfl
      refine ⟨⟨{ w with yieldTo := w.yieldTo.filter (· != w.uid) }, ?_, ?_⟩, ?_, ?_, ?_⟩
      · rw [wave_mapWaves, wave_modCore _ _ _ _ _ (by rfl), hw]
        rfl
      · exact wentOn_yielding su _
      · intro i k hik
        rw [hm]
        exact plain.others i k hik
      · intro i
        rw [hq]
        exact plain.cores i
      · exact plain.rest
    · exact h
  · exact h

/-- **The end of an instruction of a wave** that has met no fault and parks no lane: `EndsAt` its targets, whatever was done before. -/
theorem finishWave_endsAt (s : State) (core slot : Nat) (w : Wave) (rbf : Bool) (marks : BitVec 4)
    (hu : s.focus.unit = .wave core slot) (hw : s.wave? core slot = some w) (hp : s.focus.parks = [])
    (hh : s.focus.holds = []) (hg : s.focus.gone = false) (ha : s.focus.accs = []) (he : w.ended ≠ fullMask)
    (hl : s.focus.lanes &&& w.ended = 0) : EndsAt s core slot w (s.finishWave rbf marks) rbf s.focus.target := by
  unfold State.finishWave
  simp only [hu, hg, hh, hp, ha, takeFaults_nil, List.filter_nil, forget_nil, Bool.false_eq_true, if_false, List.foldl_nil,
    BEq.rfl, if_true]
  rw [modWave_some _ _ _ w _ hw]
  have key : ∀ (s2 : State) (x : Wave), WentOn s.focus w x rbf s.focus.target → s2.wave? core slot = some x →
      (∀ i k, ¬(i = core ∧ k = slot) → s2.wave? i k = s.wave? i k) →
      (∀ i, quietCore (s2.core i) = quietCore (s.core i)) → quietState s2 = quietState s →
      EndsAt s core slot w ((match s2.wave? core slot with
        | some w => if w.ended == fullMask then s2.reap core w.uid else s2
        | none => s2).endGrant core slot true) rbf s.focus.target := by
    intro s2 x hx h2 ho hc hq
    have hn : (x.ended == fullMask) = false := by rw [sameWave_ended hx.same]; simpa using he
    rw [h2]
    simp only [hn, Bool.false_eq_true, if_false]
    exact endGrant_ends s s2 core slot w true rbf _ ⟨⟨x, h2, hx⟩, fun i k h => by rw [ho i k h], hc, hq⟩
  refine key _ (w.advance s.focus rbf marks [] 0 0) (advance_wentOn w s.focus rbf marks hl hp) ?_ ?_ ?_ ?_
  · rw [wave_focus, wave_modCore _ _ _ _ _ (by rfl), wave_setWave]
    simp
  · intro i k h
    rw [wave_focus, wave_modCore _ _ _ _ _ (by rfl), wave_setWave, if_neg h]
  · intro i
    rw [core_focus, core_modCore, core_setWave, core_setWave]
    by_cases e : i = core
    · subst e; simp [quietCore]
    · simp [e]
  · rfl

/-- The same where no transfer is taken: the lanes go on behind the instruction. -/
theorem finishWave_ends (s : State) (core slot : Nat) (w : Wave) (rbf : Bool) (marks : BitVec 4)
    (hu : s.focus.unit = .wave core slot) (hw : s.wave? core slot = some w) (hp : s.focus.parks = [])
    (hh : s.focus.holds = []) (hg : s.focus.gone = false) (ha : s.focus.accs = []) (ht : s.focus.taken = [])
    (he : w.ended ≠ fullMask) (hl : s.focus.lanes &&& w.ended = 0) : Ends s core slot w (s.finishWave rbf marks) rbf := by
  have e : s.focus.target = fun _ => behind s := by
    funext l
    simp [Focus.target, ht, behind]
  have h := finishWave_endsAt s core slot w rbf marks hu hw hp hh hg ha he hl
  rwa [e] at h

/-! ## The end of an instruction of a transfer processor -/

theorem xp_focus (s : State) (f : Focus) (i x : Nat) : ({ s with focus := f } : State).xp i x = s.xp i x := rfl

theorem setXp_self (c : Core) (x : Nat) (p : XP) : (c.setXp x p).setXp x (c.xp x) = c := by
  unfold Core.setXp Core.xp
  split <;> rfl

theorem modXp_congr (s : State) (i x : Nat) (f g : XP → XP) (h : f (s.xp i x) = g (s.xp i x)) : s.modXp i x f = s.modXp i x g := by
  simp only [State.modXp, State.modCore]
  exact congrArg (fun p => s.setCore i ((s.core i).setXp x p)) h

/-- What `finishXp` leaves when nothing has been held, parked, transferred or halted. -/
theorem finishXp_ends (s : State) (old : Map Word) (core x : Nat) (hu : s.focus.unit = .xp core x) (hp : s.focus.parks = [])
    (hh : s.focus.holds = []) (ht : s.focus.taken = []) (ha : s.focus.accs = []) (hs : (s.xp core x).st ≠ .halted)
    (hq : (s.xp core x).quit = false)
    (hm : (loopStep 5 (s.xp core x).loops (s.focus.pc + s.focus.len)).2 ≤ 16383) :
    XEnds s core x (s.xp core x) (s.finishXp old) := by
  have hn : s.focus.target 0 = s.focus.pc + s.focus.len := by simp [Focus.target, ht]
  have e : s.finishXp old = { s.modXp core x fun p => { p with
      pc := (loopStep 5 (s.xp core x).loops (s.focus.pc + s.focus.len)).2
      loops := (loopStep 5 (s.xp core x).loops (s.focus.pc + s.focus.len)).1
      st := .running } with focus := Focus.idle } := by
    unfold State.finishXp
    have hm' : ¬(loopStep 5 (s.xp core x).loops (s.focus.pc + s.focus.len)).2 > 16383 := by omega
    simp only [hu, hh, hp, ha, hn, List.isEmpty_nil, if_true, forget_nil, if_neg hm']
    refine congrArg (fun u : State => { u with focus := Focus.idle }) (modXp_congr s core x _ _ ?_)
    simp only [hq, Bool.false_eq_true, if_false]
  rw [e]
  refine ⟨?_, ?_, ?_, rfl⟩
  · rw [xp_focus, xp_modXp_same]
  · intro i h
    rw [core_focus, State.modXp, core_modCore, if_neg h]
  · rw [core_focus, State.modXp, core_modCore, if_pos rfl]
    exact setXp_self _ _ _

theorem XEnds.of_modXp {s t : State} {core x : Nat} {f : XP → XP} (h : XEnds (s.modXp core x f) core x (f (s.xp core x)) t) :
    XEnds s core x (f (s.xp core x)) t := by
  obtain ⟨a, b, c, d⟩ := h
  refine ⟨a, ?_, ?_, d⟩
  · intro i hi
    rw [b i hi, State.modXp, core_modCore, if_neg hi]
  · have e : (t.core core).setXp x (f (s.xp core x)) = (s.core core).setXp x (f (s.xp core x)) := by
      rw [xp_modXp_same] at c
      rw [c, State.modXp, core_modCore, if_pos rfl]
      rfl
    have g := congrArg (fun c => c.setXp x (s.xp core x)) e
    refine Eq.trans ?_ (g.trans (setXp_self _ _ _))
    unfold Core.setXp
    split <;> rfl

end Sys2Proof.Machine
end

