-- ==== Sys2Proof/Laws/Operands.lean ====
section
/-! SUPPORT. What the shared forms of an instruction leave (R164, R203, R204): each general form answers a next state with its result
in the registers that the destination names, and nothing else changed. -/

namespace Sys2Proof.Machine
open Sys2Proof Sys2Proof.Claim

/-! ## Masks -/

theorem mem_lanesOf (m : Mask) (l : Nat) : l ∈ lanesOf m ↔ l < 32 ∧ hasLane m l = true := by
  simp [lanesOf, allLanes, hasLane]

theorem lanesOf_zero : lanesOf 0 = [] := by decide

theorem lanesOf_laneMask (l : Nat) (h : l < 32) : lanesOf (laneMask l) = [l] := by
  have : ∀ l : Fin 32, lanesOf (laneMask l.val) = [l.val] := by decide
  exact this ⟨l, h⟩

theorem ended_of_runs {s : State} {core slot : Nat} {w : Wave} (h : Runs s core slot w) : w.ended ≠ fullMask := by
  intro e
  have a := h.alive
  rw [e] at a
  apply h.lanes
  have : s.focus.lanes &&& fullMask = s.focus.lanes := by
    apply BitVec.eq_of_getLsbD_eq
    intro i hi
    have f : fullMask.getLsbD i = true := by
      have : ∀ i : Fin 32, fullMask.getLsbD i.val = true := by decide
      exact this ⟨i, hi⟩
    simp [f]
  rw [← this, a]

/-! ## One result -/

/-- Register `n` of a lane after a result for destination register `r`. -/
def putReg (r : Option Nat) (wide : Bool) (x n : Nat) (old : Word) : Word :=
  match r with
  | some r => if n = r then BitVec.ofNat 32 x else if wide = true ∧ n = r + 1 then BitVec.ofNat 32 (x / 2 ^ 32) else old
  | none => old

theorem putReg_twice (r : Option Nat) (wide : Bool) (x n : Nat) (old : Word) :
    putReg r wide x n (putReg r wide x n old) = putReg r wide x n old := by
  cases r with
  | none => rfl
  | some r =>
    simp only [putReg]
    split
    · rfl
    · split <;> rfl

theorem vreg_setV (w : Wave) (n l : Nat) (x : Word) (m j : Nat) (hl : l < 32) (hj : j < 32) :
    (w.setV n l x).vreg m j = if m = n ∧ j = l then x else w.vreg m j := by
  simp only [Wave.vreg, Wave.setV, mget_mset]
  have : 32 * m + j = 32 * n + l ↔ m = n ∧ j = l := by omega
  simp [this]

theorem latch_setT (w : Wave) (n l : Nat) (x : Word) (m j : Nat) (hl : l < 32) (hj : j < 32) :
    (w.setT n l x).latch m j = if m = n ∧ j = l then x else w.latch m j := by
  simp only [Wave.latch, Wave.setT, mget_mset]
  have : 32 * m + j = 32 * n + l ↔ m = n ∧ j = l := by omega
  simp [this]

theorem vreg_setT (w : Wave) (n l : Nat) (x : Word) (m j : Nat) : (w.setT n l x).vreg m j = w.vreg m j := rfl
theorem latch_setV (w : Wave) (n l : Nat) (x : Word) (m j : Nat) : (w.setV n l x).latch m j = w.latch m j := rfl

theorem writeResult_vreg (w : Wave) (d : Dst) (wide : Bool) (l x n j : Nat) (hl : l < 32) (hj : j < 32) :
    (w.writeResult d wide l x).vreg n j =
      if j = l then putReg (d.reg.map (·.toNat)) wide x n (w.vreg n j) else w.vreg n j := by
  obtain ⟨r, t⟩ := d
  cases r <;> cases t <;> cases wide <;> by_cases e : j = l <;>
    simp [Wave.writeResult, putReg, vreg_setV, vreg_setT, hl, hj, e] <;> split <;> simp_all

theorem writeResult_latch (w : Wave) (d : Dst) (wide : Bool) (l x n j : Nat) (hl : l < 32) (hj : j < 32) :
    (w.writeResult d wide l x).latch n j =
      if j = l then putReg (d.latch.map (·.toNat)) wide x n (w.latch n j) else w.latch n j := by
  obtain ⟨r, t⟩ := d
  cases r <;> cases t <;> cases wide <;> by_cases e : j = l <;>
    simp [Wave.writeResult, putReg, latch_setT, latch_setV, hl, hj, e] <;> split <;> simp_all

/-- Two waves alike but for vector registers and latches. -/
def alike (w w' : Wave) : Prop := { w' with v := w.v, t := w.t } = w

theorem alike_trans {a b c : Wave} (h : alike a b) (k : alike b c) : alike a c := by
  unfold alike at *
  cases a; cases b; cases c
  simp_all

theorem setV_alike (w : Wave) (n l : Nat) (x : Word) : alike w (w.setV n l x) := rfl
theorem setT_alike (w : Wave) (n l : Nat) (x : Word) : alike w (w.setT n l x) := rfl

theorem writeResult_alike (w : Wave) (d : Dst) (wide : Bool) (l x : Nat) : alike w (w.writeResult d wide l x) := by
  have hv := setV_alike
  have ht := setT_alike
  obtain ⟨r, t⟩ := d
  cases r <;> cases t <;> cases wide
  · exact rfl
  · exact rfl
  · exact ht _ _ _ _
  · exact alike_trans (ht _ _ _ _) (ht _ _ _ _)
  · exact hv _ _ _ _
  · exact alike_trans (hv _ _ _ _) (hv _ _ _ _)
  · exact alike_trans (ht _ _ _ _) (hv _ _ _ _)
  · exact alike_trans (alike_trans (ht _ _ _ _) (ht _ _ _ _)) (alike_trans (hv _ _ _ _) (hv _ _ _ _))

/-! ## A result on many lanes -/

/-- The fold that writes one result a lane. -/
def writeEach (w : Wave) (d : Dst) (wide : Bool) (f : Nat → Nat) (ls : List Nat) : Wave :=
  ls.foldl (fun w l => w.writeResult d wide l (f l)) w

theorem writeEach_vreg (d : Dst) (wide : Bool) (f : Nat → Nat) (ls : List Nat) (w : Wave) (n j : Nat) (hj : j < 32)
    (h : ∀ l ∈ ls, l < 32) : (writeEach w d wide f ls).vreg n j =
      if j ∈ ls then putReg (d.reg.map (·.toNat)) wide (f j) n (w.vreg n j) else w.vreg n j := by
  induction ls generalizing w with
  | nil => simp [writeEach]
  | cons l ls ih =>
    have hl := h l (by simp)
    have ih := ih (w.writeResult d wide l (f l)) (fun x hx => h x (by simp [hx]))
    simp only [writeEach, List.foldl_cons] at ih ⊢
    rw [ih, writeResult_vreg _ _ _ _ _ _ _ hl hj]
    by_cases e : j = l
    · subst e
      by_cases m : j ∈ ls <;> simp [m, putReg_twice]
    · by_cases m : j ∈ ls <;> simp [m, e]

theorem writeEach_latch (d : Dst) (wide : Bool) (f : Nat → Nat) (ls : List Nat) (w : Wave) (n j : Nat) (hj : j < 32)
    (h : ∀ l ∈ ls, l < 32) : (writeEach w d wide f ls).latch n j =
      if j ∈ ls then putReg (d.latch.map (·.toNat)) wide (f j) n (w.latch n j) else w.latch n j := by
  induction ls generalizing w with
  | nil => simp [writeEach]
  | cons l ls ih =>
    have hl := h l (by simp)
    have ih := ih (w.writeResult d wide l (f l)) (fun x hx => h x (by simp [hx]))
    simp only [writeEach, List.foldl_cons] at ih ⊢
    rw [ih, writeResult_latch _ _ _ _ _ _ _ hl hj]
    by_cases e : j = l
    · subst e
      by_cases m : j ∈ ls <;> simp [m, putReg_twice]
    · by_cases m : j ∈ ls <;> simp [m, e]

theorem writeEach_alike (d : Dst) (wide : Bool) (f : Nat → Nat) (ls : List Nat) (w : Wave) :
    alike w (writeEach w d wide f ls) := by
  induction ls generalizing w with
  | nil => rfl
  | cons l ls ih => exact alike_trans (writeResult_alike w d wide l (f l)) (ih _)

theorem writeEach_written (w : Wave) (act : Mask) (d : Dst) (wide : Bool) (f : Nat → Nat) :
    VecWritten w (writeEach w d wide f (lanesOf act)) act d wide f := by
  have hl : ∀ l ∈ lanesOf act, l < 32 := fun l hl => ((mem_lanesOf act l).mp hl).1
  refine ⟨?_, ?_, writeEach_alike _ _ _ _ _⟩
  · intro n j hj
    rw [writeEach_vreg _ _ _ _ _ _ _ hj hl]
    obtain ⟨r, t⟩ := d
    by_cases m : hasLane act j = true <;> cases r <;> simp [mem_lanesOf, hj, m, putReg]
  · intro n j hj
    rw [writeEach_latch _ _ _ _ _ _ _ hj hl]
    obtain ⟨r, t⟩ := d
    by_cases m : hasLane act j = true <;> cases t <;> simp [mem_lanesOf, hj, m, putReg]

theorem writeLanes_eq (w : Wave) (d : Dst) (wide : Bool) (m : Mask) (x : Nat) :
    w.writeLanes d wide m x = writeEach w d wide (fun _ => x) (lanesOf m) := rfl

theorem foldl_singles (w : Wave) (d : Dst) (wide : Bool) (f : Nat → Nat) (ls : List Nat) (h : ∀ l ∈ ls, l < 32) :
    (ls.map fun l => (laneMask l, f l)).foldl (fun w r => w.writeLanes d wide r.1 r.2) w = writeEach w d wide f ls := by
  induction ls generalizing w with
  | nil => rfl
  | cons l ls ih =>
    have hl := h l (by simp)
    simp only [List.map_cons, List.foldl_cons]
    rw [ih _ fun x hx => h x (by simp [hx]), writeLanes_eq, lanesOf_laneMask l hl]
    rfl

/-- What `perLane` makes of the wave. -/
theorem perLane_eq (s : State) (core slot : Nat) (w : Wave) (hu : s.focus.unit = .wave core slot)
    (hw : s.wave? core slot = some w) (g : Guard) (uni : Bool) (d : Dst) (wide : Bool) (f : Nat → Nat) :
    s.perLane g uni d wide f =
      s.setWave core slot (writeEach w d wide (fun l => f (srcLane s g uni l)) (lanesOf (s.active g))) := by
  unfold State.perLane
  simp only []
  rw [modW_of_unit _ _ _ _ _ hu hw]
  congr 1
  unfold State.groups groupsOf srcLane
  have hl : ∀ l ∈ lanesOf (s.active g), l < 32 := fun l hl => ((mem_lanesOf _ l).mp hl).1
  by_cases u : (uni && s.focus.bc) = true
  · simp only [u, if_true]
    by_cases z : (s.active g == 0) = true
    · have z' : s.active g = 0 := by simpa using z
      have e : lanesOf (0#32) = [] := lanesOf_zero
      simp [z', e, writeEach]
    · simp only [z, if_false, Bool.false_eq_true, List.map_cons, List.map_nil, List.foldl_cons, List.foldl_nil]
      exact writeLanes_eq _ _ _ _ _
  · simp only [u, if_false, Bool.false_eq_true, List.map_map]
    exact foldl_singles w d wide f _ hl

end Sys2Proof.Machine

namespace Sys2Proof.Claim
open Sys2Proof Sys2Proof.Machine

/-! ## An instruction of a wave completes -/

theorem onWave_wave {s : State} {core slot : Nat} (h : s.focus.unit = .wave core slot) (rbf : Bool) (m : BitVec 4)
    (body : State → State) : s.onWave rbf m body = .next ((body s).finishWave rbf m) := by simp [State.onWave, h]

theorem onBoth_wave {s : State} {core slot : Nat} (h : s.focus.unit = .wave core slot) (rbf : Bool) (m : BitVec 4)
    (body xp : State → State) : s.onBoth rbf m body xp = .next ((body s).finishWave rbf m) := by simp [State.onBoth, State.onBothFrom, h]

theorem onBoth_xp {s : State} {core x : Nat} (h : s.focus.unit = .xp core x) (rbf : Bool) (m : BitVec 4)
    (body xp : State → State) : s.onBoth rbf m body xp = .next ((xp s).finishXp s.x.d) := by simp [State.onBoth, State.onBothFrom, h]

theorem onXp_xp {s : State} {core x : Nat} (h : s.focus.unit = .xp core x) (body : State → State) :
    s.onXp body = .next ((body s).finishXp s.x.d) := by simp [State.onXp, h]

/-- The end of an instruction that has kept the focus. -/
theorem Runs.finish {s s1 : State} {core slot : Nat} {w w1 : Wave} (h : Runs s core slot w) (hf : s1.focus = s.focus)
    (hw : s1.wave? core slot = some w1) (he : w1.ended = w.ended) (rbf : Bool) (m : BitVec 4) :
    Ends s1 core slot w1 (s1.finishWave rbf m) rbf := by
  refine finishWave_ends s1 core slot w1 rbf m ?_ hw ?_ ?_ ?_ ?_ ?_ ?_ ?_
  · rw [hf, h.unit]
  · rw [hf, h.parks]
  · rw [hf, h.holds]
  · rw [hf, h.gone]
  · rw [hf, h.accs]
  · rw [hf, h.taken]
  · rw [he]; exact ended_of_runs h
  · rw [hf, he, h.alive]

theorem EndsAt.of_setWave {s t : State} {core slot : Nat} {w1 w2 : Wave} {rbf : Bool} {dest : Nat → Nat}
    (h : EndsAt (s.setWave core slot w2) core slot w1 t rbf dest) : EndsAt s core slot w1 t rbf dest := by
  obtain ⟨a, b, c, d⟩ := h
  refine ⟨a, ?_, ?_, d⟩
  · intro i k n
    rw [b i k n, wave_setWave, if_neg n]
  · intro i
    rw [c i, core_setWave]
    split
    · subst_vars; rfl
    · rfl

/-- An instruction that has only rewritten its wave. -/
theorem Runs.finish_setWave {s : State} {core slot : Nat} {w w1 : Wave} (h : Runs s core slot w) (he : w1.ended = w.ended)
    (rbf : Bool) (m : BitVec 4) : Ends s core slot w1 ((s.setWave core slot w1).finishWave rbf m) rbf :=
  EndsAt.of_setWave (h.finish (s1 := s.setWave core slot w1) rfl (by simp) he rbf m)

theorem Runs.w {s : State} {core slot : Nat} {w : Wave} (h : Runs s core slot w) : s.w = w := w_of_unit s core slot w h.unit h.here

theorem Runs.modW {s : State} {core slot : Nat} {w : Wave} (h : Runs s core slot w) (f : Wave → Wave) :
    s.modW f = s.setWave core slot (f w) := modW_of_unit s core slot w f h.unit h.here

/-! ## Vector results -/

/-- The value that a result of a width leaves in registers. -/
def cut (wide : Bool) (x : Nat) : Nat := x % 2 ^ (if wide then 64 else 32)

theorem VecWritten.congr {w w1 : Wave} {act : Mask} {d : Dst} {wide : Bool} {f g : Nat → Nat} (h : VecWritten w w1 act d wide f)
    (e : ∀ l, cut wide (f l) = cut wide (g l)) : VecWritten w w1 act d wide g := by
  have lo : ∀ l, BitVec.ofNat 32 (f l) = BitVec.ofNat 32 (g l) := by
    intro l
    have := e l
    apply BitVec.eq_of_toNat_eq
    cases wide <;> simp [cut] at this ⊢ <;> omega
  have hi : wide = true → ∀ l, BitVec.ofNat 32 (f l / 2 ^ 32) = BitVec.ofNat 32 (g l / 2 ^ 32) := by
    intro hw l
    have := e l
    apply BitVec.eq_of_toNat_eq
    simp [cut, hw] at this ⊢
    omega
  obtain ⟨a, b, c⟩ := h
  refine ⟨?_, ?_, c⟩
  · intro n l hl
    rw [a n l hl]
    cases wide
    · simp only [lo, Bool.false_eq_true, false_and, if_false]
    · simp only [lo, hi rfl]
  · intro n l hl
    rw [b n l hl]
    cases wide
    · simp only [lo, Bool.false_eq_true, false_and, if_false]
    · simp only [lo, hi rfl]

theorem writeEach_ended (d : Dst) (wide : Bool) (f : Nat → Nat) (ls : List Nat) (w : Wave) :
    (writeEach w d wide f ls).ended = w.ended := by
  have h := writeEach_alike d wide f ls w
  unfold alike at h
  exact (congrArg Wave.ended h : _)

/-- An instruction whose meaning is one vector result. -/
theorem Runs.perLane {s : State} {core slot : Nat} {w : Wave} (h : Runs s core slot w) {i : Instr} {c : Ctl} {uni : Bool}
    {d : Dst} {wide : Bool} {m : BitVec 4} {f val : Nat → Nat}
    (he : exec i s = .next ((s.perLane c.guard uni d wide f).finishWave c.rbf m)) (hv : ∀ l, cut wide (f l) = cut wide (val l)) :
    VecResult s core slot w i c uni d wide val := by
  rw [perLane_eq s core slot w h.unit h.here] at he
  exact ⟨_, _, he, h.finish_setWave (writeEach_ended _ _ _ _ _) _ _, (writeEach_written w _ d wide _).congr fun l => hv _⟩

/-! ## Scalar results -/

theorem sreg_setS (w : Wave) (n m : Nat) (x : Word) : (w.setS n x).sreg m = if m = n then x else w.sreg m := by
  simp [Wave.sreg, Wave.setS]

theorem lowWord_ofNat (x : Nat) : lowWord (BitVec.ofNat 64 x) = BitVec.ofNat 32 x := by
  apply BitVec.eq_of_toNat_eq; simp [lowWord]

theorem highWord_ofNat (x : Nat) : highWord (BitVec.ofNat 64 x) = BitVec.ofNat 32 (x / 2 ^ 32) := by
  apply BitVec.eq_of_toNat_eq; simp [highWord, Nat.shiftRight_eq_div_pow]; omega

/-- A wave after a scalar result. -/
def putScal (w : Wave) (wide : Bool) (n x : Nat) : Wave :=
  if wide then w.setS64 n (BitVec.ofNat 64 x) else w.setS n (BitVec.ofNat 32 x)

theorem putScal_written (w : Wave) (act : Mask) (n : SReg) (wide : Bool) (x : Nat) (h : act ≠ 0) :
    ScalWritten w (putScal w wide n.toNat x) act n wide x := by
  cases wide <;> refine ⟨fun m => ?_, rfl⟩ <;>
    simp only [putScal, Wave.setS64, lowWord_ofNat, highWord_ofNat, sreg_setS, h, if_true, if_false, Bool.false_eq_true]
  · simp
  · by_cases a : m = n.toNat
    · simp [a]
    · simp [a]

theorem ScalWritten.none (w : Wave) (n : SReg) (wide : Bool) (x : Nat) : ScalWritten w w 0 n wide x := ⟨fun _ => by simp, rfl⟩

theorem ScalWritten.congr {w w1 : Wave} {act : Mask} {n : SReg} {wide : Bool} {x y : Nat} (h : ScalWritten w w1 act n wide x)
    (e : cut wide x = cut wide y) : ScalWritten w w1 act n wide y := by
  have lo : BitVec.ofNat 32 x = BitVec.ofNat 32 y := by
    apply BitVec.eq_of_toNat_eq
    cases wide <;> simp [cut] at e ⊢ <;> omega
  have hi : wide = true → BitVec.ofNat 32 (x / 2 ^ 32) = BitVec.ofNat 32 (y / 2 ^ 32) := by
    intro hw
    apply BitVec.eq_of_toNat_eq
    simp [cut, hw] at e ⊢
    omega
  refine ⟨fun m => ?_, h.rest⟩
  rw [h.regs m]
  cases wide
  · simp only [lo, Bool.false_eq_true, false_and, if_false]
  · simp only [lo, hi rfl]

theorem setS_wave {s : State} {core slot : Nat} {w : Wave} (hu : s.focus.unit = .wave core slot) (hw : s.wave? core slot = some w)
    (n : Nat) (x : Word) : s.setS n x = s.setWave core slot (w.setS n x) := by
  simp only [State.setS, hu]
  exact modW_of_unit _ _ _ _ _ hu hw

theorem setWave_setWave (s : State) (i k : Nat) (a b : Wave) : (s.setWave i k a).setWave i k b = s.setWave i k b := by
  have p : ∀ (α : Type) (m : Map α) (k : Nat) (a b : α), aput (aput m k a) k b = aput m k b := by
    intro α m k a b
    induction m with
    | nil => simp [aput]
    | cons x m ih =>
      obtain ⟨j, y⟩ := x
      by_cases l : k < j
      · simp [aput, l]
      · by_cases e : k = j
        · simp [aput, e]
        · simp [aput, l, e, ih]
  simp [State.setWave, State.modCore, State.setCore, State.core, p]

theorem setScal_wave {s : State} {core slot : Nat} {w : Wave} (hu : s.focus.unit = .wave core slot)
    (hw : s.wave? core slot = some w) (wide : Bool) (n : SReg) (x : Nat) :
    s.setScal wide n x = s.setWave core slot (putScal w wide n.toNat x) := by
  cases wide
  · exact setS_wave hu hw _ _
  · simp only [State.setScal, State.setS64, putScal, Wave.setS64, if_true]
    have h1 := setS_wave hu hw n.toNat (lowWord (BitVec.ofNat 64 x))
    have h2 := setS_wave (s := s.setWave core slot (w.setS n.toNat (lowWord (BitVec.ofNat 64 x)))) (core := core) (slot := slot) hu
      (by simp; rfl) (n.toNat + 1) (highWord (BitVec.ofNat 64 x))
    rw [h1, h2, setWave_setWave]

/-- An instruction whose meaning is one scalar result, read before it is written. -/
theorem Runs.scalar {s : State} {core slot : Nat} {w : Wave} (h : Runs s core slot w) {i : Instr} {c : Ctl} {n : SReg}
    {wide : Bool} {m : BitVec 4} {x : State → Nat} {y : Nat}
    (he : exec i s = .next ((s.scalar c.guard fun s => s.setScal wide n (x s)).finishWave c.rbf m)) (hv : cut wide (x s) = cut wide y) :
    ScalResult s core slot w i c n wide y := by
  by_cases z : s.active c.guard = 0
  · rw [State.scalar, z, if_pos (by rfl)] at he
    exact ⟨_, w, he, h.finish rfl h.here rfl _ _, by rw [z]; exact ScalWritten.none _ _ _ _⟩
  · rw [State.scalar, if_neg (by simpa using z), setScal_wave h.unit h.here] at he
    refine ⟨_, _, he, h.finish_setWave ?_ _ _, (putScal_written w _ n wide _ z).congr hv⟩
    cases wide <;> rfl

/-! ## Results of a transfer processor -/

def putD (p : XP) (wide : Bool) (n x : Nat) : XP :=
  if wide then p.setD64 n (BitVec.ofNat 64 x) else p.setD n (BitVec.ofNat 32 x)

theorem dreg_setD (p : XP) (n m : Nat) (x : Word) : (p.setD n x).dreg m = if m = n then x else p.dreg m := by
  simp [XP.dreg, XP.setD]

theorem putD_written (p : XP) (n : Nat) (wide : Bool) (x : Nat) : DWritten p (putD p wide n x) n wide x := by
  cases wide <;> refine ⟨fun m => ?_, rfl⟩ <;>
    simp only [putD, XP.setD64, lowWord_ofNat, highWord_ofNat, dreg_setD, if_true, if_false, Bool.false_eq_true]
  · simp
  · by_cases a : m = n
    · simp [a]
    · simp [a]

theorem DWritten.congr {p p1 : XP} {n : Nat} {wide : Bool} {x y : Nat} (h : DWritten p p1 n wide x) (e : cut wide x = cut wide y) :
    DWritten p p1 n wide y := by
  have lo : BitVec.ofNat 32 x = BitVec.ofNat 32 y := by
    apply BitVec.eq_of_toNat_eq
    cases wide <;> simp [cut] at e ⊢ <;> omega
  have hi : wide = true → BitVec.ofNat 32 (x / 2 ^ 32) = BitVec.ofNat 32 (y / 2 ^ 32) := by
    intro hw
    apply BitVec.eq_of_toNat_eq
    simp [cut, hw] at e ⊢
    omega
  refine ⟨fun m => ?_, h.rest⟩
  rw [h.regs m]
  cases wide
  · simp only [lo, Bool.false_eq_true, false_and, if_false]
  · simp only [lo, hi rfl]

theorem setXp_setXp (c : Core) (x : Nat) (p q : XP) : (c.setXp x p).setXp x q = c.setXp x q := by
  unfold Core.setXp; split <;> rfl

theorem modXp_modXp (s : State) (i x : Nat) (f g : XP → XP) : (s.modXp i x f).modXp i x g = s.modXp i x fun p => g (f p) := by
  have p : ∀ (α : Type) (m : Map α) (k : Nat) (a b : α), aput (aput m k a) k b = aput m k b := by
    intro α m k a b
    induction m with
    | nil => simp [aput]
    | cons x m ih =>
      obtain ⟨j, y⟩ := x
      by_cases l : k < j
      · simp [aput, l]
      · by_cases e : k = j
        · simp [aput, e]
        · simp [aput, l, e, ih]
  have q : ∀ (c : Core) (a : XP), (c.setXp x a).xp x = a := by intro c a; unfold Core.setXp Core.xp; split <;> rfl
  simp [State.modXp, State.modCore, State.setCore, State.core, p, setXp_setXp, q]

theorem setScal_xp {s : State} {core x : Nat} (hu : s.focus.unit = .xp core x) (wide : Bool) (n : SReg) (v : Nat) :
    s.setScal wide n v = s.modXp core x fun p => putD p wide n.toNat v := by
  have h1 : ∀ (s : State) (n : Nat) (y : Word), s.focus.unit = .xp core x → s.setS n y = s.modXp core x fun p => p.setD n y := by
    intro s n y h
    simp only [State.setS, h]
    exact modX_of_unit _ _ _ _ h
  cases wide
  · exact h1 s _ _ hu
  · simp only [State.setScal, State.setS64, putD, XP.setD64, if_true]
    rw [h1 s _ _ hu, h1 (s.modXp core x _) _ _ hu, modXp_modXp]

theorem putD_same (p : XP) (wide : Bool) (n x : Nat) : (putD p wide n x).st = p.st ∧ (putD p wide n x).loops = p.loops ∧ (putD p wide n x).quit = p.quit := by
  cases wide <;> exact ⟨rfl, rfl, rfl⟩

/-- The end of an instruction of a transfer processor that has only rewritten its registers. -/
theorem XRuns.finish {s : State} {core x : Nat} {p : XP} (h : XRuns s core x p) (f : XP → XP) (old : Map Word) (hs : (f p).st = p.st)
    (hl : (f p).loops = p.loops) (hq : (f p).quit = p.quit) : XEnds s core x (f p) ((s.modXp core x f).finishXp old) := by
  have hh := h.here
  subst hh
  apply XEnds.of_modXp
  have e : (s.modXp core x f).xp core x = f (s.xp core x) := xp_modXp_same _ _ _ _
  have k := finishXp_ends (s.modXp core x f) old core x h.unit h.parks h.holds h.taken h.accs
    (by rw [e, hs, h.run]; decide) (by rw [e, hq, h.stays]) (by rw [e, hl]; exact h.room)
  rw [e] at k
  exact k

theorem XRuns.finish_same {s : State} {core x : Nat} {p : XP} (h : XRuns s core x p) (old : Map Word) :
    XEnds s core x p (s.finishXp old) := by
  have hh := h.here
  subst hh
  exact finishXp_ends s old core x h.unit h.parks h.holds h.taken h.accs (by rw [h.run]; decide) (by rw [h.stays]) h.room

theorem active_always {s : State} {core x : Nat} {p : XP} (h : XRuns s core x p) : s.active always = xpLane := by
  have : s.w = Wave.empty := by simp [State.w, h.unit]
  simp only [State.active, h.lanes, this]
  decide

theorem XRuns.scalar {s : State} {core x : Nat} {p : XP} (h : XRuns s core x p) {i : Instr} {n : SReg} {wide : Bool}
    {v : State → Nat} {y : Nat}
    (he : exec i s = .next ((s.scalar always fun s => s.setScal wide n (v s)).finishXp s.x.d)) (hv : cut wide (v s) = cut wide y) :
    DResult s core x p i n.toNat wide y := by
  rw [State.scalar, active_always h, if_neg (by decide), setScal_xp h.unit] at he
  exact ⟨_, _, he, h.finish _ _ (putD_same _ _ _ _).1 (putD_same _ _ _ _).2.1 (putD_same _ _ _ _).2.2, (putD_written p _ wide _).congr hv⟩

theorem XRuns.scal {s : State} {core x : Nat} {p : XP} (h : XRuns s core x p) (wide : Bool) (n : SReg) : s.scal wide n = dval p wide n := by
  have hx : s.x = p := by rw [x_of_unit s core x h.unit, h.here]
  cases wide <;> simp [State.scal, dval, State.sreg, State.spair, h.unit, hx, XP.dpair]

theorem Runs.scal {s : State} {core slot : Nat} {w : Wave} (h : Runs s core slot w) (wide : Bool) (n : SReg) :
    s.scal wide n = w.scal wide n := by
  cases wide <;> simp [State.scal, Wave.scal, State.sreg, State.spair, h.unit, h.w, Wave.spair]

/-! ## Predicates -/

theorem pred_setP (w : Wave) (p l : Nat) (b : Bool) (q k : Nat) (hq : q < 16) (hk : k < 32) (hl : l < 32) :
    hasLane ((w.setP p l b).pred q) k = if q = p ∧ p ≠ 15 ∧ k = l then b else hasLane (w.pred q) k := by
  by_cases e : p = 15
  · subst e; simp [Wave.setP]
  · have lm : ∀ l k : Fin 32, (laneMask l.val).getLsbD k.val = decide (k = l) := by decide
    have lm := lm ⟨l, hl⟩ ⟨k, hk⟩
    simp only [Fin.mk.injEq] at lm
    by_cases z : q = 15
    · subst z
      have : ¬15 = p := fun h => e h.symm
      simp [Wave.pred, this]
    · have hq' : q < 15 := by omega
      by_cases f : q = p
      · subst f
        cases b <;> by_cases m : k = l <;>
          simp_all [Wave.setP, Wave.pred, listGet_listPut, hasLane]
      · simp [Wave.setP, Wave.pred, e, z, f, listGet_listPut, hq']

theorem foldl_setP (p : Nat) (f : Nat → Bool) (ls : List Nat) (w : Wave) (q k : Nat) (hq : q < 16) (hk : k < 32)
    (h : ∀ l ∈ ls, l < 32) : hasLane ((ls.foldl (fun w l => w.setP p l (f l)) w).pred q) k =
      if q = p ∧ p ≠ 15 ∧ k ∈ ls then f k else hasLane (w.pred q) k := by
  induction ls generalizing w with
  | nil => simp
  | cons l ls ih =>
    simp only [List.foldl_cons]
    rw [ih _ fun x hx => h x (by simp [hx]), pred_setP _ _ _ _ _ _ hq hk (h l (by simp))]
    by_cases e : k = l
    · subst e; by_cases m : k ∈ ls <;> by_cases a : q = p ∧ p ≠ 15 <;> simp_all
    · by_cases m : k ∈ ls <;> by_cases a : q = p ∧ p ≠ 15 <;> simp_all

theorem setP_rest (w : Wave) (p l : Nat) (b : Bool) : { w.setP p l b with p := w.p } = w := by
  unfold Wave.setP; split <;> rfl

theorem foldl_setP_rest (p : Nat) (f : Nat → Bool) (ls : List Nat) (w : Wave) :
    { ls.foldl (fun w l => w.setP p l (f l)) w with p := w.p } = w := by
  induction ls generalizing w with
  | nil => rfl
  | cons l ls ih =>
    simp only [List.foldl_cons]
    have a := ih (w.setP p l (f l))
    have b := setP_rest w p l (f l)
    generalize ls.foldl _ _ = x at a ⊢
    cases x; cases w
    generalize Wave.setP _ _ _ _ = y at a b
    cases y
    simp_all

/-- An instruction whose meaning is one predicate. -/
theorem Runs.preds {s : State} {core slot : Nat} {w : Wave} (h : Runs s core slot w) {i : Instr} {c : Ctl} {p : BitVec 4}
    {m : BitVec 4} {f val : Nat → Bool}
    (he : exec i s = .next ((s.setPreds p.toNat (s.active c.guard) f).finishWave c.rbf m)) (hv : ∀ l, f l = val l) :
    PredResult s core slot w i c p val := by
  have : f = val := funext hv
  subst this
  simp only [State.setPreds, h.modW] at he
  have r := foldl_setP_rest p.toNat f (lanesOf (s.active c.guard)) w
  refine ⟨_, _, he, h.finish_setWave ?_ _ _, ?_, r⟩
  · exact (congrArg Wave.ended r : _)
  · intro q l hq hl
    rw [foldl_setP _ _ _ _ _ _ hq hl fun x hx => ((mem_lanesOf _ _).mp hx).1]
    have n : p.toNat ≠ 15 ↔ p ≠ 15 := by
      constructor
      · rintro a rfl; exact a rfl
      · intro a b; exact a (BitVec.eq_of_toNat_eq b)
    have mm := mem_lanesOf (s.active c.guard) l
    by_cases a : q = p.toNat <;> by_cases b : p = 15 <;> by_cases c : hasLane (s.active c.guard) l = true <;> simp_all

/-! ## The general forms -/

theorem src_lt (w : Wave) (wide : Bool) (a : Src) (l : Nat) : w.src wide a l < 2 ^ wbits wide := by
  cases a <;> cases wide <;> exact BitVec.isLt _

theorem scal_lt (w : Wave) (wide : Bool) (n : SReg) : w.scal wide n < 2 ^ wbits wide := by
  cases wide <;> exact BitVec.isLt _

theorem bsrc_lt (w : Wave) (wide : Bool) (b : BSrc) (l : Nat) : w.bsrc wide b l < 2 ^ wbits wide := by
  cases b with
  | vec y => exact src_lt w wide y l
  | scal n => exact scal_lt w wide n

theorem dval_lt (p : XP) (wide : Bool) (n : SReg) : dval p wide n < 2 ^ wbits wide := by
  cases wide <;> exact BitVec.isLt _

/-- What an instruction of one general source computes, in each of its three forms. -/
theorem Una.holds (o : Una) (f : Bool → Nat → Nat)
    (he : ∀ c wide g s, exec (o.form c wide g) s = s.gen1 c (o.wd wide) wide g (f wide))
    (hv : ∀ wide a, a < 2 ^ wbits wide → cut (o.wd wide) (f wide a) = cut (o.wd wide) (o.val (wbits wide) a)) : o.Holds := by
  intro c wide s
  refine ⟨?_, ?_, ?_⟩
  · intro core slot w uni d a h
    refine h.perLane (f := fun l => f wide (w.src wide a l)) (m := dstMarks d (o.wd wide)) ?_ fun l => hv _ _ (src_lt _ _ _ _)
    rw [he, State.gen1, onWave_wave h.unit, h.w]
  · intro core slot w d a h
    refine h.scalar (x := fun s => f wide (s.scal wide a)) (m := 0) ?_ ?_
    · rw [he, State.gen1, onBoth_wave h.unit]
    · rw [h.scal]
      exact hv _ _ (scal_lt _ _ _)
  · intro core x p d a h hg
    refine h.scalar (v := fun s => f wide (s.scal wide a)) ?_ ?_
    · rw [he, State.gen1, onBoth_xp h.unit, hg]
    · rw [h.scal]
      exact hv _ _ (dval_lt _ _ _)

theorem Bin.holds (o : Bin) (f : Bool → Nat → Nat → Nat)
    (he : ∀ c wide g s, exec (o.form c wide g) s = s.gen2 c wide wide (o.wb wide) g (f wide))
    (hv : ∀ wide a b, a < 2 ^ wbits wide → b < 2 ^ wbits (o.wb wide) →
      cut wide (f wide a b) = cut wide (o.val (wbits wide) a b)) : o.Holds := by
  intro c wide s
  refine ⟨?_, ?_, ?_⟩
  · intro core slot w uni d a b h
    refine h.perLane (f := fun l => f wide (w.src wide a l) (w.bsrc (o.wb wide) b l)) (m := dstMarks d wide) ?_
      fun l => hv _ _ _ (src_lt _ _ _ _) (bsrc_lt _ _ _ _)
    rw [he, State.gen2, onWave_wave h.unit, h.w]
  · intro core slot w d a b h
    refine h.scalar (x := fun s => f wide (s.scal wide a) (s.scal (o.wb wide) b)) (m := 0) ?_ ?_
    · rw [he, State.gen2, onBoth_wave h.unit]
    · rw [h.scal, h.scal]
      exact hv _ _ _ (scal_lt _ _ _) (scal_lt _ _ _)
  · intro core x p d a b h hg
    refine h.scalar (v := fun s => f wide (s.scal wide a) (s.scal (o.wb wide) b)) ?_ ?_
    · rw [he, State.gen2, onBoth_xp h.unit, hg]
    · rw [h.scal, h.scal]
      exact hv _ _ _ (dval_lt _ _ _) (dval_lt _ _ _)

theorem Ter.holds (o : Ter) (f : Bool → Nat → Nat → Nat → Nat)
    (he : ∀ c wide g s, exec (o.form c wide g) s = s.gen3 c wide g (f wide))
    (hv : ∀ wide a b e, a < 2 ^ wbits wide → b < 2 ^ wbits wide → e < 2 ^ wbits wide →
      cut wide (f wide a b e) = cut wide (o.val (wbits wide) a b e)) : o.Holds := by
  intro c wide s
  refine ⟨?_, ?_, ?_⟩
  · intro core slot w uni d a b e h
    refine h.perLane (f := fun l => f wide (w.src wide a l) (w.bsrc wide b l) (w.src wide e l))
      (m := dstMarks d wide) ?_ fun l => hv _ _ _ _ (src_lt _ _ _ _) (bsrc_lt _ _ _ _) (src_lt _ _ _ _)
    rw [he, State.gen3, onWave_wave h.unit, h.w]
  · intro core slot w d a b e h
    refine h.scalar (x := fun s => f wide (s.scal wide a) (s.scal wide b) (s.scal wide e)) (m := 0) ?_ ?_
    · rw [he, State.gen3, onBoth_wave h.unit]
    · rw [h.scal, h.scal, h.scal]
      exact hv _ _ _ _ (scal_lt _ _ _) (scal_lt _ _ _) (scal_lt _ _ _)
  · intro core x p d a b e h hg
    refine h.scalar (v := fun s => f wide (s.scal wide a) (s.scal wide b) (s.scal wide e)) ?_ ?_
    · rw [he, State.gen3, onBoth_xp h.unit, hg]
    · rw [h.scal, h.scal, h.scal]
      exact hv _ _ _ _ (dval_lt _ _ _) (dval_lt _ _ _) (dval_lt _ _ _)

end Sys2Proof.Claim
end

