-- ==== Sys2Proof/Laws/Access.lean ====
section
/-! SUPPORT. What an access to global memory leaves when it meets nothing (R69 to R76, R85 to R88): translation finds the leaf, a load reads
the bytes, and beside tokens, L1 lines and leaves nothing changes. -/

namespace Sys2Proof.Machine
open Sys2Proof Sys2Proof.Claim

/-! ## The walk (R69, R71) -/

theorem levelIndex_page (l va : Nat) : levelIndex l (65536 * (va / 65536)) = levelIndex l va := by
  have h : ∀ lo hi, 16 ≤ lo → bitsN (65536 * (va / 65536)) hi lo = bitsN va hi lo := by
    intro lo hi hl
    unfold bitsN
    congr 1
    obtain ⟨k, rfl⟩ := Nat.exists_eq_add_of_le hl
    rw [Nat.pow_add, ← Nat.div_div_eq_div_mul, ← Nat.div_div_eq_div_mul]
    congr 1
    omega
  unfold levelIndex
  split
  · exact h _ _ (by omega)
  · exact h _ _ (by omega)

theorem walkFrom_page (m : List Host.Cell) (l table va : Nat) : walkFrom m l table (65536 * (va / 65536)) = walkFrom m l table va := by
  induction l generalizing table with
  | zero => simp only [walkFrom, levelIndex_page]
  | succ l ih => simp only [walkFrom, levelIndex_page, ih]

theorem walk_page (s : State) (aslot va : Nat) : s.walk aslot (65536 * (va / 65536)) = s.walk aslot va := by
  unfold State.walk
  split
  · exact walkFrom_page _ _ _ _
  · rfl

/-! ## Steps that only move tokens, lines and leaves -/

/-- `s'` is `s` but for L1 lines, TLB leaves and requests for tokens. -/
structure ReadStep (s s' : State) : Prop where
  cores    : ∀ i, { s'.core i with l1 := [] } = { s.core i with l1 := [] }
  rest     : { bare s' with cores := [] } = { bare s with cores := [] }
  partials : ∀ line, s.linePartials line = [] → s'.linePartials line = []

theorem ReadStep.refl (s : State) : ReadStep s s := ⟨fun _ => rfl, rfl, fun _ h => h⟩

theorem ReadStep.trans {a b c : State} (h : ReadStep a b) (k : ReadStep b c) : ReadStep a c :=
  ⟨fun i => (k.cores i).trans (h.cores i), k.rest.trans h.rest, fun l x => k.partials l (h.partials l x)⟩

theorem ReadStep.mem {s s' : State} (h : ReadStep s s') : s'.mem = s.mem := (congrArg State.mem h.rest : _)
theorem ReadStep.slots {s s' : State} (h : ReadStep s s') : s'.slots = s.slots := (congrArg State.slots h.rest : _)
theorem ReadStep.frames {s s' : State} (h : ReadStep s s') : s'.frames = s.frames := (congrArg State.frames h.rest : _)
theorem ReadStep.boot {s s' : State} (h : ReadStep s s') : s'.boot = s.boot := (congrArg State.boot h.rest : _)
theorem ReadStep.focus {s s' : State} (h : ReadStep s s') : s'.focus = s.focus := (congrArg State.focus h.rest : _)
theorem ReadStep.poison {s s' : State} (h : ReadStep s s') : s'.poison = s.poison := (congrArg State.poison h.rest : _)
theorem ReadStep.sealed {s s' : State} (h : ReadStep s s') : s'.sealed = s.sealed := (congrArg State.sealed h.rest : _)
theorem ReadStep.launches {s s' : State} (h : ReadStep s s') : s'.launches = s.launches := (congrArg State.launches h.rest : _)

theorem ReadStep.walk {s s' : State} (h : ReadStep s s') (aslot va : Nat) : s'.walk aslot va = s.walk aslot va := by
  simp only [State.walk, State.slot?, h.mem, h.slots]

theorem ReadStep.wave {s s' : State} (h : ReadStep s s') (i k : Nat) : s'.wave? i k = s.wave? i k := by
  have := congrArg Core.slots (h.cores i)
  simp only [State.wave?]
  exact congrArg (fun m => aget m k) this

theorem ReadStep.xp {s s' : State} (h : ReadStep s s') (i x : Nat) : s'.xp i x = s.xp i x := by
  have a := congrArg Core.xp0 (h.cores i)
  have b := congrArg Core.xp1 (h.cores i)
  simp only at a b
  simp only [State.xp, Core.xp, a, b]

theorem ReadStep.log {s s' : State} (h : ReadStep s s') (i uid : Nat) (m : Mask) :
    (s'.core i).lanesLog uid m = (s.core i).lanesLog uid m := by
  have a := congrArg Core.log (h.cores i)
  simp only at a
  simp only [Core.lanesLog, a]

theorem ReadStep.leafFault {s s' : State} (h : ReadStep s s') (aslot va : Nat) (k : AKind) (l : Leaf) :
    Machine.leafFault s' aslot va k l = Machine.leafFault s aslot va k l := by
  simp only [Machine.leafFault, State.backed, State.frameSlot, h.boot, h.frames]
  rfl

theorem ReadStep.reaches {s s' : State} (h : ReadStep s s') {aslot va size : Nat} {k : AKind} {l : Leaf}
    (r : Reaches s aslot va size k l) : Reaches s' aslot va size k l :=
  ⟨r.canon, r.sector, by rw [h.walk]; exact r.walk, by rw [h.leafFault]; exact r.allow, r.here, by rw [h.mem]; exact r.used⟩

theorem ReadStep.plain {s s' : State} (h : ReadStep s s') {pa : Nat} (p : PlainSector s pa) : PlainSector s' pa :=
  ⟨p.dram, by simpa only [State.poisoned, h.poison] using p.clean, by simpa only [State.sealedLine, h.sealed] using p.unsealed,
    h.partials _ p.combined⟩

theorem ReadStep.genOf {s s' : State} (h : ReadStep s s') (aslot : Nat) : s'.genOf aslot = s.genOf aslot := by
  simp only [State.genOf, State.slot?, h.slots]

theorem ReadStep.tablePath {s s' : State} (h : ReadStep s s') (aslot va : Nat) : s'.tablePath aslot va = s.tablePath aslot va := by
  simp only [State.tablePath, State.slot?, h.mem, h.slots]

theorem ReadStep.l1Plain {s s' : State} (h : ReadStep s s') (aslot va : Nat) (k : AKind) (a : Acc) :
    s'.l1Plain aslot va k a = s.l1Plain aslot va k a := by
  simp only [State.l1Plain, h.walk, h.leafFault, h.mem]

theorem ReadStep.offline {s s' : State} (h : ReadStep s s') (i : Nat) : (s'.core i).offline = (s.core i).offline := by
  have a := congrArg Core.disabled (h.cores i)
  have b := congrArg Core.gated (h.cores i)
  simp only at a b
  simp only [Core.offline, a, b]

theorem ReadStep.l1Core {s s' : State} (h : ReadStep s s') (hf : ∀ c, (s'.cluster c).fused = (s.cluster c).fused) (core va : Nat) :
    s'.l1Core core va = s.l1Core core va := by
  simp only [State.l1Core, hf, h.offline]

/-! ## What a line and a leaf cover -/

theorem levelIndex_leaf (l j va vb : Nat) (hl : l ≤ 2) (hj : l ≤ j) (h : va / 2 ^ pageShift l = vb / 2 ^ pageShift l) :
    levelIndex j va = levelIndex j vb := by
  have g : ∀ hi lo, pageShift l ≤ lo → bitsN va hi lo = bitsN vb hi lo := by
    intro hi lo hlo
    unfold bitsN
    congr 1
    obtain ⟨k, rfl⟩ := Nat.exists_eq_add_of_le hlo
    rw [Nat.pow_add, ← Nat.div_div_eq_div_mul, ← Nat.div_div_eq_div_mul, h]
  unfold levelIndex
  split
  · next hz =>
    apply g
    have : l = 0 := by omega
    simp [this, pageShift]
  · apply g
    unfold pageShift
    split
    · omega
    · split <;> omega

/-- Addresses under one leaf walk to it. -/
theorem walkFrom_leaf (m : List Host.Cell) (n table va vb : Nat) (l : Leaf) (h : walkFrom m n table va = .leaf l)
    (e : va / 2 ^ pageShift l.level = vb / 2 ^ pageShift l.level) : walkFrom m n table vb = .leaf l ∧ l.level ≤ 2 ∧ l.level ≤ n := by
  induction n generalizing table with
  | zero =>
    simp only [walkFrom] at h
    split at h
    · cases h
    · split at h
      · cases h
      · next h1 h2 =>
        cases h
        refine ⟨?_, by simp, by simp⟩
        rw [walkFrom, ← levelIndex_leaf 0 0 va vb (by omega) (by omega) e]
        simp [h1, h2]
  | succ n ih =>
    rw [walkFrom] at h
    split at h
    · cases h
    · split at h
      · cases h
      · next h1 h2 =>
        split at h
        · next h3 =>
          cases h
          have hb : n + 1 ≤ 2 := by
            simp only [pteBad, Bool.or_eq_true, not_or] at h2
            have := h2.1.1.1.1.1.2
            simp only [h3, Bool.true_and, decide_eq_true_eq] at this
            omega
          refine ⟨?_, hb, by simp⟩
          rw [walkFrom]
          rw [← levelIndex_leaf (n + 1) (n + 1) va vb hb (by omega) e]
          simp only [h1, h2, h3, if_true, if_false, Bool.false_eq_true]
        · next h3 =>
          obtain ⟨i1, i2, i3⟩ := ih _ h
          refine ⟨?_, i2, by omega⟩
          rw [walkFrom]
          rw [← levelIndex_leaf l.level (n + 1) va vb i2 (by omega) e]
          simp only [h1, h2, h3, if_false, Bool.false_eq_true]
          exact i1

theorem walk_leaf {s : State} {aslot va vb : Nat} {l : Leaf} (h : s.walk aslot va = .leaf l)
    (e : va / 2 ^ pageShift l.level = vb / 2 ^ pageShift l.level) : s.walk aslot vb = .leaf l := by
  unfold State.walk at h ⊢
  split at h
  · exact (walkFrom_leaf _ _ _ _ _ _ h e).1
  · cases h

theorem pageShift_ge (l : Nat) : 16 ≤ pageShift l := by unfold pageShift; split <;> [skip; split] <;> omega

theorem page_of_line {va vb : Nat} (n : Nat) (hn : 7 ≤ n) (h : va / 128 = vb / 128) : va / 2 ^ n = vb / 2 ^ n := by
  obtain ⟨k, rfl⟩ := Nat.exists_eq_add_of_le hn
  rw [Nat.pow_add, ← Nat.div_div_eq_div_mul, ← Nat.div_div_eq_div_mul]
  exact congrArg (· / 2 ^ k) h

theorem ptePa_128 (e : Nat) : ptePa e % 128 = 0 := by unfold ptePa; omega

/-- Physical addresses of one line have the line's place in common. -/
theorem Leaf.pa_line (l : Leaf) {va vb : Nat} (h : va / 128 = vb / 128) : l.pa va / 128 = l.pa vb / 128 ∧ l.pa va % 128 = va % 128 := by
  have g := pageShift_ge l.level
  have hp := page_of_line (pageShift l.level) (by omega) h
  have a := ptePa_128 l.pte
  obtain ⟨k, hk⟩ := Nat.exists_eq_add_of_le (show 7 ≤ pageShift l.level by omega)
  have e : 2 ^ pageShift l.level = 128 * 2 ^ k := by rw [hk, Nat.pow_add]
  have m1 : ∀ x, x % (128 * 2 ^ k) / 128 = x / 128 % 2 ^ k := fun x => Nat.mod_mul_right_div_self x 128 (2 ^ k)
  have m2 : ∀ x, x % (128 * 2 ^ k) % 128 = x % 128 := fun x => Nat.mod_mul_right_mod x 128 (2 ^ k)
  unfold Leaf.pa
  rw [e]
  have x1 := m1 va
  have x2 := m1 vb
  have y1 := m2 va
  rw [h] at x1
  constructor <;> omega

theorem leafFault_line (s : State) (aslot : Nat) (k : AKind) (l : Leaf) {va vb : Nat} (h : va / 128 = vb / 128) :
    leafFault s aslot va k l = leafFault s aslot vb k l := by
  obtain ⟨hp, -⟩ := l.pa_line h
  have d : ∀ n, 7 ≤ n → l.pa va / 2 ^ n = l.pa vb / 2 ^ n := fun n hn => page_of_line n hn hp
  have e1 : isExt (l.pa va) = isExt (l.pa vb) := by
    have := d 51 (by omega)
    simp only [isExt, bitN, Nat.testBit_eq_decide_div_mod_eq, this]
  have e2 : s.backed (l.pa va) = s.backed (l.pa vb) := by
    have := d 16 (by omega)
    have h1 : decide (l.pa va < dramTop) = decide (l.pa vb < dramTop) := by unfold dramTop; apply decide_eq_decide.mpr; omega
    simp only [State.backed, this, h1]
  have e3 : l.pa va / 65536 = l.pa vb / 65536 := d 16 (by omega)
  simp only [leafFault, e1, e2, e3]

/-- What the tables say of one address of a line they say of each. -/
theorem l1Plain_line {s : State} {aslot va vb line : Nat} {k : AKind} {x y : Bool} (h : va / 128 = vb / 128)
    (p : s.l1Plain aslot va k ⟨line * 128 + va % 128, false, false, x⟩ = true) :
    s.l1Plain aslot vb k ⟨line * 128 + vb % 128, false, false, y⟩ = true := by
  unfold State.l1Plain at p ⊢
  split at p
  · next l hw =>
    have w : s.walk aslot vb = .leaf l := walk_leaf hw (page_of_line _ (by have := pageShift_ge l.level; omega) h)
    simp only [w]
    simp only [Bool.and_eq_true, beq_iff_eq] at p ⊢
    obtain ⟨⟨⟨⟨p1, p2⟩, p3⟩, p4⟩, p5⟩ := p
    refine ⟨⟨⟨⟨?_, ?_⟩, p3⟩, p4⟩, p5⟩
    · have a := l.pa_line h
      have b := (l.pa_line h.symm).2
      omega
    · rw [← leafFault_line s aslot k l h]; exact p2
  · cases p

/-- What `Reaches` says of the L1: an address that an access reaches, at a page that is cached. -/
theorem reaches_l1Plain {s : State} {aslot va size : Nat} {k j : AKind} {l : Leaf} {x : Bool} (r : Reaches s aslot va size k l)
    (nc : pteNc l.pte = false) (hj : leafFault s aslot va j l = none) (hw : j.writes = true → k.writes = true) :
    s.l1Plain aslot va j ⟨l.pa va / 128 * 128 + va % 128, false, false, x⟩ = true := by
  unfold State.l1Plain
  simp only [r.walk, hj, r.here, nc]
  have a := (l.pa_line (rfl : va / 128 = va / 128)).2
  have b : l.pa va = l.pa va / 128 * 128 + va % 128 := by omega
  have u' : j.used (rdNum s.mem l.ent 8) = rdNum s.mem l.ent 8 := by
    have u := r.used
    unfold AKind.used
    generalize rdNum s.mem l.ent 8 = e at u ⊢
    generalize 2 ^ 57 = p at u ⊢
    generalize 2 ^ 56 = q at u ⊢
    by_cases c : j.writes = true
    · rw [if_pos (hw c)] at u
      rw [if_pos c]
      exact u
    · by_cases d : k.writes = true
      · simp only [c, d, if_true, if_false, Bool.false_eq_true, Nat.or_zero] at u ⊢
        apply Nat.eq_of_testBit_eq
        intro i
        have := congrArg (fun n => n.testBit i) u
        simp only [Nat.testBit_or] at this ⊢
        revert this
        cases e.testBit i <;> cases p.testBit i <;> cases q.testBit i <;> decide
      · rw [if_neg d] at u
        rw [if_neg c]
        exact u
  rw [u']
  simp only [Bool.and_eq_true, beq_iff_eq, Option.isNone_none, Bool.not_false, and_true]
  exact b

theorem leafFault_load {s : State} {aslot va : Nat} {k : AKind} {l : Leaf} (h : leafFault s aslot va k l = none) :
    leafFault s aslot va .load l = none := by
  unfold leafFault at h ⊢
  dsimp only at h ⊢
  split at h
  · cases h
  · next h1 =>
    split at h
    · cases h
    · next h2 => rw [if_neg h1, if_neg h2]; rfl

theorem leafFault_fetch {s : State} {aslot va : Nat} {k : AKind} {l : Leaf} (h : leafFault s aslot va k l = none) (x : pteX l.pte = true) :
    leafFault s aslot va .fetch l = none := by
  unfold leafFault at h ⊢
  dsimp only at h ⊢
  split at h
  · cases h
  · next h1 =>
    split at h
    · cases h
    · next h2 => rw [if_neg h1, if_neg h2]; simp [x, AKind.writes]

/-! ## Keeping lines and leaves in step with the tables -/

/-- Every line of `s'` stands, under its tag and with its rights, in `s`, or has no sector and no right yet. -/
def LinesFrom (s s' : State) : Prop :=
  ∀ i, ∀ x ∈ (s'.core i).l1, (x.2.valid = 0 ∧ x.2.w = false ∧ x.2.x = false) ∨
    ∃ y ∈ (s.core i).l1, y.1 = x.1 ∧ y.2.slot = x.2.slot ∧ y.2.gen = x.2.gen ∧ y.2.vtag = x.2.vtag ∧ y.2.w = x.2.w ∧ y.2.x = x.2.x ∧
      (x.2.valid = 0 ∨ x.2.valid = y.2.valid)

theorem linesFrom_refl (s : State) : LinesFrom s s := fun _ x hx => .inr ⟨x, hx, rfl, rfl, rfl, rfl, rfl, rfl, .inr rfl⟩

theorem linesFrom_trans {a b c : State} (h : LinesFrom a b) (k : LinesFrom b c) : LinesFrom a c := by
  intro i x hx
  rcases k i x hx with e | ⟨y, hy, y0, y1, y2, y3, y4, y5, y6⟩
  · exact .inl e
  · rcases h i y hy with ⟨e0, e1, e2⟩ | ⟨z, hz, z0, z1, z2, z3, z4, z5, z6⟩
    · refine .inl ⟨?_, y4 ▸ e1, y5 ▸ e2⟩
      rcases y6 with e | e
      · exact e
      · rw [e, e0]
    · refine .inr ⟨z, hz, z0.trans y0, z1.trans y1, z2.trans y2, z3.trans y3, z4.trans y4, z5.trans y5, ?_⟩
      rcases y6 with e | e
      · exact .inl e
      · rw [e]; exact z6

/-- A change of requests alone. -/
theorem linesFrom_cores {s s' : State} (h : s'.cores = s.cores) : LinesFrom s s' := by
  intro i x hx
  have e : s'.core i = s.core i := by simp only [State.core, h]
  rw [e] at hx
  exact linesFrom_refl s i x hx

theorem freshTlb_keep {s s' : State} {core aslot : Nat} (f : FreshTlb s core aslot) (h : ReadStep s s') (hc : s'.clusters = s.clusters)
    (hl : LinesFrom s s') : FreshTlb s' core aslot := by
  have cl : ∀ c, s'.cluster c = s.cluster c := fun c => by simp only [State.cluster, hc]
  refine ⟨?_, ?_, ?_⟩
  · intro va hv e he hcov
    rw [cl] at he
    rw [h.genOf] at hcov
    rw [h.walk]
    exact f.leaves va hv e he hcov
  · intro va hv i hi x hx h1 h2 h3
    rw [h.l1Core (fun c => by rw [cl])] at hi
    rw [h.genOf] at h2
    rcases hl i x hx with ⟨e0, e1, e2⟩ | ⟨y, hy, e0, e1, e2, e3, e4, e5, e6⟩
    · simp [e0, e1, e2]
    · have g := f.lines va hv i hi y hy (e1.trans h1) (e2.trans h2) (e3.trans h3)
      simp only [h.l1Plain]
      rw [e0, e4, e5] at g
      refine ⟨fun z => g.1 ?_, g.2⟩
      rcases e6 with e | e
      · simp [e] at z
      · rwa [e] at z
  · intro va hv e he
    rw [h.tablePath] at he
    exact h.partials _ (f.tables va hv e he)

/-! ## Tokens and lines -/

theorem partials_of_l1 {s s' : State} {line : Nat} (h : ∀ c ∈ s'.cores, ∀ p ∈ c.2.partials, ∃ c' ∈ s.cores, p ∈ c'.2.partials) :
    s.linePartials line = [] → s'.linePartials line = [] := by
  intro e
  simp only [State.linePartials, List.flatMap_eq_nil_iff, List.filter_eq_nil_iff] at e ⊢
  intro c hc p hp
  obtain ⟨c', hc', hp'⟩ := h c hc p hp
  exact e c' hc' p hp'

theorem mem_aput {α : Type} (m : Map α) (k : Nat) (v : α) (x : Nat × α) (h : x ∈ aput m k v) : x = (k, v) ∨ x ∈ m := by
  induction m with
  | nil => simpa [aput] using h
  | cons y m ih =>
    obtain ⟨a, w⟩ := y
    simp only [aput] at h
    split at h
    · simpa using h
    · split at h
      · rcases List.mem_cons.mp h with e | e
        · exact .inl e
        · exact .inr (by simp [e])
      · rcases List.mem_cons.mp h with e | e
        · exact .inr (by simp [e])
        · rcases ih e with e | e
          · exact .inl e
          · exact .inr (by simp [e])

theorem aget_mem {α : Type} (m : Map α) (k : Nat) (v : α) (h : aget m k = some v) : (k, v) ∈ m := by
  induction m with
  | nil => cases h
  | cons y m ih =>
    obtain ⟨a, w⟩ := y
    simp only [aget] at h
    split at h
    · next e => cases h; simp [e]
    · simp [ih h]

/-- A change of L1 lines alone is a `ReadStep`: of every core that is listed. -/
theorem mapL1_step (s : State) (f : Core → Map L1Line) :
    ReadStep s { s with cores := s.cores.map fun c => (c.1, { c.2 with l1 := f c.2 }) } := by
  refine ⟨?_, rfl, fun line => ?_⟩
  · intro i
    have h := aget_map (fun _ (c : Core) => { c with l1 := f c }) s.cores i
    simp only [State.core]
    rw [h]
    cases aget s.cores i <;> rfl
  · apply partials_of_l1
    intro c hc p hp
    obtain ⟨c', hc', rfl⟩ := List.mem_map.mp hc
    exact ⟨c', hc', hp⟩

theorem mapL1_l1 (s : State) (f : Core → Map L1Line) (h0 : f Core.init = []) (i : Nat) :
    (({ s with cores := s.cores.map fun c => (c.1, { c.2 with l1 := f c.2 }) } : State).core i).l1 = f (s.core i) := by
  have h := aget_map (fun _ (c : Core) => { c with l1 := f c }) s.cores i
  simp only [State.core]
  rw [h]
  cases aget s.cores i
  · exact h0.symm
  · rfl

/-- Of one core. -/
theorem modL1_step (s : State) (i : Nat) (f : Core → Map L1Line) : ReadStep s (s.modCore i fun c => { c with l1 := f c }) := by
  refine ⟨?_, rfl, fun line => ?_⟩
  · intro j
    rw [core_modCore]
    split
    · subst_vars; rfl
    · rfl
  · apply partials_of_l1
    intro c hc p hp
    rcases mem_aput _ _ _ _ hc with rfl | h
    · simp only at hp
      unfold State.core at hp
      cases e : aget s.cores i with
      | none => simp [e, Core.init] at hp
      | some c => exact ⟨(i, c), aget_mem _ _ _ e, by simpa [e] using hp⟩
    · exact ⟨c, h, hp⟩

theorem yieldTokens_eq (s : State) (line : Nat) : s.yieldTokens line = { s with cores := s.cores.map fun c => (c.1, { c.2 with
    l1 := match aget c.2.l1 line with
      | some e => if e.tokens > 1 then aput c.2.l1 line { e with tokens := 1, dirty := false } else c.2.l1
      | none => c.2.l1 }) } := by
  unfold State.yieldTokens
  congr 1
  apply List.map_congr_left
  intro c _
  cases he : aget c.2.l1 line with
  | none => rfl
  | some e => by_cases g : e.tokens > 1 <;> simp [g]

theorem yieldTokens_step (s : State) (line : Nat) : ReadStep s (s.yieldTokens line) := by
  rw [yieldTokens_eq]
  exact mapL1_step s fun c => match aget c.l1 line with
    | some e => if e.tokens > 1 then aput c.l1 line { e with tokens := 1, dirty := false } else c.l1
    | none => c.l1

theorem yieldTokens_lines (s : State) (line : Nat) : LinesFrom s (s.yieldTokens line) := by
  intro i x hx
  rw [yieldTokens_eq, mapL1_l1 s (fun c => match aget c.l1 line with
    | some e => if e.tokens > 1 then aput c.l1 line { e with tokens := 1, dirty := false } else c.l1
    | none => c.l1) rfl] at hx
  split at hx
  · next e he =>
    split at hx
    · rcases mem_aput _ _ _ _ hx with rfl | h
      · exact .inr ⟨(line, e), aget_mem _ _ _ he, rfl, rfl, rfl, rfl, rfl, rfl, .inr rfl⟩
      · exact linesFrom_refl s i x h
    · exact linesFrom_refl s i x hx
  · exact linesFrom_refl s i x hx

theorem dropLine_step (s : State) (line : Nat) : ReadStep s (s.dropLine line) := mapL1_step s fun c => adel c.l1 line

theorem mem_adel {α : Type} (m : Map α) (k : Nat) (x : Nat × α) (h : x ∈ adel m k) : x ∈ m := by
  unfold adel at h
  exact (List.mem_filter.mp h).1

theorem dropLine_lines (s : State) (line : Nat) : LinesFrom s (s.dropLine line) := by
  intro i x hx
  have e : ((s.dropLine line).core i).l1 = adel (s.core i).l1 line := mapL1_l1 s (fun c => adel c.l1 line) rfl i
  rw [e] at hx
  exact linesFrom_refl s i x (mem_adel _ _ _ hx)

theorem l1Put_step (s : State) (h line : Nat) (e : L1Line) : ReadStep s (s.l1Put h line e) := modL1_step s h _

/-- A change of requests for tokens alone. -/
theorem requests_step (s : State) (p : List PReq) (m : Map Nat) : ReadStep s { s with preqs := p, served := m } :=
  ⟨fun _ => rfl, rfl, fun _ h => h⟩

theorem l1Put_lines {s s1 : State} (h line : Nat) (e : L1Line) (k : LinesFrom s s1)
    (he : (e.valid = 0 ∧ e.w = false ∧ e.x = false) ∨ ∃ y ∈ (s.core h).l1, y.1 = line ∧ y.2.slot = e.slot ∧ y.2.gen = e.gen ∧
      y.2.vtag = e.vtag ∧ y.2.w = e.w ∧ y.2.x = e.x ∧ (e.valid = 0 ∨ e.valid = y.2.valid)) : LinesFrom s (s1.l1Put h line e) := by
  intro i x hx
  unfold State.l1Put at hx
  rw [core_modCore] at hx
  split at hx
  · next ei =>
    subst ei
    rcases mem_aput _ _ _ _ hx with rfl | m
    · exact he
    · refine k i x ?_
      split at m
      · exact m
      · exact List.mem_of_mem_eraseIdx m
  · exact k i x hx

/-- Tokens that are given: lines of a core, without a sector or a right that they did not have. -/
theorem giveTokens_step (s : State) (core line : Nat) (write : Bool) :
    ReadStep s (s.giveTokens core line write) ∧ (s.giveTokens core line write).clusters = s.clusters ∧
      LinesFrom s (s.giveTokens core line write) := by
  unfold State.giveTokens
  split
  · exact ⟨ReadStep.refl s, rfl, linesFrom_refl s⟩
  · next k hk =>
    dsimp only
    have he : ∀ n : Nat, let e0 := (aget (s.core core).l1 line).getD ⟨k, s.genOf k, 0, 0, false, 0, none, false, false⟩
        let e : L1Line := { e0 with valid := if e0.epoch.isNone then e0.valid else 0, epoch := none, tokens := n }
        (e.valid = 0 ∧ e.w = false ∧ e.x = false) ∨ ∃ y ∈ (s.core core).l1, y.1 = line ∧ y.2.slot = e.slot ∧ y.2.gen = e.gen ∧
          y.2.vtag = e.vtag ∧ y.2.w = e.w ∧ y.2.x = e.x ∧ (e.valid = 0 ∨ e.valid = y.2.valid) := by
      intro n
      cases h : aget (s.core core).l1 line with
      | none => exact .inl ⟨rfl, rfl, rfl⟩
      | some e =>
        refine .inr ⟨(line, e), aget_mem _ _ _ h, rfl, rfl, rfl, rfl, rfl, rfl, ?_⟩
        dsimp only [Option.getD_some]
        split
        · exact .inr rfl
        · exact .inl rfl
    split
    · exact ⟨(dropLine_step s line).trans (l1Put_step _ _ _ _), rfl, l1Put_lines _ _ _ (dropLine_lines s line) (he 1025)⟩
    · exact ⟨(yieldTokens_step s line).trans (l1Put_step _ _ _ _), rfl, l1Put_lines _ _ _ (yieldTokens_lines s line) (he _)⟩

/-- What only moves tokens: `ReadStep`, the same leaves, no line or right that was not there. -/
structure TokenStep (s s' : State) : Prop where
  step  : ReadStep s s'
  tlb   : s'.clusters = s.clusters
  lines : LinesFrom s s'

theorem TokenStep.refl (s : State) : TokenStep s s := ⟨ReadStep.refl s, rfl, linesFrom_refl s⟩

theorem giveTokens_tokens (s : State) (core line : Nat) (write : Bool) : TokenStep s (s.giveTokens core line write) :=
  have h := giveTokens_step s core line write
  ⟨h.1, h.2.1, h.2.2⟩

theorem TokenStep.trans {a b c : State} (h : TokenStep a b) (k : TokenStep b c) : TokenStep a c :=
  ⟨h.step.trans k.step, k.tlb.trans h.tlb, linesFrom_trans h.lines k.lines⟩

theorem yieldTokens_tokens (s : State) (line : Nat) : TokenStep s (s.yieldTokens line) :=
  ⟨yieldTokens_step s line, rfl, yieldTokens_lines s line⟩

theorem dropLine_tokens (s : State) (line : Nat) : TokenStep s (s.dropLine line) := ⟨dropLine_step s line, rfl, dropLine_lines s line⟩

theorem homeToken_tokens (s : State) (pa : Nat) : TokenStep s (s.homeToken pa) := by
  unfold State.homeToken
  split
  · exact .refl s
  · exact yieldTokens_tokens s _

theorem noteServed_tokens (s : State) (core line : Nat) : TokenStep s (s.noteServed core line) :=
  ⟨requests_step s _ _, rfl, linesFrom_refl s⟩

theorem arbitrate_tokens (s : State) (line : Nat) : TokenStep s (s.arbitrate line) := by
  unfold State.arbitrate
  split
  · exact .refl s
  · dsimp only
    split
    · refine .trans ?_ (giveTokens_tokens _ _ _ _)
      refine .trans ?_ (noteServed_tokens _ _ _)
      exact ⟨requests_step s _ _, rfl, linesFrom_refl s⟩
    · exact ⟨requests_step s _ _, rfl, linesFrom_refl s⟩

theorem askTokens_tokens (s : State) (core line : Nat) : TokenStep s (s.askTokens core line) := by
  have h : ∀ n (s : State), TokenStep s (iterate (fun s => if s.outranked core line then s.arbitrate line else s) n s) := by
    intro n
    induction n with
    | zero => intro s; exact .refl s
    | succ n ih =>
      intro s
      refine .trans ?_ (ih _)
      dsimp only
      split
      · exact arbitrate_tokens s line
      · exact .refl s
  exact (h _ s).trans (noteServed_tokens _ _ _)

theorem tokRead_step (s : State) (core aslot va : Nat) (a : Acc) : ReadStep s (s.tokRead core aslot va a) := by
  unfold State.tokRead
  split
  · exact ReadStep.refl s
  · dsimp only
    split
    · exact yieldTokens_step s _
    · split
      · exact ((askTokens_tokens s _ _).step.trans (yieldTokens_step _ _)).trans (l1Put_step _ _ _ _)
      · exact l1Put_step _ _ _ _

theorem tokWrite_step (s : State) (core aslot va : Nat) (a : Acc) : ReadStep s (s.tokWrite core aslot va a) := by
  unfold State.tokWrite
  split
  · exact ReadStep.refl s
  · dsimp only
    split
    · exact dropLine_step s _
    · split
      · exact (dropLine_step s _).trans (l1Put_step _ _ _ _)
      · exact ((askTokens_tokens s _ _).step.trans (dropLine_step _ _)).trans (l1Put_step _ _ _ _)

theorem tokHome_step (s : State) (pa : Nat) : ReadStep s (s.tokHome pa) := by
  unfold State.tokHome
  split
  · exact ReadStep.refl s
  · exact dropLine_step s _

theorem TokenStep.fresh {s s' : State} {core aslot : Nat} (h : TokenStep s s') (f : FreshTlb s core aslot) : FreshTlb s' core aslot :=
  freshTlb_keep f h.step h.tlb h.lines

/-! ## Translation -/

theorem cluster_modCluster (s : State) (i j : Nat) (f : Cluster → Cluster) :
    (s.modCluster i f).cluster j = if j = i then f (s.cluster i) else s.cluster j := by
  by_cases h : j = i <;> simp [State.cluster, State.modCluster, h]

theorem rdNum_lt (m : List Host.Cell) (a n : Nat) : rdNum m a n < 256 ^ n := by
  have h : ∀ (l : List Byte), ofBytes l < 256 ^ l.length := by
    intro l
    induction l with
    | nil => simp [ofBytes]
    | cons b l ih =>
      have := b.isLt
      simp only [ofBytes, List.length_cons, Nat.pow_succ]
      omega
  have g : ∀ n a, (rdBytes m a n).length = n := by
    intro n
    induction n with
    | zero => intro a; rfl
    | succ n ih => intro a; simp [rdBytes, ih]
  have := h (rdBytes m a n)
  rwa [g] at this

theorem walkFrom_lt (m : List Host.Cell) (n table va : Nat) (l : Leaf) (h : walkFrom m n table va = .leaf l) : l.pte < 2 ^ 64 := by
  induction n generalizing table with
  | zero =>
    simp only [walkFrom] at h
    split at h
    · cases h
    · split at h
      · cases h
      · cases h; exact rdNum_lt _ _ 8
  | succ n ih =>
    simp only [walkFrom] at h
    split at h
    · cases h
    · split at h
      · cases h
      · split at h
        · cases h; exact rdNum_lt _ _ 8
        · exact ih _ h

theorem walk_lt (s : State) (aslot va : Nat) (l : Leaf) (h : s.walk aslot va = .leaf l) : l.pte < 2 ^ 64 := by
  unfold State.walk at h
  split at h
  · exact walkFrom_lt _ _ _ _ _ h
  · cases h

/-- Entering the leaf that a walk finds. -/
theorem enter_fresh {s : State} {core aslot va : Nat} {l : Leaf} (f : FreshTlb s core aslot) (h : s.walk aslot va = .leaf l) :
    let s' := s.modCluster (coreCluster core) fun c =>
      { c with tlb := ⟨aslot, va / 65536, s.genOf aslot, BitVec.ofNat 64 l.pte, l.level, l.ent⟩ :: c.tlb }
    ReadStep s s' ∧ FreshTlb s' core aslot := by
  intro s'
  have st : ReadStep s s' := ⟨fun _ => rfl, rfl, fun _ h => h⟩
  refine ⟨st, ⟨?_, ?_, f.tables⟩⟩
  · intro vb hv e he hcov
    rw [cluster_modCluster, if_pos rfl] at he
    rcases List.mem_cons.mp he with rfl | he
    · refine ⟨l, ?_, ?_, rfl, rfl⟩
      · rw [st.walk]
        simp only [TlbEnt.covers, Bool.and_eq_true, beq_iff_eq] at hcov
        refine walk_leaf h ?_
        rw [← hcov.2]
        have g := pageShift_ge l.level
        obtain ⟨k, hk⟩ := Nat.exists_eq_add_of_le g
        rw [hk, Nat.pow_add, ← Nat.div_div_eq_div_mul, ← Nat.div_div_eq_div_mul]
        congr 1
        omega
      · simp only [BitVec.toNat_ofNat]
        rw [Nat.mod_eq_of_lt (walk_lt _ _ _ _ h)]
    · exact f.leaves vb hv e he hcov
  · intro vb hv i hi
    refine f.lines vb hv i ?_
    rw [← hi]
    refine (st.l1Core (fun c => ?_) core vb).symm
    rw [cluster_modCluster]
    split
    · next e => rw [e]
    · rfl

theorem combineTables_plain (s : State) (aslot va : Nat) (h : ∀ e ∈ s.tablePath aslot va, s.linePartials (e / 128) = []) :
    TokenStep s (s.combineTables aslot va) := by
  have one : ∀ l : List Nat, (∀ e ∈ l, s.linePartials (e / 128) = []) → l.foldl State.combine s = s := by
    intro l
    induction l with
    | nil => intro _; rfl
    | cons e l ih =>
      intro hl
      have : s.combine e = s := by simp [State.combine, hl e (by simp)]
      rw [List.foldl_cons, this]
      exact ih fun x hx => hl x (by simp [hx])
  have it : ∀ n, iterate (fun s => (s.tablePath aslot va).foldl State.combine s) n s = s := by
    intro n
    induction n with
    | zero => rfl
    | succ n ih => rw [iterate, one _ h]; exact ih
  have home : ∀ (l : List Nat) (s : State), TokenStep s (l.foldl State.homeToken s) := by
    intro l
    induction l with
    | nil => intro s; exact .refl s
    | cons e l ih => intro s; exact (homeToken_tokens s e).trans (ih _)
  unfold State.combineTables
  rw [it 5]
  exact home _ s

/-- The entry of the leaf lies on the way to it. -/
theorem walkFrom_ent (m : List Host.Cell) (n table va : Nat) (l : Leaf) (h : walkFrom m n table va = .leaf l) :
    l.ent ∈ walkPath m n table va := by
  induction n generalizing table with
  | zero =>
    simp only [walkFrom] at h
    split at h
    · cases h
    · split at h
      · cases h
      · cases h; simp [walkPath]
  | succ n ih =>
    simp only [walkFrom] at h
    split at h
    · cases h
    · next h1 =>
      split at h
      · cases h
      · next h2 =>
        split at h
        · cases h; simp [walkPath]
        · next h3 =>
          have v : pteKind (rdNum m (table + 8 * levelIndex (n + 1) va) 8) = 0 := by
            have k2 : ¬pteKind (rdNum m (table + 8 * levelIndex (n + 1) va) 8) ≥ 2 := by
              intro c
              exact h2 (by simp [pteBad, c])
            simp only [beq_iff_eq] at h3
            omega
          simp only [walkPath]
          refine List.mem_cons_of_mem _ ?_
          rw [if_pos (by simp_all)]
          exact ih _ h

theorem walk_ent {s : State} {aslot va : Nat} {l : Leaf} (h : s.walk aslot va = .leaf l) : l.ent ∈ s.tablePath aslot va := by
  unfold State.walk at h
  unfold State.tablePath
  split at h
  · next a ha => rw [ha]; exact walkFrom_ent _ _ _ _ _ h
  · cases h

theorem pickOld_nil (s : State) (l : List TlbEnt) (h : l = []) : s.pickOld l = (s, none) := by subst h; rfl

/-- A lookup finds the leaf of the walk while the TLB holds no older one. -/
theorem lookup_fresh {s : State} {core aslot va : Nat} {l : Leaf} (f : FreshTlb s core aslot) (hv : va < 2 ^ 57)
    (h : s.walk aslot va = .leaf l) :
    ∃ s', s.lookup core aslot va = (s', .leaf l) ∧ ReadStep s s' ∧ FreshTlb s' core aslot := by
  have same : ∀ e ∈ (s.cluster (coreCluster core)).tlb, e.covers aslot (s.genOf aslot) va = true → e.same (.leaf l) = true := by
    intro e he hc
    obtain ⟨l', h1, h2, h3, h4⟩ := f.leaves va hv e he hc
    rw [h] at h1
    cases h1
    simp [TlbEnt.same, h2, h3, h4]
  unfold State.lookup
  dsimp only
  rw [pickOld_nil, h]
  · dsimp only
    split
    · exact ⟨s, rfl, ReadStep.refl s, f⟩
    · unfold State.walkIn
      have k := combineTables_plain s aslot va (f.tables va hv)
      have h' := h
      rw [← k.step.walk] at h'
      dsimp only
      rw [h']
      obtain ⟨a, b⟩ := enter_fresh (k.fresh f) h'
      exact ⟨_, rfl, k.step.trans a, b⟩
  · rw [h, List.filter_eq_nil_iff]
    intro e he
    obtain ⟨he, hc⟩ := List.mem_filter.mp he
    simp [same e he hc]

/-- Translation of an access that reaches its leaf. -/
theorem translate_reaches {s : State} {core aslot va size : Nat} {k : AKind} {l : Leaf} (f : FreshTlb s core aslot)
    (r : Reaches s aslot va size k l) :
    ∃ s', s.translate core aslot va k = (s', .ok (l.acc va)) ∧ ReadStep s s' ∧ FreshTlb s' core aslot := by
  obtain ⟨s', h, st, f'⟩ := lookup_fresh f r.canon r.walk
  refine ⟨s', ?_, st, f'⟩
  unfold State.translate
  have used : s'.setUsed k l = s' := by
    have hc : s'.combine l.ent = s' := by
      have e := f'.tables va r.canon l.ent (by rw [st.tablePath]; exact walk_ent r.walk)
      simp [State.combine, e]
    have hu : k.used (rdNum s.mem l.ent 8) = rdNum s.mem l.ent 8 := r.used
    unfold State.setUsed
    simp only [hc, st.mem, hu, BEq.rfl, Bool.true_or, if_true]
  simp [h, st.leafFault, r.allow, r.here, used]

/-- An access through the L1 that reaches its leaf comes to the leaf's address, and what the L1 learns of it is what the leaf says. -/
theorem reach_reaches {s : State} {core aslot va size : Nat} {k : AKind} {l : Leaf} (f : FreshTlb s core aslot)
    (r : Reaches s aslot va size k l) :
    ∃ s' a, s.reach core aslot va k = (s', .ok a) ∧ ReadStep s s' ∧ FreshTlb s' core aslot ∧ a.pa = l.pa va ∧
      (a.nc = false → pteNc l.pte = false ∧ (a.x = true → leafFault s aslot va .fetch l = none)) := by
  unfold State.reach
  split
  · obtain ⟨s', h, st, f'⟩ := translate_reaches f r
    exact ⟨s', _, h, st, f', rfl, fun h => ⟨h, fun x => leafFault_fetch r.allow x⟩⟩
  · next a ha =>
    unfold State.l1Hit at ha
    obtain ⟨i, hi, hx⟩ := Option.bind_eq_some_iff.mp ha
    obtain ⟨x, hf, rfl⟩ := Option.map_eq_some_iff.mp hx
    have hm := List.mem_of_find?_eq_some hf
    have hp := List.find?_some hf
    simp only [Bool.and_eq_true, beq_iff_eq] at hp
    obtain ⟨⟨⟨⟨h1, h2⟩, h3⟩, h4⟩, h5⟩ := hp
    obtain ⟨p1, p2, p3⟩ := f.lines va r.canon i hi x hm h1 h2 h3
    replace p1 := p1 (by simpa using h4)
    have plain : s.l1Plain aslot va k ⟨x.1 * 128 + va % 128, false, false, x.2.x⟩ = true := by
      cases k with
      | load => exact p1
      | fetch => simp only [Bool.and_eq_true] at h5; exact p2 h5.1
      | store => simp only [Bool.and_eq_true] at h5; exact p3 h5.1
      | atomic => simp at h5
      | contrib => simp at h5
    rw [if_pos plain]
    refine ⟨s, _, rfl, ReadStep.refl s, f, ?_, ?_⟩
    · unfold State.l1Plain at p1
      simp only [r.walk, Bool.and_eq_true, beq_iff_eq] at p1
      exact p1.1.1.1.1.symm
    · intro _
      unfold State.l1Plain at p1 p2
      simp only [r.walk, Bool.and_eq_true, beq_iff_eq, Bool.not_eq_true', Option.isNone_iff_eq_none] at p1 p2
      exact ⟨p1.1.2, fun e => (p2 e).1.1.1.2⟩

/-- The checks before the walk pass (R260). -/
theorem checked_reaches {s : State} {aslot va size : Nat} {natural : Bool} {k : AKind} {l : Leaf} (r : Reaches s aslot va size k l)
    (hn : natural = true → va % size = 0) (g : State → State × Tr) : s.checked' va size natural g = g s := by
  unfold State.checked'
  have a : ¬va ≥ 2 ^ 57 := Nat.not_le.mpr r.canon
  have b : misaligned va size natural = false := by
    unfold misaligned
    have := r.sector
    cases natural
    · simp; omega
    · simp [hn rfl]; omega
  simp only [a, if_false, b, Bool.false_eq_true]

/-! ## Tokens of an access -/

/-- A line that the tables back may enter an L1. -/
theorem l1Put_fresh {s : State} {core aslot va line : Nat} (h : Nat) (e : L1Line) (f : FreshTlb s core aslot) (ht : e.vtag = va / 128)
    (hl : s.l1Plain aslot va .load ⟨line * 128 + va % 128, false, false, e.x⟩ = true)
    (hx : e.x = true → s.l1Plain aslot va .fetch ⟨line * 128 + va % 128, false, false, e.x⟩ = true)
    (hw : e.w = true → s.l1Plain aslot va .store ⟨line * 128 + va % 128, false, false, e.x⟩ = true) :
    FreshTlb (s.l1Put h line e) core aslot := by
  have st := l1Put_step s h line e
  refine ⟨?_, ?_, ?_⟩
  · intro vb hv x hxm hcov
    rw [st.genOf] at hcov
    rw [st.walk]
    exact f.leaves vb hv x hxm hcov
  · intro vb hv i hi x hxm h1 h2 h3
    rw [st.l1Core (fun _ => rfl)] at hi
    rw [st.genOf] at h2
    simp only [st.l1Plain]
    have old : x ∈ (s.core i).l1 → _ := fun m => f.lines vb hv i hi x m h1 h2 h3
    unfold State.l1Put at hxm
    rw [core_modCore] at hxm
    split at hxm
    · next ei =>
      subst ei
      rcases mem_aput _ _ _ _ hxm with rfl | m
      · have hv : va / 128 = vb / 128 := ht.symm.trans h3
        exact ⟨fun _ => l1Plain_line hv hl, fun y => l1Plain_line hv (hx y), fun y => l1Plain_line hv (hw y)⟩
      · apply old
        split at m
        · exact m
        · exact List.mem_of_mem_eraseIdx m
    · exact old hxm
  · intro vb hv x hxm
    rw [st.tablePath] at hxm
    exact st.partials _ (f.tables vb hv x hxm)

/-- A read keeps the L1 in step with the tables. -/
theorem tokRead_fresh {s : State} {core aslot va size : Nat} {k : AKind} {l : Leaf} {a : Acc} (f : FreshTlb s core aslot)
    (r : Reaches s aslot va size k l) (hp : a.pa = l.pa va)
    (ha : a.nc = false → pteNc l.pte = false ∧ (a.x = true → leafFault s aslot va .fetch l = none)) :
    FreshTlb (s.tokRead core aslot va a) core aslot := by
  unfold State.tokRead
  split
  · exact f
  · dsimp only
    split
    · exact (yieldTokens_tokens s _).fresh f
    · next i hi =>
      have nc : a.nc = false := by
        cases h : a.nc
        · rfl
        · simp [h] at hi
      obtain ⟨h1, h2⟩ := ha nc
      rw [nc] at hi
      simp only [Bool.false_eq_true, if_false] at hi
      have fin : ∀ s1 : State, TokenStep s s1 → FreshTlb (s1.l1Put i (a.pa / 128)
          (let e : L1Line := match aget (s1.core i).l1 (a.pa / 128) with
            | some e =>
              let old := if e.epoch.all (· == s1.epochOf aslot) then e.valid else 0
              let here := e.slot == aslot && e.gen == s1.genOf aslot && e.vtag == va / 128
              { e with slot := aslot, gen := s1.genOf aslot, vtag := va / 128, valid := old ||| sectorBit a.pa, w := e.w && here, x := a.x }
            | none => ⟨aslot, s1.genOf aslot, va / 128, sectorBit a.pa, false, 1, none, false, a.x⟩
          if s1.sealedLine a.pa then { e with tokens := 0, epoch := some (s1.epochOf aslot) }
            else { e with tokens := max e.tokens 1, epoch := none })) core aslot := by
        intro s1 st
        have f1 := st.fresh f
        refine l1Put_fresh (va := va) i _ f1 ?_ ?_ ?_ ?_
        · dsimp only; split <;> (split <;> rfl)
        · rw [st.step.l1Plain, hp]
          exact reaches_l1Plain r h1 (leafFault_load r.allow) (by simp [AKind.writes])
        · intro hx
          have : a.x = true := by
            revert hx
            dsimp only
            split <;> (split <;> exact id)
          rw [st.step.l1Plain, hp]
          exact reaches_l1Plain r h1 (h2 this) (by simp [AKind.writes])
        · intro hw
          have e3 : ∃ y ∈ (s1.core i).l1, y.1 = a.pa / 128 ∧ y.2.slot = aslot ∧ y.2.gen = s1.genOf aslot ∧ y.2.vtag = va / 128 ∧
              y.2.w = true := by
            revert hw
            dsimp only
            cases hg : aget (s1.core i).l1 (a.pa / 128) with
            | none => split <;> simp
            | some e =>
              have : ∀ b : Bool, (e.w && (e.slot == aslot && e.gen == s1.genOf aslot && e.vtag == va / 128)) = true →
                  ∃ y ∈ (s1.core i).l1, y.1 = a.pa / 128 ∧ y.2.slot = aslot ∧ y.2.gen = s1.genOf aslot ∧ y.2.vtag = va / 128 ∧
                    y.2.w = true := by
                intro _ h
                simp only [Bool.and_eq_true, beq_iff_eq] at h
                exact ⟨(a.pa / 128, e), aget_mem _ _ _ hg, rfl, h.2.1.1, h.2.1.2, h.2.2, h.1⟩
              split <;> exact this true
          obtain ⟨y, hy, y0, y1, y2, y3, y4⟩ := e3
          have hi1 : s1.l1Core core va = some i := by
            rw [st.step.l1Core (fun c => by simp only [State.cluster, st.tlb])]
            exact hi
          have := (f1.lines va r.canon i hi1 y hy y1 y2 y3).2.2 y4
          rw [← y0]
          exact l1Plain_line rfl this
      split
      · exact fin _ ((askTokens_tokens s _ _).trans (yieldTokens_tokens _ _))
      · exact fin s (.refl s)

/-- So does a store. -/
theorem tokWrite_fresh {s : State} {core aslot va size : Nat} {l : Leaf} {a : Acc} (f : FreshTlb s core aslot)
    (r : Reaches s aslot va size .store l) (hp : a.pa = l.pa va)
    (ha : a.nc = false → pteNc l.pte = false ∧ (a.x = true → leafFault s aslot va .fetch l = none)) :
    FreshTlb (s.tokWrite core aslot va a) core aslot := by
  unfold State.tokWrite
  split
  · exact f
  · dsimp only
    split
    · exact (dropLine_tokens s _).fresh f
    · next i hi =>
      have nc : a.nc = false := by
        cases h : a.nc
        · rfl
        · simp [h] at hi
      obtain ⟨h1, h2⟩ := ha nc
      have st : TokenStep s ((if (aget (s.core i).l1 (a.pa / 128)).elim 0 (·.tokens) == 1025 then s
          else s.askTokens i (a.pa / 128)).dropLine (a.pa / 128)) := by
        refine TokenStep.trans ?_ (dropLine_tokens _ _)
        split
        · exact .refl s
        · exact askTokens_tokens s _ _
      refine l1Put_fresh (va := va) i _ (st.fresh f) rfl ?_ ?_ ?_
      · rw [st.step.l1Plain, hp]
        exact reaches_l1Plain r h1 (leafFault_load r.allow) (by simp [AKind.writes])
      · intro hx
        rw [st.step.l1Plain, hp]
        exact reaches_l1Plain r h1 (h2 hx) (by simp [AKind.writes])
      · intro _
        rw [st.step.l1Plain, hp]
        exact reaches_l1Plain r h1 r.allow (fun h => h)

theorem combine_plain (s : State) (pa : Nat) (h : s.linePartials (pa / 128) = []) : s.combine pa = s := by
  simp [State.combine, h]

theorem physLoad_plain (s : State) (pa n : Nat) (h : s.linePartials (pa / 128) = []) : s.physLoad pa n = (s, rdNum s.mem pa n) := by
  simp [State.physLoad, combine_plain s pa h, State.rdMem]

/-! ## Loads -/

/-- The wave in execution, seen through a step that only moves tokens. -/
theorem ReadStep.w {s s' : State} (h : ReadStep s s') : s'.w = s.w := by
  simp only [State.w, h.focus, h.wave]

theorem ReadStep.x {s s' : State} (h : ReadStep s s') : s'.x = s.x := by
  simp only [State.x, h.focus, h.xp]

theorem raceTrap_off (s : State) (aslot me pa : Nat) : s.raceTrap false aslot me pa = none := by simp [State.raceTrap]

theorem raceCheck_off (s : State) (aslot me pc : Nat) (lanes : Mask) (va pa : Nat) (wr at' : Bool) (sc : Scope) :
    s.raceCheck false aslot me pc lanes va pa wr at' sc = (s, none) := by simp [State.raceCheck, raceTrap_off, State.raceNote]

/-- A load that meets nothing reads the bytes where it translates to. -/
theorem loadLane_plain {s : State} {lane : Nat} {lanes : Mask} {va size : Nat} {natural ld own : Bool} {scope : Scope} {l : Leaf}
    (f : FreshTlb s s.cur s.curAslot) (r : Reaches s s.curAslot va size .load l) (p : PlainSector s (l.pa va))
    (hn : natural = true → va % size = 0) (hc : s.w.commit = false) (hr : s.checked = false) (he : s.hasEntry lanes va = false)
    (hw : s.focus.accs = []) :
    ∃ s', s.loadLane lane lanes va size natural ld own scope = (s', .done (rdNum s.mem (l.pa va) size)) ∧ ReadStep s s' ∧
      FreshTlb s' s.cur s.curAslot := by
  obtain ⟨s1, a, h1, st1, f1, hp, ha⟩ := reach_reaches f r
  have p1 := st1.plain p
  have c1 : s1.w.commit = false := by rw [st1.w, hc]
  have ch : s1.checked = s.checked := by
    simp only [State.checked, st1.focus, st1.w, st1.xp, st1.launches]
  have cu : s1.cur = s.cur := by simp only [State.cur, st1.focus]
  have ca : s1.curAslot = s.curAslot := by simp only [State.curAslot, st1.focus, st1.w, st1.x]
  have st2 := tokRead_step s1 s1.cur s1.curAslot va a
  have f2 : FreshTlb (s1.tokRead s1.cur s1.curAslot va a) s.cur s.curAslot := by
    rw [cu, ca]
    exact tokRead_fresh f1 (st1.reaches r) hp fun h => ⟨(ha h).1, fun x => by rw [st1.leafFault]; exact (ha h).2 x⟩
  refine ⟨_, ?_, st1.trans st2, f2⟩
  have t : (if ld then s1.touch va else (s1, none)) = (s1, none) := by
    cases ld
    · rfl
    · simp [State.touch, c1]
  have p2 := (st2.plain p1).combined
  have m2 := st2.mem.trans st1.mem
  have c2 : (s1.tokRead s1.cur s1.curAslot va a).w.commit = false := by rw [st2.w, c1]
  have w : s.replied lane va = none := by simp [State.replied, hw]
  unfold State.loadLane State.ltrans
  rw [w, checked_reaches r hn]
  simp only [he, Bool.false_eq_true, if_false, h1, hp, p1.dram, p1.clean, Bool.and_false, t, ch, hr, raceCheck_off]
  rw [physLoad_plain _ _ _ p2]
  simp only [c2, Bool.and_false, Bool.false_eq_true, if_false, m2]

/-! ## After a reading instruction -/

/-- A reading instruction that finishes ends as a read: tokens, L1 lines and leaves apart, nothing but the wave changes. -/
theorem finish_read {s s2 : State} {core slot : Nat} {w w1 : Wave} (h : Runs s core slot w) (st : ReadStep s s2) (he : w1.ended = w.ended)
    (rbf : Bool) (m : BitVec 4) : EndsRead s core slot w1 ((s2.setWave core slot w1).finishWave rbf m) rbf := by
  have h2 : Runs s2 core slot w := by
    have hf := st.focus
    obtain ⟨h1, h2, h3, h4, h5, h6, h7, h8, h9, h10, h11, h12⟩ := h
    constructor <;> (try rw [hf]) <;> first | assumption | (rw [st.wave]; assumption)
  obtain ⟨a, b, c, d⟩ := h2.finish_setWave he rbf m
  refine ⟨?_, fun i k n => by rw [b i k n, st.wave], fun i => ?_, ?_⟩
  · have e : behind s2 = behind s := by simp only [behind, st.focus]
    rw [st.focus, e] at a
    exact a
  · have e1 := congrArg (fun c => ({ c with l1 := [] } : Core)) (c i)
    have e2 := congrArg quietCore (st.cores i)
    exact e1.trans e2
  · have e1 := congrArg bare d
    have e2 := congrArg quietState st.rest
    exact e1.trans e2

end Sys2Proof.Machine
end

