-- ==== Sys2Proof/Laws/Dispatch.lean ====
section
/-! SUPPORT. `exec` of each instruction is its meaning: one equation a constructor, so that no later proof reduces the whole dispatch. -/

namespace Sys2Proof.Machine
open Sys2Proof

theorem exec_nop (len : BitVec 2) (rbf : Bool) (s : State) :
    exec (.nop len rbf) s = execNop len rbf s := rfl
theorem exec_hint (len : BitVec 2) (rbf : Bool) (rest : BitVec 125) (s : State) :
    exec (.hint len rbf rest) s = execHint len rbf rest s := rfl
theorem exec_br (c : Ctl) (off : Word) (s : State) :
    exec (.br c off) s = execBr c off s := rfl
theorem exec_bcmp (c : Ctl) (cond : ICond) (w : Bool) (o : Cmp2) (off : Word) (s : State) :
    exec (.bcmp c cond w o off) s = execBcmp c cond w o off s := rfl
theorem exec_dbnz (c : Ctl) (w : Bool) (r : GReg) (off : Word) (s : State) :
    exec (.dbnz c w r off) s = execDbnz c w r off s := rfl
theorem exec_brx (c : Ctl) (t : Cmp1) (s : State) :
    exec (.brx c t) s = execBrx c t s := rfl
theorem exec_ret (c : Ctl) (t : Cmp1) (s : State) :
    exec (.ret c t) s = execRet c t s := rfl
theorem exec_btab (c : Ctl) (base : SReg) (idx : Cmp1) (n : Word) (s : State) :
    exec (.btab c base idx n) s = execBtab c base idx n s := rfl
theorem exec_call (c : Ctl) (link : BitVec 8) (off : Word) (s : State) :
    exec (.call c link off) s = execCall c link off s := rfl
theorem exec_callx (c : Ctl) (link : BitVec 8) (t : Src) (s : State) :
    exec (.callx c link t) s = execCallx c link t s := rfl
theorem exec_rcvArm (c : Ctl) (rb : BitVec 3) (s : State) :
    exec (.rcvArm c rb) s = execRcvArm c rb s := rfl
theorem exec_rcvJoin (c : Ctl) (rb : BitVec 3) (s : State) :
    exec (.rcvJoin c rb) s = execRcvJoin c rb s := rfl
theorem exec_rcvDrop (c : Ctl) (rb : BitVec 3) (s : State) :
    exec (.rcvDrop c rb) s = execRcvDrop c rb s := rfl
theorem exec_brk (c : Ctl) (code : BitVec 18) (s : State) :
    exec (.brk c code) s = execBrk c code s := rfl
theorem exec_add (c : Ctl) (w : Bool) (o : Gen2) (s : State) :
    exec (.add c w o) s = execAdd c w o s := rfl
theorem exec_sub (c : Ctl) (w : Bool) (o : Gen2) (s : State) :
    exec (.sub c w o) s = execSub c w o s := rfl
theorem exec_mul (c : Ctl) (w : Bool) (o : Gen2) (s : State) :
    exec (.mul c w o) s = execMul c w o s := rfl
theorem exec_mulh (c : Ctl) (sg w : Bool) (o : Gen2) (s : State) :
    exec (.mulh c sg w o) s = execMulh c sg w o s := rfl
theorem exec_mad (c : Ctl) (w : Bool) (o : Gen3) (s : State) :
    exec (.mad c w o) s = execMad c w o s := rfl
theorem exec_div (c : Ctl) (sg w : Bool) (o : Gen2) (s : State) :
    exec (.div c sg w o) s = execDiv c sg w o s := rfl
theorem exec_rem (c : Ctl) (sg w : Bool) (o : Gen2) (s : State) :
    exec (.rem c sg w o) s = execRem c sg w o s := rfl
theorem exec_min (c : Ctl) (sg w : Bool) (o : Gen2) (s : State) :
    exec (.min c sg w o) s = execMin c sg w o s := rfl
theorem exec_max (c : Ctl) (sg w : Bool) (o : Gen2) (s : State) :
    exec (.max c sg w o) s = execMax c sg w o s := rfl
theorem exec_adds (c : Ctl) (sg w : Bool) (o : Gen2) (s : State) :
    exec (.adds c sg w o) s = execAdds c sg w o s := rfl
theorem exec_subs (c : Ctl) (sg w : Bool) (o : Gen2) (s : State) :
    exec (.subs c sg w o) s = execSubs c sg w o s := rfl
theorem exec_abs (c : Ctl) (w : Bool) (o : Gen1) (s : State) :
    exec (.abs c w o) s = execAbs c w o s := rfl
theorem exec_addi (c : Ctl) (w : Bool) (o : Gen1) (imm : BitVec 18) (s : State) :
    exec (.addi c w o imm) s = execAddi c w o imm s := rfl
theorem exec_and (c : Ctl) (w : Bool) (o : Gen2) (s : State) :
    exec (.and c w o) s = execAnd c w o s := rfl
theorem exec_or (c : Ctl) (w : Bool) (o : Gen2) (s : State) :
    exec (.or c w o) s = execOr c w o s := rfl
theorem exec_xor (c : Ctl) (w : Bool) (o : Gen2) (s : State) :
    exec (.xor c w o) s = execXor c w o s := rfl
theorem exec_andn (c : Ctl) (w : Bool) (o : Gen2) (s : State) :
    exec (.andn c w o) s = execAndn c w o s := rfl
theorem exec_andi (c : Ctl) (w : Bool) (o : Gen1) (imm : BitVec 18) (s : State) :
    exec (.andi c w o imm) s = execAndi c w o imm s := rfl
theorem exec_ori (c : Ctl) (w : Bool) (o : Gen1) (imm : BitVec 18) (s : State) :
    exec (.ori c w o imm) s = execOri c w o imm s := rfl
theorem exec_xori (c : Ctl) (w : Bool) (o : Gen1) (imm : BitVec 18) (s : State) :
    exec (.xori c w o imm) s = execXori c w o imm s := rfl
theorem exec_shl (c : Ctl) (w : Bool) (o : Gen2) (s : State) :
    exec (.shl c w o) s = execShl c w o s := rfl
theorem exec_shr (c : Ctl) (w : Bool) (o : Gen2) (s : State) :
    exec (.shr c w o) s = execShr c w o s := rfl
theorem exec_sra (c : Ctl) (w : Bool) (o : Gen2) (s : State) :
    exec (.sra c w o) s = execSra c w o s := rfl
theorem exec_rol (c : Ctl) (w : Bool) (o : Gen2) (s : State) :
    exec (.rol c w o) s = execRol c w o s := rfl
theorem exec_ror (c : Ctl) (w : Bool) (o : Gen2) (s : State) :
    exec (.ror c w o) s = execRor c w o s := rfl
theorem exec_shli (c : Ctl) (w : Bool) (o : Gen1) (n : BitVec 18) (s : State) :
    exec (.shli c w o n) s = execShli c w o n s := rfl
theorem exec_shri (c : Ctl) (w : Bool) (o : Gen1) (n : BitVec 18) (s : State) :
    exec (.shri c w o n) s = execShri c w o n s := rfl
theorem exec_srai (c : Ctl) (w : Bool) (o : Gen1) (n : BitVec 18) (s : State) :
    exec (.srai c w o n) s = execSrai c w o n s := rfl
theorem exec_roli (c : Ctl) (w : Bool) (o : Gen1) (n : BitVec 18) (s : State) :
    exec (.roli c w o n) s = execRoli c w o n s := rfl
theorem exec_rori (c : Ctl) (w : Bool) (o : Gen1) (n : BitVec 18) (s : State) :
    exec (.rori c w o n) s = execRori c w o n s := rfl
theorem exec_bfe (c : Ctl) (sg w : Bool) (o : Gen1) (pos : BitVec 6) (len : BitVec 7) (s : State) :
    exec (.bfe c sg w o pos len) s = execBfe c sg w o pos len s := rfl
theorem exec_bfi (c : Ctl) (w : Bool) (o : Gen2) (pos : BitVec 6) (len : BitVec 7) (s : State) :
    exec (.bfi c w o pos len) s = execBfi c w o pos len s := rfl
theorem exec_popc (c : Ctl) (w : Bool) (o : Gen1) (s : State) :
    exec (.popc c w o) s = execPopc c w o s := rfl
theorem exec_clz (c : Ctl) (w : Bool) (o : Gen1) (s : State) :
    exec (.clz c w o) s = execClz c w o s := rfl
theorem exec_ctz (c : Ctl) (w : Bool) (o : Gen1) (s : State) :
    exec (.ctz c w o) s = execCtz c w o s := rfl
theorem exec_brev (c : Ctl) (w : Bool) (o : Gen1) (s : State) :
    exec (.brev c w o) s = execBrev c w o s := rfl
theorem exec_bswap (c : Ctl) (w : Bool) (o : Gen1) (s : State) :
    exec (.bswap c w o) s = execBswap c w o s := rfl
theorem exec_clmul (c : Ctl) (w : Bool) (o : Gen2) (s : State) :
    exec (.clmul c w o) s = execClmul c w o s := rfl
theorem exec_clmulh (c : Ctl) (w : Bool) (o : Gen2) (s : State) :
    exec (.clmulh c w o) s = execClmulh c w o s := rfl
theorem exec_pxor (c : Ctl) (w : Bool) (o : Gen1) (s : State) :
    exec (.pxor c w o) s = execPxor c w o s := rfl
theorem exec_pdep (c : Ctl) (w : Bool) (o : Gen2) (s : State) :
    exec (.pdep c w o) s = execPdep c w o s := rfl
theorem exec_pext (c : Ctl) (w : Bool) (o : Gen2) (s : State) :
    exec (.pext c w o) s = execPext c w o s := rfl
theorem exec_icmp (c : Ctl) (cond : ICond) (w : Bool) (p : BitVec 4) (o : Cmp2) (s : State) :
    exec (.icmp c cond w p o) s = execIcmp c cond w p o s := rfl
theorem exec_icmpi (c : Ctl) (cond : ICond) (w : Bool) (p : BitVec 4) (a : Cmp1) (imm : BitVec 18) (s : State) :
    exec (.icmpi c cond w p a imm) s = execIcmpi c cond w p a imm s := rfl
theorem exec_isel (c : Ctl) (w uni : Bool) (d : Dst) (a : Src) (b : BSrc) (p : BitVec 4) (s : State) :
    exec (.isel c w uni d a b p) s = execIsel c w uni d a b p s := rfl
theorem exec_plop (c : Ctl) (op : POp) (pd pa pb : BitVec 4) (s : State) :
    exec (.plop c op pd pa pb) s = execPlop c op pd pa pb s := rfl
theorem exec_mov (c : Ctl) (w : Bool) (o : GenM) (s : State) :
    exec (.mov c w o) s = execMov c w o s := rfl
theorem exec_movi (c : Ctl) (sg w : Bool) (o : Gen0) (imm : Word) (s : State) :
    exec (.movi c sg w o imm) s = execMovi c sg w o imm s := rfl
theorem exec_lea (c : Ctl) (u : Bool) (sh : BitVec 3) (o : Gen2) (imm : Word) (s : State) :
    exec (.lea c u sh o imm) s = execLea c u sh o imm s := rfl
theorem exec_lane (c : Ctl) (d : Dst) (s : State) :
    exec (.lane c d) s = execLane c d s := rfl
theorem exec_fadd (c : Ctl) (uni : Bool) (fmt : FFmt) (rm : RMode) (d : Dst) (a : Src) (b : BSrc) (s : State) :
    exec (.fadd c uni fmt rm d a b) s = execFadd c uni fmt rm d a b s := rfl
theorem exec_fsub (c : Ctl) (uni : Bool) (fmt : FFmt) (rm : RMode) (d : Dst) (a : Src) (b : BSrc) (s : State) :
    exec (.fsub c uni fmt rm d a b) s = execFsub c uni fmt rm d a b s := rfl
theorem exec_fmul (c : Ctl) (uni : Bool) (fmt : FFmt) (rm : RMode) (d : Dst) (a : Src) (b : BSrc) (s : State) :
    exec (.fmul c uni fmt rm d a b) s = execFmul c uni fmt rm d a b s := rfl
theorem exec_fdiv (c : Ctl) (uni : Bool) (fmt : FFmt) (rm : RMode) (d : Dst) (a : Src) (b : BSrc) (s : State) :
    exec (.fdiv c uni fmt rm d a b) s = execFdiv c uni fmt rm d a b s := rfl
theorem exec_fsqrt (c : Ctl) (uni : Bool) (fmt : FFmt) (rm : RMode) (d : Dst) (a : Src) (s : State) :
    exec (.fsqrt c uni fmt rm d a) s = execFsqrt c uni fmt rm d a s := rfl
theorem exec_ffma (c : Ctl) (uni : Bool) (fmt : FFmt) (rm : RMode) (d : Dst) (a : Src) (b : BSrc) (e : Src) (s : State) :
    exec (.ffma c uni fmt rm d a b e) s = execFfma c uni fmt rm d a b e s := rfl
theorem exec_ffms (c : Ctl) (uni : Bool) (fmt : FFmt) (rm : RMode) (d : Dst) (a : Src) (b : BSrc) (e : Src) (s : State) :
    exec (.ffms c uni fmt rm d a b e) s = execFfms c uni fmt rm d a b e s := rfl
theorem exec_fnma (c : Ctl) (uni : Bool) (fmt : FFmt) (rm : RMode) (d : Dst) (a : Src) (b : BSrc) (e : Src) (s : State) :
    exec (.fnma c uni fmt rm d a b e) s = execFnma c uni fmt rm d a b e s := rfl
theorem exec_fmin (c : Ctl) (uni : Bool) (fmt : FFmt) (d : Dst) (a : Src) (b : BSrc) (s : State) :
    exec (.fmin c uni fmt d a b) s = execFmin c uni fmt d a b s := rfl
theorem exec_fmax (c : Ctl) (uni : Bool) (fmt : FFmt) (d : Dst) (a : Src) (b : BSrc) (s : State) :
    exec (.fmax c uni fmt d a b) s = execFmax c uni fmt d a b s := rfl
theorem exec_fabs (c : Ctl) (uni : Bool) (fmt : FFmt) (d : Dst) (a : Src) (s : State) :
    exec (.fabs c uni fmt d a) s = execFabs c uni fmt d a s := rfl
theorem exec_fneg (c : Ctl) (uni : Bool) (fmt : FFmt) (d : Dst) (a : Src) (s : State) :
    exec (.fneg c uni fmt d a) s = execFneg c uni fmt d a s := rfl
theorem exec_fsgn (c : Ctl) (uni : Bool) (fmt : FFmt) (d : Dst) (a : Src) (b : BSrc) (s : State) :
    exec (.fsgn c uni fmt d a b) s = execFsgn c uni fmt d a b s := rfl
theorem exec_frcp (c : Ctl) (uni : Bool) (fmt : FFmt) (d : Dst) (a : Src) (s : State) :
    exec (.frcp c uni fmt d a) s = execFrcp c uni fmt d a s := rfl
theorem exec_frsq (c : Ctl) (uni : Bool) (fmt : FFmt) (d : Dst) (a : Src) (s : State) :
    exec (.frsq c uni fmt d a) s = execFrsq c uni fmt d a s := rfl
theorem exec_fcmp (c : Ctl) (cond : FCond) (f64 : Bool) (p : BitVec 4) (a : Src) (b : BSrc) (s : State) :
    exec (.fcmp c cond f64 p a b) s = execFcmp c cond f64 p a b s := rfl
theorem exec_fclass (c : Ctl) (uni : Bool) (fmt : FFmt) (d : Dst) (a : Src) (s : State) :
    exec (.fclass c uni fmt d a) s = execFclass c uni fmt d a s := rfl
theorem exec_cvt (c : Ctl) (uni : Bool) (dty sty : CTy) (sel : BitVec 2) (cnt : CCnt) (rm : RMode) (sat : Bool) (d : Dst) (a b e f : Src) (ei : Src) (sb : SReg) (s : State) :
    exec (.cvt c uni dty sty sel cnt rm sat d a b e f ei sb) s = execCvt c uni dty sty sel cnt rm sat d a b e f ei sb s := rfl
theorem exec_rng (c : Ctl) (uni : Bool) (wsel : BitVec 2) (d : Dst) (e : Src) (j : BSrc) (sb : SReg) (s : State) :
    exec (.rng c uni wsel d e j sb) s = execRng c uni wsel d e j sb s := rfl
theorem exec_shfl (c : Ctl) (mode : ShflMode) (d : Dst) (a : Src) (b : BSrc) (s : State) :
    exec (.shfl c mode d a b) s = execShfl c mode d a b s := rfl
theorem exec_vote (c : Ctl) (op : VoteOp) (d : Dst) (p : BitVec 4) (s : State) :
    exec (.vote c op d p) s = execVote c op d p s := rfl
theorem exec_lred (c : Ctl) (op : LaneOp) (ty : LaneTy) (d : Dst) (a : Src) (s : State) :
    exec (.lred c op ty d a) s = execLred c op ty d a s := rfl
theorem exec_lscan (c : Ctl) (op : LaneOp) (ty : LaneTy) (x : Bool) (d : Dst) (a : Src) (s : State) :
    exec (.lscan c op ty x d a) s = execLscan c op ty x d a s := rfl
theorem exec_ld (c : Ctl) (sz : Sz) (m : MAttr) (o : LdOps) (off : BitVec 24) (s : State) :
    exec (.ld c sz m o off) s = execLd c sz m o off s := rfl
theorem exec_st (c : Ctl) (sz : StSz) (m : MAttr) (o : StOps) (off : BitVec 24) (s : State) :
    exec (.st c sz m o off) s = execSt c sz m o off s := rfl
theorem exec_stCr (c : Ctl) (w : Bool) (m : MAttr) (o : StOps) (off : BitVec 24) (s : State) :
    exec (.stCr c w m o off) s = execStCr c w m o off s := rfl
theorem exec_lds (c : Ctl) (uni : Bool) (sz : Sz) (pclr : Bool) (m : MAttr) (d : Dst) (a : Src) (off : BitVec 24) (s : State) :
    exec (.lds c uni sz pclr m d a off) s = execLds c uni sz pclr m d a off s := rfl
theorem exec_sts (c : Ctl) (uni : Bool) (sz : StSz) (pset : Bool) (m : MAttr) (a : Src) (data : Src) (off : BitVec 24) (s : State) :
    exec (.sts c uni sz pset m a data off) s = execSts c uni sz pset m a data off s := rfl
theorem exec_ldc (c : Ctl) (uni : Bool) (sz : Sz) (pclr : Bool) (m : MAttr) (d : Dst) (a : Src) (core : BSrc) (off : BitVec 24) (s : State) :
    exec (.ldc c uni sz pclr m d a core off) s = execLdc c uni sz pclr m d a core off s := rfl
theorem exec_stc (c : Ctl) (uni : Bool) (sz : StSz) (pset : Bool) (m : MAttr) (a : Src) (core : BSrc) (data : Src) (off : BitVec 24) (s : State) :
    exec (.stc c uni sz pset m a core data off) s = execStc c uni sz pset m a core data off s := rfl
theorem exec_ldv (c : Ctl) (uni : Bool) (sz : Sz) (m : MAttr) (d : Dst) (base : ABase) (sM sC : SReg) (off : BitVec 24) (s : State) :
    exec (.ldv c uni sz m d base sM sC off) s = execLdv c uni sz m d base sM sC off s := rfl
theorem exec_vupd (c : Ctl) (add : Bool) (fmt : VFmt) (rm : RMode) (m : MAttr) (d sB sS sP : SReg) (s : State) :
    exec (.vupd c add fmt rm m d sB sS sP) s = execVupd c add fmt rm m d sB sS sP s := rfl
theorem exec_vstepRd (c : Ctl) (m : MAttr) (d sB : SReg) (s : State) :
    exec (.vstepRd c m d sB) s = execVstepRd c m d sB s := rfl
theorem exec_vstepSet (c : Ctl) (m : MAttr) (sB sU : SReg) (s : State) :
    exec (.vstepSet c m sB sU) s = execVstepSet c m sB sU s := rfl
theorem exec_atom (c : Ctl) (uni : Bool) (op : AtomOp) (w : Bool) (m : MAttr) (d : Dst) (base : ABase) (b e : Src) (off : BitVec 24) (s : State) :
    exec (.atom c uni op w m d base b e off) s = execAtom c uni op w m d base b e off s := rfl
theorem exec_mwait (c : Ctl) (w : Bool) (m : MAttr) (d sA sE sT : SReg) (off : BitVec 24) (s : State) :
    exec (.mwait c w m d sA sE sT off) s = execMwait c w m d sA sE sT off s := rfl
theorem exec_fence (c : Ctl) (strict : Bool) (ord : Ord) (scope : Scope) (p : BitVec 4) (s : State) :
    exec (.fence c strict ord scope p) s = execFence c strict ord scope p s := rfl
theorem exec_seal (c : Ctl) (m : MAttr) (sB sL : SReg) (s : State) :
    exec (.seal c m sB sL) s = execSeal c m sB sL s := rfl
theorem exec_unseal (c : Ctl) (m : MAttr) (sB sL : SReg) (s : State) :
    exec (.unseal c m sB sL) s = execUnseal c m sB sL s := rfl
theorem exec_crdecl (c : Ctl) (op : CrOp) (m : MAttr) (sB sL : SReg) (s : State) :
    exec (.crdecl c op m sB sL) s = execCrdecl c op m sB sL s := rfl
theorem exec_crflush (c : Ctl) (fin : Bool) (m : MAttr) (sB : SReg) (s : State) :
    exec (.crflush c fin m sB) s = execCrflush c fin m sB s := rfl
theorem exec_prefetch (c : Ctl) (uni home : Bool) (evict : BitVec 3) (base : ABase) (idx : Option Src) (off : BitVec 24) (s : State) :
    exec (.prefetch c uni home evict base idx off) s = execPrefetch c uni home evict base idx off s := rfl
theorem exec_cpy (c : Ctl) (sk dk : MKind) (q : BitVec 3) (sS sD sL : SReg) (s : State) :
    exec (.cpy c sk dk q sS sD sL) s = execCpy c sk dk q sS sD sL s := rfl
theorem exec_cseal (c : Ctl) (s : State) :
    exec (.cseal c) s = execCseal c s := rfl
theorem exec_cwait (c : Ctl) (n : BitVec 4) (p : BitVec 4) (s : State) :
    exec (.cwait c n p) s = execCwait c n p s := rfl
theorem exec_ropCas (c : Ctl) (m : MAttr) (n : BitVec 2) (d sA sB sC : SReg) (off : BitVec 24) (s : State) :
    exec (.ropCas c m n d sA sB sC off) s = execRopCas c m n d sA sB sC off s := rfl
theorem exec_ropEnq (c : Ctl) (m : MAttr) (d sA sB : SReg) (off : BitVec 24) (s : State) :
    exec (.ropEnq c m d sA sB off) s = execRopEnq c m d sA sB off s := rfl
theorem exec_ropChase (c : Ctl) (m : MAttr) (d sA sH : SReg) (off : BitVec 24) (s : State) :
    exec (.ropChase c m d sA sH off) s = execRopChase c m d sA sH off s := rfl
theorem exec_flq (c : Ctl) (clr : Bool) (d sI : SReg) (s : State) :
    exec (.flq c clr d sI) s = execFlq c clr d sI s := rfl
theorem exec_mma (c : Ctl) (fmt : MmaFmt) (sf : Bool) (vC : BitVec 5) (b : MmaB) (bsw : BitVec 13) (aoq : BitVec 3) (vA vB : Src) (asel bsel : BitVec 8) (s : State) :
    exec (.mma c fmt sf vC b bsw aoq vA vB asel bsel) s = execMma c fmt sf vC b bsw aoq vA vB asel bsel s := rfl
theorem exec_mgat (c : Ctl) (kind : GKind) (d : Dst) (vI : Src) (sB sR : SReg) (n : BitVec 6) (ro : BitVec 3) (s : State) :
    exec (.mgat c kind d vI sB sR n ro) s = execMgat c kind d vI sB sR n ro s := rfl
theorem exec_mldt (c : Ctl) (kind : GKind) (d : Dst) (vI : Src) (sP : SReg) (n : BitVec 6) (ro : BitVec 3) (s : State) :
    exec (.mldt c kind d vI sP n ro) s = execMldt c kind d vI sP n ro s := rfl
theorem exec_mst (c : Ctl) (dfmt : MstFmt) (sf64 sq : Bool) (rm : RMode) (sat pset : Bool) (sB : SReg) (vI : Src) (sR : SReg) (vC : BitVec 5) (cnt : BitVec 2) (ve : Src) (sb : SReg) (s : State) :
    exec (.mst c dfmt sf64 sq rm sat pset sB vI sR vC cnt ve sb) s = execMst c dfmt sf64 sq rm sat pset sB vI sR vC cnt ve sb s := rfl
theorem exec_mzero (c : Ctl) (uni w : Bool) (cnt : BitVec 2) (vC : BitVec 5) (s : State) :
    exec (.mzero c uni w cnt vC) s = execMzero c uni w cnt vC s := rfl
theorem exec_tred (c : Ctl) (w pset : Bool) (sS sO sL sD : SReg) (s : State) :
    exec (.tred c w pset sS sO sL sD) s = execTred c w pset sS sO sL sD s := rfl
theorem exec_msf (c : Ctl) (vS : Src) (s : State) :
    exec (.msf c vS) s = execMsf c vS s := rfl
theorem exec_xloop (n : DReg) (e : BitVec 18) (s : State) :
    exec (.xloop n e) s = execXloop n e s := rfl
theorem exec_tadr (d t k : DReg) (s : State) :
    exec (.tadr d t k) s = execTadr d t k s := rfl
theorem exec_tin (d t k : DReg) (s : State) :
    exec (.tin d t k) s = execTin d t k s := rfl
theorem exec_tinc (d t k : DReg) (s : State) :
    exec (.tinc d t k) s = execTinc d t k s := rfl
theorem exec_lidx (w : Bool) (d a : DReg) (e : BitVec 18) (s : State) :
    exec (.lidx w d a e) s = execLidx w d a e s := rfl
theorem exec_xfer (sk dk : MKind) (sg d l : DReg) (s : State) :
    exec (.xfer sk dk sg d l) s = execXfer sk dk sg d l s := rfl
theorem exec_xferG (sk dk : MKind) (sg d ig r : DReg) (rb : BitVec 16) (n : BitVec 10) (s : State) :
    exec (.xferG sk dk sg d ig r rb n) s = execXferG sk dk sg d ig r rb n s := rfl
theorem exec_xferT (sk dk : MKind) (t d : DReg) (s : State) :
    exec (.xferT sk dk t d) s = execXferT sk dk t d s := rfl
theorem exec_cgen (a : DReg) (s : State) :
    exec (.cgen a) s = execCgen a s := rfl
theorem exec_xwait (d : DReg) (s : State) :
    exec (.xwait d) s = execXwait d s := rfl
theorem exec_cba (c : Ctl) (cb : BitVec 4) (k : BitVec 18) (s : State) :
    exec (.cba c cb k) s = execCba c cb k s := rfl
theorem exec_cbw (c : Ctl) (cb : BitVec 4) (k : BitVec 18) (s : State) :
    exec (.cbw c cb k) s = execCbw c cb k s := rfl
theorem exec_cbset (c : Ctl) (cb : BitVec 4) (k : BitVec 18) (s : State) :
    exec (.cbset c cb k) s = execCbset c cb k s := rfl
theorem exec_chain (x : Bool) (h : DReg) (s : State) :
    exec (.chain x h) s = execChain x h s := rfl
theorem exec_xhalt (s : State) :
    exec (.xhalt) s = execXhalt s := rfl
theorem exec_exit (c : Ctl) (n : BitVec 3) (sB : SReg) (s : State) :
    exec (.exit c n sB) s = execExit c n sB s := rfl
theorem exec_wbar (c : Ctl) (s : State) :
    exec (.wbar c) s = execWbar c s := rfl
theorem exec_sbar (c : Ctl) (sS : SReg) (s : State) :
    exec (.sbar c sS) s = execSbar c sS s := rfl
theorem exec_rclaim (c : Ctl) (n : BitVec 18) (s : State) :
    exec (.rclaim c n) s = execRclaim c n s := rfl
theorem exec_rrel (c : Ctl) (n : BitVec 18) (s : State) :
    exec (.rrel c n) s = execRrel c n s := rfl
theorem exec_aset (c : Ctl) (sB sL sI : SReg) (s : State) :
    exec (.aset c sB sL sI) s = execAset c sB sL sI s := rfl
theorem exec_asetDel (c : Ctl) (sI : SReg) (s : State) :
    exec (.asetDel c sI) s = execAsetDel c sI s := rfl
theorem exec_age (c : Ctl) (sD : SReg) (s : State) :
    exec (.age c sD) s = execAge c sD s := rfl
theorem exec_ageLt (c : Ctl) (p : BitVec 4) (sA : SReg) (s : State) :
    exec (.ageLt c p sA) s = execAgeLt c p sA s := rfl
theorem exec_yield (c : Ctl) (s : State) :
    exec (.yield c) s = execYield c s := rfl
theorem exec_collRed (c : Ctl) (q : BitVec 4) (sP : SReg) (s : State) :
    exec (.collRed c q sP) s = execCollRed c q sP s := rfl
theorem exec_collA2a (c : Ctl) (q : BitVec 4) (sP : SReg) (s : State) :
    exec (.collA2a c q sP) s = execCollA2a c q sP s := rfl
theorem exec_collBcast (c : Ctl) (q : BitVec 4) (sP : SReg) (s : State) :
    exec (.collBcast c q sP) s = execCollBcast c q sP s := rfl
theorem exec_collBar (c : Ctl) (q : BitVec 4) (sP : SReg) (s : State) :
    exec (.collBar c q sP) s = execCollBar c q sP s := rfl
theorem exec_collRes (c : Ctl) (sD : SReg) (q : BitVec 4) (s : State) :
    exec (.collRes c sD q) s = execCollRes c sD q s := rfl
theorem exec_pstep (c : Ctl) (sS sC : SReg) (s : State) :
    exec (.pstep c sS sC) s = execPstep c sS sC s := rfl
theorem exec_trap (c : Ctl) (code : BitVec 18) (s : State) :
    exec (.trap c code) s = execTrap c code s := rfl
theorem exec_rftNext (c : Ctl) (wr : Option (BitVec 8 × Src)) (s : State) :
    exec (.rftNext c wr) s = execRftNext c wr s := rfl
theorem exec_rftAgain (c : Ctl) (wr : Option (BitVec 8 × Src)) (s : State) :
    exec (.rftAgain c wr) s = execRftAgain c wr s := rfl
theorem exec_rftEnd (c : Ctl) (wr : Option (BitVec 8 × Src)) (s : State) :
    exec (.rftEnd c wr) s = execRftEnd c wr s := rfl
theorem exec_csrr (c : Ctl) (sD : SReg) (num : BitVec 18) (s : State) :
    exec (.csrr c sD num) s = execCsrr c sD num s := rfl
theorem exec_csrw (c : Ctl) (num : BitVec 18) (sA : SReg) (s : State) :
    exec (.csrw c num sA) s = execCsrw c num sA s := rfl
theorem exec_csrwXpChan (c : Ctl) (x : Bool) (sA : SReg) (s : State) :
    exec (.csrwXpChan c x sA) s = execCsrwXpChan c x sA s := rfl
theorem exec_csrwFltTail (c : Ctl) (sA : SReg) (s : State) :
    exec (.csrwFltTail c sA) s = execCsrwFltTail c sA s := rfl
theorem exec_csrwDbgCtl (c : Ctl) (sA : SReg) (s : State) :
    exec (.csrwDbgCtl c sA) s = execCsrwDbgCtl c sA s := rfl
theorem exec_gen (c : Ctl) (sD : SReg) (s : State) :
    exec (.gen c sD) s = execGen c sD s := rfl
theorem exec_runGrant (core sched : Nat) (image : ImageUse) (s : State) :
    exec (.runGrant core sched image) s = execRunGrant core sched image s := rfl
theorem exec_distributorPlace (s : State) :
    exec (.distributorPlace) s = execDistributorPlace s := rfl
theorem exec_gangReserve (s : State) :
    exec (.gangReserve) s = execGangReserve s := rfl
theorem exec_gangRelease (s : State) :
    exec (.gangRelease) s = execGangRelease s := rfl
theorem exec_coreAdmit (core : Nat) (image : ImageUse) (s : State) :
    exec (.coreAdmit core image) s = execCoreAdmit core image s := rfl
theorem exec_stealAttempt (core : Nat) (s : State) :
    exec (.stealAttempt core) s = execStealAttempt core s := rfl
theorem exec_rclaimServe (core : Nat) (s : State) :
    exec (.rclaimServe core) s = execRclaimServe core s := rfl
theorem exec_claimDeadlock (core : Nat) (s : State) :
    exec (.claimDeadlock core) s = execClaimDeadlock core s := rfl
theorem exec_homeTokenRequest (core line : Nat) (write ok : Bool) (s : State) :
    exec (.homeTokenRequest core line write ok) s = execHomeTokenRequest core line write ok s := rfl
theorem exec_persistentRequest (line : Nat) (s : State) :
    exec (.persistentRequest line) s = execPersistentRequest line s := rfl
theorem exec_ldvStalenessTimeout (core slot : Nat) (s : State) :
    exec (.ldvStalenessTimeout core slot) s = execLdvStalenessTimeout core slot s := rfl
theorem exec_mwaitTimeout (core slot : Nat) (s : State) :
    exec (.mwaitTimeout core slot) s = execMwaitTimeout core slot s := rfl
theorem exec_copyComplete (core id : Nat) (s : State) :
    exec (.copyComplete core id) s = execCopyComplete core id s := rfl
theorem exec_xpEngineTurn (core x bytes : Nat) (s : State) :
    exec (.xpEngineTurn core x bytes) s = execXpEngineTurn core x bytes s := rfl
theorem exec_programTransferComplete (core x id : Nat) (s : State) :
    exec (.programTransferComplete core x id) s = execProgramTransferComplete core x id s := rfl
theorem exec_chainWalkStart (core x : Nat) (s : State) :
    exec (.chainWalkStart core x) s = execChainWalkStart core x s := rfl
theorem exec_recCopy (core x : Nat) (s : State) :
    exec (.recCopy core x) s = execRecCopy core x s := rfl
theorem exec_recLoadImage (core x : Nat) (s : State) :
    exec (.recLoadImage core x) s = execRecLoadImage core x s := rfl
theorem exec_recStartProgram (core x : Nat) (s : State) :
    exec (.recStartProgram core x) s = execRecStartProgram core x s := rfl
theorem exec_recArriveOnly (core x : Nat) (s : State) :
    exec (.recArriveOnly core x) s = execRecArriveOnly core x s := rfl
theorem exec_recOffloadOut (core x : Nat) (s : State) :
    exec (.recOffloadOut core x) s = execRecOffloadOut core x s := rfl
theorem exec_recOffloadIn (core x : Nat) (s : State) :
    exec (.recOffloadIn core x) s = execRecOffloadIn core x s := rfl
theorem exec_recBad (core x : Nat) (s : State) :
    exec (.recBad core x) s = execRecBad core x s := rfl
theorem exec_offloadOutComplete (core x : Nat) (s : State) :
    exec (.offloadOutComplete core x) s = execOffloadOutComplete core x s := rfl
theorem exec_offloadInComplete (core x : Nat) (s : State) :
    exec (.offloadInComplete core x) s = execOffloadInComplete core x s := rfl
theorem exec_tredComplete (core slot : Nat) (s : State) :
    exec (.tredComplete core slot) s = execTredComplete core slot s := rfl
theorem exec_sideLogReplay (core idx : Nat) (s : State) :
    exec (.sideLogReplay core idx) s = execSideLogReplay core idx s := rfl
theorem exec_faultRecordWrite (slot : Nat) (s : State) :
    exec (.faultRecordWrite slot) s = execFaultRecordWrite slot s := rfl
theorem exec_resolutionObserved (core rec : Nat) (s : State) :
    exec (.resolutionObserved core rec) s = execResolutionObserved core rec s := rfl
theorem exec_handlerWaveForm (core : Nat) (s : State) :
    exec (.handlerWaveForm core) s = execHandlerWaveForm core s := rfl
theorem exec_poisonSector (pa : Nat) (s : State) :
    exec (.poisonSector pa) s = execPoisonSector pa s := rfl
theorem exec_coreDisable (core : Nat) (s : State) :
    exec (.coreDisable core) s = execCoreDisable core s := rfl
theorem exec_remoteAccessReceive (p : RemPkt) (s : State) :
    exec (.remoteAccessReceive p) s = execRemoteAccessReceive p s := rfl
theorem exec_flowAck (flow seq : Nat) (ans : RemAns) (s : State) :
    exec (.flowAck flow seq ans) s = execFlowAck flow seq ans s := rfl
theorem exec_flowRetransmit (flow seq port : Nat) (s : State) :
    exec (.flowRetransmit flow seq port) s = execFlowRetransmit flow seq port s := rfl
theorem exec_flowTimeout (flow seq : Nat) (s : State) :
    exec (.flowTimeout flow seq) s = execFlowTimeout flow seq s := rfl
theorem exec_linkRetrain (port : Nat) (s : State) :
    exec (.linkRetrain port) s = execLinkRetrain port s := rfl
theorem exec_retrainBound (port : Nat) (up : Bool) (s : State) :
    exec (.retrainBound port up) s = execRetrainBound port up s := rfl
theorem exec_flitTagFail (port : Nat) (dir : Bool) (s : State) :
    exec (.flitTagFail port dir) s = execFlitTagFail port dir s := rfl
theorem exec_linkRekey (port : Nat) (dir : Bool) (s : State) :
    exec (.linkRekey port dir) s = execLinkRekey port dir s := rfl
theorem exec_engineChunk (die : Nat) (s : State) :
    exec (.engineChunk die) s = execEngineChunk die s := rfl
theorem exec_contributionArrival (comm rank step : Nat) (data : List Word) (s : State) :
    exec (.contributionArrival comm rank step data) s = execContributionArrival comm rank step data s := rfl
theorem exec_closureTimerExpiry (comm : Nat) (op : CollOp) (step : Nat) (s : State) :
    exec (.closureTimerExpiry comm op step) s = execClosureTimerExpiry comm op step s := rfl
theorem exec_resultArrival (comm step st cnt late : Nat) (data : List Word) (s : State) :
    exec (.resultArrival comm step st cnt late data) s = execResultArrival comm step st cnt late data s := rfl
theorem exec_publicationArrival (comm rank step : Nat) (s : State) :
    exec (.publicationArrival comm rank step) s = execPublicationArrival comm rank step s := rfl
theorem exec_silenceTimeout (comm rank : Nat) (s : State) :
    exec (.silenceTimeout comm rank) s = execSilenceTimeout comm rank s := rfl
theorem exec_hostBar2Access (off : Nat) (data : Option (List Byte)) (len : Nat) (s : State) :
    exec (.hostBar2Access off data len) s = execHostBar2Access off data len s := rfl
theorem exec_chHead (ch : Nat) (head : DWord) (s : State) :
    exec (.chHead ch head) s = execChHead ch head s := rfl
theorem exec_chStatClear (ch : Nat) (s : State) :
    exec (.chStatClear ch) s = execChStatClear ch s := rfl
theorem exec_launchRecord (s : State) :
    exec (.launchRecord) s = execLaunchRecord s := rfl
theorem exec_launchComplete (root : Nat) (s : State) :
    exec (.launchComplete root) s = execLaunchComplete root s := rfl
theorem exec_xphHead (core x : Nat) (head : DWord) (s : State) :
    exec (.xphHead core x head) s = execXphHead core x head s := rfl
theorem exec_xphStatClear (bits : BitVec 2) (s : State) :
    exec (.xphStatClear bits) s = execXphStatClear bits s := rfl
theorem exec_hostRegisterWrite (off : Nat) (val : DWord) (s : State) :
    exec (.hostRegisterWrite off val) s = execHostRegisterWrite off val s := rfl
theorem exec_mbCreateSlot (s : State) :
    exec (.mbCreateSlot) s = execMbCreateSlot s := rfl
theorem exec_mbEndSlot (s : State) :
    exec (.mbEndSlot) s = execMbEndSlot s := rfl
theorem exec_mbAssignFrames (s : State) :
    exec (.mbAssignFrames) s = execMbAssignFrames s := rfl
theorem exec_mbRouteEntry (s : State) :
    exec (.mbRouteEntry) s = execMbRouteEntry s := rfl
theorem exec_mbCreateCommunicator (s : State) :
    exec (.mbCreateCommunicator) s = execMbCreateCommunicator s := rfl
theorem exec_mbEndCommunicator (s : State) :
    exec (.mbEndCommunicator) s = execMbEndCommunicator s := rfl
theorem exec_mbCheckpoint (s : State) :
    exec (.mbCheckpoint) s = execMbCheckpoint s := rfl
theorem exec_mbRestore (s : State) :
    exec (.mbRestore) s = execMbRestore s := rfl
theorem exec_mbAttest (s : State) :
    exec (.mbAttest) s = execMbAttest s := rfl
theorem exec_mbReadWave (s : State) :
    exec (.mbReadWave) s = execMbReadWave s := rfl
theorem exec_mbFirmwareUpdate (verified : Bool) (s : State) :
    exec (.mbFirmwareUpdate verified) s = execMbFirmwareUpdate verified s := rfl
theorem exec_mbSetDevice (s : State) :
    exec (.mbSetDevice) s = execMbSetDevice s := rfl
theorem exec_mbBadCommand (cmd : Word) (s : State) :
    exec (.mbBadCommand cmd) s = execMbBadCommand cmd s := rfl
theorem exec_checkpointDone (s : State) :
    exec (.checkpointDone) s = execCheckpointDone s := rfl
theorem exec_deviceStart (how : StartEnd) (s : State) :
    exec (.deviceStart how) s = execDeviceStart how s := rfl
theorem exec_fabricPortDown (port : Nat) (s : State) :
    exec (.fabricPortDown port) s = execFabricPortDown port s := rfl
theorem exec_hostLinkDegrade (link : Nat) (s : State) :
    exec (.hostLinkDegrade link) s = execHostLinkDegrade link s := rfl
theorem exec_clockThrottle (up : Bool) (s : State) :
    exec (.clockThrottle up) s = execClockThrottle up s := rfl
theorem exec_thermalHalt (core : Nat) (s : State) :
    exec (.thermalHalt core) s = execThermalHalt core s := rfl
theorem exec_thermalRelease (s : State) :
    exec (.thermalRelease) s = execThermalRelease s := rfl
theorem exec_collectiveMessageArrival (comm rank : Nat) (op : CollOp) (step len : Nat) (data : List Word) (s : State) :
    exec (.collectiveMessageArrival comm rank op step len data) s = execCollectiveMessageArrival comm rank op step len data s := rfl
theorem exec_memberResultTimeout (comm step : Nat) (s : State) :
    exec (.memberResultTimeout comm step) s = execMemberResultTimeout comm step s := rfl
theorem exec_flowQueryReceive (dev flow seq : Nat) (s : State) :
    exec (.flowQueryReceive dev flow seq) s = execFlowQueryReceive dev flow seq s := rfl
theorem exec_flowQueryAnswer (core slot : Nat) (performed : Bool) (s : State) :
    exec (.flowQueryAnswer core slot performed) s = execFlowQueryAnswer core slot performed s := rfl
theorem exec_flowQueryTimeout (core slot : Nat) (s : State) :
    exec (.flowQueryTimeout core slot) s = execFlowQueryTimeout core slot s := rfl
theorem exec_speculativeAccess (core slot : Nat) (a : SpecAcc) (s : State) :
    exec (.speculativeAccess core slot a) s = execSpeculativeAccess core slot a s := rfl
theorem exec_corePowerGate (core : Nat) (gate : Bool) (s : State) :
    exec (.corePowerGate core gate) s = execCorePowerGate core gate s := rfl
theorem exec_hostLinkDown (link : Nat) (down : Bool) (s : State) :
    exec (.hostLinkDown link down) s = execHostLinkDown link down s := rfl
theorem exec_correctableError (die : Nat) (s : State) :
    exec (.correctableError die) s = execCorrectableError die s := rfl

end Sys2Proof.Machine
end

