-- ==== Sys2Proof/Laws/Memory.lean ====
section
/-! SUPPORT. Every operation that writes a memory keeps its canonical form; and what the plain ones leave in it. -/

namespace Sys2Proof.Laws
open Sys2Proof Sys2Proof.Machine

/-! ## Bonded DRAM -/

theorem wrMem_mem (s : State) (pa : Nat) (bs : List Byte) : (s.wrMem pa bs).mem = wrBytes s.mem pa bs := rfl

theorem wrMem_wf (s : State) (pa : Nat) (bs : List Byte) (h : Memory.wf s.mem = true) : Memory.wf (s.wrMem pa bs).mem = true :=
  wf_wrBytes _ _ _ h

theorem wrSector_wf (s : State) (pa : Nat) (mask : BitVec 32) (bs : Map Byte) (h : Memory.wf s.mem = true) :
    Memory.wf (s.wrSector pa mask bs).mem = true := wf_wrMasked _ _ _ _ h

/-- An induction over a list of updates each of which keeps a property. -/
theorem foldl_keeps {α : Type} (p : State → Prop) (f : State → α → State) (h : ∀ s x, p s → p (f s x)) (l : List α) (s : State) (hs : p s) :
    p (l.foldl f s) := by
  induction l generalizing s with
  | nil => exact hs
  | cons x l ih => exact ih _ (h _ _ hs)

theorem combine_wf (s : State) (pa : Nat) (h : Memory.wf s.mem = true) : Memory.wf (s.combine pa).mem = true := by
  unfold State.combine
  dsimp only
  split
  · exact h
  · exact foldl_keeps (fun s => Memory.wf s.mem = true) _ (fun s x hs => wrMem_wf _ _ _ hs) _ _ h

theorem physLoad_wf (s : State) (pa n : Nat) (h : Memory.wf s.mem = true) : Memory.wf (s.physLoad pa n).1.mem = true :=
  combine_wf s pa h

theorem physStore_wf (s : State) (pa : Nat) (bs : List Byte) (h : Memory.wf s.mem = true) : Memory.wf (s.physStore pa bs).mem = true := by
  unfold State.physStore
  dsimp only
  apply wrMem_wf
  split <;> exact combine_wf s pa h

theorem physSector_wf (s : State) (pa : Nat) (mask : BitVec 32) (bs : Map Byte) (h : Memory.wf s.mem = true) :
    Memory.wf (s.physSector pa mask bs).mem = true := by
  unfold State.physSector
  dsimp only
  apply wrSector_wf
  split <;> exact combine_wf s pa h

theorem tokHome_mem (s : State) (pa : Nat) : (s.tokHome pa).mem = s.mem := by unfold State.tokHome; split <;> rfl

theorem atomAt_wf (s : State) (pa : Nat) (op : AtomOp) (w : Bool) (b c : Nat) (h : Memory.wf s.mem = true) :
    Memory.wf (s.atomAt pa op w b c).1.mem = true := by
  unfold State.atomAt
  apply physStore_wf
  apply physLoad_wf
  rw [tokHome_mem]
  exact h

theorem setEntry_wf (s : State) (ent : Nat) (f : Nat → Nat) (h : Memory.wf s.mem = true) : Memory.wf (s.setEntry ent f).mem = true := by
  apply physStore_wf
  apply combine_wf
  rw [tokHome_mem]
  exact h

theorem setUsed_wf (s : State) (k : AKind) (l : Leaf) (h : Memory.wf s.mem = true) : Memory.wf (s.setUsed k l).mem = true := by
  unfold State.setUsed
  dsimp only
  split
  · exact combine_wf _ _ h
  · exact setEntry_wf _ _ _ (combine_wf _ _ h)

theorem homeToken_mem (s : State) (pa : Nat) : (s.homeToken pa).mem = s.mem := by unfold State.homeToken; split <;> rfl

theorem combineTables_wf (s : State) (aslot va : Nat) (h : Memory.wf s.mem = true) : Memory.wf (s.combineTables aslot va).mem = true := by
  have it : ∀ n (s : State), Memory.wf s.mem = true →
      Memory.wf (iterate (fun s => (s.tablePath aslot va).foldl State.combine s) n s).mem = true := by
    intro n
    induction n with
    | zero => intro s h; exact h
    | succ n ih => intro s h; exact ih _ (foldl_keeps (fun s => Memory.wf s.mem = true) _ (fun s e h => combine_wf s e h) _ s h)
  exact foldl_keeps (fun s => Memory.wf s.mem = true) _ (fun s e h => by rw [homeToken_mem]; exact h) _ _ (it 5 s h)

theorem setOff_wf (s : State) (aslot va off : Nat) (h : Memory.wf s.mem = true) : Memory.wf (s.setOff aslot va off).mem = true := by
  have h' := combineTables_wf s aslot va h
  unfold State.setOff
  generalize s.combineTables aslot va = u at h'
  dsimp only
  split
  · exact h'
  · next l _ =>
    have k := setEntry_wf u l.ent (fun e => putBits e 63 62 off) h'
    generalize u.setEntry l.ent (fun e => putBits e 63 62 off) = v at k
    exact k

/-! ## Images and ranges -/

/-- Tables in canonical form, the keys of the first below a bound and those of the second from it on, make one. -/
theorem mwf_append {α : Type} [DecidableEq α] (d : α) (m m' : Map α) (lo b : Nat) (h : mwf d lo m = true) (h' : mwf d b m' = true)
    (hb : ∀ x ∈ m, x.1 < b) (hl : lo ≤ b) : mwf d lo (m ++ m') = true := by
  induction m generalizing lo with
  | nil => exact mwf_weaken d m' b lo h' hl
  | cons x m ih =>
    obtain ⟨k, v⟩ := x
    simp only [mwf, Bool.and_eq_true, decide_eq_true_eq, List.cons_append] at h ⊢
    have hk : k < b := hb (k, v) List.mem_cons_self
    exact ⟨h.1, ih _ h.2 (fun x hx => hb x (List.mem_cons_of_mem _ hx)) hk⟩

/-- The entries of a canonical table from a key on are canonical from that key on. -/
theorem mwf_from {α : Type} [DecidableEq α] (d : α) (p : Nat × α → Bool) (b : Nat) (m : Map α) (lo : Nat) (h : mwf d lo m = true)
    (hp : ∀ x ∈ m, p x = true → b ≤ x.1) : mwf d b (m.filter p) = true := by
  induction m generalizing lo with
  | nil => rfl
  | cons x m ih =>
    obtain ⟨k, v⟩ := x
    simp only [mwf, Bool.and_eq_true, decide_eq_true_eq] at h
    have hm : ∀ x ∈ m, p x = true → b ≤ x.1 := fun x hx => hp x (List.mem_cons_of_mem _ hx)
    by_cases hk : p (k, v) = true
    · rw [List.filter_cons_of_pos hk]
      simp only [mwf, Bool.and_eq_true, decide_eq_true_eq]
      exact ⟨⟨hp _ List.mem_cons_self hk, h.1.2⟩, mwf_filter d p m (k + 1) h.2⟩
    · rw [List.filter_cons_of_neg hk]
      exact ih _ h.2 hm

theorem spliceMem_wf (m img : List Host.Cell) (a n : Nat) (h : Memory.wf m = true) (h' : Memory.wf img = true) :
    Memory.wf (spliceMem m img a n) = true := by
  unfold spliceMem Memory.wf
  rw [List.append_assoc]
  apply mwf_append 0 _ _ 0 a
  · exact mwf_filter 0 _ m 0 h
  · apply mwf_append 0 _ _ a (a + n)
    · exact mwf_from 0 _ a img 0 h' (by intro x _ hx; simp at hx; exact hx.1)
    · exact mwf_from 0 _ (a + n) m 0 h (by intro x _ hx; simpa using hx)
    · intro x hx; simp at hx; exact hx.2.2
    · omega
  · intro x hx; simp at hx; exact hx.2
  · omega

theorem zeroRange_wf (s : State) (a n : Nat) (h : Memory.wf s.mem = true) : Memory.wf (s.zeroRange a n).mem = true :=
  mwf_filter (0 : Byte) _ s.mem 0 h

/-- A list of writes of numbers keeps the form. -/
theorem foldl_wrNum_wf (l : List Nat) (f g n : Nat → Nat) (m : List Host.Cell) (h : Memory.wf m = true) :
    Memory.wf (l.foldl (fun m i => wrNum m (f i) (n i) (g i)) m) = true := by
  induction l generalizing m with
  | nil => exact h
  | cons x l ih => exact ih _ (wf_wrNum _ _ _ _ h)

theorem lehrWrite_wf (base key : Nat) (mem : List Host.Cell) (tags : Map Word) (host : List Host.Cell) (h : Memory.wf host = true) :
    Memory.wf (lehrWrite base key mem tags host) = true := by
  unfold lehrWrite
  extract_lets k
  exact foldl_wrNum_wf _ _ _ _ _ (foldl_wrNum_wf _ _ _ _ _ h)

theorem lehrMem_wf (base key : Nat) (host : List Host.Cell) : Memory.wf (lehrMem base key host) = true := by
  unfold lehrMem
  exact foldl_wrNum_wf _ _ _ _ _ rfl

/-! ## Host memory -/

theorem devEvent_wf (s : State) (code core slot : Nat) (detail : List Nat) (h : Memory.wf s.hostMem = true) :
    Memory.wf (s.devEvent code core slot detail).hostMem = true := by
  unfold State.devEvent
  dsimp only
  split
  · exact h
  · exact foldl_wrNum_wf _ _ _ _ _ h

theorem devEvent_mem (s : State) (code core slot : Nat) (detail : List Nat) : (s.devEvent code core slot detail).mem = s.mem := by
  unfold State.devEvent
  dsimp only
  split <;> rfl

theorem hostDo_wf (s : State) (a : Nat) (r : RemReq) (h : Memory.wf s.hostMem = true) : Memory.wf (s.hostDo a r).1.hostMem = true := by
  unfold State.hostDo
  cases r with
  | load n => exact h
  | store n d => exact wf_wrNum _ _ _ _ h
  | sector m bs =>
    dsimp only
    generalize List.range 32 = l
    generalize s.hostMem = hm at h ⊢
    induction l generalizing hm with
    | nil => exact h
    | cons x l ih =>
      apply ih
      beta_reduce
      split
      · exact wf_wrByte _ _ _ h
      · exact h
  | atomic op w b c => exact wf_wrNum _ _ _ _ h
  | contrib w d => exact h
  | engine m => exact h
  | ropCas a b => exact h
  | ropEnq n => exact h
  | ropChase a b => exact h

end Sys2Proof.Laws
end

