-- ==== Sys2Proof/Laws/State.lean ====
section
/-! SUPPORT. What each update of the state leaves of each field: one lemma per field and update, true by `rfl`. -/

namespace Sys2Proof.Laws
open Sys2Proof Sys2Proof.Machine

/-! ## `setCore` -/

@[simp] theorem hostMem_setCore (s : State) (i : Nat) (c : Core) : (s.setCore i c).hostMem = s.hostMem := rfl
@[simp] theorem clusters_setCore (s : State) (i : Nat) (c : Core) : (s.setCore i c).clusters = s.clusters := rfl
@[simp] theorem frames_setCore (s : State) (i : Nat) (c : Core) : (s.setCore i c).frames = s.frames := rfl
@[simp] theorem tags_setCore (s : State) (i : Nat) (c : Core) : (s.setCore i c).tags = s.tags := rfl
@[simp] theorem poison_setCore (s : State) (i : Nat) (c : Core) : (s.setCore i c).poison = s.poison := rfl
@[simp] theorem shadow_setCore (s : State) (i : Nat) (c : Core) : (s.setCore i c).shadow = s.shadow := rfl
@[simp] theorem ival_setCore (s : State) (i : Nat) (c : Core) : (s.setCore i c).ival = s.ival := rfl
@[simp] theorem sealed_setCore (s : State) (i : Nat) (c : Core) : (s.setCore i c).sealed = s.sealed := rfl
@[simp] theorem preqs_setCore (s : State) (i : Nat) (c : Core) : (s.setCore i c).preqs = s.preqs := rfl
@[simp] theorem served_setCore (s : State) (i : Nat) (c : Core) : (s.setCore i c).served = s.served := rfl
@[simp] theorem fails_setCore (s : State) (i : Nat) (c : Core) : (s.setCore i c).fails = s.fails := rfl
@[simp] theorem code_setCore (s : State) (i : Nat) (c : Core) : (s.setCore i c).code = s.code := rfl
@[simp] theorem stamp_setCore (s : State) (i : Nat) (c : Core) : (s.setCore i c).stamp = s.stamp := rfl
@[simp] theorem launches_setCore (s : State) (i : Nat) (c : Core) : (s.setCore i c).launches = s.launches := rfl
@[simp] theorem roots_setCore (s : State) (i : Nat) (c : Core) : (s.setCore i c).roots = s.roots := rfl
@[simp] theorem dist_setCore (s : State) (i : Nat) (c : Core) : (s.setCore i c).dist = s.dist := rfl
@[simp] theorem recs_setCore (s : State) (i : Nat) (c : Core) : (s.setCore i c).recs = s.recs := rfl
@[simp] theorem flows_setCore (s : State) (i : Nat) (c : Core) : (s.setCore i c).flows = s.flows := rfl
@[simp] theorem robs_setCore (s : State) (i : Nat) (c : Core) : (s.setCore i c).robs = s.robs := rfl
@[simp] theorem ports_setCore (s : State) (i : Nat) (c : Core) : (s.setCore i c).ports = s.ports := rfl
@[simp] theorem comms_setCore (s : State) (i : Nat) (c : Core) : (s.setCore i c).comms = s.comms := rfl
@[simp] theorem engines_setCore (s : State) (i : Nat) (c : Core) : (s.setCore i c).engines = s.engines := rfl
@[simp] theorem chans_setCore (s : State) (i : Nat) (c : Core) : (s.setCore i c).chans = s.chans := rfl
@[simp] theorem chRR_setCore (s : State) (i : Nat) (c : Core) : (s.setCore i c).chRR = s.chRR := rfl
@[simp] theorem xphSlot_setCore (s : State) (i : Nat) (c : Core) : (s.setCore i c).xphSlot = s.xphSlot := rfl
@[simp] theorem xphStat_setCore (s : State) (i : Nat) (c : Core) : (s.setCore i c).xphStat = s.xphStat := rfl
@[simp] theorem mb_setCore (s : State) (i : Nat) (c : Core) : (s.setCore i c).mb = s.mb := rfl
@[simp] theorem ev_setCore (s : State) (i : Nat) (c : Core) : (s.setCore i c).ev = s.ev := rfl
@[simp] theorem errCe_setCore (s : State) (i : Nat) (c : Core) : (s.setCore i c).errCe = s.errCe := rfl
@[simp] theorem errUe_setCore (s : State) (i : Nat) (c : Core) : (s.setCore i c).errUe = s.errUe := rfl
@[simp] theorem boot_setCore (s : State) (i : Nat) (c : Core) : (s.setCore i c).boot = s.boot := rfl
@[simp] theorem devNo_setCore (s : State) (i : Nat) (c : Core) : (s.setCore i c).devNo = s.devNo := rfl
@[simp] theorem links_setCore (s : State) (i : Nat) (c : Core) : (s.setCore i c).links = s.links := rfl
@[simp] theorem msix_setCore (s : State) (i : Nat) (c : Core) : (s.setCore i c).msix = s.msix := rfl
@[simp] theorem outbox_setCore (s : State) (i : Nat) (c : Core) : (s.setCore i c).outbox = s.outbox := rfl
@[simp] theorem hostOut_setCore (s : State) (i : Nat) (c : Core) : (s.setCore i c).hostOut = s.hostOut := rfl
@[simp] theorem lehr_setCore (s : State) (i : Nat) (c : Core) : (s.setCore i c).lehr = s.lehr := rfl
@[simp] theorem ckpt_setCore (s : State) (i : Nat) (c : Core) : (s.setCore i c).ckpt = s.ckpt := rfl
@[simp] theorem hot_setCore (s : State) (i : Nat) (c : Core) : (s.setCore i c).hot = s.hot := rfl
@[simp] theorem update_setCore (s : State) (i : Nat) (c : Core) : (s.setCore i c).update = s.update := rfl
@[simp] theorem mhz_setCore (s : State) (i : Nat) (c : Core) : (s.setCore i c).mhz = s.mhz := rfl
@[simp] theorem cyc_setCore (s : State) (i : Nat) (c : Core) : (s.setCore i c).cyc = s.cyc := rfl
@[simp] theorem us_setCore (s : State) (i : Nat) (c : Core) : (s.setCore i c).us = s.us := rfl
@[simp] theorem sub_setCore (s : State) (i : Nat) (c : Core) : (s.setCore i c).sub = s.sub := rfl
@[simp] theorem uids_setCore (s : State) (i : Nat) (c : Core) : (s.setCore i c).uids = s.uids := rfl
@[simp] theorem fresh_setCore (s : State) (i : Nat) (c : Core) : (s.setCore i c).fresh = s.fresh := rfl
@[simp] theorem tape_setCore (s : State) (i : Nat) (c : Core) : (s.setCore i c).tape = s.tape := rfl
@[simp] theorem shadowSr_setCore (s : State) (i : Nat) (c : Core) : (s.setCore i c).shadowSr = s.shadowSr := rfl
@[simp] theorem fetches_setCore (s : State) (i : Nat) (c : Core) : (s.setCore i c).fetches = s.fetches := rfl
@[simp] theorem fw_setCore (s : State) (i : Nat) (c : Core) : (s.setCore i c).fw = s.fw := rfl
@[simp] theorem rank_setCore (s : State) (i : Nat) (c : Core) : (s.setCore i c).rank = s.rank := rfl

/-! ## `modCore` -/

@[simp] theorem hostMem_modCore (s : State) (i : Nat) (f : Core → Core) : (s.modCore i f).hostMem = s.hostMem := rfl
@[simp] theorem clusters_modCore (s : State) (i : Nat) (f : Core → Core) : (s.modCore i f).clusters = s.clusters := rfl
@[simp] theorem frames_modCore (s : State) (i : Nat) (f : Core → Core) : (s.modCore i f).frames = s.frames := rfl
@[simp] theorem tags_modCore (s : State) (i : Nat) (f : Core → Core) : (s.modCore i f).tags = s.tags := rfl
@[simp] theorem poison_modCore (s : State) (i : Nat) (f : Core → Core) : (s.modCore i f).poison = s.poison := rfl
@[simp] theorem shadow_modCore (s : State) (i : Nat) (f : Core → Core) : (s.modCore i f).shadow = s.shadow := rfl
@[simp] theorem ival_modCore (s : State) (i : Nat) (f : Core → Core) : (s.modCore i f).ival = s.ival := rfl
@[simp] theorem sealed_modCore (s : State) (i : Nat) (f : Core → Core) : (s.modCore i f).sealed = s.sealed := rfl
@[simp] theorem preqs_modCore (s : State) (i : Nat) (f : Core → Core) : (s.modCore i f).preqs = s.preqs := rfl
@[simp] theorem served_modCore (s : State) (i : Nat) (f : Core → Core) : (s.modCore i f).served = s.served := rfl
@[simp] theorem fails_modCore (s : State) (i : Nat) (f : Core → Core) : (s.modCore i f).fails = s.fails := rfl
@[simp] theorem code_modCore (s : State) (i : Nat) (f : Core → Core) : (s.modCore i f).code = s.code := rfl
@[simp] theorem stamp_modCore (s : State) (i : Nat) (f : Core → Core) : (s.modCore i f).stamp = s.stamp := rfl
@[simp] theorem launches_modCore (s : State) (i : Nat) (f : Core → Core) : (s.modCore i f).launches = s.launches := rfl
@[simp] theorem roots_modCore (s : State) (i : Nat) (f : Core → Core) : (s.modCore i f).roots = s.roots := rfl
@[simp] theorem dist_modCore (s : State) (i : Nat) (f : Core → Core) : (s.modCore i f).dist = s.dist := rfl
@[simp] theorem recs_modCore (s : State) (i : Nat) (f : Core → Core) : (s.modCore i f).recs = s.recs := rfl
@[simp] theorem flows_modCore (s : State) (i : Nat) (f : Core → Core) : (s.modCore i f).flows = s.flows := rfl
@[simp] theorem robs_modCore (s : State) (i : Nat) (f : Core → Core) : (s.modCore i f).robs = s.robs := rfl
@[simp] theorem ports_modCore (s : State) (i : Nat) (f : Core → Core) : (s.modCore i f).ports = s.ports := rfl
@[simp] theorem comms_modCore (s : State) (i : Nat) (f : Core → Core) : (s.modCore i f).comms = s.comms := rfl
@[simp] theorem engines_modCore (s : State) (i : Nat) (f : Core → Core) : (s.modCore i f).engines = s.engines := rfl
@[simp] theorem chans_modCore (s : State) (i : Nat) (f : Core → Core) : (s.modCore i f).chans = s.chans := rfl
@[simp] theorem chRR_modCore (s : State) (i : Nat) (f : Core → Core) : (s.modCore i f).chRR = s.chRR := rfl
@[simp] theorem xphSlot_modCore (s : State) (i : Nat) (f : Core → Core) : (s.modCore i f).xphSlot = s.xphSlot := rfl
@[simp] theorem xphStat_modCore (s : State) (i : Nat) (f : Core → Core) : (s.modCore i f).xphStat = s.xphStat := rfl
@[simp] theorem mb_modCore (s : State) (i : Nat) (f : Core → Core) : (s.modCore i f).mb = s.mb := rfl
@[simp] theorem ev_modCore (s : State) (i : Nat) (f : Core → Core) : (s.modCore i f).ev = s.ev := rfl
@[simp] theorem errCe_modCore (s : State) (i : Nat) (f : Core → Core) : (s.modCore i f).errCe = s.errCe := rfl
@[simp] theorem errUe_modCore (s : State) (i : Nat) (f : Core → Core) : (s.modCore i f).errUe = s.errUe := rfl
@[simp] theorem boot_modCore (s : State) (i : Nat) (f : Core → Core) : (s.modCore i f).boot = s.boot := rfl
@[simp] theorem devNo_modCore (s : State) (i : Nat) (f : Core → Core) : (s.modCore i f).devNo = s.devNo := rfl
@[simp] theorem links_modCore (s : State) (i : Nat) (f : Core → Core) : (s.modCore i f).links = s.links := rfl
@[simp] theorem msix_modCore (s : State) (i : Nat) (f : Core → Core) : (s.modCore i f).msix = s.msix := rfl
@[simp] theorem outbox_modCore (s : State) (i : Nat) (f : Core → Core) : (s.modCore i f).outbox = s.outbox := rfl
@[simp] theorem hostOut_modCore (s : State) (i : Nat) (f : Core → Core) : (s.modCore i f).hostOut = s.hostOut := rfl
@[simp] theorem lehr_modCore (s : State) (i : Nat) (f : Core → Core) : (s.modCore i f).lehr = s.lehr := rfl
@[simp] theorem ckpt_modCore (s : State) (i : Nat) (f : Core → Core) : (s.modCore i f).ckpt = s.ckpt := rfl
@[simp] theorem hot_modCore (s : State) (i : Nat) (f : Core → Core) : (s.modCore i f).hot = s.hot := rfl
@[simp] theorem update_modCore (s : State) (i : Nat) (f : Core → Core) : (s.modCore i f).update = s.update := rfl
@[simp] theorem mhz_modCore (s : State) (i : Nat) (f : Core → Core) : (s.modCore i f).mhz = s.mhz := rfl
@[simp] theorem cyc_modCore (s : State) (i : Nat) (f : Core → Core) : (s.modCore i f).cyc = s.cyc := rfl
@[simp] theorem us_modCore (s : State) (i : Nat) (f : Core → Core) : (s.modCore i f).us = s.us := rfl
@[simp] theorem sub_modCore (s : State) (i : Nat) (f : Core → Core) : (s.modCore i f).sub = s.sub := rfl
@[simp] theorem uids_modCore (s : State) (i : Nat) (f : Core → Core) : (s.modCore i f).uids = s.uids := rfl
@[simp] theorem fresh_modCore (s : State) (i : Nat) (f : Core → Core) : (s.modCore i f).fresh = s.fresh := rfl
@[simp] theorem tape_modCore (s : State) (i : Nat) (f : Core → Core) : (s.modCore i f).tape = s.tape := rfl
@[simp] theorem shadowSr_modCore (s : State) (i : Nat) (f : Core → Core) : (s.modCore i f).shadowSr = s.shadowSr := rfl
@[simp] theorem fetches_modCore (s : State) (i : Nat) (f : Core → Core) : (s.modCore i f).fetches = s.fetches := rfl
@[simp] theorem fw_modCore (s : State) (i : Nat) (f : Core → Core) : (s.modCore i f).fw = s.fw := rfl
@[simp] theorem rank_modCore (s : State) (i : Nat) (f : Core → Core) : (s.modCore i f).rank = s.rank := rfl

/-! ## `setWave` -/

@[simp] theorem hostMem_setWave (s : State) (i k : Nat) (w : Wave) : (s.setWave i k w).hostMem = s.hostMem := rfl
@[simp] theorem clusters_setWave (s : State) (i k : Nat) (w : Wave) : (s.setWave i k w).clusters = s.clusters := rfl
@[simp] theorem frames_setWave (s : State) (i k : Nat) (w : Wave) : (s.setWave i k w).frames = s.frames := rfl
@[simp] theorem tags_setWave (s : State) (i k : Nat) (w : Wave) : (s.setWave i k w).tags = s.tags := rfl
@[simp] theorem poison_setWave (s : State) (i k : Nat) (w : Wave) : (s.setWave i k w).poison = s.poison := rfl
@[simp] theorem shadow_setWave (s : State) (i k : Nat) (w : Wave) : (s.setWave i k w).shadow = s.shadow := rfl
@[simp] theorem ival_setWave (s : State) (i k : Nat) (w : Wave) : (s.setWave i k w).ival = s.ival := rfl
@[simp] theorem sealed_setWave (s : State) (i k : Nat) (w : Wave) : (s.setWave i k w).sealed = s.sealed := rfl
@[simp] theorem preqs_setWave (s : State) (i k : Nat) (w : Wave) : (s.setWave i k w).preqs = s.preqs := rfl
@[simp] theorem served_setWave (s : State) (i k : Nat) (w : Wave) : (s.setWave i k w).served = s.served := rfl
@[simp] theorem fails_setWave (s : State) (i k : Nat) (w : Wave) : (s.setWave i k w).fails = s.fails := rfl
@[simp] theorem code_setWave (s : State) (i k : Nat) (w : Wave) : (s.setWave i k w).code = s.code := rfl
@[simp] theorem stamp_setWave (s : State) (i k : Nat) (w : Wave) : (s.setWave i k w).stamp = s.stamp := rfl
@[simp] theorem launches_setWave (s : State) (i k : Nat) (w : Wave) : (s.setWave i k w).launches = s.launches := rfl
@[simp] theorem roots_setWave (s : State) (i k : Nat) (w : Wave) : (s.setWave i k w).roots = s.roots := rfl
@[simp] theorem dist_setWave (s : State) (i k : Nat) (w : Wave) : (s.setWave i k w).dist = s.dist := rfl
@[simp] theorem recs_setWave (s : State) (i k : Nat) (w : Wave) : (s.setWave i k w).recs = s.recs := rfl
@[simp] theorem flows_setWave (s : State) (i k : Nat) (w : Wave) : (s.setWave i k w).flows = s.flows := rfl
@[simp] theorem robs_setWave (s : State) (i k : Nat) (w : Wave) : (s.setWave i k w).robs = s.robs := rfl
@[simp] theorem ports_setWave (s : State) (i k : Nat) (w : Wave) : (s.setWave i k w).ports = s.ports := rfl
@[simp] theorem comms_setWave (s : State) (i k : Nat) (w : Wave) : (s.setWave i k w).comms = s.comms := rfl
@[simp] theorem engines_setWave (s : State) (i k : Nat) (w : Wave) : (s.setWave i k w).engines = s.engines := rfl
@[simp] theorem chans_setWave (s : State) (i k : Nat) (w : Wave) : (s.setWave i k w).chans = s.chans := rfl
@[simp] theorem chRR_setWave (s : State) (i k : Nat) (w : Wave) : (s.setWave i k w).chRR = s.chRR := rfl
@[simp] theorem xphSlot_setWave (s : State) (i k : Nat) (w : Wave) : (s.setWave i k w).xphSlot = s.xphSlot := rfl
@[simp] theorem xphStat_setWave (s : State) (i k : Nat) (w : Wave) : (s.setWave i k w).xphStat = s.xphStat := rfl
@[simp] theorem mb_setWave (s : State) (i k : Nat) (w : Wave) : (s.setWave i k w).mb = s.mb := rfl
@[simp] theorem ev_setWave (s : State) (i k : Nat) (w : Wave) : (s.setWave i k w).ev = s.ev := rfl
@[simp] theorem errCe_setWave (s : State) (i k : Nat) (w : Wave) : (s.setWave i k w).errCe = s.errCe := rfl
@[simp] theorem errUe_setWave (s : State) (i k : Nat) (w : Wave) : (s.setWave i k w).errUe = s.errUe := rfl
@[simp] theorem boot_setWave (s : State) (i k : Nat) (w : Wave) : (s.setWave i k w).boot = s.boot := rfl
@[simp] theorem devNo_setWave (s : State) (i k : Nat) (w : Wave) : (s.setWave i k w).devNo = s.devNo := rfl
@[simp] theorem links_setWave (s : State) (i k : Nat) (w : Wave) : (s.setWave i k w).links = s.links := rfl
@[simp] theorem msix_setWave (s : State) (i k : Nat) (w : Wave) : (s.setWave i k w).msix = s.msix := rfl
@[simp] theorem outbox_setWave (s : State) (i k : Nat) (w : Wave) : (s.setWave i k w).outbox = s.outbox := rfl
@[simp] theorem hostOut_setWave (s : State) (i k : Nat) (w : Wave) : (s.setWave i k w).hostOut = s.hostOut := rfl
@[simp] theorem lehr_setWave (s : State) (i k : Nat) (w : Wave) : (s.setWave i k w).lehr = s.lehr := rfl
@[simp] theorem ckpt_setWave (s : State) (i k : Nat) (w : Wave) : (s.setWave i k w).ckpt = s.ckpt := rfl
@[simp] theorem hot_setWave (s : State) (i k : Nat) (w : Wave) : (s.setWave i k w).hot = s.hot := rfl
@[simp] theorem update_setWave (s : State) (i k : Nat) (w : Wave) : (s.setWave i k w).update = s.update := rfl
@[simp] theorem mhz_setWave (s : State) (i k : Nat) (w : Wave) : (s.setWave i k w).mhz = s.mhz := rfl
@[simp] theorem cyc_setWave (s : State) (i k : Nat) (w : Wave) : (s.setWave i k w).cyc = s.cyc := rfl
@[simp] theorem us_setWave (s : State) (i k : Nat) (w : Wave) : (s.setWave i k w).us = s.us := rfl
@[simp] theorem sub_setWave (s : State) (i k : Nat) (w : Wave) : (s.setWave i k w).sub = s.sub := rfl
@[simp] theorem uids_setWave (s : State) (i k : Nat) (w : Wave) : (s.setWave i k w).uids = s.uids := rfl
@[simp] theorem fresh_setWave (s : State) (i k : Nat) (w : Wave) : (s.setWave i k w).fresh = s.fresh := rfl
@[simp] theorem tape_setWave (s : State) (i k : Nat) (w : Wave) : (s.setWave i k w).tape = s.tape := rfl
@[simp] theorem shadowSr_setWave (s : State) (i k : Nat) (w : Wave) : (s.setWave i k w).shadowSr = s.shadowSr := rfl
@[simp] theorem fetches_setWave (s : State) (i k : Nat) (w : Wave) : (s.setWave i k w).fetches = s.fetches := rfl
@[simp] theorem fw_setWave (s : State) (i k : Nat) (w : Wave) : (s.setWave i k w).fw = s.fw := rfl
@[simp] theorem rank_setWave (s : State) (i k : Nat) (w : Wave) : (s.setWave i k w).rank = s.rank := rfl

/-! ## `modXp` -/

@[simp] theorem hostMem_modXp (s : State) (i x : Nat) (f : XP → XP) : (s.modXp i x f).hostMem = s.hostMem := rfl
@[simp] theorem clusters_modXp (s : State) (i x : Nat) (f : XP → XP) : (s.modXp i x f).clusters = s.clusters := rfl
@[simp] theorem slots_modXp (s : State) (i x : Nat) (f : XP → XP) : (s.modXp i x f).slots = s.slots := rfl
@[simp] theorem frames_modXp (s : State) (i x : Nat) (f : XP → XP) : (s.modXp i x f).frames = s.frames := rfl
@[simp] theorem tags_modXp (s : State) (i x : Nat) (f : XP → XP) : (s.modXp i x f).tags = s.tags := rfl
@[simp] theorem poison_modXp (s : State) (i x : Nat) (f : XP → XP) : (s.modXp i x f).poison = s.poison := rfl
@[simp] theorem shadow_modXp (s : State) (i x : Nat) (f : XP → XP) : (s.modXp i x f).shadow = s.shadow := rfl
@[simp] theorem ival_modXp (s : State) (i x : Nat) (f : XP → XP) : (s.modXp i x f).ival = s.ival := rfl
@[simp] theorem sealed_modXp (s : State) (i x : Nat) (f : XP → XP) : (s.modXp i x f).sealed = s.sealed := rfl
@[simp] theorem preqs_modXp (s : State) (i x : Nat) (f : XP → XP) : (s.modXp i x f).preqs = s.preqs := rfl
@[simp] theorem served_modXp (s : State) (i x : Nat) (f : XP → XP) : (s.modXp i x f).served = s.served := rfl
@[simp] theorem fails_modXp (s : State) (i x : Nat) (f : XP → XP) : (s.modXp i x f).fails = s.fails := rfl
@[simp] theorem code_modXp (s : State) (i x : Nat) (f : XP → XP) : (s.modXp i x f).code = s.code := rfl
@[simp] theorem stamp_modXp (s : State) (i x : Nat) (f : XP → XP) : (s.modXp i x f).stamp = s.stamp := rfl
@[simp] theorem launches_modXp (s : State) (i x : Nat) (f : XP → XP) : (s.modXp i x f).launches = s.launches := rfl
@[simp] theorem roots_modXp (s : State) (i x : Nat) (f : XP → XP) : (s.modXp i x f).roots = s.roots := rfl
@[simp] theorem dist_modXp (s : State) (i x : Nat) (f : XP → XP) : (s.modXp i x f).dist = s.dist := rfl
@[simp] theorem recs_modXp (s : State) (i x : Nat) (f : XP → XP) : (s.modXp i x f).recs = s.recs := rfl
@[simp] theorem flows_modXp (s : State) (i x : Nat) (f : XP → XP) : (s.modXp i x f).flows = s.flows := rfl
@[simp] theorem robs_modXp (s : State) (i x : Nat) (f : XP → XP) : (s.modXp i x f).robs = s.robs := rfl
@[simp] theorem ports_modXp (s : State) (i x : Nat) (f : XP → XP) : (s.modXp i x f).ports = s.ports := rfl
@[simp] theorem comms_modXp (s : State) (i x : Nat) (f : XP → XP) : (s.modXp i x f).comms = s.comms := rfl
@[simp] theorem engines_modXp (s : State) (i x : Nat) (f : XP → XP) : (s.modXp i x f).engines = s.engines := rfl
@[simp] theorem chans_modXp (s : State) (i x : Nat) (f : XP → XP) : (s.modXp i x f).chans = s.chans := rfl
@[simp] theorem chRR_modXp (s : State) (i x : Nat) (f : XP → XP) : (s.modXp i x f).chRR = s.chRR := rfl
@[simp] theorem xphSlot_modXp (s : State) (i x : Nat) (f : XP → XP) : (s.modXp i x f).xphSlot = s.xphSlot := rfl
@[simp] theorem xphStat_modXp (s : State) (i x : Nat) (f : XP → XP) : (s.modXp i x f).xphStat = s.xphStat := rfl
@[simp] theorem mb_modXp (s : State) (i x : Nat) (f : XP → XP) : (s.modXp i x f).mb = s.mb := rfl
@[simp] theorem ev_modXp (s : State) (i x : Nat) (f : XP → XP) : (s.modXp i x f).ev = s.ev := rfl
@[simp] theorem errCe_modXp (s : State) (i x : Nat) (f : XP → XP) : (s.modXp i x f).errCe = s.errCe := rfl
@[simp] theorem errUe_modXp (s : State) (i x : Nat) (f : XP → XP) : (s.modXp i x f).errUe = s.errUe := rfl
@[simp] theorem boot_modXp (s : State) (i x : Nat) (f : XP → XP) : (s.modXp i x f).boot = s.boot := rfl
@[simp] theorem devNo_modXp (s : State) (i x : Nat) (f : XP → XP) : (s.modXp i x f).devNo = s.devNo := rfl
@[simp] theorem links_modXp (s : State) (i x : Nat) (f : XP → XP) : (s.modXp i x f).links = s.links := rfl
@[simp] theorem msix_modXp (s : State) (i x : Nat) (f : XP → XP) : (s.modXp i x f).msix = s.msix := rfl
@[simp] theorem outbox_modXp (s : State) (i x : Nat) (f : XP → XP) : (s.modXp i x f).outbox = s.outbox := rfl
@[simp] theorem hostOut_modXp (s : State) (i x : Nat) (f : XP → XP) : (s.modXp i x f).hostOut = s.hostOut := rfl
@[simp] theorem lehr_modXp (s : State) (i x : Nat) (f : XP → XP) : (s.modXp i x f).lehr = s.lehr := rfl
@[simp] theorem ckpt_modXp (s : State) (i x : Nat) (f : XP → XP) : (s.modXp i x f).ckpt = s.ckpt := rfl
@[simp] theorem hot_modXp (s : State) (i x : Nat) (f : XP → XP) : (s.modXp i x f).hot = s.hot := rfl
@[simp] theorem update_modXp (s : State) (i x : Nat) (f : XP → XP) : (s.modXp i x f).update = s.update := rfl
@[simp] theorem mhz_modXp (s : State) (i x : Nat) (f : XP → XP) : (s.modXp i x f).mhz = s.mhz := rfl
@[simp] theorem cyc_modXp (s : State) (i x : Nat) (f : XP → XP) : (s.modXp i x f).cyc = s.cyc := rfl
@[simp] theorem us_modXp (s : State) (i x : Nat) (f : XP → XP) : (s.modXp i x f).us = s.us := rfl
@[simp] theorem sub_modXp (s : State) (i x : Nat) (f : XP → XP) : (s.modXp i x f).sub = s.sub := rfl
@[simp] theorem uids_modXp (s : State) (i x : Nat) (f : XP → XP) : (s.modXp i x f).uids = s.uids := rfl
@[simp] theorem fresh_modXp (s : State) (i x : Nat) (f : XP → XP) : (s.modXp i x f).fresh = s.fresh := rfl
@[simp] theorem tape_modXp (s : State) (i x : Nat) (f : XP → XP) : (s.modXp i x f).tape = s.tape := rfl
@[simp] theorem shadowSr_modXp (s : State) (i x : Nat) (f : XP → XP) : (s.modXp i x f).shadowSr = s.shadowSr := rfl
@[simp] theorem fetches_modXp (s : State) (i x : Nat) (f : XP → XP) : (s.modXp i x f).fetches = s.fetches := rfl
@[simp] theorem fw_modXp (s : State) (i x : Nat) (f : XP → XP) : (s.modXp i x f).fw = s.fw := rfl
@[simp] theorem rank_modXp (s : State) (i x : Nat) (f : XP → XP) : (s.modXp i x f).rank = s.rank := rfl

/-! ## `mapWaves` -/

@[simp] theorem mem_mapWaves (s : State) (f : Nat → Wave → Wave) : (s.mapWaves f).mem = s.mem := rfl
@[simp] theorem hostMem_mapWaves (s : State) (f : Nat → Wave → Wave) : (s.mapWaves f).hostMem = s.hostMem := rfl
@[simp] theorem clusters_mapWaves (s : State) (f : Nat → Wave → Wave) : (s.mapWaves f).clusters = s.clusters := rfl
@[simp] theorem slots_mapWaves (s : State) (f : Nat → Wave → Wave) : (s.mapWaves f).slots = s.slots := rfl
@[simp] theorem frames_mapWaves (s : State) (f : Nat → Wave → Wave) : (s.mapWaves f).frames = s.frames := rfl
@[simp] theorem tags_mapWaves (s : State) (f : Nat → Wave → Wave) : (s.mapWaves f).tags = s.tags := rfl
@[simp] theorem poison_mapWaves (s : State) (f : Nat → Wave → Wave) : (s.mapWaves f).poison = s.poison := rfl
@[simp] theorem shadow_mapWaves (s : State) (f : Nat → Wave → Wave) : (s.mapWaves f).shadow = s.shadow := rfl
@[simp] theorem ival_mapWaves (s : State) (f : Nat → Wave → Wave) : (s.mapWaves f).ival = s.ival := rfl
@[simp] theorem sealed_mapWaves (s : State) (f : Nat → Wave → Wave) : (s.mapWaves f).sealed = s.sealed := rfl
@[simp] theorem preqs_mapWaves (s : State) (f : Nat → Wave → Wave) : (s.mapWaves f).preqs = s.preqs := rfl
@[simp] theorem served_mapWaves (s : State) (f : Nat → Wave → Wave) : (s.mapWaves f).served = s.served := rfl
@[simp] theorem fails_mapWaves (s : State) (f : Nat → Wave → Wave) : (s.mapWaves f).fails = s.fails := rfl
@[simp] theorem code_mapWaves (s : State) (f : Nat → Wave → Wave) : (s.mapWaves f).code = s.code := rfl
@[simp] theorem stamp_mapWaves (s : State) (f : Nat → Wave → Wave) : (s.mapWaves f).stamp = s.stamp := rfl
@[simp] theorem launches_mapWaves (s : State) (f : Nat → Wave → Wave) : (s.mapWaves f).launches = s.launches := rfl
@[simp] theorem roots_mapWaves (s : State) (f : Nat → Wave → Wave) : (s.mapWaves f).roots = s.roots := rfl
@[simp] theorem dist_mapWaves (s : State) (f : Nat → Wave → Wave) : (s.mapWaves f).dist = s.dist := rfl
@[simp] theorem recs_mapWaves (s : State) (f : Nat → Wave → Wave) : (s.mapWaves f).recs = s.recs := rfl
@[simp] theorem flows_mapWaves (s : State) (f : Nat → Wave → Wave) : (s.mapWaves f).flows = s.flows := rfl
@[simp] theorem robs_mapWaves (s : State) (f : Nat → Wave → Wave) : (s.mapWaves f).robs = s.robs := rfl
@[simp] theorem ports_mapWaves (s : State) (f : Nat → Wave → Wave) : (s.mapWaves f).ports = s.ports := rfl
@[simp] theorem comms_mapWaves (s : State) (f : Nat → Wave → Wave) : (s.mapWaves f).comms = s.comms := rfl
@[simp] theorem engines_mapWaves (s : State) (f : Nat → Wave → Wave) : (s.mapWaves f).engines = s.engines := rfl
@[simp] theorem chans_mapWaves (s : State) (f : Nat → Wave → Wave) : (s.mapWaves f).chans = s.chans := rfl
@[simp] theorem chRR_mapWaves (s : State) (f : Nat → Wave → Wave) : (s.mapWaves f).chRR = s.chRR := rfl
@[simp] theorem xphSlot_mapWaves (s : State) (f : Nat → Wave → Wave) : (s.mapWaves f).xphSlot = s.xphSlot := rfl
@[simp] theorem xphStat_mapWaves (s : State) (f : Nat → Wave → Wave) : (s.mapWaves f).xphStat = s.xphStat := rfl
@[simp] theorem mb_mapWaves (s : State) (f : Nat → Wave → Wave) : (s.mapWaves f).mb = s.mb := rfl
@[simp] theorem ev_mapWaves (s : State) (f : Nat → Wave → Wave) : (s.mapWaves f).ev = s.ev := rfl
@[simp] theorem errCe_mapWaves (s : State) (f : Nat → Wave → Wave) : (s.mapWaves f).errCe = s.errCe := rfl
@[simp] theorem errUe_mapWaves (s : State) (f : Nat → Wave → Wave) : (s.mapWaves f).errUe = s.errUe := rfl
@[simp] theorem boot_mapWaves (s : State) (f : Nat → Wave → Wave) : (s.mapWaves f).boot = s.boot := rfl
@[simp] theorem devNo_mapWaves (s : State) (f : Nat → Wave → Wave) : (s.mapWaves f).devNo = s.devNo := rfl
@[simp] theorem links_mapWaves (s : State) (f : Nat → Wave → Wave) : (s.mapWaves f).links = s.links := rfl
@[simp] theorem msix_mapWaves (s : State) (f : Nat → Wave → Wave) : (s.mapWaves f).msix = s.msix := rfl
@[simp] theorem outbox_mapWaves (s : State) (f : Nat → Wave → Wave) : (s.mapWaves f).outbox = s.outbox := rfl
@[simp] theorem hostOut_mapWaves (s : State) (f : Nat → Wave → Wave) : (s.mapWaves f).hostOut = s.hostOut := rfl
@[simp] theorem lehr_mapWaves (s : State) (f : Nat → Wave → Wave) : (s.mapWaves f).lehr = s.lehr := rfl
@[simp] theorem ckpt_mapWaves (s : State) (f : Nat → Wave → Wave) : (s.mapWaves f).ckpt = s.ckpt := rfl
@[simp] theorem hot_mapWaves (s : State) (f : Nat → Wave → Wave) : (s.mapWaves f).hot = s.hot := rfl
@[simp] theorem update_mapWaves (s : State) (f : Nat → Wave → Wave) : (s.mapWaves f).update = s.update := rfl
@[simp] theorem mhz_mapWaves (s : State) (f : Nat → Wave → Wave) : (s.mapWaves f).mhz = s.mhz := rfl
@[simp] theorem cyc_mapWaves (s : State) (f : Nat → Wave → Wave) : (s.mapWaves f).cyc = s.cyc := rfl
@[simp] theorem us_mapWaves (s : State) (f : Nat → Wave → Wave) : (s.mapWaves f).us = s.us := rfl
@[simp] theorem sub_mapWaves (s : State) (f : Nat → Wave → Wave) : (s.mapWaves f).sub = s.sub := rfl
@[simp] theorem uids_mapWaves (s : State) (f : Nat → Wave → Wave) : (s.mapWaves f).uids = s.uids := rfl
@[simp] theorem fresh_mapWaves (s : State) (f : Nat → Wave → Wave) : (s.mapWaves f).fresh = s.fresh := rfl
@[simp] theorem tape_mapWaves (s : State) (f : Nat → Wave → Wave) : (s.mapWaves f).tape = s.tape := rfl
@[simp] theorem focus_mapWaves (s : State) (f : Nat → Wave → Wave) : (s.mapWaves f).focus = s.focus := rfl
@[simp] theorem shadowSr_mapWaves (s : State) (f : Nat → Wave → Wave) : (s.mapWaves f).shadowSr = s.shadowSr := rfl
@[simp] theorem fetches_mapWaves (s : State) (f : Nat → Wave → Wave) : (s.mapWaves f).fetches = s.fetches := rfl
@[simp] theorem fw_mapWaves (s : State) (f : Nat → Wave → Wave) : (s.mapWaves f).fw = s.fw := rfl
@[simp] theorem rank_mapWaves (s : State) (f : Nat → Wave → Wave) : (s.mapWaves f).rank = s.rank := rfl

/-! ## `modF` -/

@[simp] theorem mem_modF (s : State) (f : Focus → Focus) : (s.modF f).mem = s.mem := rfl
@[simp] theorem hostMem_modF (s : State) (f : Focus → Focus) : (s.modF f).hostMem = s.hostMem := rfl
@[simp] theorem cores_modF (s : State) (f : Focus → Focus) : (s.modF f).cores = s.cores := rfl
@[simp] theorem clusters_modF (s : State) (f : Focus → Focus) : (s.modF f).clusters = s.clusters := rfl
@[simp] theorem slots_modF (s : State) (f : Focus → Focus) : (s.modF f).slots = s.slots := rfl
@[simp] theorem frames_modF (s : State) (f : Focus → Focus) : (s.modF f).frames = s.frames := rfl
@[simp] theorem tags_modF (s : State) (f : Focus → Focus) : (s.modF f).tags = s.tags := rfl
@[simp] theorem poison_modF (s : State) (f : Focus → Focus) : (s.modF f).poison = s.poison := rfl
@[simp] theorem shadow_modF (s : State) (f : Focus → Focus) : (s.modF f).shadow = s.shadow := rfl
@[simp] theorem ival_modF (s : State) (f : Focus → Focus) : (s.modF f).ival = s.ival := rfl
@[simp] theorem sealed_modF (s : State) (f : Focus → Focus) : (s.modF f).sealed = s.sealed := rfl
@[simp] theorem preqs_modF (s : State) (f : Focus → Focus) : (s.modF f).preqs = s.preqs := rfl
@[simp] theorem served_modF (s : State) (f : Focus → Focus) : (s.modF f).served = s.served := rfl
@[simp] theorem fails_modF (s : State) (f : Focus → Focus) : (s.modF f).fails = s.fails := rfl
@[simp] theorem code_modF (s : State) (f : Focus → Focus) : (s.modF f).code = s.code := rfl
@[simp] theorem stamp_modF (s : State) (f : Focus → Focus) : (s.modF f).stamp = s.stamp := rfl
@[simp] theorem launches_modF (s : State) (f : Focus → Focus) : (s.modF f).launches = s.launches := rfl
@[simp] theorem roots_modF (s : State) (f : Focus → Focus) : (s.modF f).roots = s.roots := rfl
@[simp] theorem dist_modF (s : State) (f : Focus → Focus) : (s.modF f).dist = s.dist := rfl
@[simp] theorem recs_modF (s : State) (f : Focus → Focus) : (s.modF f).recs = s.recs := rfl
@[simp] theorem flows_modF (s : State) (f : Focus → Focus) : (s.modF f).flows = s.flows := rfl
@[simp] theorem robs_modF (s : State) (f : Focus → Focus) : (s.modF f).robs = s.robs := rfl
@[simp] theorem ports_modF (s : State) (f : Focus → Focus) : (s.modF f).ports = s.ports := rfl
@[simp] theorem comms_modF (s : State) (f : Focus → Focus) : (s.modF f).comms = s.comms := rfl
@[simp] theorem engines_modF (s : State) (f : Focus → Focus) : (s.modF f).engines = s.engines := rfl
@[simp] theorem chans_modF (s : State) (f : Focus → Focus) : (s.modF f).chans = s.chans := rfl
@[simp] theorem chRR_modF (s : State) (f : Focus → Focus) : (s.modF f).chRR = s.chRR := rfl
@[simp] theorem xphSlot_modF (s : State) (f : Focus → Focus) : (s.modF f).xphSlot = s.xphSlot := rfl
@[simp] theorem xphStat_modF (s : State) (f : Focus → Focus) : (s.modF f).xphStat = s.xphStat := rfl
@[simp] theorem mb_modF (s : State) (f : Focus → Focus) : (s.modF f).mb = s.mb := rfl
@[simp] theorem ev_modF (s : State) (f : Focus → Focus) : (s.modF f).ev = s.ev := rfl
@[simp] theorem errCe_modF (s : State) (f : Focus → Focus) : (s.modF f).errCe = s.errCe := rfl
@[simp] theorem errUe_modF (s : State) (f : Focus → Focus) : (s.modF f).errUe = s.errUe := rfl
@[simp] theorem boot_modF (s : State) (f : Focus → Focus) : (s.modF f).boot = s.boot := rfl
@[simp] theorem devNo_modF (s : State) (f : Focus → Focus) : (s.modF f).devNo = s.devNo := rfl
@[simp] theorem links_modF (s : State) (f : Focus → Focus) : (s.modF f).links = s.links := rfl
@[simp] theorem msix_modF (s : State) (f : Focus → Focus) : (s.modF f).msix = s.msix := rfl
@[simp] theorem outbox_modF (s : State) (f : Focus → Focus) : (s.modF f).outbox = s.outbox := rfl
@[simp] theorem hostOut_modF (s : State) (f : Focus → Focus) : (s.modF f).hostOut = s.hostOut := rfl
@[simp] theorem lehr_modF (s : State) (f : Focus → Focus) : (s.modF f).lehr = s.lehr := rfl
@[simp] theorem ckpt_modF (s : State) (f : Focus → Focus) : (s.modF f).ckpt = s.ckpt := rfl
@[simp] theorem hot_modF (s : State) (f : Focus → Focus) : (s.modF f).hot = s.hot := rfl
@[simp] theorem update_modF (s : State) (f : Focus → Focus) : (s.modF f).update = s.update := rfl
@[simp] theorem mhz_modF (s : State) (f : Focus → Focus) : (s.modF f).mhz = s.mhz := rfl
@[simp] theorem cyc_modF (s : State) (f : Focus → Focus) : (s.modF f).cyc = s.cyc := rfl
@[simp] theorem us_modF (s : State) (f : Focus → Focus) : (s.modF f).us = s.us := rfl
@[simp] theorem sub_modF (s : State) (f : Focus → Focus) : (s.modF f).sub = s.sub := rfl
@[simp] theorem uids_modF (s : State) (f : Focus → Focus) : (s.modF f).uids = s.uids := rfl
@[simp] theorem fresh_modF (s : State) (f : Focus → Focus) : (s.modF f).fresh = s.fresh := rfl
@[simp] theorem tape_modF (s : State) (f : Focus → Focus) : (s.modF f).tape = s.tape := rfl
@[simp] theorem shadowSr_modF (s : State) (f : Focus → Focus) : (s.modF f).shadowSr = s.shadowSr := rfl
@[simp] theorem fetches_modF (s : State) (f : Focus → Focus) : (s.modF f).fetches = s.fetches := rfl
@[simp] theorem fw_modF (s : State) (f : Focus → Focus) : (s.modF f).fw = s.fw := rfl
@[simp] theorem rank_modF (s : State) (f : Focus → Focus) : (s.modF f).rank = s.rank := rfl

/-! ## `tick` -/

@[simp] theorem tick_hostMem (s : State) (dt : Nat) : (s.tick dt).hostMem = s.hostMem := rfl
@[simp] theorem tick_clusters (s : State) (dt : Nat) : (s.tick dt).clusters = s.clusters := rfl
@[simp] theorem tick_frames (s : State) (dt : Nat) : (s.tick dt).frames = s.frames := rfl
@[simp] theorem tick_tags (s : State) (dt : Nat) : (s.tick dt).tags = s.tags := rfl
@[simp] theorem tick_poison (s : State) (dt : Nat) : (s.tick dt).poison = s.poison := rfl
@[simp] theorem tick_shadow (s : State) (dt : Nat) : (s.tick dt).shadow = s.shadow := rfl
@[simp] theorem tick_ival (s : State) (dt : Nat) : (s.tick dt).ival = s.ival := rfl
@[simp] theorem tick_sealed (s : State) (dt : Nat) : (s.tick dt).sealed = s.sealed := rfl
@[simp] theorem tick_preqs (s : State) (dt : Nat) : (s.tick dt).preqs = s.preqs := rfl
@[simp] theorem tick_served (s : State) (dt : Nat) : (s.tick dt).served = s.served := rfl
@[simp] theorem tick_fails (s : State) (dt : Nat) : (s.tick dt).fails = s.fails := rfl
@[simp] theorem tick_code (s : State) (dt : Nat) : (s.tick dt).code = s.code := rfl
@[simp] theorem tick_stamp (s : State) (dt : Nat) : (s.tick dt).stamp = s.stamp := rfl
@[simp] theorem tick_launches (s : State) (dt : Nat) : (s.tick dt).launches = s.launches := rfl
@[simp] theorem tick_roots (s : State) (dt : Nat) : (s.tick dt).roots = s.roots := rfl
@[simp] theorem tick_dist (s : State) (dt : Nat) : (s.tick dt).dist = s.dist := rfl
@[simp] theorem tick_recs (s : State) (dt : Nat) : (s.tick dt).recs = s.recs := rfl
@[simp] theorem tick_flows (s : State) (dt : Nat) : (s.tick dt).flows = s.flows := rfl
@[simp] theorem tick_robs (s : State) (dt : Nat) : (s.tick dt).robs = s.robs := rfl
@[simp] theorem tick_ports (s : State) (dt : Nat) : (s.tick dt).ports = s.ports := rfl
@[simp] theorem tick_comms (s : State) (dt : Nat) : (s.tick dt).comms = s.comms := rfl
@[simp] theorem tick_engines (s : State) (dt : Nat) : (s.tick dt).engines = s.engines := rfl
@[simp] theorem tick_chans (s : State) (dt : Nat) : (s.tick dt).chans = s.chans := rfl
@[simp] theorem tick_chRR (s : State) (dt : Nat) : (s.tick dt).chRR = s.chRR := rfl
@[simp] theorem tick_xphSlot (s : State) (dt : Nat) : (s.tick dt).xphSlot = s.xphSlot := rfl
@[simp] theorem tick_xphStat (s : State) (dt : Nat) : (s.tick dt).xphStat = s.xphStat := rfl
@[simp] theorem tick_mb (s : State) (dt : Nat) : (s.tick dt).mb = s.mb := rfl
@[simp] theorem tick_ev (s : State) (dt : Nat) : (s.tick dt).ev = s.ev := rfl
@[simp] theorem tick_errCe (s : State) (dt : Nat) : (s.tick dt).errCe = s.errCe := rfl
@[simp] theorem tick_errUe (s : State) (dt : Nat) : (s.tick dt).errUe = s.errUe := rfl
@[simp] theorem tick_boot (s : State) (dt : Nat) : (s.tick dt).boot = s.boot := rfl
@[simp] theorem tick_devNo (s : State) (dt : Nat) : (s.tick dt).devNo = s.devNo := rfl
@[simp] theorem tick_links (s : State) (dt : Nat) : (s.tick dt).links = s.links := rfl
@[simp] theorem tick_msix (s : State) (dt : Nat) : (s.tick dt).msix = s.msix := rfl
@[simp] theorem tick_outbox (s : State) (dt : Nat) : (s.tick dt).outbox = s.outbox := rfl
@[simp] theorem tick_hostOut (s : State) (dt : Nat) : (s.tick dt).hostOut = s.hostOut := rfl
@[simp] theorem tick_lehr (s : State) (dt : Nat) : (s.tick dt).lehr = s.lehr := rfl
@[simp] theorem tick_ckpt (s : State) (dt : Nat) : (s.tick dt).ckpt = s.ckpt := rfl
@[simp] theorem tick_hot (s : State) (dt : Nat) : (s.tick dt).hot = s.hot := rfl
@[simp] theorem tick_update (s : State) (dt : Nat) : (s.tick dt).update = s.update := rfl
@[simp] theorem tick_mhz (s : State) (dt : Nat) : (s.tick dt).mhz = s.mhz := rfl
@[simp] theorem tick_uids (s : State) (dt : Nat) : (s.tick dt).uids = s.uids := rfl
@[simp] theorem tick_fresh (s : State) (dt : Nat) : (s.tick dt).fresh = s.fresh := rfl
@[simp] theorem tick_tape (s : State) (dt : Nat) : (s.tick dt).tape = s.tape := rfl
@[simp] theorem tick_shadowSr (s : State) (dt : Nat) : (s.tick dt).shadowSr = s.shadowSr := rfl
@[simp] theorem tick_fetches (s : State) (dt : Nat) : (s.tick dt).fetches = s.fetches := rfl
@[simp] theorem tick_fw (s : State) (dt : Nat) : (s.tick dt).fw = s.fw := rfl

/-! ## `setV` of a wave -/

@[simp] theorem setV_uid (w : Wave) (n l : Nat) (x : Word) : (w.setV n l x).uid = w.uid := rfl
@[simp] theorem setV_lid (w : Wave) (n l : Nat) (x : Word) : (w.setV n l x).lid = w.lid := rfl
@[simp] theorem setV_handler (w : Wave) (n l : Nat) (x : Word) : (w.setV n l x).handler = w.handler := rfl
@[simp] theorem setV_aslot (w : Wave) (n l : Nat) (x : Word) : (w.setV n l x).aslot = w.aslot := rfl
@[simp] theorem setV_priv (w : Wave) (n l : Nat) (x : Word) : (w.setV n l x).priv = w.priv := rfl
@[simp] theorem setV_race (w : Wave) (n l : Nat) (x : Word) : (w.setV n l x).race = w.race := rfl
@[simp] theorem setV_commit (w : Wave) (n l : Nat) (x : Word) : (w.setV n l x).commit = w.commit := rfl
@[simp] theorem setV_prio (w : Wave) (n l : Nat) (x : Word) : (w.setV n l x).prio = w.prio := rfl
@[simp] theorem setV_stamp (w : Wave) (n l : Nat) (x : Word) : (w.setV n l x).stamp = w.stamp := rfl
@[simp] theorem setV_wix (w : Wave) (n l : Nat) (x : Word) : (w.setV n l x).wix = w.wix := rfl
@[simp] theorem setV_rx (w : Wave) (n l : Nat) (x : Word) : (w.setV n l x).rx = w.rx := rfl
@[simp] theorem setV_ry (w : Wave) (n l : Nat) (x : Word) : (w.setV n l x).ry = w.ry := rfl
@[simp] theorem setV_task (w : Wave) (n l : Nat) (x : Word) : (w.setV n l x).task = w.task := rfl
@[simp] theorem setV_depth (w : Wave) (n l : Nat) (x : Word) : (w.setV n l x).depth = w.depth := rfl
@[simp] theorem setV_image (w : Wave) (n l : Nat) (x : Word) : (w.setV n l x).image = w.image := rfl
@[simp] theorem setV_d (w : Wave) (n l : Nat) (x : Word) : (w.setV n l x).d = w.d := rfl
@[simp] theorem setV_bcast (w : Wave) (n l : Nat) (x : Word) : (w.setV n l x).bcast = w.bcast := rfl
@[simp] theorem setV_bcLanes (w : Wave) (n l : Nat) (x : Word) : (w.setV n l x).bcLanes = w.bcLanes := rfl
@[simp] theorem setV_streams (w : Wave) (n l : Nat) (x : Word) : (w.setV n l x).streams = w.streams := rfl
@[simp] theorem setV_subs (w : Wave) (n l : Nat) (x : Word) : (w.setV n l x).subs = w.subs := rfl
@[simp] theorem setV_turn (w : Wave) (n l : Nat) (x : Word) : (w.setV n l x).turn = w.turn := rfl
@[simp] theorem setV_ended (w : Wave) (n l : Nat) (x : Word) : (w.setV n l x).ended = w.ended := rfl
@[simp] theorem setV_stage (w : Wave) (n l : Nat) (x : Word) : (w.setV n l x).stage = w.stage := rfl
@[simp] theorem setV_sfifo (w : Wave) (n l : Nat) (x : Word) : (w.setV n l x).sfifo = w.sfifo := rfl
@[simp] theorem setV_rb (w : Wave) (n l : Nat) (x : Word) : (w.setV n l x).rb = w.rb := rfl
@[simp] theorem setV_copyOpen (w : Wave) (n l : Nat) (x : Word) : (w.setV n l x).copyOpen = w.copyOpen := rfl
@[simp] theorem setV_batches (w : Wave) (n l : Nat) (x : Word) : (w.setV n l x).batches = w.batches := rfl
@[simp] theorem setV_copyErr (w : Wave) (n l : Nat) (x : Word) : (w.setV n l x).copyErr = w.copyErr := rfl
@[simp] theorem setV_collQ (w : Wave) (n l : Nat) (x : Word) : (w.setV n l x).collQ = w.collQ := rfl
@[simp] theorem setV_unres (w : Wave) (n l : Nat) (x : Word) : (w.setV n l x).unres = w.unres := rfl
@[simp] theorem setV_more (w : Wave) (n l : Nat) (x : Word) : (w.setV n l x).more = w.more := rfl
@[simp] theorem setV_remErr (w : Wave) (n l : Nat) (x : Word) : (w.setV n l x).remErr = w.remErr := rfl
@[simp] theorem setV_seqs (w : Wave) (n l : Nat) (x : Word) : (w.setV n l x).seqs = w.seqs := rfl
@[simp] theorem setV_wbars (w : Wave) (n l : Nat) (x : Word) : (w.setV n l x).wbars = w.wbars := rfl
@[simp] theorem setV_sbars (w : Wave) (n l : Nat) (x : Word) : (w.setV n l x).sbars = w.sbars := rfl
@[simp] theorem setV_treds (w : Wave) (n l : Nat) (x : Word) : (w.setV n l x).treds = w.treds := rfl
@[simp] theorem setV_cbuf (w : Wave) (n l : Nat) (x : Word) : (w.setV n l x).cbuf = w.cbuf := rfl
@[simp] theorem setV_relPos (w : Wave) (n l : Nat) (x : Word) : (w.setV n l x).relPos = w.relPos := rfl
@[simp] theorem setV_sets (w : Wave) (n l : Nat) (x : Word) : (w.setV n l x).sets = w.sets := rfl
@[simp] theorem setV_past (w : Wave) (n l : Nat) (x : Word) : (w.setV n l x).past = w.past := rfl
@[simp] theorem setV_exits (w : Wave) (n l : Nat) (x : Word) : (w.setV n l x).exits = w.exits := rfl
@[simp] theorem setV_yieldTo (w : Wave) (n l : Nat) (x : Word) : (w.setV n l x).yieldTo = w.yieldTo := rfl
@[simp] theorem setV_ran (w : Wave) (n l : Nat) (x : Word) : (w.setV n l x).ran = w.ran := rfl
@[simp] theorem setV_copyBad (w : Wave) (n l : Nat) (x : Word) : (w.setV n l x).copyBad = w.copyBad := rfl
@[simp] theorem setV_seat (w : Wave) (n l : Nat) (x : Word) : (w.setV n l x).seat = w.seat := rfl
@[simp] theorem setV_runs (w : Wave) (n l : Nat) (x : Word) : (w.setV n l x).runs = w.runs := rfl
@[simp] theorem setV_waited (w : Wave) (n l : Nat) (x : Word) : (w.setV n l x).waited = w.waited := rfl

/-! ## `setS` of a wave -/

@[simp] theorem setS_uid (w : Wave) (n : Nat) (x : Word) : (w.setS n x).uid = w.uid := rfl
@[simp] theorem setS_lid (w : Wave) (n : Nat) (x : Word) : (w.setS n x).lid = w.lid := rfl
@[simp] theorem setS_handler (w : Wave) (n : Nat) (x : Word) : (w.setS n x).handler = w.handler := rfl
@[simp] theorem setS_aslot (w : Wave) (n : Nat) (x : Word) : (w.setS n x).aslot = w.aslot := rfl
@[simp] theorem setS_priv (w : Wave) (n : Nat) (x : Word) : (w.setS n x).priv = w.priv := rfl
@[simp] theorem setS_race (w : Wave) (n : Nat) (x : Word) : (w.setS n x).race = w.race := rfl
@[simp] theorem setS_commit (w : Wave) (n : Nat) (x : Word) : (w.setS n x).commit = w.commit := rfl
@[simp] theorem setS_prio (w : Wave) (n : Nat) (x : Word) : (w.setS n x).prio = w.prio := rfl
@[simp] theorem setS_stamp (w : Wave) (n : Nat) (x : Word) : (w.setS n x).stamp = w.stamp := rfl
@[simp] theorem setS_wix (w : Wave) (n : Nat) (x : Word) : (w.setS n x).wix = w.wix := rfl
@[simp] theorem setS_rx (w : Wave) (n : Nat) (x : Word) : (w.setS n x).rx = w.rx := rfl
@[simp] theorem setS_ry (w : Wave) (n : Nat) (x : Word) : (w.setS n x).ry = w.ry := rfl
@[simp] theorem setS_task (w : Wave) (n : Nat) (x : Word) : (w.setS n x).task = w.task := rfl
@[simp] theorem setS_depth (w : Wave) (n : Nat) (x : Word) : (w.setS n x).depth = w.depth := rfl
@[simp] theorem setS_image (w : Wave) (n : Nat) (x : Word) : (w.setS n x).image = w.image := rfl
@[simp] theorem setS_d (w : Wave) (n : Nat) (x : Word) : (w.setS n x).d = w.d := rfl
@[simp] theorem setS_bcast (w : Wave) (n : Nat) (x : Word) : (w.setS n x).bcast = w.bcast := rfl
@[simp] theorem setS_bcLanes (w : Wave) (n : Nat) (x : Word) : (w.setS n x).bcLanes = w.bcLanes := rfl
@[simp] theorem setS_streams (w : Wave) (n : Nat) (x : Word) : (w.setS n x).streams = w.streams := rfl
@[simp] theorem setS_subs (w : Wave) (n : Nat) (x : Word) : (w.setS n x).subs = w.subs := rfl
@[simp] theorem setS_turn (w : Wave) (n : Nat) (x : Word) : (w.setS n x).turn = w.turn := rfl
@[simp] theorem setS_ended (w : Wave) (n : Nat) (x : Word) : (w.setS n x).ended = w.ended := rfl
@[simp] theorem setS_stage (w : Wave) (n : Nat) (x : Word) : (w.setS n x).stage = w.stage := rfl
@[simp] theorem setS_sfifo (w : Wave) (n : Nat) (x : Word) : (w.setS n x).sfifo = w.sfifo := rfl
@[simp] theorem setS_rb (w : Wave) (n : Nat) (x : Word) : (w.setS n x).rb = w.rb := rfl
@[simp] theorem setS_copyOpen (w : Wave) (n : Nat) (x : Word) : (w.setS n x).copyOpen = w.copyOpen := rfl
@[simp] theorem setS_batches (w : Wave) (n : Nat) (x : Word) : (w.setS n x).batches = w.batches := rfl
@[simp] theorem setS_copyErr (w : Wave) (n : Nat) (x : Word) : (w.setS n x).copyErr = w.copyErr := rfl
@[simp] theorem setS_collQ (w : Wave) (n : Nat) (x : Word) : (w.setS n x).collQ = w.collQ := rfl
@[simp] theorem setS_unres (w : Wave) (n : Nat) (x : Word) : (w.setS n x).unres = w.unres := rfl
@[simp] theorem setS_more (w : Wave) (n : Nat) (x : Word) : (w.setS n x).more = w.more := rfl
@[simp] theorem setS_remErr (w : Wave) (n : Nat) (x : Word) : (w.setS n x).remErr = w.remErr := rfl
@[simp] theorem setS_seqs (w : Wave) (n : Nat) (x : Word) : (w.setS n x).seqs = w.seqs := rfl
@[simp] theorem setS_wbars (w : Wave) (n : Nat) (x : Word) : (w.setS n x).wbars = w.wbars := rfl
@[simp] theorem setS_sbars (w : Wave) (n : Nat) (x : Word) : (w.setS n x).sbars = w.sbars := rfl
@[simp] theorem setS_treds (w : Wave) (n : Nat) (x : Word) : (w.setS n x).treds = w.treds := rfl
@[simp] theorem setS_cbuf (w : Wave) (n : Nat) (x : Word) : (w.setS n x).cbuf = w.cbuf := rfl
@[simp] theorem setS_relPos (w : Wave) (n : Nat) (x : Word) : (w.setS n x).relPos = w.relPos := rfl
@[simp] theorem setS_sets (w : Wave) (n : Nat) (x : Word) : (w.setS n x).sets = w.sets := rfl
@[simp] theorem setS_past (w : Wave) (n : Nat) (x : Word) : (w.setS n x).past = w.past := rfl
@[simp] theorem setS_exits (w : Wave) (n : Nat) (x : Word) : (w.setS n x).exits = w.exits := rfl
@[simp] theorem setS_yieldTo (w : Wave) (n : Nat) (x : Word) : (w.setS n x).yieldTo = w.yieldTo := rfl
@[simp] theorem setS_ran (w : Wave) (n : Nat) (x : Word) : (w.setS n x).ran = w.ran := rfl
@[simp] theorem setS_copyBad (w : Wave) (n : Nat) (x : Word) : (w.setS n x).copyBad = w.copyBad := rfl
@[simp] theorem setS_seat (w : Wave) (n : Nat) (x : Word) : (w.setS n x).seat = w.seat := rfl
@[simp] theorem setS_runs (w : Wave) (n : Nat) (x : Word) : (w.setS n x).runs = w.runs := rfl
@[simp] theorem setS_waited (w : Wave) (n : Nat) (x : Word) : (w.setS n x).waited = w.waited := rfl

/-! ## `setT` of a wave -/

@[simp] theorem setT_uid (w : Wave) (n l : Nat) (x : Word) : (w.setT n l x).uid = w.uid := rfl
@[simp] theorem setT_lid (w : Wave) (n l : Nat) (x : Word) : (w.setT n l x).lid = w.lid := rfl
@[simp] theorem setT_handler (w : Wave) (n l : Nat) (x : Word) : (w.setT n l x).handler = w.handler := rfl
@[simp] theorem setT_aslot (w : Wave) (n l : Nat) (x : Word) : (w.setT n l x).aslot = w.aslot := rfl
@[simp] theorem setT_priv (w : Wave) (n l : Nat) (x : Word) : (w.setT n l x).priv = w.priv := rfl
@[simp] theorem setT_race (w : Wave) (n l : Nat) (x : Word) : (w.setT n l x).race = w.race := rfl
@[simp] theorem setT_commit (w : Wave) (n l : Nat) (x : Word) : (w.setT n l x).commit = w.commit := rfl
@[simp] theorem setT_prio (w : Wave) (n l : Nat) (x : Word) : (w.setT n l x).prio = w.prio := rfl
@[simp] theorem setT_stamp (w : Wave) (n l : Nat) (x : Word) : (w.setT n l x).stamp = w.stamp := rfl
@[simp] theorem setT_wix (w : Wave) (n l : Nat) (x : Word) : (w.setT n l x).wix = w.wix := rfl
@[simp] theorem setT_rx (w : Wave) (n l : Nat) (x : Word) : (w.setT n l x).rx = w.rx := rfl
@[simp] theorem setT_ry (w : Wave) (n l : Nat) (x : Word) : (w.setT n l x).ry = w.ry := rfl
@[simp] theorem setT_task (w : Wave) (n l : Nat) (x : Word) : (w.setT n l x).task = w.task := rfl
@[simp] theorem setT_depth (w : Wave) (n l : Nat) (x : Word) : (w.setT n l x).depth = w.depth := rfl
@[simp] theorem setT_image (w : Wave) (n l : Nat) (x : Word) : (w.setT n l x).image = w.image := rfl
@[simp] theorem setT_d (w : Wave) (n l : Nat) (x : Word) : (w.setT n l x).d = w.d := rfl
@[simp] theorem setT_bcast (w : Wave) (n l : Nat) (x : Word) : (w.setT n l x).bcast = w.bcast := rfl
@[simp] theorem setT_bcLanes (w : Wave) (n l : Nat) (x : Word) : (w.setT n l x).bcLanes = w.bcLanes := rfl
@[simp] theorem setT_streams (w : Wave) (n l : Nat) (x : Word) : (w.setT n l x).streams = w.streams := rfl
@[simp] theorem setT_subs (w : Wave) (n l : Nat) (x : Word) : (w.setT n l x).subs = w.subs := rfl
@[simp] theorem setT_turn (w : Wave) (n l : Nat) (x : Word) : (w.setT n l x).turn = w.turn := rfl
@[simp] theorem setT_ended (w : Wave) (n l : Nat) (x : Word) : (w.setT n l x).ended = w.ended := rfl
@[simp] theorem setT_stage (w : Wave) (n l : Nat) (x : Word) : (w.setT n l x).stage = w.stage := rfl
@[simp] theorem setT_sfifo (w : Wave) (n l : Nat) (x : Word) : (w.setT n l x).sfifo = w.sfifo := rfl
@[simp] theorem setT_rb (w : Wave) (n l : Nat) (x : Word) : (w.setT n l x).rb = w.rb := rfl
@[simp] theorem setT_copyOpen (w : Wave) (n l : Nat) (x : Word) : (w.setT n l x).copyOpen = w.copyOpen := rfl
@[simp] theorem setT_batches (w : Wave) (n l : Nat) (x : Word) : (w.setT n l x).batches = w.batches := rfl
@[simp] theorem setT_copyErr (w : Wave) (n l : Nat) (x : Word) : (w.setT n l x).copyErr = w.copyErr := rfl
@[simp] theorem setT_collQ (w : Wave) (n l : Nat) (x : Word) : (w.setT n l x).collQ = w.collQ := rfl
@[simp] theorem setT_unres (w : Wave) (n l : Nat) (x : Word) : (w.setT n l x).unres = w.unres := rfl
@[simp] theorem setT_more (w : Wave) (n l : Nat) (x : Word) : (w.setT n l x).more = w.more := rfl
@[simp] theorem setT_remErr (w : Wave) (n l : Nat) (x : Word) : (w.setT n l x).remErr = w.remErr := rfl
@[simp] theorem setT_seqs (w : Wave) (n l : Nat) (x : Word) : (w.setT n l x).seqs = w.seqs := rfl
@[simp] theorem setT_wbars (w : Wave) (n l : Nat) (x : Word) : (w.setT n l x).wbars = w.wbars := rfl
@[simp] theorem setT_sbars (w : Wave) (n l : Nat) (x : Word) : (w.setT n l x).sbars = w.sbars := rfl
@[simp] theorem setT_treds (w : Wave) (n l : Nat) (x : Word) : (w.setT n l x).treds = w.treds := rfl
@[simp] theorem setT_cbuf (w : Wave) (n l : Nat) (x : Word) : (w.setT n l x).cbuf = w.cbuf := rfl
@[simp] theorem setT_relPos (w : Wave) (n l : Nat) (x : Word) : (w.setT n l x).relPos = w.relPos := rfl
@[simp] theorem setT_sets (w : Wave) (n l : Nat) (x : Word) : (w.setT n l x).sets = w.sets := rfl
@[simp] theorem setT_past (w : Wave) (n l : Nat) (x : Word) : (w.setT n l x).past = w.past := rfl
@[simp] theorem setT_exits (w : Wave) (n l : Nat) (x : Word) : (w.setT n l x).exits = w.exits := rfl
@[simp] theorem setT_yieldTo (w : Wave) (n l : Nat) (x : Word) : (w.setT n l x).yieldTo = w.yieldTo := rfl
@[simp] theorem setT_ran (w : Wave) (n l : Nat) (x : Word) : (w.setT n l x).ran = w.ran := rfl
@[simp] theorem setT_copyBad (w : Wave) (n l : Nat) (x : Word) : (w.setT n l x).copyBad = w.copyBad := rfl
@[simp] theorem setT_seat (w : Wave) (n l : Nat) (x : Word) : (w.setT n l x).seat = w.seat := rfl
@[simp] theorem setT_runs (w : Wave) (n l : Nat) (x : Word) : (w.setT n l x).runs = w.runs := rfl
@[simp] theorem setT_waited (w : Wave) (n l : Nat) (x : Word) : (w.setT n l x).waited = w.waited := rfl

/-! ## `setD` of a transfer processor -/

@[simp] theorem setD_pc (p : XP) (n : Nat) (x : Word) : (p.setD n x).pc = p.pc := rfl
@[simp] theorem setD_loops (p : XP) (n : Nat) (x : Word) : (p.setD n x).loops = p.loops := rfl
@[simp] theorem setD_st (p : XP) (n : Nat) (x : Word) : (p.setD n x).st = p.st := rfl
@[simp] theorem setD_bind (p : XP) (n : Nat) (x : Word) : (p.setD n x).bind = p.bind := rfl
@[simp] theorem setD_err (p : XP) (n : Nat) (x : Word) : (p.setD n x).err = p.err := rfl
@[simp] theorem setD_heads (p : XP) (n : Nat) (x : Word) : (p.setD n x).heads = p.heads := rfl
@[simp] theorem setD_store (p : XP) (n : Nat) (x : Word) : (p.setD n x).store = p.store := rfl
@[simp] theorem setD_kind (p : XP) (n : Nat) (x : Word) : (p.setD n x).kind = p.kind := rfl
@[simp] theorem setD_cause (p : XP) (n : Nat) (x : Word) : (p.setD n x).cause = p.cause := rfl
@[simp] theorem setD_walk (p : XP) (n : Nat) (x : Word) : (p.setD n x).walk = p.walk := rfl
@[simp] theorem setD_rrSrc (p : XP) (n : Nat) (x : Word) : (p.setD n x).rrSrc = p.rrSrc := rfl
@[simp] theorem setD_quit (p : XP) (n : Nat) (x : Word) : (p.setD n x).quit = p.quit := rfl
@[simp] theorem setD_rrQ (p : XP) (n : Nat) (x : Word) : (p.setD n x).rrQ = p.rrQ := rfl

end Sys2Proof.Laws
end

