-- ==== Sys2Proof/Tests/Slice0.lean ====
section
/-! SUPPORT. Tests: words written out from the encodings of the manual, an ill-formed term for each check of WellFormed, and for
every statement with hypotheses a state and operands that meet them. -/

namespace Sys2Proof.Tests
open Sys2Proof Sys2Proof.Machine Sys2Proof.Claim

set_option Elab.async false

/-! ## Decoding (R159, R161, and the opcode tables R206, R236, R258, R287, R316, R336)

`word mod opc opb opa dst op` places the fields of the first word: mod [63:57], opc [56:48], opb [47:39], opa [38:30], dst [29:22],
opcode [12:4]. Length, flags, guard and later words are added as powers of two. -/

def word (mod opc opb opa dst op : Nat) : Nat :=
  mod * 2 ^ 57 + opc * 2 ^ 48 + opb * 2 ^ 39 + opa * 2 ^ 30 + dst * 2 ^ 22 + op * 2 ^ 4

/-- Format B: imm18 [56:39]. -/
def wordB (mod imm opa dst op : Nat) : Nat := mod * 2 ^ 57 + imm * 2 ^ 39 + opa * 2 ^ 30 + dst * 2 ^ 22 + op * 2 ^ 4

/-- Every word of a list of (bytes, word, instruction) decodes to its instruction, with its length. -/
def decodes (u : UnitK) (l : List (Nat × Nat × Instr)) : Bool :=
  l.all fun x => decode u (toBytes x.1 x.2.1) == .ok (x.2.2, x.1)

def c0 : Ctl := ⟨⟨15, false⟩, false⟩
def cr : Ctl := ⟨⟨15, false⟩, true⟩
def d5 : Dst := ⟨some 5, none⟩
def rlx : MAttr := ⟨.rlx, .wv, 0⟩
def v79 : Gen2 := .vec false d5 (.reg 7) (.vec (.reg 9))
def v7 : Gen1 := .vec false d5 (.reg 7)

/-- Encodings that the manual itself works out (R173, R260, R291, R316, R338, R356; *Worked program*, *Two encodings* and the tables of the
other worked programs). -/
theorem test_decode_worked : decodes .core [
    (8, 0x0000000000000010, .nop 0 false), (8, 0x0000000000000014, .nop 0 true),
    (12, 0x000000000000000000000011, .nop 1 false), (16, 0x00000000000000000000000000000012, .nop 2 false),
    (12, 0x8C00010102000E01 + 0x0000400D * 2 ^ 64,
      .ld c0 .b32 ⟨.acq, .cl, 0⟩ (.vec false ⟨some 8, none⟩ (.scal 4) (some (.reg 2))) 64),
    (16, 0x0000000188001422 + 0x0000003000000000 * 2 ^ 64, .mma c0 .bf16 false 4 (.wave 6) 48 0 (.reg 0) (.reg 0) 0 0),
    (16, 0x8000000082001422 + 0x0000001000000000 * 2 ^ 64, .mma c0 .bf16 false 1 (.quarter (.reg 2)) 16 0 (.reg 0) (.reg 0) 0 0),
    (8, 0x00000100C0001700, .cba c0 3 2), (8, 0x1012080000041000, .cpy ⟨⟨1, false⟩, false⟩ .g .l 0 0 16 18),
    (8, 0x4000000A00001A04, .exit cr 2 40), (8, 0x0000080003001C00, .csrr c0 12 0x010),
    (8, 0x0009040000001A80, .aset c0 0 8 9), (12, 0x9000000203000E01, .ld c0 .b32 rlx (.scal 12 8) 0),
    (8, 0x2000000A00001A04, .exit cr 1 40), (8, 0x00001C0000001A50, .rrel c0 56), (8, 0x00001C0000001A40, .rclaim c0 56),
    (12, 0x80000000ADC00E21, .lds c0 false .b32 false rlx ⟨some 183, none⟩ (.reg 2) 0),
    (12, 0x8C00058085080E01, .ld ⟨⟨3, false⟩, false⟩ .b32 rlx (.vec false ⟨some 20, none⟩ (.scal 2) (some (.reg 11))) 0),
    (12, 0x8200000102C00E21 + 0x00000005 * 2 ^ 64, .lds c0 false .b32 true ⟨.acq, .co, 0⟩ ⟨some 11, none⟩ (.reg 4) 0),
    (8, 0x2000000245001B94, .rftNext cr (some (20, .reg 9))), (8, 0x0000000A02001B00, .collRed c0 8 40),
    (8, 0x4000000C82401B00, .collBcast c0 9 50), (8, 0x0000000205C01B10, .collRes c0 23 8), (8, 0x0000140A40001B20, .pstep c0 41 40)] = true := by
  decide +kernel

/-- Control and reconvergence (R206, R208). -/
theorem test_decode_control : decodes .core [
    (8, word 0 0 0 0 5 0x1F3, .hint 0 false (BitVec.ofNat 125 (5 * 2 ^ 19 + 0x1F3 * 2))),
    (12, word 0 0 0 0 0 0x002 + 5 + 0x100 * 2 ^ 64, .br cr 0x100),
    (12, word 18 0 6 4 0 0x003 + 5 + 0xFFFFFFF0 * 2 ^ 64, .bcmp cr .lt true (.vec (.reg 4) (.vec (.reg 6))) 0xFFFFFFF0),
    (12, word 64 0 0 0 9 0x004 + 5 + 8 * 2 ^ 64, .dbnz cr false (.s 9) 8), (8, word 0 0 0 10 0 0x005 + 4, .brx cr (.vec (.reg 10))),
    (12, word 0 0 3 20 0 0x006 + 5 + 5 * 2 ^ 64, .btab cr 20 (.vec (.reg 3)) 5),
    (12, word 0 0 0 0 30 0x007 + 5 + 16 * 2 ^ 64, .call cr 30 16), (8, word 0 0 0 32 30 0x008 + 4, .callx cr 30 (.reg 32)),
    (8, word 64 0 0 12 0 0x009 + 4, .ret cr (.scal 12)), (8, word 0 0 0 3 0 0x00A, .rcvArm c0 3),
    (8, word 0 0 0 7 0 0x00B + 4, .rcvJoin cr 7), (8, word 0 0 0 0 0 0x00C, .rcvDrop c0 0),
    (8, wordB 0 0x2ABCD 0 0 0x00D + 4, .brk cr 0x2ABCD)] = true := by
  decide +kernel

/-- Integer arithmetic (R202, R206, R217 to R220): sc, bs, w and f stand in mod [6], [5], [4] and [3:0]. -/
theorem test_decode_integer : decodes .core [
    (8, word 0 0 9 7 5 0x020, .add c0 false v79), (8, word 64 0 10 8 6 0x021, .sub c0 false (.scal 6 8 10)),
    (8, word 0 0 9 7 5 0x022, .mul c0 false v79), (8, word 1 0 9 7 5 0x023, .mulh c0 true false v79),
    (8, word 16 14 12 10 6 0x024, .mad c0 true (.vec false ⟨some 6, none⟩ (.reg 10) (.vec (.reg 12)) (.reg 14))),
    (8, word 1 0 9 7 5 0x025, .div c0 true false v79), (8, word 0 0 9 7 5 0x026, .rem c0 false false v79),
    (8, word 1 0 9 7 5 0x027, .min c0 true false v79), (8, word 0 0 9 7 5 0x028, .max c0 false false v79),
    (8, word 33 0 9 7 5 0x029, .adds c0 true false (.vec false d5 (.reg 7) (.scal 9))), (8, word 0 0 9 7 5 0x02A, .subs c0 false false v79),
    (8, word 0 0 0 7 5 0x02B, .abs c0 false v7), (8, wordB 0 0x3FFFF 7 5 0x02C, .addi c0 false v7 0x3FFFF)] = true := by
  decide +kernel

/-- Logic, shifts, bit fields, counts (R206, R221 to R228). -/
theorem test_decode_bits : decodes .core [
    (8, word 0 0 9 7 5 0x030, .and c0 false v79), (8, word 0 0 9 7 5 0x031 + 8, .or c0 false (.vec true d5 (.reg 7) (.vec (.reg 9)))),
    (8, word 0 0 9 7 5 0x032, .xor c0 false v79), (8, word 0 0 9 7 5 0x033, .andn c0 false v79),
    (8, wordB 0 0x0F0 7 5 0x034, .andi c0 false v7 0x0F0), (8, wordB 0 0x0F1 7 5 0x035, .ori c0 false v7 0x0F1),
    (8, wordB 0 0x0F2 7 5 0x036, .xori c0 false v7 0x0F2), (8, word 0 0 9 7 5 0x038, .shl c0 false v79),
    (8, word 0 0 9 7 5 0x039, .shr c0 false v79), (8, word 0 0 9 7 5 0x03A, .sra c0 false v79),
    (8, word 0 0 9 7 5 0x03B, .rol c0 false v79), (8, word 0 0 9 7 5 0x03C, .ror c0 false v79),
    (8, wordB 0 31 7 5 0x03D, .shli c0 false v7 31), (8, wordB 1 30 7 5 0x03D, .shri c0 false v7 30),
    (8, wordB 2 29 7 5 0x03D, .srai c0 false v7 29), (8, wordB 3 28 7 5 0x03D, .roli c0 false v7 28),
    (8, wordB 4 27 7 5 0x03D, .rori c0 false v7 27), (8, wordB 1 (8 * 64 + 3) 7 5 0x040, .bfe c0 true false v7 3 8),
    (12, word 0 0 9 7 5 0x041 + 1 + (4 * 64 + 2) * 2 ^ 64, .bfi c0 false v79 2 4),
    (8, word 0 0 0 7 5 0x042, .popc c0 false v7), (8, word 0 0 0 7 5 0x043, .clz c0 false v7), (8, word 0 0 0 7 5 0x044, .ctz c0 false v7),
    (8, word 0 0 0 7 5 0x045, .brev c0 false v7), (8, word 0 0 0 7 5 0x046, .bswap c0 false v7),
    (8, word 0 0 9 7 5 0x048, .clmul c0 false v79), (8, word 0 0 9 7 5 0x049, .clmulh c0 false v79),
    (8, word 0 0 0 7 5 0x04A, .pxor c0 false v7), (8, word 0 0 9 7 5 0x04B, .pdep c0 false v79),
    (8, word 0 0 9 7 5 0x04C, .pext c0 false v79)] = true := by
  decide +kernel

/-- Comparison, selection, moves, addresses (R229 to R234); the latch destination and the suppressed write of R159. -/
theorem test_decode_moves : decodes .core [
    (8, word 9 0 9 7 2 0x050, .icmp c0 .geu false 2 (.vec (.reg 7) (.vec (.reg 9)))),
    (8, wordB 64 3 8 1 0x051, .icmpi c0 .eq false 1 (.scal 8) 3),
    (8, word 0 4 9 7 5 0x052, .isel c0 false false d5 (.reg 7) (.vec (.reg 9)) 4), (8, word 3 0 2 1 3 0x053, .plop c0 .andn 3 1 2),
    (8, word 32 0 9 0 5 0x058, .mov c0 false (.vec false d5 (.scal 9))),
    (8, word 0 0 9 0 0 0x058 + 2 ^ 13 + 2 ^ 14 + 2 * 2 ^ 15, .mov c0 false (.vec false ⟨none, some 2⟩ (.vec (.reg 9)))),
    (8, word 0 0 257 0 5 0x058 + 3 * 2 ^ 17 + 2 ^ 21, .mov ⟨⟨2, true⟩, false⟩ false (.vec false d5 (.vec (.latch 1)))),
    (12, word 17 0 0 0 6 0x059 + 1 + 0x80000000 * 2 ^ 64, .movi c0 true true (.vec false ⟨some 6, none⟩) 0x80000000),
    (12, word 10 0 9 8 6 0x05A + 1 + 16 * 2 ^ 64, .lea c0 true 2 (.vec false ⟨some 6, none⟩ (.reg 8) (.vec (.reg 9))) 16),
    (8, word 0 0 0 0 5 0x05B, .lane c0 d5)] = true := by
  decide +kernel

/-- Floating point (R236, R238): rm, bs and fmt stand in mod [6:4], [3] and [2:0]. -/
theorem test_decode_float : decodes .core [
    (8, word 16 0 9 7 5 0x080, .fadd c0 false .f32 .rz d5 (.reg 7) (.vec (.reg 9))),
    (8, word 33 0 10 8 6 0x081, .fsub c0 false .f64 .ru ⟨some 6, none⟩ (.reg 8) (.vec (.reg 10))),
    (8, word 50 0 9 7 5 0x082, .fmul c0 false .f16 .rd d5 (.reg 7) (.vec (.reg 9))),
    (8, word 11 0 9 7 5 0x083, .fdiv c0 false .bf16 .rn d5 (.reg 7) (.scal 9)), (8, word 0 0 0 7 5 0x084, .fsqrt c0 false .f32 .rn d5 (.reg 7)),
    (8, word 0 11 9 7 5 0x085, .ffma c0 false .f32 .rn d5 (.reg 7) (.vec (.reg 9)) (.reg 11)),
    (8, word 0 11 9 7 5 0x086, .ffms c0 false .f32 .rn d5 (.reg 7) (.vec (.reg 9)) (.reg 11)),
    (8, word 0 11 9 7 5 0x087 + 8, .fnma c0 true .f32 .rn d5 (.reg 7) (.vec (.reg 9)) (.reg 11)),
    (8, word 0 0 9 7 5 0x088, .fmin c0 false .f32 d5 (.reg 7) (.vec (.reg 9))), (8, word 0 0 9 7 5 0x089, .fmax c0 false .f32 d5 (.reg 7) (.vec (.reg 9))),
    (8, word 0 0 0 7 5 0x08A, .fabs c0 false .f32 d5 (.reg 7)), (8, word 0 0 0 7 5 0x08B, .fneg c0 false .f32 d5 (.reg 7)),
    (8, word 0 0 9 7 5 0x08C, .fsgn c0 false .f32 d5 (.reg 7) (.vec (.reg 9))), (8, word 0 0 0 7 5 0x090, .frcp c0 false .f32 d5 (.reg 7)),
    (8, word 0 0 0 7 5 0x091, .frsq c0 false .f32 d5 (.reg 7)), (8, word 80 0 9 7 3 0x098, .fcmp c0 .ge false 3 (.reg 7) (.vec (.reg 9))),
    (8, word 1 0 0 8 5 0x099, .fclass c0 false .f64 d5 (.reg 8))] = true := by
  decide +kernel

/-- Conversion, random draw, lane operations (R246, R250, R252). -/
theorem test_decode_lanes : decodes .core [
    (16, word 8 0 9 7 5 0x0A0 + 2 + (4 * 2 ^ 4 + 1 + 1 * 2 ^ 8) * 2 ^ 96,
      .cvt c0 false .e5m2 .f32 0 .x2 .rn true d5 (.reg 7) (.reg 9) (.reg 0) (.reg 0) (.reg 0) 0),
    (12, word 0 0 9 8 5 0x0A8 + 1 + (20 * 4 + 3) * 2 ^ 64, .rng c0 false 3 d5 (.reg 8) (.vec (.reg 9)) 20),
    (8, word 24 0 9 7 5 0x0B0, .shfl c0 .up d5 (.reg 7) (.scal 9)), (8, word 32 0 0 3 5 0x0B1, .vote c0 .ballot d5 3),
    (8, word 18 0 0 7 5 0x0B2, .lred c0 .min .f32 d5 (.reg 7)), (8, word 9 0 0 7 5 0x0B3, .lscan c0 .add .s32 true d5 (.reg 7))] = true := by
  decide +kernel

/-- Memory (R258 to R276): format M holds ord [65:64], scope [68:66], evict [71:69] and off24 [95:72]. -/
theorem test_decode_memory : decodes .core [
    (12, word 66 7 0 4 0 0x0E1 + 1 + (0xFFFFFC * 2 ^ 8 + 3 * 2 ^ 5 + 4 * 2 ^ 2 + 2) * 2 ^ 64,
      .st c0 .b32 ⟨.rel, .di, 3⟩ (.vec false (.scal 4) none (.reg 7)) 0xFFFFFC),
    (12, word 65 7 0 4 0 0x0E1 + 1, .stCr c0 false rlx (.vec false (.vec (.reg 4)) none (.reg 7)) 0),
    (12, word 33 9 0 7 0 0x0E3 + 1, .sts c0 false .b16 true rlx (.reg 7) (.reg 9) 0),
    (12, word 66 0 3 7 5 0x0E4 + 1, .ldc c0 false .b32 false rlx d5 (.reg 7) (.scal 3) 0),
    (12, word 64 9 3 7 0 0x0E5 + 1, .stc c0 false .b32 false rlx (.reg 7) (.vec (.reg 3)) (.reg 9) 0),
    (12, word 64 11 10 4 5 0x0E8 + 1 + 1 * 2 ^ 64, .ldv c0 false .b32 ⟨.acq, .wv, 0⟩ d5 (.vec (.reg 4)) 10 11 0),
    (12, word 51 20 6 4 9 0x0E9 + 1 + 3 * 2 ^ 64, .vupd c0 true .f16 .rd ⟨.ar, .wv, 0⟩ 9 4 6 20),
    (12, word 0 0 0 4 9 0x0EA + 1 + 1 * 2 ^ 64, .vstepRd c0 ⟨.acq, .wv, 0⟩ 9 4),
    (12, word 32 0 6 4 0 0x0EA + 1 + 2 * 2 ^ 64, .vstepSet c0 ⟨.rel, .wv, 0⟩ 4 6),
    (12, word 104 9 7 4 5 0x0F0 + 1, .atom c0 false .cas false rlx d5 (.vec (.reg 4)) (.reg 7) (.reg 9) 0),
    (12, word 80 8 6 4 10 0x0F4 + 1, .mwait c0 true rlx 10 4 6 8 0), (12, word 64 0 0 0 3 0x0F5 + 1 + 11 * 2 ^ 64, .fence c0 true .ar .sr 3),
    (12, word 0 0 6 4 0 0x0F8 + 1 + 3 * 2 ^ 64, .seal c0 ⟨.ar, .wv, 0⟩ 4 6), (12, word 0 0 6 4 0 0x0F9 + 1 + 3 * 2 ^ 64, .unseal c0 ⟨.ar, .wv, 0⟩ 4 6),
    (12, word 24 0 6 4 0 0x0FA + 1 + 3 * 2 ^ 64, .crdecl c0 .addi64 ⟨.ar, .wv, 0⟩ 4 6),
    (12, word 64 0 0 4 0 0x0FB + 1 + 3 * 2 ^ 64, .crflush c0 true ⟨.ar, .wv, 0⟩ 4),
    (12, word 70 0 9 4 0 0x0FC + 1, .prefetch c0 false true 0 (.scal 4) (some (.reg 9)) 0)] = true := by
  decide +kernel

/-- Copies, operation packets, flow query (R277 to R282); matrix (R284 to R300). -/
theorem test_decode_copies_matrix : decodes .core [
    (8, word 0 0 0 0 0 0x101, .cseal c0), (8, wordB 0 15 0 2 0x102, .cwait c0 15 2),
    (12, word 8 12 8 4 20 0x108 + 1, .ropCas c0 rlx 1 20 4 8 12 0), (12, word 32 0 8 4 20 0x108 + 1, .ropEnq c0 rlx 20 4 8 0),
    (12, word 64 0 9 4 20 0x108 + 1, .ropChase c0 rlx 20 4 9 0), (8, word 64 0 0 9 20 0x109, .flq c0 true 20 9),
    (16, word 32 0 0 6 16 0x146 + 2 + (2 ^ 13 + 66 / 2) * 2 ^ 96, .mma c0 .b8e4m3 true 2 (.wave 6) 33 1 (.reg 0) (.reg 0) 0 0),
    (12, word 0 11 10 7 0 0x150 + 1 + (2 * 2 ^ 6 + 8) * 2 ^ 64, .mgat c0 .w ⟨some 0, none⟩ (.reg 7) 10 11 8 2),
    (12, word 16 0 20 7 5 0x151 + 1 + 1 * 2 ^ 64, .mldt c0 .b8 d5 (.reg 7) 20 1 0),
    (16, word 16 10 7 8 0 0x152 + 2 + 11 * 2 ^ 64 + (2 ^ 14 + 3 * 2 ^ 5 + 1) * 2 ^ 96,
      .mst c0 .f32 false false .rz false true 10 (.reg 7) 11 1 3 (.reg 0) 0),
    (8, word 96 0 0 0 16 0x153 + 8, .mzero c0 true true 2 2), (16, word 32 12 11 10 0 0x154 + 2 + 13 * 2 ^ 64, .tred c0 false true 10 11 12 13),
    (8, word 0 0 0 7 0 0x155, .msf c0 (.reg 7))] = true := by
  decide +kernel

/-- The transfer processor (R316 to R332), whose words a core refuses but for the counted barriers. -/
theorem test_decode_transfer : decodes .xp [
    (8, wordB 0 24 3 0 0x160, .xloop 3 24), (8, word 0 0 20 8 6 0x161, .tadr 6 8 20), (8, word 0 0 20 8 5 0x162, .tinc 5 8 20),
    (8, word 0 0 20 8 5 0x163, .tin 5 8 20), (8, wordB 64 0x3FFFC 3 6 0x164, .lidx true 6 3 0x3FFFC),
    (8, word 8 9 6 4 0 0x168, .xfer .g .l 4 6 9),
    (16, word 8 9 6 4 0 0x169 + 2 + 7 * 2 ^ 64 + (3 * 2 ^ 16 + 64) * 2 ^ 96, .xferG .g .l 4 6 9 7 64 3),
    (8, word 8 0 6 4 0 0x16A, .xferT .g .l 4 6), (8, word 0 0 0 3 0 0x16C, .cgen 3), (8, word 0 0 0 0 5 0x16D, .xwait 5),
    (8, wordB 0 0x10000 15 0 0x171, .cbw c0 15 0x10000), (8, wordB 0 0 1 0 0x172, .cbset c0 1 0), (8, word 64 0 0 4 0 0x178, .chain true 4),
    (8, word 0 0 0 0 0 0x17C, .xhalt)] = true := by
  decide +kernel

/-- Tasks, synchronisation, system (R336 to R358, R360, R378). -/
theorem test_decode_system : decodes .core [
    (8, word 0 0 0 0 0 0x1A1, .wbar c0), (8, word 0 0 0 9 0 0x1A2, .sbar c0 9), (8, word 64 9 0 0 0 0x1A8, .asetDel c0 9),
    (8, word 0 0 0 0 6 0x1A9, .age c0 6), (8, word 64 0 0 8 2 0x1A9, .ageLt c0 2 8), (8, word 0 0 0 0 0 0x1AA + 4, .yield cr),
    (8, word 16 0 0 40 15 0x1B0, .collA2a c0 15 40), (8, word 48 0 0 40 8 0x1B0, .collBar c0 8 40), (8, wordB 0 0x155 0 0 0x1B8 + 4, .trap cr 0x155),
    (8, word 32 0 0 0 0 0x1B9 + 4, .rftAgain cr none), (8, word 64 0 0 0 0 0x1B9 + 4, .rftEnd cr none),
    (8, wordB 0 0x001 7 0 0x1C1, .csrw c0 0x001 7), (8, wordB 0 0x031 8 0 0x1C1, .csrwXpChan c0 true 8),
    (8, wordB 0 0x102 7 0 0x1C1, .csrwFltTail c0 7), (8, wordB 0 0x110 7 0 0x1C1, .csrwDbgCtl c0 7), (8, word 0 0 0 0 7 0x1C8, .gen c0 7)] = true := by
  decide +kernel

/-! ## Well-formedness: a term that each check refuses -/

/-- Pairs, ranges, immediates and codes outside their entries, and instructions of the other kind of unit (R163, R168, R207, R218 to R356). -/
theorem test_ill_formed : ([
    (.core, .nop 3 false), (.core, .hint 0 false 0), (.core, .hint 0 false (BitVec.ofNat 125 (0x1F3 * 2 + 2 ^ 61))), (.core, .br c0 4), (.core, .br cr 2),
    (.xp, .br ⟨⟨1, false⟩, false⟩ 4), (.core, .bcmp cr .eq true (.vec (.reg 3) (.vec (.reg 4))) 0), (.core, .dbnz cr true (.v 3) 0),
    (.core, .brx cr (.scal 3)), (.core, .ret c0 (.scal 4)), (.core, .btab cr 20 (.vec (.reg 3)) 0), (.core, .btab cr 20 (.vec (.reg 3)) 65537),
    (.core, .btab cr 21 (.vec (.reg 3)) 1), (.core, .call cr 31 0), (.xp, .call c0 32 0), (.core, .callx cr 30 (.reg 33)), (.xp, .rcvArm c0 0),
    (.core, .rcvJoin c0 0), (.xp, .rcvDrop c0 0), (.core, .brk c0 0), (.core, .add c0 true (.scal 6 8 9)), (.xp, .add c0 false v79),
    (.core, .mad c0 true (.scal 6 8 10 11)), (.core, .addi c0 true v7 0), (.core, .shl c0 true (.scal 7 8 9)), (.core, .shli c0 false v7 32),
    (.core, .shli c0 true (.scal 6 8) 64), (.core, .bfe c0 false false v7 0 0), (.core, .bfe c0 false false v7 1 32), (.core, .bfi c0 false v79 31 2),
    (.core, .popc c0 true v7), (.xp, .icmp c0 .eq false 0 (.scal 1 2)), (.core, .icmpi c0 .eq true 0 (.scal 1) 0),
    (.core, .isel c0 true false d5 (.reg 6) (.vec (.reg 8)) 0), (.xp, .plop c0 .and 0 0 0), (.core, .mov c0 true (.scal 6 9)),
    (.core, .movi c0 true false (.scal 6) 0), (.core, .lea c0 false 5 (.scal 6 8 9) 0), (.core, .lea c0 false 4 (.scal 7 8 9) 0), (.xp, .lane c0 d5),
    (.core, .fadd c0 false .f32 .sr d5 (.reg 7) (.vec (.reg 9))), (.core, .fsqrt c0 false .f64 .rn d5 (.reg 8)),
    (.core, .ffma c0 false .f64 .rn ⟨some 6, none⟩ (.reg 8) (.vec (.reg 8)) (.reg 9)), (.core, .fmin c0 false .f64 ⟨some 6, none⟩ (.reg 7) (.vec (.reg 8))),
    (.core, .fabs c0 false .f64 ⟨some 6, some 1⟩ (.reg 8)), (.core, .fcmp c0 .eq true 0 (.reg 8) (.scal 9)), (.core, .fclass c0 false .f64 d5 (.reg 7)),
    (.core, .cvt c0 false .i32 .u32 0 .x1 .rn false d5 (.reg 7) (.reg 0) (.reg 0) (.reg 0) (.reg 0) 0),
    (.core, .cvt c0 false .f16 .f32 0 .x1 .rn true d5 (.reg 7) (.reg 0) (.reg 0) (.reg 0) (.reg 0) 0),
    (.core, .cvt c0 false .f32 .f16 2 .x1 .rn false d5 (.reg 7) (.reg 0) (.reg 0) (.reg 0) (.reg 0) 0),
    (.core, .cvt c0 false .f16 .f32 0 .x4 .rn false d5 (.reg 7) (.reg 0) (.reg 0) (.reg 0) (.reg 0) 0),
    (.core, .cvt c0 false .f16 .f32 0 .x1 .rn false d5 (.reg 7) (.reg 1) (.reg 0) (.reg 0) (.reg 0) 0),
    (.core, .cvt c0 false .f16 .f32 0 .x1 .sr false d5 (.reg 7) (.reg 0) (.reg 0) (.reg 0) (.reg 2) 126),
    (.core, .rng c0 false 0 d5 (.reg 8) (.vec (.reg 9)) 126), (.core, .rng c0 false 0 d5 (.reg 7) (.vec (.reg 9)) 0), (.xp, .shfl c0 .idx d5 (.reg 7) (.scal 9)),
    (.xp, .vote c0 .any d5 0), (.core, .lred c0 .and .f32 d5 (.reg 7)), (.core, .lscan c0 .add .u64 false d5 (.reg 8))] : List (UnitK × Instr)).all
      (fun x => !x.2.wf x.1) = true := by
  decide

theorem test_ill_formed_memory_and_system : ([
    (.core, .ld c0 .b32 ⟨.rel, .wv, 0⟩ (.scal 12 8) 0), (.core, .ld c0 .b64 rlx (.scal 13 8) 0), (.xp, .ld c0 .b32 rlx (.vec false d5 (.scal 8) none) 0),
    (.core, .st c0 .b32 ⟨.acq, .wv, 0⟩ (.scal 8 12) 0), (.core, .st c0 .b32 rlx (.scal 9 12) 0), (.core, .stCr c0 true rlx (.scal 8 13) 0),
    (.core, .lds c0 false .b32 false ⟨.rlx, .sr, 0⟩ d5 (.reg 7) 0), (.core, .sts c0 false .b32 false ⟨.rlx, .wv, 1⟩ (.reg 7) (.reg 9) 0),
    (.core, .ldc c0 false .b32 false ⟨.rlx, .di, 0⟩ d5 (.reg 7) (.scal 3) 0), (.core, .stc c0 false .b64 false rlx (.reg 7) (.scal 3) (.reg 9) 0),
    (.core, .ldv c0 false .b32 rlx d5 (.vec (.reg 4)) 0 0 0), (.core, .vupd c0 false .f32 .rn rlx 9 4 6 20),
    (.core, .vupd c0 false .f32 .rn ⟨.ar, .wv, 0⟩ 9 4 6 124), (.core, .vstepRd c0 ⟨.acq, .wv, 0⟩ 9 5), (.core, .vstepSet c0 ⟨.acq, .wv, 0⟩ 4 6),
    (.core, .atom c0 false .add false rlx d5 (.vec (.reg 4)) (.reg 7) (.reg 9) 0), (.core, .atom c0 false .add false rlx d5 (.vec (.reg 5)) (.reg 7) (.reg 0) 0),
    (.core, .mwait c0 true rlx 11 4 6 8 0), (.core, .fence c0 false .rlx .wv 0), (.core, .seal c0 rlx 4 6), (.core, .unseal c0 ⟨.ar, .wv, 0⟩ 5 6),
    (.core, .crdecl c0 .addf32 ⟨.acq, .wv, 0⟩ 4 6), (.core, .crflush c0 false rlx 4), (.core, .prefetch c0 false false 0 (.scal 5) none 0),
    (.core, .cpy c0 .g .l 0 1 16 18), (.xp, .cseal c0), (.core, .ropCas c0 rlx 3 124 4 8 12 0), (.core, .ropEnq c0 rlx 20 4 9 0),
    (.core, .ropChase c0 rlx 126 4 9 0), (.core, .flq c0 false 126 9), (.core, .mma c0 .p2 false 0 (.wave 6) 0 1 (.reg 0) (.reg 0) 0 0),
    (.core, .mma c0 .f64 false 31 (.wave 6) 0 0 (.reg 0) (.reg 0) 0 0), (.core, .mma c0 .bf16 true 0 (.wave 6) 0 0 (.reg 0) (.reg 0) 0 0),
    (.core, .mma c0 .b8e4m3 false 0 (.wave 6) 0 0 (.reg 0) (.reg 0) 16 0), (.core, .mgat c0 .w d5 (.reg 7) 10 11 8 0), (.core, .mgat c0 .b8 d5 (.reg 7) 10 11 5 0),
    (.core, .mgat c0 .w Dst.nothing (.reg 7) 10 11 32 1), (.core, .mldt c0 .w d5 (.reg 7) 20 1 0), (.core, .mldt c0 .b8 d5 (.reg 7) 124 1 0),
    (.core, .mst c0 .f64 false false .rn false false 10 (.reg 7) 11 0 0 (.reg 0) 0), (.core, .mst c0 .b8e4m3 false false .rn false false 10 (.reg 7) 11 0 2 (.reg 0) 0),
    (.core, .mst c0 .f32 false true .rn false false 10 (.reg 7) 11 0 3 (.reg 0) 0), (.core, .mst c0 .f32 false false .rn true false 10 (.reg 7) 11 0 3 (.reg 0) 0),
    (.core, .mzero c0 false true 3 31), (.xp, .tred c0 false false 0 0 0 0), (.xp, .msf c0 (.reg 7)), (.xp, .xloop 0 14), (.xp, .xloop 0 16388), (.core, .xloop 0 16),
    (.xp, .tadr 7 8 20), (.core, .tin 5 8 20), (.xp, .lidx true 7 3 0), (.xp, .xfer .g .l 5 6 9), (.xp, .xferG .g .l 4 6 9 7 0 3), (.xp, .xferT .g .l 4 7),
    (.core, .cgen 3), (.core, .cba c0 0 0), (.core, .cbw c0 0 65537), (.core, .cbset c0 0 65537), (.xp, .chain true 5), (.core, .exit cr 5 0), (.core, .exit cr 0 2),
    (.core, .exit cr 4 122), (.core, .exit c0 0 0), (.core, .yield c0), (.core, .trap c0 0), (.xp, .wbar c0), (.core, .collRes c0 3 7), (.core, .rclaim c0 12),
    (.core, .rrel c0 256), (.core, .aset c0 1 0 0), (.core, .age c0 7), (.core, .ageLt c0 0 7), (.core, .collRed c0 7 40), (.core, .collBar c0 8 122),
    (.core, .rftNext c0 none), (.xp, .rftEnd cr (some (0, .reg 0))), (.core, .csrr c0 7 0x011), (.core, .csrr c0 7 0x030), (.xp, .csrr c0 7 0x001),
    (.core, .csrw c0 0x000 7), (.core, .csrw c0 0x102 7), (.core, .csrwXpChan c0 false 7), (.xp, .gen c0 7), (.core, .distributorPlace)] :
      List (UnitK × Instr)).all (fun x => !x.2.wf x.1) = true := by
  decide

/-! ## Small states -/

/-- Page tables of slot 0 (R69, R70): page 1 for code and data, page 2 versioned, page 3 data, page 4 read-only, page 5 that moves outward. -/
def tables : List Host.Cell :=
  let leaf (m : List Host.Cell) (k flags : Nat) : List Host.Cell := wrNum m (0x5000 + 8 * k) 8 (65536 * k + flags + 3 + 2 ^ 56 + 2 ^ 57)
  let m := wrNum (wrNum (wrNum (wrNum [] 0x1000 8 0x2001) 0x2000 8 0x3001) 0x3000 8 0x4001) 0x4000 8 0x5001
  leaf (leaf (leaf (leaf (leaf m 1 (2 ^ 59 + 2 ^ 58)) 2 (2 ^ 61 + 2 ^ 58)) 3 (2 ^ 58)) 4 0) 5 (2 ^ 58 + 2 ^ 62)

def pageLeaf (k flags : Nat) : Leaf := ⟨65536 * k + flags + 3 + 2 ^ 56 + 2 ^ 57, 0, 0x5000 + 8 * k⟩
def leaf1 : Leaf := pageLeaf 1 (2 ^ 59 + 2 ^ 58)
def leaf2 : Leaf := pageLeaf 2 (2 ^ 61 + 2 ^ 58)
def leaf3 : Leaf := pageLeaf 3 (2 ^ 58)

def block1 : Block := ⟨0x10000, 0, 0, false, false, false, false, false, 1, 256, 8, 0, 1, 1, 0, 0, 0, []⟩
def launch1 : Launch := ⟨block1, 1, 0, true, 1, [], [], []⟩

/-- A ready part with slot 0 live, launch 1 on core 0 with eight lines of scratchpad. -/
def mapped : State :=
  { State.reset with
    boot := ⟨1, 0, 0, 0, 0⟩
    mem := tables
    frames := [(0, 64, 0)]
    slots := [(0, ASlot.fresh 0x1000 true 0)]
    launches := [(1, launch1)]
    uids := 1000
    stamp := 8 }

def core0 (w : Wave) : Core := { Core.init with slots := [(0, w)], allocs := [⟨1, 0, 8, [], 1, 0⟩] }

/-- A wave in slot 0 of core 0 executes on the lanes given. -/
def onWave (w : Wave) (lanes : Mask) : State :=
  { mapped with cores := [(0, core0 w)], focus := ⟨.wave 0 0, lanes, true, true, 0x10000, 8, 0, none, [], [], [], 0, false, [], none⟩ }

def wave1 : Wave := { Wave.empty with uid := 1, lid := 1 }

/-- Transfer processor 0 of core 0 executes. -/
def onXp (p : XP) : State :=
  { mapped with
    cores := [(0, { Core.init with allocs := [⟨1, 0, 8, [], 1, 0⟩], xp0 := p })]
    focus := ⟨.xp 0 0, xpLane, false, false, 0x100, 8, 0, none, [], [], [], 0, false, [], none⟩ }

def xp1 : XP := { XP.init with st := .running, bind := .launch 0 1 }

def all32 : State := onWave wave1 fullMask
def lane0 : State := onWave wave1 1
def xpOn : State := onXp xp1

theorem onWave_runs (w : Wave) (lanes : Mask) (h : (lanes != 0 && lanes &&& w.ended == 0) = true) : Runs (onWave w lanes) 0 0 w := by
  simp only [Bool.and_eq_true, bne_iff_ne, ne_eq, beq_iff_eq] at h
  exact ⟨rfl, rfl, rfl, rfl, rfl, rfl, rfl, rfl, rfl, rfl, h.1, h.2⟩

theorem onXp_runs (p : XP) (h : p.st = .running) (hq : p.quit = false) (hl : (loopStep 5 p.loops 0x108).2 ≤ 16383) : XRuns (onXp p) 0 0 p :=
  ⟨rfl, by decide, rfl, rfl, rfl, rfl, rfl, rfl, rfl, h, hq, hl⟩

theorem all32_runs : Runs all32 0 0 wave1 := onWave_runs _ _ (by decide)
theorem lane0_runs : Runs lane0 0 0 wave1 := onWave_runs _ _ (by decide)
theorem xpOn_runs : XRuns xpOn 0 0 xp1 := onXp_runs _ rfl rfl (by decide)

theorem reaches_of {s : State} {aslot va size : Nat} {k : AKind} {l : Leaf}
    (h : (decide (va < 2 ^ 57) && decide (va % 32 + size ≤ 32) && decide (s.walk aslot va = .leaf l) && decide (leafFault s aslot va k l = none) &&
      decide (pteOff l.pte = 0) && decide (rdNum s.mem l.ent 8 ||| 2 ^ 57 ||| (if k.writes then 2 ^ 56 else 0) = rdNum s.mem l.ent 8)) = true) :
    Reaches s aslot va size k l := by
  simp only [Bool.and_eq_true, decide_eq_true_eq] at h
  obtain ⟨⟨⟨⟨⟨a, b⟩, c⟩, d⟩, e⟩, f⟩ := h
  exact ⟨a, b, c, d, e, f⟩

theorem plain_of {s : State} {pa : Nat}
    (h : (!isExt pa && !s.poisoned pa && !s.sealedLine pa && decide (s.linePartials (pa / 128) = [])) = true) : PlainSector s pa := by
  simp only [Bool.and_eq_true, Bool.not_eq_true', decide_eq_true_eq] at h
  exact ⟨h.1.1.1, h.1.1.2, h.1.2, h.2⟩

theorem core_all {s : State} (p : Core → Prop) (h0 : p Core.init) (h : ∀ c ∈ s.cores, p c.2) (i : Nat) : p (s.core i) := by
  unfold State.core
  generalize s.cores = m at h
  induction m with
  | nil => exact h0
  | cons c m ih =>
    simp only [aget]
    split
    · exact h c (List.mem_cons_self ..)
    · exact ih fun x hx => h x (List.mem_cons_of_mem _ hx)

/-- Where no leaf, no L1 line and no partial is held. -/
theorem fresh_of {s : State} {core aslot : Nat} (ht : (s.cluster (coreCluster core)).tlb = [])
    (h : (s.cores.all fun c => decide (c.2.l1 = []) && decide (c.2.partials = [])) = true) : FreshTlb s core aslot := by
  have hc : ∀ c ∈ s.cores, c.2.l1 = [] ∧ c.2.partials = [] := fun c hc => by
    have := List.all_eq_true.mp h c hc
    rw [Bool.and_eq_true, decide_eq_true_eq, decide_eq_true_eq] at this
    exact this
  have hl : ∀ i, (s.core i).l1 = [] := core_all (fun c => c.l1 = []) rfl fun c h => (hc c h).1
  refine ⟨fun va _ e he => ?_, fun va _ i _ x hx => ?_, fun va _ e _ => ?_⟩
  · rw [ht] at he
    cases he
  · rw [hl i] at hx
    cases hx
  · simp only [State.linePartials, List.flatMap_eq_nil_iff]
    intro c h
    rw [(hc c h).2]
    rfl

theorem all32_direct (g : Guard) : Direct all32 0 wave1 (all32.active g) := ⟨rfl, rfl, rfl, fresh_of rfl rfl⟩
theorem lane0_direct (g : Guard) : Direct lane0 0 wave1 (lane0.active g) := ⟨rfl, rfl, rfl, fresh_of rfl rfl⟩
theorem xpOn_direct : XDirect xpOn 0 xp1 0 := ⟨rfl, rfl, rfl, fresh_of rfl rfl⟩

/-! ## Witnesses: integer, floating point, lanes -/

theorem witness_IntegerSumsAndProducts : Runs all32 0 0 wave1 ∧ XRuns xpOn 0 0 xp1 ∧ c0.guard = always := ⟨all32_runs, xpOn_runs, rfl⟩
theorem witness_IntegerBoundedResults : Runs all32 0 0 wave1 ∧ XRuns xpOn 0 0 xp1 ∧ c0.guard = always := ⟨all32_runs, xpOn_runs, rfl⟩
theorem witness_DivisionResults : Runs all32 0 0 wave1 ∧ XRuns xpOn 0 0 xp1 ∧ c0.guard = always := ⟨all32_runs, xpOn_runs, rfl⟩
theorem witness_LogicResults : Runs lane0 0 0 wave1 ∧ XRuns xpOn 0 0 xp1 ∧ c0.guard = always := ⟨lane0_runs, xpOn_runs, rfl⟩
theorem witness_ShiftResults : Runs all32 0 0 wave1 ∧ XRuns xpOn 0 0 xp1 ∧ c0.guard = always := ⟨all32_runs, xpOn_runs, rfl⟩
theorem witness_CountsAndReorders : Runs all32 0 0 wave1 ∧ XRuns xpOn 0 0 xp1 ∧ c0.guard = always := ⟨all32_runs, xpOn_runs, rfl⟩
theorem witness_BitFields : 1 ≤ (1 : BitVec 7).toNat ∧ 1 ≤ (64 : BitVec 7).toNat ∧ Runs all32 0 0 wave1 ∧ XRuns xpOn 0 0 xp1 ∧ c0.guard = always :=
  ⟨by decide, by decide, all32_runs, xpOn_runs, rfl⟩
theorem witness_CarrylessAndPermutation : Runs all32 0 0 wave1 ∧ XRuns xpOn 0 0 xp1 ∧ c0.guard = always := ⟨all32_runs, xpOn_runs, rfl⟩
theorem witness_MovesAndAddresses : Runs all32 0 0 wave1 ∧ XRuns xpOn 0 0 xp1 ∧ c0.guard = always := ⟨all32_runs, xpOn_runs, rfl⟩
theorem witness_ComparisonResults : Runs all32 0 0 wave1 := all32_runs
/-- Numbers of both signs, the least one among them, zeros, infinities and a NaN. -/
theorem witness_FloatResults :
    Runs all32 0 0 wave1 ∧ fBF16 ∈ arithFmts ∧ (IsNum fBF16 1 ∧ ¬IsZero fBF16 1 ∧ negative fBF16 1 = false) ∧
    (IsNum fBF16 0xFF7F ∧ ¬IsZero fBF16 0xFF7F ∧ negative fBF16 0xFF7F = true) ∧ (IsZero fBF16 0 ∧ IsZero fBF16 0x8000) ∧
    (IsInf fBF16 0x7F80 ∧ IsInf fBF16 0xFF80 ∧ negative fBF16 0xFF80 = true) ∧ IsNaN fBF16 0x7F81 := by
  refine ⟨all32_runs, by simp [arithFmts], ?_⟩
  unfold IsNum IsNaN IsInf IsZero
  decide

/-- Four saturated OCP elements from words; the upper half of a word; a leaf of each kind. -/
theorem witness_ConversionAndLaneResults :
    Runs all32 0 0 wave1 ∧ floatOf .e5m2 ≠ none ∧ (CTy.f32.width < 32) = False ∧ 1 < ccntN .x4 ∧ ccntN .x4 * CTy.e5m2.width ≤ 32 ∧
    CTy.f16.width < 32 ∧ CTy.f16.width * ((1 : BitVec 2).toNat + 1) ≤ 32 ∧ laneTyFloat .f32 = some fF32 ∧ 0x7F800001 < 2 ^ wbits (laneTyWide .f32) ∧
    IsNaN fF32 0x7F800001 ∧ ¬IsNaN fF32 0x7F800000 ∧ laneTyFloat .u32 = none := by
  refine ⟨all32_runs, by decide, by simp [CTy.width], by decide, by decide, by decide, by decide, rfl, by decide, ?_⟩
  unfold IsNaN
  decide

/-- The largest number, a zero, and the least number: every sum, product and quotient of them, in range or not. -/
theorem witness_RoundedArithmetic :
    fF32 ∈ arithFmts ∧ RMode.rz ≠ .sr ∧ IsNum fF32 0x7F7FFFFF ∧ IsNum fF32 1 ∧ IsNum fF32 0x80000000 ∧ value fF32 1 ≠ 0 ∧
    0 < value fF32 0x7F7FFFFF := by
  refine ⟨by simp [arithFmts], by decide, by unfold IsNum IsNaN IsInf; decide, by unfold IsNum IsNaN IsInf; decide, by unfold IsNum IsNaN IsInf; decide, ?_⟩
  decide +kernel

/-- A NaN, infinities of both signs, zeros of both signs, a negative number, in each place where a clause asks for one. -/
theorem witness_SpecialValues :
    fF32 ∈ arithFmts ∧ RMode.rd ≠ .sr ∧ IsNaN fF32 0x7F800001 ∧ (IsZero fF32 0 ∧ IsInf fF32 0x7F800000) ∧ (IsInf fF32 0xFF800000 ∧ IsZero fF32 0x80000000) ∧
    negative fF32 0xFF800000 ≠ negative fF32 0x7F800000 ∧ (IsNum fF32 0xBF800000 ∧ ¬IsZero fF32 0xBF800000 ∧ IsZero fF32 0x80000000) ∧
    negative fF32 0xBF800000 = true ∧ ¬IsNaN fF32 0x7F800000 ∧ negative fF32 0 ≠ negative fF32 0x80000000 := by
  refine ⟨by simp [arithFmts], by decide, ?_⟩
  unfold IsNum IsNaN IsInf IsZero
  decide

/-! ## Witnesses: memory -/

theorem reach1 (s : State) (va size : Nat) (k : AKind)
    (h : (decide (va < 2 ^ 57) && decide (va % 32 + size ≤ 32) && decide (s.walk 0 va = .leaf leaf1) && decide (leafFault s 0 va k leaf1 = none) &&
      decide (pteOff leaf1.pte = 0) &&
      decide (rdNum s.mem leaf1.ent 8 ||| 2 ^ 57 ||| (if k.writes then 2 ^ 56 else 0) = rdNum s.mem leaf1.ent 8) &&
      (!isExt (leaf1.pa va) && !s.poisoned (leaf1.pa va) && !s.sealedLine (leaf1.pa va) && decide (s.linePartials (leaf1.pa va / 128) = []))) = true) :
    Reaches s 0 va size k leaf1 ∧ PlainSector s (leaf1.pa va) := by
  rw [Bool.and_eq_true] at h
  exact ⟨reaches_of h.1, plain_of h.2⟩

/-- The last doubleword of a sector: vector form on 32 lanes, scalar form, transfer processor. -/
theorem witness_LoadResults :
    (Runs all32 0 0 wave1 ∧ Direct all32 0 wave1 (all32.active c0.guard) ∧
      ∀ x ∈ all32.groups c0.guard false, Reaches all32 0 (wave1.gaddr (.vec (.reg 4)) none 8 0x10018 x.1) 8 .load leaf1 ∧
        PlainSector all32 (leaf1.pa (wave1.gaddr (.vec (.reg 4)) none 8 0x10018 x.1))) ∧
    (all32.active c0.guard ≠ 0 ∧ Reaches all32 0 (all32.saddr 8 0x10018) 8 .load leaf1 ∧ PlainSector all32 (leaf1.pa (all32.saddr 8 0x10018))) ∧
    XRuns xpOn 0 0 xp1 ∧ c0.guard = always ∧ XDirect xpOn 0 xp1 0 ∧ Reaches xpOn 0 (xpOn.saddr 8 0x10018) 8 .load leaf1 ∧
      PlainSector xpOn (leaf1.pa (xpOn.saddr 8 0x10018)) := by
  have h : ∀ x ∈ all32.groups c0.guard false, wave1.gaddr (.vec (.reg 4)) none 8 0x10018 x.1 = 0x10018 := by decide +kernel
  refine ⟨⟨all32_runs, all32_direct _, fun x hx => ?_⟩, ⟨by decide +kernel, reach1 all32 _ _ _ (by decide +kernel)⟩, xpOn_runs, rfl, xpOn_direct,
    reach1 xpOn _ _ _ (by decide +kernel)⟩
  rw [h x hx]
  exact reach1 all32 _ _ _ (by decide +kernel)

/-- A release waits for nothing where no flow is open. -/
theorem answered_of {s : State} (w : Wave) (o : Ord) (lanes : Mask) (h : s.flows = []) : Answered s w o lanes := by
  intro _
  simp [State.openRemote, h]

/-- The tables lie elsewhere. -/
theorem spares_of {s : State} {n pa va : Nat} (h : ((s.tablePath 0 va).all fun e => decide (e / n ≠ pa / n)) = true) : SparesTables s 0 n pa va :=
  fun e he => of_decide_eq_true (List.all_eq_true.mp h e he)

/-- Thirty-two lanes at one word, one access for each or for all; the scalar form. -/
theorem witness_StoreResults :
    Runs all32 0 0 wave1 ∧ Direct all32 0 wave1 (all32.active c0.guard) ∧ Answered all32 wave1 .rel (all32.active c0.guard) ∧
    (∀ uni, ∀ x ∈ all32.groups c0.guard uni,
      (Reaches all32 0 (wave1.gaddr (.vec (.reg 4)) none 4 0x1001C x.1) 4 .store leaf1 ∧
        PlainSector all32 (leaf1.pa (wave1.gaddr (.vec (.reg 4)) none 4 0x1001C x.1))) ∧
      ∀ y ∈ all32.groups c0.guard uni,
        SparesTables all32 0 32 (leaf1.pa (wave1.gaddr (.vec (.reg 4)) none 4 0x1001C x.1)) (wave1.gaddr (.vec (.reg 4)) none 4 0x1001C y.1)) ∧
    (all32.groups c0.guard false).length = 32 ∧ all32.active c0.guard ≠ 0 ∧ Reaches all32 0 (all32.saddr 8 0x10018) 8 .store leaf1 ∧
    PlainSector all32 (leaf1.pa (all32.saddr 8 0x10018)) := by
  have h : ∀ uni, ∀ x ∈ all32.groups c0.guard uni, wave1.gaddr (.vec (.reg 4)) none 4 0x1001C x.1 = 0x1001C := by decide +kernel
  refine ⟨all32_runs, all32_direct _, answered_of _ _ _ rfl, fun uni x hx => ⟨?_, fun y hy => ?_⟩, by decide +kernel, by decide +kernel,
    reach1 all32 _ _ _ (by decide +kernel)⟩
  · rw [h uni x hx]
    exact reach1 all32 _ _ _ (by decide +kernel)
  · rw [h uni x hx, h uni y hy]
    exact spares_of (by decide +kernel)

/-- A live range over the first line of page 1. -/
def ranged : State := { all32 with slots := [(0, { ASlot.fresh 0x1000 true 0 with ranges := [⟨0x10000, 128, .addi64⟩] })] }

theorem witness_ContributionResults :
    Runs ranged 0 0 wave1 ∧ Direct ranged 0 wave1 (ranged.active c0.guard) ∧ Answered ranged wave1 .rel (ranged.active c0.guard) ∧
    (∀ uni, ∀ x ∈ ranged.groups c0.guard uni, Reaches ranged 0 (wave1.gaddr (.vec (.reg 4)) none 8 0x10078 x.1) 8 .contrib leaf1 ∧
      isExt (leaf1.pa (wave1.gaddr (.vec (.reg 4)) none 8 0x10078 x.1)) = false ∧
      ranged.sealedLine (leaf1.pa (wave1.gaddr (.vec (.reg 4)) none 8 0x10078 x.1)) = false ∧
      ranged.contribRange 0 (wave1.gaddr (.vec (.reg 4)) none 8 0x10078 x.1) 8 = some ⟨0x10000, 128, .addi64⟩ ∧
      ∀ y ∈ ranged.groups c0.guard uni,
        SparesTables ranged 0 128 (leaf1.pa (wave1.gaddr (.vec (.reg 4)) none 8 0x10078 x.1)) (wave1.gaddr (.vec (.reg 4)) none 8 0x10078 y.1)) ∧
    ranged.active c0.guard ≠ 0 ∧ ranged.contribRange 0 (ranged.saddr 8 0x10000) 8 = some ⟨0x10000, 128, .addi64⟩ := by
  have h : ∀ uni, ∀ x ∈ ranged.groups c0.guard uni, wave1.gaddr (.vec (.reg 4)) none 8 0x10078 x.1 = 0x10078 := by decide +kernel
  refine ⟨⟨rfl, rfl, rfl, rfl, rfl, rfl, rfl, rfl, rfl, rfl, by decide, by decide⟩, ⟨rfl, rfl, rfl, fresh_of rfl rfl⟩, answered_of _ _ _ rfl,
    fun uni x hx => ?_, by decide +kernel, by decide +kernel⟩
  rw [h uni x hx]
  refine ⟨reaches_of (by decide +kernel), by decide, by decide, by decide +kernel, fun y hy => ?_⟩
  rw [h uni y hy]
  exact spares_of (by decide +kernel)

theorem witness_AtomicResults :
    Runs all32 0 0 wave1 ∧ Direct all32 0 wave1 (all32.active c0.guard) ∧ Answered all32 wave1 .ar (all32.active c0.guard) ∧
    ∀ uni, ∀ x ∈ all32.groups c0.guard uni, wave1.gaddr (.vec (.reg 4)) none 1 0x10018 x.1 % 8 = 0 ∧
      (Reaches all32 0 (wave1.gaddr (.vec (.reg 4)) none 1 0x10018 x.1) 8 .atomic leaf1 ∧
        PlainSector all32 (leaf1.pa (wave1.gaddr (.vec (.reg 4)) none 1 0x10018 x.1))) ∧
      ∀ y ∈ all32.groups c0.guard uni,
        SparesTables all32 0 32 (leaf1.pa (wave1.gaddr (.vec (.reg 4)) none 1 0x10018 x.1)) (wave1.gaddr (.vec (.reg 4)) none 1 0x10018 y.1) := by
  have h : ∀ uni, ∀ x ∈ all32.groups c0.guard uni, wave1.gaddr (.vec (.reg 4)) none 1 0x10018 x.1 = 0x10018 := by decide +kernel
  refine ⟨all32_runs, all32_direct _, answered_of _ _ _ rfl, fun uni x hx => ?_⟩
  rw [h uni x hx]
  refine ⟨by decide, reach1 all32 _ _ _ (by decide +kernel), fun y hy => ?_⟩
  rw [h uni y hy]
  exact spares_of (by decide +kernel)

/-- The last word of the allocation of eight lines; the core of cluster index 0, and of 63 for the operand's limit. -/
theorem witness_ScratchpadLoads :
    Runs all32 0 0 wave1 ∧
    (∀ x ∈ all32.groups c0.guard false, all32.spadByte 0 (wave1.soff (.reg 4) 0x3FC x.1) 4 false = .ok 0x3FC ∧ 0x3FC / 128 ∉ (all32.core 0).absent) ∧
    (all32.groups c0.guard true).length = 1 ∧ Unclaimed all32 (0, 0x3FC / 128) ∧
    (∀ x ∈ all32.groups c0.guard false, wave1.bsrc false (.scal 3) x.1 < 64) ∧
    (∀ x ∈ all32.groups c0.guard false, all32.spadByte (coreOfCluster (coreCluster 0) (wave1.bsrc false (.scal 3) x.1)) (wave1.soff (.reg 4) 0x3FC x.1) 4 false =
      .ok 0x3FC) := by
  refine ⟨all32_runs, by decide +kernel, by decide +kernel, fun y hy t ht => ?_, by decide +kernel, by decide +kernel⟩
  have : ∀ y ∈ all32.resident, y.2.2.streams = [] := by decide +kernel
  rw [this y hy] at ht
  cases ht

/-- Two diverged lanes that name lines 0 and 1; an absent line; a line that another wave waits to consume. -/
def waveD : Wave := { wave1 with v := [(32 * 7 + 1, 128)] }
def divergedOn (w : Wave) (m : Mask) : State := { onWave w m with focus := { (onWave w m).focus with bc := false } }
def emptyLine : State := { all32 with cores := [(0, { core0 wave1 with absent := [0] })] }
def consumer : Wave := { wave1 with uid := 2, streams := [⟨1, 0, 0, false, .park (.consume [(0, 0)] 5) 8 false 0, 0, false, 0, [], none⟩] }
def consuming : State := { all32 with cores := [(0, { core0 wave1 with slots := [(0, wave1), (1, consumer)] })] }

theorem witness_ScratchpadLoads_clearing :
    (Runs (divergedOn waveD 3) 0 0 waveD ∧ (divergedOn waveD 3).focus.bc = false ∧ ((divergedOn waveD 3).groups c0.guard false).length = 2 ∧
      (∀ x ∈ (divergedOn waveD 3).groups c0.guard false, (divergedOn waveD 3).spadByte 0 (waveD.soff (.reg 7) 0 x.1) 4 false = .ok (128 * x.1) ∧
        128 * x.1 / 128 ∉ ((divergedOn waveD 3).core 0).absent ∧ Unclaimed (divergedOn waveD 3) (0, 128 * x.1 / 128)) ∧
      ∀ x ∈ (divergedOn waveD 3).groups c0.guard false, ∀ y ∈ (divergedOn waveD 3).groups c0.guard false, x.1 ≠ y.1 →
        (0, 128 * x.1 / 128) ≠ (0, 128 * y.1 / 128)) ∧
    (∀ s ∈ [emptyLine, consuming], Runs s 0 0 wave1 ∧ s.focus.bc = true ∧ (s.groups c0.guard false).length = 32 ∧
      ∀ x ∈ s.groups c0.guard false, s.spadByte 0 (wave1.soff (.reg 4) 0 x.1) 4 false = .ok 0) ∧
    0 ∈ (emptyLine.core 0).absent ∧ ∃ y ∈ consuming.resident, consuming.halted y.1 y.2.2 = false ∧ ∃ r ∈ y.2.2.streams,
      r.st = .park (.consume [(0, 0)] 5) 8 false 0 ∧ 5 ≤ consuming.uids := by
  refine ⟨⟨⟨rfl, rfl, rfl, rfl, rfl, rfl, rfl, rfl, rfl, rfl, by decide, by decide⟩, rfl, by decide +kernel, fun x hx => ?_, by decide +kernel⟩, fun s hs => ?_,
    by decide, ⟨(0, 1, consumer), by decide +kernel, by decide +kernel, _, List.mem_singleton.mpr rfl, rfl, by decide⟩⟩
  · have h : ∀ x ∈ (divergedOn waveD 3).groups c0.guard false,
        (divergedOn waveD 3).spadByte 0 (waveD.soff (.reg 7) 0 x.1) 4 false = .ok (128 * x.1) := by decide +kernel
    refine ⟨h x hx, List.not_mem_nil, fun y hy t ht => ?_⟩
    have : ∀ y ∈ (divergedOn waveD 3).resident, y.2.2.streams = [] := by decide +kernel
    rw [this y hy] at ht
    cases ht
  · simp only [List.mem_cons, List.not_mem_nil, or_false] at hs
    obtain rfl | rfl := hs <;>
      exact ⟨⟨rfl, rfl, rfl, rfl, rfl, rfl, rfl, rfl, rfl, rfl, by decide, by decide⟩, rfl, by decide +kernel, by decide +kernel⟩

theorem witness_ScratchpadStores :
    Runs all32 0 0 wave1 ∧ Answered all32 wave1 .rel (all32.active c0.guard) ∧ (all32.core 0).lanesLog wave1.uid (all32.active c0.guard) = [] ∧
    (∀ x ∈ all32.groups c0.guard false, all32.spadByte 0 (wave1.soff (.reg 4) 0x3F8 x.1) 8 false = .ok 0x3F8) ∧
    (∀ x ∈ all32.groups c0.guard false, wave1.bsrc false (.scal 3) x.1 < 64) :=
  ⟨all32_runs, answered_of _ _ _ rfl, rfl, by decide +kernel, by decide +kernel⟩

/-- A wave that names the versioned page by s8:s9, with step s20 = 3; the block's tag reads 3 and 2. -/
def waveV : Wave := { wave1 with s := [(8, 0x20000), (20, 3)] }
def tagged (tag : Word) : State := { onWave waveV 1 with tags := [(2, tag)] }

theorem tagged_runs (tag : Word) : Runs (tagged tag) 0 0 waveV := ⟨rfl, rfl, rfl, rfl, rfl, rfl, rfl, rfl, rfl, rfl, by change (1 : Mask) ≠ 0; decide, by change (1 : Mask) &&& waveV.ended = 0; decide⟩

theorem witness_VersionedLoadsAndSteps :
    Runs (tagged 3) 0 0 waveV ∧ Direct (tagged 3) 0 waveV ((tagged 3).active c0.guard) ∧
    (∀ x ∈ (tagged 3).groups c0.guard false, (Reaches (tagged 3) 0 (waveV.gaddr (.scal 8) none 1 0x1C x.1) 4 .load leaf2 ∧
      PlainSector (tagged 3) (leaf2.pa (waveV.gaddr (.scal 8) none 1 0x1C x.1))) ∧ pteVer leaf2.pte = true ∧
      waveV.scal false 20 ≤ (tagged 3).tag (leaf2.pa (waveV.gaddr (.scal 8) none 1 0x1C x.1))) ∧
    (tagged 3).openRemote waveV.uid ((tagged 3).active c0.guard) = false ∧ (tagged 3).active c0.guard ≠ 0 ∧ waveV.scal true 8 % 65536 = 0 ∧ isExt (leaf2.pa (waveV.scal true 8)) = false ∧
    Reaches (tagged 3) 0 (waveV.scal true 8) 1 .load leaf2 ∧ Reaches (tagged 3) 0 (waveV.scal true 8) 1 .store leaf2 := by
  have h : ∀ x ∈ (tagged 3).groups c0.guard false, waveV.gaddr (.scal 8) none 1 0x1C x.1 = 0x2001C := by decide +kernel
  refine ⟨tagged_runs 3, ⟨rfl, rfl, rfl, fresh_of rfl rfl⟩, fun x hx => ?_, rfl, by decide +kernel, by decide +kernel, by decide +kernel,
    reaches_of (by decide +kernel), reaches_of (by decide +kernel)⟩
  rw [h x hx]
  exact ⟨⟨reaches_of (by decide +kernel), plain_of (by decide +kernel)⟩, by decide, by decide +kernel⟩


/-- A block of FP32 elements at page 2, its source in page 3 (s10:s11), at step 3 (s24). -/
def waveU : Wave := { wave1 with s := [(8, 0x20000), (10, 0x30000), (24, 3)] }
def blocked (tag : Word) : State := { onWave waveU 1 with tags := [(2, tag)] }

/-- An address of page 3 is reached. -/
theorem reach_page3 (s : State) (va size : Nat) (hp : va / 65536 = 3) (hz : va % 32 + size ≤ 32)
    (h1 : s.walk 0 (65536 * 3) = .leaf leaf3) (h2 : s.boot.mode = 1) (h3 : s.frameSlot 3 = some 0) (h4 : s.poison = []) (h5 : s.sealed = [])
    (h6 : ∀ c ∈ s.cores, c.2.partials = []) (h7 : rdNum s.mem leaf3.ent 8 ||| 2 ^ 57 ||| 0 = rdNum s.mem leaf3.ent 8) :
    Reaches s 0 va size .load leaf3 ∧ PlainSector s (leaf3.pa va) := by
  have pa : leaf3.pa va = va := by
    have : ptePa leaf3.pte = 65536 * 3 := by decide
    simp only [Leaf.pa, this]
    change 65536 * 3 + va % 65536 = va
    omega
  have ext : isExt va = false := by
    simp only [isExt, bitN, Nat.testBit_eq_decide_div_mod_eq]
    rw [Nat.div_eq_of_lt (by omega)]
    decide
  refine ⟨⟨by omega, hz, ?_, ?_, by decide, h7⟩, ⟨by rw [pa]; exact ext, by simp [State.poisoned, h4], by simp [State.sealedLine, h5, aget], ?_⟩⟩
  · rw [← walk_page, hp]
    exact h1
  · have hb : s.backed va = true := by
      simp only [State.backed, h2, Bool.and_eq_true, decide_eq_true_eq]
      exact ⟨by have : dramTop = 0xC000000000 := by decide
                omega, rfl⟩
    simp only [leafFault, pa, ext, hb, hp, h3]
    decide
  · simp only [State.linePartials, List.flatMap_eq_nil_iff]
    intro c hc
    rw [h6 c hc]
    rfl

theorem pieces_within (va n : Nat) : ∀ x ∈ pieces va n, va ≤ x.1 ∧ x.1 + x.2 ≤ va + n ∧ x.1 % 32 + x.2 ≤ 32 ∧ 0 < x.2 := by
  intro x hx
  simp only [pieces, List.mem_filterMap, List.mem_range, Option.ite_none_right_eq_some, Option.some.injEq] at hx
  obtain ⟨i, _, h, rfl⟩ := hx
  dsimp only at h ⊢
  omega

theorem witness_BlockUpdates :
    Runs (blocked 2) 0 0 waveU ∧ Direct (blocked 2) 0 waveU ((blocked 2).active c0.guard) ∧ (blocked 2).active c0.guard ≠ 0 ∧
    (blocked 2).openRemote waveU.uid ((blocked 2).active c0.guard) = false ∧
    waveU.scal true 8 % 65536 = 0 ∧ Reaches (blocked 2) 0 (waveU.scal true 8) 1 .atomic leaf2 ∧ pteVer leaf2.pte = true ∧
    isExt (leaf2.pa (waveU.scal true 8)) = false ∧ (blocked 2).anySealed (leaf2.pa (waveU.scal true 8)) 65536 = false ∧
    (waveU.sreg 24).toNat ≤ (blocked 3).tag (leaf2.pa (waveU.scal true 8)) ∧
    (blocked 2).tag (leaf2.pa (waveU.scal true 8)) < (waveU.sreg 24).toNat ∧ waveU.scal true 10 % 4 = 0 ∧ waveU.cbuf = [] ∧
    (∀ cr ∈ (blocked 2).cores, cr.2.partials = []) ∧
    ∀ x ∈ pieces (waveU.scal true 10) (4 * 16384), Reaches (blocked 2) 0 x.1 x.2 .load leaf3 ∧ PlainSector (blocked 2) (leaf3.pa x.1) :=
  ⟨⟨rfl, rfl, rfl, rfl, rfl, rfl, rfl, rfl, rfl, rfl, by decide, by decide⟩, ⟨rfl, rfl, rfl, fresh_of rfl rfl⟩, by decide +kernel, rfl, by decide +kernel,
    reaches_of (by decide +kernel), by decide +kernel, by decide +kernel, by decide +kernel, by decide +kernel, by decide +kernel, by decide +kernel,
    rfl, by decide +kernel, fun x hx => by
      have := pieces_within _ _ x hx
      have h : waveU.scal true 10 = 65536 * 3 := by decide +kernel
      rw [h] at this
      exact reach_page3 _ _ _ (by omega) this.2.2.1 (by decide +kernel) rfl (by decide +kernel) rfl rfl (by decide +kernel) (by decide +kernel)⟩

/-- The entries of a table, and of the tables that it names, lie below 0x6000. -/
theorem path_low {m : List Host.Cell} {l table next : Nat} (va : Nat)
    (h : ∀ i, i < 512 → table + 8 * i < 0x6000 ∧ ((let e := rdNum m (table + 8 * i) 8
      pteValid e && !pteBad (l + 1) e && pteKind e == 0) = true → ptePa (rdNum m (table + 8 * i) 8) = next))
    (ih : ∀ e ∈ walkPath m l next va, e < 0x6000) : ∀ e ∈ walkPath m (l + 1) table va, e < 0x6000 := by
  have hi : levelIndex (l + 1) va < 512 := by
    unfold levelIndex bitsN
    rw [if_neg (by omega)]
    refine (Nat.mod_lt _ (by positivity)).trans_le ?_
    rw [show 29 + 9 * (l + 1 - 1) + 1 - (21 + 9 * (l + 1 - 1)) = 9 from by omega]
    decide
  intro e he
  simp only [walkPath, List.mem_cons] at he
  obtain rfl | he := he
  · exact (h _ hi).1
  · split at he
    · rename_i hc
      rw [(h _ hi).2 hc] at he
      exact ih e he
    · cases he

theorem tables_low (va : Nat) : ∀ e ∈ walkPath tables 4 0x1000 va, e < 0x6000 := by
  refine path_low va (next := 0x2000) (by decide +kernel) (path_low va (next := 0x3000) (by decide +kernel)
    (path_low va (next := 0x4000) (by decide +kernel) (path_low va (next := 0x5000) (by decide +kernel) fun e he => ?_)))
  simp only [walkPath, List.mem_singleton] at he
  have : levelIndex 0 va < 32 := by
    unfold levelIndex bitsN
    exact Nat.mod_lt _ (by decide)
  omega

/-- s8:s9 names page 1, s10 a length of 65536 and s12 of 128; a partial of the range's last element waits on the core. -/
def waveR : Wave := { wave1 with s := [(8, 0x10000), (10, 65536), (12, 128)] }
def rangeState : State := onWave waveR 1
def flushState : State :=
  { rangeState with
    slots := [(0, { ASlot.fresh 0x1000 true 0 with ranges := [⟨0x10000, 128, .addi64⟩] })]
    cores := [(0, { core0 waveR with partials := [⟨0x10078, .addi64, 5⟩] })] }

theorem flush_fresh : FreshTlb flushState 0 0 := by
  refine ⟨fun va _ e he => (by cases he), fun va _ i _ x hx => ?_, fun va _ e he => ?_⟩
  · rw [core_all (s := flushState) (fun c => c.l1 = []) rfl (by decide +kernel) i] at hx
    cases hx
  · have hs : (flushState.slot? 0).map (·.root) = some 0x1000 := rfl
    have hm : flushState.mem = tables := by simp only [flushState, rangeState, onWave, mapped]
    rw [State.tablePath, hm] at he
    cases h0 : flushState.slot? 0 with
    | none =>
      rw [h0] at hs
      cases hs
    | some a =>
    rw [h0, Option.map_some, Option.some.injEq] at hs
    rw [h0, Option.elim_some, hs] at he
    have h := tables_low va e he
    have hne : (0x10078 / 128 == e / 128) = false := by
      rw [beq_eq_false_iff_ne]
      omega
    simp only [State.linePartials, List.flatMap_eq_nil_iff, List.filter_eq_nil_iff]
    intro c hc p hp
    rw [List.mem_singleton.mp hc] at hp
    rw [List.mem_singleton.mp hp, hne]
    simp

theorem witness_RangeInstructions :
    (Runs rangeState 0 0 waveR ∧ Direct rangeState 0 waveR (rangeState.active c0.guard) ∧ rangeState.active c0.guard ≠ 0 ∧
      rangeState.slot? 0 = some (ASlot.fresh 0x1000 true 0) ∧ waveR.scal true 8 = 0x10000 ∧ waveR.scal false 10 = 65536 ∧
      waveR.scal false 12 = 128 ∧ Reaches rangeState 0 0x10000 1 .atomic leaf1 ∧ isExt (leaf1.pa 0x10000) = false ∧
      (∀ cr ∈ rangeState.cores, cr.2.partials = [] ∧ cr.2.log = []) ∧ (ASlot.fresh 0x1000 true 0).rangeMeets 0x10000 65536 = false ∧
      (ASlot.fresh 0x1000 true 0).ranges.length < 64) ∧
    Runs flushState 0 0 waveR ∧ Direct flushState 0 waveR (flushState.active c0.guard) ∧
      (∃ a, flushState.slot? 0 = some a ∧ a.ranges.find? (fun r => r.base == 0x10000) = some ⟨0x10000, 128, .addi64⟩) ∧
      (rangeState.openRemote waveR.uid (rangeState.active c0.guard) = false ∧ flushState.openRemote waveR.uid (flushState.active c0.guard) = false) ∧
      Reaches flushState 0 0x10000 1 .atomic leaf1 ∧ leaf1.pa 0x10000 ≤ 0x10078 ∧ 0x10078 + crBytes .addi64 ≤ leaf1.pa 0x10000 + 128 ∧
      0x10078 / 128 = (0x10078 + crBytes .addi64 - 1) / 128 ∧
      ∀ cr ∈ flushState.cores, ∀ p ∈ cr.2.partials, p.pa = 0x10078 ∧ p.op = .addi64 :=
  ⟨⟨⟨rfl, rfl, rfl, rfl, rfl, rfl, rfl, rfl, rfl, rfl, by decide, by decide⟩, ⟨rfl, rfl, rfl, fresh_of rfl rfl⟩, by decide +kernel, rfl, by decide +kernel,
      by decide +kernel, by decide +kernel, reaches_of (by decide +kernel), by decide, by decide +kernel, by decide, by decide⟩,
    ⟨rfl, rfl, rfl, rfl, rfl, rfl, rfl, rfl, rfl, rfl, by decide, by decide⟩, ⟨rfl, rfl, rfl, flush_fresh⟩, ⟨_, rfl, rfl⟩, ⟨rfl, rfl⟩,
    reaches_of (by decide +kernel), by decide, by decide, by decide, by decide +kernel⟩

/-- A doubleword of page 1 reads 0: the wave expects 0 by s16:s17, and 3 by s24:s25. -/
theorem witness_FencesAndWaits :
    Runs (blocked 0) 0 0 waveU ∧ (blocked 0).active c0.guard ≠ 0 ∧ waveU.remErr = [] ∧
    (∀ f ∈ (blocked 0).flows, ∀ a ∈ f.open', a.uid ≠ waveU.uid ∨ a.kind = .load) ∧ Direct (blocked 0) 0 waveU ((blocked 0).active c0.guard) ∧
    (blocked 0).saddr 16 0x10018 % 8 = 0 ∧
    (Reaches (blocked 0) 0 ((blocked 0).saddr 16 0x10018) 8 .load leaf1 ∧ PlainSector (blocked 0) (leaf1.pa ((blocked 0).saddr 16 0x10018))) ∧
    rdNum (blocked 0).mem (leaf1.pa ((blocked 0).saddr 16 0x10018)) 8 ≠ waveU.scal true 24 ∧
    rdNum (blocked 0).mem (leaf1.pa ((blocked 0).saddr 16 0x10018)) 8 = waveU.scal true 16 :=
  ⟨⟨rfl, rfl, rfl, rfl, rfl, rfl, rfl, rfl, rfl, rfl, by decide, by decide⟩, by decide +kernel, rfl, (fun _ h => nomatch h), ⟨rfl, rfl, rfl, fresh_of rfl rfl⟩,
    by decide +kernel, reach1 _ _ _ _ (by decide +kernel), by decide +kernel, by decide +kernel⟩

/-- From page 1 to the last bytes of the allocation. -/
def waveC : Wave := { wave1 with s := [(8, 0x10000), (10, 1020), (12, 4)] }
theorem witness_CopyCommands :
    Runs (onWave waveC 1) 0 0 waveC ∧ (onWave waveC 1).active c0.guard ≠ 0 ∧ ¬(waveC.commit = true ∧ MKind.l = .g) ∧
    copyBad .g .l (waveC.scal true 8) (waveC.scal true 10) (waveC.scal false 12) = none ∧
    (onWave waveC 1).placeOf (onWave waveC 1).curLid 0 .g (waveC.scal true 8) (waveC.scal false 12) = some (.glob 0x10000) ∧
    (onWave waveC 1).placeOf (onWave waveC 1).curLid 0 .l (waveC.scal true 10) (waveC.scal false 12) = some (.spad 0 1020) ∧
    (onWave waveC 1).queueLen 0 waveC.uid 7 < 16 ∧ (onWave waveC 1).actSets c0.guard = [(onWave waveC 1).active c0.guard] ∧
    (∀ l ∈ lanesOf ((onWave waveC 1).active c0.guard), waveC.batchesOf l < 16 ∧ waveC.batchesOf l ≤ 0) :=
  ⟨onWave_runs _ _ (by decide), by decide +kernel, by decide, by decide +kernel, by decide +kernel, by decide +kernel, by decide +kernel,
    by decide +kernel, by decide +kernel⟩

/-- s8:s9 names a free node; s12 and s13 are requests of one hop and of two; two entries of the list of unresolved accesses, of which the
one at s14 has its answer, and none at s12. -/
def waveP : Wave := { wave1 with s := [(8, 0x10020), (12, 1), (13, 2)], unres := [⟨0x10000, 3, 0, 0, 0, 0, false, none⟩] }
def packet : State := onWave waveP 1

theorem witness_PacketsAndQueries :
    Runs packet 0 0 waveP ∧ packet.active c0.guard ≠ 0 ∧ Direct packet 0 waveP (packet.active c0.guard) ∧
    Answered packet waveP .rel (packet.active c0.guard) ∧
    (packet.saddr 4 0x10000 % 8 = 0 ∧ Reaches packet 0 (packet.saddr 4 0x10000) 32 .atomic leaf1 ∧ PlainSector packet (leaf1.pa (packet.saddr 4 0x10000))) ∧
    (packet.saddr 4 0x10010 % 16 = 0 ∧ (Reaches packet 0 (packet.saddr 4 0x10010) 16 .atomic leaf1 ∧ PlainSector packet (leaf1.pa (packet.saddr 4 0x10010))) ∧
      (Reaches packet 0 (waveP.scal true 8) 8 .store leaf1 ∧ PlainSector packet (leaf1.pa (waveP.scal true 8))) ∧
      leaf1.pa (packet.saddr 4 0x10010) + 16 ≤ leaf1.pa (waveP.scal true 8) ∧ rdNum packet.mem (leaf1.pa (packet.saddr 4 0x10010) + 8) 8 = 0) ∧
    (1 ≤ waveP.scal false 12 % 256 ∧ waveP.scal false 13 % 256 ≤ 16 ∧ waveP.scal false 13 < 65536 ∧
      Chases packet 0 (waveP.scal false 12 / 256 * 8) (packet.saddr 4 0x10000) [0] ∧ [0].length = waveP.scal false 12 % 256 ∧
      [0].length < waveP.scal false 13 % 256 ∧ [0].getLast? = some 0 ∧
      ∀ x, packet.saddr 4 0x10000 < 2 ^ 57 → packet.walk 0 (packet.saddr 4 0x10000) = .leaf x → isExt (x.pa (packet.saddr 4 0x10000)) = false) ∧
    waveP.unres[waveP.scal false 12]? = none ∧ ∃ u, waveP.unres[waveP.scal false 14]? = some u ∧ u.fate ≠ 0 := by
  have h4 : packet.saddr 4 0x10000 = 0x10000 := by decide +kernel
  refine ⟨onWave_runs _ _ (by decide), by decide +kernel, ⟨rfl, rfl, rfl, fresh_of rfl rfl⟩, answered_of _ _ _ rfl,
    ⟨by decide +kernel, reach1 packet _ _ _ (by decide +kernel)⟩,
    ⟨by decide +kernel, reach1 packet _ _ _ (by decide +kernel), reach1 packet _ _ _ (by decide +kernel), by decide +kernel, by decide +kernel⟩,
    ⟨by decide +kernel, by decide +kernel, by decide +kernel, ?_, by decide +kernel, by decide +kernel, rfl, fun x _ hx => ?_⟩,
    by decide +kernel, ⟨_, rfl, by decide⟩⟩
  · rw [h4]
    exact ⟨by decide, ⟨leaf1, (reach1 packet _ _ _ (by decide +kernel)).1, (reach1 packet 0x10000 8 .load (by decide +kernel)).2, by decide +kernel⟩, trivial⟩
  · have hw : packet.walk 0 (packet.saddr 4 0x10000) = .leaf leaf1 := by decide +kernel
    have e : x = leaf1 := WalkRes.leaf.inj (hx.symm.trans hw)
    rw [e]
    decide +kernel

/-- A queue whose last node lies at 0x10040; a pointer at 0x10000 to an address without translation. -/
def queued : State := { packet with mem := wrNum tables 0x10018 8 0x10040 }
def broken : State := { packet with mem := wrNum tables 0x10000 8 0x60000 }

theorem witness_PacketsAndQueries_tail :
    (Runs queued 0 0 waveP ∧ queued.active c0.guard ≠ 0 ∧ Direct queued 0 waveP (queued.active c0.guard) ∧ queued.saddr 4 0x10010 % 16 = 0 ∧
      Reaches queued 0 (queued.saddr 4 0x10010) 16 .atomic leaf1 ∧ PlainSector queued (leaf1.pa (queued.saddr 4 0x10010)) ∧
      rdNum queued.mem (leaf1.pa (queued.saddr 4 0x10010) + 8) 8 = 0x10040 ∧
      (Reaches queued 0 (waveP.scal true 8) 8 .store leaf1 ∧ PlainSector queued (leaf1.pa (waveP.scal true 8))) ∧
      Reaches queued 0 0x10040 8 .store leaf1 ∧ PlainSector queued (leaf1.pa 0x10040)) ∧
    Runs broken 0 0 waveP ∧ broken.active c0.guard ≠ 0 ∧ Direct broken 0 waveP (broken.active c0.guard) ∧
      Chases broken 0 (waveP.scal false 13 / 256 * 8) (broken.saddr 4 0x10000) [0x60000] ∧ [0x60000].length < waveP.scal false 13 % 256 ∧
      Breaks broken 0 ((0x60000 + waveP.scal false 13 / 256 * 8) % 2 ^ 64) := by
  refine ⟨⟨⟨rfl, rfl, rfl, rfl, rfl, rfl, rfl, rfl, rfl, rfl, by decide, by decide⟩, by decide +kernel, ⟨rfl, rfl, rfl, fresh_of rfl rfl⟩, by decide +kernel,
      (reach1 queued _ _ _ (by decide +kernel)).1, (reach1 queued _ 16 .atomic (by decide +kernel)).2, by decide +kernel,
      reach1 queued _ _ _ (by decide +kernel), reach1 queued _ _ _ (by decide +kernel)⟩,
    ⟨rfl, rfl, rfl, rfl, rfl, rfl, rfl, rfl, rfl, rfl, by decide, by decide⟩, by decide +kernel, ⟨rfl, rfl, rfl, fresh_of rfl rfl⟩, ?_, by decide +kernel,
    .inr (.inr (.inl ⟨1, by decide +kernel⟩))⟩
  rw [show broken.saddr 4 0x10000 = 0x10000 from by decide +kernel]
  exact ⟨by decide, ⟨leaf1, (reach1 broken _ _ _ (by decide +kernel)).1, (reach1 broken 0x10000 8 .load (by decide +kernel)).2, by decide +kernel⟩, trivial⟩

/-! ## Witnesses: control -/

/-- The guard of p0 holds on no lane. -/
theorem witness_HintsAndGuards :
    Runs all32 0 0 wave1 ∧ Unsplit wave1 ∧ (Instr.add ⟨⟨0, false⟩, false⟩ false v79).wf .core = true ∧
    ctlOf (.add ⟨⟨0, false⟩, false⟩ false v79) = some ⟨⟨0, false⟩, false⟩ ∧ all32.active ⟨0, false⟩ = 0 ∧
    XRuns xpOn 0 0 xp1 :=
  ⟨all32_runs, (fun _ h => nomatch h), by decide, rfl, by decide +kernel, xpOn_runs⟩

/-- A branch backward by 8, a taken and an untaken comparison, a branch register that holds 0x10004. -/
def waveB : Wave := { wave1 with s := [(8, 0x10004)], v := (List.range 32).map fun l => (32 * 8 + l, 0x10004) }
theorem witness_BranchTargets :
    Runs (onWave waveB fullMask) 0 0 waveB ∧ Unsplit waveB ∧ Target (relative (onWave waveB fullMask) 0xFFFFFFF8) ∧
    compares .eq (BitVec.ofNat (wbits false) (waveB.src false (.reg 8) 0)) (BitVec.ofNat (wbits false) (waveB.bsrc false (.scal 8) 0)) = true ∧
    compares .eq (BitVec.ofNat (wbits true) (waveB.scal true 8)) (BitVec.ofNat (wbits true) (waveB.scal true 10)) = false ∧
    waveB.src false (.reg 8) 31 ≠ 1 ∧ waveB.scal true 8 ≠ 1 ∧
    (∀ l ∈ lanesOf ((onWave waveB fullMask).active c0.guard), Target (waveB.src true (.reg 8) l)) ∧ Target (waveB.scal true 8) := by
  unfold Target
  exact ⟨onWave_runs _ _ (by decide), (fun _ h => nomatch h), by decide +kernel, by decide +kernel, by decide +kernel, by decide +kernel,
    by decide +kernel, by decide +kernel, by decide +kernel⟩

/-- d8:d9 holds the last offset of the store. -/
def xpB : XP := { xp1 with d := [(8, 0x3FFC)] }
theorem witness_TransferProcessorBranches :
    XRuns (onXp xpB) 0 0 xpB ∧ c0.guard = always ∧ XTarget xpB (relative (onXp xpB) 0xFFFFFFF8) ∧ XTarget xpB (dval xpB true 8) ∧
    compares .eq (BitVec.ofNat (wbits false) (dval xpB false 8)) (BitVec.ofNat (wbits false) (dval xpB false 8)) = true ∧
    dval xpB true 8 ≠ 1 ∧ XTarget xpB (xpB.dpair 8).toNat := by
  unfold XTarget
  exact ⟨onXp_runs _ rfl rfl (by decide), rfl, by decide +kernel, by decide +kernel, by decide +kernel, by decide +kernel, by decide +kernel⟩

/-- Index 1 of a table of two entries (the second reads 0x10004), and index 2, which is none. -/
def waveT (i : Word) : Wave := { wave1 with s := [(8, 0x10010), (12, i)] }
def tableState (i : Word) : State := { onWave (waveT i) 1 with mem := wrNum tables 0x10018 8 0x10004 }
/-- The same on a transfer processor: the table at d8:d9, the index in d12; the second entry names a place of its store. -/
def xpTab (i : Word) : XP := { xp1 with d := [(8, 0x10010), (12, i)] }
def xpTable (i : Word) : State := { onXp (xpTab i) with mem := wrNum tables 0x10018 8 0x3FF8 }
theorem witness_TableBranches_xp :
    (XRuns (xpTable 1) 0 0 (xpTab 1) ∧ c0.guard = always ∧ XDirect (xpTable 1) 0 (xpTab 1) 0 ∧ dval (xpTab 1) false 12 < 2 ∧
      dval (xpTab 1) true 8 % 8 = 0 ∧
      (Reaches (xpTable 1) 0 ((dval (xpTab 1) true 8 + 8 * dval (xpTab 1) false 12) % 2 ^ 64) 8 .load leaf1 ∧
        PlainSector (xpTable 1) (leaf1.pa ((dval (xpTab 1) true 8 + 8 * dval (xpTab 1) false 12) % 2 ^ 64))) ∧
      XTarget (xpTab 1) (rdNum (xpTable 1).mem (leaf1.pa ((dval (xpTab 1) true 8 + 8 * dval (xpTab 1) false 12) % 2 ^ 64)) 8)) ∧
    XRuns (xpTable 2) 0 0 (xpTab 2) ∧ 2 ≤ dval (xpTab 2) false 12 := by
  unfold XTarget
  exact ⟨⟨⟨rfl, by decide, rfl, rfl, rfl, rfl, rfl, rfl, rfl, rfl, rfl, by decide⟩, rfl, ⟨rfl, rfl, rfl, fresh_of rfl rfl⟩, by decide +kernel, by decide +kernel,
    reach1 _ _ _ _ (by decide +kernel), by decide +kernel⟩, ⟨rfl, by decide, rfl, rfl, rfl, rfl, rfl, rfl, rfl, rfl, rfl, by decide⟩, by decide +kernel⟩

theorem witness_TableBranches :
    (Runs (tableState 1) 0 0 (waveT 1) ∧ Unsplit (waveT 1) ∧ Direct (tableState 1) 0 (waveT 1) ((tableState 1).active c0.guard) ∧
      (waveT 1).scal false 12 < 2 ∧ (waveT 1).scal true 8 % 8 = 0 ∧
      (Reaches (tableState 1) 0 (((waveT 1).scal true 8 + 8 * (waveT 1).scal false 12) % 2 ^ 64) 8 .load leaf1 ∧
        PlainSector (tableState 1) (leaf1.pa (((waveT 1).scal true 8 + 8 * (waveT 1).scal false 12) % 2 ^ 64))) ∧
      Target (rdNum (tableState 1).mem (leaf1.pa (((waveT 1).scal true 8 + 8 * (waveT 1).scal false 12) % 2 ^ 64)) 8)) ∧
    ¬(waveT 2).scal false 12 < 2 := by
  unfold Target
  exact ⟨⟨⟨rfl, rfl, rfl, rfl, rfl, rfl, rfl, rfl, rfl, rfl, by decide, by decide⟩, (fun _ h => nomatch h), ⟨rfl, rfl, rfl, fresh_of rfl rfl⟩, by decide +kernel,
    by decide +kernel, reach1 _ _ _ _ (by decide +kernel), by decide +kernel⟩, by decide +kernel⟩

/-- Barrier 0 has lanes 0 and 1 as members; lane 1 waits, or not; barrier 1 has lane 1; barrier 2 is disarmed. -/
def waveJ (waiting : Mask) : Wave := { wave1 with rb := [⟨some 3, waiting⟩, ⟨some 2, 0⟩, ⟨none, 0⟩] }
theorem witness_Reconvergence :
    (∀ m ∈ [0, 2], Runs (onWave (waveJ m) 1) 0 0 (waveJ m) ∧ Unsplit (waveJ m) ∧
      (onWave (waveJ m) 1).openRemote (waveJ m).uid ((onWave (waveJ m) 1).active c0.guard &&& 3) = false ∧
      ((onWave (waveJ m) 1).core 0).lanesLog (waveJ m).uid ((onWave (waveJ m) 1).active c0.guard &&& 3) = []) ∧
    (listGet ⟨none, 0⟩ (waveJ 0).rb 0).members = some 3 ∧ (onWave (waveJ 0) 1).active c0.guard &&& 3 ≠ 0 ∧
    (3 : Mask) &&& ~~~ (0 ||| (onWave (waveJ 0) 1).active c0.guard &&& 3) ≠ 0 ∧
    (3 : Mask) &&& ~~~ (2 ||| (onWave (waveJ 2) 1).active c0.guard &&& 3) = 0 ∧
    (listGet ⟨none, 0⟩ (waveJ 0).rb 1).members = some 2 ∧ (onWave (waveJ 0) 1).active c0.guard &&& 2 = 0 ∧
    (listGet ⟨none, 0⟩ (waveJ 0).rb 2).members = none :=
  ⟨fun m _ => ⟨⟨rfl, rfl, rfl, rfl, rfl, rfl, rfl, rfl, rfl, rfl, by change (1 : Mask) ≠ 0; decide, by change (1 : Mask) &&& wave1.ended = 0; decide⟩,
    (fun _ h => nomatch h), rfl, rfl⟩, rfl, by decide +kernel, by decide +kernel, by decide +kernel, rfl, by decide +kernel, rfl⟩

/-! ## Witnesses: exceptions -/

/-- s8 names page 1, s10:s11 the lowest address that is not canonical, s12 an address without translation. -/
def waveX : Wave := { wave1 with s := [(8, 0x10000), (11, 2 ^ 25), (12, 0x60000)] }
def foreign : State := { onWave waveX 1 with frames := [] }

theorem named_of {s : State} (h : s.recs = []) : NamedRecs s := by simp [NamedRecs, h]

theorem witness_TakingExceptions :
    NamedRecs (onWave waveX 1) ∧ Runs (onWave waveX 1) 0 0 waveX ∧ Unsplit waveX ∧ (onWave waveX 1).active c0.guard ≠ 0 ∧ waveX.commit = false ∧
    ((onWave waveX 1).core 0).lanesLog waveX.uid ((onWave waveX 1).active c0.guard) = [] ∧ 2 ^ 57 ≤ (onWave waveX 1).saddr 10 0 ∧
    ((onWave waveX 1).saddr 8 29 < 2 ^ 57 ∧ 32 < (onWave waveX 1).saddr 8 29 % 32 + szBytes .b32 ∧ 32 < (onWave waveX 1).saddr 8 29 % 32 + stBytes .b32) ∧
    (((onWave waveX 1).cluster (coreCluster 0)).tlb = [] ∧ (onWave waveX 1).l1Hit 0 0 ((onWave waveX 1).saddr 12 28) .load = none ∧
      (∀ e ∈ (onWave waveX 1).tablePath 0 ((onWave waveX 1).saddr 12 28), (onWave waveX 1).linePartials (e / 128) = []) ∧ (onWave waveX 1).saddr 12 28 % 32 + szBytes .b32 ≤ 32 ∧
      (onWave waveX 1).walk 0 ((onWave waveX 1).saddr 12 28) = .fault 1) ∧
    (Runs foreign 0 0 waveX ∧ foreign.walk 0 (foreign.saddr 8 0) = .leaf leaf1 ∧ leafFault foreign 0 (foreign.saddr 8 0) .load leaf1 = some 3) ∧
    NamedRecs xpOn ∧ XRuns xpOn 0 0 xp1 ∧ xp1.bind.aslot = some 0 :=
  ⟨named_of rfl, onWave_runs _ _ (by decide), (fun _ h => nomatch h), by decide +kernel, rfl, rfl, by decide +kernel,
    ⟨by decide +kernel, by decide +kernel, by decide +kernel⟩, ⟨rfl, by decide +kernel, by decide +kernel, by decide +kernel, by decide +kernel⟩,
    ⟨⟨rfl, rfl, rfl, rfl, rfl, rfl, rfl, rfl, rfl, rfl, by decide, by decide⟩, by decide +kernel, by decide +kernel⟩, named_of rfl, xpOn_runs, rfl⟩

/-- A handler wave in slot 0; its lane 0 stands for lane 3 of the wave in slot 1, whose record lies at 0x10000. -/
def origin1 : Origin := ⟨7, 0x10000, 0, 1, 1, 3, 2, [], 1⟩
def waveO : Wave := { wave1 with d := 8, image := 0x10100 }
def waveH : Wave := { Wave.empty with uid := 2, handler := some [origin1] }
def rec7 : FRec := ⟨7, 0, List.replicate 7 1, some 0x10000, [], false, none, false, 0, 1, 8, true, none, [], 0, 2⟩
def handling : State :=
  { onWave waveH 1 with
    cores := [(0, { Core.init with slots := [(0, waveH), (1, waveO)] })]
    recs := [rec7] }

/-- The same with its origin pre-empted. -/
def handlingOut : State := { handling with cores := [(0, { Core.init with slots := [(0, waveH)], pre := [waveO] })] }

theorem witness_HandlerReturns :
    Runs handling 0 0 waveH ∧ FreshTlb handling 0 0 ∧ handling.active c0.guard = laneMask 0 ∧ waveH.ended ||| laneMask 0 ≠ fullMask ∧
    waveH.handler = some [origin1] ∧ [origin1][0]? = some origin1 ∧ handling.findWave 1 = some (0, waveO) ∧ origin1.uid ≠ waveH.uid ∧
    (handling.waves.map (·.2.uid)).Nodup ∧ hasLane waveO.ended 3 = false ∧ origin1.lane < 32 ∧ (7 : BitVec 8).toNat < waveO.d ∧
    (Reaches handling 0 (origin1.va + 0x38) 8 .store leaf1 ∧ PlainSector handling (leaf1.pa (origin1.va + 0x38))) ∧
    rec7.pa.map (· + 0x38) = some (leaf1.pa (origin1.va + 0x38)) ∧ hasLane rec7.lanes 3 = true ∧ rec7.codes = [] ∧
    (Runs handlingOut 0 0 waveH ∧ handlingOut.findSlot origin1.uid = none ∧ handlingOut.findWave 1 = some (0, waveO) ∧
      (handlingOut.waves.map (·.2.uid)).Nodup ∧ waveO.handler = none ∧
      (Reaches handlingOut 0 (waveO.image + 128 * 7 + 4 * 3) 4 .store leaf1 ∧ PlainSector handlingOut (leaf1.pa (waveO.image + 128 * 7 + 4 * 3))) ∧
      FreshTlb handlingOut 0 0 ∧ leaf1.pa (waveO.image + 128 * 7 + 4 * 3) / 32 ≠ leaf1.pa (origin1.va + 0x38) / 32 ∧
      SparesTables handlingOut 0 32 (leaf1.pa (origin1.va + 0x38)) (waveO.image + 128 * 7 + 4 * 3)) :=
  ⟨⟨rfl, rfl, rfl, rfl, rfl, rfl, rfl, rfl, rfl, rfl, by decide, by decide⟩, fresh_of rfl rfl, by decide +kernel, by decide, rfl, rfl, rfl, by decide,
    by decide +kernel, by decide, by decide, by decide, reach1 _ _ _ _ (by decide +kernel), by decide +kernel, by decide, rfl,
    ⟨rfl, rfl, rfl, rfl, rfl, rfl, rfl, rfl, rfl, rfl, by decide, by decide⟩, by decide +kernel, rfl, by decide +kernel, rfl, reach1 _ _ _ _ (by decide +kernel),
    fresh_of rfl rfl, by decide +kernel, spares_of (by decide +kernel)⟩

/-- The last two lanes of a handler wave stand for two lanes of one record. -/
def origin2 : Origin := { origin1 with lane := 5 }
def waveH2 : Wave := { waveH with handler := some [origin1, origin2], ended := ~~~ 3 }
def handling2 : State :=
  { onWave waveH2 3 with
    cores := [(0, { Core.init with slots := [(0, waveH2), (1, waveO)] })]
    recs := [{ rec7 with lanes := 40 }] }

theorem witness_HandlerReturns_lanes :
    Runs handling2 0 0 waveH2 ∧ FreshTlb handling2 0 0 ∧ (handling2.waves.map (·.2.uid)).Nodup ∧ lanesOf (handling2.active c0.guard) = [0, 1] ∧
    (∀ h ∈ [0, 1], let o : Origin := if h = 0 then origin1 else origin2
      [origin1, origin2][h]? = some o ∧ handling2.findWave o.uid = some (0, waveO) ∧ o.uid ≠ waveH2.uid ∧ hasLane waveO.ended o.lane = false ∧
      o.lane < 32 ∧ (7 : BitVec 8).toNat < waveO.d ∧ handling2.findSlot o.uid ≠ none) ∧
    (Reaches handling2 0 (origin1.va + 0x38) 8 .store leaf1 ∧ PlainSector handling2 (leaf1.pa (origin1.va + 0x38))) ∧
    SparesTables handling2 0 32 (leaf1.pa (origin1.va + 0x38)) (origin2.va + 0x38) ∧ origin1.lane ≠ origin2.lane ∧
    waveH2.ended ||| handling2.active c0.guard = fullMask ∧ waveH2.commit = false ∧ handling2.openRemote waveH2.uid fullMask = false :=
  ⟨⟨rfl, rfl, rfl, rfl, rfl, rfl, rfl, rfl, rfl, rfl, by decide, by decide⟩, fresh_of rfl rfl, by decide +kernel, by decide +kernel, by decide +kernel,
    reach1 _ _ _ _ (by decide +kernel), spares_of (by decide +kernel), by decide, by decide +kernel, rfl, rfl⟩

/-- The ring of the smallest size at 0x10000, with one free place, the last. -/
def ringSlot : ASlot := { ASlot.fresh 0x1000 true 0 with fltBase := 0x10000, fltHead := 63 }
def recWaiting : FRec := { rec7 with pa := none, codes := [(0, 3), (31, 1)] }
def recording : State := { mapped with slots := [(0, ringSlot)], recs := [recWaiting] }

theorem witness_RecordsWritten :
    recording.slot? 0 = some ringSlot ∧ recording.recs.find? (fun r => r.aslot == 0 && r.pending) = some recWaiting ∧ NamedRecs recording ∧
    recWaiting.words.length = 7 ∧ recWaiting.acc = [] ∧ (∀ x ∈ recording.recs, x.owe = false) ∧ (recWaiting.codes.map (·.1)).Nodup ∧ (∀ x ∈ recWaiting.codes, x.1 < 32 ∧ x.2 < 4) ∧ (ringSlot.fltHead + 2 ^ 32 - ringSlot.fltTail) % 2 ^ 32 ≠ 2 ^ (bitsN ringSlot.fltBase.toNat 3 0 + 6) ∧
    ringSlot.trapVec.getLsbD 0 = false ∧
    (bitsN ringSlot.fltBase.toNat 56 12 * 4096 + 64 * (ringSlot.fltHead % 2 ^ (bitsN ringSlot.fltBase.toNat 3 0 + 6))) % 2 ^ 57 = 0x10FC0 ∧
    (Reaches recording 0 0x10FC0 32 .store leaf1 ∧ PlainSector recording (leaf1.pa 0x10FC0)) ∧ FreshTlb recording 0 0 :=
  ⟨rfl, rfl, by unfold NamedRecs; decide, rfl, rfl, by decide, by decide, by decide, by decide, by decide, by decide, reach1 _ _ _ _ (by decide +kernel), fresh_of rfl rfl⟩

/-- Lanes 0 to 2 are held under record 7 with the codes 1, 2 and 3. -/
def heldRun : Stream := ⟨7, 5, 0, false, .held 7 8 false, 0, false, 0, [], none⟩
def waveHeld : Wave := { wave1 with streams := [heldRun] }
def recCoded : FRec := { rec7 with lanes := 7, codes := [(0, 1), (1, 2), (2, 3)] }
def resolving : State := { onWave waveHeld 1 with recs := [recCoded] }

/-- A group of 32 lanes that has waited for 512 cycles, whose slot gives its handler waves 32 times 8 registers. -/
def group1 : HGroup := ⟨0, 0x10000, List.replicate 32 (origin1, 0)⟩
def forming : State :=
  { mapped with
    slots := [(0, { ASlot.fresh 0x1000 true 0 with trapCfg := 32 })]
    cores := [(0, { Core.init with handlers := [group1] })]
    cyc := 512 }

/-- A store of a doubleword waits in the side log; a release that has faulted and has code 1, 2 or 3; an atomic of which a lane waits for the
result. -/
def logged1 : LogEnt := ⟨9, 1, 0, 1, 1, 0, 0x10018, .store 8 5, false, .wv, none, 0, 0, 0, false, false, 1, 0, none⟩
def replaying : State := { mapped with cores := [(0, { core0 wave1 with log := [logged1] })] }
def faulted1 : LogEnt := { logged1 with rel := true, fr := some 7, why := 5 }
def coded (code va : Nat) : State :=
  { mapped with
    cores := [(0, { core0 wave1 with log := [{ faulted1 with va := va }] })]
    recs := [{ rec7 with held := false, lanes := 1, entry := some 9, codes := [(0, code)] }] }
def atomic1 : LogEnt := { faulted1 with act := .atomic .add false 1 0 ⟨some 5, some 1⟩, writes := true, rel := false, va := 0x10018 }
def waveAt : Wave := { wave1 with d := 8, streams := [⟨1, 4, 0, false, .park (.entry [9]) 12 true 0, 0, false, 2, [], none⟩] }
def awaiting (code : Nat) : State := { coded code 0 with cores := [(0, { core0 waveAt with log := [atomic1] })] }

theorem witness_ResolutionsAndReplay :
    (resolving.recs.find? (fun x => x.id == 7) = some recCoded ∧ recCoded.held = true ∧ recCoded.kind ≠ 0x28 ∧ (resolving.core 0).disabled = false ∧
      resolving.findSlot 1 = some (0, 0) ∧ resolving.wave? 0 0 = some waveHeld ∧ heldRun ∈ waveHeld.streams ∧
      (∀ x ∈ waveHeld.streams, ∀ n b, x.st = .held 7 n b → x = heldRun) ∧
      (recCoded.coded 1, recCoded.coded 2, recCoded.coded 3) = (1, 2, 4) ∧ waveHeld.ended ||| recCoded.coded 3 ≠ fullMask) ∧
    ((forming.core 0).handlers = group1 :: [] ∧ 32 ≤ group1.lanes.length ∧ 0 + 512 ≤ forming.cyc ∧ (forming.core 0).gated = false ∧
      (forming.core 0).disabled = false ∧ ∃ a, forming.slot? 0 = some a ∧ 1 ≤ a.trapCfg.toNat % 64 ∧ a.trapCfg.toNat % 64 ≤ 32) ∧
    (replaying.core 0).log[0]? = some logged1 ∧ logged1.act = .store 8 5 ∧ logged1.race = false ∧
      (Reaches replaying 0 0x10018 8 .store leaf1 ∧ PlainSector replaying (leaf1.pa 0x10018)) ∧ FreshTlb replaying 0 0 :=
  ⟨⟨rfl, rfl, by decide, rfl, rfl, rfl, List.mem_singleton.mpr rfl, (fun x h _ _ _ => List.mem_singleton.mp h), by decide, by decide⟩,
    ⟨rfl, by decide, by decide, rfl, rfl, ⟨_, rfl, by decide, by decide⟩⟩, rfl, rfl, rfl,
    reach1 _ _ _ _ (by decide +kernel), fresh_of rfl rfl⟩

theorem witness_ResolutionsAndReplay_codes :
    (∀ code va, ((coded code va).core 0).log[0]? = some { faulted1 with va := va } ∧ (coded code va).recs.find? (fun r => r.id == 7) =
        some { rec7 with held := false, lanes := 1, entry := some 9, codes := [(0, code)] } ∧
      [(0, code)].find? (fun x => x.1 == 0) = some (0, code) ∧ ((coded code va).core 0).disabled = false ∧ FreshTlb (coded code va) 0 0 ∧
      (coded code va).openRemote 1 1 = false) ∧
    faulted1.race = false ∧ faulted1.acc = none ∧ faulted1.rel = true ∧ faulted1.writes = false ∧
    (Reaches (coded 1 0x10018) 0 0x10018 8 .store leaf1 ∧ PlainSector (coded 1 0x10018) (leaf1.pa 0x10018)) ∧
    ((coded 1 0x60000).walk 0 0x60000 = .fault 1 ∧ NamedRecs (coded 1 0x60000)) ∧
    (∀ code, ((awaiting code).core 0).log[0]? = some atomic1 ∧ (awaiting code).wave? 0 0 = some waveAt ∧ ((awaiting code).waves.map (·.2.uid)).Nodup ∧
      FreshTlb (awaiting code) 0 0 ∧ ((awaiting code).core 0).pre = []) ∧
    waveAt.uid = atomic1.uid ∧ (∃ x ∈ waveAt.streams, x.lanes = atomic1.lanes ∧ x.st = .park (.entry [9]) 12 true 0 ∧ ∀ z ∈ waveAt.streams, z ≠ x → False) ∧
    waveAt.ended ||| atomic1.lanes ≠ fullMask ∧ (5 : BitVec 8).toNat + 0 < waveAt.d ∧ (1 : DWord).toNat < 2 ^ 32 ∧
    Reaches (awaiting 1) 0 0x10018 4 .atomic leaf1 ∧ PlainSector (awaiting 1) (leaf1.pa 0x10018) :=
  ⟨fun _ _ => ⟨rfl, rfl, rfl, rfl, fresh_of rfl rfl, rfl⟩, rfl, rfl, rfl, rfl, reach1 _ _ _ _ (by decide +kernel),
    ⟨by decide +kernel, by unfold NamedRecs; decide⟩, fun _ => ⟨rfl, rfl, List.nodup_singleton _, fresh_of rfl rfl, rfl⟩, rfl,
    ⟨_, List.mem_singleton.mpr rfl, rfl, rfl, fun z h hn => hn (List.mem_singleton.mp h)⟩, by decide, by decide, by decide,
    reach1 _ _ _ _ (by decide +kernel)⟩

/-! ## Witnesses: matrix instructions -/

/-- s6 an offset from which the rows reach the end of the allocation with a step of 0, the FIFO of quarter 0 with two entries, or none. -/
def waveM (off : Nat) (fifo : List (List Word)) : Wave := { wave1 with s := [(6, BitVec.ofNat 32 off)], sfifo := [fifo, [], [], []] }
def twoEntries : List (List Word) := List.replicate 2 (List.replicate 8 0x7F7F7F7F)

theorem witness_MatrixProducts :
    (∀ x ∈ [(MmaFmt.f64, false, ([] : List (List Word))), (.b8e4m3, false, []), (.b8e4m3, true, twoEntries), (.p2, false, [])],
      let w := waveM (1024 - mmaCb x.1) x.2.2
      let s := onWave w 1
      Runs s 0 0 w ∧ w.handler = none ∧ (s.core 0).alloc w.lid = some ⟨1, 0, 8, [], 1, 0⟩ ∧ (s.core 0).absent = [] ∧
      s.actSets c0.guard = [s.active c0.guard] ∧ ∀ l ∈ lanesOf (s.active c0.guard), ((matFmt x.1).recs = 0 → w.scal false 6 % 4 = 0) ∧
        w.scal false 6 + 7 * 0 + (matFmt x.1).cb ≤ 128 * 8 ∧ (if x.2.1 then 2 ≤ (w.fifo (l / 8)).length else (matFmt x.1).recs ≠ 0 → w.fifo (l / 8) = [])) ∧
    IsNum fF32 0x3F800000 ∧ IsNum fBF16 0x3F80 ∧
    |value fF32 0x3F800000 + (List.zipWith (fun y z => value fBF16 y * value fBF16 z) [0x3F80] [0x3F80]).sum| ≤ value fF32 fF32.maxEnc := by
  refine ⟨fun x hx => ⟨onWave_runs _ _ (by change ((1 : Mask) != 0 && (1 : Mask) &&& wave1.ended == 0) = true; decide), rfl, rfl, rfl, ?_⟩,
    by unfold IsNum IsNaN IsInf; decide, by unfold IsNum IsNaN IsInf; decide, by decide +kernel⟩
  simp only [List.mem_cons, List.not_mem_nil, or_false] at hx
  obtain rfl | rfl | rfl | rfl := hx <;> decide +kernel

/-- Full staging rows of words, of packed records; a table of 31 rows of 32 columns at 0; seven entries in a FIFO. -/
def waveN : Wave :=
  { wave1 with s := [(4, 896), (5, 892), (21, 33), (22, 31), (24, 32)], sfifo := [List.replicate 7 [], [], [], []] }
def matrixOperands : State := onWave waveN 1

theorem witness_MatrixOperands :
    Runs matrixOperands 0 0 waveN ∧ matrixOperands.actSets c0.guard = [matrixOperands.active c0.guard] ∧ waveN.handler = none ∧
    (matrixOperands.core 0).alloc 1 = some ⟨1, 0, 8, [], 1, 0⟩ ∧ (matrixOperands.core 0).absent = [] ∧
    (∀ l ∈ lanesOf (matrixOperands.active c0.guard), (waveN.fifo (l / 8)).length < 8 ∧
      (waveN.scal false 4 + waveN.src false (.reg 7) l * waveN.scal false 9) % 2 ^ 32 % 4 = 0 ∧
      (waveN.scal false 4 + waveN.src false (.reg 7) l * waveN.scal false 9) % 2 ^ 32 + 4 * (32 : BitVec 6).toNat ≤ 128 * 8 ∧
      (waveN.scal false 5 + waveN.src false (.reg 7) l * waveN.scal false 9) % 2 ^ 32 + (4 : BitVec 6).toNat * GKind.b8.rs ≤ 128 * 8) ∧
    16 * (0 : BitVec 3).toNat + 4 * (32 : BitVec 6).toNat ≤ 128 ∧ 16 * (0 : BitVec 3).toNat + (4 : BitVec 6).toNat * GKind.b8.pl ≤ 128 ∧
    waveN.sreg 23 % 32 = 0 ∧ (∀ l ∈ lanesOf (matrixOperands.active c0.guard), ∀ r, r < 32 * (1 : BitVec 6).toNat →
      r < (waveN.sreg 22).toNat ∧ waveN.src false (.reg 7) l < (waveN.sreg 24).toNat →
      (waveN.sreg 20).toNat + r * (waveN.sreg 21).toNat + waveN.src false (.reg 7) l / 32 * GKind.b8.rs + GKind.b8.rs ≤ 128 * 8) :=
  ⟨onWave_runs _ _ (by decide), by decide +kernel, rfl, rfl, rfl, by decide +kernel, by decide, by decide, by decide +kernel, by decide +kernel⟩

/-- Thirty-two lanes store eight FP32 elements, or a packed record, at the end of the allocation. -/
def waveS : Wave := { wave1 with s := [(4, 992), (5, 1024 - 33)] }
theorem witness_MatrixStores :
    Runs (onWave waveS fullMask) 0 0 waveS ∧ waveS.handler = none ∧ ((onWave waveS fullMask).core 0).alloc 1 = some ⟨1, 0, 8, [], 1, 0⟩ ∧
    (onWave waveS fullMask).actSets c0.guard = [(onWave waveS fullMask).active c0.guard] ∧ (onWave waveS fullMask).active c0.guard = fullMask ∧
    (∀ l ∈ lanesOf ((onWave waveS fullMask).active c0.guard),
      (waveS.scal false 4 + waveS.src false (.reg 7) l * waveS.scal false 9) % 2 ^ 32 % ((storedFmt .f32).width / 8) = 0 ∧
      (waveS.scal false 4 + waveS.src false (.reg 7) l * waveS.scal false 9) % 2 ^ 32 + rowBytes .f32 8 ≤ 128 * 8 ∧
      storedEmax .b8e4m3 = some 8 ∧ storedEmax .f32 = none ∧ (waveS.scal false 5 + waveS.src false (.reg 7) l * waveS.scal false 9) % 2 ^ 32 + rowBytes .b8e4m3 32 ≤ 128 * 8) ∧
    (∀ x ∈ [0x3F800000], IsNum fF32 x) ∧ |value fF32 (listGet 0 [0x3F800000] 0)| ≤ value (mstNum .bf16) (mstNum .bf16).maxEnc :=
  ⟨onWave_runs _ _ (by decide), rfl, rfl, by decide +kernel, by decide +kernel, by decide +kernel, by unfold IsNum IsNaN IsInf; decide, by decide +kernel⟩

/-- Operands at the end of the allocation, descriptor 0 of a rectangle of one core. -/
def waveTr : Wave := { wave1 with s := [(10, 1016), (12, 8), (14, 1016)] }
def parkedTred : Wave := { wave1 with streams := [⟨1, 0, 0, false, .park (.tred 0 0) 8 false 0, 0, false, 0, [], none⟩] }
def arrived1 : Launch := { launch1 with treds := [(0, 0, [0, 0, 4, 0, 1020, 0])] }
def resuming : State := { lane0 with focus := { lane0.focus with resume := some (.tred 0 0) } }
def unresumed : State := { resuming with focus := { resuming.focus with resume := none } }
def reducing : State := { onWave parkedTred 1 with launches := [(1, arrived1)] }

theorem witness_TileReductions :
    (Runs (onWave waveTr 1) 0 0 waveTr ∧ (onWave waveTr 1).active c0.guard ≠ 0 ∧ waveTr.handler = none ∧
      aget (onWave waveTr 1).launches 1 = some launch1 ∧ ((onWave waveTr 1).core 0).alloc 1 = some ⟨1, 0, 8, [], 1, 0⟩ ∧
      descOk launch1.blk (waveTr.scal false 8) 0 = true ∧ (onWave waveTr 1).openRemote waveTr.uid fullMask = false ∧
      ((onWave waveTr 1).core 0).lanesLog waveTr.uid fullMask = [] ∧ waveTr.scal false 12 ≠ 0 ∧ waveTr.scal false 12 % 8 = 0 ∧ waveTr.scal false 10 % 8 = 0 ∧
      waveTr.scal false 14 % 8 = 0 ∧ waveTr.scal false 10 + waveTr.scal false 12 ≤ 128 * 8 ∧ waveTr.scal false 14 + waveTr.scal false 12 ≤ 128 * 8) ∧
    (Runs unresumed 0 0 wave1 ∧ unresumed = { resuming with focus := { resuming.focus with resume := none } } ∧ resuming.focus.resume = some (.tred 0 0) ∧
      resuming.active c0.guard ≠ 0 ∧ aget resuming.launches 1 = some launch1 ∧ launch1.tredBad = []) ∧
    reducing.wave? 0 0 = some parkedTred ∧ parkedTred.streams = [⟨1, 0, 0, false, .park (.tred 0 0) 8 false 0, 0, false, 0, [], none⟩] ∧
      aget reducing.launches 1 = some arrived1 ∧ descCores arrived1.blk 0 = 0 :: [] ∧
      (arrived1.treds.find? fun t => t.1 == 0 && t.2.1 == 0) = some (0, 0, [0, 0, 4, 0, 1020, 0]) ∧ (reducing.core 0).absent = [] ∧
      (reducing.core 0).alloc 1 = some ⟨1, 0, 8, [], 1, 0⟩ :=
  ⟨⟨onWave_runs _ _ (by decide), by decide +kernel, rfl, rfl, rfl, by decide +kernel, rfl, rfl, by decide +kernel, by decide +kernel, by decide +kernel,
      by decide +kernel, by decide +kernel, by decide +kernel⟩,
    ⟨⟨rfl, rfl, rfl, rfl, rfl, rfl, rfl, rfl, rfl, rfl, by decide, by decide⟩, rfl, rfl, by decide +kernel, rfl, rfl⟩, rfl, rfl, rfl, by decide +kernel, by decide +kernel, rfl, rfl⟩

/-! ## Witnesses: transfer processors, barriers, tasks -/

/-- d4 is 0, d5 is 3; a tensor of two dimensions at d8; the last doubleword of the allocation at d16. -/
def xpI : XP := { xp1 with d := [(5, 3), (10, 1), (11, 1), (12, 4), (13, 0x7FFFFFFF), (14, 8), (16, 1016)] }
def loops3 : XP := { xpI with loops := List.replicate 3 ⟨0x100, 0x110, 2⟩ }

theorem witness_IndexArithmetic :
    (∀ p ∈ [xpI, loops3], XRuns (onXp p) 0 0 p) ∧ (xpI.dreg 4).toNat = 0 ∧ (loopStep 5 xpI.loops 0x110).2 ≤ 16383 ∧ (loops3.dreg 5).toNat ≠ 0 ∧
    loops3.loops.length < 4 ∧ (∀ l ∈ loops3.loops.head?, 0x110 ≤ l.stop) ∧ (loopStep 5 (⟨0x108, 0x110, 3⟩ :: loops3.loops) 0x108).2 ≤ 16383 ∧
    ((xpI.dreg 10).toNat < 32 ∧ (xpI.dreg 10).toNat / 4 % 8 ≤ 3 ∧ bitsN (xpI.dreg 10).toNat 1 0 + 1 = 2 ∧ 8 + 2 + 2 * 2 ≤ 31 ∧ 30 + 2 ≤ 32 ∧
      ∀ i, i < 2 → 1 ≤ (xpI.dreg (8 + 3 + 2 * i)).toNat ∧ (xpI.dreg (8 + 3 + 2 * i)).toNat < 2 ^ 31) ∧
    xpI.bind.lid.bind ((onXp xpI).core 0).alloc = some ⟨1, 0, 8, [], 1, 0⟩ ∧
    (((xpI.dreg 16).toNat + (0 : BitVec 18).toInt) % 2 ^ 32 : Int).toNat % 8 = 0 ∧
    (((xpI.dreg 16).toNat + (0 : BitVec 18).toInt) % 2 ^ 32 : Int).toNat + 8 ≤ 128 * 8 ∧ (128 * 0 + 1016) / 128 ∉ ((onXp xpI).core 0).absent := by
  refine ⟨fun p hp => ?_, by decide, by decide, by decide, by decide, by decide, by decide, by decide +kernel, rfl, by decide, by decide, by decide⟩
  simp only [List.mem_cons, List.not_mem_nil, or_false] at hp
  obtain rfl | rfl := hp <;> exact onXp_runs _ rfl rfl (by decide)

/-- d0:d1 page 1; d2 the last word of the allocation, d4 its length; two indices at 0, one that skips its row; a tensor at d8;
the descriptor of a convolution of one patch at the end of the allocation (d16). -/
def xpT : XP := { xp1 with d := [(0, 0x10000), (2, 1020), (4, 4), (7, 4), (8, 0x10000), (10, 8), (11, 1), (12, 4), (16, 960)] }
def spadT : List Host.Cell :=
  [(964, 0), (968, 0x10001), (972, 0x10001), (976, 0x11110101), (980, 0x20000), (984, 1), (992, 1), (1000, 4)].foldl (fun m x => wrNum m x.1 4 x.2)
    (wrNum (wrNum [] 0 4 2) 4 4 0xFFFFFFFF)
def transferring (copies : List Copy) : State :=
  { onXp xpT with cores := [(0, { Core.init with spad := spadT, allocs := [⟨1, 0, 8, [], 1, 0⟩], copies := copies, xp0 := xpT })] }
def copy1 : Copy := ⟨900, 0, .prog, 0, some 1, .lin (.glob 0x10000), .glob 0x30000, 4, 0, false, false, [], [], [], [], 0, none, [], [], []⟩

theorem witness_TransferInstructions :
    XRuns (transferring []) 0 0 xpT ∧ outstanding (transferring []) 0 0 < 64 ∧ outstanding (transferring []) 0 0 = 0 ∧
    outstanding (transferring [copy1]) 0 0 ≠ 0 ∧ XRuns (transferring [copy1]) 0 0 xpT ∧
    (copyBad .g .l (xpT.dpair 0).toNat (xpT.dpair 2).toNat 4 = none ∧
      (transferring []).placeOf (some 1) 0 .g (xpT.dpair 0).toNat 4 = some (.glob 0x10000) ∧
      (transferring []).placeOf (some 1) 0 .l (xpT.dpair 2).toNat 4 = some (.spad 0 1020)) ∧
    (copyBad .l .g (xpT.dpair 2).toNat (xpT.dpair 0).toNat (4 : BitVec 16).toNat = none ∧ (xpT.dreg 6).toNat % 4 = 0 ∧
      xpT.bind.lid.bind ((transferring []).core 0).alloc = some ⟨1, 0, 8, [], 1, 0⟩ ∧ (xpT.dreg 6).toNat + 4 * 2 ≤ 128 * 8 ∧
      ((transferring []).core 0).absent = [] ∧
      (∀ k, k < 2 → rdSpad ((transferring []).core 0) (128 * 0 + (xpT.dreg 6).toNat + 4 * k) 4 ≠ 0xFFFFFFFF →
        (rdSpad ((transferring []).core 0) (128 * 0 + (xpT.dreg 6).toNat + 4 * k) 4 * (xpT.dreg 7).toInt) % 4 = 0) ∧
      (transferring []).placeOf (some 1) 0 .g (xpT.dpair 0).toNat (2 * 4) = some (.glob 0x10000)) ∧
    (∃ q, xpT.tdesc 8 = some q ∧ copyBad .g .l q.base (xpT.dpair 2).toNat (2 ^ q.esz * q.ext.foldl (· * ·) 1) = none) ∧
    ((xpT.dreg 16).toNat % 64 = 0 ∧ (xpT.dreg 16).toNat + 64 ≤ 128 * 8 ∧
      ∃ shape, convDesc (fun i => rdSpad ((transferring []).core 0) (128 * 0 + (xpT.dreg 16).toNat + 4 * i) 4) = some (shape, 0, 4, 4, 1) ∧
        0 + ((1 - 1) * 4 + 4) ≤ 128 * 8) ∧
    ∀ y : Bool, ((transferring []).xp 0 (if y then 1 else 0)).heads.length < 4 :=
  ⟨⟨rfl, by decide, rfl, rfl, rfl, rfl, rfl, rfl, rfl, rfl, rfl, by decide⟩, by decide, by decide, by decide,
    ⟨rfl, by decide, rfl, rfl, rfl, rfl, rfl, rfl, rfl, rfl, rfl, by decide⟩, ⟨by decide +kernel, by decide +kernel, by decide +kernel⟩,
    ⟨by decide +kernel, by decide +kernel, rfl, by decide +kernel, rfl, by decide +kernel, by decide +kernel⟩, ⟨_, rfl, by decide +kernel⟩,
    ⟨by decide +kernel, by decide +kernel, ⟨.conv 0 1 1 1 1 0 1 1 1 1 1 1 2 0 0 1 0 1 4, by decide +kernel, by decide⟩⟩, by decide⟩

/-- Counter 0 of the core: 2, with the waiters given. -/
def counting (wait : List (Waiter × Nat)) : State :=
  { lane0 with
    cores := [(0, { core0 wave1 with cb := ⟨2, wait⟩ :: List.replicate 15 ⟨0, []⟩, xp1 := { XP.init with st := .parked (.cbw 0 3 false) } })] }
def xpCounting : State := { xpOn with cores := [(0, { (onXp xp1).core 0 with cb := ⟨2, []⟩ :: List.replicate 15 ⟨0, []⟩ })] }

theorem witness_CountedBarriers :
    (∀ wait, Runs (counting wait) 0 0 wave1 ∧ (counting wait).active c0.guard ≠ 0 ∧ (counting wait).openRemote wave1.uid fullMask = false) ∧ ((counting []).core 0).cbar 0 = ⟨2, []⟩ ∧
    2 + (1 : BitVec 18).toNat < 2 ^ 32 ∧ ((counting [(.xp 1, 3)]).core 0).cbar 0 = ⟨2, [(.xp 1, 3)]⟩ ∧ 3 ≤ 2 + (1 : BitVec 18).toNat ∧
    ((counting [(.xp 1, 3)]).xp 0 1).st = .parked (.cbw 0 3 false) ∧ (2 : BitVec 18).toNat ≤ 2 ∧ 2 < (3 : BitVec 18).toNat ∧
    XRuns xpCounting 0 0 xp1 ∧ (xpCounting.core 0).cbar 0 = ⟨2, []⟩ ∧ outstanding xpCounting 0 0 = 0 ∧ c0.guard = always :=
  ⟨fun _ => ⟨⟨rfl, rfl, rfl, rfl, rfl, rfl, rfl, rfl, rfl, rfl, by change (1 : Mask) ≠ 0; decide, by change (1 : Mask) &&& wave1.ended = 0; decide⟩,
      by change (1 : Mask) &&& wave1.pred 15 ≠ 0; decide, rfl⟩, rfl, by decide, rfl, by decide, rfl, by decide, by decide,
    ⟨rfl, by decide, rfl, rfl, rfl, rfl, rfl, rfl, rfl, rfl, rfl, by decide⟩, rfl, by decide, rfl⟩

/-- s8:s9 names the block of a task, s10:s11 that of a launch of priority 7. -/
def waveE : Wave := { wave1 with s := [(8, 0x10000), (10, 0x10040)] }
def exiting : State :=
  { onWave waveE 1 with
    mem := [(0x10000, 0x10000), (0x10008, 2 ^ 62 + 2 ^ 42 + 2 ^ 33), (0x10040, 0x10000), (0x10048, 7 * 2 ^ 58 + 2 ^ 42)].foldl
      (fun m x => wrNum m x.1 8 x.2) tables }
def taskBlock : Block := ⟨0x10000, 2, 0, false, false, false, false, false, 1, 8, 8, 0, 1, 1, 0, 0, 0, List.replicate 8 0⟩
def gridBlock : Block := ⟨0x10000, 0, 7, false, false, false, false, false, 1, 8, 0, 0, 1, 1, 0, 0, 0, List.replicate 8 0⟩
def exitBlock (k : Nat) : Block := if k = 0 then taskBlock else gridBlock

/-- A range is mapped at one leaf. -/
theorem mapped_of {s : State} {core va n : Nat} {k : AKind} {l : Leaf} (ht : (s.cluster (coreCluster core)).tlb = [])
    (hc : (s.cores.all fun c => decide (c.2.l1 = []) && decide (c.2.partials = [])) = true)
    (h : ((pieces va n).all fun x => decide (x.1 < 2 ^ 57) && decide (x.1 % 32 + x.2 ≤ 32) && decide (s.walk 0 x.1 = .leaf l) &&
      decide (leafFault s 0 x.1 k l = none) && decide (pteOff l.pte = 0) &&
      decide (rdNum s.mem l.ent 8 ||| 2 ^ 57 ||| (if k.writes then 2 ^ 56 else 0) = rdNum s.mem l.ent 8) &&
      (!isExt (l.pa x.1) && !s.poisoned (l.pa x.1) && !s.sealedLine (l.pa x.1) && decide (s.linePartials (l.pa x.1 / 128) = []))) = true) :
    Mapped s core 0 va n k fun _ => l := by
  refine ⟨fresh_of ht hc, fun x hx => ?_⟩
  have := List.all_eq_true.mp h x hx
  rw [Bool.and_eq_true] at this
  exact ⟨reaches_of this.1, plain_of this.2⟩

def exitWords (k : Nat) : List DWord :=
  (List.range 8).map fun i => BitVec.ofNat 64 (ofBytes (((rangeBytes exiting (waveE.spair (8 + 2 * k)).toNat 64 fun _ => leaf1).drop (8 * i)).take 8))

theorem exitWords_0 : exitWords 0 = [0x10000, 2 ^ 62 + 2 ^ 42 + 2 ^ 33, 0, 0, 0, 0, 0, 0] := by decide +kernel
theorem exitWords_1 : exitWords 1 = [0x10000, 7 * 2 ^ 58 + 2 ^ 42, 0, 0, 0, 0, 0, 0] := by decide +kernel

theorem checked {w : List DWord} {b : Block} (h : (!blockBad w && decide (blockOf w = b) && !b.child && decide (b.depth = 0)) = true) :
    checkBlock w 0 = .ok b := by
  simp only [Bool.and_eq_true, Bool.not_eq_true', decide_eq_true_eq] at h
  obtain ⟨⟨⟨h1, h2⟩, h3⟩, h4⟩ := h
  simp only [checkBlock, h1, h2, h3, Bool.false_and, Bool.false_eq_true, if_false]
  cases b
  cases h3
  cases h4
  rfl

theorem witness_ExitAndSuccessors :
    Runs exiting 0 0 waveE ∧ exiting.active c0.guard ≠ 0 ∧ Direct exiting 0 waveE (exiting.active c0.guard) ∧ waveE.past = false ∧ waveE.cbuf = [] ∧
    exiting.openRemote waveE.uid fullMask = false ∧
    waveE.handler = none ∧ (exiting.waves.map (·.2.uid)).Nodup ∧ aget exiting.launches 1 = some launch1 ∧
    (exiting.core 0).alloc 1 = some ⟨1, 0, 8, [], 1, 0⟩ ∧ (∀ x ∈ exiting.launches, x.1 < exiting.stamp) ∧
    (∀ cr ∈ exiting.cores, cr.2.copies = [] ∧ cr.2.partials = []) ∧ (∀ x, x < 2 → (exiting.xp 0 x).heads = [] ∧ (exiting.xp 0 x).walk = none) ∧
    (∀ k, k < 2 → (waveE.spair (8 + 2 * k)).toNat % 64 = 0 ∧
      checkBlock (exitWords k) waveE.depth = .ok (exitBlock k) ∧ (exitBlock k).prio < 8) ∧
    (Mapped exiting 0 0 (waveE.spair 8).toNat 64 .load fun _ => leaf1) ∧ (Mapped exiting 0 0 (waveE.spair 10).toNat 64 .load fun _ => leaf1) ∧
    (exiting.core 0).deque.length + 1 ≤ 64 + 65536 := by
  refine ⟨⟨rfl, rfl, rfl, rfl, rfl, rfl, rfl, rfl, rfl, rfl, by decide, by decide⟩, by decide +kernel, ⟨rfl, rfl, rfl, fresh_of rfl rfl⟩, rfl, rfl, rfl, rfl,
    by decide +kernel, rfl, rfl, by decide +kernel, by decide +kernel, by decide +kernel, fun k hk => ?_, mapped_of rfl rfl (by decide +kernel),
    mapped_of rfl rfl (by decide +kernel), by decide⟩
  obtain rfl | rfl : k = 0 ∨ k = 1 := by omega
  · exact ⟨by decide +kernel, by rw [exitWords_0]; exact checked (by decide +kernel), by decide⟩
  · exact ⟨by decide +kernel, by rw [exitWords_1]; exact checked (by decide +kernel), by decide⟩

/-- A launch of one wave on the core, and one of two of which the other has not arrived. -/
def arriving (n : Nat) : State := { lane0 with cores := [(0, { core0 wave1 with allocs := [⟨1, 0, 8, [], n, 0⟩] })] }

def waveCl : Wave := { wave1 with s := [(8, 1024)] }
def launch2 : Launch := { launch1 with blk := { block1 with w := 2, waves := 2 } }
def clashing : State :=
  { lane0 with
    launches := [(1, launch2)]
    cores := [(0, { core0 waveCl with slots := [(0, waveCl), (1, { wave1 with uid := 2, wix := 1, sbars := [0] })], allocs := [⟨1, 0, 8, [], 2, 0⟩] })] }

theorem witness_LaunchBarriers :
    (∀ n, Runs (arriving n) 0 0 wave1 ∧ (arriving n).active c0.guard ≠ 0 ∧ aget (arriving n).launches 1 = some launch1 ∧
      ((arriving n).core 0).alloc 1 = some ⟨1, 0, 8, [], n, 0⟩ ∧ ((arriving n).waves.map (·.2.uid)).Nodup) ∧
    Unsplit wave1 ∧ wave1.handler = none ∧ (∀ i, i < 1 → i = wave1.wix) ∧
    ¬(∀ i, i < 2 → i ∈ ([] : List Nat) ∨ i = wave1.wix ∨ ∃ x ∈ ((arriving 2).core 0).slots, x.2.handler = none ∧ x.2.lid = wave1.lid ∧ x.2.wix = i ∧
      wave1.wbars + 1 ≤ x.2.wbars) ∧
    descOk launch1.blk (wave1.scal false 8) 0 = true ∧
    (∀ i ∈ descCores launch1.blk 0, (arriving 1).allArrived i 1 (fun x => decide (0 + 1 ≤ x.sbars.length) || x.uid == wave1.uid) = true) ∧
    (∀ x ∈ (arriving 1).resident, x.2.2.uid = wave1.uid) ∧
    ¬(∀ i ∈ descCores launch1.blk 0, (arriving 2).allArrived i 1 (fun x => decide (0 + 1 ≤ x.sbars.length) || x.uid == wave1.uid) = true) ∧
    (∀ n, (arriving n).openRemote wave1.uid fullMask = false) ∧
    -- the descriptors of the two waves of core 0 differ: {0, 1}, and {0}, whose waves have all arrived
    (Runs clashing 0 0 waveCl ∧ Unsplit waveCl ∧ aget clashing.launches 1 = some launch2 ∧ (clashing.waves.map (·.2.uid)).Nodup ∧
      clashing.openRemote waveCl.uid fullMask = false ∧ descOk launch2.blk (waveCl.scal false 8) 0 = true ∧ 0 ∈ descCores launch2.blk 0 ∧
      (∀ i ∈ descCores launch2.blk 0, clashing.allArrived i 1 (fun x => decide (0 + 1 ≤ x.sbars.length) || x.uid == waveCl.uid) = true) ∧
      ((clashing.resident.filter fun x => x.2.2.handler.isNone && x.2.2.lid == 1 && x.2.2.uid != 1 && decide (0 + 1 ≤ x.2.2.sbars.length)).map
        fun x => (x.1, listGet 0 x.2.2.sbars 0)) = [(0, 0)] ∧ waveCl.scal false 8 ≠ 0 ∧ NamedRecs clashing) :=
  ⟨fun _ => ⟨⟨rfl, rfl, rfl, rfl, rfl, rfl, rfl, rfl, rfl, rfl, by change (1 : Mask) ≠ 0; decide, by change (1 : Mask) &&& wave1.ended = 0; decide⟩,
      by change (1 : Mask) &&& wave1.pred 15 ≠ 0; decide, rfl, rfl, List.nodup_singleton _⟩, (fun _ h => nomatch h), rfl, by decide,
    (fun h => absurd (h 1 (by decide)) (by decide)), by decide +kernel, by decide +kernel, by decide +kernel, by decide +kernel, fun _ => rfl,
    ⟨rfl, rfl, rfl, rfl, rfl, rfl, rfl, rfl, rfl, rfl, by decide, by decide⟩, (fun _ h => nomatch h), rfl, by decide +kernel, rfl, by decide +kernel, by decide +kernel,
    by decide +kernel, by decide +kernel, by decide +kernel, named_of rfl⟩

/-- A window of 64 registers, a pool of 100; s8 a set's base, s10 its length, s12 its number. -/
def waveW : Wave := { wave1 with d := 64, s := [(8, 0x10000), (10, 128), (12, 255)] }
def windows (free : Nat) : State := { onWave waveW 1 with cores := [(0, { core0 waveW with free := free })] }
def claiming : Wave := { waveW with streams := [⟨fullMask, 0, 0, true, .park (.claim 8 false) 8 false 0, 0, false, 0, [], none⟩] }
def claimed (free : Nat) : State := { mapped with cores := [(0, { core0 claiming with free := free })] }
def withSet : State := { windows 8 with slots := [(0, { ASlot.fresh 0x1000 true 0 with sets := [⟨255, 0x10000, 128, none, []⟩] })] }

theorem witness_WindowsSetsAndAge :
    ((∀ n, Runs (windows n) 0 0 waveW ∧ (windows n).active c0.guard ≠ 0) ∧ (56 : BitVec 18).toNat + 8 ≤ waveW.d ∧
      waveW.d + (192 : BitVec 18).toNat ≤ 256 ∧ ((windows 192).claims 0).isEmpty = true ∧ (192 : BitVec 18).toNat ≤ ((windows 192).core 0).free ∧
      ((windows 191).core 0).free < (192 : BitVec 18).toNat) ∧
    (waveW.commit = false ∧ (windows 8).slot? 0 = some (ASlot.fresh 0x1000 true 0) ∧ waveW.scal true 8 % 128 = 0 ∧ waveW.scal false 10 % 128 = 0 ∧
      128 ≤ waveW.scal false 10 ∧ waveW.scal false 10 ≤ 2 ^ 30 ∧ waveW.scal false 12 ≤ 255 ∧ (ASlot.fresh 0x1000 true 0).sets = [] ∧
      Runs withSet 0 0 waveW ∧ ∃ a, withSet.slot? 0 = some a ∧ a.sets.find? (fun x => x.id == waveW.scal false 12) = some ⟨255, 0x10000, 128, none, []⟩) ∧
    ((claimed 8).claims 0 = [(0, fullMask, 8)] ∧ (claimed 8).wave? 0 0 = some claiming ∧ (fullMask, 8) ∈ claiming.claims ∧ 8 ≤ ((claimed 8).core 0).free) ∧
    NamedRecs (claimed 7) ∧ (claimed 7).findSlot 1 = some (0, 0) ∧ ((claimed 7).core 0).slots = [(0, claiming)] ∧ ((claimed 7).core 0).resv = none ∧
      claiming.ended ||| claiming.atBarrier ||| fullMask = fullMask ∧ ((claimed 7).core 0).free < 8 :=
  ⟨⟨fun _ => ⟨⟨rfl, rfl, rfl, rfl, rfl, rfl, rfl, rfl, rfl, rfl, by change (1 : Mask) ≠ 0; decide, by change (1 : Mask) &&& wave1.ended = 0; decide⟩,
      by change (1 : Mask) &&& waveW.pred 15 ≠ 0; decide⟩, by decide, by decide, by decide +kernel, by decide, by decide⟩,
    ⟨rfl, rfl, by decide +kernel, by decide +kernel, by decide +kernel, by decide +kernel, by decide +kernel, rfl,
      ⟨rfl, rfl, rfl, rfl, rfl, rfl, rfl, rfl, rfl, rfl, by decide, by decide⟩, ⟨_, rfl, by decide +kernel⟩⟩,
    ⟨by decide +kernel, rfl, by decide +kernel, by decide⟩, named_of rfl, rfl, rfl, rfl, by decide +kernel, by decide⟩

/-! ## Witnesses: collectives -/

/-- A communicator of four members, rank 1; two contributions make the quorum, two the floor. -/
def comm1 : Comm :=
  ⟨0, BitVec.ofNat 64 (2 ^ 63 + 3 * 2 ^ 45 + 2 ^ 33 + 2 ^ 21 + 2 ^ 9), BitVec.ofNat 64 (5 * 2 ^ 32 + 10 * 2 ^ 8), 0, 0x30000, 4096, [1, 2, 3, 4],
    List.replicate 4 ⟨true, 0, 0⟩, [], [], none, false, [], none, 0, 0, []⟩

/-- Parameters of a command of 16 bytes at s20 to s27, of a barrier at s40; step 1 at s50. -/
def waveK : Wave :=
  { wave1 with s := [(22, 0x10000), (24, 0x30000), (26, 16), (50, 1)], collQ := [(3, ⟨5, none⟩), (4, ⟨6, some 9⟩)] }
def pushing : State := { onWave waveK 1 with comms := [(0, comm1)] }

theorem witness_CollectiveInstructions :
    Runs pushing 0 0 waveK ∧ pushing.active c0.guard ≠ 0 ∧ Unsplit waveK ∧ waveK.commit = false ∧ (waveK.sreg 20).toNat < 256 ∧
    aget pushing.comms 0 = some comm1 ∧ comm1.aslot = waveK.aslot ∧ (waveK.collQ.filter fun y => y.1 == 3).length < 16 ∧
    (pushing.core 0).lanesLog waveK.uid (pushing.active c0.guard) = [] ∧ pushing.openRemote waveK.uid (pushing.active c0.guard) = false ∧
    (comm1.closed = false ∧ comm1.timer = none ∧ comm1.expiries = 0 ∧ comm1.results = [] ∧ ∃ r ∈ comm1.present, r ≠ comm1.rank) ∧
    comm1.cur = none ∧ comm1.parts = [] ∧ comm1.cmds = [] ∧ (waveK.sreg 26).toNat % 4 = 0 ∧ 4 ≤ (waveK.sreg 26).toNat ∧
    (waveK.sreg 26).toNat ≤ 2 ^ 24 ∧ (waveK.sreg 27).toNat = 0 ∧ (waveK.sreg 26).toNat % (4 * comm1.n) = 0 ∧ (waveK.sreg 27).toNat < comm1.n ∧
    (∀ i, i < 8 → (waveK.sreg (40 + i)).toNat = 0) ∧ waveK.collQ.find? (fun x => x.1 == 3) = some (3, ⟨5, none⟩) ∧
    waveK.collQ.find? (fun x => x.1 == 4) = some (4, ⟨6, some 9⟩) ∧ waveK.scal false 8 < 256 ∧ comm1.rank < comm1.n ∧
    (∀ p ∈ listPut ⟨true, 0, 0⟩ comm1.n comm1.table comm1.rank ⟨true, 0, 0⟩, waveK.scal false 8 ≤ p.step + bitsN comm1.w1.toNat 63 56) ∧
    ¬∀ p ∈ listPut ⟨true, 0, 0⟩ comm1.n comm1.table comm1.rank ⟨true, 1, 0⟩, waveK.scal false 50 ≤ p.step + bitsN comm1.w1.toNat 63 56 :=
  ⟨⟨rfl, rfl, rfl, rfl, rfl, rfl, rfl, rfl, rfl, rfl, by decide, by decide⟩, by decide +kernel, (fun _ h => nomatch h), rfl, by decide +kernel, rfl, rfl, by decide,
    rfl, rfl, ⟨rfl, rfl, rfl, rfl, ⟨0, by decide, by decide⟩⟩, rfl, rfl, rfl, by decide +kernel, by decide +kernel, by decide +kernel, by decide +kernel, by decide +kernel, by decide +kernel, by decide +kernel,
    rfl, rfl, by decide +kernel, by decide +kernel, by decide +kernel, by decide +kernel⟩

/-- A reduction of the device itself waits: of 16 bytes, or of 8192. -/
def cmd1 (len : Nat) (tgt : Option Nat) : CollCmd := ⟨7, 0, 1, .red, 2, 0x10000, 0x30000, len, 0, 0, [], 0, 0, tgt, false⟩
def commCmd (len : Nat) (tgt : Option Nat) : Comm := { comm1 with cmds := [cmd1 len tgt] }
/-- Eight bytes of a result are still to be written, behind so many. -/
def pend1 (out : Nat) : CollPend := ⟨7, 1, 0, 0, 2, 0, out, [(0x30000, List.replicate 8 1)]⟩
def commPend (out : Nat) : Comm := { comm1 with pend := [pend1 out] }
/-- A closer of step 4, whose members may lead or trail it by two, with what it has: a contribution on time of rank 2, a late one of rank 3. -/
def onTime1 : Contrib := ⟨2, 4, .red, [1, 2], 8, some 4, 0⟩
def late1 : Contrib := ⟨3, 3, .red, [1, 2], 8, some 4, 8⟩
def closer (parts : List Contrib) : Comm :=
  { comm1 with
    w1 := BitVec.ofNat 64 (2 * 2 ^ 56 + 5 * 2 ^ 32 + 10 * 2 ^ 8), cur := some 4, closed := true, parts := parts
    timer := if parts = [] then none else some 30 }
def engaged (c : Comm) : State := { mapped with comms := [(0, c)], us := 31 }

theorem storable_of {s : State} {core va n : Nat} {l : Leaf} (hm : Mapped s core 0 va n .store fun _ => l) (hp : va % 65536 + n ≤ 65536)
    (h : ((pieces va n).all fun x => (pieces va n).all fun y => (s.tablePath 0 y.1).all fun e => decide (e / 32 ≠ l.pa x.1 / 32)) = true) :
    Storable s core 0 va n l :=
  ⟨hm, hp, fun x hx y hy => spares_of (List.all_eq_true.mp (List.all_eq_true.mp h x hx) y hy)⟩

theorem witness_CollectiveEvents :
    (∀ n tgt, aget (engaged (commCmd n tgt)).comms 0 = some (commCmd n tgt) ∧ (engaged (commCmd n tgt)).comms = [(0, commCmd n tgt)] ∧
      (commCmd n tgt).cmds = [cmd1 n tgt] ∧ (commCmd n tgt).pend = [] ∧ (commCmd n tgt).parts = [] ∧ (commCmd n tgt).results = [] ∧
      (cmd1 n tgt).op = .red ∧ (cmd1 n tgt).given = false ∧ (commCmd n tgt).closed = false ∧ (commCmd n tgt).cur = none ∧
      bitsN (commCmd n tgt).w0.toNat 61 60 = 0 ∧ (commCmd n tgt).closer ≠ (commCmd n tgt).rank) ∧
    (0 < 16 ∧ Min.min 4096 (16 - 0) = 16 ∧ (Mapped (engaged (commCmd 16 none)) 0 0 0x10000 16 .load fun _ => leaf1) ∧
      Min.min 4096 (8192 - 0) = 4096 ∧ (Mapped (engaged (commCmd 8192 none)) 0 0 0x10000 4096 .load fun _ => leaf1)) ∧
    (∀ out, (engaged (commPend out)).comms = [(0, commPend out)] ∧ (commPend out).cmds = [] ∧ (commPend out).pend = [pend1 out] ∧
      (pend1 out).left = [(0x30000, List.replicate 8 1)] ∧ bitsN (commPend out).w0.toNat 61 60 = 0) ∧
    (Min.min (4096 - 0 % 4096) 8 = 8 ∧ Storable (engaged (commPend 0)) 0 0 0x30000 8 leaf3 ∧
      Min.min (4096 - 4092 % 4096) 8 = 4 ∧ Storable (engaged (commPend 4092)) 0 0 0x30000 4 leaf3) ∧
    ((∀ r ∈ [0, 2, 3], r < comm1.n ∧ r ≠ comm1.rank) ∧ comm1.cmds = [] ∧ comm1.closed = false ∧ comm1.cur = none ∧ comm1.stageSlot (4 * 2) = some 0 ∧
      Storable (engaged comm1) (256 * comm1.eng) 0 (0x30000 + 0) (4 * 2) leaf3) ∧
    (∀ op ∈ [CollOp.a2a, .bcast, .bar], op ≠ .red) ∧
    (4 * [1, 2, 3, (4 : Word)].length = (cmd1 16 none).len ∧ (∀ st ∈ [0, 1], st < 2) ∧ ∀ st ∈ [2, 3], st < 4 ∧ ¬st < 2) ∧
    (0 ≠ (commCmd 16 (some 0)).rank ∧ (cmd1 16 (some 0)).since + 2 * bitsN comm1.w1.toNat 31 8 < (engaged (commCmd 16 (some 0))).us) ∧
    (comm1.peer 2).live = true ∧ (comm1.peer 2).last + bitsN comm1.w1.toNat 55 32 < (engaged comm1).us :=
  ⟨fun _ _ => ⟨rfl, rfl, rfl, rfl, rfl, rfl, rfl, rfl, rfl, rfl, by change bitsN comm1.w0.toNat 61 60 = 0; decide, by change comm1.closer ≠ comm1.rank; decide⟩,
    ⟨by decide, by decide, mapped_of rfl rfl (by decide +kernel), by decide, mapped_of rfl rfl (by decide +kernel)⟩,
    fun _ => ⟨rfl, rfl, rfl, rfl, by change bitsN comm1.w0.toNat 61 60 = 0; decide⟩,
    ⟨by decide, storable_of (mapped_of rfl rfl (by decide +kernel)) (by decide) (by decide +kernel), by decide,
      storable_of (mapped_of rfl rfl (by decide +kernel)) (by decide) (by decide +kernel)⟩,
    ⟨by decide, rfl, rfl, rfl, by decide, storable_of (mapped_of rfl rfl (by decide +kernel)) (by decide) (by decide +kernel)⟩, by decide,
    ⟨rfl, by decide, by decide⟩, ⟨by decide, by decide⟩, rfl, by decide⟩

/-- The rows of the closer's table: each needs its step, and a slot of the staging area; the step is closed on its quorum, on its timer, or not. -/
theorem witness_CollectiveEvents_rows :
    (∀ c ∈ [closer [], closer [onTime1], closer [onTime1, late1]], aget (engaged c).comms 0 = some c ∧ c.cmds = [] ∧ c.cur = some 4 ∧ c.closed = true ∧
      bitsN c.w1.toNat 63 56 = 2 ∧ bitsN c.w0.toNat 32 21 + 1 = 2 ∧ bitsN c.w0.toNat 20 9 + 1 = 2 ∧
      (∀ p ∈ c.parts, p.op = .red ∧ p.into = some 4 ∧ p.step ≤ 4) ∧ (c.timer = none ↔ c.parts.filter (fun p => p.into == some 4) = []) ∧
      (c.parts.filter fun p => p.into == some 4 && p.step == 4).length < 2 ∧ (c.parts.filter fun p => p.step == 5).length < 2 ∧ c.expiries = 0) ∧
    (4 < 5 ∧ 5 ≤ 4 + 2 ∧ 4 + 2 < 7 ∧ 1 + 2 < 4 ∧ 3 ≤ 4 ∧ 4 ≤ 3 + 2) ∧
    ((closer []).parts.filter fun p => p.into == some 4 && p.step == 4).length + 1 < 2 ∧
    2 ≤ ((closer [onTime1]).parts.filter fun p => p.into == some 4 && p.step == 4).length + 1 ∧
    (∀ x ∈ [(closer [], 0), (closer [onTime1], 8)], x.1.stageSlot (4 * 2) = some x.2) ∧
    Storable (engaged (closer [])) (256 * (closer []).eng) 0 (0x30000 + 0) (4 * 2) leaf3 ∧
    Storable (engaged (closer [onTime1])) (256 * (closer [onTime1]).eng) 0 (0x30000 + 8) (4 * 2) leaf3 ∧
    (∀ ps ∈ [[onTime1], [onTime1, late1]], (closer ps).timer = some 30 ∧ 30 < (engaged (closer ps)).us) ∧
    2 ≤ ((closer [onTime1, late1]).parts.filter fun p => p.into == some 4).length ∧ ((closer [onTime1]).parts.filter fun p => p.into == some 4).length < 2 ∧
    { closer [onTime1] with expiries := 1 }.expiries ≠ 0 :=
  ⟨by decide, by decide, by decide, by decide, by decide, storable_of (mapped_of rfl rfl (by decide +kernel)) (by decide) (by decide +kernel),
    storable_of (mapped_of rfl rfl (by decide +kernel)) (by decide) (by decide +kernel), by decide, by decide, by decide, by decide⟩

/-! ## Witnesses: system registers, copies, chain walks -/

/-- The halt bit of the slot stands, or does not; a record waits. -/
def debugging (ctl : Word) : State := { lane0 with slots := [(0, { ASlot.fresh 0x1000 true 0 with dbgCtl := ctl })] }

theorem witness_SystemRegisters :
    Runs lane0 0 0 wave1 ∧ lane0.slot? 0 = some (ASlot.fresh 0x1000 true 0) ∧ lane0.active c0.guard ≠ 0 ∧
    (∀ f ∈ lane0.recs, f.aslot = wave1.aslot → f.pending = false) ∧ (∀ b : Bool, (lane0.xp 0 (if b then 1 else 0)).heads.length < 4) ∧
    wave1.commit = false ∧ (ASlot.fresh 0x1000 true 0).gen ≠ 2 ^ 32 - 1 ∧ lane0.openRemote wave1.uid fullMask = false ∧
    (∀ ctl, Runs (debugging ctl) 0 0 wave1 ∧ ∃ a, (debugging ctl).slot? 0 = some a ∧ a.dbgCtl = ctl) ∧ (0 : Word).getLsbD 1 = false ∧
    (2 : Word).getLsbD 1 = true ∧ wave1.scal false 7 / 2 % 2 = 0 ∧
    (0x030 : BitVec 18).toNat ∉ [0x000, 0x001, 0x002, 0x010, 0x011, 0x020, 0x021, 0x028, 0x029, 0x02A, 0x032, 0x033, 0x100, 0x101, 0x102, 0x108, 0x109,
      0x110, 0x200, 0x201] ∧
    (0x000 : BitVec 18).toNat ∉ [0x001, 0x028, 0x029, 0x02A, 0x100, 0x108, 0x109] ∧
    ((0x001 : BitVec 18).toNat ≠ 0x000 ∧ (0x001 : BitVec 18).toNat ≠ 0x034) ∧ XRuns xpOn 0 0 xp1 :=
  ⟨lane0_runs, rfl, by decide +kernel, (fun _ h => nomatch h), by decide, rfl, by decide, rfl,
    fun _ => ⟨⟨rfl, rfl, rfl, rfl, rfl, rfl, rfl, rfl, rfl, rfl, by change (1 : Mask) ≠ 0; decide, by change (1 : Mask) &&& wave1.ended = 0; decide⟩, ⟨_, rfl, rfl⟩⟩,
    by decide, by decide, by decide +kernel, by decide, by decide, by decide, xpOn_runs⟩

theorem settled_of {s : State} (h : (s.cores.all fun c => c.2.allocs.all fun a => decide (a.ended.length < a.waves)) = true) : SettledAllocs s := by
  refine core_all (fun c => ∀ a ∈ c.allocs, a.ended.length < a.waves) (fun a ha => by cases ha) fun c hc a ha => ?_
  have := List.all_eq_true.mp (List.all_eq_true.mp h c hc) a ha
  exact of_decide_eq_true this

/-- One copy on core 0, of four bytes from page 1 to the end of a sector of the scratchpad; one of a queue of the wave; one of a program. -/
def spadCopy : Copy := ⟨900, 0, .walk, 0, none, .lin (.glob 0x1001C), .spad 0 28, 4, 0, false, false, [], [], [], [], 0, none, [], [], []⟩
def queueCopy : Copy := { spadCopy with from' := .queue 1 0 3 1, done := true, lines := [(0, 0)] }
def progCopy : Copy := { spadCopy with from' := .prog, done := true }
def waveQ : Wave := { wave1 with batches := [(0, [900])], copyOpen := [(1, 900)] }
def copying (k : Copy) : State := { mapped with cores := [(0, { core0 waveQ with copies := [k] })] }

theorem only_core {s : State} {c : Core} {ks : List Copy} (h : s.cores = [(0, c)]) (hk : c.copies = ks) (i : Nat) :
    (s.core i).copies = if i = 0 then ks else [] := by
  simp only [State.core, h, aget]
  split
  · exact hk
  · rfl

theorem witness_CopyEvents :
    (∀ k, (∀ i, ((copying k).core i).copies = if i = 0 then [k] else []) ∧ (copying k).flows = [] ∧ ((copying k).core 0).disabled = false ∧
      ((copying k).core 0).gated = false) ∧
    SettledAllocs (copying spadCopy) ∧ SettledAllocs (copying queueCopy) ∧ SettledAllocs (copying progCopy) ∧
    (spadCopy.xp < 2 ∧ spadCopy.shape = .lin (.glob 0x1001C) ∧ spadCopy.dst = .spad 0 28 ∧ 1 ≤ spadCopy.total ∧ 28 % 32 + spadCopy.total ≤ 32 ∧
      (Reaches (copying spadCopy) 0 0x1001C 4 .load leaf1 ∧ PlainSector (copying spadCopy) (leaf1.pa 0x1001C)) ∧ FreshTlb (copying spadCopy) 0 0 ∧
      spadCopy.after = [] ∧ spadCopy.lid = none) ∧
    (queueCopy.from' = .queue 1 0 3 1 ∧ queueCopy.done = true ∧ (copying queueCopy).wave? 0 0 = some waveQ ∧ waveQ.uid = 1 ∧ waveQ.copyBad = [] ∧ queueCopy.bad = [] ∧
      ∀ b ∈ waveQ.batches, 0 ∉ b.2) ∧ progCopy.from' = .prog ∧ progCopy.done = true ∧ progCopy.xp < 2 :=
  ⟨fun _ => ⟨only_core rfl rfl, rfl, rfl, rfl⟩, settled_of (by decide), settled_of (by decide), settled_of (by decide),
    ⟨by decide, rfl, rfl, by decide, by decide, reach1 _ _ _ _ (by decide +kernel), fresh_of rfl rfl, rfl, rfl⟩,
    ⟨rfl, rfl, rfl, rfl, rfl, rfl, by decide⟩, rfl, rfl, by decide⟩

/-- A walk at a record at 0x10000: its words from the second on. -/
def walkAt (busy : Bool) (ws : List DWord) : Walk := ⟨.launch 0 1, 0x10000, 0x10000 :: ws, busy, [], none⟩
def recordOf (kind : Nat) (low : Nat) (src dest len : Nat) : List DWord :=
  [BitVec.ofNat 64 (2 ^ 63 + kind * 2 ^ 60 + low), BitVec.ofNat 64 src, BitVec.ofNat 64 dest, BitVec.ofNat 64 len, 1, 2, 3]

/-- Page 6 is offloaded, page 7 moves inward. -/
def offTables : List Host.Cell :=
  wrNum (wrNum tables 0x5030 8 (6 * 65536 + 3 + 2 ^ 56 + 2 ^ 57 + 2 ^ 58 + 3 * 2 ^ 62)) 0x5038 8 (7 * 65536 + 3 + 2 ^ 56 + 2 ^ 57 + 2 ^ 58 + 2 * 2 ^ 62)
def leaf5 : Leaf := pageLeaf 5 (2 ^ 58 + 2 ^ 62)
def leaf6 : Leaf := pageLeaf 6 (2 ^ 58 + 3 * 2 ^ 62)
def leaf7 : Leaf := pageLeaf 7 (2 ^ 58 + 2 * 2 ^ 62)
def walking (copies : List Copy) (w : Walk) : State :=
  { mapped with
    mem := offTables
    slots := [(0, { ASlot.fresh 0x1000 true 0 with fltHead := 64 })]
    cores := [(0, { Core.init with allocs := [⟨1, 0, 8, [], 1, 0⟩], copies := copies, xp0 := { XP.init with walk := some w } })] }
def walkCopy (total : Nat) : Copy := ⟨900, 0, .walk, 0, some 1, .lin (.frame 0 0x50000), .glob 0, total, total, false, true, [], [], [], [], 0, none, [], [], []⟩

/-- What AtRecord, CanReturn and the last part of the statement ask of one walk. -/
theorem atRecord_of (copies : List Copy) (ws : List DWord) (h : (decide (ws.length = 7) && bitN (listGet 0 ws 0).toNat 63) = true) :
    AtRecord (walking copies (walkAt false ws)) 0 0 (walkAt false ws) := by
  simp only [Bool.and_eq_true, decide_eq_true_eq] at h
  exact ⟨by decide, ⟨rfl, rfl⟩, rfl, by simp [walkAt, h.1], h.2, rfl, rfl⟩

theorem canReturn_of (s : State) (w : Walk) (hw : w.bind = .launch 0 1) (hc : w.cur = 0x10000) (ht : (s.cluster 0).tlb = [])
    (hf : (s.cores.all fun c => decide (c.2.l1 = []) && decide (c.2.partials = [])) = true) (hl : aget s.launches 1 = some launch1)
    (h : (decide ((0x10008 : Nat) < 2 ^ 57) && decide (0x10008 % 32 + 8 ≤ 32) && decide (s.walk 0 0x10008 = .leaf leaf1) &&
      decide (leafFault s 0 0x10008 .store leaf1 = none) && decide (pteOff leaf1.pte = 0) &&
      decide (rdNum s.mem leaf1.ent 8 ||| 2 ^ 57 ||| (if AKind.store.writes then 2 ^ 56 else 0) = rdNum s.mem leaf1.ent 8) &&
      (!isExt (leaf1.pa 0x10008) && !s.poisoned (leaf1.pa 0x10008) && !s.sealedLine (leaf1.pa 0x10008) &&
        decide (s.linePartials (leaf1.pa 0x10008 / 128) = []))) = true) : CanReturn s 0 w leaf1 := by
  have := reach1 s 0x10008 8 .store h
  refine ⟨?_, fresh_of ht hf, ?_, ?_⟩
  · rw [hw, hc]
    exact this.1
  · rw [hc]
    exact this.2
  · rw [hw]
    simp only [Bind.lid, Option.bind_some, hl]
    rfl

def starting : State := { mapped with cores := [(0, { Core.init with xp0 := { XP.init with heads := [⟨0x10000, .slot 0⟩] } })] }

/-- Good records of each kind, one of bad form, and moves that are complete. -/
theorem witness_WalkRecords :
    ((starting.core 0).disabled = false ∧ (starting.core 0).gated = false ∧ (starting.xp 0 0).walk = none ∧
      (starting.xp 0 0).heads = [⟨0x10000, .slot 0⟩]) ∧
    (∀ ws ∈ [recordOf 0 0 0x10000 0x30000 4, recordOf 1 0 0x10000 16380 4, recordOf 2 0 0x3FFC 0 0, recordOf 3 (2 ^ 55) 0 0 (2 ^ 32),
        recordOf 4 0 0x30000 0x10000 65536, recordOf 5 0 0x10000 0x60000 65536],
      AtRecord (walking [] (walkAt false ws)) 0 0 (walkAt false ws) ∧ (walking [] (walkAt false ws)).checkRec 0 0 (walkAt false ws) = 0 ∧
      CanReturn (walking [] (walkAt false ws)) 0 (walkAt false ws) leaf1 ∧ SettledAllocs (walking [] (walkAt false ws)) ∧
      ∀ cr ∈ (walking [] (walkAt false ws)).cores, cr.2.partials = []) ∧
    (walking [] (walkAt false (recordOf 4 0 0x30000 0x10000 65536))).walk 0 0x30000 = .leaf leaf3 ∧ leaf3.level = 0 ∧
    leafFault (walking [] (walkAt false (recordOf 4 0 0x30000 0x10000 65536))) 0 0x30000 .load leaf3 = none ∧
    (walking [] (walkAt false (recordOf 5 0 0x10000 0x60000 65536))).walk 0 0x60000 = .leaf leaf6 ∧ leaf6.level = 0 ∧
    leafFault (walking [] (walkAt false (recordOf 5 0 0x10000 0x60000 65536))) 0 0x60000 .load leaf6 = none ∧
    (walkAt false (recordOf 3 (2 ^ 55) 0 0 (2 ^ 32))).arr = true ∧ (walkAt false (recordOf 2 0 0x3FFC 0 0)).arr = false ∧
    (AtRecord (walking [] (walkAt false (recordOf 0 1 0 0 4))) 0 0 (walkAt false (recordOf 0 1 0 0 4)) ∧
      CanReturn (walking [] (walkAt false (recordOf 0 1 0 0 4))) 0 (walkAt false (recordOf 0 1 0 0 4)) leaf1 ∧
      (walkAt false (recordOf 0 1 0 0 4)).malformed = true ∧
      ∀ a, (walking [] (walkAt false (recordOf 0 1 0 0 4))).slot? 0 = some a →
        (a.fltHead + 2 ^ 32 - a.fltTail) % 2 ^ 32 = 2 ^ (bitsN a.fltBase.toNat 3 0 + 6)) ∧
    ∀ x ∈ [(recordOf 4 0 0x50000 0x10000 65536, 0x50000, leaf5, 3), (recordOf 5 0 0x10000 0x70000 65536, 0x70000, leaf7, 0)],
      let w := walkAt true x.1
      let s := walking [walkCopy 65536] w
      (s.xp 0 0).walk = some w ∧ w.busy = true ∧ (∀ i, (s.core i).copies = if i = 0 then [walkCopy 65536] else []) ∧ (walkCopy 65536).xp = 0 ∧
      (walkCopy 65536).from' = .walk ∧ (walkCopy 65536).done = true ∧ s.flows = [] ∧ SettledAllocs s ∧ w.arr = false ∧ (∀ i, (s.core i).log = [] ∧ (s.core i).partials = []) ∧
      s.walk 0 x.2.1 = .leaf x.2.2.1 ∧ CanReturn (s.setOff 0 x.2.1 x.2.2.2) 0 w leaf1 ∧
      leaf1.pa (w.cur + 8) + 8 ≤ 0x10010 ∧ x.2.2.1.ent + 8 ≤ leaf1.pa (w.cur + 8) := by
  refine ⟨⟨rfl, rfl, rfl, rfl⟩, fun ws hw => ?_, by decide +kernel, rfl, by decide +kernel, by decide +kernel, rfl, by decide +kernel, by decide, by decide,
    ⟨atRecord_of _ _ (by decide), canReturn_of _ _ rfl rfl rfl rfl rfl (by decide +kernel), by decide, fun a ha => ?_⟩, fun x hx => ?_⟩
  · simp only [List.mem_cons, List.not_mem_nil, or_false] at hw
    obtain rfl | rfl | rfl | rfl | rfl | rfl := hw <;>
      exact ⟨atRecord_of _ _ (by decide), by decide +kernel, canReturn_of _ _ rfl rfl rfl rfl rfl (by decide +kernel), settled_of (by decide), fun cr hc => by rw [List.mem_singleton.mp hc]; rfl⟩
  · cases ha
    rfl
  · simp only [List.mem_cons, List.not_mem_nil, or_false] at hx
    obtain rfl | rfl := hx <;>
      exact ⟨rfl, rfl, only_core rfl rfl, rfl, rfl, rfl, rfl, settled_of (by decide), by decide,
        core_all (fun c => c.log = [] ∧ c.partials = []) ⟨rfl, rfl⟩ (fun c hc => by rw [List.mem_singleton.mp hc]; exact ⟨rfl, rfl⟩), by decide +kernel,
        canReturn_of _ _ rfl rfl (by decide +kernel) (by decide +kernel) (by decide +kernel) (by decide +kernel), by decide, by decide⟩

/-! ## Witnesses: schedulers, distributor, admission -/

/-- The one ready wave stands in slot 7. -/
def turning : State := { mapped with cores := [(0, { core0 wave1 with slots := [(7, wave1)] })] }

/-- The launch stands at the head of the queue of priority 0, or holds a reservation; a core that may admit it. -/
def block8 : Block := { block1 with vregs := 8 }
def placing (b : Block) : State :=
  { mapped with launches := [(1, { launch1 with blk := b })], dist := ⟨[1] :: List.replicate 7 [], 1023, none⟩ }
def ganging (todo : List Nat) (q7 : List Nat) : State :=
  { mapped with
    launches := [(1, { launch1 with blk := { block8 with kind := 1 } })]
    dist := ⟨List.replicate 7 [] ++ [q7], 1023, some (1, [], todo)⟩ }
def admitting (free : Nat) : State :=
  { mapped with launches := [(1, { launch1 with blk := block8 })], cores := [(0, { Core.init with adm := [.launch 1 0], free := free })] }
def fullDeque : State := { placing { block8 with kind := 2 } with cores := [(0, { Core.init with deque := List.replicate 65600 9 })] }
def stealing (d : List Nat) : State :=
  { mapped with launches := [(1, { launch1 with blk := block8 })], cores := [(0, Core.init), (1, { Core.init with deque := d })] }

theorem no_others (q : Nat) (h : 0 < q) (h8 : q < 8) : listGet [] ([1] :: List.replicate 7 ([] : List Nat)) q = [] := by
  have : ∀ q, q < 8 → 0 < q → listGet [] ([1] :: List.replicate 7 ([] : List Nat)) q = [] := by decide
  exact this q h8 h

theorem gang_queues (p : Nat) (h : p < 8) (h0 : 0 < p) : listGet [] (List.replicate 7 [] ++ [([] : List Nat)]) p = [] := by
  have : ∀ p, p < 8 → 0 < p → listGet [] (List.replicate 7 [] ++ [([] : List Nat)]) p = [] := by decide
  exact this p h h0

theorem deque_only {d : List Nat} (u : Nat) (h : u ≠ 1) : ((stealing d).core u).deque = [] := by
  simp only [State.core, stealing, aget]
  split
  · rfl
  · rfl

theorem witness_Scheduling :
    (listGet none (turning.core 0).grants 0 = none ∧ (∀ x ∈ (turning.core 0).slots, x.1 / 8 = 0 → x.2.ended ≠ fullMask) ∧ (∀ j, j < 7 → ¬MayRun turning 0 (8 * 0 + (listGet 7 (turning.core 0).last 0 + 1 + j) % 8)) ∧
      MayRun turning 0 (8 * 0 + (listGet 7 (turning.core 0).last 0 + 1 + 7) % 8) ∧ turning.wave? 0 7 = some wave1 ∧ wave1.subs = [] ∧
      wave1.streams = []) ∧
    ((∀ b, listGet [] (placing b).dist.queues 0 = 1 :: [] ∧ aget (placing b).launches 1 = some { launch1 with blk := b } ∧ (placing b).dist.gang = none ∧
        (∀ q, 0 < q → q < 8 → listGet [] (placing b).dist.queues q = [])) ∧
      block8.kind = 0 ∧ block8.flt = false ∧ block8.x0 + block8.w ≤ 32 ∧
      ((floatOrigins 32 32 1023).filter fun o => ({ block8 with h := 32, w := 32, waves := 33, x0 := o % 32, y0 := o / 32 } : Block).cores.all fun c =>
        (placing { block8 with flt := true, h := 32, w := 32, waves := 33 }).fitsAll c { block8 with flt := true, h := 32, w := 32, waves := 33 } 33) = [] ∧
      (((floatOrigins 16 16 1023).filter fun o => ({ block8 with h := 16, w := 16, x0 := o % 32, y0 := o / 32 } : Block).cores.all fun c =>
        (placing { block8 with flt := true, h := 16, w := 16 }).fitsAll c { block8 with flt := true, h := 16, w := 16 } 1).take 5).length = 4 ∧
      StandsIn (placing { block8 with kind := 2 }) (32 * block8.y0 + block8.x0) 0 ∧ ((placing { block8 with kind := 2 }).core 0).deque.length < 64 + 65536 ∧
      StandsIn fullDeque (32 * block8.y0 + block8.x0) 0 ∧ 64 + 65536 ≤ (fullDeque.core 0).deque.length) ∧
    (∀ todo, (ganging (0 :: todo) []).dist.gang = some (1, [], 0 :: todo) ∧ (ganging (0 :: todo) []).ckpt = none ∧
      aget (ganging (0 :: todo) []).launches 1 = some { launch1 with blk := { block8 with kind := 1 } } ∧
      ((ganging (0 :: todo) []).core 0).spadRoom block8.spad = some 0 ∧ block8.waves ≤ ((ganging (0 :: todo) []).core 0).freeSlots ∧
      block8.waves * block8.vregs ≤ ((ganging (0 :: todo) []).core 0).free ∧ block8.waves = 1 ∧ (ganging (0 :: todo) []).wave? 0 0 = none ∧
      ((ganging (0 :: todo) []).core 0).pre = [] ∧ ((ganging (0 :: todo) []).core 0).alloc 1 = none ∧ ((ganging (0 :: todo) []).core 0).resv = none ∧
      ((ganging (0 :: todo) []).core 0).gated = false ∧ ((ganging (0 :: todo) []).cluster (coreCluster 0)).fused = block8.fuse ∧
      ∀ p, p < 8 → block8.prio < p → listGet [] (ganging (0 :: todo) []).dist.queues p = []) ∧
    ((7 < 8 ∧ (ganging [0] [5]).prioOf 1 < 7 ∧ listGet [] (ganging [0] [5]).dist.queues 7 ≠ []) ∧
      ∀ p, p < 8 → (ganging [0] []).prioOf 1 < p → listGet [] (ganging [0] []).dist.queues p = []) ∧
    ((∀ f, ((admitting f).core 0).adm = [.launch 1 0] ∧ ((admitting f).core 0).deque = [] ∧ ((admitting f).core 0).pre = [] ∧ (admitting f).ckpt = none ∧
        ((admitting f).core 0).alloc 1 = none ∧ ((admitting f).core 0).spadRoom block8.spad = some 0 ∧ ((admitting f).core 0).slots = []) ∧
      block8.vregs ≤ ((admitting 8).core 0).free ∧ 1 ≤ ((admitting 8).core 0).freeSlots ∧ (admitting 8).wave? 0 0 = none ∧
      ((admitting 7).core 0).free < block8.vregs) ∧
    (∀ d, ((stealing d).core 0).deque = [] ∧ 1 ≤ ((stealing d).core 0).freeSlots ∧ ((stealing d).core 0).lastSteal.elim True fun x => x + 64 ≤ (stealing d).cyc) ∧
      (1 < 1024 ∧ 1 ≠ 0 ∧ coreDie 1 = coreDie 0) ∧ ((stealing [1]).core 1).deque.getLast? = some 1 ∧ (stealing [1]).stealFits 0 1 = true ∧
      (∀ u x, StealsFirst 0 u 1 → ¬(((stealing [1]).core u).deque.getLast? = some x ∧ (stealing [1]).stealFits 0 x = true)) ∧
      ∀ v x, ¬(((stealing []).core v).deque.getLast? = some x ∧ (stealing []).stealFits 0 x = true) := by
  refine ⟨⟨rfl, by decide +kernel, fun j hj => ?_, ⟨wave1, rfl, by decide +kernel, .inl rfl, by decide +kernel⟩, rfl, rfl, rfl⟩,
    ⟨fun b => ⟨rfl, rfl, rfl, fun q h h8 => no_others q h h8⟩, rfl, rfl, by decide, by decide +kernel, by decide +kernel, ⟨rfl, .inl rfl⟩, by decide, ⟨rfl, .inl rfl⟩,
      by change 65600 ≤ (List.replicate 65600 9).length; rw [List.length_replicate]⟩,
    fun todo => ⟨rfl, rfl, rfl, rfl, by change 1 ≤ 32 - 0 - 0; decide, by change 1 * 8 ≤ 4096; decide, rfl, rfl, rfl, rfl, rfl,
      rfl, rfl, fun p hp hq => gang_queues p hp hq⟩,
    ⟨⟨by decide, by decide, by decide⟩, by decide⟩,
    ⟨fun f => ⟨rfl, rfl, rfl, rfl, rfl, rfl, rfl⟩, by decide, by decide, rfl, by decide⟩,
    fun d => ⟨rfl, by change 1 ≤ 32 - 0 - 0; decide, trivial⟩, by decide, rfl, by decide +kernel, fun u x hu h => ?_, fun v x h => ?_⟩
  · rintro ⟨w, hw, _⟩
    have : ∀ j, j < 7 → turning.wave? 0 (8 * 0 + (listGet 7 (turning.core 0).last 0 + 1 + j) % 8) = none := by decide +kernel
    rw [this j hj] at hw
    cases hw
  · have : u ≠ 1 := by
      rintro rfl
      revert hu
      unfold StealsFirst
      decide
    rw [deque_only u this] at h
    cases h.1
  · by_cases hv : v = 1
    · subst hv
      cases h.1
    · rw [deque_only v hv] at h
      cases h.1

/-! ## Witnesses: tokens, time limits, lost data, power -/

/-- Core 0 has asked for line 512 so often; its persistent request. -/
def asking (n : Nat) : State := { mapped with fails := [(512, 0, n)] }
def persisting : State := { mapped with preqs := [⟨512, 0, true, []⟩] }

/-- Core 3 has asked persistently, and core 0 been served since. -/
def waitingFor : State := { mapped with preqs := [⟨512, 3, true, [0]⟩] }

def parkedOn (c : ParkCond) : Wave := { wave1 with streams := [⟨1, 0, 0, false, .park c 8 false 0, 0, false, 0, [], none⟩] }
def staleAt (us : Nat) : State := { onWave (parkedOn (.ldv 10 5 false [] 0)) 1 with us := us }
def dueAt (cyc : Nat) : State := { onWave (parkedOn (.mwait 0x10000 (some 9) false)) 1 with cyc := cyc }
def sealed0 : State := { lane0 with sealed := [(512, 0)] }
/-- The core's L1 holds the line of an address. -/
def hitting : State := { lane0 with cores := [(0, { core0 wave1 with l1 := [(512, ⟨0, 0, 512, 15, false, 1, none, false, false⟩)] })] }
def fullRing : State := { mapped with slots := [(0, { ASlot.fresh 0x1000 true 0 with fltHead := 64 })] }
def losing : State := { fullRing with cores := [(0, { Core.init with deque := [1] })] }
def hotCore (temp : Nat) : State := { mapped with cores := [(0, { Core.init with temp := temp })] }

theorem walk_is {s : State} {va : Nat} {l x : Leaf} (h : s.walk 0 va = .leaf l) (hx : s.walk 0 va = .leaf x) : x = l :=
  WalkRes.leaf.inj (hx.symm.trans h)

theorem witness_TokensLossAndPower :
    ((∀ n, (asking n).backed (512 * 128) = true ∧ isExt (512 * 128) = false ∧
        (∀ h, ((asking n).core h).disabled = false ∧ ((asking n).core h).gated = false) ∧
        (asking n).sealedLine (512 * 128) = false ∧ (asking n).boot.mode ≠ 0) ∧ (asking 3).asked 0 512 < 4 ∧ (asking 4).asked 0 512 = 4 ∧
      (∀ r ∈ (asking 4).preqs, r.line = 512 → r.core ≠ 0) ∧ (asking 4).frameSlot (512 * 128 / 65536) = some 0 ∧
      persisting.frameSlot (512 * 128 / 65536) = some 0 ∧ (⟨512, 0, true, []⟩ : PReq) ∈ persisting.preqs ∧
      (∀ r ∈ persisting.preqs, r.line = 512 → r.core = 0 → r.write = true) ∧
      (∀ r ∈ persisting.preqs, r.line = 512 → mget 0 persisting.served 512 ≤ r.core → mget 0 persisting.served 512 ≤ 0 ∧ 0 ≤ r.core) ∧
      (∀ r ∈ persisting.preqs, r.line = 512 → 0 ≤ r.core) ∧ (∃ r ∈ waitingFor.preqs, r.line = 512 ∧ r.core ≠ 0 ∧ 0 ∈ r.served) ∧
      ¬∃ r ∈ (asking 4).preqs, r.line = 512 ∧ r.core ≠ 0 ∧ 0 ∈ r.served) ∧
    ((∀ us, (staleAt us).wave? 0 0 = some (parkedOn (.ldv 10 5 false [] 0))) ∧ 10 + 5 < (staleAt 16).us ∧ (staleAt 15).us ≤ 10 + 5 ∧
      (∀ cyc, (dueAt cyc).wave? 0 0 = some (parkedOn (.mwait 0x10000 (some 9) false))) ∧ 9 ≤ (dueAt 9).cyc ∧ (dueAt 8).cyc < 9 ∧
      2 ^ 57 ≤ (BitVec.ofNat 64 (2 ^ 57)).toNat ∧ lane0.walk 0 0x60000 = .fault 1 ∧ lane0.walk 0 0x50000 = .leaf leaf5 ∧ pteOff leaf5.pte ≠ 0 ∧
      (hitting.l1Hit 0 0 0x10000 .load).isSome = true ∧ lane0.l1Hit 0 0 0x60000 .load = none ∧
      (∀ e ∈ lane0.tablePath 0 0x60000, lane0.linePartials (e / 128) = []) ∧ foreign.walk 0 0x10000 = .leaf leaf1 ∧ (leafFault foreign 0 0x10000 .load leaf1).isSome = true ∧
      lane0.walk 0 0x10000 = .leaf leaf1 ∧ pteOff leaf1.pte = 0 ∧ leafFault lane0 0 0x10000 .load leaf1 = none ∧
      leafFault lane0 0 0x10000 .store leaf1 = none ∧ lane0.sealedLine (leaf1.pa 0x10000) = false ∧
      sealed0.walk 0 0x10000 = .leaf leaf1 ∧ sealed0.sealedLine (leaf1.pa 0x10000) = true ∧ lane0.walk 0 0x40000 = .leaf (pageLeaf 4 0) ∧
      (leafFault lane0 0 0x40000 .store (pageLeaf 4 0)).isSome = true ∧ (leafFault lane0 0 0x40000 .fetch (pageLeaf 4 0)).isSome = true) ∧
    (isExt 0x10000 = false ∧ fullRing.backed 0x20000 = true ∧ fullRing.poisoned 0x20000 = false ∧ fullRing.frameSlot (0x20000 / 65536) = some 0 ∧
      fullRing.frameSlot (0x10000 / 65536) = some 0 ∧ ∃ a, fullRing.slot? 0 = some a ∧ mapsVersioned fullRing.mem (0x10000 / 65536) 4 a.root = false ∧
        mapsVersioned fullRing.mem (0x20000 / 65536) 4 a.root = true ∧ fltFull a = true) ∧
    ((losing.core 0).disabled = false ∧ (losing.core 0).slots = [] ∧ (losing.core 0).pre = [] ∧ (losing.core 0).adm = [] ∧ (losing.core 0).log = [] ∧
      (losing.core 0).copies = [] ∧ (losing.core 0).partials = [] ∧ (losing.core 0).l1 = [] ∧ (losing.core 0).xp0.walk = none ∧
      (losing.core 0).xp1.walk = none ∧ losing.dist.gang = none ∧ NamedRecs losing ∧ (∀ k a, losing.slot? k = some a → fltFull a = true) ∧
      StandsIn (losing.modCore 0 fun c => { c with disabled := true }) 0 1) ∧
    (hotCore 105).hot = false ∧ 105 ≤ ((hotCore 105).core 0).temp ∧ (∀ c ∈ (hotCore 94).cores, c.2.temp < 95) ∧
      (∃ c ∈ (hotCore 95).cores, 95 ≤ c.2.temp) ∧ { mapped with mhz := 1749 }.mhz < 1750 ∧ 1000 < { mapped with mhz := 1001 }.mhz ∧ mapped.boot.mode = 1 := by
  refine ⟨⟨fun n => ⟨rfl, by decide, fun _ => ⟨rfl, rfl⟩, rfl, by change 1 ≠ 0; decide⟩, by decide, by decide, (fun _ h => nomatch h), by decide, by decide, by decide,
      by decide, by decide, by decide, by decide, by decide⟩,
    ⟨fun _ => rfl, by decide, by decide, fun _ => rfl, by decide, by decide, by decide, by decide +kernel, by decide +kernel, by decide,
      by decide +kernel, by decide +kernel, by decide +kernel, by decide +kernel,
      by decide +kernel, by decide +kernel, by decide, by decide +kernel, by decide +kernel, by decide, by decide +kernel, by decide, by decide +kernel,
      by decide +kernel, by decide +kernel⟩,
    ⟨by decide, by decide, by decide, by decide, by decide, ⟨_, rfl, by decide +kernel, by decide +kernel, by decide⟩⟩,
    ⟨rfl, rfl, rfl, rfl, rfl, rfl, rfl, rfl, rfl, rfl, rfl, named_of rfl, fun k a h => ?_, ⟨by decide +kernel, .inr ⟨by decide +kernel, by decide, .inl ⟨by decide, ?_⟩⟩⟩⟩,
    rfl, by decide, by decide, ⟨_, List.mem_singleton.mpr rfl, by decide⟩, by decide, by decide, rfl⟩
  · simp only [State.slot?, losing, fullRing, aget] at h
    split at h
    · cases h
      decide
    · cases h
  · intro e he _
    obtain rfl : e = 0 := by omega
    decide +kernel

/-! ## Witnesses: flows and links -/

/-- Packet of a number from device 5, on flow 3, which came by port 16; what the device knows of the flow, and what it has answered; an access of
flow 0 of the wave to a peer, or to the host; ports 16 and 17 are up. -/
def pkt (seq tslot : Nat) (req : RemReq) : RemPkt := ⟨5, 3, true, tslot, seq, 0x10018, false, req, if seq = 0 then none else some (seq - 1), 16⟩
def ports2 : List Port := List.replicate 16 Port.init ++ [{ Port.init with st := .up }, { Port.init with st := .up }]
def receiving (next : Nat) (answers : List (Nat × RemAns)) (held : List RemPkt) : State :=
  { mapped with robs := [⟨5, 3, next, [], held, answers⟩], comms := [(0, comm1)], ports := ports2 }
def accTo (pa : Nat) (req : RemReq) : FlowAcc :=
  ⟨4, .store, 1, 0, 0, 1, 0x50000, pa, req, false, true, 0, 0, 16, (BitVec.ofNat 64 (2 ^ 63 + 2 ^ 61), 0), (0, 1), true⟩
def peerPa : Nat := 2 ^ 51 + 2 ^ 50 + 7 * 2 ^ 40
def hostPa : Nat := 2 ^ 51 + 0x1000
def sendingAs (pa : Nat) (a : FlowAcc) : State :=
  { mapped with
    cores := [(0, core0 wave1)]
    slots := [(0, { ASlot.fresh 0x1000 true 0 with routes := [(7, (BitVec.ofNat 64 (2 ^ 63 + 2 ^ 61), 0))] })]
    flows := [⟨0, 0, 0, if pa = peerPa then 7 else 1024, 5, [a], [], []⟩]
    ports := ports2
    us := 2000001 }
def sending (pa : Nat) (req : RemReq) : State := sendingAs pa (accTo pa req)
def unsent : FlowAcc := { accTo peerPa (.store 8 1) with sent := false }
def retraining : State := { sending peerPa (.store 8 1) with ports := List.replicate 16 Port.init ++ List.replicate 2 { Port.init with st := .training 1 } }
def portState (p : Port) (us : Nat) : State := { mapped with ports := p :: List.replicate 17 Port.init, us := us }
def queryWave : Wave := { parkedOn (.flq 0 3) with unres := [⟨0x50000, 0, 0, 0, 0, 4, false, none⟩] }
def querying : State := { onWave queryWave 1 with us := 2000004 }

theorem witness_FlowsAndLinks :
    ((∀ n as ps, (receiving n as ps).boot.mode = 1 ∧ ((receiving n as ps).rob 5 3).held = ps ∧ (receiving n as ps).frameSlot (0x10018 / 65536) = some 0 ∧
        (receiving n as ps).backed 0x10018 = true ∧ (portAt (receiving n as ps) 16).st = .up ∧
        (portAt (receiving n as ps) 16).flits.2 + 1 < 2 ^ 48) ∧
      ((receiving 1 [(0, .done [])] []).rob 5 3).past 0 = true ∧
      ((receiving 1 [(0, .done [])] []).rob 5 3).answers.find? (fun x => x.1 == 0) = some (0, .done []) ∧ ((receiving 0 [] []).rob 5 3).past 1 = false ∧
      1 ≠ ((receiving 0 [] []).rob 5 3).next ∧ (pkt 1 0 (.load 8)).prev = some 0 ∧ ((receiving 0 [] []).rob 5 3).past 0 = false ∧
      (pkt 0 0 (.load 8)).prev = none ∧ 0 = ((receiving 0 [] []).rob 5 3).next ∧
      (aget (receiving 0 [] []).comms 0 = some comm1 ∧ 0 < comm1.n ∧ 0 ≠ comm1.rank) ∧
      (receiving 0 [] []).frameSlot (0x10018 / 65536) ≠ some (pkt 0 9 (.load 8)).tslot ∧ PlainSector (receiving 0 [] []) 0x10018 ∧
      (pkt 0 0 (.atomic .add false 1 0)).req = .atomic .add false 1 0 ∧ (1 : DWord).toNat < 2 ^ 32 ∧ (0 : DWord).toNat < 2 ^ 32) ∧
    ((∀ x ∈ [(peerPa, RemReq.store 8 1), (hostPa, .store 8 1), (hostPa, .load 8)],
        0 < (sending x.1 x.2).flows.length ∧ accTo x.1 x.2 ∈ ((sending x.1 x.2).flow 0).open' ∧
        (∀ y ∈ ((sending x.1 x.2).flow 0).open', y.seq = (accTo x.1 x.2).seq → y = accTo x.1 x.2) ∧ (sending x.1 x.2).wave? 0 0 = some wave1 ∧
        wave1.uid = (accTo x.1 x.2).uid ∧ (accTo x.1 x.2).uid ≠ 0 ∧ (accTo x.1 x.2).copy = 0 ∧ ((sending x.1 x.2).flow 0).turn (accTo x.1 x.2) = true ∧
        (accTo x.1 x.2).sent = true) ∧ unsent.sent = false ∧ unsent ∈ ((sendingAs peerPa unsent).flow 0).open' ∧
      extRoute peerPa ≠ 1024 ∧ extRoute hostPa = 1024 ∧ (accTo peerPa (.store 8 1)).first + 2000000 < (sending peerPa (.store 8 1)).us ∧
      (accTo peerPa (.store 8 1)).last + 200 < (sending peerPa (.store 8 1)).us ∧
      17 ∈ (sending peerPa (.store 8 1)).portsOf (accTo peerPa (.store 8 1)) ∧ 17 ≠ (accTo peerPa (.store 8 1)).port ∧
      (∀ t0, (portAt (sending peerPa (.store 8 1)) 16).st ≠ .training t0) ∧ (portAt retraining 16).st = .training 1 ∧
      (accTo hostPa (.store 8 1)).kind ≠ .load ∧ (sending hostPa (.load 8)).linksDown = false ∧
      { sending hostPa (.load 8) with links := [(true, false), (true, false)] }.linksDown = true) ∧
    ((∀ p us, portAt (portState p us) 0 = p) ∧ (portState { Port.init with st := .training 3 } 53).us ≤ 3 + 50 ∧
      3 + 50 < (portState { Port.init with st := .training 3 } 54).us ∧
      { Port.init with st := PortSt.up, fails := (7, 6) }.st = .up ∧ { Port.init with st := PortSt.up }.st ≠ .down ∧
      (∀ p us, AllSent (portState p us)) ∧ Port.init.flits.1 + 1 < 2 ^ 48) ∧
    (∀ p ∈ ((receiving 0 [] [pkt 1 0 (.load 8)]).rob 5 3).held, p.dev = 5 ∧ p.flow = 3 ∧ p.seq ≤ 1) ∧ querying.wave? 0 0 = some queryWave ∧ queryWave.streams = [⟨1, 0, 0, false, .park (.flq 0 3) 8 false 0, 0, false, 0, [], none⟩] ∧
      queryWave.unres[0]? = some ⟨0x50000, 0, 0, 0, 0, 4, false, none⟩ ∧ 3 + 2000000 < querying.us := by
  refine ⟨⟨fun n as ps => ⟨rfl, rfl, rfl, rfl, rfl, by change 0 + 1 < 2 ^ 48; decide⟩, by decide, rfl, by decide, by decide, rfl, by decide, rfl, by decide,
      ⟨rfl, by decide, by decide⟩, by decide, plain_of (by decide +kernel), rfl, by decide, by decide⟩,
    ⟨fun x hx => ?_, rfl, List.mem_singleton.mpr rfl, by decide, by decide, by decide, by decide, by decide +kernel, by decide, (fun t0 h => by
      have h' : PortSt.up = PortSt.training t0 := h
      cases h'), rfl, by decide, rfl, rfl⟩,
    ⟨fun _ _ => rfl, by decide, by decide, rfl, by decide, fun _ _ _ _ h => (by cases h), by decide⟩, by decide, rfl, rfl, rfl, by decide⟩
  simp only [List.mem_cons, List.not_mem_nil, or_false] at hx
  obtain rfl | rfl | rfl := hx <;>
    exact ⟨by decide, List.mem_singleton.mpr rfl, (fun y hy _ => List.mem_singleton.mp hy), rfl, rfl, by decide, rfl, by decide, rfl⟩

/-- The wave has a store in the side log, or an access to a peer under way; the transfer processor's barrier stands beside. -/
def behindLog : State := { lane0 with cores := [(0, { core0 wave1 with log := [logged1] })] }
def behindFlow : State := { lane0 with flows := [⟨0, 0, 0, 7, 5, [accTo peerPa (.store 8 1)], [], []⟩] }

theorem witness_CountedBarriers_waits :
    Runs behindLog 0 0 wave1 ∧ behindLog.active c0.guard ≠ 0 ∧
    (behindLog.core 0).lanesLog wave1.uid (behindLog.active c0.guard) = [logged1] ∧
    Runs behindFlow 0 0 wave1 ∧ behindFlow.active c0.guard ≠ 0 ∧ (behindFlow.core 0).lanesLog wave1.uid (behindFlow.active c0.guard) = [] ∧
    behindFlow.openRemote wave1.uid (behindFlow.active c0.guard) = true ∧
    ∀ wait, ((counting wait).core 0).lanesLog wave1.uid ((counting wait).active c0.guard) = [] :=
  ⟨⟨rfl, rfl, rfl, rfl, rfl, rfl, rfl, rfl, rfl, rfl, by decide, by decide⟩, by decide, by decide +kernel,
    ⟨rfl, rfl, rfl, rfl, rfl, rfl, rfl, rfl, rfl, rfl, by decide, by decide⟩, by decide, rfl, by decide +kernel, fun _ => rfl⟩

theorem witness_LaunchBarriers_waits :
    (∀ s ∈ [behindLog, behindFlow], Runs s 0 0 wave1 ∧ s.active c0.guard ≠ 0 ∧ aget s.launches 1 = some launch1 ∧
      (s.core 0).alloc 1 = some ⟨1, 0, 8, [], 1, 0⟩ ∧ (s.waves.map (·.2.uid)).Nodup) ∧
    Unsplit wave1 ∧ wave1.handler = none ∧ descOk launch1.blk (wave1.scal false 8) 0 = true ∧
    (behindLog.core 0).lanesLog wave1.uid fullMask = [logged1] ∧ (behindFlow.core 0).lanesLog wave1.uid fullMask = [] ∧
    behindFlow.openRemote wave1.uid fullMask = true ∧ (∀ n, ((arriving n).core 0).lanesLog wave1.uid fullMask = []) ∧
    (clashing.core 0).lanesLog waveCl.uid fullMask = [] := by
  refine ⟨fun s hs => ?_, (fun _ h => nomatch h), rfl, by decide +kernel, by decide +kernel, rfl, by decide +kernel, fun _ => rfl, rfl⟩
  simp only [List.mem_cons, List.not_mem_nil, or_false] at hs
  obtain rfl | rfl := hs <;>
    exact ⟨⟨rfl, rfl, rfl, rfl, rfl, rfl, rfl, rfl, rfl, rfl, by decide, by decide⟩, by decide, rfl, rfl, List.nodup_singleton _⟩

/-! ## Witnesses: the host -/

/-- Channel 0 holds a head; the record at 0x10000 that it names, with its block at 0x10080. -/
def recordMem (words : List (Nat × Nat)) : List Host.Cell := words.foldl (fun m x => wrNum m (0x10000 + x.1) 8 x.2) tables
def channelled (head slot : Nat) (words : List (Nat × Nat)) : State :=
  { mapped with
    mem := recordMem words
    chans := ⟨[head], true, true, slot, 0, false, 0, none, none⟩ :: List.replicate 31 Chan.init }
def goodRecord (prio : Nat) : List (Nat × Nat) :=
  [(8, 2 ^ 63), (16, 0x10080), (0x80, 0x10000), (0x88, prio * 2 ^ 58 + 2 ^ 42)]
def blockWords (s : State) (a : Nat) : List DWord := (List.range 8).map fun i => BitVec.ofNat 64 (rdNum s.mem (leaf1.pa (a + 8 * i)) 8)
def completing (record : Nat) : State := { mapped with roots := [(1, ⟨record, 0, 0, true, 0, 5⟩)] }
def headed (n : Nat) (slots : Map ASlot) : State :=
  { mapped with slots := slots, cores := [(0, { Core.init with xp0 := { XP.init with heads := List.replicate n ⟨0x10000, .none⟩ } })] }
def sealedState : State := { mapped with sealed := [(512, 0)] }

theorem witness_HostAccess :
    (mapped.boot.mode = 1 ∧ 0x1001F % 32 + [(1 : Byte)].length ≤ 32 ∧ mapped.hostSees 0x1001F = true ∧ PlainSector mapped 0x1001F ∧
      sealedState.hostSees 0x1001F = true ∧ sealedState.sealedLine 0x1001F = true ∧ mapped.hostSees (64 * 65536) = false ∧
      mapped.linePartials (0x1001F / 128) = []) ∧
    (((channelled 0x10000 0 []).chan 0).en = true ∧ ((channelled 0x10000 0 []).chan 0).heads.length < 4 ∧ (mapped.chan 0).en = false) ∧
    ((∀ h k ws, (channelled h k ws).boot.mode = 1 ∧ (channelled h k ws).ckpt = none ∧ ((channelled h k ws).chan 0).walk = none ∧
        ((channelled h k ws).chan 0).back = none ∧ ((channelled h k ws).chan 0).heads = h :: [] ∧ ∀ d, d < 32 → d ≠ 0 →
        ¬(((channelled h k ws).chan d).walk.isSome = true ∨ ((channelled h k ws).chan d).heads ≠ [])) ∧
      (channelled 0x10000 5 []).slot? 5 = none ∧ 0x10020 % 64 ≠ 0 ∧ (ASlot.fresh 0x1000 true 0).ending = false ∧
      (channelled 0x10000 0 []).slot? 0 = some (ASlot.fresh 0x1000 true 0) ∧ (Mapped (channelled 0x10000 0 []) 0 0 0x10000 64 .load fun _ => leaf1) ∧
      (Reaches (channelled 0x10000 0 []) 0 0x10008 8 .store leaf1 ∧ PlainSector (channelled 0x10000 0 []) (leaf1.pa 0x10008)) ∧
      bitN (rdNum (channelled 0x10000 0 []).mem (leaf1.pa 0x10008) 8) 63 = false ∧
      (∀ ws ∈ [[(8, 2 ^ 63), (0x28, 1)], [(8, 2 ^ 63), (0x10, 2 ^ 57)], [(8, 2 ^ 63), (0x10, 0x10080)], goodRecord 1, goodRecord 0],
        (Mapped (channelled 0x10000 0 ws) 0 0 0x10000 64 .load fun _ => leaf1) ∧ (Mapped (channelled 0x10000 0 ws) 0 0 0x10080 64 .load fun _ => leaf1) ∧
        (Reaches (channelled 0x10000 0 ws) 0 0x10008 8 .store leaf1 ∧ PlainSector (channelled 0x10000 0 ws) (leaf1.pa 0x10008)) ∧
        bitN (rdNum (channelled 0x10000 0 ws).mem (leaf1.pa 0x10008) 8) 63 = true) ∧
      blockBad (blockWords (channelled 0x10000 0 [(8, 2 ^ 63), (0x10, 0x10080)]) 0x10080) = true ∧
      (∀ p ∈ [0, 1], blockBad (blockWords (channelled 0x10000 0 (goodRecord p)) 0x10080) = false ∧
        (blockOf (blockWords (channelled 0x10000 0 (goodRecord p)) 0x10080)).prio = p)) ∧
    ((∀ a, aget (completing a).roots 1 = some ⟨a, 0, 0, true, 0, 5⟩) ∧
      (Reaches (completing 0x10000) 0 0x10018 8 .store leaf1 ∧ PlainSector (completing 0x10000) (leaf1.pa 0x10018)) ∧ FreshTlb (completing 0x10000) 0 0 ∧
      2 ^ 57 ≤ 2 ^ 57 - 0x18 + 0x18) ∧
    ¬(((headed 3 mapped.slots).core 0).disabled = true ∨ 4 ≤ ((headed 3 mapped.slots).xp 0 0).heads.length) ∧
      (∃ a, (headed 3 mapped.slots).slot? (headed 3 mapped.slots).xphSlot = some a ∧ a.ending = false) ∧ 4 ≤ ((headed 4 mapped.slots).xp 0 0).heads.length ∧
      (headed 3 []).slot? (headed 3 []).xphSlot = none := by
  refine ⟨⟨rfl, by decide, by decide, plain_of (by decide +kernel), by decide, by decide, by decide, by decide⟩, ⟨rfl, by decide, rfl⟩,
    ⟨fun h k ws => ⟨rfl, rfl, rfl, rfl, rfl, fun d hd h0 => ?_⟩, rfl, by decide, rfl, rfl, mapped_of rfl rfl (by decide +kernel),
      reach1 _ _ _ _ (by decide +kernel), by decide +kernel, fun ws hw => ?_, by decide +kernel, by decide +kernel⟩,
    ⟨fun _ => rfl, reach1 _ _ _ _ (by decide +kernel), fresh_of rfl rfl, by decide⟩, by decide, ⟨_, rfl, rfl⟩, by decide, rfl⟩
  · have : ∀ d, d < 32 → d ≠ 0 → listGet Chan.init ((⟨[h], true, true, k, 0, false, 0, none, none⟩ : Chan) :: List.replicate 31 Chan.init) d = Chan.init := by
      intro d hd h0
      obtain ⟨n, rfl⟩ := Nat.exists_eq_succ_of_ne_zero h0
      have : ∀ n, n < 31 → listGet Chan.init (List.replicate 31 Chan.init) n = Chan.init := by decide
      exact this n (by omega)
    simp only [State.chan, channelled, this d hd h0]
    decide
  · simp only [List.mem_cons, List.not_mem_nil, or_false] at hw
    obtain rfl | rfl | rfl | rfl | rfl := hw <;>
      exact ⟨mapped_of rfl rfl (by decide +kernel), mapped_of rfl rfl (by decide +kernel), reach1 _ _ _ _ (by decide +kernel), by decide +kernel⟩

/-- The mailbox holds arguments; no command runs. -/
def mailed (s : State) (args : List Nat) : State := { s with mb := ⟨none, 0, args.map (BitVec.ofNat 64) ++ List.replicate (8 - args.length) 0⟩ }
def noSlots : State := { mapped with slots := [], frames := [] }
def cut (s : State) : State := { s with links := [(true, false), (true, false)] }
def commArgs (w0 : Nat) : List Nat := [2 ^ 8, w0, 5 * 2 ^ 32 + 10 * 2 ^ 8, 0x10000, 0]
def routed (comms : Map Comm) : State :=
  { mapped with slots := [(0, { ASlot.fresh 0x1000 true 0 with routes := [(0, (2 ^ 63, 1))] })], comms := comms }
def calledOut (l : List Wave) : State := { mapped with cores := [(0, { Core.init with pre := l })] }
def pausing (s : State) : State := { s with ckpt := some (0x1000, 9), mb := ⟨some 6, 0, List.replicate 8 0⟩ }

/-- The command that ends slot 0 has been waiting for its done words. -/
def ending0 : State := { pausing mapped with ckpt := none, slots := [(0, { ASlot.fresh 0x1000 true 0 with ending := true })] }

theorem may_mailed {s : State} (a : List Nat) (h : s.boot.mode = 1) : MayCommand (mailed s a) := ⟨h, rfl⟩

theorem witness_MailboxCommands :
    ((∀ a, MayCommand (mailed mapped a) ∧ MayCommand (mailed noSlots a)) ∧ MayCommand (mailed (cut mapped) []) ∧
      (let a := [511, 0xBFFFFFF000, 1];
        (mailed noSlots a).arg 0 < 512 ∧ (mailed noSlots a).arg 2 < 2 ∧ (mailed noSlots a).restZero 3 = true ∧ (mailed noSlots a).arg 1 % 4096 = 0 ∧
        (mailed noSlots a).arg 1 < 0xC000000000 ∧ (mailed noSlots a).slot? 511 = none ∧ (mailed noSlots a).slots.length < 512) ∧
      (mailed mapped [0, 0x1000]).slot? 0 ≠ none ∧ (mailed mapped [0, 0x1000]).restZero 3 = true ∧ 0xC000000000 ≤ (mailed mapped [0, 0xC000000000]).arg 1 ∧
      (mailed mapped [0]).restZero 1 = true ∧ (mailed mapped [0]).slot? 0 ≠ none ∧ (mailed noSlots [0]).slot? 0 = none) ∧
    ((mailed mapped [0, 0xBFFFFF0000, 1]).arg 1 % 65536 = 0 ∧ 1 ≤ (mailed mapped [0, 0xBFFFFF0000, 1]).arg 2 ∧
      (mailed mapped [0, 0xBFFFFF0000, 1]).restZero 3 = true ∧
      (mailed mapped [0, 0xBFFFFF0000, 1]).arg 1 + 65536 * (mailed mapped [0, 0xBFFFFF0000, 1]).arg 2 ≤ 0xC000000000 ∧
      (∀ f ∈ (mailed mapped [0, 0xBFFFFF0000, 1]).frames, f.2.2 = 0) ∧
      0xC000000000 < (mailed mapped [0, 0xBFFFFF0000, 2]).arg 1 + 65536 * (mailed mapped [0, 0xBFFFFF0000, 2]).arg 2) ∧
    (bitsN ((mailed mapped [1023 * 65536, 1, 2]).arg 0) 15 9 = 0 ∧ bitsN ((mailed mapped [1023 * 65536, 1, 2]).arg 0) 63 26 = 0 ∧
      (mailed mapped [1023 * 65536, 1, 2]).slot? (bitsN ((mailed mapped [1023 * 65536, 1, 2]).arg 0) 8 0) ≠ none) ∧
    (bitsN ((mailed (routed []) (commArgs 0)).arg 0) 15 9 = 0 ∧ bitsN ((mailed (routed []) (commArgs 0)).arg 0) 63 25 = 0 ∧
      bitN ((mailed (routed []) (commArgs 0)).arg 0) 8 = true ∧ (mailed (routed []) (commArgs 0)).restZero 6 = true ∧ commBad 0 0 0 = true ∧
      commBad (2 ^ 63 + 2 ^ 45 + 2 ^ 33) (5 * 2 ^ 32 + 10 * 2 ^ 8) 0 = false ∧ aget (routed [(0, comm1)]).comms 0 ≠ none ∧ aget (routed []).comms 0 = none ∧
      (routed []).comms.foldl (fun m c => m + c.2.n) 2 ≤ 4096 ∧ (routed []).slot? 0 ≠ none ∧
      (Mapped (mailed (routed []) (commArgs (2 ^ 63 + 2 ^ 45 + 2 ^ 33))) 0 0 0x10000 (2 * 2) .load fun _ => leaf1) ∧
      (∀ i, i < 2 → i ≠ 1 → routeOk ((routed []).route 0 0) = true) ∧ bitN ((mailed mapped [0]).arg 0) 8 = false) ∧
    ((mailed mapped [0x1000, 9]).arg 0 % 4096 = 0 ∧ (mailed mapped [0x1000, 9]).restZero 5 = true ∧ (mailed mapped [0x1000, 9]).linksDown = false ∧
      (mailed (cut mapped) [0x1000]).linksDown = true ∧ mapped.slots ≠ [] ∧ noSlots.slots = [] ∧
      (mailed noSlots [0x1000, 9]).linksDown = false ∧ (mailed noSlots [0x1000, 9]).restZero 5 = true ∧ (mailed noSlots [0x1000, 9]).lehrKey = 9) ∧
    ((mailed mapped [0x2000, 0x3000]).restZero 2 = true ∧ bitsN ((mailed mapped [0, 0, 0x3000]).arg 0) 15 10 = 0 ∧
      bitsN ((mailed mapped [0, 0, 0x3000]).arg 0) 63 21 = 0 ∧ (mailed mapped [0, 0, 0x3000]).restZero 3 = true ∧
      (∀ l, ((mailed (calledOut l) [0, 0, 0x3000]).core 0).slots = []) ∧
      ((mailed (calledOut [wave1]) [0, 0, 0x3000]).core 0).pre.find? (fun w => w.stamp == 0 && w.wix == bitsN 0 20 16) = some wave1 ∧
      wave1.cbuf.length ≤ 1280 ∧ (mailed noSlots [4095]).arg 0 < 4096 ∧ (mailed noSlots [4095]).restZero 1 = true ∧ noSlots.slots = [] ∧ 0x0B < (0x0C : Word).toNat) ∧
    (ending0.endingSlot = some 0 ∧ (∀ a, (mailed mapped a).endingSlot = none ∧ (mailed noSlots a).endingSlot = none ∧
      (mailed (cut mapped) a).endingSlot = none ∧ (mailed (routed []) a).endingSlot = none) ∧ (mailed mapped [0]).roots = []) ∧
    ((pausing mapped).boot.mode ≠ 0 ∧ (pausing mapped).mb.cmd = some 6 ∧ (pausing mapped).endingSlot = none) ∧
    (let s := { mapped with boot := ⟨3, 3, 1, 1, 0⟩ };
      s.boot.mode = 3 ∧ s.mb.cmd = none ∧ s.endingSlot = none ∧ s.restZero 2 = true) ∧
    ((pausing mapped).ckpt = some (0x1000, 9) ∧ (pausing (cut mapped)).ckpt = some (0x1000, 9) ∧ (pausing (cut mapped)).linksDown = true ∧
      (pausing mapped).linksDown = false ∧ (pausing mapped).quiet = true) ∧
    State.reset.boot.mode = 0 ∧ 2 ≤ { State.reset with boot := ⟨0, 2, 0, 0, 0⟩ }.boot.fails := by
  refine ⟨⟨fun _ => ⟨may_mailed _ rfl, may_mailed _ rfl⟩, may_mailed _ rfl, by decide, by decide, by decide, by decide, by decide, by decide, by decide⟩, by decide,
    by decide, ⟨by decide, by decide, by decide, by decide, by decide, by decide, by decide, by decide, by decide, by decide,
      mapped_of rfl rfl (by decide +kernel), by decide +kernel, by decide⟩, ⟨by decide, by decide, rfl, rfl, by decide, rfl, rfl, by decide, by decide⟩,
    ⟨by decide, by decide, by decide, by decide, fun _ => rfl, by decide, by decide, by decide, by decide, rfl, by decide⟩, ⟨rfl, fun _ => ⟨rfl, rfl, rfl, rfl⟩, rfl⟩, ⟨by decide, rfl, rfl⟩,
    ⟨rfl, rfl, rfl, by decide⟩, ⟨rfl, rfl, rfl, rfl, by decide⟩, rfl, by decide⟩

/-! ## Witnesses: encoding, step, memory -/

theorem witness_DecodeEncode : (Instr.add c0 true (.scal 6 8 10)).wf .core = true ∧ (Instr.xferG .g .l 4 6 8 9 3 1023).wf .xp = true := by decide

/-- The wave stands at 0x1001C, the last word of a fetch block; memory holds a `nop` there, or an illegal word. -/
def runAt : Stream := ⟨1, 0, 0, false, .run, 0, false, 2, [], none⟩
def waveF : Wave := { wave1 with pcs := List.replicate 32 0x10018, d := 8, streams := [runAt] }
def grant0 : Grant := ⟨0, 1⟩
def fetching (w : Nat) : State :=
  { mapped with
    mem := wrNum tables 0x10018 8 w
    cores := [(0, { core0 waveF with grants := [some grant0, none, none, none], xp0 := { xp1 with pc := 8, store := wrNum [] 8 8 w } })]
    tape := [⟨1, .wave 0 0⟩, ⟨0, .xp 0 0⟩] }
def xpFetching (w : Nat) : State := { fetching w with tape := [⟨0, .xp 0 0⟩] }

theorem atFetch_of (w : Nat) (h : (decide ((fetching w).walk 0 0x10018 = .leaf leaf1) && decide (leafFault (fetching w) 0 0x10018 .fetch leaf1 = none) &&
      decide (rdNum (fetching w).mem leaf1.ent 8 ||| 2 ^ 57 ||| 0 = rdNum (fetching w).mem leaf1.ent 8)) = true) :
    AtFetch (fetching w) 0 grant0 waveF runAt leaf1 := by
  simp only [Bool.and_eq_true, decide_eq_true_eq] at h
  have hp : waveF.pc (lowLane runAt.lanes) = 0x10018 := by decide
  have : PlainSector (fetching w) (leaf1.pa 0x10018) := ⟨by decide, rfl, rfl, rfl⟩
  refine ⟨rfl, rfl, rfl, by decide, rfl, ⟨rfl, rfl⟩, by decide, by decide, ?_, fresh_of rfl rfl, by rw [hp]; exact this, .inr fun _ h => nomatch h⟩
  rw [hp]
  exact ⟨by decide, by decide, h.1.1, h.1.2, by decide, h.2⟩

theorem witness_StepRunsDecoded :
    (∀ w ∈ [2 ^ 4, 3], AtFetch (fetching w) 0 grant0 waveF runAt leaf1) ∧
    (∃ e, decodeWord (waveF.decCtx runAt 0x10018) (blockWord (rdBytes (fetching (2 ^ 4)).mem (addrBlock (leaf1.pa 0x10018)) 32) (0x10018 % 32)) = .ok e ∧
      e.instr = .nop 0 false) ∧
    decodeWord (waveF.decCtx runAt 0x10018) (blockWord (rdBytes (fetching 3).mem (addrBlock (leaf1.pa 0x10018)) 32) (0x10018 % 32)) = .error 0x01 ∧
    (fetching 3).tape = ⟨1, .wave 0 (grant0.slot / 8)⟩ :: [⟨0, .xp 0 0⟩] ∧ NamedRecs (fetching 3) ∧ Unsplit waveF ∧
    (∀ w, (xpFetching w).tape = ⟨0, .xp 0 0⟩ :: [] ∧ ((xpFetching w).xp 0 0).st = .running ∧ ((xpFetching w).core 0).disabled = false ∧
      ((xpFetching w).core 0).gated = false) ∧
    (∃ e, decodeWord ⟨.xp, 8, false, 256, 15, false⟩ (blockWord (rdBytes ((xpFetching (2 ^ 4)).xp 0 0).store (addrBlock 8) 32) 8) = .ok e ∧
      e.instr = .nop 0 false) ∧
    decodeWord ⟨.xp, 8, false, 256, 15, false⟩ (blockWord (rdBytes ((xpFetching 3).xp 0 0).store (addrBlock 8) 32) 8) = .error 0x01 := by
  refine ⟨fun w hw => ?_, ?_, ?_, rfl, named_of rfl, ?_, fun _ => ⟨rfl, rfl, rfl, rfl⟩, ?_, ?_⟩
  · simp only [List.mem_cons, List.not_mem_nil, or_false] at hw
    obtain rfl | rfl := hw <;> exact atFetch_of _ (by decide +kernel)
  · rw [show blockWord (rdBytes (fetching (2 ^ 4)).mem (addrBlock (leaf1.pa 0x10018)) 32) (0x10018 % 32) = 16 from by decide +kernel]
    exact ⟨_, rfl, rfl⟩
  · rw [show blockWord (rdBytes (fetching 3).mem (addrBlock (leaf1.pa 0x10018)) 32) (0x10018 % 32) = 3 from by decide +kernel]
    rfl
  · intro t ht
    rw [List.mem_singleton.mp ht]
    exact ⟨rfl, fun _ _ h => nomatch h⟩
  · rw [show blockWord (rdBytes ((xpFetching (2 ^ 4)).xp 0 0).store (addrBlock 8) 32) 8 = 16 from by decide +kernel]
    exact ⟨_, rfl, rfl⟩
  · rw [show blockWord (rdBytes ((xpFetching 3).xp 0 0).store (addrBlock 8) 32) 8 = 3 from by decide +kernel]
    rfl

/-- A host write through BAR2 changes memory. -/
def writing : State := { mapped with mem := [], tape := [⟨1, .event (.hostBar2Access 0x10000 (some [1]) 0)⟩] }
theorem witness_MemoryStaysCanonical : Canonical writing ∧ ∃ t, step writing = .next t ∧ rdByte t.mem 0x10000 = 1 :=
  ⟨⟨rfl, rfl, fun _ h => nomatch h⟩, ⟨_, rfl, by decide +kernel⟩⟩

end Sys2Proof.Tests
end

namespace Sys2Proof

/-! # The decoder: its laws on bytes and words, and the words that the manual writes out -/

/-! ## Bytes and words (R4) -/

@[simp] theorem length_toBytes (n x : Nat) : (toBytes n x).length = n := by
  induction n generalizing x with
  | zero => rfl
  | succ n ih => simp [toBytes, ih]

@[simp] theorem ofBytes_toBytes (n x : Nat) : ofBytes (toBytes n x) = x % 256 ^ n := by
  induction n generalizing x with
  | zero => simp [toBytes, ofBytes, Nat.mod_one]
  | succ n ih =>
    have low : (BitVec.ofNat 8 x).toNat = x % 256 := BitVec.toNat_ofNat x 8
    rw [toBytes, ofBytes, ih, low, Nat.pow_succ', Nat.mod_mul]

/-! ## The decoder (R157, R174) -/

/-- The byte decoder answers what the word decoder answers, where the bytes hold the whole word with the length that its length code
names. -/
theorem decode_toBytes (u : UnitK) (n x : Nat)
    (h : n ≤ 16 ∧ x < 256 ^ n ∧ lenBytes ((BitVec.ofNat 128 x).extractLsb' 0 2) ≤ n) :
    decode u (toBytes n x) =
      (decodeWord (DecCtx.free u) (BitVec.ofNat 128 x)).map fun e => (e.instr, lenBytes ((BitVec.ofNat 128 x).extractLsb' 0 2)) := by
  obtain ⟨hn, hx, hl⟩ := h
  have whole : (toBytes n x).take 16 = toBytes n x := List.take_of_length_le (by simpa using hn)
  have word : ofBytes (toBytes n x) = x := by rw [ofBytes_toBytes, Nat.mod_eq_of_lt hx]
  simp only [decode, whole, word, length_toBytes]
  cases decodeWord (DecCtx.free u) (BitVec.ofNat 128 x) with
  | error c => rfl
  | ok e => exact if_neg (Nat.not_lt.mpr hl)

/-- R174: the reserved length code is the first cause, whatever the rest of the word. -/
theorem decodeWord_reservedLength (x : DecCtx) (w : BitVec 128) (hl : w.extractLsb' 0 2 = (3 : BitVec 2)) :
    decodeWord x w = .error 0x01 := by
  simp [decodeWord, hl]

/-- R159: the opcode stands in the first word, which every length keeps. -/
theorem opcode_setWidth (w : BitVec 128) (n : Nat) (hn : 13 ≤ n) :
    ((w.setWidth n).setWidth 128).extractLsb' 4 9 = w.extractLsb' 4 9 := by
  ext i hi
  have inside : 4 + i < n := by omega
  have below : 4 + i < 128 := by omega
  simp [inside, below]

/-- R174: an opcode that has no format is the next cause after the length code and the fetch block, whatever the other fields. -/
theorem decodeWord_unassigned (x : DecCtx) (w : BitVec 128) (hl : w.extractLsb' 0 2 ≠ (3 : BitVec 2))
    (hp : x.pc % 32 + lenBytes (w.extractLsb' 0 2) ≤ 32) (h : opFormat (w.extractLsb' 4 9).toNat = none) :
    decodeWord x w = .error 0x03 := by
  have opcode : ∀ b c : Bool, ((if b then (w.setWidth 64).setWidth 128 else if c then (w.setWidth 96).setWidth 128 else w)
      |>.extractLsb' 4 9) = w.extractLsb' 4 9 := by
    intro b c
    cases b
    · cases c
      · rfl
      · exact opcode_setWidth w 96 (by decide)
    · exact opcode_setWidth w 64 (by decide)
  unfold decodeWord
  dsimp only
  rw [if_neg (by simpa using hl), if_neg (Nat.not_lt.mpr hp), opcode, h]

/-! ## Words of the manual -/

/-- Settles O57: the byte decoder comes down to the word decoder, which is evaluated on each word; the two refusals that do not turn on
the word's other fields follow from the laws of the first causes. -/
theorem decodedWords : Obligations.DecodedWords := by
  unfold Obligations.DecodedWords
  refine ⟨?nop, ?add, ?sub, ?br, ?xhalt, ?otherUnit, ?reservedLength, ?unassigned⟩
  case nop => rw [decode_toBytes .core 8 _ (by decide)]; rfl
  case add => rw [decode_toBytes .core 8 _ (by decide)]; rfl
  case sub => rw [decode_toBytes .core 8 _ (by decide)]; rfl
  case br => rw [decode_toBytes .core 12 _ (by decide)]; rfl
  case xhalt => rw [decode_toBytes .xp 8 _ (by decide)]; rfl
  case otherUnit => rw [decode_toBytes .core 8 _ (by decide)]; rfl
  case reservedLength =>
    rw [decode_toBytes .core 8 _ (by decide), decodeWord_reservedLength _ _ (by decide)]
    rfl
  case unassigned =>
    rw [decode_toBytes .core 8 _ (by decide), decodeWord_unassigned _ _ (by decide) (by decide) (by decide)]
    rfl

end Sys2Proof

namespace Sys2Proof.Machine
open Sys2Proof Sys2Proof.Claim

/-! # System registers -/

/-! ## What writing a fault record leaves (R361)

The part writes records on its own behalf: it may move tokens and leaves, set bits of table entries, wake a wave that waits for memory and
send accesses, but it touches neither the instruction in execution nor the registers of a wave or slot. -/

/-- `u` is `w` but for runs that a write to memory has woken (R268). -/
structure Woken (w u : Wave) : Prop where
  same    : { u with streams := w.streams } = w
  unsplit : Unsplit w → Unsplit u

theorem Woken.refl (w : Wave) : Woken w w := ⟨rfl, id⟩

theorem Woken.trans {a b c : Wave} (h : Woken a b) (k : Woken b c) : Woken a c :=
  ⟨(congrArg (fun b : Wave => { b with streams := a.streams }) k.same).trans h.same, fun u => k.unsplit (h.unsplit u)⟩

theorem Woken.sameWave {w u : Wave} (h : Woken w u) : SameWave w u := by
  obtain ⟨same, -⟩ := h
  cases w; cases u
  simp only [Wave.mk.injEq] at same
  refine ⟨?_, fun n l _ => .inl ?_, fun k => .inl ?_⟩ <;> simp_all [Wave.latch]

theorem wentOn_of_woken {fo : Focus} {w u x : Wave} {rbf : Bool} {dest : Nat → Nat} (h : Woken w u) (k : WentOn fo u x rbf dest) :
    WentOn fo w x rbf dest := by
  have pc : u.pc = w.pc := by rw [← h.same]; rfl
  have latch : u.latch = w.latch := by rw [← h.same]; rfl
  have stage : u.stage = w.stage := by rw [← h.same]
  refine ⟨sameWave_trans h.sameWave k.same, fun un l hl => ?_, fun un n l hl => ?_, fun un l x hl hx => ?_⟩
  · rw [k.pcs (h.unsplit un) l hl, pc]
  · rw [k.latches (h.unsplit un) n l hl, latch]
  · rw [k.stage (h.unsplit un) l x hl hx, stage]

theorem wakeStream_keeps (pa n : Nat) (t : Stream) :
    (wakeStream pa n t).grp = t.grp ∧ ((∀ l r, t.st ≠ .join l r) → ∀ l r, (wakeStream pa n t).st ≠ .join l r) := by
  unfold wakeStream
  split
  · split
    · exact ⟨rfl, fun _ _ _ => nofun⟩
    · exact ⟨rfl, id⟩
  · exact ⟨rfl, id⟩

theorem woken_wake (pa n : Nat) (w : Wave) : Woken w { w with streams := w.streams.map (wakeStream pa n) } := by
  refine ⟨rfl, fun unsplit t ht => ?_⟩
  obtain ⟨x, hx, rfl⟩ := List.mem_map.mp ht
  obtain ⟨grp, st⟩ := wakeStream_keeps pa n x
  exact ⟨grp.trans (unsplit x hx).1, st (unsplit x hx).2⟩

/-- A slot but for the head of its ring. -/
def headless (a : ASlot) : ASlot := { a with fltHead := 0 }

/-- What a step that writes records leaves: the instruction in execution, every wave but for runs that wake, every slot but for the head of
its ring. -/
structure RecordStep (s t : State) : Prop where
  focus : t.focus = s.focus
  waves : ∀ i k w, s.wave? i k = some w → ∃ u, t.wave? i k = some u ∧ Woken w u
  slots : ∀ k, (t.slot? k).map headless = (s.slot? k).map headless

theorem RecordStep.trans {a b c : State} (h : RecordStep a b) (k : RecordStep b c) : RecordStep a c := by
  refine ⟨k.focus.trans h.focus, fun i j w hw => ?_, fun j => (k.slots j).trans (h.slots j)⟩
  obtain ⟨u, hu, wu⟩ := h.waves i j w hw
  obtain ⟨v, hv, uv⟩ := k.waves i j u hu
  exact ⟨v, hv, wu.trans uv⟩

/-- A change of other parts of the state. -/
theorem RecordStep.of_eq {s t : State} (hf : t.focus = s.focus) (hw : ∀ i k, t.wave? i k = s.wave? i k) (hs : t.slots = s.slots) :
    RecordStep s t :=
  ⟨hf, fun i k w h => ⟨w, (hw i k).trans h, .refl w⟩, fun k => by simp only [State.slot?, hs]⟩

theorem RecordStep.refl (s : State) : RecordStep s s := .of_eq rfl (fun _ _ => rfl) rfl

theorem RecordStep.of_read {s t : State} (h : ReadStep s t) : RecordStep s t := .of_eq h.focus h.wave h.slots

/-- A change of a core that keeps its waves. -/
theorem modCore_record (s : State) (i : Nat) (f : Core → Core) (h : (f (s.core i)).slots = (s.core i).slots) : RecordStep s (s.modCore i f) :=
  .of_eq rfl (fun j k => wave_modCore s i j k f h) rfl

theorem slots_setXp (c : Core) (x : Nat) (p : XP) : (c.setXp x p).slots = c.slots := by unfold Core.setXp; split <;> rfl

theorem wave_modXp (s : State) (i x : Nat) (f : XP → XP) (j k : Nat) : (s.modXp i x f).wave? j k = s.wave? j k :=
  wave_modCore s i j k _ (slots_setXp _ _ _)

theorem modXp_record (s : State) (i x : Nat) (f : XP → XP) : RecordStep s (s.modXp i x f) := .of_eq rfl (wave_modXp s i x f) rfl

theorem modRec_record (s : State) (id : Nat) (f : FRec → FRec) : RecordStep s (s.modRec id f) := .of_eq rfl (fun _ _ => rfl) rfl

theorem foldl_record {α : Type} (f : State → α → State) (h : ∀ s x, RecordStep s (f s x)) (l : List α) (s : State) :
    RecordStep s (l.foldl f s) :=
  Laws.foldl_keeps (RecordStep s) f (fun _ x k => k.trans (h _ x)) l s (.refl s)

theorem iterate_record (f : State → State) (h : ∀ s, RecordStep s (f s)) (n : Nat) (s : State) : RecordStep s (iterate f n s) := by
  induction n generalizing s with
  | zero => exact .refl s
  | succ n ih => exact (h s).trans (ih (f s))

/-! ### Bytes, entries and leaves -/

theorem wrMem_record (s : State) (pa : Nat) (bs : List Byte) : RecordStep s (s.wrMem pa bs) := by
  refine ⟨rfl, fun i k w h => ?_, fun _ => rfl⟩
  refine ⟨_, ?_, woken_wake pa bs.length w⟩
  have wake := wave_mapWaves { s with mem := wrBytes s.mem pa bs, recs := s.recs.map (FRec.observe (wrBytes s.mem pa bs) pa bs.length) }
    (fun _ w => { w with streams := w.streams.map (wakeStream pa bs.length) }) i k
  exact wake.trans (congrArg _ h)

theorem dropPartials_record (s : State) (line : Nat) :
    RecordStep s (s.mapCores fun _ c => { c with partials := c.partials.filter fun p => p.pa / 128 != line }) := by
  refine .of_eq rfl (fun i k => ?_) rfl
  have h := aget_map (fun _ (c : Core) => { c with partials := c.partials.filter fun p => p.pa / 128 != line }) s.cores i
  have e : ((s.mapCores fun _ c => { c with partials := c.partials.filter fun p => p.pa / 128 != line }).core i).slots = (s.core i).slots := by
    simp only [State.core, State.mapCores, h]
    cases aget s.cores i <;> rfl
  exact congrArg (fun m => aget m k) e

theorem combine_record (s : State) (pa : Nat) : RecordStep s (s.combine pa) := by
  unfold State.combine
  dsimp only
  split
  · exact .refl s
  · exact ((dropPartials_record s _).trans (.of_read (dropLine_step _ _))).trans (foldl_record _ (fun s _ => wrMem_record s _ _) _ _)

theorem physStore_record (s : State) (pa : Nat) (bs : List Byte) : RecordStep s (s.physStore pa bs) := by
  unfold State.physStore
  dsimp only
  refine (combine_record s pa).trans (.trans ?_ (wrMem_record _ pa bs))
  split
  · exact .of_eq rfl (fun _ _ => rfl) rfl
  · exact .refl _

theorem setUsed_record (s : State) (k : AKind) (l : Leaf) : RecordStep s (s.setUsed k l) := by
  unfold State.setUsed
  dsimp only
  split
  · exact combine_record s _
  · exact (combine_record s _).trans ((RecordStep.of_read (tokHome_step _ _)).trans ((combine_record _ _).trans (physStore_record _ _ _)))

theorem pickOld_record (s : State) (es : List TlbEnt) : RecordStep s (s.pickOld es).1 := by
  induction es generalizing s with
  | nil => exact .refl s
  | cons e es ih =>
    have draw : RecordStep s s.draw.2 := .of_eq rfl (fun _ _ => rfl) rfl
    unfold State.pickOld
    split
    next old s' hd =>
    rw [hd] at draw
    split
    · exact draw
    · exact draw.trans (ih s')

theorem combineTables_record (s : State) (aslot va : Nat) : RecordStep s (s.combineTables aslot va) := by
  have passes (n : Nat) : RecordStep s (iterate (fun s => (s.tablePath aslot va).foldl State.combine s) n s) :=
    iterate_record _ (fun s => foldl_record State.combine combine_record _ s) n s
  have first := passes 5
  unfold State.combineTables
  generalize iterate _ 5 s = t at first ⊢
  exact first.trans (foldl_record State.homeToken (fun s e => .of_read (homeToken_tokens s e).step) _ t)

theorem modCluster_record (s : State) (i : Nat) (f : Cluster → Cluster) : RecordStep s (s.modCluster i f) :=
  .of_eq rfl (fun _ _ => rfl) rfl

theorem walkIn_record (s : State) (cl aslot va : Nat) : RecordStep s (s.walkIn cl aslot va).1 := by
  have tables := combineTables_record s aslot va
  unfold State.walkIn
  generalize s.combineTables aslot va = t at tables ⊢
  dsimp only
  split
  · dsimp only
    exact tables.trans (modCluster_record t _ _)
  · exact tables

theorem lookup_record (s : State) (core aslot va : Nat) : RecordStep s (s.lookup core aslot va).1 := by
  unfold State.lookup
  dsimp only
  have pick := pickOld_record s (((s.cluster (coreCluster core)).tlb.filter fun e => e.covers aslot (s.genOf aslot) va).filter
    fun e => !e.same (s.walk aslot va))
  split
  · next hp => rw [hp] at pick; exact pick
  · next hp =>
    rw [hp] at pick
    split
    · exact pick
    · exact pick.trans (walkIn_record _ _ _ _)

theorem translate_record (s : State) (core aslot va : Nat) (k : AKind) : RecordStep s (s.translate core aslot va k).1 := by
  have look := lookup_record s core aslot va
  unfold State.translate
  split
  next s' r hr =>
  rw [hr] at look
  dsimp only
  split
  · exact look
  · split
    · exact look
    · split
      · exact look
      · split
        · exact look
        · exact look.trans (setUsed_record _ _ _)

/-! ### Flows and events -/

theorem modFlow_record (s : State) (i : Nat) (f : Flow → Flow) : RecordStep s (s.modFlow i f) := .of_eq rfl (fun _ _ => rfl) rfl

theorem forget_record (s : State) (l : List (Nat × Nat × Nat × Nat)) : RecordStep s (s.forget l) :=
  foldl_record _ (fun s _ => modFlow_record s _ _) l s

theorem flits_record (s : State) (port : Nat) (dir : Bool) (n : Nat) (good : Bool) : RecordStep s (s.flits port dir n good) := by
  unfold State.flits
  dsimp only
  split
  · exact .refl s
  · split <;> exact .of_eq rfl (fun _ _ => rfl) rfl

theorem transmit_record (s : State) (flow : Nat) (a : FlowAcc) : RecordStep s (s.transmit flow a) := by
  unfold State.transmit
  split
  · exact .refl s
  · exact RecordStep.trans (b := s.send _) (.of_eq rfl (fun _ _ => rfl) rfl) (flits_record _ _ _ _ _)

theorem enterFlow_record (s : State) (i : Nat) (e : DWord × DWord) (a : FlowAcc) : RecordStep s (s.enterFlow i e a) := by
  unfold State.enterFlow
  exact (modFlow_record s i _).trans (transmit_record _ _ _)

theorem flowOf_record (s : State) (core unit aslot route : Nat) : RecordStep s (s.flowOf core unit aslot route).1 := by
  unfold State.flowOf
  split
  · exact .refl s
  · exact .of_eq rfl (fun _ _ => rfl) rfl

theorem issue_record (s : State) (core unit aslot : Nat) (a : FlowAcc) : RecordStep s (s.issue core unit aslot a).1 := by
  unfold State.issue
  extract_lets r e
  have flow := flowOf_record s core unit (if r == 1024 then 0 else aslot) r
  split
  · exact .refl s
  · generalize s.flowOf core unit (if r == 1024 then 0 else aslot) r = x at flow ⊢
    dsimp only
    split
    · exact flow
    · exact flow.trans (enterFlow_record _ _ _ _)

theorem devEvent_record (s : State) (code core slot : Nat) (detail : List Nat) : RecordStep s (s.devEvent code core slot detail) := by
  unfold State.devEvent
  dsimp only
  split <;> exact .of_eq rfl (fun _ _ => rfl) rfl

/-! ### Records -/

theorem vecEntry_record (s : State) (r : FRec) (a : ASlot) : RecordStep s (s.vecEntry r a).1 := by
  unfold State.vecEntry
  split
  · exact .refl s
  split
  · split <;> exact .refl s
  have tr := translate_record s r.core r.aslot (bitsN a.trapVec.toNat 56 9 * 512 + 8 * r.kind) .load
  split
  · next s1 x ht =>
    rw [ht] at tr
    split
    · have iss := issue_record s1 r.core 0 r.aslot (.own .load x.pa (.load 8) false true)
      split
      · next hi => rw [hi] at iss; exact (tr.trans iss).trans (modRec_record _ _ _)
      · next hi => rw [hi] at iss; exact tr.trans iss
      · next hi => rw [hi] at iss; exact tr.trans iss
    · split
      · exact tr
      · exact tr.trans ((RecordStep.of_read (homeToken_tokens _ _).step).trans (combine_record _ _))
  · next ht => rw [ht] at tr; exact tr
  · next ht => rw [ht] at tr; exact tr

theorem vector_record (s : State) (r : FRec) (va e : Nat) : RecordStep s (s.vector r va e) := by
  unfold State.vector
  split
  · exact .refl s
  · exact modCore_record s r.core _ rfl

theorem xpRecorded_record (s : State) (r : FRec) : RecordStep s (s.xpRecorded r) := by
  unfold State.xpRecorded
  split
  · exact modXp_record _ _ _ _
  · exact .refl s

theorem badRec_record (s : State) (r : FRec) : RecordStep s (s.badRec r) :=
  ((modRec_record s _ _).trans (xpRecorded_record _ r)).trans (devEvent_record _ _ _ _ _)

theorem slot_modSlot (s : State) (k j : Nat) (f : ASlot → ASlot) :
    (s.modSlot k f).slot? j = if j = k then (s.slot? k).map f else s.slot? j := by
  unfold State.modSlot State.slot?
  cases h : aget s.slots k with
  | some a => simp
  | none => by_cases e : j = k <;> simp [e, h]

theorem wave_modSlot (s : State) (k : Nat) (f : ASlot → ASlot) (i j : Nat) : (s.modSlot k f).wave? i j = s.wave? i j := by
  unfold State.modSlot; split <;> rfl

theorem focus_modSlot (s : State) (k : Nat) (f : ASlot → ASlot) : (s.modSlot k f).focus = s.focus := by
  unfold State.modSlot; split <;> rfl

theorem raiseHead_record (s : State) (k : Nat) (f : Nat → Nat) : RecordStep s (s.modSlot k fun a => { a with fltHead := f a.fltHead }) := by
  refine ⟨focus_modSlot _ _ _, fun i j w h => ⟨w, (wave_modSlot _ _ _ i j).trans h, .refl w⟩, fun j => ?_⟩
  rw [slot_modSlot]
  split
  · next e => subst e; cases s.slot? j <;> rfl
  · rfl

theorem recWritten_record (s : State) (r : FRec) (pa va e : Nat) : RecordStep s (s.recWritten r pa va e) :=
  (((raiseHead_record s r.aslot fun n => (n + 1) % 2 ^ 32).trans (xpRecorded_record _ r)).trans (modRec_record _ _ _)).trans
    (vector_record _ _ _ _)

theorem recStores_record (s : State) (r : FRec) (pa va : Nat) : RecordStep s (s.recStores r pa va) := by
  unfold State.recStores
  extract_lets half
  have half_record : ∀ s k, RecordStep s (half s k).1 := fun s k => issue_record s _ _ _ _
  have first := half_record s 0
  split
  · next h => rw [h] at first; exact first.trans (badRec_record _ r)
  · next h => rw [h] at first; exact first
  · next s1 _ _ h =>
    rw [h] at first
    have second := half_record s1 1
    split
    · next h => rw [h] at second; exact (first.trans second).trans (modRec_record _ _ _)
    · exact .refl s

theorem writeRec_record (s : State) (r : FRec) (a : ASlot) : RecordStep s (s.writeRec r a) := by
  have entry := vecEntry_record s r a
  unfold State.writeRec
  dsimp only
  split
  · next h => rw [h] at entry; exact entry
  · next s1 e x _ h _ =>
    rw [h] at entry
    refine entry.trans ?_
    split
    · exact .refl _
    · split
      · exact (forget_record s1 _).trans (recWritten_record _ _ _ _ _)
      · exact (forget_record s1 _).trans (badRec_record _ _)
  · next s1 e h _ =>
    rw [h] at entry
    refine entry.trans ?_
    have tr := translate_record s1 r.core r.aslot ((fltBaseAddr a + 64 * (a.fltHead % fltCap a)) % 2 ^ 57) .store
    split
    · next ht =>
      rw [ht] at tr
      refine tr.trans ?_
      split
      · exact recStores_record _ _ _ _
      · split
        · exact badRec_record _ _
        · exact (((RecordStep.of_read (tokHome_step _ _)).trans (physStore_record _ _ _)).trans (physStore_record _ _ _)).trans
            (recWritten_record _ _ _ _ _)
    · next ht => rw [ht] at tr; exact tr
    · next ht => rw [ht] at tr; exact tr.trans (badRec_record _ _)

theorem writeAll_record (s : State) (aslot : Nat) : RecordStep s (s.writeAll aslot) := by
  refine iterate_record _ (fun s => ?_) _ s
  unfold State.writeOne
  split
  · split
    · exact .refl s
    · exact writeRec_record s _ _
  · exact .refl s

end Sys2Proof.Machine

namespace Sys2Proof.Claim
open Sys2Proof Sys2Proof.Machine

/-! ## Instructions of a wave that execute once -/

section
variable {s s1 : State} {core slot : Nat} {w : Wave} {a : ASlot} {c : Ctl} {i : Instr} {f : State → State}

theorem Runs.cur (h : Runs s core slot w) : s.cur = core := by simp [State.cur, h.unit]
theorem Runs.curSlot (h : Runs s core slot w) : s.curSlot = slot := by simp [State.curSlot, h.unit]
theorem Runs.curAslot (h : Runs s core slot w) : s.curAslot = w.aslot := by simp [State.curAslot, h.unit, h.w]

theorem Runs.once (h : Runs s core slot w) (act : s.active c.guard ≠ 0) (he : exec i s = s.once c f) :
    exec i s = .next ((f s).finishWave c.rbf 0) := by
  rw [he, State.once, onWave_wave h.unit, State.scalar, if_neg (by simpa using act)]

/-- An instruction that executes once and leaves its wave as it is. -/
theorem Runs.passes (h : Runs s core slot w) (act : s.active c.guard ≠ 0) (he : exec i s = s.once c f) (hf : f s = s1)
    (focus : s1.focus = s.focus) (wave : s1.wave? core slot = some w) : Passes s s1 core slot w c.rbf i :=
  ⟨_, h.once act he, by rw [hf]; exact h.finish focus wave rfl _ _⟩

theorem modSlot_some (s : State) {k : Nat} {a : ASlot} (h : s.slot? k = some a) (g : ASlot → ASlot) :
    s.modSlot k g = { s with slots := aput s.slots k (g a) } := by
  have h' : aget s.slots k = some a := h
  simp only [State.modSlot, h']

/-- A change of the registers of the wave's slot. -/
theorem Runs.modMine (h : Runs s core slot w) (ha : s.slot? w.aslot = some a) (g : ASlot → ASlot) :
    s.modMine g = { s with slots := aput s.slots w.aslot (g a) } := by
  rw [State.modMine, h.curAslot, modSlot_some s ha]

theorem Runs.setsSlot (h : Runs s core slot w) (ha : s.slot? w.aslot = some a) (act : s.active c.guard ≠ 0) (g : ASlot → ASlot)
    (he : exec i s = s.once c f) (hf : f s = s.modMine g) :
    Passes s { s with slots := aput s.slots w.aslot (g a) } core slot w c.rbf i :=
  h.passes act he (hf.trans (h.modMine ha g)) rfl h.here

/-! ### Writing the records of the wave's slot (R361) -/

/-- While no record of the slot waits, none is written. -/
theorem writeAll_idle (s : State) (k : Nat) (h : ∀ f ∈ s.recs, f.aslot = k → f.pending = false) : s.writeAll k = s := by
  have none : (s.recs.filter fun r => r.aslot == k && r.pending) = [] := by
    refine List.filter_eq_nil_iff.mpr fun f hf => ?_
    simp only [Bool.and_eq_true, beq_iff_eq, not_and, Bool.not_eq_true]
    exact h f hf
  unfold State.writeAll
  rw [none]
  rfl

theorem SameWave.seqs {w u : Wave} (h : SameWave w u) : u.seqs = w.seqs := by rw [← h.same]
theorem SameWave.subs {w u : Wave} (h : SameWave w u) : u.subs = w.subs := by rw [← h.same]

theorem slots_of_ends {t : State} {w1 : Wave} {rbf : Bool} (h : Ends s core slot w1 t rbf) : t.slots = s.slots :=
  (congrArg State.slots h.rest : _)

/-- An instruction that has brought about no more than the writing of records goes on behind itself, and its end leaves the slots. -/
theorem Runs.finish_record (h : Runs s core slot w) (st : RecordStep s s1) (rbf : Bool) (m : BitVec 4) :
    KeepsWave s (s1.finishWave rbf m) core slot w rbf ∧ (s1.finishWave rbf m).slots = s1.slots := by
  obtain ⟨u, hu, wu⟩ := st.waves core slot w h.here
  have ends := h.finish st.focus hu (sameWave_ended wu.sameWave) rbf m
  obtain ⟨x, hx, went⟩ := ends.wave
  have still : { w with seqs := x.seqs } = w := by rw [went.same.seqs, wu.sameWave.seqs]
  have next : behind s1 = behind s := by rw [behind, behind, st.focus]
  rw [st.focus, next] at went
  exact ⟨⟨x, hx, by rw [still]; exact wentOn_of_woken wu went⟩, slots_of_ends ends⟩

/-- Records that are written after a change of the slot's registers leave the change. -/
theorem slot_writeAll (g : ASlot → ASlot) (k : Nat) :
    ((({ s with slots := aput s.slots w.aslot (g a) } : State).writeAll k).slot? w.aslot).map headless = some (headless (g a)) := by
  rw [(writeAll_record _ k).slots]
  simp [State.slot?]

/-- The same wave executes while only the slots of the state are others. -/
theorem Runs.withSlots (h : Runs s core slot w) (m : Map ASlot) : Runs { s with slots := m } core slot w :=
  ⟨h.unit, h.here, h.parks, h.taken, h.holds, h.joined, h.gone, h.resume, h.accs, h.since, h.lanes, h.alive⟩

/-- A write to a register of the ring: while no record of the slot waits nothing else changes; and whatever records are written, the slot has
the value. -/
theorem Runs.setsRing {α : Type} (h : Runs s core slot w) (ha : s.slot? w.aslot = some a) (act : s.active c.guard ≠ 0) (g : ASlot → ASlot)
    (he : exec i s = s.once c f) (hf : f s = (s.modMine g).writeAll s.curAslot) (v : ASlot → α) (hv : ∀ a, v (headless a) = v a) :
    ((∀ r ∈ s.recs, r.aslot = w.aslot → r.pending = false) → Passes s { s with slots := aput s.slots w.aslot (g a) } core slot w c.rbf i) ∧
      Answers s i fun t => KeepsWave s t core slot w c.rbf ∧ (t.slot? w.aslot).map v = some (v (g a)) := by
  rw [h.modMine ha g] at hf
  refine ⟨fun idle => ?_, _, h.once act he, ?_⟩
  · rw [h.curAslot] at hf
    have unwritten := writeAll_idle { s with slots := aput s.slots w.aslot (g a) } w.aslot idle
    exact h.setsSlot ha act g he ((hf.trans unwritten).trans (h.modMine ha g).symm)
  · rw [hf]
    obtain ⟨keeps, slots⟩ := (h.withSlots _).finish_record (writeAll_record { s with slots := aput s.slots w.aslot (g a) } s.curAslot) c.rbf 0
    refine ⟨keeps, ?_⟩
    obtain ⟨b, hb, same⟩ := Option.map_eq_some_iff.mp (slot_writeAll g s.curAslot)
    rw [State.slot?, slots, ← State.slot?, hb, Option.map_some, ← hv b, same, hv]

end

/-! ## Reading a register -/

section
variable {s : State} {core slot : Nat} {w : Wave} {a : ASlot} {c : Ctl} {r : SReg} {num : BitVec 18} {wide : Bool} {v y : Nat}

theorem Runs.csrr (h : Runs s core slot w) (hv : s.readCsr num.toNat = some (wide, v)) (e : cut wide v = cut wide y) :
    ScalResult s core slot w (.csrr c r num) c r wide y := by
  refine h.scalar (x := fun _ => v) (m := 0) ?_ e
  rw [exec_csrr, execCsrr, onBoth_wave h.unit]
  simp only [State.scalar, hv]

theorem XRuns.setsScal {x : Nat} {p : XP} {i : Instr} {body : State → State} {rbf : Bool} {wave : State → State} (h : XRuns s core x p)
    (he : exec i s = s.onBoth rbf 0 wave body) (hb : body s = s.setScal wide r v) : DResult s core x p i r.toNat wide v := by
  rw [onBoth_xp h.unit, hb, setScal_xp h.unit] at he
  obtain ⟨st, loops, quit⟩ := putD_same p wide r.toNat v
  exact ⟨_, _, he, h.finish _ _ st loops quit, putD_written p _ wide _⟩

theorem XRuns.csrrCoreId {x : Nat} {p : XP} (h : XRuns s core x p) : DResult s core x p (.csrr c r 0x000) r.toNat false (coreId core).toNat := by
  refine h.setsScal (exec_csrr _ _ _ _) ?_
  simp [State.cur, h.unit]

theorem XRuns.csrrStat {x : Nat} {p : XP} (h : XRuns s core x p) : DResult s core x p (.csrr c r 0x034) r.toNat false p.stat := by
  refine h.setsScal (exec_csrr _ _ _ _) ?_
  simp [x_of_unit s core x h.unit, h.here]

end

/-! ## The numbers that the decoder accepts (R357) -/

theorem csrrOk_mem {num : BitVec 18} (h : csrrOk .core num = true) :
    num.toNat ∈ [0x000, 0x001, 0x002, 0x010, 0x011, 0x020, 0x021, 0x028, 0x029, 0x02A, 0x032, 0x033, 0x100, 0x101, 0x102, 0x108, 0x109, 0x110,
      0x200, 0x201] := by
  unfold csrrOk sysReg at h
  dsimp only at h
  generalize num.toNat = n at h ⊢
  split at h
  · next q hq => split at hq <;> cases hq <;> simp at h ⊢
  · cases h

theorem csrwOk_mem {num : BitVec 18} (h : csrwOk num = true) : num.toNat ∈ [0x001, 0x028, 0x029, 0x02A, 0x100, 0x108, 0x109] := by
  unfold csrwOk sysReg at h
  simp only [← BitVec.toNat_inj, Bool.beq_eq_decide_eq] at h
  generalize num.toNat = n at h ⊢
  split at h
  · next q hq => split at hq <;> cases hq <;> simp at h ⊢
  · cases h

/-- No word decodes to an instruction that names another register. -/
theorem wf_csrr_core (c : Ctl) (r : SReg) {num : BitVec 18} (no : csrrOk .core num = false) : (Instr.csrr c r num).wf .core = false := by
  change (c.ok .core && csrrOk .core num && _) = false
  rw [no, Bool.and_false, Bool.false_and]

theorem wf_csrr_xp (c : Ctl) (r : SReg) {num : BitVec 18} (no : csrrOk .xp num = false) : (Instr.csrr c r num).wf .xp = false := by
  change (c.ok .xp && csrrOk .xp num && _) = false
  rw [no, Bool.and_false, Bool.false_and]

theorem wf_csrw_core (c : Ctl) (r : SReg) {num : BitVec 18} (no : csrwOk num = false) : (Instr.csrw c num r).wf .core = false := by
  change (true && csrwOk num && _) = false
  rw [no, Bool.and_false, Bool.false_and]

/-! ## The debug control (R45, R378) -/

section
variable {s : State} {core slot : Nat} {w : Wave} {a : ASlot} {c : Ctl} {r : SReg}

theorem subWave_subs (w : Wave) (m : Mask) : (w.subWave m).subs = w.subs ++ if m ≠ 0 then [m] else [] := by
  unfold Wave.subWave
  by_cases h : m = 0
  · rw [if_pos (beq_iff_eq.mpr h), if_neg (not_not.mpr h), List.append_nil]
  · rw [if_neg (mt beq_iff_eq.mp h), if_pos h]

/-- Beside the sub-waves only runs change. -/
theorem subWave_same (w : Wave) (m : Mask) : { w.subWave m with subs := w.subs, streams := w.streams } = w := by
  unfold Wave.subWave; split <;> rfl

/-- A wave once the debug halt of slot `k`, which had halted its lanes `m`, is cleared. -/
def released (k : Nat) (m : Mask) (w : Wave) : Wave := if w.aslot == k then w.subWave m else w

theorem released_subs (k : Nat) (m : Mask) (w : Wave) : (released k m w).subs = w.subs ++ if w.aslot = k ∧ m ≠ 0 then [m] else [] := by
  unfold released
  by_cases h : w.aslot = k
  · rw [if_pos (beq_iff_eq.mpr h), subWave_subs]
    simp only [h, true_and]
  · rw [if_neg (mt beq_iff_eq.mp h), if_neg (fun k => h k.1), List.append_nil]

theorem released_same (k : Nat) (m : Mask) (w : Wave) : { released k m w with subs := w.subs, streams := w.streams } = w := by
  unfold released
  split
  · exact subWave_same w m
  · rfl

theorem released_sameWave (k : Nat) (m : Mask) (w : Wave) : SameWave { w with subs := (released k m w).subs } (released k m w) := by
  unfold released Wave.subWave
  split
  · split <;> exact ⟨rfl, fun _ _ _ => .inl rfl, fun _ => .inl rfl⟩
  · exact sameWave_refl w

/-- A write that sets the halt, or finds none, lets no lane go. -/
theorem setDbg_keeps (x : Nat) (ha : s.slot? w.aslot = some a) (h : a.dbgCtl.getLsbD 1 = false ∨ bitN x 1 = true) :
    s.setDbg w.aslot x = s.modSlot w.aslot fun a => { a with dbgCtl := dbgCtlOf x } := by
  unfold State.setDbg
  rw [ha]
  refine if_neg ?_
  rcases h with h | h <;> simp only [Option.elim, h, Bool.false_and, Bool.not_true, Bool.and_false, Bool.false_eq_true, not_false_eq_true]

theorem setDbg_releases (x : Nat) (ha : s.slot? w.aslot = some a) (on : a.dbgCtl.getLsbD 1 = true) (off : bitN x 1 = false) :
    s.setDbg w.aslot x = ({ s with slots := aput s.slots w.aslot { a with dbgCtl := dbgCtlOf x } } : State).mapWaves fun i v =>
      released w.aslot (s.haltedLanes i v) v := by
  rw [← modSlot_some s ha fun a => { a with dbgCtl := dbgCtlOf x }]
  unfold State.setDbg
  rw [ha]
  exact if_pos (by simp only [Option.elim, on, off, Bool.not_false, Bool.and_self])

theorem Runs.csrwDbgCtl_keeps (h : Runs s core slot w) (ha : s.slot? w.aslot = some a) (act : s.active c.guard ≠ 0)
    (keep : a.dbgCtl.getLsbD 1 = false ∨ bitN (w.scal false r) 1 = true) :
    Passes s { s with slots := aput s.slots w.aslot { a with dbgCtl := dbgCtlOf (w.scal false r) } } core slot w c.rbf (.csrwDbgCtl c r) := by
  refine h.setsSlot ha act (fun a => { a with dbgCtl := dbgCtlOf (w.scal false r) }) (exec_csrwDbgCtl c r s) ?_
  rw [h.curAslot, h.scal, setDbg_keeps _ ha keep, State.modMine, h.curAslot]

theorem still_of_calm {u v : Wave} (h : calm u = calm v) : still u = still v :=
  (congrArg (fun w : Wave => { w with streams := [] }) h : _)

theorem Runs.csrwDbgCtl_releases (h : Runs s core slot w) (ha : s.slot? w.aslot = some a) (act : s.active c.guard ≠ 0)
    (on : a.dbgCtl.getLsbD 1 = true) (off : bitN (w.scal false r) 1 = false) :
    Answers s (.csrwDbgCtl c r) fun t => t.slots = aput s.slots w.aslot { a with dbgCtl := dbgCtlOf (w.scal false r) } ∧
      ∀ i k v, s.wave? i k = some v → ∃ u, t.wave? i k = some u ∧
        (if i = core ∧ k = slot then SameWave { v with subs := u.subs } u else { still u with subs := v.subs } = still v) ∧
        u.subs = v.subs ++ if v.aslot = w.aslot ∧ s.haltedLanes i v ≠ 0 then [s.haltedLanes i v] else [] := by
  have body := setDbg_releases (w.scal false r) ha on off
  generalize hs1 : State.mapWaves _ _ = s1 at body
  have waves : ∀ i k, s1.wave? i k = (s.wave? i k).map fun v => released w.aslot (s.haltedLanes i v) v := fun i k => by
    rw [← hs1, wave_mapWaves]; rfl
  have slots : s1.slots = aput s.slots w.aslot { a with dbgCtl := dbgCtlOf (w.scal false r) } := by rw [← hs1]; rfl
  have focus : s1.focus = s.focus := by rw [← hs1]; rfl
  have ended : (released w.aslot (s.haltedLanes core w) w).ended = w.ended := (congrArg Wave.ended (released_same _ _ w) : _)
  have ends := h.finish focus (by rw [waves, h.here]; rfl) ended c.rbf 0
  refine ⟨_, h.once act (exec_csrwDbgCtl c r s), ?_⟩
  rw [h.curAslot, h.scal, body]
  refine ⟨(slots_of_ends ends).trans slots, fun i k v hv => ?_⟩
  by_cases me : i = core ∧ k = slot
  · obtain ⟨rfl, rfl⟩ := me
    obtain rfl : v = w := Option.some.inj (hv.symm.trans h.here)
    obtain ⟨u, hu, went⟩ := ends.wave
    have subs := went.same.subs
    refine ⟨u, hu, ?_, subs.trans (released_subs _ _ v)⟩
    rw [if_pos ⟨rfl, rfl⟩, subs]
    exact sameWave_trans (released_sameWave _ _ v) went.same
  · have other := ends.others i k me
    rw [waves, hv] at other
    obtain ⟨u, hu, calmed⟩ := Option.map_eq_some_iff.mp other
    refine ⟨u, hu, ?_, (congrArg Wave.subs calmed).trans (released_subs _ _ v)⟩
    rw [if_neg me, still_of_calm calmed]
    exact congrArg still (released_same _ _ v)

end

/-! ## The remaining registers that have an instruction of their own -/

section
variable {s : State} {core slot : Nat} {w : Wave} {a : ASlot} {c : Ctl} {r : SReg}

/-- A head enters the FIFO of a transfer processor that has room (R310). -/
theorem Runs.csrwXpChan (h : Runs s core slot w) (act : s.active c.guard ≠ 0) (b : Bool) (room : (s.xp core (b2n b)).heads.length < 4) :
    Passes s (s.modXp core (b2n b) fun p => { p with heads := p.heads ++ [⟨w.scal true r, w.bind⟩] }) core slot w c.rbf (.csrwXpChan c b r) := by
  refine h.passes act (exec_csrwXpChan c b r s) ?_ rfl ((wave_modXp s core (b2n b) _ core slot).trans h.here)
  rw [State.pushHead, h.cur, if_neg (Nat.not_le.mpr room), h.scal, h.w]

/-- A new generation of the slot, which the instruction returns (R75, R358). -/
theorem Runs.gen (h : Runs s core slot w) (ha : s.slot? w.aslot = some a) (act : s.active c.guard ≠ 0) (plain : w.commit = false)
    (more : a.gen ≠ 2 ^ 32 - 1) (answered : s.openRemote w.uid fullMask = false) :
    ∃ t w1, exec (.gen c r) s = .next t ∧ ScalWritten w w1 (s.active c.guard) r false (a.gen + 1) ∧
      Ends { s with slots := aput s.slots w.aslot { a with gen := a.gen + 1 } } core slot w1 t c.rbf := by
  have h1 := h.withSlots (aput s.slots w.aslot { a with gen := a.gen + 1 })
  have last : (a.gen == 0xFFFFFFFF) = false := beq_eq_false_iff_ne.mpr more
  refine ⟨_, _, ?_, putScal_written w _ r false _ act, h1.finish_setWave (w1 := putScal w false r.toNat (a.gen + 1)) rfl c.rbf 0⟩
  rw [h.once act (exec_gen c r s), State.plainOnly, h.w, plain, State.afterWave, h.w, answered, h.curAslot, ha, ← setScal_wave h1.unit h1.here]
  simp only [Option.elim, last, Bool.false_and, Bool.false_eq_true, if_false, h.modMine ha]

end

/-! ## The bits that each register keeps (R132, R360, R368, R378) -/

theorem bitsN_zero (x hi : Nat) : bitsN x hi 0 = x % 2 ^ (hi + 1) := by rw [bitsN, Nat.pow_zero, Nat.div_one, Nat.sub_zero]

theorem raceCtlOf_eq (x : Nat) : raceCtlOf x = BitVec.ofNat 64 (bitsN x 56 12 * 2 ^ 12 + bitsN x 11 8 * 2 ^ 8 + x % 2) := by
  rw [raceCtlOf, bitsN_zero x 0]; rfl

theorem fltBaseOf_eq (x : Nat) : fltBaseOf x = BitVec.ofNat 64 (bitsN x 56 12 * 2 ^ 12 + Min.min (x % 16) 12) := by
  rw [fltBaseOf, bitsN_zero x 3]; rfl

theorem trapVecOf_eq (x : Nat) : trapVecOf x = BitVec.ofNat 64 (bitsN x 56 9 * 2 ^ 9 + x % 2) := by
  rw [trapVecOf, bitsN_zero x 0]; rfl

theorem trapCfgOf_eq (x : Nat) : trapCfgOf x = BitVec.ofNat 32 (x % 2 ^ 9) := by rw [trapCfgOf, bitsN_zero x 8]

theorem dbgCtlOf_eq (x : Nat) : dbgCtlOf x = BitVec.ofNat 32 (x % 4) := by rw [dbgCtlOf, bitsN_zero x 1]; rfl

/-- The halt bit of a number (R378). -/
theorem bitN_one (x : Nat) : bitN x 1 = decide (x / 2 % 2 = 1) := by rw [bitN, Nat.testBit_eq_decide_div_mod_eq, Nat.pow_one]

/-! ## What each register is written with -/

section
variable {s : State} {core slot : Nat} {w : Wave} {a : ASlot} {c : Ctl} {r : SReg}

theorem Runs.csrwSmiss (h : Runs s core slot w) (act : s.active c.guard ≠ 0) :
    Passes s (s.modCore core fun k => { k with smiss := BitVec.ofNat 32 (w.scal false r) }) core slot w c.rbf (.csrw c 0x001 r) := by
  refine h.passes act (exec_csrw c 0x001 r s) ?_ rfl ((wave_modCore s core core slot _ rfl).trans h.here)
  rw [← h.scal, ← h.cur]
  rfl

/-- `csrw` of a register of the wave's slot that concerns no record. -/
theorem Runs.csrwSlot (h : Runs s core slot w) (ha : s.slot? w.aslot = some a) (act : s.active c.guard ≠ 0) {num : BitVec 18}
    (g : Nat → Nat → ASlot → ASlot) (he : exec (.csrw c num r) s = s.once c fun s => s.modMine (g (s.scal false r) (s.scal true r))) :
    Passes s { s with slots := aput s.slots w.aslot (g (w.scal false r) (w.scal true r) a) } core slot w c.rbf (.csrw c num r) :=
  h.setsSlot ha act (g (w.scal false r) (w.scal true r)) he (by rw [h.scal, h.scal])

end

/-! ## What each register reads -/

section
variable {s : State} {core slot : Nat} {w : Wave} {a : ASlot} {c : Ctl} {r : SReg} {num : BitVec 18} {wide : Bool}

/-- A register of the core (R29). -/
theorem Runs.csrrCore (h : Runs s core slot w) (v : Core → Nat) (hv : s.readCsr num.toNat = some (wide, v (s.core s.cur))) :
    ScalResult s core slot w (.csrr c r num) c r wide (v (s.core core)) := h.csrr hv (by rw [h.cur])

/-- A register of the wave (R33). -/
theorem Runs.csrrWave (h : Runs s core slot w) (v : Wave → Nat → Nat) (hv : s.readCsr num.toNat = some (wide, v s.w s.curSlot)) :
    ScalResult s core slot w (.csrr c r num) c r wide (v w slot) := h.csrr hv (by rw [h.w, h.curSlot])

/-- A register of the wave's slot (R357). -/
theorem Runs.csrrSlot (h : Runs s core slot w) (ha : s.slot? w.aslot = some a) (v : ASlot → Nat)
    (hv : s.readCsr num.toNat = some (wide, v ((s.slot? s.w.aslot).getD (ASlot.fresh 0 false 0)))) :
    ScalResult s core slot w (.csrr c r num) c r wide (v a) := h.csrr hv (by rw [h.w, ha]; rfl)

/-- core.id by the core's number (R29). -/
theorem coreId_eq (i : Nat) : cut false (coreId i).toNat = cut false ((2 * (i / 512) + i % 32 / 16) * 2 ^ 24 + i / 32 / 8 * 2 ^ 22 +
    i % 32 / 8 * 2 ^ 20 + i * 2 ^ 10 + i / 32 * 2 ^ 5 + i % 32) := by
  rw [coreId, coreDie, coreY, coreX, Nat.div_div_eq_div_mul i 32 16, BitVec.toNat_ofNat]
  exact Nat.mod_mod _ _

theorem Runs.csrrCoreId (h : Runs s core slot w) : ScalResult s core slot w (.csrr c r 0x000) c r false
    ((2 * (core / 512) + core % 32 / 16) * 2 ^ 24 + core / 32 / 8 * 2 ^ 22 + core % 32 / 8 * 2 ^ 20 + core * 2 ^ 10 + core / 32 * 2 ^ 5 +
      core % 32) :=
  h.csrr rfl (by rw [h.cur]; exact coreId_eq core)

theorem devId_eq (s : State) : s.devId = (if s.boot.mode = 2 then 1 else 0) * 2 ^ 31 + s.devNo % 2 ^ 12 := by
  simp only [State.devId, b2n, beq_iff_eq]
  rfl

end

/-- Settles O48. The numbers come down to the table of registers; a read is one scalar result; a write changes the slot, a core, a FIFO, or
waves that a debug halt holds, and one to the ring may have records written, which leave the slot's registers and the wave (`RecordStep`). -/
theorem systemRegisters : Obligations.SystemRegisters := by
  unfold Obligations.SystemRegisters
  intro c r s
  refine ⟨fun num => ⟨fun no => ?readable, fun no => ?writable, fun notId notStat => ?xpReadable⟩, fun core slot w a h ha _ => ?registers,
    fun core x p h => ⟨h.csrrCoreId, h.csrrStat⟩⟩
  case readable => exact wf_csrr_core c r (Bool.eq_false_iff.mpr fun ok => no (csrrOk_mem ok))
  case writable => exact wf_csrw_core c r (Bool.eq_false_iff.mpr fun ok => no (csrwOk_mem ok))
  case xpReadable =>
    have no : csrrOk .xp num = false := by
      simp only [csrrOk, sysRegXp, beq_eq_false_iff_ne.mpr notId, beq_eq_false_iff_ne.mpr notStat, Bool.or_self]
    exact wf_csrr_xp c r no
  case registers =>
    refine ⟨h.csrrCoreId, h.csrrCore (·.smiss.toNat) rfl, h.csrrCore (·.cdl.toNat) rfl,
      h.csrrWave Wave.loc rfl, h.csrrWave (fun w _ => w.stamp) rfl,
      h.csrrSlot ha (fun a => bitsN a.root 51 12 * 2 ^ 12) rfl, h.csrrSlot ha (·.gen) rfl, h.csrrSlot ha (·.raceCtl.toNat) rfl,
      h.csrrSlot ha (·.raceHead) rfl, h.csrrSlot ha (·.raceDrop) rfl, h.csrrCore (·.xp0.stat) rfl, h.csrrCore (·.xp1.stat) rfl,
      h.csrrSlot ha (·.fltBase.toNat) rfl, h.csrrSlot ha (·.fltHead) rfl, h.csrrSlot ha (·.fltTail) rfl, h.csrrSlot ha (·.trapVec.toNat) rfl,
      h.csrrSlot ha (·.trapCfg.toNat) rfl, h.csrrSlot ha (·.dbgCtl.toNat) rfl, h.csrr rfl (congrArg _ (devId_eq s)),
      h.csrrWave (fun w _ => w.slotId) rfl, fun act => ?_⟩
    simp only [← raceCtlOf_eq, ← fltBaseOf_eq, ← trapVecOf_eq, ← trapCfgOf_eq, ← dbgCtlOf_eq]
    obtain ⟨baseIdle, base⟩ := h.setsRing ha act (fun a => { a with fltBase := fltBaseOf (w.scal true r) }) (exec_csrw c 0x100 r s)
      (by rw [← h.scal]; rfl) (·.fltBase) fun _ => rfl
    obtain ⟨tailIdle, tail⟩ := h.setsRing ha act (fun a => { a with fltTail := w.scal false r }) (exec_csrwFltTail c r s) (by rw [← h.scal]) (·.fltTail)
      fun _ => rfl
    refine ⟨h.csrwSmiss act, h.csrwSlot ha act (fun _ y a => { a with raceCtl := raceCtlOf y }) (exec_csrw c 0x028 r s),
      h.csrwSlot ha act (fun x _ a => { a with raceHead := x }) (exec_csrw c 0x029 r s),
      h.csrwSlot ha act (fun x _ a => { a with raceDrop := x }) (exec_csrw c 0x02A r s), baseIdle, base,
      h.csrwSlot ha act (fun _ y a => { a with trapVec := trapVecOf y }) (exec_csrw c 0x108 r s),
      h.csrwSlot ha act (fun x _ a => { a with trapCfg := trapCfgOf x }) (exec_csrw c 0x109 r s), tailIdle, tail,
      fun keep => h.csrwDbgCtl_keeps ha act ?keep, fun on off => h.csrwDbgCtl_releases ha act on ?off, h.csrwXpChan act, h.gen ha act⟩
    case keep => rwa [bitN_one, decide_eq_true_iff]
    case off => rw [bitN_one, decide_eq_false_iff_not, off]; exact Nat.zero_ne_one

end Sys2Proof.Claim

namespace Sys2Proof.Machine
open Sys2Proof Sys2Proof.Claim

/-! # The end of an instruction that parks lanes or takes an exception -/

/-! ## Runs that wait (R42, R46) -/

/-- A run whose lanes wait outlives the joining of suspended runs. -/
theorem mem_mergeOne_of_waits {w : Wave} {r : Stream} (hr : r ∈ w.streams) (waits : r.waits = true) : r ∈ w.mergeOne.streams := by
  unfold Wave.mergeOne
  dsimp only
  split
  · exact hr
  · next t ht =>
    have other : (r.grp != t.grp) = true := by
      have closed := List.find?_some ht
      split at closed
      · rw [Bool.not_eq_true', List.any_eq_false] at closed
        have := closed r hr
        rw [waits, Bool.and_true] at this
        simpa using this
      · cases closed
    exact List.mem_append_right _ (List.mem_filter.mpr ⟨hr, other⟩)

theorem mem_mergeRuns_of_waits {w : Wave} {r : Stream} (hr : r ∈ w.streams) (waits : r.waits = true) : r ∈ w.mergeRuns.streams := by
  have all (n : Nat) (w : Wave) (hr : r ∈ w.streams) : r ∈ (iterate Wave.mergeOne n w).streams := by
    induction n generalizing w with
    | zero => exact hr
    | succ n ih => exact ih _ (mem_mergeOne_of_waits hr waits)
  exact all _ w hr

/-- The broadcast address leaves lanes and state of a run as they are. -/
theorem mem_retarget {w : Wave} {r : Stream} (f : Focus) (on : Mask) (hr : r ∈ w.streams) :
    ∃ u ∈ (w.retarget f on).streams, u.lanes = r.lanes ∧ u.st = r.st := by
  unfold Wave.retarget
  split
  · exact ⟨r, hr, rfl, rfl⟩
  · exact ⟨_, List.mem_map_of_mem hr, rfl, rfl⟩

theorem of_mem_retarget {w : Wave} {f : Focus} {on : Mask} {u : Stream} (hu : u ∈ (w.retarget f on).streams) :
    ∃ r ∈ w.streams, u.lanes = r.lanes ∧ u.st = r.st := by
  unfold Wave.retarget at hu
  split at hu
  · exact ⟨u, hu, rfl, rfl⟩
  · obtain ⟨r, hr, rfl⟩ := List.mem_map.mp hu
    exact ⟨r, hr, rfl, rfl⟩

/-! ## One run becomes several -/

section
variable {t : Stream} {f : Focus} {rbf : Bool} {held : List (Mask × Nat)} {on : Mask} {g : Nat}

/-- Lanes that park without a fault keep the run (R46). -/
theorem split_parked {c : ParkCond} {m : Mask} (hp : (c, m) ∈ f.parks) (hm : m ≠ 0) :
    ∃ r ∈ t.split f rbf [] on g, r.lanes = m ∧ r.st = .park c f.len rbf f.insn ∧ r.grp = if c.loose then 0 else g := by
  have all : m &&& ~~~(0 : Mask) = m := BitVec.and_allOnes
  have parks : (m &&& ~~~(0 : Mask) == 0) ≠ true := by rw [all]; simpa using hm
  exact ⟨_, List.mem_append_right _ (List.mem_filterMap.mpr ⟨(c, m), hp, if_neg parks⟩), all, rfl, rfl⟩

/-- Lanes under a record keep the run (R365). -/
theorem split_held {m : Mask} {id : Nat} (h : (m, id) ∈ held) :
    ∃ r ∈ t.split f rbf held on g, r.lanes = m ∧ r.st = .held id f.len rbf :=
  ⟨_, List.mem_append_left _ (List.mem_append_right _ (List.mem_map_of_mem h)), rfl, rfl⟩

/-- A run waits for others only beside lanes that park. -/
theorem split_joins {r : Stream} {l : List (Nat × Nat)} {b : Bool} (hr : r ∈ t.split f rbf held on g) (hj : r.st = .join l b) :
    g ≠ 0 ∧ r.grp = g := by
  rcases List.mem_append.mp hr with hr | hr
  · rcases List.mem_append.mp hr with hr | hr
    · split at hr
      · cases hr
      · split at hr
        · next hg =>
          obtain rfl := List.mem_singleton.mp hr
          exact ⟨by simpa using hg, rfl⟩
        · split at hr
          · cases hr
          · obtain rfl := List.mem_singleton.mp hr
            cases hj
    · obtain ⟨h, -, rfl⟩ := List.mem_map.mp hr
      cases hj
  · obtain ⟨p, -, hp⟩ := List.mem_filterMap.mp hr
    dsimp only at hp
    split at hp
    · cases hp
    · cases hp
      cases hj

/-- Without parks the lanes that go on execute, or have ended their run. -/
theorem split_goes {r : Stream} (hr : r ∈ t.split f rbf [] on 0) (hp : f.parks = []) : r.lanes = on ∧ r.st = .run := by
  simp only [Stream.split, hp, List.map_nil, List.append_nil, List.filterMap_nil, bne_self_eq_false, Bool.false_eq_true, if_false] at hr
  split at hr
  · cases hr
  · split at hr
    · cases hr
    · obtain rfl := List.mem_singleton.mp hr
      exact ⟨rfl, rfl⟩

end

/-! ## The wave after an instruction -/

theorem mark_lanes (t old : Stream) (marks : BitVec 4) : (t.mark old marks).lanes = t.lanes := by unfold Stream.mark; split <;> rfl
theorem mark_st (t old : Stream) (marks : BitVec 4) : (t.mark old marks).st = t.st := by unfold Stream.mark; split <;> rfl

/-- No suspended run is complete. -/
theorem mergeOne_none {w : Wave} (h : ∀ t ∈ w.streams, ∀ l b, t.st = .join l b → ∃ u ∈ w.streams, u.grp = t.grp ∧ u.waits = true) :
    w.mergeOne = w := by
  unfold Wave.mergeOne
  dsimp only
  split
  · rfl
  · next t ht =>
    have closed := List.find?_some ht
    split at closed
    · next l b hj =>
      obtain ⟨u, hu, grp, waits⟩ := h t (List.mem_of_find?_eq_some ht) l b hj
      rw [Bool.not_eq_true', List.any_eq_false] at closed
      exact absurd (by rw [grp, waits, beq_self_eq_true, Bool.and_self]) (closed u hu)
    · cases closed

theorem mergeRuns_none {w : Wave} (h : w.mergeOne = w) : w.mergeRuns = w := by
  have all (n : Nat) : iterate Wave.mergeOne n w = w := by
    induction n with
    | zero => rfl
    | succ n ih => rw [iterate, h, ih]
  exact all _

/-- The lanes of the run in execution that neither are held nor park. -/
def Focus.goesOn (f : Focus) (ended h p : Mask) : Mask := f.lanes &&& ~~~ h &&& ~~~ p &&& ~~~ ended

/-- **What an instruction leaves of a wave without suspended runs**: its run becomes several, and the others stay as they are. -/
theorem advance_eq_split {w : Wave} {f : Focus} (rbf : Bool) (marks : BitVec 4) {held : List (Mask × Nat)} (p : Mask) (new : Nat)
    (unsplit : Unsplit w) (one : held = [] ∨ f.parks = []) :
    let on := f.goesOn w.ended (held.foldl (fun m x => m ||| x.1) 0) p
    ∃ (old : Stream) (lead : Mask), old.grp = 0 ∧ w.advance f rbf marks held p new =
      ({ w.endRun ((if rbf && old.group f on new == 0 then on else 0) ||| (f.lanes &&& w.ended)) with
        pcs := (List.range 32).map fun l => if hasLane on l && old.group f on new == 0 then BitVec.ofNat 57 (f.target l) else listGet 0 w.pcs l
        streams := old.split f rbf held on (old.group f on new) ++
          (w.streams.filter (fun t => t.lanes &&& f.lanes == 0)).map fun t => t.mark old marks } : Wave).retarget f lead := by
  have grp (q : Stream → Bool) : ((w.streams.find? q).getD ⟨f.lanes, 0, 0, f.lead, .run, 0, false, 0, [], none⟩).grp = 0 := by
    cases e : w.streams.find? q with
    | none => rfl
    | some t => exact (unsplit t (List.mem_of_find?_eq_some e)).1
  intro on
  unfold Wave.advance
  extract_lets h on' first old before g rest src w1 w2
  refine ⟨old, (on' ||| before) &&& ~~~w2.joining, grp _, ?_⟩
  have stays : w1.mergeOne = w1 := by
    refine mergeOne_none fun t ht l b hj => ?_
    rcases List.mem_append.mp ht with ht | ht
    · obtain ⟨suspended, hg⟩ := split_joins ht hj
      obtain ⟨q, hq, hard⟩ : ∃ q ∈ f.parks, (!q.1.loose && q.2 != 0) = true := by
        by_contra soft'
        refine suspended ?_
        have old0 : old.grp = 0 := grp _
        have soft : (f.parks.any fun p => !p.1.loose && p.2 != 0) = false := by
          refine List.any_eq_false.mpr fun q hq hard => soft' ⟨q, hq, hard⟩
        simp only [g, Stream.group, old0, soft, bne_self_eq_false, Bool.and_false, Bool.false_eq_true, if_false]
      rw [Bool.and_eq_true, Bool.not_eq_true', bne_iff_ne] at hard
      rcases one with rfl | noPark
      · obtain ⟨u, hu, -, st, ug⟩ := split_parked (t := old) (rbf := rbf) (on := on') (g := g) (c := q.1) (m := q.2) hq hard.2
        rw [hard.1, if_neg Bool.false_ne_true] at ug
        exact ⟨u, List.mem_append_left _ hu, ug.trans hg.symm, by rw [Stream.waits, st]⟩
      · rw [noPark] at hq
        cases hq
    · obtain ⟨x, hx, rfl⟩ := List.mem_map.mp ht
      rw [mark_st] at hj
      exact absurd hj ((unsplit x (List.mem_filter.mp hx).1).2 l b)
  have merged : w2 = w1 := mergeRuns_none stays
  show w2.retarget f _ = _
  rw [merged]
  rfl

/-! ## The state after an instruction -/

/-- `t` is `s` in which the wave in a slot has become `u`, up to whom waves yield to and what numbers have been given. -/
structure Becomes (s : State) (core slot : Nat) (u : Wave) (t : State) : Prop where
  wave   : ∃ y, t.wave? core slot = some { u with yieldTo := y }
  others : ∀ i k, ¬(i = core ∧ k = slot) → (t.wave? i k).map calm = (s.wave? i k).map calm
  cores  : ∀ i, quietCore (t.core i) = quietCore (s.core i)
  rest   : { quietState t with uids := 0 } = { quietState s with uids := 0 }

theorem Becomes.trans {s t r : State} {core slot : Nat} {u x : Wave} (h : Becomes s core slot u t)
    (k : ∀ v, t.wave? core slot = some v → Becomes t core slot v r) (hx : ∀ y, ({ u with yieldTo := y } : Wave) = { x with yieldTo := y }) :
    Becomes s core slot x r := by
  obtain ⟨⟨y, hy⟩, ho, hc, hr⟩ := h
  obtain ⟨⟨z, hz⟩, ko, kc, kr⟩ := k _ hy
  exact ⟨⟨z, hz.trans (congrArg some (hx z))⟩, fun i j n => (ko i j n).trans (ho i j n), fun i => (kc i).trans (hc i), kr.trans hr⟩

theorem Becomes.mem {s t : State} {core slot : Nat} {u : Wave} (h : Becomes s core slot u t) : t.mem = s.mem := (congrArg State.mem h.rest : _)
theorem Becomes.ival {s t : State} {core slot : Nat} {u : Wave} (h : Becomes s core slot u t) : t.ival = s.ival := (congrArg State.ival h.rest : _)

theorem grants_become {s : State} {core slot : Nat} {u : Wave} (hu : s.wave? core slot = some u) (f : Core → List (Option Grant)) :
    Becomes s core slot u (s.modCore core fun c => { c with grants := f c }) := by
  refine ⟨⟨u.yieldTo, by rw [wave_modCore _ _ _ _ _ (by rfl)]; exact hu⟩, fun i k _ => by rw [wave_modCore _ _ _ _ _ (by rfl)], fun i => ?_, rfl⟩
  rw [core_modCore]
  split
  · subst_vars; rfl
  · rfl

/-- No wave yields to some wave any more. -/
theorem unyield_becomes {s : State} {core slot : Nat} {u : Wave} (hu : s.wave? core slot = some u) (f : List Nat → List Nat) :
    Becomes s core slot u (s.mapWaves fun _ x => { x with yieldTo := f x.yieldTo }) := by
  refine ⟨⟨f u.yieldTo, by rw [wave_mapWaves, hu]; rfl⟩, fun i k _ => ?_, fun i => ?_, rfl⟩
  · rw [wave_mapWaves]
    cases s.wave? i k <;> rfl
  · rw [core_mapWaves]
    simp only [quietCore, List.map_map]
    rfl

theorem endGrant_becomes {s : State} {core slot : Nat} {u : Wave} (hu : s.wave? core slot = some u) (did : Bool) :
    Becomes s core slot u (s.endGrant core slot did) := by
  have same : Becomes s core slot u s := ⟨⟨u.yieldTo, hu⟩, fun _ _ _ => rfl, fun _ => rfl, rfl⟩
  unfold State.endGrant
  dsimp only
  split
  · split
    · have grants := grants_become hu fun c => listPut none 4 c.grants (slot / 8) none
      cases did with
      | false => exact grants
      | true => exact grants.trans (fun v hv => unyield_becomes hv _) fun _ => rfl
    · exact same
  · exact same

/-- The end of an instruction of a wave whose faults have become records: the wave advances. -/
theorem finishWave_becomes {s s1 : State} {core slot : Nat} {w1 : Wave} {held : List (Mask × Nat)} (rbf : Bool) (marks : BitVec 4)
    (unit : s.focus.unit = .wave core slot) (gone : s.focus.gone = false) (accs : s.focus.accs = [])
    (faults : s.takeFaults s.focus.holds = (s1, held)) (here : s1.wave? core slot = some w1) (live : w1.ended ≠ fullMask) :
    ∃ new, Becomes s1 core slot (w1.advance s.focus rbf marks held (s.focus.parks.foldl (fun m x => m ||| x.2) 0) new)
      (s.finishWave rbf marks) := by
  have key : ∀ (s3 : State) (x : Wave), s3.wave? core slot = some x → x.ended = w1.ended → Becomes s1 core slot x s3 →
      Becomes s1 core slot x ((match s3.wave? core slot with
        | some w => if w.ended == fullMask then s3.reap core w.uid else s3
        | none => s3).endGrant core slot true) := by
    intro s3 x hx ended moved
    have stays : (x.ended == fullMask) = false := by rw [ended]; simpa using live
    rw [hx]
    simp only [stays, Bool.false_eq_true, if_false]
    exact moved.trans (fun v hv => endGrant_becomes hv true) fun _ => rfl
  unfold State.finishWave
  simp only [unit, gone, accs, faults, List.filter_nil, forget_nil, Bool.false_eq_true, if_false]
  generalize s.focus.parks.foldl (fun m x => m ||| x.2) 0 = p
  obtain ⟨s2, new, he, waves, cores, rest⟩ : ∃ (s2 : State) (new : Nat), (if (p == 0) = true then (0, s1) else s1.newId) = (new, s2) ∧
      (∀ i k, s2.wave? i k = s1.wave? i k) ∧ (∀ i, s2.core i = s1.core i) ∧ { quietState s2 with uids := 0 } = { quietState s1 with uids := 0 } := by
    split
    · exact ⟨_, _, rfl, fun _ _ => rfl, fun _ => rfl, rfl⟩
    · exact ⟨_, _, rfl, fun _ _ => rfl, fun _ => rfl, rfl⟩
  refine ⟨new, ?_⟩
  rw [he]
  dsimp only
  rw [modWave_some _ _ _ w1 _ ((waves core slot).trans here)]
  have moved (g : Core → List (Option Grant)) : ({ (s2.setWave core slot (w1.advance s.focus rbf marks held p new)).modCore core fun c =>
      { c with grants := g c } with focus := Focus.idle } : State).wave? core slot = some (w1.advance s.focus rbf marks held p new) := by
    rw [wave_focus, wave_modCore _ _ _ _ _ (by rfl), wave_setWave, if_pos ⟨rfl, rfl⟩]
  refine key _ _ (moved _) (sameWave_ended (advance_same _ _ _ _ _ _ _)) ⟨⟨_, moved _⟩, fun i k n => ?_, fun i => ?_, rest⟩
  · rw [wave_focus, wave_modCore _ _ _ _ _ (by rfl), wave_setWave, if_neg n, waves]
  · rw [core_focus, core_modCore, core_setWave, core_setWave]
    by_cases e : i = core
    · subst e
      rw [if_pos rfl, if_pos rfl, cores]
      rfl
    · rw [if_neg e, if_neg e, cores]

/-! ## Where the lanes stand after an instruction -/

theorem hasLane_goesOn (f : Focus) (ended h p : Mask) {l : Nat} (hl : l < 32) :
    hasLane (f.goesOn ended h p) l = (hasLane f.lanes l && !hasLane h l && !hasLane p l && !hasLane ended l) := by
  simp only [Focus.goesOn, hasLane, BitVec.getLsbD_and, BitVec.getLsbD_not, hl, decide_true, Bool.true_and]

section
variable {w : Wave} {f : Focus} {rbf : Bool} {marks : BitVec 4} {held : List (Mask × Nat)} {p : Mask} {new : Nat}

/-- The lanes of the run that neither are held nor park go on, if any (`b`): at once where no lane parks. -/
theorem advance_moves (unsplit : Unsplit w) (alive : f.lanes &&& w.ended = 0) (one : held = [] ∨ f.parks = []) :
    let on := f.goesOn w.ended (held.foldl (fun m x => m ||| x.1) 0) p
    ∃ b : Bool, (f.parks = [] → b = true) ∧
      (∀ l, l < 32 → (w.advance f rbf marks held p new).pc l = if b && hasLane on l then f.target l % 2 ^ 57 else w.pc l) ∧
      ∀ n l, l < 32 → (w.advance f rbf marks held p new).latch n l = if rbf && (b && hasLane on l) then 0 else w.latch n l := by
  intro on
  obtain ⟨old, lead, grp, e⟩ := advance_eq_split rbf marks p new unsplit one
  refine ⟨old.group f on new == 0, fun noPark => ?_, fun l hl => ?_, fun n l hl => ?_⟩
  · simp [Stream.group, grp, noPark]
  · rw [e, Wave.pc, (retarget_keeps _ _ _).1, listGet_lanes _ _ _ hl, Bool.and_comm]
    split
    · exact BitVec.toNat_ofNat _ _
    · rfl
  · rw [e, Wave.latch, (retarget_keeps _ _ _).2.1]
    refine (latch_endRun w _ n l hl).trans ?_
    have z (m : Mask) : m ||| 0 = m := BitVec.or_zero
    have empty : hasLane 0 l = false := BitVec.getLsbD_zero
    rw [alive, z]
    generalize (old.group f on new == 0) = b
    cases b
    · rw [Bool.and_false, if_neg Bool.false_ne_true, empty, Bool.false_and, Bool.and_false]
    · rw [Bool.and_true, Bool.true_and]
      cases rbf
      · rw [if_neg Bool.false_ne_true, empty, Bool.false_and]
      · rw [if_pos rfl, Bool.true_and]

/-- The runs of the wave are the pieces of the run in execution, and those that lie beside it. -/
theorem advance_streams (unsplit : Unsplit w) (one : held = [] ∨ f.parks = []) :
    let on := f.goesOn w.ended (held.foldl (fun m x => m ||| x.1) 0) p
    ∃ old : Stream, old.grp = 0 ∧
      (∀ r ∈ old.split f rbf held on (old.group f on new), ∃ x ∈ (w.advance f rbf marks held p new).streams, x.lanes = r.lanes ∧ x.st = r.st) ∧
      ∀ x ∈ (w.advance f rbf marks held p new).streams,
        (∃ r ∈ old.split f rbf held on (old.group f on new), x.lanes = r.lanes ∧ x.st = r.st) ∨ x.lanes &&& f.lanes = 0 := by
  intro on
  obtain ⟨old, lead, grp, e⟩ := advance_eq_split rbf marks p new unsplit one
  refine ⟨old, grp, fun r hr => ?_, fun x hx => ?_⟩
  · rw [e]
    exact mem_retarget f lead (List.mem_append_left _ hr)
  · rw [e] at hx
    obtain ⟨r, hr, lanes, st⟩ := of_mem_retarget hx
    rcases List.mem_append.mp hr with hr | hr
    · exact .inl ⟨r, hr, lanes, st⟩
    · obtain ⟨z, hz, rfl⟩ := List.mem_map.mp hr
      rw [mark_lanes] at lanes
      exact .inr (by rw [lanes]; exact beq_iff_eq.mp (List.mem_filter.mp hz).2)

/-- Lanes that park without a fault are a run that waits. -/
theorem advance_parks {c : ParkCond} {m : Mask} (hp : (c, m) ∈ f.parks) (hm : m ≠ 0) :
    ∃ r ∈ (w.advance f rbf marks [] p new).streams, r.lanes = m ∧ r.st = .park c f.len rbf f.insn := by
  unfold Wave.advance
  extract_lets h on first old before g rest src w1 w2
  obtain ⟨r, hr, lanes, st, -⟩ := split_parked (t := old) (rbf := rbf) (on := on) (g := g) hp hm
  have here : r ∈ w2.streams := mem_mergeRuns_of_waits (w := w1) (List.mem_append_left _ hr) (by rw [Stream.waits, st])
  obtain ⟨u, hu, sameLanes, sameSt⟩ := mem_retarget f ((on ||| before) &&& ~~~ w2.joining) here
  exact ⟨u, hu, sameLanes.trans lanes, sameSt.trans st⟩

end

end Sys2Proof.Machine

namespace Sys2Proof.Claim
open Sys2Proof Sys2Proof.Machine

/-! ## Instructions that park -/

theorem ParksOn.of_woken {s t : State} {core slot : Nat} {w w1 : Wave} {rbf : Bool} {m : Mask} {c : ParkCond} (h : Woken w w1)
    (k : ParksOn s t core slot w1 rbf m c) : ParksOn s t core slot w rbf m c := by
  obtain ⟨u, hu, same, run, stay⟩ := k
  refine ⟨u, hu, sameWave_trans h.sameWave same, run, fun un l hl lane => ?_⟩
  obtain ⟨pc, latch⟩ := stay (h.unsplit un) l hl lane
  have pcs : w1.pc l = w.pc l := by rw [← h.same]; rfl
  have latches : w1.latch = w.latch := by rw [← h.same]; rfl
  exact ⟨pc.trans pcs, fun n => (latch n).trans (by rw [latches])⟩

/-- The end of an instruction that has parked lanes: they wait, and the wave advances. -/
theorem Runs.parkOn {s s1 : State} {core slot : Nat} {w w1 : Wave} (h : Runs s core slot w) (focus : s1.focus = s.focus)
    (here : s1.wave? core slot = some w1) (ended : w1.ended = w.ended) {m : Mask} (some' : m ≠ 0) (c : ParkCond) (rbf : Bool) (marks : BitVec 4) :
    ParksOn s ((s1.parkOn m c).finishWave rbf marks) core slot w1 rbf m c ∧
      ∃ u, Becomes s1 core slot u ((s1.parkOn m c).finishWave rbf marks) := by
  have parked : (s1.parkOn m c).focus = { s.focus with parks := [(c, m)] } := by
    simp only [State.parkOn, State.modF, focus, h.parks, List.any_nil, Bool.false_eq_true, if_false, List.nil_append]
  obtain ⟨new, become⟩ := finishWave_becomes (s := s1.parkOn m c) (s1 := s1.parkOn m c) (held := []) rbf marks (by rw [parked]; exact h.unit)
    (by rw [parked]; exact h.gone) (by rw [parked]; exact h.accs) (by rw [parked, h.holds]; rfl) here (by rw [ended]; exact ended_of_runs h)
  rw [parked] at become
  refine ⟨?_, _, become.wave, become.others, become.cores, become.rest⟩
  obtain ⟨y, hy⟩ := become.wave
  refine ⟨_, hy, ?_, advance_parks (List.mem_singleton.mpr rfl) some', fun un l hl lane => ?_⟩
  · exact sameWave_trans (advance_same _ _ _ _ _ _ _) ⟨rfl, fun _ _ _ => .inl rfl, fun _ => .inl rfl⟩
  · obtain ⟨b, -, pcs, latches⟩ := advance_moves (f := { s.focus with parks := [(c, m)] }) (rbf := rbf) (marks := marks) (held := [])
      (p := [(c, m)].foldl (fun m x => m ||| x.2) 0) (new := new) un (by rw [ended]; exact h.alive) (.inl rfl)
    have stays : hasLane (({ s.focus with parks := [(c, m)] } : Focus).goesOn w1.ended 0 ([(c, m)].foldl (fun m x => m ||| x.2) 0)) l = false := by
      have all : (0 : Mask) ||| m = m := BitVec.zero_or
      rw [hasLane_goesOn _ _ _ _ hl, List.foldl_cons, List.foldl_nil, all, lane, Bool.not_true, Bool.and_false, Bool.false_and]
    refine ⟨(pcs l hl).trans ?_, fun n => (latches n l hl).trans ?_⟩
    · exact if_neg (by rw [List.foldl_nil, stays, Bool.and_false]; exact Bool.false_ne_true)
    · exact if_neg (by rw [List.foldl_nil, stays, Bool.and_false, Bool.and_false]; exact Bool.false_ne_true)

end Sys2Proof.Claim

namespace Sys2Proof.Claim
open Sys2Proof Sys2Proof.Machine

/-! # Collective pushes (R351, R394) -/

/-! ## A push that discards a result held for its step

A result may reach the device before the command of its step (R398); it is kept. A command of another operation that is then pushed for the
step does not match it, and the result is discarded with a report (R394): the communicator loses an entry that is no part of the push. -/

/-- The outcome of step 0 as its closer reports it: a stall. -/
def heldStall : CollRes := ⟨0, 2, 0, 0, []⟩

/-- A communicator of two members, rank 1, that keeps the stall of step 0. -/
def stalledComm : Comm :=
  ⟨0, BitVec.ofNat 64 (2 ^ 63 + 2 ^ 45 + 2 ^ 33), 0, 0, 0, 0, [1, 2], List.replicate 2 ⟨true, 0, 0⟩, [], [], none, false, [], none, 0, 0,
    [heldStall]⟩

/-- A wave whose registers s0 to s7 name communicator 0, step 0 and 8 bytes. -/
def exchangeWave : Wave := { Wave.empty with uid := 1, s := [(6, 8)] }

/-- Its lane 0 executes an instruction. -/
def exchangePushed : State :=
  { State.reset with
    cores := [(0, { Core.init with slots := [(0, exchangeWave)] })]
    comms := [(0, stalledComm)]
    focus := ⟨.wave 0 0, 1, true, true, 0x10000, 8, 0, none, [], [], [], 0, false, [], none⟩ }

def unguarded : Ctl := ⟨always, false⟩

/-- The results that the communicators keep after a step. -/
def resultsAfter (o : Host.Outcome State Fault Refusal) : List (List CollRes) :=
  match o with
  | .next t => t.comms.map (·.2.results)
  | _ => []

theorem exchangePushed_runs : Runs exchangePushed 0 0 exchangeWave :=
  ⟨rfl, rfl, rfl, rfl, rfl, rfl, rfl, rfl, rfl, rfl, by decide, by decide⟩

theorem resultsAfter_exchange : resultsAfter (exec (.collA2a unguarded 0 0) exchangePushed) = [[]] := by decide +kernel

/-- Refutes O46: a push of an exchange takes from its communicator the result that it keeps for the step. -/
theorem not_collectiveInstructions : ¬ Obligations.CollectiveInstructions := by
  unfold Obligations.CollectiveInstructions
  intro h
  obtain ⟨pushes, -, -⟩ := h unguarded exchangePushed 0 0 exchangeWave exchangePushed_runs (by decide)
  obtain ⟨-, exchange, -, -⟩ := pushes 0 0 stalledComm rfl (by decide) rfl rfl (by decide) rfl rfl rfl rfl rfl rfl rfl rfl
  obtain ⟨t, ht, ends⟩ := exchange (by decide) (by decide) (by decide)
  have lost : t.comms.map (·.2.results) = [[]] := by
    have := resultsAfter_exchange
    rwa [ht] at this
  have kept : t.comms.map (·.2.results) = [[heldStall]] := congrArg (fun u : State => u.comms.map (·.2.results)) ends.rest
  exact absurd (lost.symm.trans kept) (by decide)

end Sys2Proof.Claim

namespace Sys2Proof.Claim
open Sys2Proof Sys2Proof.Machine

/-! # Links (R391)

The part has 18 ports, and every step that changes one keeps 18. The statement speaks of any list of ports: where it has a nineteenth, an access
that the link of that port holds loses its port with the first change of another. -/

/-- An access to a peer by Ethernet that the link of port 18 holds. -/
def heldAccess : FlowAcc :=
  ⟨0, .store, 1, 0, 0, 1, 0x50000, engPa 7, .store 8 1, false, false, 0, 0, 18, (BitVec.ofNat 64 (2 ^ 63 + 2 ^ 61), 0), noEvent, false⟩

/-- Nineteen ports: the first retrains, the last is up, the others are down. -/
def nineteenPorts : State :=
  { State.reset with
    ports := { Port.init with st := .training 0 } :: (List.replicate 17 Port.init ++ [{ Port.init with st := .up }])
    flows := [⟨0, 0, 0, 7, 1, [heldAccess], [], []⟩] }

/-- The ports by which the open accesses of flow 0 leave after a step. -/
def portsAfter (o : Host.Outcome State Fault Refusal) : List Nat :=
  match o with
  | .next t => (t.flow 0).open'.map (·.port)
  | _ => []

theorem portsAfter_resumed : portsAfter (exec (.retrainBound 0 true) nineteenPorts) = [16] := by decide +kernel

/-- An access that the link of another port holds, which is not down, keeps that port. -/
theorem Freed.keeps_port {s t : State} {k f : Nat} {up : Bool} {a : FlowAcc} (h : Freed s t k up) (one : (s.flow f).open' = [a])
    (held : a.sent = false) (other : a.port ≠ k) (stands : (portAt s a.port).st ≠ .down) : (t.flow f).open'.map (·.port) = [a.port] := by
  have all := h f
  rw [one] at all
  obtain ⟨b, rest, ⟨-, freed⟩, tail, open'⟩ := List.forall₂_cons_left_iff.mp all
  obtain rfl := List.forall₂_nil_left_iff.mp tail
  obtain ⟨p, keeps, -, hb⟩ := freed held
  obtain rfl := keeps ((if_neg other).trans (beq_eq_false_iff_ne.mpr stands))
  rw [open', hb]
  split <;> rfl

/-- Refutes O53: with a nineteenth port, up, an access that its link holds leaves by port 16 once port 0 has retrained. -/
theorem not_flowsAndLinks : ¬ Obligations.FlowsAndLinks := by
  unfold Obligations.FlowsAndLinks
  intro h
  obtain ⟨-, -, links, -, -⟩ := h
  obtain ⟨-, resumes, -⟩ := links nineteenPorts 0 (by decide)
  obtain ⟨within, -⟩ := resumes 0 rfl
  obtain ⟨t, ht, freed, -⟩ := within (by decide)
  have moved : (t.flow 0).open'.map (·.port) = [16] := by
    have := portsAfter_resumed
    rwa [ht] at this
  have kept := freed.keeps_port (f := 0) (a := heldAccess) rfl rfl (by decide) (by decide)
  exact absurd (moved.symm.trans kept) (by decide)

end Sys2Proof.Claim

namespace Sys2Proof.Machine
open Sys2Proof Sys2Proof.Claim

/-! # Fences, prefetches and memory waits -/

/-! ## What a speculative access leaves (R276) -/

theorem combine_slots (s : State) (pa : Nat) : (s.combine pa).slots = s.slots := by
  unfold State.combine
  dsimp only
  split
  · rfl
  · refine Laws.foldl_keeps (fun t => t.slots = s.slots) _ (fun t x k => ?_) _ _ rfl
    exact k

theorem combineTables_slots (s : State) (aslot va : Nat) : (s.combineTables aslot va).slots = s.slots := by
  have one (t : State) (h : t.slots = s.slots) (l : List Nat) : (l.foldl State.combine t).slots = s.slots :=
    Laws.foldl_keeps (fun t => t.slots = s.slots) _ (fun t e k => (combine_slots t e).trans k) l t h
  have passes (n : Nat) (t : State) (h : t.slots = s.slots) :
      (iterate (fun t => (t.tablePath aslot va).foldl State.combine t) n t).slots = s.slots := by
    induction n generalizing t with
    | zero => exact h
    | succ n ih => exact ih _ (one t h _)
  have first := passes 5 s rfl
  unfold State.combineTables
  generalize iterate _ 5 s = t at first ⊢
  exact Laws.foldl_keeps (fun t => t.slots = s.slots) _ (fun t e k => (homeToken_tokens t e).step.slots.trans k) _ t first

/-- What a speculative access leaves: the instruction in execution, the slots and the registers of every wave; while no contribution waits to be
combined, memory and every core but for its L1 and its count of misses. -/
structure Speculated (s t : State) : Prop where
  record : RecordStep s t
  slots  : t.slots = s.slots
  quiet  : (∀ line, s.linePartials line = []) → t.mem = s.mem ∧ (∀ line, t.linePartials line = []) ∧
    ∀ i, { t.core i with l1 := [], smiss := 0 } = { s.core i with l1 := [], smiss := 0 }

theorem Speculated.of_read {s t : State} (h : ReadStep s t) : Speculated s t :=
  ⟨.of_read h, h.slots, fun n => ⟨h.mem, fun l => h.partials l (n l), fun i => congrArg (fun c : Core => { c with smiss := 0 }) (h.cores i)⟩⟩

theorem Speculated.refl (s : State) : Speculated s s := .of_read (.refl s)

theorem Speculated.trans {a b c : State} (h : Speculated a b) (k : Speculated b c) : Speculated a c := by
  refine ⟨h.record.trans k.record, k.slots.trans h.slots, fun n => ?_⟩
  obtain ⟨mem, partials, cores⟩ := h.quiet n
  obtain ⟨mem', partials', cores'⟩ := k.quiet partials
  exact ⟨mem'.trans mem, partials', fun i => (cores' i).trans (cores i)⟩

theorem combine_speculated (s : State) (pa : Nat) : Speculated s (s.combine pa) :=
  ⟨combine_record s pa, combine_slots s pa, fun n => by rw [combine_plain s pa (n _)]; exact (Speculated.refl s).quiet n⟩

theorem combineTables_speculated (s : State) (aslot va : Nat) : Speculated s (s.combineTables aslot va) :=
  ⟨combineTables_record s aslot va, combineTables_slots s aslot va,
    fun n => (Speculated.of_read (combineTables_plain s aslot va fun e _ => n (e / 128)).step).quiet n⟩

theorem countMiss_speculated (s : State) (i : Nat) (f : BitVec 32 → BitVec 32) :
    Speculated s (s.modCore i fun c => { c with smiss := f c.smiss }) := by
  refine ⟨modCore_record s i _ rfl, rfl, fun n => ⟨rfl, fun l => partials_of_l1 (fun c hc p hp => ?_) (n l), fun j => ?_⟩⟩
  · rcases mem_aput _ _ _ _ hc with rfl | h
    · have mine : p ∈ (s.core i).partials := hp
      unfold State.core at mine
      cases e : aget s.cores i with
      | none => rw [e] at mine; cases mine
      | some c => exact ⟨(i, c), aget_mem _ _ _ e, by rw [e] at mine; exact mine⟩
    · exact ⟨c, h, hp⟩
  · rw [core_modCore]
    split
    · subst_vars; rfl
    · rfl

theorem speculate_speculated (s : State) (core aslot va : Nat) (k : AKind) (fill : Bool) : Speculated s (s.speculate core aslot va k fill) := by
  unfold State.speculate
  split
  · exact .refl s
  · have tables : Speculated s (if va < 2 ^ 57 then s.combineTables aslot va else s) := by
      split
      · exact combineTables_speculated s aslot va
      · exact .refl s
    generalize (if va < 2 ^ 57 then s.combineTables aslot va else s) = t at tables
    dsimp only
    split
    · exact tables.trans (countMiss_speculated t core (· + 1))
    · split
      · exact tables.trans ((Speculated.of_read (tokRead_step t _ _ _ _)).trans (combine_speculated _ _))
      · exact tables

end Sys2Proof.Machine

namespace Sys2Proof.Claim
open Sys2Proof Sys2Proof.Machine

section
variable {s s1 : State} {core slot : Nat} {w : Wave} {c : Ctl}

theorem Runs.prefetch (h : Runs s core slot w) (uni home : Bool) (ev : BitVec 3) (base : ABase) (idx : Option Src) (off : BitVec 24) :
    ∃ t, exec (.prefetch c uni home ev base idx off) s = .next t ∧ KeepsWave s t core slot w c.rbf ∧
      t.slots = s.slots ∧ ((∀ cr ∈ s.cores, cr.2.partials = []) → t.mem = s.mem ∧
        ∀ i, { quietCore (t.core i) with l1 := [], smiss := 0 } = { quietCore (s.core i) with l1 := [], smiss := 0 }) := by
  refine ⟨_, by rw [exec_prefetch, execPrefetch, onWave_wave h.unit], ?_⟩
  have spec : Speculated s (s.eachGroup c.guard uni fun s l _ => s.speculate s.cur s.curAslot (s.w.gaddr base idx 1 off l) .load (!home)) :=
    Laws.foldl_keeps (Speculated s) _ (fun t x k => k.trans (speculate_speculated t _ _ _ _ _)) _ s (.refl s)
  generalize State.eachGroup _ _ _ _ = t at spec ⊢
  obtain ⟨keeps, slots⟩ := h.finish_record spec.record c.rbf 0
  refine ⟨keeps, slots.trans spec.slots, fun none => ?_⟩
  obtain ⟨u, hu, woken⟩ := spec.record.waves core slot w h.here
  have ends := h.finish spec.record.focus hu (sameWave_ended woken.sameWave) c.rbf 0
  obtain ⟨mem, -, cores⟩ := spec.quiet fun line => by
    rw [State.linePartials, List.flatMap_eq_nil_iff]
    intro cr hcr
    rw [none cr hcr]
    rfl
  refine ⟨(congrArg State.mem ends.rest : _).trans mem, fun i => ?_⟩
  exact (congrArg (fun c : Core => { c with l1 := [], smiss := 0 }) (ends.cores i)).trans (congrArg quietCore (cores i))

/-! ## Fences (R269) -/

theorem foldl_unmoved {α β : Type} (f : β → α → β) (b : β) (l : List α) (h : ∀ x ∈ l, f b x = b) : l.foldl f b = b := by
  induction l with
  | nil => rfl
  | cons x l ih => rw [List.foldl_cons, h x List.mem_cons_self]; exact ih fun y hy => h y (List.mem_cons_of_mem x hy)

/-- The wave executes in every state that holds it and the instruction in execution. -/
theorem Runs.of_same (h : Runs s core slot w) (focus : s1.focus = s.focus) (here : s1.wave? core slot = some w) : Runs s1 core slot w := by
  obtain ⟨unit, -, parks, taken, holds, joined, gone, resume, accs, since, lanes, alive⟩ := h
  rw [← focus] at unit parks taken holds joined gone resume accs since lanes alive
  exact ⟨unit, here, parks, taken, holds, joined, gone, resume, accs, since, lanes, alive⟩

theorem Runs.setPreds (h : Runs s core slot w) (p : BitVec 4) (m : Mask) (f : Nat → Bool) :
    ∃ w1, s.setPreds p.toNat m f = s.setWave core slot w1 ∧ w1.ended = w.ended ∧ PredWritten w w1 m p f := by
  have rest := foldl_setP_rest p.toNat f (lanesOf m) w
  refine ⟨_, h.modW _, (congrArg Wave.ended rest : _), fun q l hq hl => ?_, rest⟩
  have last : p.toNat ≠ 15 ↔ p ≠ 15 := by rw [ne_eq, ne_eq, ← BitVec.toNat_inj]; rfl
  rw [foldl_setP _ _ _ _ _ _ hq hl fun x hx => ((mem_lanesOf _ _).mp hx).1]
  simp only [mem_lanesOf, last, hl, true_and]

/-- A wave that has had no remote access go wrong has nothing to report (R269). -/
theorem Runs.report_none (h : Runs s core slot w) (none : w.remErr = []) (m : Mask) (scope : Scope) :
    s.report m scope = (s.setWave core slot w, []) := by
  have same : ({ w with remErr := [] } : Wave) = w := by rw [← none]
  simp only [State.report, h.w, none, List.map_nil, List.filter_nil, List.foldl_nil, same, h.modW]

theorem fence_waits_none (h : Runs s core slot w) (m : Mask) (scope : Scope) (none : ∀ f ∈ s.flows, ∀ a ∈ f.open', a.uid ≠ w.uid ∨ a.kind = .load) :
    s.flows.foldl (fun n f => f.open'.foldl (fun n a => if a.openOf s.w.uid m && farIn scope a.sys then n ||| (a.lanes &&& m) else n) n) 0 =
      (0 : Mask) := by
  refine foldl_unmoved _ _ _ fun f hf => foldl_unmoved _ _ _ fun a ha => if_neg ?_
  rw [h.w, FlowAcc.openOf]
  rcases none f hf a ha with uid | load
  · simp only [beq_eq_false_iff_ne.mpr uid, Bool.false_and, Bool.false_eq_true, not_false_eq_true]
  · simp only [load, bne_self_eq_false, Bool.and_false, Bool.false_and, Bool.false_eq_true, not_false_eq_true]

theorem and_not_zero (m : Mask) : m &&& ~~~(0 : Mask) = m := BitVec.and_allOnes

theorem Runs.fence (h : Runs s core slot w) (strict : Bool) (ord : Ord) (scope : Scope) (p : BitVec 4) (act : s.active c.guard ≠ 0)
    (clean : w.remErr = []) (none : ∀ f ∈ s.flows, ∀ a ∈ f.open', a.uid ≠ w.uid ∨ a.kind = .load) :
    ∃ t w1, exec (.fence c strict ord scope p) s = .next t ∧ PredWritten w w1 (s.active c.guard) p (fun _ => true) ∧
      Ends (if ord = .rel ∨ ord = .ar then s.bump (32 * core + slot) 1 else s) core slot w1 t c.rbf := by
  have h1 : Runs (s.setWave core slot w) core slot w := h.of_same rfl (by rw [wave_setWave, if_pos ⟨rfl, rfl⟩])
  obtain ⟨s2, counted, base⟩ : ∃ s2, (if ordReleases ord then (s.setWave core slot w).bump (s.setWave core slot w).waveId 1 else s.setWave core slot w) = s2 ∧
      s2 = (if ord = .rel ∨ ord = .ar then s.bump (32 * core + slot) 1 else s).setWave core slot w := by
    refine ⟨_, rfl, ?_⟩
    rw [State.waveId, h1.cur, h1.curSlot]
    cases ord <;> rfl
  have h2 : Runs s2 core slot w := h.of_same (by rw [base]; split <;> rfl) (by rw [base, wave_setWave, if_pos ⟨rfl, rfl⟩])
  obtain ⟨w1, set, ended, written⟩ := h2.setPreds p (s.active c.guard) fun _ => true
  refine ⟨_, w1, h.once act (exec_fence c strict ord scope p s), written, ?_⟩
  have go : (s.active c.guard == 0) = false := beq_eq_false_iff_ne.mpr act
  have lanes : lanesOf (0 : Mask) = [] := lanesOf_zero
  have all : (fun l => !hasLane 0 l) = fun _ : Nat => true := funext fun l => congrArg not BitVec.getLsbD_zero
  simp only [fence_waits_none h _ scope none, beq_self_eq_true, if_true, and_not_zero, go, Bool.false_eq_true, if_false, h.report_none clean,
    List.foldl_nil, counted, lanes, all, ite_self, set]
  have ends := h2.finish_setWave ended c.rbf 0
  rw [base] at ends ⊢
  exact EndsAt.of_setWave ends

/-! ## Memory waits (R268) -/

theorem Runs.of_read (h : Runs s core slot w) (st : ReadStep s s1) : Runs s1 core slot w := h.of_same st.focus ((st.wave core slot).trans h.here)

theorem putScal_ended (w : Wave) (wide : Bool) (n x : Nat) : (putScal w wide n x).ended = w.ended := by cases wide <;> rfl

/-- An instruction that has made no remote access has none to make anew. -/
theorem reissue_none (s : State) (none : s.focus.accs = []) : s.reissue = s := by
  have same : ({ s.focus with accs := [] } : Focus) = s.focus := by rw [← none]
  rw [State.reissue, State.modF, none, forget_nil, same]

theorem Runs.mwait (h : Runs s core slot w) (wide : Bool) (m : MAttr) (d sA sE sT : SReg) (off : BitVec 24) (leaf : Leaf)
    (act : s.active c.guard ≠ 0) (direct : Direct s core w (s.active c.guard)) :
    let va := s.saddr sA off
    let n := if wide then 8 else 4
    va % n = 0 → Reaches s w.aslot va n .load leaf → PlainSector s (leaf.pa va) →
    (rdNum s.mem (leaf.pa va) n ≠ w.scal wide sE →
      ∃ t w1, exec (.mwait c wide m d sA sE sT off) s = .next t ∧ EndsRead s core slot w1 t c.rbf ∧
        ScalWritten w w1 (s.active c.guard) d wide (rdNum s.mem (leaf.pa va) n)) ∧
    (rdNum s.mem (leaf.pa va) n = w.scal wide sE →
      ∃ t, exec (.mwait c wide m d sA sE sT off) s = .next t ∧ t.mem = s.mem ∧ ParksOn s t core slot w c.rbf (s.active c.guard)
        (.mwait (leaf.pa va) (if w.scal false sT = 0 then none else some (s.cyc + 1024 * w.scal false sT)) false)) := by
  intro va n aligned reaches plain
  obtain ⟨uncommitted, unraced, log, tlb⟩ := direct
  have unchecked : s.checked = false := by rw [State.checked, h.unit, h.w]; exact unraced
  have unlogged : s.hasEntry (s.active c.guard) va = false := by rw [State.hasEntry, h.cur, h.w, log]; rfl
  obtain ⟨s1, load, st1, tlb1⟩ := loadLane_plain (lane := lowLane (s.active c.guard)) (lanes := s.active c.guard) (natural := true) (ld := false)
    (own := false) (scope := m.scope) (by rw [h.cur, h.curAslot]; exact tlb) (by rw [h.curAslot]; exact reaches) plain (fun _ => aligned)
    (by rw [h.w]; exact uncommitted) unchecked unlogged h.accs
  change s.loadLane _ _ (s.saddr sA off) (if wide then 8 else 4) _ _ _ _ = _ at load
  have h1 := h.of_read st1
  have fresh : s.focus.deadline = .none := by rw [Focus.deadline, h.since]
  have plain' : (w.commit && s.active c.guard != 0) = false := by rw [uncommitted, Bool.false_and]
  have body := h.once act (exec_mwait c wide m d sA sE sT off s)
  rw [State.plainOnly, h.w, plain', if_neg Bool.false_ne_true] at body
  simp only [load, fresh, Option.isSome_none, Bool.false_and, Bool.or_false, Option.getD_none, h.scal, beq_iff_eq] at body
  refine ⟨fun differs => ?_, fun same => ?_⟩
  · refine ⟨_, _, body, ?_, putScal_written w _ d wide _ act⟩
    rw [if_pos (bne_iff_ne.mpr differs), setScal_wave h1.unit h1.here]
    exact finish_read h st1 (putScal_ended _ _ _ _) c.rbf 0
  · obtain ⟨s2, a, reach, st2, -, pa, -⟩ := reach_reaches tlb1 (by rw [h.curAslot]; exact st1.reaches reaches)
    refine ⟨_, body, ?_⟩
    rw [same, bne_self_eq_false, if_neg Bool.false_ne_true, State.watch, reissue_none s1 (by rw [st1.focus]; exact h.accs),
      h1.cur, h1.curAslot]
    rw [h.cur, h.curAslot] at reach
    rw [reach]
    dsimp only
    rw [pa, plain.dram]
    obtain ⟨parks, u, becomes⟩ := h.parkOn (st2.focus.trans st1.focus) ((st2.wave core slot).trans h1.here) rfl act
      (.mwait (leaf.pa va) (if w.scal false sT = 0 then none else some (s.cyc + 1024 * w.scal false sT)) false) c.rbf 0
    exact ⟨becomes.mem.trans (st2.mem.trans st1.mem), parks⟩

end

/-- Settles O24: a fence finds no access open and nothing to report; a prefetch only speculates; `mwait` loads the word and, where it finds the one
expected, watches its sector. -/
theorem fencesAndWaits : Obligations.FencesAndWaits := by
  unfold Obligations.FencesAndWaits
  exact fun c s core slot w h => ⟨fun strict ord scope p act clean none => h.fence strict ord scope p act clean none,
    fun uni home ev base idx off => h.prefetch uni home ev base idx off,
    fun wide m d sA sE sT off leaf act direct => h.mwait wide m d sA sE sT off leaf act direct⟩

end Sys2Proof.Claim

namespace Sys2Proof.Machine
open Sys2Proof Sys2Proof.Claim

/-! # Counted barriers -/

/-! ## A barrier and its waiters (R328, R329) -/

section
variable {s : State} {core cb n : Nat} {q : List (Waiter × Nat)}

theorem cbar_withBarrier (h : cb < 16) : ((withBarrier s core cb n q).core core).cbar cb = ⟨n, q⟩ := by
  rw [withBarrier, core_modCore, if_pos rfl, Core.cbar, listGet_listPut _ _ _ _ _ _ h, if_pos rfl]

theorem wave_withBarrier (i k : Nat) : (withBarrier s core cb n q).wave? i k = s.wave? i k := wave_modCore _ _ _ _ _ rfl

theorem xp_withBarrier (i x : Nat) : (withBarrier s core cb n q).xp i x = s.xp i x := by
  rw [State.xp, withBarrier, core_modCore]
  split
  · subst_vars; rfl
  · rfl

theorem modCb_eq (h : cb < 16) (f : CBar → CBar) :
    let b := f ((s.core core).cbar cb)
    s.modCb core cb f = State.cbScan core cb b.wait.length (withBarrier s core cb b.count b.wait) := by
  intro b
  have stands : ((s.modCore core fun c => { c with cb := listPut ⟨0, []⟩ 16 c.cb cb (f (c.cbar cb)) }) : State) = withBarrier s core cb b.count b.wait := rfl
  rw [State.modCb, stands, cbar_withBarrier h]

/-- While nobody waits, nobody is let pass. -/
theorem modCb_idle (h : cb < 16) (f : CBar → CBar) (idle : (f ((s.core core).cbar cb)).wait = []) :
    s.modCb core cb f = withBarrier s core cb (f ((s.core core).cbar cb)).count [] := by
  rw [modCb_eq h, idle]; rfl

/-- A lone waiter passes once the counter is high enough. -/
theorem modCb_serves (h : cb < 16) (f : CBar → CBar) {y : Waiter} (one : (f ((s.core core).cbar cb)).wait = [(y, n)])
    (enough : n ≤ (f ((s.core core).cbar cb)).count) :
    s.modCb core cb f = (withBarrier (withBarrier s core cb (f ((s.core core).cbar cb)).count [(y, n)]) core cb
      ((f ((s.core core).cbar cb)).count - n) []).cbPass core cb y := by
  rw [modCb_eq h, one, List.length_singleton, State.cbScan, cbar_withBarrier h]
  dsimp only
  rw [if_pos enough]
  rfl

theorem modCb_waits (h : cb < 16) (f : CBar → CBar) {y : Waiter} (one : (f ((s.core core).cbar cb)).wait = [(y, n)])
    (low : (f ((s.core core).cbar cb)).count < n) :
    s.modCb core cb f = withBarrier s core cb (f ((s.core core).cbar cb)).count [(y, n)] := by
  rw [modCb_eq h, one, List.length_singleton, State.cbScan, cbar_withBarrier h]
  dsimp only
  rw [if_neg (Nat.not_le.mpr low)]

/-- A transfer processor that waits at the barrier passes. -/
theorem cbPass_xp {y : Nat} {b : Bool} (waits : (s.xp core y).st = .parked (.cbw cb n b)) :
    s.cbPass core cb (.xp y) = s.modXp core y fun p => { p with st := .parked (.cbw cb n true) } := by
  rw [State.cbPass]
  exact modXp_congr s core y _ _ (by rw [waits])

theorem cbar_modXp (i x : Nat) (f : XP → XP) (j : Nat) : ((s.modXp i x f).core j).cbar cb = (s.core j).cbar cb := by
  rw [State.modXp, core_modCore]
  split
  · subst_vars
    unfold Core.setXp
    split <;> rfl
  · rfl

/-- What the end of an instruction leaves of a core. -/
theorem cbar_of_quiet {c d : Core} (h : quietCore c = quietCore d) (k : Nat) : c.cbar k = d.cbar k := by
  have cb : c.cb = d.cb := (congrArg Core.cb h : _)
  rw [Core.cbar, cb, Core.cbar]

theorem xp_of_quiet {c d : Core} (h : quietCore c = quietCore d) (y : Nat) : c.xp y = d.xp y := by
  have x0 : c.xp0 = d.xp0 := (congrArg Core.xp0 h : _)
  have x1 : c.xp1 = d.xp1 := (congrArg Core.xp1 h : _)
  rw [Core.xp, x0, x1, Core.xp]

theorem cbAdd_eq {k : Nat} (small : ((s.core core).cbar cb).count + k < 2 ^ 32) :
    s.cbAdd core cb k = (s.modCb core cb fun b => { b with count := b.count + k }, true) := if_neg (Nat.not_le.mpr small)

end

/-! ## Sequence numbers (R122) -/

theorem nextSeqs_get (m : Map Nat) (ls : List Nat) (nodup : ls.Nodup) (l : Nat) :
    mget 0 (ls.foldl (fun m l => mset 0 m l (mget 0 m l + 1)) m) l = mget 0 m l + if l ∈ ls then 1 else 0 := by
  induction ls generalizing m with
  | nil => simp
  | cons x ls ih =>
    obtain ⟨fresh, rest⟩ := List.nodup_cons.mp nodup
    rw [List.foldl_cons, ih _ rest, mget_mset]
    by_cases e : l = x
    · subst e; simp [fresh]
    · simp [e]

theorem nextSeq_seqs (w : Wave) (m : Mask) {l : Nat} (hl : l < 32) :
    mget 0 (w.nextSeq m).seqs l = mget 0 w.seqs l + if hasLane m l then 1 else 0 := by
  have nodup : (lanesOf m).Nodup := List.Nodup.filter _ List.nodup_range
  rw [Wave.nextSeq, nextSeqs_get _ _ nodup]
  simp only [mem_lanesOf, hl, true_and]

end Sys2Proof.Machine

namespace Sys2Proof.Claim
open Sys2Proof Sys2Proof.Machine

/-! ## Instructions that a wave and a transfer processor execute once -/

section
variable {s s1 : State} {core slot x : Nat} {w : Wave} {p : XP} {c : Ctl} {i : Instr} {f : State → State}

theorem Runs.onceBoth (h : Runs s core slot w) (act : s.active c.guard ≠ 0) (he : exec i s = s.onceBoth c f) :
    exec i s = .next ((f s).finishWave c.rbf 0) := by
  rw [he, State.onceBoth, onBoth_wave h.unit, State.scalar, if_neg (by simpa using act)]

theorem XRuns.onceBoth (h : XRuns s core x p) (he : exec i s = s.onceBoth c f) : exec i s = .next ((f s).finishXp s.x.d) := by
  rw [he, State.onceBoth, onBoth_xp h.unit]

/-- The transfer processor executes in every state that holds it and the instruction in execution. -/
theorem XRuns.of_same (h : XRuns s core x p) (focus : s1.focus = s.focus) (here : s1.xp core x = p) : XRuns s1 core x p := by
  obtain ⟨unit, which, -, lanes, parks, taken, holds, resume, accs, run, stays, room⟩ := h
  rw [← focus] at unit lanes parks taken holds resume accs room
  exact ⟨unit, which, here, lanes, parks, taken, holds, resume, accs, run, stays, room⟩

/-- A transfer processor parks. -/
theorem XRuns.parkOn (h : XRuns s core x p) (m : Mask) (d : ParkCond) (old : Map Word) :
    (s.parkOn m d).finishXp old = { s.modXp core x fun p => { p with st := .parked d } with focus := Focus.idle } := by
  have parked : (s.parkOn m d).focus = { s.focus with parks := [(d, m)] } := by
    simp only [State.parkOn, State.modF, h.parks, List.any_nil, Bool.false_eq_true, if_false, List.nil_append]
  rw [State.finishXp, parked]
  simp only [h.unit, h.holds, List.isEmpty_cons, Bool.false_eq_true, if_false, forget_nil]
  rfl

/-! ## Waves at a counted barrier -/

section
variable {cb : BitVec 4} {k : BitVec 18}

/-- A release of a wave that has come to another state: it takes the numbers of its lanes and counts an interval. -/
theorem Runs.released (h : Runs s core slot w) (m : Mask) (rbf : Bool) :
    Ends (s.bump (32 * core + slot) 1) core slot (w.nextSeq m) ((s.released m).finishWave rbf 0) rbf := by
  have counts : s.released m = ((s.bump (32 * core + slot) 1).setWave core slot (w.nextSeq m)) := by
    have id : s.waveId = 32 * core + slot := by rw [State.waveId, h.cur, h.curSlot]
    rw [State.released, h.modW, id]
    rfl
  have h1 : Runs (s.bump (32 * core + slot) 1) core slot w := h.of_same rfl h.here
  rw [counts]
  exact h1.finish_setWave (w1 := w.nextSeq m) rfl rbf 0

theorem Runs.cba_logged (h : Runs s core slot w) (act : s.active c.guard ≠ 0) {e : LogEnt} {es : List LogEnt}
    (log : (s.core core).lanesLog w.uid (s.active c.guard) = e :: es) : ∃ t, exec (.cba c cb k) s = .next t ∧ (t.core core).cb = (s.core core).cb ∧
      ParksOn s t core slot w c.rbf (s.active c.guard) (.replayed (s.active c.guard) (e.va / 32)) := by
  refine ⟨_, h.onceBoth act (exec_cba c cb k s), ?_⟩
  simp only [h.unit, State.afterAll, State.afterLog, h.cur, h.w, log]
  obtain ⟨parks, u, becomes⟩ := h.parkOn rfl h.here rfl act (.replayed (s.active c.guard) (e.va / 32)) c.rbf 0
  exact ⟨(congrArg Core.cb (becomes.cores core) : _), parks⟩

theorem Runs.cba_unanswered (h : Runs s core slot w) (act : s.active c.guard ≠ 0) (log : (s.core core).lanesLog w.uid (s.active c.guard) = [])
    (unanswered : s.openRemote w.uid (s.active c.guard) = true) : ∃ t, exec (.cba c cb k) s = .next t ∧ (t.core core).cb = (s.core core).cb ∧
      ParksOn s t core slot w c.rbf (s.active c.guard) (.fence .sy) := by
  refine ⟨_, h.onceBoth act (exec_cba c cb k s), ?_⟩
  simp only [h.unit, State.afterAll, State.afterLog, State.afterRemote, h.cur, h.w, log, unanswered, if_true]
  obtain ⟨parks, u, becomes⟩ := h.parkOn rfl h.here rfl act (.fence .sy) c.rbf 0
  exact ⟨(congrArg Core.cb (becomes.cores core) : _), parks⟩

section
variable (h : Runs s core slot w) (act : s.active c.guard ≠ 0) (small : ((s.core core).cbar cb.toNat).count + k.toNat < 2 ^ 32)
  (log : (s.core core).lanesLog w.uid (s.active c.guard) = []) (answered : s.openRemote w.uid (s.active c.guard) = false)
include h act small log answered

/-- What a wave executes for an arrival once its lanes wait for nothing (R329, R330). -/
theorem Runs.cba_exec :
    exec (.cba c cb k) s = .next (((s.modCb core cb.toNat fun b => { b with count := b.count + k.toNat }).released
      (s.active c.guard)).finishWave c.rbf 0) := by
  rw [h.onceBoth act (exec_cba c cb k s)]
  simp only [h.unit, State.afterAll, State.afterLog, State.afterRemote, h.cur, h.w, log, answered, Bool.false_eq_true, if_false, cbAdd_eq small]

theorem Runs.cba_adds
    (idle : ((s.core core).cbar cb.toNat).wait = []) :
    ∃ q, Passes s ((withBarrier s core cb.toNat (((s.core core).cbar cb.toNat).count + k.toNat) []).bump (32 * core + slot) 1) core slot
        { w with seqs := q } c.rbf (.cba c cb k) ∧
      ∀ l, l < 32 → mget 0 q l = mget 0 w.seqs l + if hasLane (s.active c.guard) l then 1 else 0 := by
  refine ⟨(w.nextSeq (s.active c.guard)).seqs, ⟨_, h.cba_exec act small log answered, ?_⟩, fun l hl => nextSeq_seqs w _ hl⟩
  rw [modCb_idle cb.isLt _ idle]
  have h1 : Runs (withBarrier s core cb.toNat (((s.core core).cbar cb.toNat).count + k.toNat) []) core slot w :=
    h.of_same rfl ((wave_withBarrier _ _).trans h.here)
  exact h1.released _ c.rbf

/-- An arrival that is enough for a transfer processor lets it pass. -/
theorem Runs.cba_serves {y n : Nat} {b : Bool}
    (one : ((s.core core).cbar cb.toNat).wait = [(.xp y, n)]) (enough : n ≤ ((s.core core).cbar cb.toNat).count + k.toNat)
    (waits : (s.xp core y).st = .parked (.cbw cb.toNat n b)) :
    ∃ t, exec (.cba c cb k) s = .next t ∧ (t.core core).cbar cb.toNat = ⟨((s.core core).cbar cb.toNat).count + k.toNat - n, []⟩ ∧
      t.xp core y = { s.xp core y with st := .parked (.cbw cb.toNat n true) } ∧ KeepsWave s t core slot w c.rbf := by
  refine ⟨_, h.cba_exec act small log answered, ?_⟩
  rw [modCb_serves cb.isLt _ one enough, cbPass_xp (b := b) (by rw [xp_withBarrier, xp_withBarrier]; exact waits)]
  let s1 := withBarrier (withBarrier s core cb.toNat (((s.core core).cbar cb.toNat).count + k.toNat) [(.xp y, n)]) core cb.toNat
    (((s.core core).cbar cb.toNat).count + k.toNat - n) []
  let s2 := s1.modXp core y fun p => { p with st := .parked (.cbw cb.toNat n true) }
  have count : (s2.core core).cbar cb.toNat = ⟨((s.core core).cbar cb.toNat).count + k.toNat - n, []⟩ :=
    (cbar_modXp core y _ core).trans (cbar_withBarrier cb.isLt)
  have passed : s2.xp core y = { s.xp core y with st := .parked (.cbw cb.toNat n true) } := by
    rw [xp_modXp_same, xp_withBarrier, xp_withBarrier]
  have h2 : Runs s2 core slot w :=
    h.of_same rfl ((wave_modXp s1 core y _ core slot).trans (by rw [wave_withBarrier, wave_withBarrier]; exact h.here))
  obtain ⟨⟨u, hu, went⟩, -, cores, -⟩ := h2.released (s.active c.guard) c.rbf
  have seqs : ({ w with seqs := u.seqs } : Wave) = w.nextSeq (s.active c.guard) := by rw [went.same.seqs]; rfl
  exact ⟨(cbar_of_quiet (cores core) _).trans count, (xp_of_quiet (cores core) y).trans passed, u, hu, by rw [seqs]; exact went⟩

end

/-- An instruction of a wave that only gives a barrier another value and list. -/
theorem Runs.setsBarrier (h : Runs s core slot w) (act : s.active c.guard ≠ 0) (he : exec i s = s.onceBoth c f) {n : Nat} {q : List (Waiter × Nat)}
    (sets : f s = withBarrier s core cb.toNat n q) : Passes s (withBarrier s core cb.toNat n q) core slot w c.rbf i :=
  ⟨_, h.onceBoth act he, by
    rw [sets]
    exact h.finish (s1 := withBarrier s core cb.toNat n q) rfl ((wave_withBarrier _ _).trans h.here) rfl c.rbf 0⟩

theorem XRuns.setsBarrier (h : XRuns s core x p) (he : exec i s = s.onceBoth c f) {n : Nat} {q : List (Waiter × Nat)}
    (sets : f s = withBarrier s core cb.toNat n q) : XPasses s (withBarrier s core cb.toNat n q) core x p i :=
  ⟨_, h.onceBoth he, by
    have h1 : XRuns (withBarrier s core cb.toNat n q) core x p := h.of_same rfl ((xp_withBarrier _ _).trans h.here)
    rw [sets]
    exact h1.finish_same _⟩

theorem not_passed (none : s.focus.resume = .none) : s.focus.cbPassed = false := by rw [Focus.cbPassed, none]

theorem Runs.cbset (h : Runs s core slot w) (act : s.active c.guard ≠ 0) (idle : ((s.core core).cbar cb.toNat).wait = []) :
    Passes s (withBarrier s core cb.toNat k.toNat []) core slot w c.rbf (.cbset c cb k) :=
  h.setsBarrier act (exec_cbset c cb k s) (by rw [h.cur, modCb_idle cb.isLt _ idle])

theorem Runs.cbw_takes (h : Runs s core slot w) (act : s.active c.guard ≠ 0) (idle : ((s.core core).cbar cb.toNat).wait = [])
    (enough : k.toNat ≤ ((s.core core).cbar cb.toNat).count) :
    Passes s (withBarrier s core cb.toNat (((s.core core).cbar cb.toNat).count - k.toNat) []) core slot w c.rbf (.cbw c cb k) :=
  h.setsBarrier act (exec_cbw c cb k s) (by
    simp only [not_passed h.resume, h.cur, idle, List.isEmpty_nil, Bool.true_and, decide_eq_true enough, Bool.false_eq_true, if_false, if_true]
    exact modCb_idle cb.isLt _ idle)

theorem Runs.cbw_waits (h : Runs s core slot w) (act : s.active c.guard ≠ 0) (idle : ((s.core core).cbar cb.toNat).wait = [])
    (low : ((s.core core).cbar cb.toNat).count < k.toNat) : ∃ t, exec (.cbw c cb k) s = .next t ∧
      ParksOn s t core slot w c.rbf (s.active c.guard) (.cbw cb.toNat k.toNat false) ∧
      (t.core core).cbar cb.toNat = ⟨((s.core core).cbar cb.toNat).count, [(.wave w.uid (s.active c.guard), k.toNat)]⟩ := by
  refine ⟨_, h.onceBoth act (exec_cbw c cb k s), ?_⟩
  have joins := modCb_waits (s := s) (core := core) cb.isLt (fun b => { b with wait := b.wait ++ [(.wave w.uid (s.active c.guard), k.toNat)] })
    (by rw [idle]; rfl) low
  simp only [not_passed h.resume, h.cur, idle, List.isEmpty_nil, Bool.true_and, decide_eq_false (Nat.not_le.mpr low), Bool.false_eq_true, if_false,
    State.unitLanes, h.unit, h.w, joins]
  obtain ⟨parks, u, becomes⟩ := h.parkOn (s1 := withBarrier s core cb.toNat _ [(.wave w.uid (s.active c.guard), k.toNat)]) rfl
    ((wave_withBarrier _ _).trans h.here) rfl act (.cbw cb.toNat k.toNat false) c.rbf 0
  exact ⟨parks, (cbar_of_quiet (becomes.cores core) _).trans (cbar_withBarrier cb.isLt)⟩

/-! ## Transfer processors at a counted barrier -/

theorem XRuns.cur (h : XRuns s core x p) : s.cur = core := by simp [State.cur, h.unit]
theorem XRuns.curX (h : XRuns s core x p) : s.curX = x := by simp [State.curX, h.unit]

theorem XRuns.cba_adds (h : XRuns s core x p) (small : ((s.core core).cbar cb.toNat).count + k.toNat < 2 ^ 32)
    (idle : ((s.core core).cbar cb.toNat).wait = []) (complete : outstanding s core x = 0) :
    XPasses s ((withBarrier s core cb.toNat (((s.core core).cbar cb.toNat).count + k.toNat) []).bump (2 ^ 15 + 32 * core + x) 1) core x p
      (.cba c cb k) := by
  refine ⟨_, h.onceBoth (exec_cba c cb k s), ?_⟩
  have done : s.progCount core x = 0 := complete
  have party : (withBarrier s core cb.toNat (((s.core core).cbar cb.toNat).count + k.toNat) []).partyId = 2 ^ 15 + 32 * core + x := by
    have unit : (withBarrier s core cb.toNat (((s.core core).cbar cb.toNat).count + k.toNat) []).focus.unit = .xp core x := h.unit
    rw [State.partyId, unit]
    rfl
  simp only [h.unit, h.cur, h.curX, done, gt_iff_lt, lt_self_iff_false, if_false, cbAdd_eq small,
    modCb_idle (s := s) (core := core) cb.isLt (fun b => { b with count := b.count + k.toNat }) idle, party]
  have h1 : XRuns ((withBarrier s core cb.toNat (((s.core core).cbar cb.toNat).count + k.toNat) []).bump (2 ^ 15 + 32 * core + x) 1) core x p :=
    h.of_same rfl ((xp_withBarrier core x).trans h.here)
  exact h1.finish_same _

theorem XRuns.cbset (h : XRuns s core x p) (idle : ((s.core core).cbar cb.toNat).wait = []) :
    XPasses s (withBarrier s core cb.toNat k.toNat []) core x p (.cbset c cb k) :=
  h.setsBarrier (exec_cbset c cb k s) (by rw [h.cur, modCb_idle cb.isLt _ idle])

theorem XRuns.cbw_takes (h : XRuns s core x p) (idle : ((s.core core).cbar cb.toNat).wait = [])
    (enough : k.toNat ≤ ((s.core core).cbar cb.toNat).count) :
    XPasses s (withBarrier s core cb.toNat (((s.core core).cbar cb.toNat).count - k.toNat) []) core x p (.cbw c cb k) :=
  h.setsBarrier (exec_cbw c cb k s) (by
    simp only [not_passed h.resume, h.cur, idle, List.isEmpty_nil, Bool.true_and, decide_eq_true enough, Bool.false_eq_true, if_false, if_true]
    exact modCb_idle cb.isLt _ idle)

theorem XRuns.cbw_waits (h : XRuns s core x p) (idle : ((s.core core).cbar cb.toNat).wait = [])
    (low : ((s.core core).cbar cb.toNat).count < k.toNat) : ∃ t, exec (.cbw c cb k) s = .next t ∧
      t.xp core x = { p with st := .parked (.cbw cb.toNat k.toNat false) } ∧
      (t.core core).cbar cb.toNat = ⟨((s.core core).cbar cb.toNat).count, [(.xp x, k.toNat)]⟩ := by
  refine ⟨_, h.onceBoth (exec_cbw c cb k s), ?_⟩
  have joins := modCb_waits (s := s) (core := core) cb.isLt (fun b => { b with wait := b.wait ++ [(.xp x, k.toNat)] }) (by rw [idle]; rfl) low
  have h1 : XRuns (withBarrier s core cb.toNat ((s.core core).cbar cb.toNat).count [(.xp x, k.toNat)]) core x p :=
    h.of_same rfl ((xp_withBarrier core x).trans h.here)
  simp only [not_passed h.resume, h.cur, idle, List.isEmpty_nil, Bool.true_and, decide_eq_false (Nat.not_le.mpr low), Bool.false_eq_true, if_false,
    State.unitLanes, h.unit, joins, h1.parkOn]
  constructor
  · rw [xp_focus, xp_modXp_same, h1.here]
  · rw [core_focus, cbar_modXp, cbar_withBarrier cb.isLt]

end

end

/-- Settles O42: each instruction gives the barrier a count and a list (`modCb_eq`), and at most one waiter is examined. -/
theorem countedBarriers : Obligations.CountedBarriers := by
  unfold Obligations.CountedBarriers
  intro c cb k s core
  refine ⟨fun slot w h act => ⟨fun e es log => h.cba_logged act log, fun log unanswered => h.cba_unanswered act log unanswered, fun small log answered => ?_,
    fun idle => h.cbset act idle, fun idle enough => h.cbw_takes act idle enough, fun idle low => h.cbw_waits act idle low⟩,
    fun x p h _ => ⟨fun small idle complete => h.cba_adds small idle complete, fun idle => h.cbset idle, fun idle enough => h.cbw_takes idle enough,
      fun idle low => h.cbw_waits idle low⟩⟩
  exact ⟨fun idle => h.cba_adds act small log answered idle,
    fun y n b one _ enough waits => h.cba_serves act small log answered one enough waits⟩

end Sys2Proof.Claim

namespace Sys2Proof.Machine
open Sys2Proof Sys2Proof.Claim

/-! # Records while records are written (R361)

Beside where it lies, how far its writing has come and what codes its lanes have, a record stays what it was raised as, and none is lost. -/

/-- `r'` is `r` but for where it lies, what its writing waits for, and the codes of its lanes. -/
def FRec.Stays (r r' : FRec) : Prop := { r' with pa := r.pa, acc := r.acc, vec := r.vec, bad := r.bad, codes := r.codes } = r

theorem FRec.Stays.trans {a b c : FRec} (h : a.Stays b) (k : b.Stays c) : a.Stays c := by
  unfold FRec.Stays at *
  cases a; cases b; cases c
  simp_all

theorem observe_stays (m : List Host.Cell) (pa n : Nat) (r : FRec) : r.Stays (FRec.observe m pa n r) := by
  unfold FRec.observe
  split
  · rfl
  · split <;> rfl

/-- Every record of `s` is one of `t`. -/
def RecsStay (s t : State) : Prop := ∀ r ∈ s.recs, ∃ r' ∈ t.recs, r.Stays r'

theorem RecsStay.trans {a b c : State} (h : RecsStay a b) (k : RecsStay b c) : RecsStay a c := by
  intro r hr
  obtain ⟨x, hx, rx⟩ := h r hr
  obtain ⟨y, hy, xy⟩ := k x hx
  exact ⟨y, hy, rx.trans xy⟩

theorem RecsStay.of_eq {s t : State} (h : t.recs = s.recs) : RecsStay s t := fun r hr => ⟨r, by rw [h]; exact hr, rfl⟩
theorem RecsStay.refl (s : State) : RecsStay s s := .of_eq rfl
theorem RecsStay.of_read {s t : State} (h : ReadStep s t) : RecsStay s t := .of_eq (congrArg State.recs h.rest : _)

theorem recsStay_map {s t : State} {f : FRec → FRec} (h : t.recs = s.recs.map f) (stays : ∀ r : FRec, r.Stays (f r)) : RecsStay s t :=
  fun r hr => ⟨f r, by rw [h]; exact List.mem_map_of_mem hr, stays r⟩

theorem foldl_recs {α : Type} (f : State → α → State) (h : ∀ s x, RecsStay s (f s x)) (l : List α) (s : State) : RecsStay s (l.foldl f s) :=
  Laws.foldl_keeps (RecsStay s) f (fun _ x k => k.trans (h _ x)) l s (.refl s)

theorem iterate_recs (f : State → State) (h : ∀ s, RecsStay s (f s)) (n : Nat) (s : State) : RecsStay s (iterate f n s) := by
  induction n generalizing s with
  | zero => exact .refl s
  | succ n ih => exact (h s).trans (ih (f s))

/-! ## Bytes, entries and leaves -/

theorem wrMem_recs (s : State) (pa : Nat) (bs : List Byte) : RecsStay s (s.wrMem pa bs) := recsStay_map rfl (observe_stays _ pa bs.length)

theorem combine_recs (s : State) (pa : Nat) : RecsStay s (s.combine pa) := by
  unfold State.combine
  dsimp only
  split
  · exact .refl s
  · exact RecsStay.trans (b := State.dropLine (s.mapCores _) _) (.of_eq rfl) (foldl_recs _ (fun s _ => wrMem_recs s _ _) _ _)

theorem physStore_recs (s : State) (pa : Nat) (bs : List Byte) : RecsStay s (s.physStore pa bs) := by
  unfold State.physStore
  dsimp only
  refine (combine_recs s pa).trans (.trans ?_ (wrMem_recs _ pa bs))
  split
  · exact .of_eq rfl
  · exact .refl _

theorem setUsed_recs (s : State) (k : AKind) (l : Leaf) : RecsStay s (s.setUsed k l) := by
  unfold State.setUsed
  dsimp only
  split
  · exact combine_recs s _
  · exact (combine_recs s _).trans ((RecsStay.of_read (tokHome_step _ _)).trans ((combine_recs _ _).trans (physStore_recs _ _ _)))

theorem pickOld_recs (s : State) (es : List TlbEnt) : RecsStay s (s.pickOld es).1 := by
  induction es generalizing s with
  | nil => exact .refl s
  | cons e es ih =>
    have draw : RecsStay s s.draw.2 := .of_eq rfl
    unfold State.pickOld
    split
    next hd =>
    rw [hd] at draw
    split
    · exact draw
    · exact draw.trans (ih _)

theorem combineTables_recs (s : State) (aslot va : Nat) : RecsStay s (s.combineTables aslot va) := by
  have first := iterate_recs (fun t => (t.tablePath aslot va).foldl State.combine t) (fun t => foldl_recs State.combine combine_recs _ t) 5 s
  unfold State.combineTables
  generalize iterate _ 5 s = t at first ⊢
  exact first.trans (foldl_recs State.homeToken (fun s e => .of_read (homeToken_tokens s e).step) _ t)

theorem walkIn_recs (s : State) (cl aslot va : Nat) : RecsStay s (s.walkIn cl aslot va).1 := by
  have tables := combineTables_recs s aslot va
  unfold State.walkIn
  generalize s.combineTables aslot va = t at tables ⊢
  dsimp only
  split
  · exact tables.trans (.of_eq rfl)
  · exact tables

theorem lookup_recs (s : State) (core aslot va : Nat) : RecsStay s (s.lookup core aslot va).1 := by
  unfold State.lookup
  dsimp only
  have pick := pickOld_recs s (((s.cluster (coreCluster core)).tlb.filter fun e => e.covers aslot (s.genOf aslot) va).filter
    fun e => !e.same (s.walk aslot va))
  split
  · next hp => rw [hp] at pick; exact pick
  · next hp =>
    rw [hp] at pick
    split
    · exact pick
    · exact pick.trans (walkIn_recs _ _ _ _)

theorem translate_recs (s : State) (core aslot va : Nat) (k : AKind) : RecsStay s (s.translate core aslot va k).1 := by
  have look := lookup_recs s core aslot va
  unfold State.translate
  split
  next hr =>
  rw [hr] at look
  dsimp only
  split
  · exact look
  · split
    · exact look
    · split
      · exact look
      · split
        · exact look
        · exact look.trans (setUsed_recs _ _ _)

/-! ## Flows and events -/

theorem forget_recs (s : State) (l : List (Nat × Nat × Nat × Nat)) : RecsStay s (s.forget l) :=
  foldl_recs _ (fun s _ => (.of_eq rfl : RecsStay s (s.modFlow _ _))) l s

theorem flits_recs (s : State) (port : Nat) (dir : Bool) (n : Nat) (good : Bool) : RecsStay s (s.flits port dir n good) := by
  unfold State.flits
  dsimp only
  split
  · exact .refl s
  · split <;> exact .of_eq rfl

theorem transmit_recs (s : State) (flow : Nat) (a : FlowAcc) : RecsStay s (s.transmit flow a) := by
  unfold State.transmit
  split
  · exact .refl s
  · exact RecsStay.trans (b := s.send _) (.of_eq rfl) (flits_recs _ _ _ _ _)

theorem issue_recs (s : State) (core unit aslot : Nat) (a : FlowAcc) : RecsStay s (s.issue core unit aslot a).1 := by
  have flowOf (route : Nat) : ∀ k, RecsStay s (s.flowOf core unit k route).1 := by
    intro k
    unfold State.flowOf
    split
    · exact .refl s
    · exact .of_eq rfl
  unfold State.issue
  extract_lets r e
  have flow := flowOf r (if r == 1024 then 0 else aslot)
  split
  · exact .refl s
  · generalize s.flowOf core unit (if r == 1024 then 0 else aslot) r = x at flow ⊢
    dsimp only
    split
    · exact flow
    · refine flow.trans ?_
      unfold State.enterFlow
      exact RecsStay.trans (b := x.1.modFlow _ _) (.of_eq rfl) (transmit_recs _ _ _)

/-! ## Writing a record -/

theorem modRec_recs (s : State) (id : Nat) {f : FRec → FRec} (stays : ∀ r : FRec, r.Stays (f r)) : RecsStay s (s.modRec id f) := by
  refine recsStay_map rfl fun r => ?_
  split
  · exact stays r
  · rfl

theorem vecEntry_recs (s : State) (r : FRec) (a : ASlot) : RecsStay s (s.vecEntry r a).1 := by
  unfold State.vecEntry
  split
  · exact .refl s
  split
  · split <;> exact .refl s
  have tr := translate_recs s r.core r.aslot (bitsN a.trapVec.toNat 56 9 * 512 + 8 * r.kind) .load
  split
  · next s1 x ht =>
    rw [ht] at tr
    split
    · have iss := issue_recs s1 r.core 0 r.aslot (.own .load x.pa (.load 8) false true)
      split
      · next hi => rw [hi] at iss; exact (tr.trans iss).trans (modRec_recs _ _ fun _ => rfl)
      · next hi => rw [hi] at iss; exact tr.trans iss
      · next hi => rw [hi] at iss; exact tr.trans iss
    · split
      · exact tr
      · exact tr.trans ((RecsStay.of_read (homeToken_tokens _ _).step).trans (combine_recs _ _))
  · next ht => rw [ht] at tr; exact tr
  · next ht => rw [ht] at tr; exact tr

theorem xpRecorded_recs (s : State) (r : FRec) : RecsStay s (s.xpRecorded r) := by
  unfold State.xpRecorded
  split <;> exact .of_eq rfl

theorem devEvent_recs (s : State) (code core slot : Nat) (detail : List Nat) : RecsStay s (s.devEvent code core slot detail) := by
  unfold State.devEvent
  dsimp only
  split <;> exact .of_eq rfl

theorem badRec_recs (s : State) (r : FRec) : RecsStay s (s.badRec r) :=
  RecsStay.trans (RecsStay.trans (modRec_recs s r.id (f := fun r => { r with bad := true, pa := none, acc := [] }) fun _ => rfl)
    (xpRecorded_recs _ r)) (devEvent_recs _ _ _ _ _)

theorem vector_recs (s : State) (r : FRec) (va e : Nat) : RecsStay s (s.vector r va e) := by
  unfold State.vector
  split <;> exact .of_eq rfl

theorem recWritten_recs (s : State) (r : FRec) (pa va e : Nat) : RecsStay s (s.recWritten r pa va e) := by
  have head : RecsStay s (s.modSlot r.aslot fun a => { a with fltHead := (a.fltHead + 1) % 2 ^ 32 }) := by
    unfold State.modSlot
    split <;> exact .of_eq rfl
  exact ((head.trans (xpRecorded_recs _ r)).trans (modRec_recs _ r.id (f := fun r => { r with pa := some pa, vec := none, acc := [] }) fun _ => rfl)).trans
    (vector_recs _ _ _ _)

theorem recStores_recs (s : State) (r : FRec) (pa va : Nat) : RecsStay s (s.recStores r pa va) := by
  unfold State.recStores
  extract_lets half
  have half_recs : ∀ s k, RecsStay s (half s k).1 := fun s k => issue_recs s _ _ _ _
  have first := half_recs s 0
  split
  · next h => rw [h] at first; exact first.trans (badRec_recs _ r)
  · next h => rw [h] at first; exact first
  · next s1 _ _ h =>
    rw [h] at first
    have second := half_recs s1 1
    split
    · next h => rw [h] at second; exact (first.trans second).trans (modRec_recs _ _ fun _ => rfl)
    · exact .refl s

theorem writeRec_recs (s : State) (r : FRec) (a : ASlot) : RecsStay s (s.writeRec r a) := by
  have entry := vecEntry_recs s r a
  unfold State.writeRec
  dsimp only
  split
  · next h => rw [h] at entry; exact entry
  · next s1 e x _ h _ =>
    rw [h] at entry
    refine entry.trans ?_
    split
    · exact .refl _
    · split
      · exact (forget_recs s1 _).trans (recWritten_recs _ _ _ _ _)
      · exact (forget_recs s1 _).trans (badRec_recs _ _)
  · next s1 e h _ =>
    rw [h] at entry
    refine entry.trans ?_
    have tr := translate_recs s1 r.core r.aslot ((fltBaseAddr a + 64 * (a.fltHead % fltCap a)) % 2 ^ 57) .store
    split
    · next ht =>
      rw [ht] at tr
      refine tr.trans ?_
      split
      · exact recStores_recs _ _ _ _
      · split
        · exact badRec_recs _ _
        · exact (((RecsStay.of_read (tokHome_step _ _)).trans (physStore_recs _ _ _)).trans (physStore_recs _ _ _)).trans
            (recWritten_recs _ _ _ _ _)
    · next ht => rw [ht] at tr; exact tr
    · next ht => rw [ht] at tr; exact tr.trans (badRec_recs _ _)

/-- Writing the records of a slot loses none. -/
theorem writeAll_recs (s : State) (aslot : Nat) : RecsStay s (s.writeAll aslot) := by
  refine iterate_recs _ (fun s => ?_) _ s
  unfold State.writeOne
  split
  · split
    · exact .refl s
    · exact writeRec_recs s _ _
  · exact .refl s

end Sys2Proof.Machine

namespace Sys2Proof.Machine
open Sys2Proof Sys2Proof.Claim

/-! # One fault of some lanes (R363) -/

theorem Woken.eq {w u : Wave} (h : Woken w u) : u = { w with streams := u.streams } := by
  obtain ⟨same, -⟩ := h
  rw [← same]

/-! ## Sorted lists and masks -/

theorem insertBy_last {α : Type} {lt : α → α → Bool} {x : α} {l : List α} (h : ∀ y ∈ l, lt x y = false) : insertBy lt x l = l ++ [x] := by
  induction l with
  | nil => rfl
  | cons y l ih =>
    rw [insertBy, h y List.mem_cons_self, if_neg Bool.false_ne_true, ih fun z hz => h z (List.mem_cons_of_mem y hz)]
    rfl

/-- A list in order stays as it is. -/
theorem sortBy_sorted {α : Type} {lt : α → α → Bool} {l : List α} (h : l.Pairwise fun a b => lt b a = false) : sortBy lt l = l := by
  have all (l acc : List α) (h : (acc ++ l).Pairwise fun a b => lt b a = false) : l.foldl (fun acc x => insertBy lt x acc) acc = acc ++ l := by
    induction l generalizing acc with
    | nil => rw [List.foldl_nil, List.append_nil]
    | cons x l ih =>
      have last := insertBy_last fun y hy => (List.pairwise_append.mp h).2.2 y hy x List.mem_cons_self
      have step : acc ++ x :: l = (acc ++ [x]) ++ l := by rw [List.append_assoc, List.singleton_append]
      rw [List.foldl_cons, last, step]
      exact ih _ (step ▸ h)
  exact all l [] h

theorem dedup_constant {α β : Type} [DecidableEq β] (c : β) (l : List α) (some' : l ≠ []) : dedup (l.map fun _ => c) = [c] := by
  have all (l : List α) : (l.map fun _ => c).foldl (fun acc x => if acc.contains x then acc else acc ++ [x]) [c] = [c] := by
    induction l with
    | nil => rfl
    | cons x l ih => rw [List.map_cons, List.foldl_cons, if_pos (List.contains_iff_mem.mpr (List.mem_singleton.mpr rfl)), ih]
  cases l with
  | nil => exact absurd rfl some'
  | cons x l => exact all l

theorem lanesOf_sorted (m : Mask) : (lanesOf m).Pairwise (· < ·) := List.Pairwise.filter _ List.pairwise_lt_range

theorem hasLane_maskOf (ls : List Nat) (h : ∀ l ∈ ls, l < 32) (k : Nat) (hk : k < 32) : hasLane (maskOf ls) k = decide (k ∈ ls) := by
  have one (l : Nat) (hl : l < 32) : hasLane (laneMask l) k = decide (k = l) := by
    have all : ∀ l k : Fin 32, hasLane (laneMask l.val) k.val = decide (k.val = l.val) := by decide
    exact all ⟨l, hl⟩ ⟨k, hk⟩
  have all (ls : List Nat) (h : ∀ l ∈ ls, l < 32) (m : Mask) :
      hasLane (ls.foldl (fun m l => m ||| laneMask l) m) k = (hasLane m k || decide (k ∈ ls)) := by
    induction ls generalizing m with
    | nil => simp
    | cons l ls ih =>
      have step : hasLane (m ||| laneMask l) k = (hasLane m k || decide (k = l)) := by
        rw [← one l (h l List.mem_cons_self)]
        exact BitVec.getLsbD_or
      rw [List.foldl_cons, ih (fun x hx => h x (List.mem_cons_of_mem l hx)), step, Bool.or_assoc]
      simp only [List.mem_cons, Bool.decide_or]
  have empty : hasLane 0 k = false := BitVec.getLsbD_zero
  rw [maskOf, all ls h, empty, Bool.false_or]

theorem maskOf_lanesOf (m : Mask) : maskOf (lanesOf m) = m := by
  refine BitVec.eq_of_getLsbD_eq fun k hk => ?_
  have := hasLane_maskOf (lanesOf m) (fun l hl => ((mem_lanesOf m l).mp hl).1) k hk
  simp only [mem_lanesOf, hk, true_and, Bool.decide_eq_true] at this
  exact this

theorem lanesOf_ne_nil {m : Mask} (h : m ≠ 0) : lanesOf m ≠ [] := fun e => h (by rw [← maskOf_lanesOf m, e]; rfl)

/-! ## One fault becomes one record -/

/-- What is said of a fault of the wave in execution that some lanes share. -/
def faultArgs (s : State) (m : Mask) (kind cause addr info : Nat) : RecArgs :=
  ⟨s.w.aslot, s.cur, s.w.uid, s.curSlot, s.w.unitNo, s.focus.pc, addr, s.focus.insn, s.w.stamp, m, info, kind, cause, 0, 0, none⟩

theorem recsOf_one (s : State) {m : Mask} (some' : m ≠ 0) {kind : Nat} (plain : kind ≠ 0x17 ∧ kind ≠ 0x18) (cause addr info : Nat) :
    ∃ lane, s.recsOf ((lanesOf m).map fun l => ⟨l, kind, cause, addr, info, none⟩) = [(lane, faultArgs s m kind cause addr info)] := by
  let fault (l : Nat) : Hold := ⟨l, kind, cause, addr, info, none⟩
  have sorted : sortBy (fun a b : Hold => decide (a.lane < b.lane)) ((lanesOf m).map fault) = (lanesOf m).map fault :=
    sortBy_sorted (List.pairwise_map.mpr ((lanesOf_sorted m).imp fun h => decide_eq_false (by simp only [fault]; omega)))
  have here : ((lanesOf m).map fault).filter (fun h => h.log.isNone) = (lanesOf m).map fault :=
    List.filter_eq_self.mpr fun h hh => by obtain ⟨l, -, rfl⟩ := List.mem_map.mp hh; rfl
  have keys : dedup (((lanesOf m).map fault).map fun h => (h.kind, h.cause)) = [(kind, cause)] := by
    rw [List.map_map]
    exact dedup_constant (kind, cause) _ (lanesOf_ne_nil some')
  have mine : ((lanesOf m).map fault).filter (fun h => h.kind == kind && h.cause == cause) = (lanesOf m).map fault :=
    List.filter_eq_self.mpr fun h hh => by obtain ⟨l, -, rfl⟩ := List.mem_map.mp hh; simp [fault]
  have lanes : ((lanesOf m).map fault).map (·.lane) = lanesOf m := by rw [List.map_map]; exact List.map_id _
  obtain ⟨a, ls, first⟩ := List.exists_cons_of_ne_nil (lanesOf_ne_nil some')
  have head : ((lanesOf m).map fault).head? = some (fault a) := by rw [first]; rfl
  have quiet : (kind == 0x17 || kind == 0x18) = false := by simp [plain]
  refine ⟨a, ?_⟩
  unfold State.recsOf
  dsimp only
  rw [here, sorted, keys]
  simp only [List.filterMap_cons, List.filterMap_nil, mine, head, lanes, quiet, maskOf_lanesOf, Option.map_some, Bool.false_eq_true, if_false]
  rw [List.filterMap_map]
  simp [fault, sortBy, insertBy, faultArgs]

/-- The record of a fault. -/
def raised (id : Nat) (r : RecArgs) : FRec :=
  ⟨id, r.aslot, r.words, none, [], false, none, false, r.core, r.uid, r.lanes, r.dlv == 0, r.entry, [], 0, r.kind⟩

/-- Raising a record names it and may have it and others written. -/
theorem raise_step (s : State) (r : RecArgs) :
    (s.raise r).2 = s.uids + 1 ∧ RecordStep s (s.raise r).1 ∧ ∃ x ∈ (s.raise r).1.recs, (raised (s.uids + 1) r).Stays x := by
  let s1 : State := { s with uids := s.uids + 1, recs := s.recs ++ [raised (s.uids + 1) r] }
  have queued : RecordStep s s1 := .of_eq rfl (fun _ _ => rfl) rfl
  exact ⟨rfl, queued.trans (writeAll_record s1 r.aslot),
    writeAll_recs s1 r.aslot _ (List.mem_append_right _ (List.mem_singleton.mpr rfl))⟩

/-- A fault that some lanes share becomes one record, behind which they are held. -/
theorem takeFaults_one (s : State) {m : Mask} (some' : m ≠ 0) {kind : Nat} (plain : kind ≠ 0x17 ∧ kind ≠ 0x18) (cause addr info : Nat) :
    ∃ s', s.takeFaults ((lanesOf m).map fun l => ⟨l, kind, cause, addr, info, none⟩) = (s', [(m, s.uids + 1)]) ∧ RecordStep s s' ∧
      ∃ x ∈ s'.recs, (raised (s.uids + 1) (faultArgs s m kind cause addr info)).Stays x := by
  obtain ⟨lane, one⟩ := recsOf_one s some' plain cause addr info
  obtain ⟨id, step, record⟩ := raise_step s (faultArgs s m kind cause addr info)
  refine ⟨_, ?_, step, record⟩
  rw [State.takeFaults, one, ← id]
  rfl

end Sys2Proof.Machine

namespace Sys2Proof.Claim
open Sys2Proof Sys2Proof.Machine

/-! ## Lanes that take an exception -/

section
variable {s s1 : State} {core slot : Nat} {w w1 w2 : Wave}

/-- Lanes that are held do not go on. -/
theorem goesOn_held (f : Focus) {ended : Mask} (alive : f.lanes &&& ended = 0) (m : Mask) {l : Nat} (hl : l < 32) :
    hasLane (f.goesOn ended m 0) l = hasLane (f.lanes &&& ~~~ m) l := by
  have empty : hasLane 0 l = false := BitVec.getLsbD_zero
  have apart : (hasLane f.lanes l && hasLane ended l) = false := by
    rw [← empty, ← alive]
    exact BitVec.getLsbD_and.symm
  have split : hasLane (f.lanes &&& ~~~ m) l = (hasLane f.lanes l && !hasLane m l) := by
    simp only [hasLane, BitVec.getLsbD_and, BitVec.getLsbD_not, hl, decide_true, Bool.true_and]
  rw [hasLane_goesOn f ended m 0 hl, split, empty]
  cases e : hasLane f.lanes l
  · rfl
  · rw [e, Bool.true_and] at apart
    rw [apart, Bool.not_false, Bool.and_true, Bool.and_true]

/-- What an instruction on which some lanes have met a fault leaves of a wave without suspended runs. -/
theorem advance_holds {f : Focus} (unsplit : Unsplit w) (alive : f.lanes &&& w.ended = 0) (noPark : f.parks = []) (rbf : Bool) (marks : BitVec 4)
    (m : Mask) (id new : Nat) :
    let u := w.advance f rbf marks [(m, id)] 0 new
    (∀ l, l < 32 → u.pc l = if hasLane (f.lanes &&& ~~~ m) l then f.target l % 2 ^ 57 else w.pc l) ∧
      (∀ n l, l < 32 → u.latch n l = if rbf && hasLane (f.lanes &&& ~~~ m) l then 0 else w.latch n l) ∧
      ∃ r ∈ u.streams, r.lanes = m ∧ r.st = .held id f.len rbf := by
  intro u
  have all : (0 : Mask) ||| m = m := BitVec.zero_or
  obtain ⟨b, goes, pcs, latches⟩ := advance_moves (f := f) (rbf := rbf) (marks := marks) (held := [(m, id)]) (p := 0) (new := new) unsplit alive
    (.inr noPark)
  obtain rfl := goes noPark
  simp only [List.foldl_cons, List.foldl_nil, all, Bool.true_and] at pcs latches
  refine ⟨fun l hl => ?_, fun n l hl => ?_, ?_⟩
  · rw [← goesOn_held f alive m hl]
    exact pcs l hl
  · rw [← goesOn_held f alive m hl]
    exact latches n l hl
  · obtain ⟨old, -, pieces, -⟩ := advance_streams (f := f) (rbf := rbf) (marks := marks) (held := [(m, id)]) (p := 0) (new := new) unsplit
      (.inr noPark)
    obtain ⟨r, hr, lanes, st⟩ := split_held (t := old) (m := m) (id := id) (List.mem_singleton.mpr rfl)
    obtain ⟨x, hx, sameLanes, sameSt⟩ := pieces r hr
    exact ⟨x, hx, sameLanes.trans lanes, sameSt.trans st⟩

theorem stands_of {t : State} {u : Wave} (hu : t.wave? core slot = some u) (same : SameWave w u) : Stands t core slot w := by
  have kept : ({ w with seqs := u.seqs } : Wave) = w := by rw [same.seqs]
  exact ⟨u, hu, by rw [kept]; exact same⟩

/-- The record of a fault of the wave says where and what (R362). -/
theorem raised_words (h : Runs s core slot w) {m : Mask} {kind cause addr info : Nat} (focus : s1.focus.pc = s.focus.pc ∧ s1.focus.insn = s.focus.insn ∧
    s1.focus.unit = s.focus.unit) (mine : s1.w = w1) : (faultArgs s1 m kind cause addr info).words =
      recordWords s.focus.pc addr s.focus.insn w1.stamp m info kind cause 0 (if w1.handler.isSome then 1 else 0) slot core 0 := by
  obtain ⟨pc, insn, unit⟩ := focus
  have cur : s1.cur = core := by rw [State.cur, unit, h.unit]
  have curSlot : s1.curSlot = slot := by rw [State.curSlot, unit, h.unit]
  simp only [faultArgs, RecArgs.words, recordWords, recInfo, mine, cur, curSlot, pc, insn, Wave.unitNo]

/-- The end of an instruction on which lanes of a wave without suspended runs have met one fault. -/
theorem Runs.traps (h : Runs s core slot w) (focus : s1.focus = s.focus) (uids : s1.uids = s.uids) (here : s1.wave? core slot = some w2)
    (woken : Woken w1 w2) (ended : w1.ended = w.ended) (unsplit : Unsplit w1) {m : Mask} (some' : m ≠ 0) {kind : Nat}
    (plain : kind ≠ 0x17 ∧ kind ≠ 0x18) (cause addr info : Nat) (rbf : Bool) (marks : BitVec 4) :
    Trapped s ((s1.hold m kind cause addr info).finishWave rbf marks) core slot w1 rbf m kind cause addr info := by
  have held : (s1.hold m kind cause addr info).focus = { s.focus with holds := (lanesOf m).map fun l => ⟨l, kind, cause, addr, info, none⟩ } := by
    simp only [State.hold, State.modF, focus, h.holds, List.nil_append]
  have here2 : (s1.hold m kind cause addr info).wave? core slot = some w2 := here
  have number : (s1.hold m kind cause addr info).uids = s.uids := uids
  generalize s1.hold m kind cause addr info = s2 at held here2 number ⊢
  have mine : s2.w = w2 := w_of_unit s2 core slot w2 (by rw [held]; exact h.unit) here2
  obtain ⟨s3, faults, step, x, hx, stays⟩ := takeFaults_one s2 some' plain cause addr info
  obtain ⟨w3, here3, woken3⟩ := step.waves core slot w2 here2
  have woke := woken.trans woken3
  have live : w3.ended = w.ended := (sameWave_ended woke.sameWave).trans ended
  obtain ⟨new, become⟩ := finishWave_becomes (s := s2) rbf marks (by rw [held]; exact h.unit) (by rw [held]; exact h.gone)
    (by rw [held]; exact h.accs) (by rw [held]; exact faults) here3 (by rw [live]; exact ended_of_runs h)
  have noPark : s2.focus.parks = [] := by rw [held]; exact h.parks
  have target (l : Nat) : s2.focus.target l = behind s := by rw [Focus.target, held]; simp only [h.taken, List.find?_nil, behind]
  rw [noPark, List.foldl_nil, number] at become
  obtain ⟨pcs, latches, run⟩ := advance_holds (f := s2.focus) (woke.unsplit unsplit) (by rw [held, live]; exact h.alive) noPark rbf marks m
    (s.uids + 1) new
  have same := sameWave_trans woke.sameWave (advance_same w3 s2.focus rbf marks [(m, s.uids + 1)] 0 new)
  generalize w3.advance s2.focus rbf marks [(m, s.uids + 1)] 0 new = u at become pcs latches run same
  obtain ⟨y, hy⟩ := become.wave
  have unique {v : Wave} (hv : (s2.finishWave rbf marks).wave? core slot = some v) : v = { u with yieldTo := y } := Option.some.inj (hv.symm.trans hy)
  have words := raised_words h (m := m) (kind := kind) (cause := cause) (addr := addr) (info := info)
    (by rw [held]; exact ⟨rfl, rfl, rfl⟩) mine
  have recs : (s2.finishWave rbf marks).recs = s3.recs := (congrArg State.recs become.rest : _)
  simp only [target] at pcs
  rw [held] at pcs latches run
  refine ⟨stands_of hy (sameWave_trans same ⟨rfl, fun _ _ _ => .inl rfl, fun _ => .inl rfl⟩), fun v hv n l hl => ?latches, fun v hv => ?held,
    fun v hv l hl => ?pcs, x, by rw [recs]; exact hx, ?record⟩
  case latches =>
    have kept : w3.latch = w1.latch := by rw [woke.eq]; rfl
    rw [unique hv, ← kept]
    exact latches n l hl
  case pcs =>
    have kept : w3.pc = w1.pc := by rw [woke.eq]; rfl
    rw [unique hv, ← kept]
    exact pcs l hl
  case held => rw [unique hv]; exact run
  case record =>
    have name : s2.w = { w1 with streams := w2.streams } := mine.trans woken.eq
    have cur : s2.cur = core := by rw [State.cur, held, h.unit]
    unfold FRec.Stays at stays
    have id : x.id = s2.uids + 1 := (congrArg FRec.id stays : _)
    have aslot : x.aslot = s2.w.aslot := (congrArg FRec.aslot stays : _)
    have unit : x.core = s2.cur := (congrArg FRec.core stays : _)
    have uid : x.uid = s2.w.uid := (congrArg FRec.uid stays : _)
    have said : x.words = (faultArgs s2 m kind cause addr info).words := (congrArg FRec.words stays : _)
    refine ⟨id.trans (by rw [number]), aslot.trans (by rw [name]), unit.trans cur, uid.trans (by rw [name]), (congrArg FRec.lanes stays : _),
      (congrArg FRec.held stays : _), (congrArg FRec.done stays : _), (congrArg FRec.kind stays : _), said.trans (words.trans ?_)⟩
    rw [woken.eq]

end

end Sys2Proof.Claim

namespace Sys2Proof.Machine
open Sys2Proof Sys2Proof.Claim

/-! # Barriers of a launch -/

/-! ## Waves after one has been rewritten -/

/-- Beside the entry of its key, a map keeps what it holds. -/
theorem mem_aput_of_mem {α : Type} {m : Map α} {k : Nat} {old : α} (h : aget m k = some old) (v : α) {x : Nat × α} (hx : x ∈ m) :
    x ∈ aput m k v ∨ x = (k, old) := by
  induction m with
  | nil => cases hx
  | cons y m ih =>
    obtain ⟨a, b⟩ := y
    rw [aput]
    by_cases before : k < a
    · rw [if_pos before]
      exact .inl (List.mem_cons_of_mem _ hx)
    · rw [if_neg before]
      by_cases same : k = a
      · subst same
        rw [aget, if_pos rfl, Option.some.injEq] at h
        rw [if_pos rfl]
        rcases List.mem_cons.mp hx with rfl | hx
        · exact .inr (by rw [h])
        · exact .inl (List.mem_cons_of_mem _ hx)
      · rw [aget, if_neg same] at h
        rw [if_neg same]
        rcases List.mem_cons.mp hx with rfl | hx
        · exact .inl List.mem_cons_self
        · exact (ih h hx).imp_left (List.mem_cons_of_mem _)

theorem mem_aput_self {α : Type} (m : Map α) (k : Nat) (v : α) : (k, v) ∈ aput m k v := aget_mem _ _ _ (aget_aput_same m k v)

section
variable {s : State} {core slot : Nat} {w w1 : Wave}

theorem aget_slots (here : s.wave? core slot = some w) : aget (s.core core).slots slot = some w := here

/-- The core of a wave is listed. -/
theorem core_listed (here : s.wave? core slot = some w) : aget s.cores core = some (s.core core) := by
  rw [State.wave?, State.core] at here
  rw [State.core]
  cases e : aget s.cores core with
  | none => rw [e] at here; cases here
  | some c => rfl

theorem mem_resident {i k : Nat} {v : Wave} : (i, k, v) ∈ s.resident ↔ ∃ c, (i, c) ∈ s.cores ∧ (k, v) ∈ c.slots := by
  simp only [State.resident, List.mem_flatMap, List.mem_map, Prod.mk.injEq, Prod.exists]
  constructor
  · rintro ⟨i', c, hc, k', v', hv, rfl, rfl, rfl⟩
    exact ⟨c, hc, hv⟩
  · rintro ⟨c, hc, hv⟩
    exact ⟨i, c, hc, k, v, hv, rfl, rfl, rfl⟩

theorem resident_waves {x : Nat × Nat × Wave} (h : x ∈ s.resident) : (x.1, x.2.2) ∈ s.waves := by
  obtain ⟨c, hc, hv⟩ := mem_resident.mp h
  exact List.mem_flatMap.mpr ⟨_, hc, List.mem_append_left _ (List.mem_map.mpr ⟨_, hv, rfl⟩)⟩

theorem slots_resident {i : Nat} {x : Nat × Wave} (h : x ∈ (s.core i).slots) : (i, x.1, x.2) ∈ s.resident := by
  rw [State.core] at h
  cases e : aget s.cores i with
  | none => rw [e] at h; cases h
  | some c =>
    rw [e] at h
    exact mem_resident.mpr ⟨c, aget_mem _ _ _ e, h⟩

/-- A wave's name is its own. -/
theorem unique_wave (names : (s.waves.map (·.2.uid)).Nodup) (here : s.wave? core slot = some w) {x : Nat × Nat × Wave} (h : x ∈ s.resident)
    (same : x.2.2.uid = w.uid) : x.1 = core ∧ x.2.2 = w := by
  have mine := resident_waves (slots_resident (aget_mem _ _ _ (aget_slots here)))
  have e := List.inj_on_of_nodup_map names (resident_waves h) mine same
  exact ⟨congrArg (·.1) e, congrArg (·.2) e⟩

theorem resident_of_setWave {x : Nat × Nat × Wave} (h : x ∈ (s.setWave core slot w1).resident) : x = (core, slot, w1) ∨ x ∈ s.resident := by
  obtain ⟨i, k, v⟩ := x
  obtain ⟨c, hc, hv⟩ := mem_resident.mp h
  rcases mem_aput _ _ _ _ hc with e | hc
  · obtain ⟨rfl, rfl⟩ := Prod.mk.inj e
    rcases mem_aput _ _ _ _ hv with e | hv
    · obtain ⟨rfl, rfl⟩ := Prod.mk.inj e
      exact .inl rfl
    · exact .inr (slots_resident hv)
  · exact .inr (mem_resident.mpr ⟨c, hc, hv⟩)

theorem setWave_resident : (core, slot, w1) ∈ (s.setWave core slot w1).resident :=
  mem_resident.mpr ⟨_, mem_aput_self _ _ _, mem_aput_self _ _ _⟩

/-- The other waves stay. -/
theorem resident_setWave (here : s.wave? core slot = some w) {x : Nat × Nat × Wave} (h : x ∈ s.resident) :
    x ∈ (s.setWave core slot w1).resident ∨ x = (core, slot, w) := by
  obtain ⟨i, k, v⟩ := x
  obtain ⟨c, hc, hv⟩ := mem_resident.mp h
  rcases mem_aput_of_mem (core_listed here) { s.core core with slots := aput (s.core core).slots slot w1 } hc with hc | e
  · exact .inl (mem_resident.mpr ⟨c, hc, hv⟩)
  · obtain ⟨rfl, rfl⟩ := Prod.mk.inj e
    rcases mem_aput_of_mem (aget_slots here) w1 hv with hv | e
    · exact .inl (mem_resident.mpr ⟨_, mem_aput_self _ _ _, hv⟩)
    · obtain ⟨rfl, rfl⟩ := Prod.mk.inj e
      exact .inr rfl

/-! ## Who has arrived (R340, R341) -/

theorem alloc_setWave (i lid : Nat) : ((s.setWave core slot w1).core i).alloc lid = (s.core i).alloc lid := by
  rw [core_setWave]
  split
  · subst_vars; rfl
  · rfl

/-- Once a wave has arrived, a barrier is complete that was complete but for it. -/
theorem allArrived_setWave (names : (s.waves.map (·.2.uid)).Nodup) (here : s.wave? core slot = some w) (p : Wave → Bool)
    (after : p w1 = true) (handler : w1.handler = w.handler) (lid : w1.lid = w.lid) (wix : w1.wix = w.wix) (i : Nat) :
    (s.setWave core slot w1).allArrived i w.lid p = s.allArrived i w.lid fun x => p x || x.uid == w.uid := by
  have others {x : Nat × Wave} (hx : x ∈ (s.core i).slots) : x.2.uid ≠ w.uid ∨ i = core ∧ x.2 = w := by
    by_cases e : x.2.uid = w.uid
    · exact .inr (unique_wave names here (slots_resident hx) e)
    · exact .inl e
  have waves (j : Nat) : (((s.setWave core slot w1).core i).slots.any fun x => x.2.handler.isNone && x.2.lid == w.lid && x.2.wix == j && p x.2) =
      ((s.core i).slots.any fun x => x.2.handler.isNone && x.2.lid == w.lid && x.2.wix == j && (p x.2 || x.2.uid == w.uid)) := by
    rw [Bool.eq_iff_iff, List.any_eq_true, List.any_eq_true, core_setWave]
    by_cases e : i = core
    · subst e
      rw [if_pos rfl]
      have mine : (slot, w) ∈ (s.core i).slots := aget_mem _ _ _ (aget_slots here)
      constructor
      · rintro ⟨x, hx, arrived⟩
        rcases mem_aput _ _ _ _ hx with rfl | hx
        · simp only [handler, lid, wix, after, Bool.and_true] at arrived
          exact ⟨_, mine, Bool.and_eq_true_iff.mpr ⟨arrived, Bool.or_eq_true_iff.mpr (.inr (beq_self_eq_true _))⟩⟩
        · simp only [Bool.and_eq_true] at arrived
          exact ⟨x, hx, by simp only [arrived, Bool.true_or, Bool.and_self]⟩
      · rintro ⟨x, hx, arrived⟩
        rcases others hx with other | ⟨-, own⟩
        · rw [beq_eq_false_iff_ne.mpr other, Bool.or_false] at arrived
          rcases mem_aput_of_mem (aget_slots here) w1 hx with hx | rfl
          · exact ⟨x, hx, arrived⟩
          · exact absurd rfl other
        · rw [own] at arrived
          refine ⟨_, mem_aput_self _ _ _, ?_⟩
          simp only [Bool.and_eq_true] at arrived
          simp only [handler, lid, wix, after, arrived, Bool.and_true]
    · rw [if_neg e]
      refine exists_congr fun x => and_congr_right fun hx => ?_
      rcases others hx with other | ⟨own, -⟩
      · rw [beq_eq_false_iff_ne.mpr other, Bool.or_false]
      · exact absurd own e
  unfold State.allArrived
  rw [alloc_setWave]
  simp only [waves]
  rfl

/-- Every wave of a launch on its core but one that arrives has arrived. -/
theorem allArrived_iff (names : (s.waves.map (·.2.uid)).Nodup) (here : s.wave? core slot = some w) {al : Alloc} (alloc : (s.core core).alloc w.lid = some al)
    (unhandled : w.handler = none) (p : Wave → Prop) [DecidablePred p] :
    s.allArrived core w.lid (fun x => decide (p x) || x.uid == w.uid) = true ↔ ∀ i, i < al.waves → i ∈ al.ended ∨ i = w.wix ∨
      ∃ x ∈ (s.core core).slots, x.2.handler = none ∧ x.2.lid = w.lid ∧ x.2.wix = i ∧ p x.2 := by
  have mine : (slot, w) ∈ (s.core core).slots := aget_mem _ _ _ (aget_slots here)
  simp only [State.allArrived, alloc, List.all_eq_true, List.mem_range, Bool.or_eq_true, List.contains_iff_mem, List.any_eq_true, Bool.and_eq_true,
    Option.isNone_iff_eq_none, beq_iff_eq, decide_eq_true_iff]
  refine forall₂_congr fun i _ => or_congr_right ⟨?_, ?_⟩
  · rintro ⟨x, hx, ⟨⟨handler, lid⟩, wix⟩, arrived | own⟩
    · exact .inr ⟨x, hx, handler, lid, wix, arrived⟩
    · rw [(unique_wave names here (slots_resident hx) own).2] at wix
      exact .inl wix.symm
  · rintro (rfl | ⟨x, hx, handler, lid, wix, arrived⟩)
    · exact ⟨_, mine, ⟨⟨unhandled, rfl⟩, rfl⟩, .inr rfl⟩
    · exact ⟨x, hx, ⟨⟨handler, lid⟩, wix⟩, .inl arrived⟩

/-! ## A scan of the waits (R340, R341) -/

/-- What a scan makes of a run of a launch's wave on a core. -/
def State.passBar (s : State) (lid core : Nat) (t : Stream) : Stream :=
  match t.st with
  | .park (.wbar k false) n r i => if s.wbarDone core lid k then { t with st := .park (.wbar k true) n r i } else t
  | .park (.sbar k d none) n r i => { t with st := .park (.sbar k d (s.sbarDone lid k core d)) n r i }
  | _ => t

/-- What a scan makes of a wave. -/
def State.scanned (s : State) (lid core : Nat) (w : Wave) : Wave :=
  if w.lid == lid && w.handler.isNone then { w with streams := w.streams.map (s.passBar lid core) } else w

theorem barScan_eq (s : State) (lid : Nat) : s.barScan lid = s.mapWaves (s.scanned lid) := rfl

theorem passBar_keeps (s : State) (lid i : Nat) (t : Stream) :
    (s.passBar lid i t).grp = t.grp ∧ ((∀ l r, t.st ≠ .join l r) → ∀ l r, (s.passBar lid i t).st ≠ .join l r) := by
  unfold State.passBar
  split
  · split
    · exact ⟨rfl, fun _ _ _ => nofun⟩
    · exact ⟨rfl, id⟩
  · exact ⟨rfl, fun _ _ _ => nofun⟩
  · exact ⟨rfl, id⟩

/-- A run that waits at a complete barrier of its core, or has passed it, has passed it. -/
theorem passBar_wbar {lid i k n : Nat} {q r : Bool} {b : BitVec 128} {t : Stream} (done : s.wbarDone i lid k = true)
    (waits : t.st = .park (.wbar k q) n r b) : s.passBar lid i t = { t with st := .park (.wbar k true) n r b } := by
  unfold State.passBar
  cases q with
  | false => simp only [waits, done, if_true]
  | true => rw [waits]; simp only [← waits]

theorem scanned_woken (s : State) (lid i : Nat) (w : Wave) : Woken w (s.scanned lid i w) := by
  unfold State.scanned
  split
  · refine ⟨rfl, fun unsplit t ht => ?_⟩
    obtain ⟨x, hx, rfl⟩ := List.mem_map.mp ht
    obtain ⟨grp, st⟩ := passBar_keeps s lid i x
    exact ⟨grp.trans (unsplit x hx).1, st (unsplit x hx).2⟩
  · exact .refl w

section
variable {f : Nat → Wave → Wave} {lid : Nat}

theorem allArrived_mapWaves (woken : ∀ i x, Woken x (f i x)) (p : Wave → Bool) (same : ∀ i x, p (f i x) = p x) (i : Nat) :
    (s.mapWaves f).allArrived i lid p = s.allArrived i lid p := by
  have alloc : ((s.mapWaves f).core i).alloc lid = (s.core i).alloc lid := by rw [core_mapWaves]; rfl
  have handler (i x) : (f i x).handler = x.handler := by rw [(woken i x).eq]
  have lids (i x) : (f i x).lid = x.lid := by rw [(woken i x).eq]
  have wix (i x) : (f i x).wix = x.wix := by rw [(woken i x).eq]
  unfold State.allArrived
  rw [alloc]
  simp only [core_mapWaves, List.any_map, Function.comp_def, handler, lids, wix, same]
  rfl

theorem resident_mapWaves : (s.mapWaves f).resident = s.resident.map fun x => (x.1, x.2.1, f x.1 x.2.2) := by
  simp only [State.resident, State.mapWaves, List.flatMap_map, List.map_flatMap, List.map_map]
  rfl

theorem sbarDescs_mapWaves (woken : ∀ i x, Woken x (f i x)) (k : Nat) : (s.mapWaves f).sbarDescs lid k = s.sbarDescs lid k := by
  have handler (i x) : (f i x).handler = x.handler := by rw [(woken i x).eq]
  have lids (i x) : (f i x).lid = x.lid := by rw [(woken i x).eq]
  have sbars (i x) : (f i x).sbars = x.sbars := by rw [(woken i x).eq]
  simp only [State.sbarDescs, resident_mapWaves, List.filter_map, List.map_map, Function.comp_def, handler, lids, sbars]

theorem sbarDone_mapWaves (woken : ∀ i x, Woken x (f i x)) (k i d : Nat) : (s.mapWaves f).sbarDone lid k i d = s.sbarDone lid k i d := by
  have sbars (i x) : (f i x).sbars = x.sbars := by rw [(woken i x).eq]
  have all (l : Launch) (d : Nat) : (s.mapWaves f).sbarAll l lid k d = s.sbarAll l lid k d := by
    unfold State.sbarAll
    simp only [allArrived_mapWaves woken (fun x => decide (k ≤ x.sbars.length)) fun i x => by rw [sbars]]
  unfold State.sbarDone
  simp only [sbarDescs_mapWaves woken, all]
  rfl

end

/-! ## How an `sbar` completes (R341) -/

theorem mem_dedup {α : Type} [DecidableEq α] (l : List α) (x : α) : x ∈ dedup l ↔ x ∈ l := by
  have all (l acc : List α) : x ∈ l.foldl (fun acc x => if acc.contains x then acc else acc ++ [x]) acc ↔ x ∈ acc ∨ x ∈ l := by
    induction l generalizing acc with
    | nil => simp
    | cons y l ih =>
      rw [List.foldl_cons, ih, List.mem_cons]
      by_cases has : acc.contains y = true
      · have : y ∈ acc := List.contains_iff_mem.mp has
        rw [if_pos has]
        exact ⟨fun h => h.imp_right .inr, fun h => h.elim .inl fun h => h.elim (fun e => .inl (e ▸ this)) .inr⟩
      · rw [if_neg has, List.mem_append, List.mem_singleton, or_assoc]
  exact (all l []).trans (by simp)

/-- Some wave that a descriptor's waves wait for names another: every wave of the descriptor's cores has arrived. -/
def State.clashes (s : State) (l : Launch) (lid k core : Nat) : Prop :=
  ∃ d ∈ (s.sbarDescs lid k).map (·.2), core ∈ descCores l.blk d ∧ s.sbarAll l lid k d = true ∧
    ∃ x ∈ s.sbarDescs lid k, x.1 ∈ descCores l.blk d ∧ x.2 ≠ d

section
variable {l : Launch} {lid k d : Nat}

theorem sbarDone_eq (launch : aget s.launches lid = some l) [Decidable (s.clashes l lid k core)] :
    s.sbarDone lid k core d = if s.clashes l lid k core then some false else if s.sbarAll l lid k d = true then some true else none := by
  have any : ((dedup ((s.sbarDescs lid k).map (·.2))).any fun d => (descCores l.blk d).contains core && s.sbarAll l lid k d &&
      (s.sbarDescs lid k).any fun x => (descCores l.blk d).contains x.1 && x.2 != d) = true ↔ s.clashes l lid k core := by
    simp only [List.any_eq_true, mem_dedup, Bool.and_eq_true, List.contains_iff_mem, bne_iff_ne, and_assoc]
    rfl
  unfold State.sbarDone
  rw [launch]
  simp only [any]

end

/-- The waves that have executed an `sbar` once one more has: it, and the others that have. -/
theorem mem_sbarDescs_setWave (names : (s.waves.map (·.2.uid)).Nodup) (here : s.wave? core slot = some w) (unhandled : w.handler = none) (desc : Nat)
    (y : Nat × Nat) :
    y ∈ (s.setWave core slot { w with sbars := w.sbars ++ [desc] }).sbarDescs w.lid (w.sbars.length + 1) ↔
      y ∈ (core, desc) :: (s.resident.filter fun x => x.2.2.handler.isNone && x.2.2.lid == w.lid && x.2.2.uid != w.uid &&
        decide (w.sbars.length + 1 ≤ x.2.2.sbars.length)).map fun x => (x.1, listGet 0 x.2.2.sbars (w.sbars.length + 1 - 1)) := by
  have last : listGet 0 (w.sbars ++ [desc]) (w.sbars.length + 1 - 1) = desc := by simp [listGet]
  have short : ¬ w.sbars.length + 1 ≤ w.sbars.length := by omega
  simp only [State.sbarDescs, List.mem_map, List.mem_filter, List.mem_cons, Bool.and_eq_true, Option.isNone_iff_eq_none, beq_iff_eq,
    decide_eq_true_iff, bne_iff_ne]
  constructor
  · rintro ⟨x, ⟨hx, ⟨handler, lid⟩, long⟩, rfl⟩
    rcases resident_of_setWave hx with rfl | hx
    · exact .inl (by rw [last])
    · refine .inr ⟨x, ⟨hx, ⟨⟨handler, lid⟩, fun own => ?_⟩, long⟩, rfl⟩
      rw [(unique_wave names here hx own).2] at long
      exact short long
  · rintro (rfl | ⟨x, ⟨hx, ⟨⟨handler, lid⟩, -⟩, long⟩, rfl⟩)
    · exact ⟨_, ⟨setWave_resident, ⟨unhandled, rfl⟩, by simp⟩, by rw [last]⟩
    · rcases resident_setWave here hx with hx | rfl
      · exact ⟨x, ⟨hx, ⟨handler, lid⟩, long⟩, rfl⟩
      · exact absurd long short

end

end Sys2Proof.Machine

namespace Sys2Proof.Claim
open Sys2Proof Sys2Proof.Machine

section
variable {s s1 : State} {core slot : Nat} {w w1 w2 : Wave} {c : Ctl} {i : Instr}

/-! ## Going on and waiting -/

theorem and_active (h : m &&& s.focus.lanes = 0) (g : Guard) : m &&& s.active g = 0 := by
  rw [State.active, ← BitVec.and_assoc, h]
  exact BitVec.zero_and

/-- At the end of an instruction that has parked no lane, the lanes of a wave without suspended runs execute, or have ended their run. -/
theorem Runs.finish_goes (h : Runs s core slot w) (focus : s1.focus = s.focus) (here : s1.wave? core slot = some w1) (ended : w1.ended = w.ended)
    (unsplit : Unsplit w1) (g : Guard) (rbf : Bool) (marks : BitVec 4) :
    ∃ u, (s1.finishWave rbf marks).wave? core slot = some u ∧ WentOn s.focus w1 u rbf (fun _ => behind s) ∧
      (∀ r ∈ u.streams, r.lanes &&& s.active g ≠ 0 → r.st = .run) ∧ ∃ x, Becomes s1 core slot x (s1.finishWave rbf marks) := by
  obtain ⟨⟨u, hu, went⟩, -⟩ := h.finish focus here ended rbf marks
  obtain ⟨new, become⟩ := finishWave_becomes (s := s1) (s1 := s1) (held := []) rbf marks (by rw [focus]; exact h.unit) (by rw [focus]; exact h.gone)
    (by rw [focus]; exact h.accs) (by rw [focus, h.holds]; rfl) here (by rw [ended]; exact ended_of_runs h)
  have next : behind s1 = behind s := by rw [behind, behind, focus]
  rw [focus, next] at went
  refine ⟨u, hu, went, fun r hr act => ?_, _, become⟩
  obtain ⟨y, hy⟩ := become.wave
  obtain rfl := Option.some.inj (hu.symm.trans hy)
  have noPark : s1.focus.parks = [] := by rw [focus]; exact h.parks
  obtain ⟨old, grp, -, runs⟩ := advance_streams (f := s1.focus) (rbf := rbf) (marks := marks) (held := [])
    (p := s1.focus.parks.foldl (fun m x => m ||| x.2) 0) (new := new) unsplit (.inl rfl)
  rcases runs r hr with ⟨x, hx, -, st⟩ | apart
  · have alone (on : Mask) : old.group s1.focus on new = 0 := by simp [Stream.group, grp, noPark]
    rw [alone] at hx
    exact st.trans (split_goes hx noPark).2
  · rw [focus] at apart
    exact absurd (and_active apart g) act

/-- What an instruction that arrives waits for first (R109, R123). -/
theorem Runs.early (h : Runs s core slot w) {f : State → State} (act : s.active c.guard ≠ 0)
    (he : exec i s = .next ((s.arriving (s.active c.guard) f).finishWave c.rbf 0)) :
    (∀ e es, (s.core core).lanesLog w.uid fullMask = e :: es → ∃ t, exec i s = .next t ∧ t.ival = s.ival ∧
      ParksOn s t core slot w c.rbf (s.active c.guard) (.replayed fullMask (e.va / 32))) ∧
    ((s.core core).lanesLog w.uid fullMask = [] → s.openRemote w.uid fullMask = true → ∃ t, exec i s = .next t ∧ t.ival = s.ival ∧
      ParksOn s t core slot w c.rbf (s.active c.guard) .flushed) := by
  have parks (d : ParkCond) (hd : s.arriving (s.active c.guard) f = s.parkOn (s.active c.guard) d) :
      ∃ t, exec i s = .next t ∧ t.ival = s.ival ∧ ParksOn s t core slot w c.rbf (s.active c.guard) d := by
    obtain ⟨parks, u, becomes⟩ := h.parkOn rfl h.here rfl act d c.rbf 0
    exact ⟨_, by rw [he, hd], becomes.ival, parks⟩
  refine ⟨fun e es log => parks _ ?_, fun log unanswered => parks _ ?_⟩
  · rw [State.arriving, State.afterLog, h.cur, h.w, log]
  · rw [State.arriving, State.afterLog, h.cur, h.w, log]
    dsimp only
    rw [State.afterWave, h.w, unanswered, if_pos rfl]

/-- A wave that waits for nothing arrives. -/
theorem Runs.arriving (h : Runs s core slot w) (log : (s.core core).lanesLog w.uid fullMask = []) (answered : s.openRemote w.uid fullMask = false)
    (m : Mask) (f : State → State) : s.arriving m f = f s := by
  rw [State.arriving, State.afterLog, h.cur, h.w, log]
  dsimp only
  rw [State.afterWave, h.w, answered, if_neg Bool.false_ne_true]

/-- The state once the wave has been rewritten and its arrival counted (R131). -/
def arrivedAs (s : State) (core slot : Nat) (w1 : Wave) : State := (s.setWave core slot w1).bump (32 * core + slot) 1

theorem Runs.arrives_as (h : Runs s core slot w) (f : Wave → Wave) : (s.modW f).bump s.waveId 1 = arrivedAs s core slot (f w) := by
  rw [h.modW, State.waveId, h.cur, h.curSlot]
  rfl

theorem wave_arrivedAs : (arrivedAs s core slot w1).wave? core slot = some w1 := (wave_setWave s core slot core slot w1).trans (if_pos ⟨rfl, rfl⟩)

/-- What is in execution, seen after an arrival. -/
theorem Runs.w_arrivedAs (h : Runs s core slot w) : (arrivedAs s core slot w1).w = w1 := w_of_unit _ core slot w1 h.unit wave_arrivedAs

theorem wave_barScan (lid j k : Nat) : (s1.barScan lid).wave? j k = (s1.wave? j k).map (s1.scanned lid j) := wave_mapWaves s1 _ j k

theorem wave_scanned (lid : Nat) :
    ((arrivedAs s core slot w1).barScan lid).wave? core slot = some ((arrivedAs s core slot w1).scanned lid core w1) := by
  rw [wave_barScan, wave_arrivedAs]
  rfl

/-- A wave that has arrived where the barrier is complete goes on. -/
theorem Runs.scan_goes (h : Runs s core slot w) (ended : w1.ended = w.ended) (unsplit : Unsplit w1) (lid : Nat) (g : Guard) (rbf : Bool) :
    ∃ u, (((arrivedAs s core slot w1).barScan lid).finishWave rbf 0).wave? core slot = some u ∧ WentOn s.focus w1 u rbf (fun _ => behind s) ∧
      (∀ r ∈ u.streams, r.lanes &&& s.active g ≠ 0 → r.st = .run) ∧
      ∃ x, Becomes ((arrivedAs s core slot w1).barScan lid) core slot x (((arrivedAs s core slot w1).barScan lid).finishWave rbf 0) := by
  have woken := scanned_woken (arrivedAs s core slot w1) lid core w1
  obtain ⟨u, hu, went, runs, x, becomes⟩ := h.finish_goes (s1 := (arrivedAs s core slot w1).barScan lid) rfl (wave_scanned lid)
    ((sameWave_ended woken.sameWave).trans ended) (woken.unsplit unsplit) g rbf 0
  exact ⟨u, hu, wentOn_of_woken woken went, runs, x, becomes⟩

/-! ## `wbar` (R340) -/

/-- The wave once it has executed a `wbar`. -/
def barred (w : Wave) : Wave := { w with wbars := w.wbars + 1 }

theorem Runs.wbar_exec (h : Runs s core slot w) (act : s.active c.guard ≠ 0) : exec (.wbar c) s = .next ((s.arriving (s.active c.guard) fun x =>
    let y := (x.modW barred).bump x.waveId 1
    if y.w.handler.isSome || y.wbarDone y.cur y.w.lid y.w.wbars then y.barScan y.w.lid
    else y.parkOn (s.active c.guard) (.wbar y.w.wbars false)).finishWave c.rbf 0) := by
  rw [h.once act (exec_wbar c s), h.resume]
  rfl

theorem Runs.wbarDone_arrived (h : Runs s core slot w) {al : Alloc} (alloc : (s.core core).alloc w.lid = some al) (unhandled : w.handler = none)
    (names : (s.waves.map (·.2.uid)).Nodup) : (arrivedAs s core slot (barred w)).wbarDone core w.lid (w.wbars + 1) = true ↔
      ∀ i, i < al.waves → i ∈ al.ended ∨ i = w.wix ∨
        ∃ x ∈ (s.core core).slots, x.2.handler = none ∧ x.2.lid = w.lid ∧ x.2.wix = i ∧ w.wbars + 1 ≤ x.2.wbars := by
  have counted := allArrived_setWave names h.here (w1 := barred w) (fun x => decide (w.wbars + 1 ≤ x.wbars)) (by simp [barred]) rfl rfl rfl core
  exact (Bool.eq_iff_iff.mp counted).trans (allArrived_iff names h.here alloc unhandled fun x => w.wbars + 1 ≤ x.wbars)

section
variable (h : Runs s core slot w) (act : s.active c.guard ≠ 0) (unhandled : w.handler = none) (log : (s.core core).lanesLog w.uid fullMask = [])
  (answered : s.openRemote w.uid fullMask = false)
include h act unhandled log answered

theorem Runs.wbar_arrived :
    exec (.wbar c) s = .next ((if (arrivedAs s core slot (barred w)).wbarDone core w.lid (w.wbars + 1) then
      (arrivedAs s core slot (barred w)).barScan w.lid
      else (arrivedAs s core slot (barred w)).parkOn (s.active c.guard) (.wbar (w.wbars + 1) false)).finishWave c.rbf 0) := by
  have cur : (arrivedAs s core slot (barred w)).cur = core := h.cur
  rw [h.wbar_exec act, h.arriving log answered, h.arrives_as]
  dsimp only
  rw [h.w_arrivedAs, cur]
  simp only [barred, unhandled, Option.isSome_none, Bool.false_or]

/-- The wave goes on, and those of its core that wait for the same barrier do. -/
theorem Runs.wbar_passes (unsplit : Unsplit w)
    (done : (arrivedAs s core slot (barred w)).wbarDone core w.lid (w.wbars + 1) = true) :
    ∃ t u, exec (.wbar c) s = .next t ∧ t.wave? core slot = some u ∧
      WentOn s.focus (barred w) u c.rbf (fun _ => behind s) ∧ (∀ r ∈ u.streams, r.lanes &&& s.active c.guard ≠ 0 → r.st = .run) ∧
      t.ival = (s.bump (32 * core + slot) 1).ival ∧ t.mem = s.mem ∧
      ∀ k v, k ≠ slot → s.wave? core k = some v → v.lid = w.lid → v.handler = none →
        ∀ r ∈ v.streams, ∀ q n b i, r.st = .park (.wbar (w.wbars + 1) q) n b i →
          ∃ u, t.wave? core k = some u ∧ { r with st := .park (.wbar (w.wbars + 1) true) n b i } ∈ u.streams := by
  obtain ⟨u, hu, went, runs, x, becomes⟩ := h.scan_goes (w1 := barred w) rfl unsplit w.lid c.guard c.rbf
  refine ⟨_, u, (h.wbar_arrived act unhandled log answered).trans (by rw [if_pos done]), hu, went, runs, becomes.ival,
    becomes.mem, fun k v other hv lid handler r hr q n b i waits => ?_⟩
  have stays : (arrivedAs s core slot (barred w)).wave? core k = some v :=
    (wave_setWave s core slot core k (barred w)).trans ((if_neg fun e => other e.2).trans hv)
  have kept := becomes.others core k fun e => other e.2
  rw [wave_barScan, stays] at kept
  obtain ⟨y, hy, same⟩ := Option.map_eq_some_iff.mp kept
  refine ⟨y, hy, ?_⟩
  have streams : y.streams = (State.scanned (arrivedAs s core slot (barred w)) w.lid core v).streams := (congrArg Wave.streams same : _)
  have mine : (v.lid == w.lid && v.handler.isNone) = true := by rw [lid, handler, beq_self_eq_true]; rfl
  rw [streams, State.scanned, if_pos mine]
  exact List.mem_map.mpr ⟨r, hr, passBar_wbar done waits⟩

theorem Runs.wbar_waits
    (open' : ¬(arrivedAs s core slot (barred w)).wbarDone core w.lid (w.wbars + 1) = true) :
    ∃ t, exec (.wbar c) s = .next t ∧ ParksOn s t core slot (barred w) c.rbf (s.active c.guard) (.wbar (w.wbars + 1) false) ∧
      t.ival = (s.bump (32 * core + slot) 1).ival ∧ t.mem = s.mem := by
  obtain ⟨parks, u, becomes⟩ := h.parkOn (s1 := arrivedAs s core slot (barred w)) rfl wave_arrivedAs rfl act (.wbar (w.wbars + 1) false) c.rbf 0
  exact ⟨_, (h.wbar_arrived act unhandled log answered).trans (by rw [if_neg open']), parks, becomes.ival, becomes.mem⟩

end

/-! ## `sbar` (R341) -/

/-- The wave once it has executed an `sbar` with a descriptor. -/
def named (desc : Nat) (w : Wave) : Wave := { w with sbars := w.sbars ++ [desc] }

/-- What an `sbar` comes to: it passes, its lanes take the fault, or they wait. -/
def barEnds (s : State) (m : Mask) (k desc : Nat) : Option Bool → State
  | some true => s
  | some false => s.hold m 0x1C 2 0 0
  | none => s.parkOn m (.sbar k desc none)

section
variable {l : Launch} {sS : SReg}

theorem Runs.sbar_exec (h : Runs s core slot w) (act : s.active c.guard ≠ 0) (unhandled : w.handler = none) (launch : aget s.launches w.lid = some l)
    (ok : descOk l.blk (w.scal false sS) core = true) : exec (.sbar c sS) s = .next ((s.arriving (s.active c.guard) fun x =>
    let y := (x.modW (named (w.scal false sS))).bump x.waveId 1
    let z := y.barScan y.w.lid
    barEnds z (s.active c.guard) y.w.sbars.length (w.scal false sS)
      (z.sbarDone y.w.lid y.w.sbars.length z.cur (w.scal false sS))).finishWave c.rbf 0) := by
  have lid : s.curLid = some w.lid := by rw [State.curLid, h.unit, h.w, unhandled]; rfl
  rw [h.once act (exec_sbar c sS s), h.resume, h.scal, lid]
  simp only [Option.bind_some, launch, h.cur, ok, Bool.not_true, Bool.false_eq_true, if_false]
  rfl

theorem sbarAll_arrived (names : (s.waves.map (·.2.uid)).Nodup) (here : s.wave? core slot = some w) (desc d : Nat) :
    (arrivedAs s core slot (named desc w)).sbarAll l w.lid (w.sbars.length + 1) d = true ↔
      ∀ i ∈ descCores l.blk d, s.allArrived i w.lid (fun x => decide (w.sbars.length + 1 ≤ x.sbars.length) || x.uid == w.uid) = true := by
  rw [State.sbarAll, List.all_eq_true]
  refine forall₂_congr fun i _ => Bool.eq_iff_iff.mp ?_
  exact allArrived_setWave names here (w1 := named desc w) (fun x => decide (w.sbars.length + 1 ≤ x.sbars.length)) (by simp [named]) rfl rfl rfl i

theorem clashes_arrived (names : (s.waves.map (·.2.uid)).Nodup) (here : s.wave? core slot = some w) (unhandled : w.handler = none) (desc : Nat) :
    let arrived (d : Nat) : Prop :=
      ∀ i ∈ descCores l.blk d, s.allArrived i w.lid (fun x => decide (w.sbars.length + 1 ≤ x.sbars.length) || x.uid == w.uid) = true
    let others : List (Nat × Nat) := (core, desc) :: (s.resident.filter fun x => x.2.2.handler.isNone && x.2.2.lid == w.lid &&
      x.2.2.uid != w.uid && decide (w.sbars.length + 1 ≤ x.2.2.sbars.length)).map fun x => (x.1, listGet 0 x.2.2.sbars (w.sbars.length + 1 - 1))
    (arrivedAs s core slot (named desc w)).clashes l w.lid (w.sbars.length + 1) core ↔
      ∃ d ∈ others.map (·.2), core ∈ descCores l.blk d ∧ arrived d ∧ ∃ x ∈ others, x.1 ∈ descCores l.blk d ∧ x.2 ≠ d := by
  intro arrived others
  have same (y : Nat × Nat) : y ∈ (arrivedAs s core slot (named desc w)).sbarDescs w.lid (w.sbars.length + 1) ↔ y ∈ others :=
    mem_sbarDescs_setWave names here unhandled desc y
  have all (d : Nat) : (arrivedAs s core slot (named desc w)).sbarAll l w.lid (w.sbars.length + 1) d = true ↔ arrived d :=
    sbarAll_arrived names here desc d
  simp only [State.clashes, List.mem_map, same, all]

section
variable (h : Runs s core slot w) (act : s.active c.guard ≠ 0) (unhandled : w.handler = none)
  (launch : aget s.launches w.lid = some l) (ok : descOk l.blk (w.scal false sS) core = true)
  (log : (s.core core).lanesLog w.uid fullMask = []) (answered : s.openRemote w.uid fullMask = false)
include h act unhandled launch ok log answered

/-- How the `sbar` of a wave that arrives completes, told by what stands before it. -/
theorem Runs.sbar_arrived :
    let y := arrivedAs s core slot (named (w.scal false sS) w)
    exec (.sbar c sS) s = .next ((barEnds (y.barScan w.lid) (s.active c.guard) (w.sbars.length + 1) (w.scal false sS)
      (y.sbarDone w.lid (w.sbars.length + 1) core (w.scal false sS))).finishWave c.rbf 0) := by
  intro y
  have cur : (y.barScan w.lid).cur = core := h.cur
  have count : (named (w.scal false sS) w).sbars.length = w.sbars.length + 1 := by simp [named]
  have scan := sbarDone_mapWaves (scanned_woken y w.lid) (s := y) (lid := w.lid) (w.sbars.length + 1) core (w.scal false sS)
  rw [h.sbar_exec act unhandled launch ok, h.arriving log answered, h.arrives_as]
  dsimp only
  rw [h.w_arrivedAs, count]
  change Host.Outcome.next (State.finishWave (barEnds (y.barScan w.lid) _ _ _ ((y.barScan w.lid).sbarDone w.lid _ (y.barScan w.lid).cur _)) _ _) = _
  rw [cur, barScan_eq y, scan]

theorem Runs.sbar_passes (unsplit : Unsplit w)
    (done : (arrivedAs s core slot (named (w.scal false sS) w)).sbarDone w.lid (w.sbars.length + 1) core (w.scal false sS) = some true) :
    ∃ t u, exec (.sbar c sS) s = .next t ∧ t.wave? core slot = some u ∧
      WentOn s.focus (named (w.scal false sS) w) u c.rbf (fun _ => behind s) ∧ (∀ r ∈ u.streams, r.lanes &&& s.active c.guard ≠ 0 → r.st = .run) ∧
      t.ival = (s.bump (32 * core + slot) 1).ival ∧ t.mem = s.mem := by
  obtain ⟨u, hu, went, runs, x, becomes⟩ := h.scan_goes (w1 := named (w.scal false sS) w) rfl unsplit w.lid c.guard c.rbf
  exact ⟨_, u, (h.sbar_arrived act unhandled launch ok log answered).trans (by rw [done, barEnds]), hu, went, runs, becomes.ival, becomes.mem⟩

theorem Runs.sbar_waits
    (open' : (arrivedAs s core slot (named (w.scal false sS) w)).sbarDone w.lid (w.sbars.length + 1) core (w.scal false sS) = none) :
    ∃ t, exec (.sbar c sS) s = .next t ∧ ParksOn s t core slot (named (w.scal false sS) w) c.rbf (s.active c.guard)
        (.sbar (w.sbars.length + 1) (w.scal false sS) none) ∧ t.ival = (s.bump (32 * core + slot) 1).ival ∧ t.mem = s.mem := by
  have woken := scanned_woken (arrivedAs s core slot (named (w.scal false sS) w)) w.lid core (named (w.scal false sS) w)
  obtain ⟨parks, u, becomes⟩ := h.parkOn (s1 := (arrivedAs s core slot (named (w.scal false sS) w)).barScan w.lid) rfl (wave_scanned w.lid)
    ((sameWave_ended woken.sameWave).trans (rfl : (named _ w).ended = w.ended)) act (.sbar (w.sbars.length + 1) (w.scal false sS) none) c.rbf 0
  exact ⟨_, (h.sbar_arrived act unhandled launch ok log answered).trans (by rw [open', barEnds]), parks.of_woken woken, becomes.ival, becomes.mem⟩

theorem Runs.sbar_traps (unsplit : Unsplit w)
    (clash : (arrivedAs s core slot (named (w.scal false sS) w)).sbarDone w.lid (w.sbars.length + 1) core (w.scal false sS) = some false) :
    ∃ t, exec (.sbar c sS) s = .next t ∧
      Trapped s t core slot (named (w.scal false sS) w) c.rbf (s.active c.guard) 0x1C 2 0 0 := by
  have woken := scanned_woken (arrivedAs s core slot (named (w.scal false sS) w)) w.lid core (named (w.scal false sS) w)
  exact ⟨_, (h.sbar_arrived act unhandled launch ok log answered).trans (by rw [clash, barEnds]),
    h.traps (s1 := (arrivedAs s core slot (named (w.scal false sS) w)).barScan w.lid) rfl rfl (wave_scanned w.lid) woken rfl unsplit act (by decide) 2 0 0
      c.rbf 0⟩

end

end

end

/-- Settles O44: what stands before the arrival says whether the barrier is complete with it (`allArrived_setWave`) and whether two descriptors differ
(`clashes_arrived`); a scan then wakes the waves that waited, and the wave goes on, waits, or takes the fault (`Runs.traps`). -/
theorem launchBarriers : Obligations.LaunchBarriers := by
  unfold Obligations.LaunchBarriers
  intro c s core slot w l al h unsplit act unhandled launch alloc names early
  refine ⟨h.early act (h.wbar_exec act), fun sS ok => h.early act (h.sbar_exec act unhandled launch ok), fun log answered => ?_⟩
  intro waits passes here all
  have done : _ ↔ all := h.wbarDone_arrived alloc unhandled names
  refine ⟨fun yes => h.wbar_passes act unhandled log answered unsplit (done.mpr yes),
    fun no => h.wbar_waits act unhandled log answered fun yes => no (done.mp yes), fun sS => ?_⟩
  intro desc k arrived others clash w1 ok
  have clashes : _ ↔ clash := clashes_arrived (l := l) names h.here unhandled desc
  have complete : _ ↔ arrived desc := sbarAll_arrived (l := l) names h.here desc desc
  classical
  have completes := sbarDone_eq (s := arrivedAs s core slot (named desc w)) (core := core) (lid := w.lid) (k := k) (d := desc) launch
  refine ⟨fun apart yes => ?passes,
    fun apart no => h.sbar_waits act unhandled launch ok log answered
      (completes.trans ((if_neg (mt clashes.mp apart)).trans (if_neg (mt complete.mp no)))),
    fun both _ => h.sbar_traps act unhandled launch ok log answered unsplit (completes.trans (if_pos (clashes.mpr both)))⟩
  case passes =>
    obtain ⟨t, u, he, hu, went, runs, ival, mem⟩ := h.sbar_passes act unhandled launch ok log answered unsplit
      (completes.trans ((if_neg (mt clashes.mp apart)).trans (if_pos (complete.mpr yes))))
    exact ⟨t, u, he, hu, went, runs, ival, mem, trivial⟩

end Sys2Proof.Claim

namespace Sys2Proof.Machine
open Sys2Proof Sys2Proof.Claim

/-! # Rounding (R135, R136, R144, R145, R149) -/

/-! ## Magnitudes -/

/-- What an encoding without sign means, on past the largest of the format. -/
def NumFmt.mag (f : NumFmt) (a : Nat) : ℚ :=
  (if a / 2 ^ f.mb = 0 then ((a % 2 ^ f.mb : Nat) : ℚ) else (2 ^ f.mb + a % 2 ^ f.mb : Nat)) * 2 ^ (max ((a / 2 ^ f.mb : Nat) : Int) 1 - f.bias - f.mb)

/-- The finite magnitude `x` places of size 2^(b + 1 - bias - mb) up. -/
theorem mag_block (f : NumFmt) {b x : Nat} (low : 2 ^ f.mb ≤ x ∨ b = 0) (high : x ≤ 2 * 2 ^ f.mb) :
    f.mag (b * 2 ^ f.mb + x) = x * 2 ^ ((b : Int) + 1 - f.bias - f.mb) := by
  have pos : 0 < 2 ^ f.mb := Nat.two_pow_pos _
  rcases Nat.lt_or_ge x (2 ^ f.mb) with small | large
  · obtain rfl : b = 0 := low.resolve_left (by omega)
    simp [NumFmt.mag, Nat.div_eq_of_lt small, Nat.mod_eq_of_lt small]
  · rcases Nat.lt_or_ge x (2 * 2 ^ f.mb) with inside | top
    · have e : b * 2 ^ f.mb + x = (x - 2 ^ f.mb) + (b + 1) * 2 ^ f.mb := by rw [Nat.add_mul]; omega
      have lt : x - 2 ^ f.mb < 2 ^ f.mb := by omega
      have d : (b * 2 ^ f.mb + x) / 2 ^ f.mb = b + 1 := by
        rw [e, Nat.add_mul_div_right _ _ pos, Nat.div_eq_of_lt lt, Nat.zero_add]
      have m : (b * 2 ^ f.mb + x) % 2 ^ f.mb = x - 2 ^ f.mb := by rw [e, Nat.add_mul_mod_self_right, Nat.mod_eq_of_lt lt]
      rw [NumFmt.mag, d, m, if_neg (by omega), Nat.add_sub_cancel' large]
      congr 2
      push_cast
      omega
    · obtain rfl : x = 2 * 2 ^ f.mb := by omega
      have e : b * 2 ^ f.mb + 2 * 2 ^ f.mb = (b + 2) * 2 ^ f.mb := by rw [Nat.add_mul]
      rw [NumFmt.mag, e, Nat.mul_div_cancel _ pos, Nat.mul_mod_left, if_neg (by omega)]
      push_cast
      have : max ((b : Int) + 2) 1 - f.bias - f.mb = ((b : Int) + 1 - f.bias - f.mb) + 1 := by omega
      rw [this, zpow_add_one₀ (by norm_num)]
      ring

/-- Every encoding lies in such a block. -/
theorem exists_block (f : NumFmt) (a : Nat) : ∃ b x, a = b * 2 ^ f.mb + x ∧ x < 2 * 2 ^ f.mb ∧ (2 ^ f.mb ≤ x ∨ b = 0) := by
  have pos : 0 < 2 ^ f.mb := Nat.two_pow_pos _
  have e := Nat.div_add_mod a (2 ^ f.mb)
  have lt := Nat.mod_lt a pos
  rcases Nat.eq_zero_or_pos (a / 2 ^ f.mb) with z | h
  · exact ⟨0, a, by omega, by rw [z] at e; omega, .inr rfl⟩
  · obtain ⟨k, hk⟩ := Nat.exists_eq_succ_of_ne_zero (Nat.pos_iff_ne_zero.mp h)
    rw [hk, Nat.mul_succ, Nat.mul_comm] at e
    exact ⟨k, 2 ^ f.mb + a % 2 ^ f.mb, by omega, by omega, .inl (by omega)⟩

theorem mag_mono (f : NumFmt) : Monotone f.mag := by
  refine monotone_nat_of_le_succ fun a => ?_
  obtain ⟨b, x, rfl, high, low⟩ := exists_block f a
  rw [Nat.add_assoc, mag_block f low high.le, mag_block f (low.imp_left (by omega)) high]
  exact mul_le_mul_of_nonneg_right (by push_cast; linarith) (zpow_nonneg (by norm_num) _)

/-! ## Which encodings are magnitudes -/

theorem negative_of_lt {f : NumFmt} {a : Nat} (h : a < 2 ^ (f.eb + f.mb)) : negative f a = false := Nat.testBit_lt_two_pow h

theorem lt_of_not_negative {f : NumFmt} {a : Nat} (h : a < 2 ^ f.width) (pos : negative f a = false) : a < 2 ^ (f.eb + f.mb) := by
  by_contra large
  rw [NumFmt.width, Nat.add_assoc, Nat.add_comm 1, Nat.pow_succ] at h
  have : a.testBit (f.eb + f.mb) = true := by
    rw [Nat.testBit_eq_decide_div_mod_eq, Nat.div_eq_of_lt_le (k := 1) (by omega) (by omega)]
    rfl
  rw [negative, this] at pos
  cases pos

theorem width_pow (f : NumFmt) : 2 ^ f.width = 2 * 2 ^ (f.eb + f.mb) := by
  rw [NumFmt.width, Nat.add_assoc, Nat.add_comm 1, Nat.pow_succ, Nat.mul_comm]

theorem expo_of_lt {f : NumFmt} {a : Nat} (h : a < 2 ^ (f.eb + f.mb)) : expo f a = a / 2 ^ f.mb := by
  refine Nat.mod_eq_of_lt (Nat.div_lt_of_lt_mul ?_)
  rwa [← Nat.pow_add, Nat.add_comm]

theorem value_of_lt {f : NumFmt} {a : Nat} (h : a < 2 ^ (f.eb + f.mb)) : value f a = f.mag a := by
  rw [value, expo_of_lt h, negative_of_lt h, NumFmt.mag, mantissa]
  simp

theorem pow_split (f : NumFmt) : 2 ^ (f.eb + f.mb) = (2 ^ f.eb - 1) * 2 ^ f.mb + 2 ^ f.mb := by
  rw [Nat.pow_add, Nat.sub_mul, Nat.one_mul, Nat.sub_add_cancel (Nat.le_mul_of_pos_left _ (Nat.two_pow_pos _))]

theorem maxEnc_lt (f : NumFmt) : f.maxEnc < 2 ^ (f.eb + f.mb) := by
  have := Nat.two_pow_pos f.mb
  rw [NumFmt.maxEnc, pow_split]
  split
  · omega
  · split <;> omega

/-- An encoding without sign has the last exponent, or lies below those that have it. -/
theorem expo_last {f : NumFmt} {a : Nat} (h : a < 2 ^ (f.eb + f.mb)) :
    expo f a = 2 ^ f.eb - 1 ∧ a = (2 ^ f.eb - 1) * 2 ^ f.mb + mantissa f a ∨ expo f a ≠ 2 ^ f.eb - 1 ∧ a < (2 ^ f.eb - 1) * 2 ^ f.mb := by
  have parts : a / 2 ^ f.mb * 2 ^ f.mb + mantissa f a = a := Nat.div_add_mod' a (2 ^ f.mb)
  have below : expo f a ≤ 2 ^ f.eb - 1 := Nat.le_sub_one_of_lt (Nat.mod_lt _ (Nat.two_pow_pos _))
  rw [expo_of_lt h] at below ⊢
  rcases below.eq_or_lt with e | lt
  · exact .inl ⟨e, by rw [← e, parts]⟩
  · exact .inr ⟨lt.ne, (Nat.div_lt_iff_lt_mul (Nat.two_pow_pos _)).mp lt⟩

/-- The format has exponents and mantissas. -/
structure NumFmt.Proper (f : NumFmt) : Prop where
  eb : 1 ≤ f.eb
  mb : 1 ≤ f.mb

/-- The finite magnitudes of a format are the encodings up to its largest. -/
theorem isNum_iff {f : NumFmt} (proper : f.Proper) {a : Nat} (pos : negative f a = false) : IsNum f a ↔ a ≤ f.maxEnc := by
  have dom (h : a < 2 ^ (f.eb + f.mb)) : IsNum f a ↔ a ≤ f.maxEnc := by
    have within : a < 2 ^ f.width := by rw [width_pow]; omega
    have lt : mantissa f a < 2 ^ f.mb := Nat.mod_lt a (Nat.two_pow_pos f.mb)
    have split := pow_split f
    have last := expo_last h
    have some' : 0 < (2 ^ f.eb - 1) * 2 ^ f.mb :=
      Nat.mul_pos (Nat.sub_pos_of_lt (Nat.one_lt_two_pow (Nat.ne_of_gt proper.eb))) (Nat.two_pow_pos _)
    have two : 1 < 2 ^ f.mb := Nat.one_lt_two_pow (Nat.ne_of_gt proper.mb)
    simp only [IsNum, IsNaN, IsInf, within, true_and, NumFmt.maxEnc]
    generalize (2 ^ f.eb - 1) * 2 ^ f.mb = b at *
    generalize 2 ^ (f.eb + f.mb) = n at *
    generalize 2 ^ f.mb = m at *
    rcases last with ⟨e, at'⟩ | ⟨ne, lt⟩
    · cases f.inf
      · cases f.nan <;> simp [e] <;> omega
      · by_cases z : mantissa f a = 0 <;> simp [e, z] <;> omega
    · cases f.inf
      · cases f.nan <;> simp [ne] <;> omega
      · simp [ne]
        omega
  exact ⟨fun h => (dom (lt_of_not_negative h.1 pos)).mp h, fun h => (dom (h.trans_lt (maxEnc_lt f))).mpr h⟩

/-! ## The rounded quotient -/

/-- What rounding gives for a magnitude in encodings. -/
def NumFmt.encoded (f : NumFmt) (m : RMode) (sat neg : Bool) (a : Nat) : Nat :=
  if f.maxEnc < a then f.overflow m sat neg else f.sign neg a

theorem overflow_eq (f : NumFmt) (m : RMode) (sat neg : Bool) : f.overflow m sat neg = overflowed f m sat neg := by
  have inf : f.infinity sat neg = infinityIn f sat neg := by
    rw [NumFmt.infinity, infinityIn]
    cases f.inf <;> cases f.nan <;> cases sat <;> rfl
  cases m <;> cases neg <;> simp [NumFmt.overflow, overflowed, inf]

/-- The step between magnitudes that keep `keep` bits, in encodings; `keep` bits make one block. -/
theorem keep_mul {f : NumFmt} {keep : Nat} (h : keep ≤ f.mb) : 2 ^ keep * 2 ^ (f.mb - keep) = 2 ^ f.mb := by
  rw [← Nat.pow_add, Nat.add_sub_cancel' h]

section
variable {f : NumFmt} {keep b lo : Nat}

/-- A magnitude of `lo` steps in block `b`. -/
theorem mag_steps (kept : keep ≤ f.mb) (low : 2 ^ keep ≤ lo ∨ b = 0) (high : lo ≤ 2 ^ (keep + 1)) :
    f.mag (b * 2 ^ f.mb + lo * 2 ^ (f.mb - keep)) = lo * 2 ^ ((b : Int) + 1 - f.bias - keep) := by
  have e := keep_mul kept
  rw [mag_block f (low.imp_left fun h => by rw [← e]; exact Nat.mul_le_mul_right _ h)
    (by rw [← e, ← Nat.mul_assoc, Nat.mul_comm 2, ← Nat.pow_succ]; exact Nat.mul_le_mul_right _ high)]
  push_cast
  rw [mul_assoc, ← zpow_natCast (2 : ℚ) (f.mb - keep), ← zpow_add₀ (by norm_num), Nat.cast_sub kept]
  congr 2
  omega

theorem steps_mod (kept : keep ≤ f.mb) : (b * 2 ^ f.mb + lo * 2 ^ (f.mb - keep)) % 2 ^ (f.mb - keep) = 0 := by
  rw [← keep_mul kept, ← Nat.mul_assoc, ← Nat.add_mul, Nat.mul_mod_left]

theorem steps_div (kept : keep ≤ f.mb) : (b * 2 ^ f.mb + lo * 2 ^ (f.mb - keep)) / 2 ^ (f.mb - keep) = b * 2 ^ keep + lo := by
  rw [← keep_mul kept, ← Nat.mul_assoc, ← Nat.add_mul, Nat.mul_div_cancel _ (Nat.two_pow_pos _)]

theorem kept_iff (proper : f.Proper) {a : Nat} :
    Kept f keep a ↔ a ≤ f.maxEnc ∧ a % 2 ^ (f.mb - keep) = 0 := by
  refine ⟨fun ⟨num, pos, mod⟩ => ⟨(isNum_iff proper pos).mp num, ?_⟩, fun ⟨le, mod⟩ => ?_⟩
  · rwa [mantissa, Nat.mod_mod_of_dvd _ (Nat.pow_dvd_pow _ (Nat.sub_le _ _))] at mod
  · have pos := negative_of_lt (le.trans_lt (maxEnc_lt f))
    refine ⟨(isNum_iff proper pos).mpr le, pos, ?_⟩
    rwa [mantissa, Nat.mod_mod_of_dvd _ (Nat.pow_dvd_pow _ (Nat.sub_le _ _))]

theorem gap_steps (kept : keep ≤ f.mb) (low : 2 ^ keep ≤ lo ∨ b = 0) (high : lo < 2 ^ (keep + 1))
    (small : b * 2 ^ f.mb + lo * 2 ^ (f.mb - keep) < 2 ^ (f.eb + f.mb)) :
    gap f keep (b * 2 ^ f.mb + lo * 2 ^ (f.mb - keep)) = 2 ^ ((b : Int) + 1 - f.bias - keep) := by
  rw [gap, expo_of_lt small]
  have e := keep_mul kept
  have pos := Nat.two_pow_pos f.mb
  have top : lo * 2 ^ (f.mb - keep) < 2 * 2 ^ f.mb := by
    rw [← e, ← Nat.mul_assoc, Nat.mul_comm 2, ← Nat.pow_succ]
    exact Nat.mul_lt_mul_of_pos_right high (Nat.two_pow_pos _)
  have d : max (((b * 2 ^ f.mb + lo * 2 ^ (f.mb - keep)) / 2 ^ f.mb : Nat) : Int) 1 = b + 1 := by
    rw [Nat.mul_comm b, Nat.mul_add_div pos]
    rcases low with h | rfl
    · have : 2 ^ f.mb ≤ lo * 2 ^ (f.mb - keep) := by rw [← e]; exact Nat.mul_le_mul_right _ h
      rw [Nat.div_eq_of_lt_le (k := 1) (by omega) (by omega)]
      omega
    · have : lo * 2 ^ (f.mb - keep) / 2 ^ f.mb < 2 := (Nat.div_lt_iff_lt_mul pos).mpr top
      omega
  rw [d]

/-- The next magnitude lies one gap above. -/
theorem mag_next (kept : keep ≤ f.mb) {a : Nat} (small : a < 2 ^ (f.eb + f.mb)) (mod : a % 2 ^ (f.mb - keep) = 0) :
    f.mag (a + 2 ^ (f.mb - keep)) = f.mag a + gap f keep a := by
  obtain ⟨b, x, rfl, high, low⟩ := exists_block f a
  have e := keep_mul kept
  obtain ⟨lo, rfl⟩ : 2 ^ (f.mb - keep) ∣ x := by
    refine (Nat.dvd_add_right (Dvd.dvd.mul_left ?_ b)).mp (Nat.dvd_of_mod_eq_zero mod)
    exact Nat.pow_dvd_pow _ (Nat.sub_le _ _)
  rw [Nat.mul_comm (2 ^ (f.mb - keep)) lo] at *
  have pos := Nat.two_pow_pos (f.mb - keep)
  have low' : 2 ^ keep ≤ lo ∨ b = 0 := low.imp_left fun h => by rw [← e] at h; exact Nat.le_of_mul_le_mul_right h pos
  have high' : lo < 2 ^ (keep + 1) := by
    rw [← e, ← Nat.mul_assoc, Nat.mul_comm 2, ← Nat.pow_succ] at high
    exact Nat.lt_of_mul_lt_mul_right high
  have next := mag_steps (f := f) (b := b) kept (lo := lo + 1) (low'.imp_left (by omega)) high'
  rw [Nat.add_mul, Nat.one_mul, ← Nat.add_assoc] at next
  rw [next, mag_steps kept low' high'.le, gap_steps kept low' high' small]
  push_cast
  ring

/-- A value between `lo` and `lo + 1` steps of block `b` rounds to one of the two. -/
theorem roundsTo_steps (proper : f.Proper) (some' : 1 ≤ keep) (kept : keep ≤ f.mb) {m : RMode} {draw n : Nat} {sat neg : Bool} {v : ℝ}
    (low : 2 ^ keep ≤ lo ∨ b = 0) (high : lo < 2 ^ (keep + 1)) (pos : 0 < v)
    (above : (lo : ℝ) * 2 ^ ((b : Int) + 1 - f.bias - keep) ≤ v) (below : v < (lo + 1 : ℝ) * 2 ^ ((b : Int) + 1 - f.bias - keep))
    (stays : ¬((lo : ℝ) * 2 ^ ((b : Int) + 1 - f.bias - keep) < v ∧
      TakesUpper m draw (neg = true) (lo % 2 = 1) (v / 2 ^ ((b : Int) + 1 - f.bias - keep) - lo)) → n = lo)
    (steps : (lo : ℝ) * 2 ^ ((b : Int) + 1 - f.bias - keep) < v →
      TakesUpper m draw (neg = true) (lo % 2 = 1) (v / 2 ^ ((b : Int) + 1 - f.bias - keep) - lo) → n = lo + 1) :
    RoundsTo f keep m draw sat (if neg = true then -v else v) (f.encoded m sat neg (b * 2 ^ f.mb + n * 2 ^ (f.mb - keep))) := by
  set g : ℝ := 2 ^ ((b : Int) + 1 - f.bias - keep) with hg
  have gpos : 0 < g := zpow_pos (by norm_num) _
  have sign : (if neg = true then -v else v) < 0 ↔ neg = true := by
    cases neg
    · simp [pos.le]
    · simp [pos]
  have abs : |if neg = true then -v else v| = v := by
    cases neg
    · simp [abs_of_pos pos]
    · simp [abs_of_pos pos]
  have magLo : ((f.mag (b * 2 ^ f.mb + lo * 2 ^ (f.mb - keep)) : ℚ) : ℝ) = lo * g := by
    rw [mag_steps kept low high.le]
    push_cast
    rfl
  have next (k : Nat) : b * 2 ^ f.mb + (k + 1) * 2 ^ (f.mb - keep) = b * 2 ^ f.mb + k * 2 ^ (f.mb - keep) + 2 ^ (f.mb - keep) := by
    rw [Nat.add_mul, Nat.one_mul, Nat.add_assoc]
  have mod := steps_mod (f := f) (b := b) (lo := lo) kept
  have parity : (b * 2 ^ f.mb + lo * 2 ^ (f.mb - keep)) / 2 ^ (f.mb - keep) % 2 = lo % 2 := by
    rw [steps_div kept, Nat.add_mod, Nat.mul_mod, Nat.pow_mod]
    simp [Nat.zero_pow (show 0 < keep from some')]
  refine ⟨neg, sign.symm, ?_⟩
  rw [abs, sign]
  by_cases fits : b * 2 ^ f.mb + lo * 2 ^ (f.mb - keep) ≤ f.maxEnc
  · have small := fits.trans_lt (maxEnc_lt f)
    have val : ((value f (b * 2 ^ f.mb + lo * 2 ^ (f.mb - keep)) : ℚ) : ℝ) = lo * g := by rw [value_of_lt small, magLo]
    have gp : ((gap f keep (b * 2 ^ f.mb + lo * 2 ^ (f.mb - keep)) : ℚ) : ℝ) = g := by
      rw [gap_steps kept low high small]
      push_cast
      rfl
    refine .inl ⟨b * 2 ^ f.mb + lo * 2 ^ (f.mb - keep), (kept_iff proper).mpr ⟨fits, mod⟩, ?_⟩
    rw [val, gp, parity]
    have frac : (v - lo * g) / g = v / g - lo := by rw [sub_div, mul_div_cancel_right₀ _ gpos.ne']
    rw [frac]
    refine ⟨above, by linarith, fun no => ?_, fun ⟨lt, up⟩ next' => ?_, fun ⟨lt, up⟩ big => ?_⟩
    · rw [stays no, NumFmt.encoded, if_neg (by omega)]
    · have := ((kept_iff proper).mp next').1
      rw [steps lt up, NumFmt.encoded, next, if_neg (by omega)]
    · have : ¬b * 2 ^ f.mb + (lo + 1) * 2 ^ (f.mb - keep) ≤ f.maxEnc := fun le => big ((kept_iff proper).mpr (next lo ▸ ⟨le, steps_mod kept⟩))
      rw [steps lt up, NumFmt.encoded, if_pos (by omega), overflow_eq]
  · refine .inr ⟨fun a ha => ?_, ?_⟩
    · obtain ⟨fits', mod'⟩ := (kept_iff proper).mp ha
      have small := fits'.trans_lt (maxEnc_lt f)
      have le : a + 2 ^ (f.mb - keep) ≤ b * 2 ^ f.mb + lo * 2 ^ (f.mb - keep) := by
        obtain ⟨i, rfl⟩ := Nat.dvd_of_mod_eq_zero mod'
        obtain ⟨j, hj⟩ := Nat.dvd_of_mod_eq_zero mod
        rw [hj] at fits ⊢
        have : i < j := Nat.lt_of_mul_lt_mul_left (show 2 ^ (f.mb - keep) * i < 2 ^ (f.mb - keep) * j by omega)
        calc 2 ^ (f.mb - keep) * i + 2 ^ (f.mb - keep) = 2 ^ (f.mb - keep) * (i + 1) := (Nat.mul_succ _ _).symm
          _ ≤ _ := Nat.mul_le_mul_left _ this
      have := mag_mono f le
      rw [mag_next kept small mod'] at this
      rw [value_of_lt small]
      calc ((f.mag a : ℚ) : ℝ) + ((gap f keep a : ℚ) : ℝ) = ((f.mag a + gap f keep a : ℚ) : ℝ) := by push_cast; rfl
        _ ≤ ((f.mag (b * 2 ^ f.mb + lo * 2 ^ (f.mb - keep)) : ℚ) : ℝ) := by exact_mod_cast this
        _ = lo * g := magLo
        _ ≤ v := above
    · have le : lo ≤ n := by
        by_cases up : (lo : ℝ) * g < v ∧ TakesUpper m draw (neg = true) (lo % 2 = 1) (v / g - lo)
        · rw [steps up.1 up.2]; omega
        · rw [stays up]
      have := Nat.mul_le_mul_right (2 ^ (f.mb - keep)) le
      rw [NumFmt.encoded, if_pos (by omega), overflow_eq]

end

/-! ## What `roundQ` computes -/

/-- The power of two below a quotient. -/
theorem floorLog2_bounds {num den : Nat} (hn : 0 < num) (hd : 0 < den) :
    (2 : ℝ) ^ floorLog2 num den ≤ num / den ∧ (num / den : ℝ) < 2 ^ (floorLog2 num den + 1) := by
  have hn' : (0 : ℝ) < num := by exact_mod_cast hn
  have hd' : (0 : ℝ) < den := by exact_mod_cast hd
  have test (k : Int) : (if k ≥ 0 then decide (den * 2 ^ k.toNat ≤ num) else decide (den ≤ num * 2 ^ (-k).toNat)) = true ↔
      (2 : ℝ) ^ k ≤ num / den := by
    rw [le_div_iff₀ hd', mul_comm]
    by_cases h : k ≥ 0
    · obtain ⟨j, rfl⟩ := Int.eq_ofNat_of_zero_le h
      rw [if_pos h, decide_eq_true_iff, Int.toNat_natCast, zpow_natCast]
      exact_mod_cast Iff.rfl
    · obtain ⟨j, hj⟩ := Int.eq_ofNat_of_zero_le (show 0 ≤ -k by omega)
      obtain rfl : k = -(j : Int) := by omega
      rw [if_neg h, decide_eq_true_iff, neg_neg, Int.toNat_natCast, zpow_neg, zpow_natCast, inv_mul_le_iff₀ (by positivity),
        mul_comm (2 ^ j : ℝ)]
      exact_mod_cast Iff.rfl
  have logs (x : Nat) (h : 0 < x) : (2 : ℝ) ^ (Nat.log2 x : Int) ≤ x ∧ (x : ℝ) < 2 ^ ((Nat.log2 x : Int) + 1) := by
    have ne := Nat.ne_of_gt h
    refine ⟨?_, ?_⟩
    · rw [zpow_natCast]; exact_mod_cast Nat.log2_self_le ne
    · have := (Nat.log2_lt ne).mp (Nat.lt_succ_self (Nat.log2 x))
      have e : ((Nat.log2 x : Int) + 1) = ((Nat.log2 x + 1 : Nat) : Int) := by push_cast; rfl
      rw [e, zpow_natCast]
      exact_mod_cast this
  obtain ⟨n1, n2⟩ := logs num hn
  obtain ⟨d1, d2⟩ := logs den hd
  have lower : (2 : ℝ) ^ ((Nat.log2 num : Int) - Nat.log2 den - 1) ≤ num / den := by
    rw [le_div_iff₀ hd']
    calc (2 : ℝ) ^ ((Nat.log2 num : Int) - Nat.log2 den - 1) * den ≤ 2 ^ ((Nat.log2 num : Int) - Nat.log2 den - 1) * 2 ^ ((Nat.log2 den : Int) + 1) :=
          mul_le_mul_of_nonneg_left d2.le (zpow_nonneg (by norm_num) _)
      _ = 2 ^ (Nat.log2 num : Int) := by rw [← zpow_add₀ (by norm_num)]; congr 1; omega
      _ ≤ num := n1
  have upper : (num / den : ℝ) < 2 ^ ((Nat.log2 num : Int) - Nat.log2 den + 1) := by
    rw [div_lt_iff₀ hd']
    calc (num : ℝ) < 2 ^ ((Nat.log2 num : Int) + 1) := n2
      _ = 2 ^ ((Nat.log2 num : Int) - Nat.log2 den + 1) * 2 ^ (Nat.log2 den : Int) := by rw [← zpow_add₀ (by norm_num)]; congr 1; omega
      _ ≤ _ := mul_le_mul_of_nonneg_left d1 (zpow_nonneg (by norm_num) _)
  have not_test {k : Int} (h : ¬(if k ≥ 0 then decide (den * 2 ^ k.toNat ≤ num) else decide (den ≤ num * 2 ^ (-k).toNat)) = true) :
      (num / den : ℝ) < 2 ^ k := not_le.mp fun le => h ((test k).mpr le)
  unfold floorLog2
  extract_lets k le
  rcases hk : le (k + 1) with _ | _
  · rcases hk' : le k with _ | _
    · simp only [Bool.false_eq_true, if_false]
      refine ⟨lower, ?_⟩
      rw [sub_add_cancel]
      exact not_test (by rw [show (if k ≥ 0 then _ else _) = le k from rfl, hk']; exact Bool.false_ne_true)
    · simp only [Bool.false_eq_true, if_false, if_true]
      exact ⟨(test k).mp hk', upper⟩
  · exact absurd ((test (k + 1)).mp hk) (not_le.mpr upper)

/-- The rounded integer is the quotient, or one more where the mode takes the upper neighbour. -/
theorem roundInt_spec (mode : RMode) (draw : Nat) (neg : Bool) (num : Nat) {den : Nat} (hd : 0 < den) :
    let up : Prop := num % den ≠ 0 ∧ TakesUpper mode draw (neg = true) (num / den % 2 = 1) ((num % den : Nat) / den : ℝ)
    (¬up → roundInt mode draw neg num den = num / den) ∧ (up → roundInt mode draw neg num den = num / den + 1) := by
  have hd' : (0 : ℝ) < den := by exact_mod_cast hd
  intro up
  by_cases z : num % den = 0
  · have none : ¬up := fun h => h.1 z
    refine ⟨fun _ => ?_, fun h => absurd h none⟩
    simp [roundInt, z]
  · have up' : up ↔ TakesUpper mode draw (neg = true) (num / den % 2 = 1) ((num % den : Nat) / den : ℝ) := and_iff_right z
    rw [up']
    have z' : (num % den == 0) = false := beq_eq_false_iff_ne.mpr z
    simp only [roundInt, z', Bool.false_eq_true, if_false]
    cases mode with
    | rn =>
      have half : (1 / 2 : ℝ) < (num % den : Nat) / den ↔ den < 2 * (num % den) := by
        rw [lt_div_iff₀ hd', div_mul_eq_mul_div, one_mul, div_lt_iff₀ (by norm_num), mul_comm]
        exact_mod_cast Iff.rfl
      have even : ((num % den : Nat) / den : ℝ) = 1 / 2 ↔ den = 2 * (num % den) := by
        rw [div_eq_div_iff hd'.ne' (by norm_num), one_mul, mul_comm, eq_comm]
        exact_mod_cast Iff.rfl
      simp only [TakesUpper, half, even]
      split
      · exact ⟨fun _ => rfl, fun h => by omega⟩
      · split
        · exact ⟨fun h => by omega, fun _ => rfl⟩
        · exact ⟨fun h => by omega, fun h => by omega⟩
    | rz => exact ⟨fun _ => rfl, fun h => h.elim⟩
    | ru => cases neg <;> simp [TakesUpper]
    | rd => cases neg <;> simp [TakesUpper]
    | sr =>
      have floor : ⌊((num % den : Nat) / den : ℝ) * 2 ^ 32⌋₊ = num % den * 2 ^ 32 / den := by
        have : ((num % den : Nat) / den : ℝ) * 2 ^ 32 = ((num % den * 2 ^ 32 : Nat) : ℝ) / (den : ℝ) := by push_cast; ring
        rw [this, Nat.floor_div_eq_div]
      simp only [TakesUpper, floor]
      split
      · exact ⟨fun h => absurd ‹_› h, fun _ => rfl⟩
      · exact ⟨fun _ => rfl, fun h => absurd h ‹_›⟩

/-- The block in which a value from 2^k on lies. -/
def NumFmt.block (f : NumFmt) (k : Int) : Nat := (max k (1 - f.bias) - (1 - f.bias)).toNat

theorem block_int (f : NumFmt) (k : Int) : (f.block k : Int) = max k (1 - f.bias) - (1 - f.bias) :=
  Int.toNat_of_nonneg (by omega)

theorem block_exp (f : NumFmt) (k : Int) (keep : Nat) : (f.block k : Int) + 1 - f.bias - keep = max k (1 - f.bias) - keep := by
  rw [block_int]
  omega

/-- A quotient times a power of two as a quotient. -/
def shiftNum (num : Nat) (d : Int) : Nat := if d ≥ 0 then num * 2 ^ d.toNat else num
def shiftDen (den : Nat) (d : Int) : Nat := if d ≥ 0 then den else den * 2 ^ (-d).toNat

theorem shiftDen_pos {den : Nat} (h : 0 < den) (d : Int) : 0 < shiftDen den d := by
  unfold shiftDen
  split
  · exact h
  · positivity

theorem shift_quotient {den : Nat} (num : Nat) (d : Int) : (shiftNum num d : ℝ) / shiftDen den d = num / den * 2 ^ d := by
  unfold shiftNum shiftDen
  by_cases h : d ≥ 0
  · obtain ⟨j, rfl⟩ := Int.eq_ofNat_of_zero_le h
    rw [if_pos h, if_pos h, Int.toNat_natCast, zpow_natCast]
    push_cast
    ring
  · obtain ⟨j, hj⟩ := Int.eq_ofNat_of_zero_le (show 0 ≤ -d by omega)
    obtain rfl : d = -(j : Int) := by omega
    rw [if_neg h, if_neg h, neg_neg, Int.toNat_natCast, zpow_neg, zpow_natCast]
    push_cast
    rw [div_mul_eq_div_div, div_eq_mul_inv (_ / _)]

/-- The encoding that `roundQ` gives: as many steps in the block as the rounded quotient says. -/
theorem roundQ_eq (f : NumFmt) {keep : Nat} (kept : keep ≤ f.mb) (mode : RMode) (draw : Nat) (sat neg : Bool) (num den : Nat) (e : Int) :
    let k := floorLog2 num den + e
    let d := e - (max k (1 - f.bias) - keep)
    let n := roundInt mode draw neg (shiftNum num d) (shiftDen den d)
    n ≤ 2 ^ (keep + 1) → (2 ^ keep ≤ n ∨ f.block k = 0) →
    f.roundQ keep mode draw sat neg num den e = f.encoded mode sat neg (f.block k * 2 ^ f.mb + n * 2 ^ (f.mb - keep)) := by
  intro k d n top low
  have pair : (if d ≥ 0 then roundInt mode draw neg (num * 2 ^ d.toNat) den else roundInt mode draw neg num (den * 2 ^ (-d).toNat)) = n := by
    simp only [n, shiftNum, shiftDen]
    split <;> rfl
  have steps := keep_mul kept
  have two : 2 ^ (keep + 1) = 2 * 2 ^ keep := by rw [Nat.pow_succ, Nat.mul_comm]
  have one := Nat.two_pow_pos keep
  have exp (j : Nat) (hj : j ≤ 1) : (max k (1 - f.bias) - keep + j + keep + f.bias).toNat = f.block k + 1 + j := by
    have := block_int f k
    omega
  simp only [NumFmt.roundQ]
  rw [show (max (floorLog2 num den + e) (1 - (f.bias : Int)) - keep) = max k (1 - f.bias) - keep from rfl,
    show e - (max k (1 - (f.bias : Int)) - keep) = d from rfl, pair]
  by_cases zero : n = 0
  · have : f.block k = 0 := low.resolve_left (by omega)
    simp [zero, this, NumFmt.encoded]
  have zero' : (n == 0) = false := beq_eq_false_iff_ne.mpr zero
  simp only [zero', Bool.false_eq_true, if_false]
  by_cases carry : n ≥ 2 ^ (keep + 1)
  · have all : n = 2 * 2 ^ keep := by omega
    have half : n / 2 = 2 ^ keep := by omega
    simp only [if_pos carry, half, Nat.lt_irrefl, if_false, Nat.sub_self, Nat.zero_mul, Nat.add_zero]
    have := exp 1 le_rfl
    push_cast at this
    rw [this, all, Nat.mul_assoc, steps, Nat.add_mul, Nat.add_mul, NumFmt.encoded]
    simp only [Nat.one_mul, Nat.two_mul, Nat.add_assoc]
  · simp only [if_neg carry]
    by_cases sub : n < 2 ^ keep
    · have : f.block k = 0 := low.resolve_left (by omega)
      simp only [if_pos sub, this, Nat.zero_mul, Nat.zero_add, NumFmt.encoded]
    · have := exp 0 (by omega)
      simp only [Nat.cast_zero, add_zero] at this
      have rest : (n - 2 ^ keep) * 2 ^ (f.mb - keep) = n * 2 ^ (f.mb - keep) - 2 ^ f.mb := by rw [Nat.sub_mul, steps]
      have le : 2 ^ f.mb ≤ n * 2 ^ (f.mb - keep) := by rw [← steps]; exact Nat.mul_le_mul_right _ (by omega)
      have enc : (f.block k + 1) * 2 ^ f.mb + (n * 2 ^ (f.mb - keep) - 2 ^ f.mb) = f.block k * 2 ^ f.mb + n * 2 ^ (f.mb - keep) := by
        rw [Nat.add_mul, Nat.one_mul]
        omega
      simp only [if_neg sub, this, rest, enc, NumFmt.encoded]

section
variable {f : NumFmt} {keep : Nat}

/-- The quotient by the size of a step fills the block, and no more. -/
theorem quotient_bounds {num den : Nat} (hn : 0 < num) (hd : 0 < den) (e : Int) :
    let k := floorLog2 num den + e
    let d := e - (max k (1 - f.bias) - keep)
    (2 ^ keep ≤ shiftNum num d / shiftDen den d ∨ f.block k = 0) ∧ shiftNum num d / shiftDen den d < 2 ^ (keep + 1) := by
  intro k d
  obtain ⟨low, high⟩ := floorLog2_bounds hn hd
  have pos := shiftDen_pos hd d
  have pos' : (0 : ℝ) < shiftDen den d := by exact_mod_cast pos
  have quot := shift_quotient (den := den) num d
  have scale : (0 : ℝ) < 2 ^ d := zpow_pos (by norm_num) _
  refine ⟨?_, ?_⟩
  · by_cases normal : 1 - (f.bias : Int) ≤ k
    · refine .inl ((Nat.le_div_iff_mul_le pos).mpr ?_)
      have : (2 ^ keep : ℝ) ≤ shiftNum num d / shiftDen den d := by
        rw [quot]
        calc (2 : ℝ) ^ keep = 2 ^ floorLog2 num den * 2 ^ d := by rw [← zpow_natCast, ← zpow_add₀ (by norm_num)]; congr 1; omega
          _ ≤ _ := mul_le_mul_of_nonneg_right low scale.le
      rw [le_div_iff₀ pos'] at this
      exact_mod_cast this
    · right
      rw [NumFmt.block]
      omega
  · refine (Nat.div_lt_iff_lt_mul pos).mpr ?_
    have : (shiftNum num d / shiftDen den d : ℝ) < 2 ^ (keep + 1) := by
      rw [quot]
      calc (num / den * 2 ^ d : ℝ) < 2 ^ (floorLog2 num den + 1) * 2 ^ d := mul_lt_mul_of_pos_right high scale
        _ = 2 ^ (floorLog2 num den + 1 + d) := by rw [← zpow_add₀ (by norm_num)]
        _ ≤ 2 ^ ((keep + 1 : Nat) : Int) := zpow_le_zpow_right₀ (by norm_num) (by push_cast; omega)
        _ = 2 ^ (keep + 1) := zpow_natCast _ _
    rw [div_lt_iff₀ pos'] at this
    exact_mod_cast this

/-- The rounded quotient is the quotient or the number above it. -/
theorem roundInt_range (mode : RMode) (draw : Nat) (neg : Bool) (num : Nat) {den : Nat} (hd : 0 < den) :
    num / den ≤ roundInt mode draw neg num den ∧ roundInt mode draw neg num den ≤ num / den + 1 := by
  obtain ⟨stay, step⟩ := roundInt_spec mode draw neg num hd
  by_cases up : num % den ≠ 0 ∧ TakesUpper mode draw (neg = true) (num / den % 2 = 1) ((num % den : Nat) / den : ℝ)
  · rw [step up]; omega
  · rw [stay up]; omega

theorem roundQ_encoded (f : NumFmt) (kept : keep ≤ f.mb) (mode : RMode) (draw : Nat) (sat neg : Bool) {num den : Nat}
    (hn : 0 < num) (hd : 0 < den) (e : Int) :
    let k := floorLog2 num den + e
    let d := e - (max k (1 - f.bias) - keep)
    f.roundQ keep mode draw sat neg num den e =
      f.encoded mode sat neg (f.block k * 2 ^ f.mb + roundInt mode draw neg (shiftNum num d) (shiftDen den d) * 2 ^ (f.mb - keep)) := by
  intro k d
  obtain ⟨low, high⟩ := quotient_bounds (f := f) (keep := keep) hn hd e
  obtain ⟨le, le'⟩ := roundInt_range mode draw neg (shiftNum num d) (shiftDen_pos hd d)
  exact roundQ_eq f kept mode draw sat neg num den e (le'.trans high) (low.imp_left fun h => h.trans le)

/-- A value for which the quotient decides as it does for its own rounds to what `roundQ` gives. -/
theorem roundQ_roundsTo (proper : f.Proper) (some' : 1 ≤ keep) (kept : keep ≤ f.mb) {mode : RMode} {draw : Nat} {sat neg : Bool} {num den : Nat}
    (hn : 0 < num) (hd : 0 < den) {e : Int} {v : ℝ} (pos : 0 < v) :
    let k := floorLog2 num den + e
    let g : Int := max k (1 - f.bias) - keep
    let x := shiftNum num (e - g)
    let y := shiftDen den (e - g)
    ((x / y : Nat) * 2 ^ g ≤ v) → (v < ((x / y : Nat) + 1) * 2 ^ g) →
    ((x / y : Nat) * 2 ^ g < v ∧ TakesUpper mode draw (neg = true) (x / y % 2 = 1) (v / 2 ^ g - (x / y : Nat)) ↔
      x % y ≠ 0 ∧ TakesUpper mode draw (neg = true) (x / y % 2 = 1) ((x % y : Nat) / y : ℝ)) →
    RoundsTo f keep mode draw sat (if neg = true then -v else v) (f.roundQ keep mode draw sat neg num den e) := by
  intro k g x y above below same
  obtain ⟨low, high⟩ := quotient_bounds (f := f) (keep := keep) hn hd e
  obtain ⟨stay, step⟩ := roundInt_spec mode draw neg x (den := y) (shiftDen_pos hd (e - g))
  have exp := block_exp f k keep
  rw [roundQ_encoded f kept mode draw sat neg hn hd e]
  refine roundsTo_steps (lo := x / y) proper some' kept low high pos ?_ ?_ ?_ ?_
  all_goals rw [exp]
  · exact above
  · exact below
  · exact fun no => stay fun h => no (same.mpr h)
  · exact fun lt up => step (same.mp ⟨lt, up⟩)

/-- **`roundQ` rounds the exact quotient.** -/
theorem roundQ_quotient (proper : f.Proper) (some' : 1 ≤ keep) (kept : keep ≤ f.mb) (mode : RMode) (draw : Nat) (sat neg : Bool) {num den : Nat}
    (hn : 0 < num) (hd : 0 < den) (e : Int) :
    RoundsTo f keep mode draw sat (if neg = true then -(num / den * 2 ^ e : ℝ) else num / den * 2 ^ e)
      (f.roundQ keep mode draw sat neg num den e) := by
  have hn' : (0 : ℝ) < num := by exact_mod_cast hn
  have hd' : (0 : ℝ) < den := by exact_mod_cast hd
  refine roundQ_roundsTo proper some' kept hn hd (by positivity) ?_ ?_ ?_
  all_goals
    set g : Int := max (floorLog2 num den + e) (1 - f.bias) - keep
    set x := shiftNum num (e - g)
    set y := shiftDen den (e - g)
    have ypos : 0 < y := shiftDen_pos hd _
    have ypos' : (0 : ℝ) < y := by exact_mod_cast ypos
    have gpos : (0 : ℝ) < 2 ^ g := zpow_pos (by norm_num) _
    have val : (num / den * 2 ^ e : ℝ) = (x / y : ℝ) * 2 ^ g := by
      rw [shift_quotient, mul_assoc, ← zpow_add₀ (by norm_num), sub_add_cancel]
    have parts : (x / y : ℝ) = (x / y : Nat) + ((x % y : Nat) : ℝ) / y := by
      rw [div_eq_iff ypos'.ne', add_mul, div_mul_cancel₀ _ ypos'.ne']
      exact_mod_cast (Nat.div_add_mod' x y).symm
    have rest : ((x % y : Nat) : ℝ) / y < 1 := by
      rw [div_lt_one ypos']
      exact_mod_cast Nat.mod_lt x ypos
    have nonneg : (0 : ℝ) ≤ ((x % y : Nat) : ℝ) / y := by positivity
    rw [val]
  · exact mul_le_mul_of_nonneg_right (by linarith) gpos.le
  · exact mul_lt_mul_of_pos_right (by linarith) gpos
  · rw [mul_div_cancel_right₀ _ gpos.ne', mul_lt_mul_iff_of_pos_right gpos, parts, add_sub_cancel_left]
    refine and_congr_left fun _ => ?_
    rw [lt_add_iff_pos_right, div_pos_iff_of_pos_right ypos', Nat.cast_pos, Nat.pos_iff_ne_zero]

/-- **`roundQ` with a sticky bit** (R150): a value strictly between two even multiples of the unit rounds, but under .sr, as the odd multiple between
them does. -/
theorem roundQ_sticky (proper : f.Proper) (some' : 1 ≤ keep) (kept : keep ≤ f.mb) {mode : RMode} (plain : mode ≠ .sr) (draw : Nat) (sat neg : Bool)
    {r : Nat} (large : 2 ^ (keep + 2) ≤ r) {e : Int} {v : ℝ} (above : (2 * r : ℝ) * 2 ^ e < v) (below : v < (2 * r + 2 : ℝ) * 2 ^ e) :
    RoundsTo f keep mode draw sat (if neg = true then -v else v) (f.roundQ keep mode draw sat neg (2 * r + 1) 1 e) := by
  have epos : (0 : ℝ) < 2 ^ e := zpow_pos (by norm_num) _
  have vpos : 0 < v := lt_of_le_of_lt (by positivity) above
  have deep : (keep : Int) + 2 ≤ floorLog2 (2 * r + 1) 1 := by
    have high := (floorLog2_bounds (num := 2 * r + 1) (den := 1) (by omega) (by omega)).2
    have le : (2 : ℝ) ^ ((keep + 2 : Nat) : Int) ≤ ((2 * r + 1 : Nat) : ℝ) / (1 : Nat) := by
      rw [zpow_natCast, Nat.cast_one, div_one]
      exact_mod_cast (by omega : 2 ^ (keep + 2) ≤ 2 * r + 1)
    have := (zpow_lt_zpow_iff_right₀ (by norm_num : (1 : ℝ) < 2)).mp (le.trans_lt high)
    push_cast at this
    omega
  refine roundQ_roundsTo proper some' kept (by omega) (by omega) vpos ?_ ?_ ?_
  all_goals
    set g : Int := max (floorLog2 (2 * r + 1) 1 + e) (1 - f.bias) - keep with hg
    obtain ⟨j, hj⟩ := Int.eq_ofNat_of_zero_le (show 0 ≤ g - e - 2 by omega)
    have neg' : ¬e - g ≥ 0 := by omega
    have x : shiftNum (2 * r + 1) (e - g) = 2 * r + 1 := if_neg neg'
    have y : shiftDen 1 (e - g) = 4 * 2 ^ j := by
      rw [shiftDen, if_neg neg', Nat.one_mul, show (-(e - g)).toNat = j + 2 by omega, Nat.pow_add, Nat.mul_comm]
    rw [x, y]
    have gval : (2 : ℝ) ^ g = 4 * 2 ^ j * 2 ^ e := by
      rw [show g = (j : Int) + 2 + e by omega, zpow_add₀ (by norm_num), zpow_add₀ (by norm_num), zpow_natCast,
        show (2 : ℝ) ^ (2 : Int) = 4 by norm_num, mul_comm (2 ^ j : ℝ)]
    have ypos : (0 : ℝ) < 4 * 2 ^ j := by positivity
    have parts := Nat.div_add_mod' (2 * r + 1) (4 * 2 ^ j)
    have rest := Nat.mod_lt (2 * r + 1) (show 0 < 4 * 2 ^ j by positivity)
    set lo := (2 * r + 1) / (4 * 2 ^ j)
    set part := (2 * r + 1) % (4 * 2 ^ j)
    have twice : lo * (4 * 2 ^ j) = 2 * (lo * (2 * 2 ^ j)) := by ring
    have odd : part % 2 = 1 := by omega
    have parts' : (lo : ℝ) * (4 * 2 ^ j) + part = 2 * r + 1 := by exact_mod_cast parts
    have fromBelow : ((lo : ℝ) * (4 * 2 ^ j) + part - 1) * 2 ^ e < v := by rw [parts', add_sub_cancel_right]; exact above
    have fromAbove : v < ((lo : ℝ) * (4 * 2 ^ j) + part + 1) * 2 ^ e := by rw [parts']; convert below using 2; ring
    have least : (1 : ℝ) ≤ part := by exact_mod_cast (by omega : 1 ≤ part)
    have most : (part : ℝ) + 1 ≤ 4 * 2 ^ j := by exact_mod_cast (by omega : part + 1 ≤ 4 * 2 ^ j)
    have strict : (lo : ℝ) * (4 * 2 ^ j * 2 ^ e) < v := by
      refine lt_of_le_of_lt ?_ fromBelow
      rw [← mul_assoc]
      exact mul_le_mul_of_nonneg_right (by linarith) epos.le
    rw [gval]
  · exact strict.le
  · refine lt_of_lt_of_le fromAbove ?_
    rw [← mul_assoc ((lo : ℝ) + 1), add_mul (lo : ℝ) 1, one_mul]
    exact mul_le_mul_of_nonneg_right (by linarith) epos.le
  · have nonzero : part ≠ 0 := by omega
    simp only [strict, nonzero, ne_eq, not_false_eq_true, true_and]
    have unit : (0 : ℝ) < 4 * 2 ^ j * 2 ^ e := by positivity
    cases mode with
    | rn =>
      have own : (1 / 2 : ℝ) < ((part : Nat) : ℝ) / ((4 * 2 ^ j : Nat) : ℝ) ↔ 2 * 2 ^ j < part := by
        push_cast
        rw [lt_div_iff₀ ypos]
        constructor
        · intro h
          exact_mod_cast (by linarith : (2 : ℝ) * 2 ^ j < part)
        · intro h
          have : (2 : ℝ) * 2 ^ j < part := by exact_mod_cast h
          linarith
      have ownEven : ((part : Nat) : ℝ) / ((4 * 2 ^ j : Nat) : ℝ) ≠ 1 / 2 := by
        push_cast
        rw [ne_eq, div_eq_iff ypos.ne']
        intro h
        have : part = 2 * 2 ^ j := by exact_mod_cast (by linarith : (part : ℝ) = 2 * 2 ^ j)
        omega
      have whole : v / (4 * 2 ^ j * 2 ^ e) - lo = (v / 2 ^ e - lo * (4 * 2 ^ j)) / (4 * 2 ^ j) := by
        rw [sub_div, mul_div_cancel_right₀ _ ypos.ne', div_div, mul_comm (2 ^ e : ℝ)]
      have b : (part : ℝ) - 1 < v / 2 ^ e - lo * (4 * 2 ^ j) := by
        have := (lt_div_iff₀ epos).mpr fromBelow
        linarith
      have a : v / 2 ^ e - lo * (4 * 2 ^ j) < part + 1 := by
        have := (div_lt_iff₀ epos).mpr fromAbove
        linarith
      simp only [TakesUpper, own, ownEven, false_and, or_false, whole]
      rw [lt_div_iff₀ ypos, div_eq_iff ypos.ne']
      rcases Nat.lt_or_ge (2 * 2 ^ j) part with up | down
      · have : (2 : ℝ) * 2 ^ j + 1 ≤ part := by exact_mod_cast up
        simp only [up, iff_true]
        exact .inl (by linarith)
      · have : (part : ℝ) + 1 ≤ 2 * 2 ^ j := by exact_mod_cast (by omega : part + 1 ≤ 2 * 2 ^ j)
        simp only [Nat.not_lt.mpr down, iff_false]
        rintro (h | ⟨h, -⟩) <;> linarith
    | rz => exact Iff.rfl
    | ru => exact Iff.rfl
    | rd => exact Iff.rfl
    | sr => exact absurd rfl plain

end

/-! ## The integer square root -/

theorem isqrtBits_spec (i n r : Nat) (low : r * r ≤ n) (high : n < (r + 2 ^ i) * (r + 2 ^ i)) :
    isqrtBits i n r * isqrtBits i n r ≤ n ∧ n < (isqrtBits i n r + 1) * (isqrtBits i n r + 1) := by
  induction i generalizing r with
  | zero => exact ⟨low, high⟩
  | succ i ih =>
    rw [isqrtBits]
    split
    · exact ih _ ‹_› (by rw [Nat.add_assoc, ← Nat.two_mul, Nat.mul_comm 2, ← Nat.pow_succ]; exact high)
    · exact ih _ low (Nat.not_le.mp ‹_›)

theorem isqrt_spec (n : Nat) : isqrt n * isqrt n ≤ n ∧ n < (isqrt n + 1) * (isqrt n + 1) := by
  refine isqrtBits_spec _ _ _ (Nat.zero_le _) ?_
  rw [Nat.zero_add, ← Nat.pow_add]
  rcases Nat.eq_zero_or_pos n with rfl | pos
  · exact Nat.two_pow_pos _
  · exact (Nat.log2_lt (Nat.ne_of_gt pos)).mp (by omega)

end Sys2Proof.Machine

namespace Sys2Proof.Machine
open Sys2Proof Sys2Proof.Claim

/-! # Exact values (R134, R136, R144, R150) -/

/-! ## Fields of an encoding -/

theorem mod_width {f : NumFmt} {x : Nat} (h : x < 2 ^ f.width) :
    x = f.sign (negative f x) (x % 2 ^ (f.eb + f.mb)) := by
  rw [width_pow] at h
  have parts := Nat.div_add_mod x (2 ^ (f.eb + f.mb))
  have bit : negative f x = decide (x / 2 ^ (f.eb + f.mb) % 2 = 1) := Nat.testBit_eq_decide_div_mod_eq
  have lt : x / 2 ^ (f.eb + f.mb) < 2 := Nat.div_lt_of_lt_mul (by omega)
  rcases Nat.lt_or_ge x (2 ^ (f.eb + f.mb)) with small | large
  · rw [negative_of_lt small, NumFmt.sign, if_neg Bool.false_ne_true, Nat.mod_eq_of_lt small]
  · have one : x / 2 ^ (f.eb + f.mb) = 1 := by
      have := Nat.div_pos large (Nat.two_pow_pos _)
      omega
    rw [bit, one, NumFmt.sign]
    rw [one, Nat.mul_one] at parts
    exact parts.symm

section
variable {f : NumFmt} {a : Nat} (h : a < 2 ^ (f.eb + f.mb)) (n : Bool)
include h

theorem negative_sign : negative f (f.sign n a) = n := by
  cases n
  · exact negative_of_lt h
  · rw [NumFmt.sign, if_pos rfl, negative, Nat.testBit_two_pow_add_eq, Nat.testBit_lt_two_pow h]
    rfl

theorem sign_lt : f.sign n a < 2 ^ f.width := by
  rw [width_pow, NumFmt.sign]
  split <;> omega

theorem sign_mod : f.sign n a % 2 ^ (f.eb + f.mb) = a := by
  rw [NumFmt.sign]
  split
  · rw [Nat.add_mod_left, Nat.mod_eq_of_lt h]
  · exact Nat.mod_eq_of_lt h

omit h in
theorem mantissa_sign (a : Nat) (n : Bool) : mantissa f (f.sign n a) = mantissa f a := by
  rw [mantissa, mantissa, NumFmt.sign]
  split
  · rw [Nat.pow_add, Nat.mul_add_mod_self_right]
  · rfl

omit h in
theorem expo_sign (a : Nat) (n : Bool) : expo f (f.sign n a) = expo f a := by
  rw [expo, expo, NumFmt.sign]
  split
  · rw [Nat.pow_add, Nat.mul_comm, Nat.mul_add_div (Nat.two_pow_pos _), Nat.add_mod_left]
  · rfl

end

/-- The size of the last place of an encoding, as a power of two, and its mantissa with the hidden bit. -/
def placeOf (f : NumFmt) (x : Nat) : Int := max (expo f x : Int) 1 - f.bias - f.mb
def significand (f : NumFmt) (x : Nat) : Nat := if expo f x = 0 then mantissa f x else 2 ^ f.mb + mantissa f x

theorem value_eq (f : NumFmt) (x : Nat) : value f x = (if negative f x then -1 else 1) * significand f x * 2 ^ placeOf f x := by
  rw [value, significand, placeOf]
  split <;> push_cast <;> rfl

/-! ## Decoding -/

/-- Bits of an encoding as the decoder takes them. -/
theorem decode_eq {f : NumFmt} (proper : f.Proper) (x : Nat) :
    f.decode x =
      if f.inf = true ∧ expo f x = 2 ^ f.eb - 1 then (if mantissa f x = 0 then .inf (negative f x) else .nan)
      else if f.nan = true ∧ f.inf = false ∧ expo f x = 2 ^ f.eb - 1 ∧ mantissa f x = 2 ^ f.mb - 1 then .nan
      else .fin (negative f x) (significand f x) (placeOf f x) := by
  have m : bitsN x (f.mb - 1) 0 = mantissa f x := by rw [bitsN, Nat.pow_zero, Nat.div_one, Nat.sub_zero, Nat.sub_add_cancel proper.mb, mantissa]
  have e : bitsN x (f.eb + f.mb - 1) f.mb = expo f x := by
    have := proper.eb
    rw [bitsN, expo]
    congr 2
    omega
  rw [NumFmt.decode, m, e, significand, placeOf, show bitN x (f.eb + f.mb) = negative f x from rfl]
  simp only [Bool.and_eq_true, beq_iff_eq, Bool.not_eq_true', and_assoc]
  split
  · rfl
  · split
    · rfl
    · split
      · rename_i z
        simp [z]
      · rename_i z
        have : max (expo f x : Int) 1 = expo f x := by omega
        rw [this]

section
variable {f : NumFmt} (proper : f.Proper) {x : Nat}
include proper

theorem decode_nan (h : IsNaN f x) : f.decode x = .nan := by
  obtain ⟨-, e, k⟩ := h
  rw [decode_eq proper]
  by_cases i : f.inf = true
  · rw [if_pos i] at k
    rw [if_pos ⟨i, e⟩, if_neg k]
  · rw [if_neg i] at k
    rw [if_neg (fun h => i h.1), if_pos ⟨k.1, Bool.not_eq_true _ ▸ i, e, k.2⟩]

theorem decode_inf (h : IsInf f x) : f.decode x = .inf (negative f x) := by
  obtain ⟨-, i, e, m⟩ := h
  rw [decode_eq proper, if_pos ⟨i, e⟩, if_pos m]

theorem decode_num (h : IsNum f x) : f.decode x = .fin (negative f x) (significand f x) (placeOf f x) := by
  obtain ⟨lt, nan, inf⟩ := h
  rw [decode_eq proper]
  split
  · rename_i k
    by_cases z : mantissa f x = 0
    · exact absurd ⟨lt, k.1, k.2, z⟩ inf
    · exact absurd ⟨lt, k.2, by rw [if_pos k.1]; exact z⟩ nan
  · split
    · rename_i k
      exact absurd ⟨lt, k.2.2.1, by rw [if_neg (by rw [k.2.1]; exact Bool.false_ne_true)]; exact ⟨k.1, k.2.2.2⟩⟩ nan
    · rfl

end

/-! ## The value of a decoded encoding -/

def FV.val : FV → ℚ
  | .fin n m e => (if n then -1 else 1) * m * 2 ^ e
  | _ => 0

/-- An exact value is what a factor says. -/
structure FV.Means (x : FV) (e : Factor) : Prop where
  nan : x.isNan = true ↔ e.nan
  inf : ¬e.nan → (x.isInf = true ↔ e.inf)
  neg : ¬e.nan → x.neg' = e.neg
  val : ¬e.nan → ¬e.inf → x.val = e.val

section
variable {a : Factor}

theorem means_nan : FV.nan.Means a ↔ a.nan :=
  ⟨fun h => h.nan.mp rfl, fun h => ⟨iff_of_true rfl h, fun k => absurd h k, fun k => absurd h k, fun k => absurd h k⟩⟩

theorem means_inf {n : Bool} : (FV.inf n).Means a ↔ ¬a.nan ∧ a.inf ∧ a.neg = n := by
  refine ⟨fun h => ?_, fun ⟨nan, inf, neg⟩ => ?_⟩
  · have nan : ¬a.nan := fun k => Bool.false_ne_true (h.nan.mpr k)
    exact ⟨nan, (h.inf nan).mp rfl, (h.neg nan).symm⟩
  · exact ⟨iff_of_false Bool.false_ne_true nan, fun _ => iff_of_true rfl inf, fun _ => neg.symm, fun _ k => absurd inf k⟩

theorem means_fin {n : Bool} {m : Nat} {e : Int} : (FV.fin n m e).Means a ↔ ¬a.nan ∧ ¬a.inf ∧ a.neg = n ∧ a.val = (FV.fin n m e).val := by
  refine ⟨fun h => ?_, fun ⟨nan, inf, neg, val⟩ => ?_⟩
  · have nan : ¬a.nan := fun k => Bool.false_ne_true (h.nan.mpr k)
    have inf : ¬a.inf := fun k => Bool.false_ne_true ((h.inf nan).mpr k)
    exact ⟨nan, inf, (h.neg nan).symm, (h.val nan inf).symm⟩
  · exact ⟨iff_of_false Bool.false_ne_true nan, fun _ => iff_of_false Bool.false_ne_true inf, fun _ => neg.symm, fun _ _ => val.symm⟩

end

theorem val_eq_zero {n : Bool} {m : Nat} {e : Int} : (FV.fin n m e).val = 0 ↔ m = 0 := by
  have : (2 : ℚ) ^ e ≠ 0 := zpow_ne_zero _ (by norm_num)
  cases n <;> simp [FV.val, this]

theorem val_nonpos {x : FV} (h : x.neg' = true) : x.val ≤ 0 := by
  match x, h with
  | .inf _, _ => exact le_rfl
  | .fin true m e, _ =>
    have : (0 : ℚ) ≤ m * 2 ^ e := by positivity
    simp only [FV.val, if_true]
    linarith

theorem val_nonneg {x : FV} (h : x.neg' = false) : 0 ≤ x.val := by
  match x, h with
  | .nan, _ => exact le_rfl
  | .inf _, _ => exact le_rfl
  | .fin false m e, _ =>
    simp only [FV.val, Bool.false_eq_true, if_false, one_mul]
    positivity

theorem decode_means {f : NumFmt} (proper : f.Proper) {x : Nat} (h : x < 2 ^ f.width) : (f.decode x).Means (factorOf f x) := by
  by_cases nan : IsNaN f x
  · rw [decode_nan proper nan]
    exact ⟨iff_of_true rfl nan, fun k => absurd nan k, fun k => absurd nan k, fun k => absurd nan k⟩
  · by_cases inf : IsInf f x
    · rw [decode_inf proper inf]
      exact ⟨iff_of_false Bool.false_ne_true nan, fun _ => iff_of_true rfl inf, fun _ => rfl, fun _ k => absurd inf k⟩
    · rw [decode_num proper ⟨h, nan, inf⟩]
      exact ⟨iff_of_false Bool.false_ne_true nan, fun _ => iff_of_false Bool.false_ne_true inf, fun _ => rfl, fun _ _ => (value_eq f x).symm⟩

theorem value_eq_zero {f : NumFmt} {x : Nat} : value f x = 0 ↔ expo f x = 0 ∧ mantissa f x = 0 := by
  have pos := Nat.two_pow_pos f.mb
  rw [value_eq]
  refine (val_eq_zero (n := negative f x) (e := placeOf f x)).trans ?_
  rw [significand]
  split <;> simp [*]

/-- With at least one exponent a zero is neither a NaN nor an infinity. -/
theorem isNum_of_isZero {f : NumFmt} (proper : f.Proper) {x : Nat} (h : IsZero f x) : IsNum f x := by
  obtain ⟨lt, e, -⟩ := h
  have two := Nat.one_lt_two_pow (Nat.ne_of_gt proper.eb)
  exact ⟨lt, fun k => by have := k.2.1; omega, fun k => by have := k.2.2.1; omega⟩

theorem isZero_iff {f : NumFmt} {x : Nat} (h : x < 2 ^ f.width) : IsZero f x ↔ value f x = 0 := by
  rw [value_eq_zero, IsZero, and_iff_right h]

theorem factorOf_isZero {f : NumFmt} (proper : f.Proper) {x : Nat} (h : x < 2 ^ f.width) : (factorOf f x).IsZero ↔ IsZero f x := by
  refine ⟨fun ⟨_, _, z⟩ => (isZero_iff h).mpr z, fun z => ?_⟩
  obtain ⟨-, nan, inf⟩ := isNum_of_isZero proper z
  exact ⟨nan, inf, (isZero_iff h).mp z⟩

theorem isZero_sign {f : NumFmt} (n : Bool) : IsZero f (f.sign n 0) := by
  refine ⟨sign_lt (Nat.two_pow_pos _) n, ?_, ?_⟩
  · rw [expo_sign, expo, Nat.zero_div, Nat.zero_mod]
  · rw [mantissa_sign, mantissa, Nat.zero_mod]

/-! ## An inverted sign -/

section
variable (f : NumFmt) (x : Nat)

theorem expo_flipped : expo f (flipped f x) = expo f x := by
  rw [flipped, expo_sign, expo, expo, Nat.add_comm f.eb, Nat.pow_add, Nat.mod_mul_right_div_self, Nat.mod_mod]

theorem mantissa_flipped : mantissa f (flipped f x) = mantissa f x := by
  rw [flipped, mantissa_sign, mantissa, mantissa, Nat.mod_mod_of_dvd _ (Nat.pow_dvd_pow _ (Nat.le_add_left _ _))]

theorem negative_flipped : negative f (flipped f x) = !negative f x := negative_sign (Nat.mod_lt _ (Nat.two_pow_pos _)) _

theorem flipped_lt : flipped f x < 2 ^ f.width := sign_lt (Nat.mod_lt _ (Nat.two_pow_pos _)) _

theorem significand_flipped : significand f (flipped f x) = significand f x := by
  rw [significand, significand, expo_flipped, mantissa_flipped]

theorem placeOf_flipped : placeOf f (flipped f x) = placeOf f x := by rw [placeOf, placeOf, expo_flipped]

theorem value_flipped : value f (flipped f x) = -value f x := by
  rw [value_eq, value_eq, significand_flipped, placeOf_flipped, negative_flipped]
  cases negative f x <;> simp

variable {f x}

theorem isNum_flipped (h : IsNum f x) : IsNum f (flipped f x) := by
  obtain ⟨lt, nan, inf⟩ := h
  refine ⟨flipped_lt f x, fun k => nan ?_, fun k => inf ?_⟩
  · rw [IsNaN, expo_flipped, mantissa_flipped] at k
    exact ⟨lt, k.2⟩
  · rw [IsInf, expo_flipped, mantissa_flipped] at k
    exact ⟨lt, k.2⟩

theorem decode_flipped (proper : f.Proper) : f.decode (flipped f x) = (f.decode x).negate := by
  rw [decode_eq proper, decode_eq proper, significand_flipped, placeOf_flipped, expo_flipped, mantissa_flipped, negative_flipped]
  split
  · split <;> rfl
  · split <;> rfl

end

/-! ## Products (R150) -/

/-- A product as a factor. -/
def productOf (a b : Factor) : Factor :=
  ⟨a.nan ∨ b.nan ∨ a.inf ∧ b.IsZero ∨ a.IsZero ∧ b.inf, a.inf ∨ b.inf, a.neg != b.neg, a.val * b.val⟩

theorem FV.Means.isZero {x : FV} {a : Factor} (h : x.Means a) : x.isZero = true ↔ a.IsZero := by
  match x with
  | .nan => exact iff_of_false Bool.false_ne_true fun z => z.1 (means_nan.mp h)
  | .inf _ => exact iff_of_false Bool.false_ne_true fun z => z.2.1 (means_inf.mp h).2.1
  | .fin n m e =>
    obtain ⟨nan, inf, -, val⟩ := means_fin.mp h
    rw [Factor.IsZero, and_iff_right nan, and_iff_right inf, val, val_eq_zero]
    exact beq_iff_eq

theorem mul_val (a b : Bool) (m n : Nat) (e g : Int) : (FV.fin (a != b) (m * n) (e + g)).val = (FV.fin a m e).val * (FV.fin b n g).val := by
  simp only [FV.val]
  rw [zpow_add₀ (by norm_num)]
  cases a <;> cases b <;> push_cast <;> simp <;> ring

theorem mulFV_means {x y : FV} {a b : Factor} (hx : x.Means a) (hy : y.Means b) : (mulFV x y).Means (productOf a b) := by
  have zx := hx.isZero
  have zy := hy.isZero
  match x, y with
  | .nan, _ => exact means_nan.mpr (.inl (means_nan.mp hx))
  | .inf _, .nan => exact means_nan.mpr (.inr (.inl (means_nan.mp hy)))
  | .fin .., .nan => exact means_nan.mpr (.inr (.inl (means_nan.mp hy)))
  | .inf p, .inf q =>
    obtain ⟨nx, ix, sx⟩ := means_inf.mp hx
    obtain ⟨ny, iy, sy⟩ := means_inf.mp hy
    simp_all [mulFV, means_inf, productOf, FV.isZero]
  | .inf p, .fin q n g =>
    obtain ⟨nx, ix, sx⟩ := means_inf.mp hx
    obtain ⟨ny, iy, sy, -⟩ := means_fin.mp hy
    by_cases z : n = 0 <;> simp_all [mulFV, means_inf, means_nan, productOf, FV.isZero]
  | .fin p m e, .inf q =>
    obtain ⟨nx, ix, sx, -⟩ := means_fin.mp hx
    obtain ⟨ny, iy, sy⟩ := means_inf.mp hy
    by_cases z : m = 0 <;> simp_all [mulFV, means_inf, means_nan, productOf, FV.isZero]
  | .fin p m e, .fin q n g =>
    obtain ⟨nx, ix, sx, vx⟩ := means_fin.mp hx
    obtain ⟨ny, iy, sy, vy⟩ := means_fin.mp hy
    refine means_fin.mpr ⟨?_, fun k => k.elim ix iy, congrArg₂ bne sx sy, (congrArg₂ _ vx vy).trans (mul_val ..).symm⟩
    rintro (k | k | ⟨k, -⟩ | ⟨-, k⟩) <;> contradiction

/-! ## Sums (R144, R150, R152) -/

theorem signed_val (x : FV) : x.val = x.signed.1 * 2 ^ x.signed.2 := by
  match x with
  | .nan => simp [FV.val, FV.signed]
  | .inf _ => simp [FV.val, FV.signed]
  | .fin n m e => cases n <;> simp [FV.val, FV.signed]

theorem alignTo_val {q : Int} {x : Int × Int} (h : q ≤ x.2) : (alignTo q x : ℚ) * 2 ^ q = x.1 * 2 ^ x.2 := by
  obtain ⟨j, hj⟩ := Int.eq_ofNat_of_zero_le (show 0 ≤ x.2 - q by omega)
  rw [alignTo, hj, Int.toNat_natCast, show x.2 = j + q by omega, zpow_add₀ (by norm_num), zpow_natCast]
  push_cast
  ring

theorem foldl_min_le (ts : List FV) (q : Int) :
    ts.foldl (fun q t => min q t.signed.2) q ≤ q ∧ ∀ t ∈ ts, ts.foldl (fun q t => min q t.signed.2) q ≤ t.signed.2 := by
  induction ts generalizing q with
  | nil => exact ⟨le_rfl, by simp⟩
  | cons t ts ih =>
    obtain ⟨low, all⟩ := ih (min q t.signed.2)
    refine ⟨low.trans (min_le_left _ _), fun u hu => ?_⟩
    rcases List.mem_cons.mp hu with rfl | hu
    · exact low.trans (min_le_right _ _)
    · exact all u hu

theorem foldl_align (ts : List FV) (q : Int) (low : ∀ t ∈ ts, q ≤ t.signed.2) (n : Int) :
    ((ts.foldl (fun n t => n + alignTo q t.signed) n : Int) : ℚ) * 2 ^ q = n * 2 ^ q + (ts.map FV.val).sum := by
  induction ts generalizing n with
  | nil => simp
  | cons t ts ih =>
    rw [List.foldl_cons, ih (fun u hu => low u (List.mem_cons_of_mem _ hu)), List.map_cons, List.sum_cons, signed_val t,
      ← alignTo_val (low t List.mem_cons_self)]
    push_cast
    ring

/-- Terms that are all negative: where their sum is zero they are zeros. -/
theorem sum_of_neg {ts : List FV} (neg : ∀ t ∈ ts, t.neg' = true) : (ts.map FV.val).sum ≤ 0 ∧ ((ts.map FV.val).sum = 0 → ∀ t ∈ ts, t.val = 0) := by
  induction ts with
  | nil => simp
  | cons t ts ih =>
    obtain ⟨rest, zeros⟩ := ih fun u hu => neg u (List.mem_cons_of_mem _ hu)
    have first := val_nonpos (neg t List.mem_cons_self)
    rw [List.map_cons, List.sum_cons]
    refine ⟨by linarith, fun sum u hu => ?_⟩
    rcases List.mem_cons.mp hu with rfl | hu
    · linarith
    · exact zeros (by linarith) u hu

section
variable {ts : List FV} {es : List Factor} (means : List.Forall₂ FV.Means ts es)
include means

theorem any_nan : ts.any FV.isNan = true ↔ ∃ e ∈ es, e.nan := by
  induction means with
  | nil => simp
  | cons h _ ih => simp [ih, h.nan]

theorem any_inf (n : Bool) (num : ¬∃ e ∈ es, e.nan) : (∃ t ∈ ts.filter FV.isInf, t.neg' = n) ↔ ∃ e ∈ es, e.inf ∧ e.neg = n := by
  induction means with
  | nil => simp
  | @cons t e ts es h _ ih =>
    have here : ¬e.nan := fun k => num ⟨e, List.mem_cons_self, k⟩
    have ih := ih fun ⟨e, he, k⟩ => num ⟨e, List.mem_cons_of_mem _ he, k⟩
    simp only [List.mem_filter, List.mem_cons, and_assoc, or_and_right, exists_or, exists_eq_left] at ih ⊢
    rw [ih, h.inf here, h.neg here]

theorem map_val (num : ¬∃ e ∈ es, e.nan) (fin : ¬∃ e ∈ es, e.inf) : ts.map FV.val = es.map Factor.val := by
  induction means with
  | nil => rfl
  | @cons t e ts es h _ ih =>
    rw [List.map_cons, List.map_cons, h.val (fun k => num ⟨e, List.mem_cons_self, k⟩) (fun k => fin ⟨e, List.mem_cons_self, k⟩),
      ih (fun ⟨e, he, k⟩ => num ⟨e, List.mem_cons_of_mem _ he, k⟩) (fun ⟨e, he, k⟩ => fin ⟨e, List.mem_cons_of_mem _ he, k⟩)]

theorem map_neg (num : ¬∃ e ∈ es, e.nan) : ts.map FV.neg' = es.map Factor.neg := by
  induction means with
  | nil => rfl
  | @cons t e ts es h _ ih =>
    rw [List.map_cons, List.map_cons, h.neg (fun k => num ⟨e, List.mem_cons_self, k⟩), ih (fun ⟨e, he, k⟩ => num ⟨e, List.mem_cons_of_mem _ he, k⟩)]

/-- A sum with a NaN, or with infinities of both signs. -/
theorem sumFV_nan (mode : RMode) (h : (∃ e ∈ es, e.nan) ∨ (∃ e ∈ es, e.inf ∧ e.neg = true) ∧ ∃ e ∈ es, e.inf ∧ e.neg = false) :
    sumFV mode ts = .nan := by
  rw [sumFV]
  by_cases nan : ∃ e ∈ es, e.nan
  · rw [if_pos ((any_nan means).mpr nan)]
  · obtain ⟨pos, neg⟩ := h.resolve_left nan
    obtain ⟨t, ht, k⟩ := (any_inf means true nan).mpr pos
    obtain ⟨u, hu, l⟩ := (any_inf means false nan).mpr neg
    rw [if_neg (mt (any_nan means).mp nan)]
    refine if_pos (Bool.and_eq_true_iff.mpr ⟨List.any_eq_true.mpr ⟨t, ht, k⟩, List.any_eq_true.mpr ⟨u, hu, by rw [l]; rfl⟩⟩)

/-- A sum with infinities of one sign. -/
theorem sumFV_inf (mode : RMode) (n : Bool) (num : ¬∃ e ∈ es, e.nan) (some' : ∃ e ∈ es, e.inf ∧ e.neg = n) (only : ¬∃ e ∈ es, e.inf ∧ e.neg = !n) :
    sumFV mode ts = .inf n := by
  have one := (any_inf means n num).mpr some'
  have none := mt (any_inf means (!n) num).mp only
  have same : ∀ t ∈ ts.filter FV.isInf, t.neg' = n := fun t ht => by
    by_contra k
    exact none ⟨t, ht, by cases n <;> simpa using k⟩
  rw [sumFV, if_neg (mt (any_nan means).mp num)]
  have clash : ((ts.filter FV.isInf).any FV.neg' && (ts.filter FV.isInf).any fun t => !t.neg') = false := by
    cases n
    · rw [List.any_eq_false.mpr (fun t ht => by rw [same t ht]; exact Bool.false_ne_true), Bool.false_and]
    · rw [List.any_eq_false (p := fun t : FV => !t.neg') |>.mpr (fun t ht => by rw [same t ht]; exact Bool.false_ne_true), Bool.and_false]
  simp only [clash, Bool.false_eq_true, if_false]
  cases l : ts.filter FV.isInf with
  | nil => rw [l] at one; obtain ⟨t, ht, -⟩ := one; cases ht
  | cons t rest =>
    have mem : t ∈ ts.filter FV.isInf := by rw [l]; exact List.mem_cons_self
    have sign := same t mem
    have inf := (List.mem_filter.mp mem).2
    match t, inf, sign with
    | .inf m, _, sign => exact congrArg FV.inf sign

/-- A sum of numbers: its exact value, and where that is zero the sign of R144. -/
theorem sumFV_num (mode : RMode) (num : ¬∃ e ∈ es, e.nan) (fin : ¬∃ e ∈ es, e.inf) :
    ∃ n m e, sumFV mode ts = .fin n m e ∧ (FV.fin n m e).val = (es.map Factor.val).sum ∧
      ((es.map Factor.val).sum = 0 → n = zeroSign mode (es.all Factor.neg) (es.any Factor.neg && es.any fun e => !e.neg)) := by
  have noInf : ts.filter FV.isInf = [] := by
    refine List.filter_eq_nil_iff.mpr fun t ht inf => ?_
    obtain ⟨e, he, k, -⟩ := (any_inf means t.neg' num).mp ⟨t, List.mem_filter.mpr ⟨ht, inf⟩, rfl⟩
    exact fin ⟨e, he, k⟩
  have vals := map_val means num fin
  have signs := map_neg means num
  rw [← vals]
  rw [sumFV, if_neg (mt (any_nan means).mp num)]
  simp only [noInf, List.any_nil, Bool.and_false, Bool.false_eq_true, if_false]
  set q := ts.foldl (fun q t => min q t.signed.2) (ts.headD (.fin false 0 0)).signed.2
  have low := (foldl_min_le ts (ts.headD (.fin false 0 0)).signed.2).2
  have sum := foldl_align ts q low 0
  set n := ts.foldl (fun n t => n + alignTo q t.signed) 0
  rw [Int.cast_zero, zero_mul, zero_add] at sum
  have unit : (2 : ℚ) ^ q ≠ 0 := zpow_ne_zero _ (by norm_num)
  by_cases zero : n = 0
  · rw [zero, Int.cast_zero, zero_mul] at sum
    rw [if_pos (beq_iff_eq.mpr zero)]
    refine ⟨_, _, _, rfl, ?_, fun _ => ?_⟩
    · rw [← sum]
      exact val_eq_zero.mpr rfl
    · have any (p : Bool → Bool) : (ts.any fun t => p t.neg') = es.any fun e => p e.neg := by
        have := congrArg (List.any · p) signs
        simpa only [List.any_map, Function.comp_def] using this
      have all : (ts.all fun t => t.isZero && t.neg') = es.all Factor.neg := by
        have same : ts.all FV.neg' = es.all Factor.neg := by
          have := congrArg (List.all · id) signs
          simpa only [List.all_map, Function.comp_def, id] using this
        rw [← same, Bool.eq_iff_iff, List.all_eq_true, List.all_eq_true]
        refine ⟨fun h t ht => (Bool.and_eq_true_iff.mp (h t ht)).2, fun h t ht => Bool.and_eq_true_iff.mpr ⟨?_, h t ht⟩⟩
        have zero := (sum_of_neg h).2 sum.symm t ht
        have notNan : t.isNan = false := by
          by_contra k
          exact num ((any_nan means).mp (List.any_eq_true.mpr ⟨t, ht, by simpa using k⟩))
        have notInf : t.isInf = false := by
          by_contra k
          have : t ∈ ts.filter FV.isInf := List.mem_filter.mpr ⟨ht, by simpa using k⟩
          rw [noInf] at this
          cases this
        match t, notNan, notInf, zero with
        | .fin .., _, _, zero => exact beq_iff_eq.mpr (val_eq_zero.mp zero)
      exact congrArg₂ (zeroSign mode) all (congrArg₂ and (any id) (any (!·)))
  · rw [if_neg (by simpa using zero)]
    have nonzero : (ts.map FV.val).sum ≠ 0 := by
      rw [← sum]
      exact mul_ne_zero (Int.cast_ne_zero.mpr zero) unit
    refine ⟨_, _, _, rfl, ?_, fun k => absurd k nonzero⟩
    rw [← sum]
    rcases lt_or_gt_of_ne zero with neg | pos
    · have : ((n.natAbs : Nat) : ℚ) = -(n : ℚ) := by rw [Nat.cast_natAbs, abs_of_neg neg]; push_cast; rfl
      simp [FV.val, neg, this]
    · have : ((n.natAbs : Nat) : ℚ) = (n : ℚ) := by rw [Nat.cast_natAbs, abs_of_pos pos]
      simp [FV.val, this, not_lt.mpr pos.le]

end

end Sys2Proof.Machine

namespace Sys2Proof.Machine
open Sys2Proof Sys2Proof.Claim

/-! # Arithmetic: the exact result, rounded once (R144, R145, R150) -/

/-! ## Rounding an exact value -/

section
variable {f : NumFmt} (mode : RMode) (draw : Nat) (sat : Bool)

/-- A number that is not zero is rounded, one that is zero keeps its sign. -/
theorem round_fin (proper : f.Proper) (n : Bool) (m : Nat) (e : Int) (nonzero : (FV.fin n m e).val ≠ 0) :
    RoundsTo f f.mb mode draw sat ((FV.fin n m e).val : ℚ) (f.round mode draw sat (.fin n m e)) := by
  have pos : m ≠ 0 := fun z => nonzero (val_eq_zero.mpr z)
  have rounds := roundQ_quotient proper proper.mb le_rfl mode draw sat n (Nat.pos_of_ne_zero pos) Nat.one_pos e
  have val : (((FV.fin n m e).val : ℚ) : ℝ) = if n = true then -((m : ℝ) / (1 : Nat) * 2 ^ e) else (m : ℝ) / (1 : Nat) * 2 ^ e := by
    cases n <;> simp [FV.val]
  have round : f.round mode draw sat (.fin n m e) = f.roundQ f.mb mode draw sat n m 1 e := if_neg (by simpa using pos)
  rw [val, round]
  exact rounds

theorem round_zero (n : Bool) {m : Nat} (e : Int) (zero : (FV.fin n m e).val = 0) : f.round mode draw sat (.fin n m e) = f.sign n 0 := by
  rw [NumFmt.round, if_pos (by simpa using val_eq_zero.mp zero)]

theorem infinity_eq (n : Bool) : f.infinity sat n = infinityIn f sat n := by
  rw [NumFmt.infinity, infinityIn]
  cases f.inf <;> cases f.nan <;> cases sat <;> rfl

/-- An exact value in a format: what it is decides the encoding (R144 to R146). -/
theorem round_means (proper : f.Proper) (nans : f.nan = true) {x : FV} {a : Factor} (h : x.Means a) :
    (a.nan → f.round mode draw sat x = f.dnan) ∧ (¬a.nan → a.inf → f.round mode draw sat x = infinityIn f sat a.neg) ∧
    (¬a.nan → ¬a.inf → (a.val ≠ 0 → RoundsTo f f.mb mode draw sat a.val (f.round mode draw sat x)) ∧
      (a.val = 0 → f.round mode draw sat x = f.sign a.neg 0)) := by
  match x with
  | .nan =>
    have nan := means_nan.mp h
    exact ⟨fun _ => if_pos nans, fun k => absurd nan k, fun k => absurd nan k⟩
  | .inf n =>
    obtain ⟨nan, inf, rfl⟩ := means_inf.mp h
    exact ⟨fun k => absurd k nan, fun _ _ => infinity_eq sat a.neg, fun _ k => absurd inf k⟩
  | .fin n m e =>
    obtain ⟨nan, inf, rfl, val⟩ := means_fin.mp h
    rw [val]
    exact ⟨fun k => absurd k nan, fun _ k => absurd k inf, fun _ _ => ⟨round_fin mode draw sat proper _ m e, round_zero mode draw sat _ e⟩⟩

end

/-! ## The formats of arithmetic -/

/-- What the formats of arithmetic have in common (R135). -/
structure NumFmt.Arith (f : NumFmt) : Prop extends f.Proper where
  inf : f.inf = true
  nan : f.nan = true
  short : f.mb ≤ 52

theorem arith_of_mem {f : NumFmt} (h : f ∈ arithFmts) : f.Arith := by
  simp only [arithFmts, List.mem_cons, List.not_mem_nil, or_false] at h
  rcases h with rfl | rfl | rfl | rfl <;> exact ⟨⟨by decide, by decide⟩, rfl, rfl, by decide⟩

theorem arith_f32 : fF32.Arith := arith_of_mem (by decide)
theorem arith_f64 : fF64.Arith := arith_of_mem (by decide)

/-- An encoding is of one kind. -/
theorem kinds {f : NumFmt} (proper : f.Proper) {x : Nat} (h : x < 2 ^ f.width) :
    IsNaN f x ∧ ¬IsInf f x ∧ ¬IsNum f x ∧ ¬IsZero f x ∨ ¬IsNaN f x ∧ IsInf f x ∧ ¬IsNum f x ∧ ¬IsZero f x ∨ ¬IsNaN f x ∧ ¬IsInf f x ∧ IsNum f x := by
  have zero : IsZero f x → IsNum f x := isNum_of_isZero proper
  by_cases nan : IsNaN f x
  · have inf : ¬IsInf f x := by
      intro inf
      obtain ⟨-, -, k⟩ := nan
      rw [if_pos inf.2.1] at k
      exact k inf.2.2.2
    have num : ¬IsNum f x := fun num => num.2.1 nan
    exact .inl ⟨nan, inf, num, mt zero num⟩
  · by_cases inf : IsInf f x
    · have num : ¬IsNum f x := fun num => num.2.2 inf
      exact .inr (.inl ⟨nan, inf, num, mt zero num⟩)
    · exact .inr (.inr ⟨nan, inf, h, nan, inf⟩)

section
variable {f : NumFmt} (arith : f.Arith)
include arith

theorem infinityIn_arith (n : Bool) : infinityIn f false n = f.sign n f.infEnc := if_pos ⟨rfl, arith.inf⟩

/-! ## Sums -/

/-- A rounded sum of terms: special terms, the exact sum, and the sign of a zero. -/
theorem round_sumFV (mode : RMode) (draw : Nat) {ts : List FV} {es : List Factor} (means : List.Forall₂ FV.Means ts es) :
    let nan := ∃ e ∈ es, e.nan
    let infs (n : Bool) := ∃ e ∈ es, e.inf ∧ e.neg = n
    let q := (es.map Factor.val).sum
    let r := f.round mode draw false (sumFV mode ts)
    (nan ∨ infs true ∧ infs false → r = f.dnan) ∧ (∀ n, ¬nan → infs n → ¬infs (!n) → r = f.sign n f.infEnc) ∧
    (¬nan → (∀ n, ¬infs n) → (q ≠ 0 → RoundsTo f f.mb mode draw false q r) ∧
      (q = 0 → r = f.sign (zeroSign mode (es.all Factor.neg) (es.any Factor.neg && es.any fun e => !e.neg)) 0)) := by
  intro nan infs q r
  refine ⟨fun h => ?_, fun n num some' only => ?_, fun num fin => ?_⟩
  · exact (congrArg (f.round mode draw false) (sumFV_nan means mode h)).trans (if_pos arith.nan)
  · exact (congrArg (f.round mode draw false) (sumFV_inf means mode n num some' only)).trans ((infinity_eq false n).trans (infinityIn_arith arith n))
  · obtain ⟨n, m, e, sum, val, sign⟩ := sumFV_num means mode num fun ⟨x, hx, k⟩ => fin x.neg ⟨x, hx, k, rfl⟩
    simp only [q, r, sum, ← val] at sign ⊢
    refine ⟨round_fin mode draw false arith.toProper n m e, fun zero => ?_⟩
    rw [round_zero mode draw false n e zero, sign zero]

/-- The same for two terms. -/
theorem round_sumFV_two (mode : RMode) (draw : Nat) {x y : FV} {a b : Factor} (hx : x.Means a) (hy : y.Means b) :
    let r := f.round mode draw false (sumFV mode [x, y])
    SumOf f mode (a.nan ∨ b.nan) (fun n => a.inf ∧ a.neg = n ∨ b.inf ∧ b.neg = n) a.neg b.neg (a.val + b.val) r ∧
    (¬a.nan → ¬b.nan → ¬a.inf → ¬b.inf → a.val + b.val ≠ 0 → RoundsTo f f.mb mode draw false (a.val + b.val : ℚ) r) := by
  have sum := round_sumFV arith mode draw (.cons hx (.cons hy .nil))
  have sign : zeroSign mode (a.neg && b.neg) ((a.neg || b.neg) && (!a.neg || !b.neg)) = if a.neg = b.neg then a.neg else mode == .rd := by
    cases a.neg <;> cases b.neg <;> cases mode <;> rfl
  simp only [List.mem_cons, List.not_mem_nil, or_false, exists_eq_or_imp, exists_eq_left, List.map_cons, List.map_nil, List.sum_cons, List.sum_nil,
    add_zero, List.all_cons, List.all_nil, Bool.and_true, List.any_cons, List.any_nil, Bool.or_false, sign] at sum
  obtain ⟨nan, inf, num⟩ := sum
  refine ⟨⟨nan, inf, fun n i => (num n i).2⟩, fun na nb ia ib => (num (not_or.mpr ⟨na, nb⟩) fun n k => ?_).1⟩
  rcases k with ⟨k, -⟩ | ⟨k, -⟩
  · exact ia k
  · exact ib k

/-- **Sums** of two encodings (R150). -/
theorem faddE_spec (mode : RMode) {x y : Nat} (hx : x < 2 ^ f.width) (hy : y < 2 ^ f.width) :
    AddsSpecial f mode x y (faddE f mode x y) ∧
    (IsNum f x → IsNum f y → Rounded f mode (value f x + value f y) (faddE f mode x y)) := by
  obtain ⟨special, rounds⟩ := round_sumFV_two arith mode 0 (decode_means arith.toProper hx) (decode_means arith.toProper hy)
  refine ⟨special, fun ⟨_, nx, ix⟩ ⟨_, ny, iy⟩ => ⟨rounds nx ny ix iy, fun zero => ?_⟩⟩
  have := special.2.2 (not_or.mpr ⟨nx, ny⟩) (fun n k => k.elim (fun k => ix k.1) fun k => iy k.1) zero
  rw [show faddE f mode x y = _ from this]
  exact isZero_sign _

/-- **Fused products** (R150). -/
theorem ffmaM_spec (mode : RMode) {x y z : Nat} (hx : x < 2 ^ f.width) (hy : y < 2 ^ f.width) (hz : z < 2 ^ f.width) :
    FusesSpecial f mode x y z (ffmaM mode f x y z) ∧
    (IsNum f x → IsNum f y → IsNum f z → Rounded f mode (value f x * value f y + value f z) (ffmaM mode f x y z)) := by
  have product := mulFV_means (decode_means arith.toProper hx) (decode_means arith.toProper hy)
  obtain ⟨special, rounds⟩ := round_sumFV_two arith mode 0 product (decode_means arith.toProper hz)
  have zx := factorOf_isZero arith.toProper hx
  have zy := factorOf_isZero arith.toProper hy
  have nan : (productOf (factorOf f x) (factorOf f y)).nan ∨ (factorOf f z).nan ↔
      IsNaN f x ∨ IsNaN f y ∨ IsNaN f z ∨ IsZero f x ∧ IsInf f y ∨ IsInf f x ∧ IsZero f y := by
    have order (a b c d e : Prop) : (a ∨ b ∨ e ∨ d) ∨ c ↔ a ∨ b ∨ c ∨ d ∨ e := by tauto
    simp only [productOf, zx, zy]
    exact order ..
  rw [nan] at special
  refine ⟨special, fun ⟨_, nx, ix⟩ ⟨_, ny, iy⟩ ⟨_, nz, iz⟩ => ?_⟩
  have noNan : ¬((productOf (factorOf f x) (factorOf f y)).nan ∨ (factorOf f z).nan) := by
    rw [nan]
    simp [nx, ny, nz, ix, iy]
  have noInf : ¬(productOf (factorOf f x) (factorOf f y)).inf := fun k => k.elim ix iy
  refine ⟨rounds (fun k => noNan (.inl k)) nz noInf iz, fun zero => ?_⟩
  have := special.2.2 (nan.not.mp noNan) (fun n k => k.elim (fun k => noInf k.1) fun k => iz k.1) zero
  rw [show ffmaM mode f x y z = _ from this]
  exact isZero_sign _

theorem fsubM_eq (mode : RMode) (x y : Nat) : fsubM mode f x y = faddE f mode x (flipped f y) := by
  rw [fsubM, faddE, decode_flipped arith.toProper]

theorem ffmsM_eq (mode : RMode) (x y z : Nat) : ffmsM mode f x y z = ffmaM mode f x y (flipped f z) := by
  rw [ffmsM, ffmaM, decode_flipped arith.toProper]

omit arith in
theorem mulFV_negate (x y : FV) : (mulFV x y).negate = mulFV x.negate y := by
  have flip (a b : Bool) : (!(a != b)) = ((!a) != b) := by cases a <;> cases b <;> rfl
  match x, y with
  | .nan, _ => rfl
  | .inf _, .nan => rfl
  | .fin .., .nan => rfl
  | .inf a, .inf b => exact congrArg FV.inf (flip a b)
  | .inf a, .fin b n g => by_cases z : n = 0 <;> simp only [mulFV, FV.negate, z, flip, BEq.rfl, if_true, beq_iff_eq, if_false]
  | .fin a m e, .inf b => by_cases z : m = 0 <;> simp only [mulFV, FV.negate, z, flip, BEq.rfl, if_true, beq_iff_eq, if_false]
  | .fin a m e, .fin b n g => exact congrArg (FV.fin · (m * n) (e + g)) (flip a b)

theorem fnmaM_eq (mode : RMode) (x y z : Nat) : fnmaM mode f x y z = ffmaM mode f (flipped f x) y z := by
  rw [fnmaM, ffmaM, decode_flipped arith.toProper, mulFV_negate]

/-! ## Products -/

/-- **Products** of two encodings (R150). -/
theorem fmulM_spec (mode : RMode) {x y : Nat} (hx : x < 2 ^ f.width) (hy : y < 2 ^ f.width) :
    MultipliesSpecial f x y (fmulM mode f x y) ∧ (IsNum f x → IsNum f y → Rounded f mode (value f x * value f y) (fmulM mode f x y)) := by
  obtain ⟨nan, inf, num⟩ := round_means mode 0 false arith.toProper arith.nan
    (mulFV_means (decode_means arith.toProper hx) (decode_means arith.toProper hy))
  rw [infinityIn_arith arith] at inf
  simp only [productOf, factorOf_isZero arith.toProper hx, factorOf_isZero arith.toProper hy] at nan inf num
  change _ → fmulM mode f x y = _ at nan
  change _ → _ → fmulM mode f x y = _ at inf
  change _ → _ → (_ → RoundsTo _ _ _ _ _ _ (fmulM mode f x y)) ∧ (_ → fmulM mode f x y = _) at num
  simp only [factorOf] at nan inf num
  have zeroX : IsZero f x → value f x = 0 := (isZero_iff hx).mp
  have zeroY : IsZero f y → value f y = 0 := (isZero_iff hy).mp
  rw [MultipliesSpecial]
  rcases kinds arith.toProper hx with ⟨a1, a2, a3, a4⟩ | ⟨a1, a2, a3, a4⟩ | ⟨a1, a2, a3⟩
  · simpa [a1, a2, a3, a4] using nan
  · rcases kinds arith.toProper hy with ⟨b1, b2, b3, b4⟩ | ⟨b1, b2, b3, b4⟩ | ⟨b1, b2, b3⟩
    · simpa [a1, a2, a3, a4, b1, b2, b3, b4] using nan
    · simpa [a1, a2, a3, a4, b1, b2, b3, b4] using inf
    · simp only [a1, a2, a3, a4, b1, b2, b3, false_or, or_false, true_and, and_true, false_and, and_false, true_implies, false_implies,
        not_false_eq_true] at nan inf ⊢
      exact ⟨nan, inf⟩
  · rcases kinds arith.toProper hy with ⟨b1, b2, b3, b4⟩ | ⟨b1, b2, b3, b4⟩ | ⟨b1, b2, b3⟩
    · simpa [a1, a2, a3, b1, b2, b3, b4] using nan
    · simp only [a1, a2, a3, b1, b2, b3, b4, false_or, or_false, true_and, and_true, and_false, true_implies, false_implies,
        not_false_eq_true, implies_true] at nan inf ⊢
      exact ⟨nan, inf⟩
    · simp only [a1, a2, a3, b1, b2, b3, or_false, true_and, and_true, false_and, and_false, true_implies, false_implies,
        not_false_eq_true] at num ⊢
      obtain ⟨rounds, zero⟩ := num
      refine ⟨fun z => zero ?_, rounds, fun z => by rw [zero z]; exact isZero_sign _⟩
      rcases z with z | z
      · rw [zeroX z, zero_mul]
      · rw [zeroY z, mul_zero]

/-! ## Quotients -/

/-- **Quotients** of two encodings (R150). -/
theorem fdivM_spec (mode : RMode) {x y : Nat} (hx : x < 2 ^ f.width) (hy : y < 2 ^ f.width) :
    DividesSpecial f x y (fdivM mode f x y) ∧
    (IsNum f x → IsNum f y → value f y ≠ 0 → Rounded f mode (value f x / value f y) (fdivM mode f x y)) := by
  have inf (n : Bool) : f.infinity false n = f.sign n f.infEnc := (infinity_eq false n).trans (infinityIn_arith arith n)
  rw [fdivM, DividesSpecial]
  rcases kinds arith.toProper hx with ⟨a1, a2, a3, a4⟩ | ⟨a1, a2, a3, a4⟩ | ⟨a1, a2, a3⟩
  · rw [decode_nan arith.toProper a1]
    simp [a1, a2, a3, a4, divF]
  · rw [decode_inf arith.toProper a2]
    rcases kinds arith.toProper hy with ⟨b1, b2, b3, b4⟩ | ⟨b1, b2, b3, b4⟩ | ⟨b1, b2, b3⟩
    · rw [decode_nan arith.toProper b1]
      simp [a1, a2, a3, a4, b1, b2, b3, b4, divF]
    · rw [decode_inf arith.toProper b2]
      simp [a1, a2, a3, a4, b1, b2, b3, b4, divF]
    · rw [decode_num arith.toProper b3]
      simp [a1, a2, a3, a4, b1, b2, b3, divF, inf]
  · rw [decode_num arith.toProper a3]
    rcases kinds arith.toProper hy with ⟨b1, b2, b3, b4⟩ | ⟨b1, b2, b3, b4⟩ | ⟨b1, b2, b3⟩
    · rw [decode_nan arith.toProper b1]
      simp [a1, a2, a3, b1, b2, b3, b4, divF]
    · rw [decode_inf arith.toProper b2]
      simp [a1, a2, a3, b1, b2, b3, b4, divF]
    · rw [decode_num arith.toProper b3, divF]
      have valX : value f x = 0 ↔ significand f x = 0 := by rw [value_eq]; exact val_eq_zero (n := negative f x)
      have valY : value f y = 0 ↔ significand f y = 0 := by rw [value_eq]; exact val_eq_zero (n := negative f y)
      have zx := (isZero_iff hx).trans valX
      have zy := (isZero_iff hy).trans valY
      by_cases ny : significand f y = 0
      · by_cases nx : significand f x = 0
        · simp [a1, a2, a3, b1, b2, b3, zx, zy, nx, ny, valY]
        · simp [a1, a2, a3, b1, b2, b3, zx, zy, nx, ny, valY, inf]
      · by_cases nx : significand f x = 0
        · have zero := valX.mpr nx
          simp [a1, a2, a3, b1, b2, b3, zx, zy, nx, ny, Rounded, zero, isZero_sign]
        · have rounds := roundQ_quotient arith.toProper arith.mb le_rfl mode 0 false (negative f x != negative f y) (Nat.pos_of_ne_zero nx)
            (Nat.pos_of_ne_zero ny) (placeOf f x - placeOf f y)
          have quotient : ((value f x / value f y : ℚ) : ℝ) = if (negative f x != negative f y) = true then
              -((significand f x : ℝ) / significand f y * 2 ^ (placeOf f x - placeOf f y))
              else (significand f x : ℝ) / significand f y * 2 ^ (placeOf f x - placeOf f y) := by
            rw [value_eq, value_eq, zpow_sub₀ (by norm_num)]
            cases negative f x <;> cases negative f y <;> push_cast <;> simp <;> field_simp
          rw [← quotient] at rounds
          refine ⟨by simp [a1, a2, a3, b1, b2, b3, zx, zy, nx, ny], fun _ _ vy => ⟨fun _ => ?_, fun k => ?_⟩⟩
          · simpa only [beq_iff_eq, ny, nx, if_false] using rounds
          · exact absurd ((div_eq_zero_iff.mp k).resolve_right vy) (mt valX.mp nx)

end

/-! ## Square roots -/

/-- A value as a square, with the exponent halved. -/
theorem half_exponent (m : Nat) (e : Int) :
    (m : ℝ) * 2 ^ e = ((if (e % 2 == 0) = true then m else 2 * m : Nat) : ℝ) * (2 ^ (e / 2)) ^ 2 := by
  have split := Int.emod_add_mul_ediv e 2
  have bit : e % 2 = 0 ∨ e % 2 = 1 := by omega
  rw [← zpow_natCast, ← zpow_mul]
  rcases bit with z | o
  · rw [if_pos (by rw [z]; rfl)]
    congr 2
    push_cast
    omega
  · rw [if_neg (by rw [o]; decide), show e = 1 + e / 2 * (2 : Nat) by push_cast; omega, zpow_add₀ (by norm_num), zpow_one]
    rw [show (1 + e / 2 * (2 : Nat)) / 2 = e / 2 by push_cast; omega]
    push_cast
    ring

/-- The root of a scaled number lies at the integer root, or between it and the next one. -/
theorem isqrt_between (y : Nat) :
    isqrt y * isqrt y = y ∧ Real.sqrt y = isqrt y ∨ isqrt y * isqrt y ≠ y ∧ (isqrt y : ℝ) < Real.sqrt y ∧ Real.sqrt y < isqrt y + 1 := by
  obtain ⟨low, high⟩ := isqrt_spec y
  by_cases exact' : isqrt y * isqrt y = y
  · refine .inl ⟨exact', ?_⟩
    rw [Real.sqrt_eq_iff_mul_self_eq (by positivity) (by positivity)]
    exact_mod_cast exact'.symm
  · refine .inr ⟨exact', (Real.lt_sqrt (by positivity)).mpr ?_, (Real.sqrt_lt' (by positivity)).mpr ?_⟩
    · rw [sq]
      exact_mod_cast lt_of_le_of_ne low exact'
    · rw [sq]
      exact_mod_cast high

section
variable {f : NumFmt} (arith : f.Arith)
include arith

/-- The root of an integer rounds from its integer root, with a sticky bit for what is dropped. -/
theorem roundQ_isqrt {mode : RMode} (plain : mode ≠ .sr) {y : Nat} (deep : 2 ^ (f.mb + 2) ≤ isqrt y) (h : Int) :
    RoundsTo f f.mb mode 0 false (Real.sqrt y * (2 * 2 ^ h))
      (f.roundQ f.mb mode 0 false false (2 * isqrt y + if (isqrt y * isqrt y == y) = true then 0 else 1) 1 h) := by
  have unit : (0 : ℝ) < 2 ^ h := zpow_pos (by norm_num) _
  rcases isqrt_between y with ⟨exact', val⟩ | ⟨inexact, low, high⟩
  · have rounds := roundQ_quotient arith.toProper arith.mb le_rfl mode 0 false false (num := 2 * isqrt y) (den := 1)
      (by have := Nat.two_pow_pos (f.mb + 2); omega) Nat.one_pos h
    have value' : (isqrt y : ℝ) * (2 * 2 ^ h) = ((2 * isqrt y : Nat) : ℝ) / (1 : Nat) * 2 ^ h := by
      rw [Nat.cast_one, div_one, Nat.cast_mul, Nat.cast_ofNat]
      ring
    rw [if_pos (by simpa using exact'), Nat.add_zero, val, value']
    exact rounds
  · rw [if_neg (by simpa using inexact)]
    exact roundQ_sticky arith.toProper arith.mb le_rfl plain 0 false false deep (by nlinarith) (by nlinarith)

/-- **Square roots** of numbers above zero (R150). -/
theorem sqrtF_rounds {mode : RMode} (plain : mode ≠ .sr) {x : Nat} (num : IsNum f x) (pos : 0 < value f x) :
    RoundsTo f f.mb mode 0 false (Real.sqrt (value f x)) (sqrtF f mode (f.decode x)) := by
  have sign : negative f x = false := by
    by_contra k
    have := val_nonpos (x := .fin (negative f x) (significand f x) (placeOf f x)) ((Bool.not_eq_false _).mp k)
    rw [value_eq] at pos
    exact absurd pos (not_lt.mpr this)
  have nonzero : significand f x ≠ 0 := fun z => pos.ne' (by rw [value_eq, z]; simp)
  have nonzero' : (significand f x == 0) = false := beq_eq_false_iff_ne.mpr nonzero
  rw [decode_num arith.toProper num, sign]
  simp only [sqrtF, nonzero', Bool.false_eq_true, if_false]
  set e := placeOf f x
  set m := if (e % 2 == 0) = true then significand f x else 2 * significand f x with hm
  have large : 1 ≤ m := by rw [hm]; split <;> omega
  have root : Real.sqrt (value f x : ℚ) = Real.sqrt ((m * 2 ^ 280 : Nat) : ℝ) * 2 ^ (e / 2 - 140) := by
    have unit : (0 : ℝ) ≤ 2 ^ (e / 2 - 140) := zpow_nonneg (by norm_num) _
    rw [← Real.sqrt_sq unit, ← Real.sqrt_mul (by positivity)]
    congr 1
    have val : ((value f x : ℚ) : ℝ) = significand f x * 2 ^ e := by
      rw [value_eq, sign, if_neg Bool.false_ne_true, one_mul]
      push_cast
      rfl
    have scale : ((m * 2 ^ 280 : Nat) : ℝ) = m * (2 ^ 140) ^ 2 := by
      rw [Nat.cast_mul, Nat.cast_pow, Nat.cast_ofNat, ← pow_mul]
    have back : (2 : ℝ) ^ (140 : Int) = 2 ^ 140 := zpow_natCast 2 140
    rw [val, half_exponent, ← hm, scale, mul_assoc, ← mul_pow, zpow_sub₀ (by norm_num), back, mul_div_cancel₀ _ (by positivity)]
  have deep : 2 ^ (f.mb + 2) ≤ isqrt (m * 2 ^ 280) := by
    have high := (isqrt_spec (m * 2 ^ 280)).2
    have square : 2 ^ 280 = 2 ^ 140 * 2 ^ 140 := by rw [← Nat.pow_add]
    have big : 2 ^ 140 * 2 ^ 140 ≤ m * 2 ^ 280 := by
      rw [square]
      exact Nat.le_mul_of_pos_left _ large
    have : 2 ^ 140 < isqrt (m * 2 ^ 280) + 1 := by
      by_contra k
      exact absurd (big.trans_lt high) (not_lt.mpr (Nat.mul_le_mul (not_lt.mp k) (not_lt.mp k)))
    have : 2 ^ (f.mb + 2) ≤ 2 ^ 140 := Nat.pow_le_pow_right (by norm_num) (by have := arith.short; omega)
    omega
  have double : (2 : ℝ) ^ (e / 2 - 140) = 2 * 2 ^ (e / 2 - 141) := by
    rw [show e / 2 - 140 = 1 + (e / 2 - 141) by omega, zpow_add₀ (by norm_num), zpow_one]
  rw [root, double]
  exact roundQ_isqrt arith plain deep (e / 2 - 141)

/-- Square roots of special operands (R150). -/
theorem sqrtF_special (mode : RMode) {x : Nat} (hx : x < 2 ^ f.width) : RootSpecial f x (sqrtF f mode (f.decode x)) := by
  have whole := mod_width hx
  have last (h : IsInf f x) : x % 2 ^ (f.eb + f.mb) = f.infEnc := by
    obtain ⟨-, -, e, m⟩ := h
    have lt : x % 2 ^ (f.eb + f.mb) < 2 ^ (f.eb + f.mb) := Nat.mod_lt _ (Nat.two_pow_pos _)
    rw [whole, expo_sign] at e
    rw [whole, mantissa_sign] at m
    rcases expo_last lt with ⟨-, k⟩ | ⟨k, -⟩
    · rw [m] at k
      exact k
    · exact absurd e k
  rw [RootSpecial]
  rcases kinds arith.toProper hx with ⟨a1, a2, a3, a4⟩ | ⟨a1, a2, a3, a4⟩ | ⟨a1, a2, a3⟩
  · rw [decode_nan arith.toProper a1]
    simp [a1, a2, a4, sqrtF]
  · rw [decode_inf arith.toProper a2, sqrtF]
    cases n : negative f x
    · rw [n, NumFmt.sign, if_neg Bool.false_ne_true, last a2] at whole
      simp [a1, a2, a4, whole.symm]
    · simp [a1, a2, a4]
  · rw [decode_num arith.toProper a3, sqrtF]
    have zx : IsZero f x ↔ significand f x = 0 := (isZero_iff hx).trans (by rw [value_eq]; exact val_eq_zero (n := negative f x))
    by_cases z : significand f x = 0
    · obtain ⟨-, e, m⟩ := zx.mpr z
      have zero : x % 2 ^ (f.eb + f.mb) = 0 := by
        have lt : x % 2 ^ (f.eb + f.mb) < 2 ^ (f.eb + f.mb) := Nat.mod_lt _ (Nat.two_pow_pos _)
        rw [whole, expo_sign, expo_of_lt lt] at e
        rw [whole, mantissa_sign, mantissa] at m
        rw [← Nat.div_add_mod (x % 2 ^ (f.eb + f.mb)) (2 ^ f.mb), e, m]
        rfl
      rw [zero] at whole
      simp [a1, a2, zx, z, whole.symm]
    · have z' : (significand f x == 0) = false := beq_eq_false_iff_ne.mpr z
      rw [zx, z', if_neg Bool.false_ne_true]
      refine ⟨fun h => ?_, fun h => absurd h z, fun h => absurd h a2⟩
      rw [if_pos (h.resolve_left a1).2]

end

end Sys2Proof.Machine

namespace Sys2Proof.Machine
open Sys2Proof Sys2Proof.Claim

/-! # Comparisons (R151) -/

/-- Two numbers compare by their values; where both are zero and signs count, by their signs. -/
theorem cmp_fin (signed : Bool) (n p : Bool) (m k : Nat) (e g : Int) :
    let x := FV.fin n m e
    let y := FV.fin p k g
    let signs (a b : Bool) : Prop := signed = true ∧ x.val = 0 ∧ y.val = 0 ∧ a = true ∧ b = false
    (cmpFV signed x y = .lt ↔ x.val < y.val ∨ signs n p) ∧ (cmpFV signed x y = .gt ↔ y.val < x.val ∨ signs p n) := by
  intro x y signs
  have hx : (alignTo (min x.signed.2 y.signed.2) x.signed : ℚ) * 2 ^ min x.signed.2 y.signed.2 = x.val :=
    (alignTo_val (min_le_left _ _)).trans (signed_val x).symm
  have hy : (alignTo (min x.signed.2 y.signed.2) y.signed : ℚ) * 2 ^ min x.signed.2 y.signed.2 = y.val :=
    (alignTo_val (min_le_right _ _)).trans (signed_val y).symm
  have unit : (0 : ℚ) < 2 ^ min x.signed.2 y.signed.2 := zpow_pos (by norm_num) _
  have unfold' : cmpFV signed x y =
      if alignTo (min x.signed.2 y.signed.2) x.signed < alignTo (min x.signed.2 y.signed.2) y.signed then .lt
      else if alignTo (min x.signed.2 y.signed.2) y.signed < alignTo (min x.signed.2 y.signed.2) x.signed then .gt
      else if signed && alignTo (min x.signed.2 y.signed.2) x.signed == 0 && n && !p then .lt
      else if signed && alignTo (min x.signed.2 y.signed.2) x.signed == 0 && !n && p then .gt else .eq := rfl
  rw [unfold']
  generalize alignTo (min x.signed.2 y.signed.2) x.signed = a at *
  generalize alignTo (min x.signed.2 y.signed.2) y.signed = b at *
  have lt : x.val < y.val ↔ a < b := by rw [← hx, ← hy, mul_lt_mul_iff_of_pos_right unit, Int.cast_lt]
  have gt : y.val < x.val ↔ b < a := by rw [← hx, ← hy, mul_lt_mul_iff_of_pos_right unit, Int.cast_lt]
  have zx : x.val = 0 ↔ a = 0 := by rw [← hx, mul_eq_zero, or_iff_left unit.ne', Int.cast_eq_zero]
  have zy : y.val = 0 ↔ b = 0 := by rw [← hy, mul_eq_zero, or_iff_left unit.ne', Int.cast_eq_zero]
  simp only [signs, lt, gt, zx, zy]
  rcases lt_trichotomy a b with h | rfl | h
  · have ne : ¬(a = 0 ∧ b = 0) := by omega
    simp only [h, if_true, true_or, not_lt.mpr h.le, false_or, reduceCtorEq, false_iff]
    exact ⟨trivial, fun k => ne ⟨k.2.1, k.2.2.1⟩⟩
  · by_cases z : a = 0 <;> cases signed <;> cases n <;> cases p <;> simp [z]
  · have ne : ¬(a = 0 ∧ b = 0) := by omega
    simp only [h, not_lt.mpr h.le, if_true, if_false, false_or, reduceCtorEq, false_iff, true_or]
    exact ⟨fun k => ne ⟨k.2.1, k.2.2.1⟩, trivial⟩

section
variable {f : NumFmt} (proper : f.Proper) {x y : Nat} (hx : x < 2 ^ f.width) (hy : y < 2 ^ f.width) (nx : ¬IsNaN f x) (ny : ¬IsNaN f y)
include proper hx hy nx ny

/-- The order of two encodings that are not NaNs. -/
theorem cmp_decode (signed : Bool) :
    let signs (x y : Nat) : Prop := signed = true ∧ IsZero f x ∧ IsZero f y ∧ negative f x = true ∧ negative f y = false
    (cmpFV signed (f.decode x) (f.decode y) = .lt ↔ FloatLess f x y ∨ signs x y) ∧
    (cmpFV signed (f.decode x) (f.decode y) = .gt ↔ FloatLess f y x ∨ signs y x) ∧
    (cmpFV false (f.decode x) (f.decode y) = .eq ↔ FloatSame f x y) := by
  simp only [FloatLess, FloatSame, nx, ny, not_false_eq_true, true_and]
  rcases kinds proper hx with ⟨a1, -, -, -⟩ | ⟨-, a2, a3, a4⟩ | ⟨-, a2, a3⟩
  · exact absurd a1 nx
  · rw [decode_inf proper a2]
    rcases kinds proper hy with ⟨b1, -, -, -⟩ | ⟨-, b2, b3, b4⟩ | ⟨-, b2, b3⟩
    · exact absurd b1 ny
    · rw [decode_inf proper b2]
      cases negative f x <;> cases negative f y <;> simp [cmpFV, a2, a3, a4, b2, b3, b4]
    · rw [decode_num proper b3]
      cases negative f x <;> simp [cmpFV, a2, a3, a4, b2, b3]
  · rw [decode_num proper a3]
    rcases kinds proper hy with ⟨b1, -, -, -⟩ | ⟨-, b2, b3, b4⟩ | ⟨-, b2, b3⟩
    · exact absurd b1 ny
    · rw [decode_inf proper b2]
      cases negative f y <;> simp [cmpFV, a2, a3, b2, b3, b4]
    · rw [decode_num proper b3]
      have valX : (FV.fin (negative f x) (significand f x) (placeOf f x)).val = value f x := (value_eq f x).symm
      have valY : (FV.fin (negative f y) (significand f y) (placeOf f y)).val = value f y := (value_eq f y).symm
      obtain ⟨lt, gt⟩ := cmp_fin signed (negative f x) (negative f y) (significand f x) (significand f y) (placeOf f x) (placeOf f y)
      obtain ⟨lt', gt'⟩ := cmp_fin false (negative f x) (negative f y) (significand f x) (significand f y) (placeOf f x) (placeOf f y)
      rw [valX, valY] at lt gt lt' gt'
      simp only [a2, a3, b2, b3, isZero_iff hx, isZero_iff hy, false_and, not_false_eq_true, true_and, false_or]
      refine ⟨lt, gt.trans (or_congr_right (and_congr_right fun _ => and_left_comm)), ?_⟩
      simp only [Bool.false_eq_true, false_and, or_false] at lt' gt'
      have rest (o : Ordering) : o = .eq ↔ ¬o = .lt ∧ ¬o = .gt := by cases o <;> decide
      rw [rest, lt', gt', not_lt, not_lt, and_comm, le_antisymm_iff]

end

section
variable {f : NumFmt} (proper : f.Proper) {x y : Nat} (hx : x < 2 ^ f.width) (hy : y < 2 ^ f.width)
include proper hx hy

/-- **Minimum and maximum** (R151). -/
theorem fminE_spec : LesserOf f x y (fminE f x y) := by
  have nanX := (decode_means proper hx).nan
  have nanY := (decode_means proper hy).nan
  refine ⟨fun h => ?_, fun nx ny => ?_⟩
  · have : ((f.decode x).isNan || (f.decode y).isNan) = true := Bool.or_eq_true_iff.mpr (h.imp nanX.mpr nanY.mpr)
    rw [fminE, if_pos this]
  · have : ¬((f.decode x).isNan || (f.decode y).isNan) = true := fun h => (Bool.or_eq_true_iff.mp h).elim (fun k => nx (nanX.mp k)) fun k => ny (nanY.mp k)
    have below : cmpFV true (f.decode y) (f.decode x) = .lt ↔ Below f y x := by
      simpa [Below] using (cmp_decode proper hy hx ny nx true).1
    rw [fminE, if_neg this, ← below]
    exact ⟨fun h => if_pos (beq_iff_eq.mpr h), fun h => if_neg (mt beq_iff_eq.mp h)⟩

theorem fmaxE_spec : GreaterOf f x y (fmaxE f x y) := by
  have nanX := (decode_means proper hx).nan
  have nanY := (decode_means proper hy).nan
  refine ⟨fun h => ?_, fun nx ny => ?_⟩
  · have : ((f.decode x).isNan || (f.decode y).isNan) = true := Bool.or_eq_true_iff.mpr (h.imp nanX.mpr nanY.mpr)
    rw [fmaxE, if_pos this]
  · have : ¬((f.decode x).isNan || (f.decode y).isNan) = true := fun h => (Bool.or_eq_true_iff.mp h).elim (fun k => nx (nanX.mp k)) fun k => ny (nanY.mp k)
    have below : cmpFV true (f.decode x) (f.decode y) = .lt ↔ Below f x y := by
      simpa [Below] using (cmp_decode proper hx hy nx ny true).1
    rw [fmaxE, if_neg this, ← below]
    exact ⟨fun h => if_pos (beq_iff_eq.mpr h), fun h => if_neg (mt beq_iff_eq.mp h)⟩

/-- **Comparisons** (R151, R244): with a NaN only `ne` holds. -/
theorem fcondHolds_spec (c : FCond) : fcondHolds c (f.decode x) (f.decode y) = true ↔ FloatCompares c f x y := by
  have nanX := (decode_means proper hx).nan
  have nanY := (decode_means proper hy).nan
  by_cases nan : IsNaN f x ∨ IsNaN f y
  · have : ((f.decode x).isNan || (f.decode y).isNan) = true := Bool.or_eq_true_iff.mpr (nan.imp nanX.mpr nanY.mpr)
    have notLess : ¬FloatLess f x y := fun h => nan.elim h.1 h.2.1
    have notGreater : ¬FloatLess f y x := fun h => nan.elim h.2.1 h.1
    have notSame : ¬FloatSame f x y := by
      have kx := kinds proper hx
      have ky := kinds proper hy
      rintro (⟨ix, iy, -⟩ | ⟨jx, jy, -⟩)
      · rcases nan with k | k
        · rcases kx with ⟨-, n, -⟩ | ⟨n, -⟩ | ⟨n, -⟩
          exacts [n ix, n k, n k]
        · rcases ky with ⟨-, n, -⟩ | ⟨n, -⟩ | ⟨n, -⟩
          exacts [n iy, n k, n k]
      · exact nan.elim jx.2.1 jy.2.1
    cases c <;> simp [fcondHolds, this, FloatCompares, notLess, notGreater, notSame]
  · obtain ⟨nx, ny⟩ := not_or.mp nan
    have : ¬((f.decode x).isNan || (f.decode y).isNan) = true := fun h => (Bool.or_eq_true_iff.mp h).elim (fun k => nx (nanX.mp k)) fun k => ny (nanY.mp k)
    obtain ⟨lt, gt, eq⟩ := cmp_decode proper hx hy nx ny false
    simp only [Bool.false_eq_true, false_and, or_false] at lt gt
    cases c <;> simp only [fcondHolds, if_neg this, FloatCompares, ← lt, ← gt, ← eq] <;> cases cmpFV false (f.decode x) (f.decode y) <;> decide

end

/-! # The largest numbers (R135) -/

/-- The largest number of a format with infinities. -/
theorem value_maxEnc {f : NumFmt} (inf : f.inf = true) (eb : 2 ≤ f.eb) :
    value f f.maxEnc = (2 - 1 / 2 ^ f.mb) * 2 ^ ((2 : Int) ^ f.eb - 2 - f.bias) := by
  have four : 2 ^ 2 ≤ 2 ^ f.eb := Nat.pow_le_pow_right (by norm_num) eb
  have pos := Nat.two_pow_pos f.mb
  have steps : f.maxEnc = (2 ^ f.eb - 3) * 2 ^ f.mb + (2 * 2 ^ f.mb - 1) := by
    rw [NumFmt.maxEnc, if_pos inf, show 2 ^ f.eb - 1 = (2 ^ f.eb - 3) + 2 by omega, Nat.add_mul]
    omega
  rw [value_of_lt (maxEnc_lt f), steps, mag_block f (.inl (by omega)) (by omega), Nat.cast_sub (by omega), Nat.cast_sub (by omega)]
  push_cast
  rw [show (2 : Int) ^ f.eb - 3 + 1 - f.bias - f.mb = ((2 : Int) ^ f.eb - 2 - f.bias) - f.mb by ring, zpow_sub₀ (by norm_num), zpow_natCast]
  field_simp

/-! # Results are encodings -/

section
variable {f : NumFmt} (proper : f.Proper)
include proper

theorem dnan_lt : f.dnan < 2 ^ f.width := by
  have mb := Nat.two_pow_pos f.mb
  have half : 2 ^ (f.mb - 1) < 2 ^ f.mb := Nat.pow_lt_pow_right (by norm_num) (by have := proper.mb; omega)
  have := pow_split f
  rw [width_pow, NumFmt.dnan]
  split <;> omega

omit proper in
theorem infEnc_lt : f.infEnc < 2 ^ (f.eb + f.mb) := by
  have := pow_split f
  have := Nat.two_pow_pos f.mb
  rw [NumFmt.infEnc]
  omega

theorem infinity_lt (sat neg : Bool) : f.infinity sat neg < 2 ^ f.width := by
  rw [NumFmt.infinity]
  split
  · exact sign_lt infEnc_lt neg
  · split
    · exact dnan_lt proper
    · exact sign_lt (maxEnc_lt f) neg

theorem overflow_lt (m : RMode) (sat neg : Bool) : f.overflow m sat neg < 2 ^ f.width := by
  have both (c : Bool) : (if c = true then f.sign neg f.maxEnc else f.infinity sat neg) < 2 ^ f.width := by
    cases c
    · exact infinity_lt proper sat neg
    · exact sign_lt (maxEnc_lt f) neg
  match m with
  | .rz => exact both true
  | .ru => exact both neg
  | .rd => exact both !neg
  | .rn | .sr => exact both false

omit proper in
/-- A saturating overflow. -/
theorem overflow_sat (m : RMode) (neg : Bool) : f.overflow m true neg = f.sign neg f.maxEnc := by
  have both (c : Bool) : (if c = true then f.sign neg f.maxEnc else f.infinity true neg) = f.sign neg f.maxEnc := by
    cases c
    · simp [NumFmt.infinity]
    · rfl
  match m with
  | .rz => exact both true
  | .ru => exact both neg
  | .rd => exact both !neg
  | .rn | .sr => exact both false

theorem encoded_lt (m : RMode) (sat neg : Bool) (a : Nat) : f.encoded m sat neg a < 2 ^ f.width := by
  rw [NumFmt.encoded]
  split
  · exact overflow_lt proper m sat neg
  · exact sign_lt (lt_of_le_of_lt (by omega) (maxEnc_lt f)) neg

theorem roundQ_lt (mode : RMode) (draw : Nat) (sat neg : Bool) {num den : Nat} (hn : 0 < num) (hd : 0 < den) (e : Int) :
    f.roundQ f.mb mode draw sat neg num den e < 2 ^ f.width := by
  rw [roundQ_encoded f le_rfl mode draw sat neg hn hd e]
  exact encoded_lt proper mode sat neg _

/-! ## Rounded values -/

theorem round_fin_lt (mode : RMode) (draw : Nat) (sat n : Bool) (m : Nat) (e : Int) : f.round mode draw sat (.fin n m e) < 2 ^ f.width := by
  by_cases zero : m = 0
  · rw [round_zero mode draw sat n e (val_eq_zero.mpr zero)]
    exact sign_lt (Nat.two_pow_pos _) n
  · have round : f.round mode draw sat (.fin n m e) = f.roundQ f.mb mode draw sat n m 1 e := if_neg (by simpa using zero)
    rw [round]
    exact roundQ_lt proper mode draw sat n (Nat.pos_of_ne_zero zero) Nat.one_pos e

theorem round_lt (nans : f.nan = true) (mode : RMode) (draw : Nat) (sat : Bool) (x : FV) : f.round mode draw sat x < 2 ^ f.width := by
  match x with
  | .nan =>
    rw [NumFmt.round, if_pos nans]
    exact dnan_lt proper
  | .inf n => exact infinity_lt proper sat n
  | .fin n m e => exact round_fin_lt proper mode draw sat n m e

omit proper in
/-- A saturating conversion gives no more than the largest number. -/
theorem round_fin_sat (mode : RMode) (draw : Nat) (n : Bool) (m : Nat) (e : Int) : f.round mode draw true (.fin n m e) % 2 ^ (f.eb + f.mb) ≤ f.maxEnc := by
  by_cases zero : m = 0
  · rw [round_zero mode draw true n e (val_eq_zero.mpr zero), sign_mod (Nat.two_pow_pos _)]
    exact Nat.zero_le _
  · have round : f.round mode draw true (.fin n m e) = f.roundQ f.mb mode draw true n m 1 e := if_neg (by simpa using zero)
    rw [round, roundQ_encoded f le_rfl mode draw true n (Nat.pos_of_ne_zero zero) Nat.one_pos e, NumFmt.encoded]
    split
    · rw [overflow_sat, sign_mod (maxEnc_lt f)]
    · next le => rw [sign_mod (lt_of_le_of_lt (not_lt.mp le) (maxEnc_lt f))]; exact not_lt.mp le

end

end Sys2Proof.Machine

namespace Sys2Proof.Machine
open Sys2Proof Sys2Proof.Claim

/-- Settles O12: each operation rounds a value of the exact reals once (`roundQ_quotient`), and a difference or a negated product is the sum or
product of the operand with its sign inverted. -/
theorem roundedArithmetic : Obligations.RoundedArithmetic := by
  unfold Obligations.RoundedArithmetic
  intro f mem m plain x y z nx ny nz
  have arith := arith_of_mem mem
  obtain ⟨hx, -⟩ := id nx
  obtain ⟨hy, -⟩ := id ny
  obtain ⟨hz, -⟩ := id nz
  have sub := (faddE_spec arith m hx (flipped_lt f y)).2 nx (isNum_flipped ny)
  have ms := (ffmaM_spec arith m hx hy (flipped_lt f z)).2 nx ny (isNum_flipped nz)
  have nma := (ffmaM_spec arith m (flipped_lt f x) hy hz).2 (isNum_flipped nx) ny nz
  rw [value_flipped, ← sub_eq_add_neg] at sub ms
  rw [value_flipped, neg_mul] at nma
  rw [fsubM_eq arith, ffmsM_eq arith, fnmaM_eq arith]
  exact ⟨(faddE_spec arith m hx hy).2 nx ny, sub, (fmulM_spec arith m hx hy).2 nx ny, (fdivM_spec arith m hx hy).2 nx ny,
    sqrtF_rounds arith plain nx, (ffmaM_spec arith m hx hy hz).2 nx ny nz, ms, nma⟩

/-- The largest number of E4M3, which has no infinities. -/
theorem value_maxEnc_e4m3 : value fE4M3 fE4M3.maxEnc = 448 := by
  have fields : negative fE4M3 fE4M3.maxEnc = false ∧ expo fE4M3 fE4M3.maxEnc = 15 ∧ mantissa fE4M3 fE4M3.maxEnc = 6 := by decide
  obtain ⟨sign, exponent, fraction⟩ := fields
  rw [value, sign, exponent, fraction]
  norm_num [fE4M3]

/-- Settles O13: the special operands of each operation, by the kinds of its operands. -/
theorem specialValues : Obligations.SpecialValues := by
  unfold Obligations.SpecialValues
  refine ⟨rfl, rfl, rfl, rfl, rfl, rfl, ?_, ?_, ?_, ?_, ?_, value_maxEnc_e4m3, ?_⟩
  · exact (value_maxEnc rfl (by decide)).trans (by norm_num [fF64])
  · exact (value_maxEnc rfl (by decide)).trans (by norm_num [fF32])
  · exact (value_maxEnc rfl (by decide)).trans (by norm_num [fF16])
  · exact (value_maxEnc rfl (by decide)).trans (by norm_num [fBF16])
  · exact (value_maxEnc rfl (by decide)).trans (by norm_num [fE5M2])
  · intro f mem m _ x y z hx hy hz
    have arith := arith_of_mem mem
    have fl := flipped_lt f
    rw [fsubM_eq arith, ffmsM_eq arith, fnmaM_eq arith]
    exact ⟨(faddE_spec arith m hx hy).1, (faddE_spec arith m hx (fl y)).1, (fmulM_spec arith m hx hy).1, (fdivM_spec arith m hx hy).1,
      sqrtF_special arith m hx, (ffmaM_spec arith m hx hy hz).1, (ffmaM_spec arith m hx hy (fl z)).1, (ffmaM_spec arith m (fl x) hy hz).1,
      fminE_spec arith.toProper hx hy, fmaxE_spec arith.toProper hx hy⟩

end Sys2Proof.Machine

namespace Sys2Proof.Machine
open Sys2Proof Sys2Proof.Claim

/-! # Comparisons of integers (R229) -/

theorem sextN_toInt {n : Nat} (pos : 0 < n) (a : Nat) : sextN n a = (BitVec.ofNat n a).toInt := by
  rw [sextN, BitVec.toInt_eq_toNat_cond, BitVec.toNat_ofNat]
  have top : 2 ^ n = 2 * 2 ^ (n - 1) := by rw [← Nat.pow_succ', Nat.succ_eq_add_one, Nat.sub_add_cancel pos]
  by_cases h : 2 ^ (n - 1) ≤ a % 2 ^ n
  · rw [if_pos ⟨h, by omega⟩, if_neg (by omega)]
  · rw [if_neg fun k => h k.1, if_pos (by omega)]

/-- The conditions of the model on values of `n` bits. -/
theorem icondHolds_compares (c : ICond) {n : Nat} (pos : 0 < n) {a b : Nat} (ha : a < 2 ^ n) (hb : b < 2 ^ n) :
    icondHolds c n a b = compares c (BitVec.ofNat n a) (BitVec.ofNat n b) := by
  have inj : BitVec.ofNat n a = BitVec.ofNat n b ↔ a = b := by
    rw [← BitVec.toNat_inj, BitVec.toNat_ofNat, BitVec.toNat_ofNat, Nat.mod_eq_of_lt ha, Nat.mod_eq_of_lt hb]
  have same : (a == b) = (BitVec.ofNat n a == BitVec.ofNat n b) := by
    rw [Bool.eq_iff_iff, beq_iff_eq, beq_iff_eq, inj]
  have toNat_a : (BitVec.ofNat n a).toNat = a := Nat.mod_eq_of_lt ha
  have toNat_b : (BitVec.ofNat n b).toNat = b := Nat.mod_eq_of_lt hb
  cases c
  case eq => exact same
  case ne => exact congrArg (!·) same
  all_goals simp only [icondHolds, compares, sextN_toInt pos, BitVec.slt, BitVec.sle, BitVec.ult, BitVec.ule, toNat_a, toNat_b]

theorem immW_lt (n : Nat) (imm : BitVec 18) : immW n imm < 2 ^ n := by
  have pos : (0 : Int) < (2 ^ n : Nat) := by exact_mod_cast Nat.two_pow_pos n
  have := Int.emod_lt_of_pos imm.toInt pos
  have := Int.emod_nonneg imm.toInt pos.ne'
  rw [immW, wrapN]
  omega

theorem immW_signExtend (n : Nat) (imm : BitVec 18) : BitVec.ofNat n (immW n imm) = imm.signExtend n := by
  apply BitVec.eq_of_toNat_eq
  rw [BitVec.toNat_ofNat, Nat.mod_eq_of_lt (immW_lt n imm), BitVec.signExtend, BitVec.toNat_ofInt, immW, wrapN]

theorem plopB_combines (op : POp) (a b : Bool) : plopB op a b = combines op a b := by cases op <;> rfl

theorem wbits_pos (wide : Bool) : 0 < wbits wide := by cases wide <;> decide

end Sys2Proof.Machine

namespace Sys2Proof.Claim
open Sys2Proof.Machine Sys2Proof.Laws

/-- An instruction of one predicate, of a wave. -/
theorem Runs.preds_onWave {s : State} {core slot : Nat} {w : Wave} (h : Runs s core slot w) {i : Instr} {c : Ctl} {p : BitVec 4}
    {f : State → Nat → Bool} {val : Nat → Bool}
    (he : exec i s = s.onWave c.rbf 0 fun s => s.setPreds p.toNat (s.active c.guard) (f s)) (hv : ∀ l, f s l = val l) :
    PredResult s core slot w i c p val :=
  h.preds (he.trans (onWave_wave h.unit _ _ _)) hv

/-- Settles O10: each instruction writes one predicate (`Runs.preds`), whose values `icondHolds_compares` and `fcondHolds_spec` give. -/
theorem comparisonResults : Obligations.ComparisonResults := by
  unfold Obligations.ComparisonResults
  intro c s core slot w h
  refine ⟨fun cond wide p a b => ?_, fun cond wide p a b => ?_, fun cond wide p a imm => ?_, fun cond wide p a imm => ?_, fun op p a b => ?_,
    fun cond f64 p a b => ?_⟩
  · refine h.preds_onWave (exec_icmp ..) fun l => ?_
    rw [State.cmp2, h.w, icondHolds_compares cond (wbits_pos wide) (src_lt w wide a l) (bsrc_lt w wide b l)]
  · refine h.preds_onWave (exec_icmp ..) fun l => ?_
    rw [State.cmp2, h.scal, h.scal, icondHolds_compares cond (wbits_pos wide) (scal_lt w wide a) (scal_lt w wide b)]
  · refine h.preds_onWave (exec_icmpi ..) fun l => ?_
    rw [State.cmp1, h.w, icondHolds_compares cond (wbits_pos wide) (src_lt w wide a l) (immW_lt _ imm), immW_signExtend]
  · refine h.preds_onWave (exec_icmpi ..) fun l => ?_
    rw [State.cmp1, h.scal, icondHolds_compares cond (wbits_pos wide) (scal_lt w wide a) (immW_lt _ imm), immW_signExtend]
  · refine h.preds_onWave (exec_plop ..) fun l => ?_
    rw [plopB_combines, h.w, Wave.predOf, Wave.predOf]
  · refine ⟨_, h.preds_onWave (exec_fcmp ..) fun l => rfl, fun l => ?_⟩
    rw [h.w]
    cases f64
    · exact fcondHolds_spec arith_f32.toProper (src_lt w false a l) (bsrc_lt w false b l) cond
    · exact fcondHolds_spec arith_f64.toProper (src_lt w true a l) (bsrc_lt w true b l) cond

end Sys2Proof.Claim

namespace Sys2Proof.Machine
open Sys2Proof Sys2Proof.Claim

/-! # Fields of bytes (R4, R140) -/

theorem sum_bits (x w : Nat) : ((List.range w).map fun i => if x.testBit i then 2 ^ i else 0).sum = x % 2 ^ w := by
  induction w with
  | zero => simp [Nat.mod_one]
  | succ w ih =>
    rw [List.range_succ, List.map_append, List.sum_append, ih, Nat.mod_pow_succ]
    rcases Nat.mod_two_eq_zero_or_one (x / 2 ^ w) with h | h <;> simp [Nat.testBit_eq_decide_div_mod_eq, h]

theorem testBit_ofBytes (bs : List Byte) (i : Nat) : (ofBytes bs).testBit i = (listGet 0 bs (i / 8)).getLsbD (i % 8) := by
  induction bs generalizing i with
  | nil => simp [ofBytes, listGet]
  | cons b bs ih =>
    rw [ofBytes, Nat.add_comm, show (256 : Nat) = 2 ^ 8 from rfl, Nat.testBit_two_pow_mul_add _ b.isLt]
    by_cases low : i < 8
    · rw [if_pos low, Nat.div_eq_of_lt low, Nat.mod_eq_of_lt low]
      rfl
    · obtain ⟨j, rfl⟩ := Nat.exists_eq_add_of_le (Nat.le_of_not_lt low)
      rw [if_neg low, ih, Nat.add_sub_cancel_left, Nat.add_mod_left, Nat.add_div_left _ (by norm_num)]
      rfl

theorem listGet_toBytes (n x i : Nat) : listGet 0 (toBytes n x) i = if i < n then BitVec.ofNat 8 (x / 256 ^ i) else 0 := by
  induction n generalizing x i with
  | zero => simp [toBytes, listGet]
  | succ n ih =>
    cases i with
    | zero => simp [toBytes, listGet]
    | succ i =>
      have := ih (x / 256) i
      rw [Nat.div_div_eq_div_mul, ← Nat.pow_succ'] at this
      simpa [toBytes, listGet] using this

/-- A field of bytes whose bits are those of a number. -/
theorem fieldAt_eq {b : Nat → Byte} {x bit w : Nat} (bits : ∀ i < w, (b ((bit + i) / 8)).getLsbD ((bit + i) % 8) = x.testBit (bit + i)) :
    fieldAt b bit w = x / 2 ^ bit % 2 ^ w := by
  rw [← sum_bits, fieldAt]
  congr 1
  refine List.map_congr_left fun i hi => ?_
  rw [bits i (List.mem_range.mp hi), Nat.testBit_div_two_pow, Nat.add_comm]

theorem fieldAt_ofBytes (b : Nat → Byte) {n bit w : Nat} (inside : bit + w ≤ 8 * n) :
    fieldAt b bit w = ofBytes ((List.range n).map b) / 2 ^ bit % 2 ^ w := by
  refine fieldAt_eq fun i hi => ?_
  have : (bit + i) / 8 < n := by omega
  rw [testBit_ofBytes, listGet, List.getD_eq_getElem _ _ (by simpa using this), List.getElem_map, List.getElem_range]

theorem fieldAt_toBytes (x : Nat) {n bit w : Nat} (inside : bit + w ≤ 8 * n) :
    fieldAt (listGet 0 (toBytes n x)) bit w = x / 2 ^ bit % 2 ^ w := by
  refine fieldAt_eq fun i hi => ?_
  have : (bit + i) / 8 < n := by omega
  rw [listGet_toBytes, if_pos this, BitVec.getLsbD_ofNat, show (256 : Nat) = 2 ^ 8 from rfl, ← Nat.pow_mul, Nat.testBit_div_two_pow,
    Nat.mod_add_div]
  simp [Nat.mod_lt]

theorem fieldAt_lt (b : Nat → Byte) (bit w : Nat) : fieldAt b bit w < 2 ^ w := by
  rw [fieldAt_ofBytes b (n := bit + w) (by omega)]
  exact Nat.mod_lt _ (Nat.two_pow_pos w)

end Sys2Proof.Machine

namespace Sys2Proof.Machine
open Sys2Proof Sys2Proof.Claim

/-! # Factors of a matrix product (R139 to R141, R152) -/

theorem scaleFV_means (b : Nat) : (scaleFV b).Means ⟨b = 255, False, false, 2 ^ ((b : Int) - 127)⟩ := by
  unfold scaleFV
  by_cases h : b = 255
  · rw [if_pos (beq_iff_eq.mpr h)]
    exact means_nan.mpr h
  · rw [if_neg (mt beq_iff_eq.mp h)]
    exact means_fin.mpr ⟨h, id, rfl, by simp [FV.val]⟩

/-- A value times a scale. -/
theorem mulFV_scale_means {x : FV} {a : Factor} (h : x.Means a) (b : Nat) : (mulFV (scaleFV b) x).Means (a.scaledBy b) := by
  have nonzero : ¬(2 : ℚ) ^ ((b : Int) - 127) = 0 := zpow_ne_zero _ (by norm_num)
  have product : productOf ⟨b = 255, False, false, 2 ^ ((b : Int) - 127)⟩ a = a.scaledBy b := by
    simp only [productOf, Factor.scaledBy, Factor.IsZero, nonzero, false_and, and_false, or_false, false_or, or_comm (a := b = 255),
      mul_comm a.val, Bool.false_bne]
  exact product ▸ mulFV_means (scaleFV_means b) h

/-- A term of a P2 weight, over 2^6. -/
def p2Term (y : Nat) : Int := if y % 8 = 7 then 0 else (if y / 8 = 1 then -1 else 1) * 2 ^ (6 - y % 8)

theorem p2Term_val {y : Nat} : (p2Term y : ℚ) * 2 ^ (-6 : Int) = if y % 8 = 7 then 0 else (if y / 8 = 1 then -1 else 1) / 2 ^ (y % 8) := by
  rw [p2Term]
  by_cases h : y % 8 = 7
  · simp [h]
  · have le : y % 8 ≤ 6 := by omega
    have : (2 : ℚ) ^ (6 - y % 8) = 2 ^ 6 / 2 ^ (y % 8) := by rw [pow_sub₀ _ (by norm_num) le]; rfl
    rw [if_neg h, if_neg h]
    push_cast
    rw [this]
    split
    · ring
    · ring

theorem p2Weight_eq {x : Nat} (h : x < 256) :
    p2Weight x = .fin (decide (p2Term (x / 16) + p2Term (x % 16) < 0)) (p2Term (x / 16) + p2Term (x % 16)).natAbs (-6) := by
  have term (s : Bool) (k y : Nat) (hs : s = decide (y / 8 = 1)) (hk : k = y % 8) :
      (if k == 7 then 0 else if s then -((2 ^ (6 - k) : Nat) : Int) else ((2 ^ (6 - k) : Nat) : Int)) = p2Term y := by
    subst hs hk
    rw [p2Term]
    by_cases seven : y % 8 = 7
    · simp [seven]
    · by_cases sign : y / 8 = 1 <;> simp [seven, sign]
  have high : bitN x 7 = decide (x / 16 / 8 = 1) := by
    rw [bitN, Nat.testBit_eq_decide_div_mod_eq, decide_eq_decide]
    omega
  have low : bitN x 3 = decide (x % 16 / 8 = 1) := by
    rw [bitN, Nat.testBit_eq_decide_div_mod_eq, decide_eq_decide]
    omega
  have lowBits : bitsN x 2 0 = x % 16 % 8 := by
    rw [bitsN]
    omega
  rw [← term _ _ _ high rfl, ← term _ _ _ low lowBits]
  rfl

theorem p2Weight_means {x : Nat} (h : x < 256) : (p2Weight x).Means (weightOf x) := by
  have val : (weightOf x).val = ((p2Term (x / 16) + p2Term (x % 16) : Int) : ℚ) * 2 ^ (-6 : Int) := by
    push_cast
    rw [add_mul, p2Term_val, p2Term_val]
    rfl
  have neg : (weightOf x).neg = decide (p2Term (x / 16) + p2Term (x % 16) < 0) := by
    have : (weightOf x).neg = decide ((weightOf x).val < 0) := rfl
    rw [this, val]
    simp only [mul_neg_iff, zpow_pos (show (0 : ℚ) < 2 by norm_num), not_lt_of_gt (zpow_pos (show (0 : ℚ) < 2 by norm_num) (-6)),
      and_false, false_or, and_true, Int.cast_lt_zero]
  rw [p2Weight_eq h]
  refine means_fin.mpr ⟨id, id, neg, val.trans ?_⟩
  generalize p2Term (x / 16) + p2Term (x % 16) = n
  by_cases h : n < 0
  · simp [FV.val, h, abs_of_neg]
  · simp [FV.val, h, abs_of_nonneg (not_lt.mp h)]

theorem matElem_proper (f : MmaFmt) : (matFmt f).elem.Proper ∧ (matFmt f).elem.width = (matFmt f).bits := by
  cases f <;> exact ⟨⟨by decide, by decide⟩, rfl⟩

theorem matFmt_model (f : MmaFmt) : (matFmt f).elem = mmaANum f ∧ (matFmt f).bits = mmaBits f ∧ (matFmt f).k = mmaK f ∧
    (matFmt f).recs = f.recs ∧ (matFmt f).cb = mmaCb f := by
  cases f <;> exact ⟨rfl, rfl, rfl, rfl, rfl⟩

/-- The elements of a row lie in its bytes, and those of a column in its own. -/
theorem elem_inside (f : MmaFmt) {k : Nat} (h : k < mmaK f) :
    k * mmaBits f + mmaBits f ≤ 8 * f.ca ∧
    (if mmaBlocked f then (k / 32 * (mmaPl f + 1) + 1) * 8 + k % 32 * mmaBits f else k * mmaBits f) + mmaBits f ≤ 8 * mmaCb f := by
  cases f <;> simp [mmaK, mmaBits, mmaANum, NumFmt.width, fF64, fF32, fBF16, fF16, fE4M3, fE5M2, fE3M2, fE2M3, fE2M1, MmaFmt.ca, mmaBlocked,
    MmaFmt.recs, mmaPl, mmaCb] at h ⊢ <;> omega

/-- A value of the model under the scale of its block. -/
def underScale (f : MmaFmt) (s : Nat) (x : FV) : FV := if mmaBlocked f then mulFV (scaleFV s) x else x

theorem underScale_means {f : MmaFmt} {x : FV} {a : Factor} (h : x.Means a) (s : Nat) :
    (underScale f s x).Means (if (matFmt f).recs = 0 then a else a.scaledBy s) := by
  obtain ⟨-, -, -, recs, -⟩ := matFmt_model f
  rw [underScale, mmaBlocked, recs]
  by_cases zero : f.recs = 0
  · simpa [zero] using h
  · simpa [zero] using mulFV_scale_means h s

/-- An element in bytes. -/
theorem decode_field_means {g : NumFmt} (proper : g.Proper) (b : Nat → Byte) {n bit : Nat} (inside : bit + g.width ≤ 8 * n) :
    (g.decode (ofBytes ((List.range n).map b) / 2 ^ bit % 2 ^ g.width)).Means (factorOf g (fieldAt b bit g.width)) := by
  rw [← fieldAt_ofBytes b inside]
  exact decode_means proper (fieldAt_lt ..)

theorem aElem_means (f : MmaFmt) (b : Nat → Byte) (sc : Nat → Nat) {k : Nat} (hk : k < mmaK f) :
    (underScale f (sc (k / 32)) (aElem f (ofBytes ((List.range f.ca).map b)) k)).Means (rowFactor f b sc k) := by
  obtain ⟨proper, -⟩ := matElem_proper f
  obtain ⟨elem, bits, -, -, -⟩ := matFmt_model f
  have value := decode_field_means (elem ▸ proper) b (elem_inside f hk).1
  simp only [rowFactor, elem, bits]
  exact underScale_means value _

theorem bElem_means (f : MmaFmt) (b : Nat → Byte) (sc : Nat → Nat) {k : Nat} (hk : k < mmaK f) :
    (underScale f (sc (k / 32)) (bElem f (ofBytes ((List.range (mmaCb f)).map b)) k)).Means (colFactor f b sc k) := by
  obtain ⟨proper, -⟩ := matElem_proper f
  obtain ⟨elem, bits, -, recs, -⟩ := matFmt_model f
  have inside := (elem_inside f hk).2
  have bit : (if (matFmt f).recs = 0 then k * (matFmt f).bits else (k / 32 * (4 * (matFmt f).bits + 1) + 1) * 8 + k % 32 * (matFmt f).bits) =
      if mmaBlocked f then (k / 32 * (mmaPl f + 1) + 1) * 8 + k % 32 * mmaBits f else k * mmaBits f := by
    rw [recs, bits, mmaBlocked, mmaPl]
    by_cases zero : f.recs = 0 <;> simp [zero]
  rw [colFactor]
  simp only [bit]
  rw [bits, elem]
  refine underScale_means ?_ _
  by_cases p2 : f = .p2
  · subst p2
    rw [if_pos rfl]
    change (p2Weight _).Means _
    rw [← fieldAt_ofBytes b inside]
    exact p2Weight_means (fieldAt_lt _ _ 8)
  · rw [if_neg p2]
    have value := decode_field_means (elem ▸ proper) b inside
    cases f
    case p2 => exact absurd rfl p2
    all_goals exact value

end Sys2Proof.Machine

namespace Sys2Proof.Machine
open Sys2Proof Sys2Proof.Claim

/-! # One output of `mma` (R152) -/

theorem zipWith_map_self {α β γ δ : Type} (op : β → γ → δ) (f : α → β) (g : α → γ) (ks : List α) :
    List.zipWith op (ks.map f) (ks.map g) = ks.map fun k => op (f k) (g k) := by
  rw [List.zipWith_map, List.zipWith_self]

/-- **A rounded dot product.** -/
theorem dotFV_dotsTo {g : NumFmt} (arith : g.Arith) {c : Nat} (hc : c < 2 ^ g.width) {ks : List Nat} {x y : Nat → FV} {a b : Nat → Factor}
    (hx : ∀ k ∈ ks, (x k).Means (a k)) (hy : ∀ k ∈ ks, (y k).Means (b k)) :
    DotsTo g c (ks.map fun k => (a k, b k)) (dotFV g c (ks.map x) (ks.map y)) := by
  have means : List.Forall₂ FV.Means (g.decode c :: ks.map fun k => mulFV (x k) (y k)) (factorOf g c :: ks.map fun k => productOf (a k) (b k)) := by
    refine .cons (decode_means arith.toProper hc) ?_
    rw [List.forall₂_map_left_iff, List.forall₂_map_right_iff, List.forall₂_same]
    exact fun k hk => mulFV_means (hx k hk) (hy k hk)
  have sum := round_sumFV arith .rn 0 means
  rw [dotFV, zipWith_map_self]
  simpa [DotsTo, productOf, factorOf, zeroSign, Function.comp_def] using sum

/-! # Accumulators (R288) -/

/-- Registers that hold an accumulator. -/
def accRegs (wide : Bool) : Nat := if wide then 2 else 1

theorem lowWord_ofNat (x : Nat) : lowWord (BitVec.ofNat 64 x) = BitVec.ofNat 32 x := by
  apply BitVec.eq_of_toNat_eq
  simp [lowWord]

theorem highWord_ofNat (x : Nat) : highWord (BitVec.ofNat 64 x) = BitVec.ofNat 32 (x / 2 ^ 32) := by
  apply BitVec.eq_of_toNat_eq
  simp [highWord]
  omega

theorem setAcc_vreg (w : Wave) (wide : Bool) (r l j x n m : Nat) (hl : l < 32) (hm : m < 32) :
    (w.setAcc wide r l j x).vreg n m = if m = l ∧ r + accRegs wide * j ≤ n ∧ n < r + accRegs wide * j + accRegs wide then
      BitVec.ofNat 32 (x / 2 ^ (32 * (n - (r + accRegs wide * j)))) else w.vreg n m := by
  cases wide
  · rw [Wave.setAcc, if_neg Bool.false_ne_true, vreg_setV _ _ _ _ _ _ hl hm]
    simp only [accRegs, Bool.false_eq_true, if_false, Nat.one_mul]
    by_cases here : n = r + j ∧ m = l
    · obtain ⟨rfl, rfl⟩ := here
      simp
    · rw [if_neg here, if_neg (by omega)]
  · rw [Wave.setAcc, if_pos rfl, Wave.setV64, vreg_setV _ _ _ _ _ _ hl hm, vreg_setV _ _ _ _ _ _ hl hm, lowWord_ofNat, highWord_ofNat]
    simp only [accRegs, if_true]
    by_cases low : n = r + 2 * j ∧ m = l
    · obtain ⟨rfl, rfl⟩ := low
      simp
    · by_cases high : n = r + 2 * j + 1 ∧ m = l
      · obtain ⟨rfl, rfl⟩ := high
        rw [if_pos ⟨rfl, rfl⟩, if_pos (by omega)]
        simp
      · rw [if_neg high, if_neg low, if_neg (by omega)]

/-- Of a wave only vector registers have changed. -/
def VectorsOnly (w w1 : Wave) : Prop := ∃ v, w1 = { w with v := v }

theorem VectorsOnly.trans {a b c : Wave} (h : VectorsOnly a b) (k : VectorsOnly b c) : VectorsOnly a c := by
  obtain ⟨v, rfl⟩ := h
  obtain ⟨u, rfl⟩ := k
  exact ⟨u, rfl⟩

theorem VectorsOnly.foldl {α : Type} {f : Wave → α → Wave} (h : ∀ w x, VectorsOnly w (f w x)) (xs : List α) (w : Wave) :
    VectorsOnly w (xs.foldl f w) := by
  induction xs generalizing w with
  | nil => exact ⟨w.v, rfl⟩
  | cons x xs ih => exact (h w x).trans (ih _)

theorem setAcc_only (w : Wave) (wide : Bool) (r l j x : Nat) : VectorsOnly w (w.setAcc wide r l j x) := by
  cases wide
  · exact ⟨_, rfl⟩
  · exact ⟨_, rfl⟩

/-- The first `n` accumulators of a lane, written. -/
def setAccs (w : Wave) (wide : Bool) (r n l : Nat) (f : Nat → Nat) : Wave := (List.range n).foldl (fun w j => w.setAcc wide r l j (f j)) w

theorem setAccs_vreg (w : Wave) (wide : Bool) (r k l : Nat) (f : Nat → Nat) (n m : Nat) (hl : l < 32) (hm : m < 32) :
    (setAccs w wide r k l f).vreg n m = if m = l ∧ r ≤ n ∧ n < r + k * accRegs wide then
      BitVec.ofNat 32 (f ((n - r) / accRegs wide) / 2 ^ (32 * ((n - r) % accRegs wide))) else w.vreg n m := by
  induction k with
  | zero => rw [if_neg (by omega)]; rfl
  | succ k ih =>
    rw [setAccs, List.range_succ, List.foldl_append, List.foldl_cons, List.foldl_nil, setAcc_vreg _ _ _ _ _ _ _ _ hl hm]
    rw [setAccs] at ih
    have pos : 0 < accRegs wide := by cases wide <;> decide
    have step : accRegs wide * k + accRegs wide = (k + 1) * accRegs wide := by ring
    have comm : accRegs wide * k = k * accRegs wide := Nat.mul_comm ..
    by_cases here : m = l ∧ r + accRegs wide * k ≤ n ∧ n < r + accRegs wide * k + accRegs wide
    · obtain ⟨rfl, low, high⟩ := here
      have part : n - r = (n - (r + accRegs wide * k)) + accRegs wide * k := by omega
      have quot : (n - r) / accRegs wide = k := by
        rw [part, Nat.add_mul_div_left _ _ pos, Nat.div_eq_of_lt (by omega), Nat.zero_add]
      have rest : (n - r) % accRegs wide = n - (r + accRegs wide * k) := by
        rw [part, Nat.add_mul_mod_self_left, Nat.mod_eq_of_lt (by omega)]
      rw [if_pos ⟨rfl, low, high⟩, if_pos ⟨rfl, by omega, by omega⟩, quot, rest]
    · rw [if_neg here, ih]
      by_cases before : m = l ∧ r ≤ n ∧ n < r + k * accRegs wide
      · rw [if_pos before, if_pos ⟨before.1, before.2.1, by omega⟩]
      · rw [if_neg before, if_neg (by omega)]

/-- The accumulators of some lanes, written. -/
def setLanes (w : Wave) (wide : Bool) (r k : Nat) (f : Nat → Nat → Nat) (ls : List Nat) : Wave :=
  ls.foldl (fun w l => setAccs w wide r k l (f l)) w

theorem setLanes_only (w : Wave) (wide : Bool) (r k : Nat) (f : Nat → Nat → Nat) (ls : List Nat) : VectorsOnly w (setLanes w wide r k f ls) :=
  VectorsOnly.foldl (fun w l => VectorsOnly.foldl (fun w j => setAcc_only w wide r l j (f l j)) _ w) ls w

theorem setLanes_vreg (w : Wave) (wide : Bool) (r k : Nat) (f : Nat → Nat → Nat) {ls : List Nat} (n : Nat) {m : Nat} (lanes : ∀ l ∈ ls, l < 32)
    (hm : m < 32) :
    (setLanes w wide r k f ls).vreg n m = if m ∈ ls ∧ r ≤ n ∧ n < r + k * accRegs wide then
      BitVec.ofNat 32 (f m ((n - r) / accRegs wide) / 2 ^ (32 * ((n - r) % accRegs wide))) else w.vreg n m := by
  induction ls generalizing w with
  | nil => simp [setLanes]
  | cons l ls ih =>
    rw [setLanes, List.foldl_cons, ← setLanes, ih _ fun x hx => lanes x (List.mem_cons_of_mem _ hx),
      setAccs_vreg _ _ _ _ _ _ _ _ (lanes l List.mem_cons_self) hm]
    by_cases here : m = l
    · subst here
      by_cases inside : r ≤ n ∧ n < r + k * accRegs wide
      · simp [inside]
      · simp [inside]
    · simp [here]

end Sys2Proof.Machine

namespace Sys2Proof.Machine
open Sys2Proof Sys2Proof.Claim

/-! # The quarters of `mma` (R289, R290, R301) -/

theorem hasLane_and (a b : Mask) (l : Nat) : hasLane (a &&& b) l = (hasLane a l && hasLane b l) := BitVec.getLsbD_and ..

theorem hasLane_quarterMask {q l : Nat} (hq : q < 4) (hl : l < 32) : hasLane (quarterMask q) l = decide (l / 8 = q) := by
  have all : ∀ q : Fin 4, ∀ l : Fin 32, hasLane (quarterMask q) l = decide (l.val / 8 = q) := by decide
  exact all ⟨q, hq⟩ ⟨l, hl⟩

theorem mem_quarter {act : Mask} {q l : Nat} (hq : q < 4) : l ∈ lanesOf (act &&& quarterMask q) ↔ l ∈ lanesOf act ∧ l / 8 = q := by
  rw [mem_lanesOf, mem_lanesOf, hasLane_and]
  by_cases hl : l < 32
  · simp [hl, hasLane_quarterMask hq hl]
  · simp [hl]

theorem lowLane_mem {m : Mask} (h : m ≠ 0) : lowLane m ∈ lanesOf m := by
  have := lanesOf_ne_nil h
  rw [lowLane]
  cases e : lanesOf m with
  | nil => exact absurd e this
  | cons l ls => exact List.mem_cons_self

/-- The quarters that have Active lanes. -/
def quartersOf (act : Mask) : List Nat := (List.range 4).filter fun q => act &&& quarterMask q != 0

theorem mem_quartersOf {act : Mask} {q : Nat} : q ∈ quartersOf act ↔ q < 4 ∧ act &&& quarterMask q ≠ 0 := by
  simp [quartersOf]

theorem nodup_quartersOf (act : Mask) : (quartersOf act).Nodup := List.nodup_range.filter _

/-- The lanes of the quarters are the Active lanes. -/
theorem mem_lanes_quarters {act : Mask} {l : Nat} :
    l ∈ (quartersOf act).flatMap (fun q => lanesOf (act &&& quarterMask q)) ↔ l ∈ lanesOf act := by
  rw [List.mem_flatMap]
  constructor
  · rintro ⟨q, hq, hl⟩
    exact ((mem_quarter (mem_quartersOf.mp hq).1).mp hl).1
  · intro hl
    have lt : l / 8 < 4 := by have := ((mem_lanesOf act l).mp hl).1; omega
    have here : l ∈ lanesOf (act &&& quarterMask (l / 8)) := (mem_quarter lt).mpr ⟨hl, rfl⟩
    refine ⟨l / 8, mem_quartersOf.mpr ⟨lt, fun zero => ?_⟩, here⟩
    rw [zero, lanesOf_zero] at here
    exact absurd here List.not_mem_nil

/-! ## FIFOs (R300) -/

/-- The FIFOs after the entries of some quarters have been taken. -/
def takeScales (w : Wave) (qs : List Nat) : Wave :=
  qs.foldl (fun w q => { w with sfifo := listPut [] 4 w.sfifo q ((w.fifo q).drop 2) }) w

theorem takeScales_fifo (w : Wave) {qs : List Nat} (nodup : qs.Nodup) {q : Nat} (hq : q < 4) :
    (takeScales w qs).fifo q = if q ∈ qs then (w.fifo q).drop 2 else w.fifo q := by
  induction qs generalizing w with
  | nil => simp [takeScales]
  | cons p qs ih =>
    obtain ⟨apart, rest⟩ := List.nodup_cons.mp nodup
    rw [takeScales, List.foldl_cons, ← takeScales, ih _ rest]
    have one : ({ w with sfifo := listPut [] 4 w.sfifo p ((w.fifo p).drop 2) } : Wave).fifo q = if q = p then (w.fifo p).drop 2 else w.fifo q :=
      listGet_listPut _ _ _ _ _ _ hq
    rw [one]
    by_cases e : q = p
    · subst e
      simp [apart]
    · simp [e]

theorem takeScales_rest (w : Wave) (qs : List Nat) : ∃ f, takeScales w qs = { w with sfifo := f } := by
  induction qs generalizing w with
  | nil => exact ⟨w.sfifo, rfl⟩
  | cons q qs ih =>
    obtain ⟨f, hf⟩ := ih { w with sfifo := listPut [] 4 w.sfifo q ((w.fifo q).drop 2) }
    exact ⟨f, hf⟩

end Sys2Proof.Machine

namespace Sys2Proof.Claim
open Sys2Proof Sys2Proof.Machine

section
variable {s : State} {core slot : Nat} {w : Wave} {a : Alloc} (h : Runs s core slot w) (handler : w.handler = none)
  (alloc : (s.core core).alloc w.lid = some a)
include h

include handler alloc

theorem Runs.spadBase : s.spadBase = some (128 * a.base, 128 * a.lines) := by
  simp [State.spadBase, State.curLid, h.unit, h.w, handler, h.cur, alloc]

omit h handler alloc in
/-- A fold that leaves the state alone and collects. -/
theorem foldl_collect {σ α β : Type} {f : σ × List β → α → σ × List β} {s : σ} {p : α → Bool} {g : α → β} {xs : List α}
    (step : ∀ x ∈ xs, ∀ out, f (s, out) x = (s, if p x then out ++ [g x] else out)) (out : List β) :
    xs.foldl f (s, out) = (s, out ++ (xs.filter p).map g) := by
  induction xs generalizing out with
  | nil => simp
  | cons x xs ih =>
    rw [List.foldl_cons, step x List.mem_cons_self, ih fun y hy => step y (List.mem_cons_of_mem _ hy), List.filter_cons]
    cases p x <;> simp

/-- The B offset that a quarter takes. -/
def quarterOffset (w : Wave) (b : MmaB) (m : Mask) : Nat :=
  match b with
  | .wave n => w.scal false n
  | .quarter x => w.src false x (lowLane m)

/-- Quarters that all perform. -/
theorem Runs.quarters_all (fmt : MmaFmt) (sf : Bool) (b : MmaB) (bstride : Nat) (act : Mask)
    (fine : ∀ q ∈ quartersOf act, let bo := quarterOffset w b (act &&& quarterMask q)
      (fmt.recs = 0 → bo % 4 = 0) ∧ bo + 7 * bstride + mmaCb fmt ≤ 128 * a.lines ∧
      if sf then 2 ≤ (w.fifo q).length else fmt.recs ≠ 0 → w.fifo q = []) :
    s.quarters fmt sf b bstride act =
      (s, (quartersOf act).map fun q => ⟨q, act &&& quarterMask q, quarterOffset w b (act &&& quarterMask q)⟩) := by
  rw [State.quarters]
  refine (foldl_collect (p := fun q => act &&& quarterMask q != 0)
    (g := fun q => ⟨q, act &&& quarterMask q, quarterOffset w b (act &&& quarterMask q)⟩) (fun q hq out => ?_) []).trans rfl
  by_cases empty : act &&& quarterMask q = 0
  · simp [empty]
  · obtain ⟨aligned, inside, scales⟩ := fine q (mem_quartersOf.mpr ⟨List.mem_range.mp hq, empty⟩)
    have aligned' : (!mmaBlocked fmt && quarterOffset w b (act &&& quarterMask q) % 4 != 0) = false := by
      rw [mmaBlocked]
      by_cases dense : fmt.recs = 0
      · simp [aligned dense]
      · simp [dense]
    have short : (sf && decide ((w.fifo q).length < 2)) = false := by
      cases sf
      · rfl
      · have : ¬(w.fifo q).length < 2 := Nat.not_lt.mpr scales
        simp [this]
    have surplus : (!sf && mmaBlocked fmt && !(w.fifo q).isEmpty) = false := by
      cases sf
      · rw [mmaBlocked]
        by_cases dense : fmt.recs = 0
        · simp [dense]
        · rw [(scales : fmt.recs ≠ 0 → w.fifo q = []) dense]
          simp
      · rfl
    have empty' : (act &&& quarterMask q == 0) = false := beq_eq_false_iff_ne.mpr empty
    have some' : (act &&& quarterMask q != 0) = true := bne_iff_ne.mpr empty
    simp only [h.spadBase handler alloc, h.w, empty', some', short, surplus, if_true]
    cases b
    all_goals
      simp only [quarterOffset] at aligned' inside ⊢
      rw [if_neg Bool.false_ne_true, if_neg (Bool.not_eq_true _ ▸ aligned'), if_neg (Nat.not_lt.mpr inside), if_neg Bool.false_ne_true,
        if_neg Bool.false_ne_true]

end

end Sys2Proof.Claim

namespace Sys2Proof.Machine
open Sys2Proof Sys2Proof.Claim

/-! # The results of `mma` (R288 to R290) -/

/-- The values of a row or column under their scales. -/
def scaledRow (f : MmaFmt) (elem : Nat → FV) (sc : Nat → Nat) : List FV := (List.range (mmaK f)).map fun k => underScale f (sc (k / 32)) (elem k)

/-- The scale bytes that a word gives through selectors. -/
def scaleOf (reg sel k : Nat) : Nat := reg / 256 ^ (sel / 4 ^ k % 4) % 256

theorem scaleByte_eq (reg sel k : Nat) : scaleByte reg sel k = scaleOf reg sel k := by
  rw [scaleByte, scaleOf, bitsN, Nat.add_assoc, Nat.add_sub_cancel_left, show (256 : Nat) = 2 ^ 8 from rfl, ← Nat.pow_mul]

theorem scaled_eq (f : MmaFmt) (elem : Nat → FV) (reg sel : Nat) : scaled f elem reg sel = scaledRow f elem (scaleOf reg sel) := by
  simp only [scaled, scaledRow, underScale, scaleByte_eq]

/-- An accumulator of a lane. -/
def accOf (w : Wave) (f : MmaFmt) (r l j : Nat) : Nat := if mmaWide f then (w.vpair (r + 2 * j) l).toNat else (w.vreg (r + j) l).toNat

/-- What `mma` makes of an accumulator: `scA` and `scB` give the scale words of a lane. -/
def mmaOut (w : Wave) (c : Core) (f : MmaFmt) (r ao bstride selA selB : Nat) (scA scB at' : Nat → Nat) (l j : Nat) : Nat :=
  dotFV (mmaAcc f) (accOf w f r l j) (scaledRow f (aElem f (w.stageRow l ao f.ca)) (scaleOf (scA l) selA))
    (scaledRow f (bElem f (rdSpad c (at' (l / 8) + j * bstride) (mmaCb f))) (scaleOf (scB (8 * (l / 8) + j)) selB))

theorem listGet_map_range {α : Type} (d : α) (g : Nat → α) {n i : Nat} (h : i < n) : listGet d ((List.range n).map g) i = g i := by
  simp [listGet, h]

/-- The results of a quarter. -/
theorem quarter_eq (s : State) (f : MmaFmt) (r bstride ao selA selB : Nat) (scA scB : Nat → Nat) (base : Nat) (bo : Nat → Nat) (act : Mask) {q : Nat}
    (hq : q < 4) :
    s.quarter f r bstride ao selA selB scA scB base ⟨q, act &&& quarterMask q, bo q⟩ = (lanesOf (act &&& quarterMask q)).map fun l =>
      (l, (List.range 8).map (mmaOut s.w (s.core s.cur) f r ao bstride selA selB scA scB (fun q => base + bo q) l)) := by
  refine List.map_congr_left fun l hl => ?_
  obtain ⟨-, rfl⟩ := (mem_quarter hq).mp hl
  refine congrArg (Prod.mk l) (List.map_congr_left fun j hj => ?_)
  rw [listGet_map_range _ _ (List.mem_range.mp hj), scaled_eq, scaled_eq]
  rfl

/-- The results of all quarters. -/
theorem flatMap_quarter (s : State) (f : MmaFmt) (r bstride ao selA selB : Nat) (scA scB : Nat → Nat) (base : Nat) (bo : Nat → Nat) (act : Mask) :
    ((quartersOf act).map fun q => (⟨q, act &&& quarterMask q, bo q⟩ : Quarter)).flatMap (s.quarter f r bstride ao selA selB scA scB base) =
      ((quartersOf act).flatMap fun q => lanesOf (act &&& quarterMask q)).map fun l =>
        (l, (List.range 8).map (mmaOut s.w (s.core s.cur) f r ao bstride selA selB scA scB (fun q => base + bo q) l)) := by
  rw [List.flatMap_map, List.map_flatMap]
  exact List.flatMap_congr fun q hq => quarter_eq s f r bstride ao selA selB scA scB base bo act (mem_quartersOf.mp hq).1

/-- Written results, lane by lane. -/
theorem foldl_setAcc (w : Wave) (wide : Bool) (r : Nat) (f : Nat → Nat → Nat) (ls : List Nat) :
    (ls.map fun l => (l, (List.range 8).map (f l))).foldl
      (fun w x => ((List.range 8).zip x.2).foldl (fun w y => w.setAcc wide r x.1 y.1 y.2) w) w = setLanes w wide r 8 f ls := by
  rw [List.foldl_map, setLanes]
  rfl

end Sys2Proof.Machine

namespace Sys2Proof.Claim
open Sys2Proof Sys2Proof.Machine Sys2Proof.Laws

theorem Runs.modW_setWave {s : State} {core slot : Nat} {w : Wave} (h : Runs s core slot w) (w1 : Wave) (f : Wave → Wave) :
    (s.setWave core slot w1).modW f = s.setWave core slot (f w1) := by
  rw [modW_of_unit (s.setWave core slot w1) core slot w1 f h.unit (by simp), setWave_setWave]

/-- The wave after its results and the scales that it has taken. -/
def mmaWave (w : Wave) (fmt : MmaFmt) (sf : Bool) (r : Nat) (out : Nat → Nat → Nat) (act : Mask) : Wave :=
  let w1 := setLanes w (mmaWide fmt) r 8 out ((quartersOf act).flatMap fun q => lanesOf (act &&& quarterMask q))
  if sf then takeScales w1 (quartersOf act) else w1

/-- Entry `i` of the FIFO of a lane's quarter. -/
def fifoEntry (w : Wave) (i l : Nat) : Nat := (listGet 0 (listGet [] (w.fifo (l / 8)) i) (l % 8)).toNat

/-- What `mma` makes of the accumulators. -/
def mmaNew (w : Wave) (c : Core) (base : Nat) (act : Mask) (fmt : MmaFmt) (sf : Bool) (vC : BitVec 5) (b : MmaB) (bsw : BitVec 13) (aoq : BitVec 3)
    (vA vB : Src) (asel bsel : BitVec 8) : Nat → Nat → Nat :=
  mmaOut w c fmt (8 * vC.toNat) (16 * aoq.toNat) (4 * bsw.toNat) (if sf then idSel else asel.toNat) (if sf then idSel else bsel.toNat)
    (fun l => if sf then fifoEntry w 0 l else w.src false vA l) (fun l => if sf then fifoEntry w 1 l else w.src false vB l)
    (fun q => base + quarterOffset w b (act &&& quarterMask q))

/-- `mma` where every quarter performs. -/
theorem Runs.mma_exec {s : State} {core slot : Nat} {w : Wave} {a : Alloc} (h : Runs s core slot w) (handler : w.handler = none)
    (alloc : (s.core core).alloc w.lid = some a) (present : (s.core core).absent = []) {c : Ctl} (one : s.actSets c.guard = [s.active c.guard])
    (fmt : MmaFmt) (sf : Bool) (vC : BitVec 5) (b : MmaB) (bsw : BitVec 13) (aoq : BitVec 3) (vA vB : Src) (asel bsel : BitVec 8)
    (fine : ∀ q ∈ quartersOf (s.active c.guard), let bo := quarterOffset w b (s.active c.guard &&& quarterMask q)
      (fmt.recs = 0 → bo % 4 = 0) ∧ bo + 7 * (4 * bsw.toNat) + mmaCb fmt ≤ 128 * a.lines ∧
      if sf then 2 ≤ (w.fifo q).length else fmt.recs ≠ 0 → w.fifo q = []) :
    exec (.mma c fmt sf vC b bsw aoq vA vB asel bsel) s = .next ((s.setWave core slot (mmaWave w fmt sf (8 * vC.toNat)
      (mmaNew w (s.core core) (128 * a.base) (s.active c.guard) fmt sf vC b bsw aoq vA vB asel bsel) (s.active c.guard))).finishWave c.rbf 0) := by
  rw [exec_mma, execMma, onWave_wave h.unit, one, List.foldl_cons, List.foldl_nil]
  have quarters := h.quarters_all handler alloc fmt sf b (4 * bsw.toNat) (s.active c.guard) fine
  have here (spans : List (Nat × Nat)) : (s.absentOf spans).isEmpty = true := by
    simp [State.absentOf, h.cur, present]
  simp only [quarters, here, h.spadBase handler alloc, Option.getD_some, Bool.not_true, Bool.false_eq_true, if_false, h.w]
  rw [flatMap_quarter s fmt _ _ _ _ _ _ _ _ (fun q => quarterOffset w b (s.active c.guard &&& quarterMask q))]
  simp only [foldl_setAcc]
  simp only [List.foldl_map, h.modW, h.w, h.cur]
  cases sf
  · rfl
  · rw [if_pos rfl, h.modW_setWave]
    rfl

end Sys2Proof.Claim

namespace Sys2Proof.Machine
open Sys2Proof Sys2Proof.Claim

theorem mmaWide_iff (f : MmaFmt) : mmaWide f = true ↔ f = .f64 := by cases f <;> simp [mmaWide]

theorem mmaAcc_eq (f : MmaFmt) : mmaAcc f = if f = .f64 then fF64 else fF32 := by simp only [mmaAcc, mmaWide_iff]

theorem mmaAcc_arith (f : MmaFmt) : (mmaAcc f).Arith := by
  rw [mmaAcc_eq]
  split
  · exact arith_f64
  · exact arith_f32

theorem accOf_eq (w : Wave) (f : MmaFmt) (r l j : Nat) :
    accOf w f r l j = if f = .f64 then (w.vpair (r + 2 * j) l).toNat else (w.vreg (r + j) l).toNat := by simp only [accOf, mmaWide_iff]

theorem accOf_lt (w : Wave) (f : MmaFmt) (r l j : Nat) : accOf w f r l j < 2 ^ (mmaAcc f).width := by
  rw [accOf, mmaAcc]
  cases mmaWide f <;> exact BitVec.isLt _

/-- Selectors in their order name byte `k` for block `k`. -/
theorem scaleOf_idSel (reg : Nat) {k : Nat} (h : k < 4) : scaleOf reg idSel k = reg / 256 ^ k % 256 := by
  have order : ∀ k < 4, idSel / 4 ^ k % 4 = k := by decide
  rw [scaleOf, order k h]

theorem block_lt {f : MmaFmt} {k : Nat} (h : k < mmaK f) : k / 32 < 4 := by
  have : mmaK f ≤ 128 := by cases f <;> decide
  omega

/-- **`mma` adds the exact products of a row and a column.** -/
theorem mmaOut_dotsTo (w : Wave) (c : Core) (f : MmaFmt) (r ao bstride selA selB : Nat) (scA scB at' : Nat → Nat) (l j : Nat) {sa sb : Nat → Nat}
    (ha : ∀ k < 4, scaleOf (scA l) selA k = sa k) (hb : ∀ k < 4, scaleOf (scB (8 * (l / 8) + j)) selB k = sb k) :
    DotsTo (mmaAcc f) (accOf w f r l j) ((List.range (matFmt f).k).map fun k =>
      (rowFactor f (fun i => mget 0 w.stage (l * 128 + ao + i)) sa k,
        colFactor f (fun i => mget 0 c.spad (at' (l / 8) + j * bstride + i)) sb k)) (mmaOut w c f r ao bstride selA selB scA scB at' l j) := by
  obtain ⟨-, -, deep, -, -⟩ := matFmt_model f
  rw [deep]
  refine dotFV_dotsTo (mmaAcc_arith f) (accOf_lt ..) (fun k hk => ?_) fun k hk => ?_
  · have hk := List.mem_range.mp hk
    rw [ha _ (block_lt hk)]
    exact aElem_means f _ sa hk
  · have hk := List.mem_range.mp hk
    rw [hb _ (block_lt hk)]
    exact bElem_means f _ sb hk

end Sys2Proof.Machine

namespace Sys2Proof.Claim
open Sys2Proof Sys2Proof.Machine

section
variable (w : Wave) (fmt : MmaFmt) (sf : Bool) (r : Nat) (out : Nat → Nat → Nat) (act : Mask)

theorem mmaWave_rest : { mmaWave w fmt sf r out act with v := w.v, sfifo := w.sfifo } = w := by
  obtain ⟨v, hv⟩ := setLanes_only w (mmaWide fmt) r 8 out ((quartersOf act).flatMap fun q => lanesOf (act &&& quarterMask q))
  rw [mmaWave, hv]
  cases sf
  · rfl
  · obtain ⟨f, hf⟩ := takeScales_rest { w with v := v } (quartersOf act)
    rw [if_pos rfl, hf]

theorem mmaWave_ended : (mmaWave w fmt sf r out act).ended = w.ended := (congrArg Wave.ended (mmaWave_rest w fmt sf r out act) : _)

theorem mmaWave_vreg (n : Nat) {m : Nat} (hm : m < 32) :
    (mmaWave w fmt sf r out act).vreg n m = if hasLane act m = true ∧ r ≤ n ∧ n < r + 8 * accRegs (mmaWide fmt) then
      BitVec.ofNat 32 (out m ((n - r) / accRegs (mmaWide fmt)) / 2 ^ (32 * ((n - r) % accRegs (mmaWide fmt)))) else w.vreg n m := by
  have scales (w1 : Wave) : (if sf then takeScales w1 (quartersOf act) else w1).vreg n m = w1.vreg n m := by
    cases sf
    · rfl
    · obtain ⟨f, hf⟩ := takeScales_rest w1 (quartersOf act)
      rw [if_pos rfl, hf]
      rfl
  have lanes : ∀ l ∈ (quartersOf act).flatMap fun q => lanesOf (act &&& quarterMask q), l < 32 := fun l hl =>
    ((mem_lanesOf act l).mp (mem_lanes_quarters.mp hl)).1
  rw [mmaWave, scales, setLanes_vreg w _ r 8 out n lanes hm]
  simp only [mem_lanes_quarters, mem_lanesOf, hm, true_and]

theorem mmaWave_fifo {q : Nat} (hq : q < 4) :
    (mmaWave w fmt sf r out act).fifo q = if sf = true ∧ act &&& quarterMask q ≠ 0 then (w.fifo q).drop 2 else w.fifo q := by
  obtain ⟨v, hv⟩ := setLanes_only w (mmaWide fmt) r 8 out ((quartersOf act).flatMap fun q => lanesOf (act &&& quarterMask q))
  rw [mmaWave, hv]
  cases sf
  · rfl
  · rw [if_pos rfl, takeScales_fifo _ (nodup_quartersOf act) hq]
    simp only [mem_quartersOf, hq, true_and]
    rfl

end

/-- The scale bytes that the operands of a lane give. -/
def scaleBytes (sf : Bool) (entry reg sel k : Nat) : Nat := if sf then entry / 256 ^ k % 256 else reg / 256 ^ (sel / 4 ^ k % 4) % 256

theorem scaleOf_operand (sf : Bool) (entry reg sel : Nat) :
    ∀ k < 4, scaleOf (if sf then entry else reg) (if sf then idSel else sel) k = scaleBytes sf entry reg sel k := by
  intro k hk
  cases sf
  · rfl
  · exact scaleOf_idSel entry hk

theorem mmaNew_dotsTo (w : Wave) (c : Core) (base : Nat) (act : Mask) (fmt : MmaFmt) (sf : Bool) (vC : BitVec 5) (b : MmaB) (bsw : BitVec 13)
    (aoq : BitVec 3) (vA vB : Src) (asel bsel : BitVec 8) (l j : Nat) :
    DotsTo (if fmt = .f64 then fF64 else fF32) (accOf w fmt (8 * vC.toNat) l j) ((List.range (matFmt fmt).k).map fun k =>
      (rowFactor fmt (fun i => mget 0 w.stage (128 * l + 16 * aoq.toNat + i)) (scaleBytes sf (fifoEntry w 0 l) (w.src false vA l) asel.toNat) k,
        colFactor fmt (fun i => mget 0 c.spad (base + quarterOffset w b (act &&& quarterMask (l / 8)) + j * (4 * bsw.toNat) + i))
          (scaleBytes sf (fifoEntry w 1 (l / 8 * 8 + j)) (w.src false vB (l / 8 * 8 + j)) bsel.toNat) k))
      (mmaNew w c base act fmt sf vC b bsw aoq vA vB asel bsel l j) := by
  have dots := mmaOut_dotsTo w c fmt (8 * vC.toNat) (16 * aoq.toNat) (4 * bsw.toNat) (if sf then idSel else asel.toNat)
    (if sf then idSel else bsel.toNat) (fun l => if sf then fifoEntry w 0 l else w.src false vA l)
    (fun l => if sf then fifoEntry w 1 l else w.src false vB l) (fun q => base + quarterOffset w b (act &&& quarterMask q)) l j
    (scaleOf_operand sf _ _ _) (scaleOf_operand sf _ _ _)
  rw [mmaAcc_eq] at dots
  rw [Nat.mul_comm 128 l, Nat.mul_comm (l / 8) 8]
  exact dots

/-- Settles O36: `mma` is one rounded dot product an accumulator (`mmaOut_dotsTo`), written on the lanes of the quarters (`mmaWave_vreg`). -/
theorem matrixProducts : Obligations.MatrixProducts := by
  unfold Obligations.MatrixProducts
  intro c fmt sf vC b bsw aoq vA vB asel bsel s core slot w a h handler alloc present one act m step bo entry byte scA scB row col products k old fine
  obtain ⟨-, -, -, recs, cb⟩ := matFmt_model fmt
  have regs : accRegs (mmaWide fmt) = k := by simp only [accRegs, mmaWide_iff, k]
  have quarterFine : ∀ q ∈ quartersOf act, let bo := quarterOffset w b (act &&& quarterMask q)
      (fmt.recs = 0 → bo % 4 = 0) ∧ bo + 7 * (4 * bsw.toNat) + mmaCb fmt ≤ 128 * a.lines ∧
      if sf then 2 ≤ (w.fifo q).length else fmt.recs ≠ 0 → w.fifo q = [] := by
    intro q hq
    obtain ⟨hq, some'⟩ := mem_quartersOf.mp hq
    obtain ⟨hl, here⟩ := (mem_quarter hq).mp (lowLane_mem some')
    generalize lowLane (act &&& quarterMask q) = l at hl here
    subst here
    have := fine _ hl
    rw [← recs, ← cb]
    exact this
  have exec := h.mma_exec handler alloc present one fmt sf vC b bsw aoq vA vB asel bsel quarterFine
  have dots (l j : Nat) := accOf_eq w fmt (8 * vC.toNat) l j ▸ mmaNew_dotsTo w (s.core core) (128 * a.base) act fmt sf vC b bsw aoq vA vB asel bsel l j
  have written := mmaWave_vreg w fmt sf (8 * vC.toNat) (mmaNew w (s.core core) (128 * a.base) act fmt sf vC b bsw aoq vA vB asel bsel) act
  rw [regs] at written
  exact ⟨_, _, mmaNew w (s.core core) (128 * a.base) act fmt sf vC b bsw aoq vA vB asel bsel, exec, h.finish_setWave (mmaWave_ended ..) _ _,
    mmaWave_rest .., fun l _ j _ => dots l j, written, fun q hq => mmaWave_fifo w fmt sf _ _ act hq⟩

end Sys2Proof.Claim

namespace Sys2Proof.Machine
open Sys2Proof Sys2Proof.Claim

/-! # The scale of a block (R143) -/

/-- One step of the search for the greatest exponent. -/
def topStep (t : Option Int) (v : FV) : Option Int :=
  match v with
  | .fin _ m e =>
    if m == 0 then t else
      let k := (Nat.log2 m : Int) + e
      (match t with | some a => some (max a k) | none => some k)
  | _ => t

theorem blockScale_eq (emax : Int) (vs : List FV) :
    blockScale emax vs = if vs.any (fun v => v.isNan || v.isInf) then 255
      else match vs.foldl topStep none with
        | none => 127
        | some k => (min (max (k - emax + 127) 0) 254).toNat := rfl

/-- The greatest exponent of the values seen; none while all are zero. -/
def Topmost (seen : List FV) : Option Int → Prop
  | none => ∀ v ∈ seen, v.val = 0
  | some k => (∃ v ∈ seen, (2 : ℚ) ^ k ≤ |v.val|) ∧ ∀ v ∈ seen, |v.val| < 2 ^ (k + 1)

theorem abs_val_fin (n : Bool) (m : Nat) (e : Int) : |(FV.fin n m e).val| = m * 2 ^ e := by
  have unit : (0 : ℚ) < 2 ^ e := zpow_pos (by norm_num) _
  cases n <;> simp [FV.val, abs_mul, abs_of_pos unit]

/-- The exponent of a number that is not zero. -/
theorem exponent_bounds (n : Bool) {m : Nat} (h : m ≠ 0) (e : Int) :
    (2 : ℚ) ^ ((Nat.log2 m : Int) + e) ≤ |(FV.fin n m e).val| ∧ |(FV.fin n m e).val| < 2 ^ ((Nat.log2 m : Int) + e + 1) := by
  have unit : (0 : ℚ) < 2 ^ e := zpow_pos (by norm_num) _
  rw [abs_val_fin, add_right_comm, zpow_add₀ (by norm_num), zpow_add₀ (by norm_num)]
  refine ⟨mul_le_mul_of_nonneg_right ?_ unit.le, mul_lt_mul_of_pos_right ?_ unit⟩
  · rw [zpow_natCast]
    exact_mod_cast Nat.log2_self_le h
  · rw [show (Nat.log2 m : Int) + 1 = ((Nat.log2 m + 1 : Nat) : Int) by push_cast; rfl, zpow_natCast]
    exact_mod_cast Nat.lt_log2_self

theorem topStep_topmost {seen : List FV} {t : Option Int} (h : Topmost seen t) (n : Bool) (m : Nat) (e : Int) :
    Topmost (seen ++ [.fin n m e]) (topStep t (.fin n m e)) := by
  by_cases zero : m = 0
  · have val : (FV.fin n m e).val = 0 := val_eq_zero.mpr zero
    rw [topStep, if_pos (beq_iff_eq.mpr zero)]
    cases t with
    | none => simpa [Topmost, or_imp, forall_and, val] using h
    | some k =>
      obtain ⟨⟨v, hv, low⟩, high⟩ := h
      refine ⟨⟨v, List.mem_append_left _ hv, low⟩, fun u hu => ?_⟩
      rcases List.mem_append.mp hu with hu | hu
      · exact high u hu
      · rw [List.mem_singleton.mp hu, val, abs_zero]
        positivity
  · obtain ⟨low, high⟩ := exponent_bounds n zero e
    have grow {j k : Int} (le : j ≤ k) : (2 : ℚ) ^ (j + 1) ≤ 2 ^ (k + 1) := zpow_le_zpow_right₀ (by norm_num) (by omega)
    simp only [topStep, beq_eq_false_iff_ne.mpr zero, Bool.false_eq_true, if_false]
    generalize (Nat.log2 m : Int) + e = k at low high
    cases t with
    | none =>
      refine ⟨⟨_, List.mem_append_right _ List.mem_cons_self, low⟩, fun u hu => ?_⟩
      rcases List.mem_append.mp hu with hu | hu
      · rw [h u hu, abs_zero]
        positivity
      · exact List.mem_singleton.mp hu ▸ high
    | some j =>
      obtain ⟨⟨v, hv, low'⟩, high'⟩ := h
      refine ⟨?_, fun u hu => ?_⟩
      · rcases le_total j k with le | le
        · exact ⟨_, List.mem_append_right _ List.mem_cons_self, (max_eq_right le).symm ▸ low⟩
        · exact ⟨v, List.mem_append_left _ hv, (max_eq_left le).symm ▸ low'⟩
      · rcases List.mem_append.mp hu with hu | hu
        · exact (high' u hu).trans_le (grow (le_max_left j k))
        · exact List.mem_singleton.mp hu ▸ high.trans_le (grow (le_max_right j k))

theorem foldl_topmost {vs seen : List FV} {t : Option Int} (h : Topmost seen t) (numbers : ∀ v ∈ vs, ∃ n m e, v = .fin n m e) :
    Topmost (seen ++ vs) (vs.foldl topStep t) := by
  induction vs generalizing seen t with
  | nil => simpa using h
  | cons v vs ih =>
    obtain ⟨n, m, e, rfl⟩ := numbers v List.mem_cons_self
    simpa using ih (topStep_topmost h n m e) fun u hu => numbers u (List.mem_cons_of_mem _ hu)

section
variable {g : NumFmt} (proper : g.Proper)
include proper

theorem decode_special {x : Nat} (h : x < 2 ^ g.width) : ((g.decode x).isNan || (g.decode x).isInf) = true ↔ IsNaN g x ∨ IsInf g x := by
  have means := decode_means proper h
  rw [Bool.or_eq_true_iff, means.nan]
  by_cases nan : IsNaN g x
  · exact iff_of_true (.inl nan) (.inl nan)
  · rw [means.inf nan]
    rfl

theorem val_decode {x : Nat} (num : IsNum g x) : (g.decode x).val = value g x := (decode_means proper num.1).val num.2.1 num.2.2

/-- **The scale of a block.** -/
theorem blockScale_spec (emax : Int) {xs : List Nat} (enc : ∀ x ∈ xs, x < 2 ^ g.width) : BlockScale emax g xs (blockScale emax (xs.map g.decode)) := by
  have special : (xs.map g.decode).any (fun v => v.isNan || v.isInf) = true ↔ ∃ x ∈ xs, IsNaN g x ∨ IsInf g x := by
    rw [List.any_map, List.any_eq_true]
    exact exists_congr fun x => and_congr_right fun hx => decode_special proper (enc x hx)
  rw [blockScale_eq]
  by_cases bad : ∃ x ∈ xs, IsNaN g x ∨ IsInf g x
  · rw [if_pos (special.mpr bad)]
    obtain ⟨x, hx, k⟩ := bad
    refine ⟨fun _ => rfl, fun zeros => ?_, fun numbers => ?_⟩
    · exact absurd (isNum_of_isZero proper (zeros x hx)) fun num => k.elim num.2.1 num.2.2
    · exact absurd (numbers x hx) fun num => k.elim num.2.1 num.2.2
  · have numbers : ∀ x ∈ xs, IsNum g x := fun x hx => ⟨enc x hx, fun k => bad ⟨x, hx, .inl k⟩, fun k => bad ⟨x, hx, .inr k⟩⟩
    rw [if_neg (special.not.mpr bad)]
    have top := foldl_topmost (vs := xs.map g.decode) (seen := []) (t := none) (fun v hv => absurd hv List.not_mem_nil) fun v hv => by
      obtain ⟨x, hx, rfl⟩ := List.mem_map.mp hv
      exact ⟨_, _, _, decode_num proper (numbers x hx)⟩
    rw [List.nil_append] at top
    have val (x : Nat) (hx : x ∈ xs) : (g.decode x).val = value g x := val_decode proper (numbers x hx)
    refine ⟨fun k => absurd k bad, fun zeros => ?_, fun _ some' => ?_⟩
    · cases h : (xs.map g.decode).foldl topStep none with
      | none => rfl
      | some k =>
        rw [h] at top
        obtain ⟨⟨v, hv, low⟩, -⟩ := top
        obtain ⟨x, hx, rfl⟩ := List.mem_map.mp hv
        rw [val x hx, (isZero_iff (enc x hx)).mp (zeros x hx), abs_zero] at low
        exact absurd low (not_le.mpr (zpow_pos (by norm_num) k))
    · cases h : (xs.map g.decode).foldl topStep none with
      | none =>
        rw [h] at top
        obtain ⟨x, hx, nonzero⟩ := some'
        exact absurd ((val x hx).symm.trans (top _ (List.mem_map_of_mem hx))) (mt (isZero_iff (enc x hx)).mpr nonzero)
      | some k =>
        rw [h] at top
        obtain ⟨⟨v, hv, low⟩, high⟩ := top
        obtain ⟨x, hx, rfl⟩ := List.mem_map.mp hv
        refine ⟨k, ⟨x, hx, val x hx ▸ low⟩, fun y hy => val y hy ▸ high _ (List.mem_map_of_mem hy), ?_⟩
        dsimp only
        rw [Int.toNat_of_nonneg (le_min (le_max_right _ _) (by norm_num)), min_def, min_def, max_def, max_def]
        split_ifs <;> omega

end

/-! # Packed elements (R140) -/

/-- The sum that packs elements of `w` bits. -/
def packed (a : Nat → Nat) (w n : Nat) : Nat := ((List.range n).map fun j => a j * 2 ^ (j * w)).foldl (· + ·) 0

theorem packed_succ (a : Nat → Nat) (w n : Nat) : packed a w (n + 1) = packed a w n + a n * 2 ^ (n * w) := by
  simp [packed, List.range_succ]

theorem packed_lt {a : Nat → Nat} {w n : Nat} (small : ∀ j < n, a j < 2 ^ w) : packed a w n < 2 ^ (n * w) := by
  induction n with
  | zero => simp [packed]
  | succ n ih =>
    have rest := ih fun j hj => small j (by omega)
    have top : (a n + 1) * 2 ^ (n * w) ≤ 2 ^ w * 2 ^ (n * w) := Nat.mul_le_mul_right _ (small n (by omega))
    rw [packed_succ, Nat.add_mul n, Nat.one_mul, Nat.pow_add, Nat.mul_comm (2 ^ (n * w))]
    rw [Nat.add_mul, Nat.one_mul] at top
    omega

theorem packed_field {a : Nat → Nat} {w n : Nat} (small : ∀ j < n, a j < 2 ^ w) {j : Nat} (hj : j < n) : packed a w n / 2 ^ (j * w) % 2 ^ w = a j := by
  induction n with
  | zero => omega
  | succ n ih =>
    have unit := Nat.two_pow_pos (j * w)
    rw [packed_succ]
    rcases Nat.lt_succ_iff_lt_or_eq.mp hj with lt | rfl
    · have split : 2 ^ (n * w) = 2 ^ (j * w) * (2 ^ w * 2 ^ ((n - j - 1) * w)) := by
        rw [← Nat.pow_add, ← Nat.pow_add]
        congr 1
        obtain ⟨i, rfl⟩ := Nat.exists_eq_add_of_lt lt
        rw [show j + i + 1 - j - 1 = i by omega]
        ring
      rw [split, Nat.mul_left_comm, Nat.add_mul_div_left _ _ unit, Nat.mul_left_comm, Nat.add_mul_mod_self_left]
      exact ih (fun i hi => small i (by omega)) lt
    · rw [Nat.mul_comm (a j), Nat.add_mul_div_left _ _ unit, Nat.div_eq_of_lt (packed_lt fun i hi => small i (by omega)), Nat.zero_add]
      exact Nat.mod_eq_of_lt (small j (by omega))

/-! # Rows of bytes (R295) -/

/-- A byte of parts of one length. -/
theorem listGet_flatMap {d : Byte} {f : Nat → List Byte} {k n : Nat} (len : ∀ j, (f j).length = k) {i : Nat} (hi : i < n * k) :
    listGet d ((List.range n).flatMap f) i = listGet d (f (i / k)) (i % k) := by
  induction n with
  | zero => omega
  | succ n ih =>
    have whole : ((List.range n).flatMap f).length = n * k := by simp [List.length_flatMap, len]
    rw [List.range_succ, List.flatMap_append, listGet]
    by_cases lt : i < n * k
    · rw [List.getD_append _ _ _ _ (whole ▸ lt)]
      exact ih lt
    · obtain ⟨r, rfl⟩ := Nat.exists_eq_add_of_le (not_lt.mp lt)
      have small : r < k := by rw [Nat.add_mul, Nat.one_mul] at hi; omega
      rw [List.getD_append_right _ _ _ _ (by omega), whole, Nat.add_sub_cancel_left, Nat.add_comm, Nat.add_mul_div_right _ _ (by omega),
        Nat.div_eq_of_lt small, Nat.zero_add, Nat.add_mul_mod_self_right, Nat.mod_eq_of_lt small]
      simp [listGet]

theorem fieldAt_congr {b b' : Nat → Byte} {bit bit' w : Nat}
    (same : ∀ i < w, (b ((bit + i) / 8)).getLsbD ((bit + i) % 8) = (b' ((bit' + i) / 8)).getLsbD ((bit' + i) % 8)) :
    fieldAt b bit w = fieldAt b' bit' w := by
  rw [fieldAt, fieldAt]
  exact congrArg List.sum (List.map_congr_left fun i hi => by rw [same i (List.mem_range.mp hi)])

/-- An element of a row of whole bytes. -/
theorem fieldAt_row {f : Nat → Nat} {k n j : Nat} (hj : j < n) (small : f j < 2 ^ (8 * k)) :
    fieldAt (listGet 0 ((List.range n).flatMap fun j => toBytes k (f j))) (j * (8 * k)) (8 * k) = f j := by
  have le : (j + 1) * k ≤ n * k := Nat.mul_le_mul_right k hj
  rw [Nat.add_mul, Nat.one_mul] at le
  have part : fieldAt (listGet 0 ((List.range n).flatMap fun j => toBytes k (f j))) (j * (8 * k)) (8 * k) =
      fieldAt (listGet 0 (toBytes k (f j))) 0 (8 * k) := by
    refine fieldAt_congr fun i hi => ?_
    have at' : (j * (8 * k) + i) / 8 = i / 8 + j * k := by
      rw [show j * (8 * k) = 8 * (j * k) by ring]
      omega
    have bit : (j * (8 * k) + i) % 8 = i % 8 := by
      rw [show j * (8 * k) = 8 * (j * k) by ring]
      omega
    have inside : i / 8 < k := by omega
    rw [at', bit, listGet_flatMap (fun j => length_toBytes k (f j)) (by omega), Nat.add_mul_div_right _ _ (by omega), Nat.div_eq_of_lt inside,
      Nat.zero_add, Nat.add_mul_mod_self_right, Nat.mod_eq_of_lt inside, Nat.zero_add]
  rw [part, fieldAt_toBytes _ (by omega), Nat.pow_zero, Nat.div_one, Nat.mod_eq_of_lt small]

end Sys2Proof.Machine

namespace Sys2Proof.Machine
open Sys2Proof Sys2Proof.Claim

/-! # The row that `mst` stores (R143 to R146, R295, R296) -/

theorem storedFmt_eq (f : MstFmt) : storedFmt f = mstNum f := by cases f <;> rfl

theorem storedEmax_eq (f : MstFmt) : storedEmax f = if f.blocked then some (mstEmax f) else none := by cases f <;> rfl

theorem mstNum_proper (f : MstFmt) : (mstNum f).Proper := by cases f <;> exact ⟨by decide, by decide⟩

theorem mstNum_plain {f : MstFmt} (h : f.blocked = false) : (mstNum f).nan = true ∧ 8 * ((mstNum f).width / 8) = (mstNum f).width := by
  cases f <;> simp_all [MstFmt.blocked, mstNum, NumFmt.width, fF64, fF32, fBF16, fF16, fE5M2, fE4M3]

section
variable {g : NumFmt} (proper : g.Proper)
include proper

/-- A conversion of an encoding (R144 to R146). -/
theorem round_decode {h : NumFmt} (target : h.Proper) (nans : h.nan = true) (mode : RMode) (draw : Nat) (sat : Bool) {x : Nat} (hx : x < 2 ^ g.width) :
    let r := h.round mode draw sat (g.decode x)
    (IsNaN g x → r = h.dnan) ∧ (IsInf g x → r = infinityIn h sat (negative g x)) ∧ (IsZero g x → r = h.sign (negative g x) 0) ∧
    (IsNum g x → ¬IsZero g x → RoundsTo h h.mb mode draw sat (value g x) r) := by
  obtain ⟨nan, inf, num⟩ := round_means mode draw sat target nans (decode_means proper hx)
  refine ⟨nan, fun k => ?_, fun k => ?_, fun k nonzero => ?_⟩
  · exact inf (fun n => (kinds proper hx).elim (fun a => a.2.1 k) fun a => a.elim (fun a => a.1 n) fun a => a.2.1 k) k
  · obtain ⟨-, nn, ni⟩ := isNum_of_isZero proper k
    exact (num nn ni).2 ((isZero_iff hx).mp k)
  · exact_mod_cast (num k.2.1 k.2.2).1 (mt (isZero_iff hx).mpr nonzero)

omit proper in
/-- The value of an element under a scale. -/
theorem val_scaled (g : NumFmt) (x sc : Nat) :
    (FV.fin (negative g x) (significand g x) (placeOf g x + 127 - sc)).val = value g x * 2 ^ (127 - (sc : Int)) := by
  rw [FV.val, value_eq, mul_assoc _ ((2 : ℚ) ^ placeOf g x), ← zpow_add₀ (by norm_num), add_sub_assoc]

/-- An element under a scale that is no NaN. -/
theorem blockElem_spec {h : NumFmt} (target : h.Proper) (mode : RMode) (draw : Nat) {sc : Nat} (fine : sc ≠ 255) {x : Nat} (num : IsNum g x) :
    let r := blockElem h mode draw sc false (g.decode x)
    (IsZero g x → r = h.sign (negative g x) 0) ∧
    (¬IsZero g x → RoundsTo h h.mb mode draw true (value g x * 2 ^ (127 - (sc : Int)) : ℚ) r) ∧ r < 2 ^ h.width := by
  have elem : blockElem h mode draw sc false (g.decode x) =
      h.round mode draw true (.fin (negative g x) (significand g x) (placeOf g x + 127 - sc)) := by
    rw [decode_num proper num, blockElem, if_neg (by simpa using fine)]
    dsimp only
    rw [if_neg (not_lt.mpr (round_fin_sat ..))]
  have zero : IsZero g x ↔ (FV.fin (negative g x) (significand g x) (placeOf g x + 127 - sc)).val = 0 := by
    rw [val_eq_zero, isZero_iff num.1, value_eq]
    exact val_eq_zero (n := negative g x) (e := placeOf g x)
  dsimp only
  rw [elem]
  refine ⟨fun k => round_zero mode draw true _ _ (zero.mp k), fun k => ?_, round_fin_lt target ..⟩
  rw [← val_scaled]
  exact round_fin mode draw true target _ _ _ (mt zero.mpr k)

omit proper in
/-- Elements of a block that is stored as zeros. -/
theorem blockElem_none (h : NumFmt) (mode : RMode) (draw sc : Nat) (zeros : Bool) (v : FV) (none' : sc = 255 ∨ zeros = true) :
    blockElem h mode draw sc zeros v = 0 := by
  unfold blockElem
  exact if_pos (by simpa using none')

/-- **The row that `mst` stores.** -/
theorem mstBytes_stored (f : MstFmt) (mode : RMode) (sat : Bool) (draw : Nat → Nat) {block xs : List Nat} (encBlock : ∀ x ∈ block, x < 2 ^ g.width)
    (enc : ∀ x ∈ xs, x < 2 ^ g.width) (own : ∀ x ∈ xs, x ∈ block) (full : f.blocked = true → xs.length = 32) :
    RowStored f g mode sat draw block xs (listGet 0 (mstBytes f mode sat draw (block.map g.decode) (xs.map g.decode))) := by
  have proper' := mstNum_proper f
  have elem {j x : Nat} (hx : xs[j]? = some x) : j < xs.length ∧ listGet .nan (xs.map g.decode) j = g.decode x ∧ x ∈ xs := by
    obtain ⟨lt, rfl⟩ := List.getElem?_eq_some_iff.mp hx
    exact ⟨lt, by simp [listGet, lt], List.getElem_mem lt⟩
  rw [RowStored, storedEmax_eq, storedFmt_eq, mstBytes]
  cases blocked : f.blocked
  · obtain ⟨nans, whole⟩ := mstNum_plain blocked
    simp only [Bool.false_eq_true, if_false, List.length_map]
    intro j x hx
    obtain ⟨lt, value, mem⟩ := elem hx
    have field : fieldAt (listGet 0 ((List.range xs.length).flatMap fun j =>
        toBytes ((mstNum f).width / 8) ((mstNum f).round mode (draw j) sat (listGet .nan (xs.map g.decode) j)))) (j * (mstNum f).width) (mstNum f).width =
        (mstNum f).round mode (draw j) sat (g.decode x) := by
      have := fieldAt_row (f := fun j => (mstNum f).round mode (draw j) sat (listGet .nan (xs.map g.decode) j)) (k := (mstNum f).width / 8) lt
        (by rw [whole]; exact round_lt proper' nans ..)
      rw [whole, value] at this
      exact this
    rw [field]
    exact round_decode proper proper' nans mode (draw j) sat (enc x mem)
  · simp only [if_true, List.length_map]
    have scale := blockScale_spec proper (mstEmax f) encBlock
    generalize blockScale (mstEmax f) (block.map g.decode) = sc at scale
    have zeros : (block.map g.decode).all FV.isZero = true ↔ ∀ y ∈ block, IsZero g y := by
      rw [List.all_map, List.all_eq_true]
      exact forall₂_congr fun y hy => (decode_means proper (encBlock y hy)).isZero.trans (factorOf_isZero proper (encBlock y hy))
    generalize (block.map g.decode).all FV.isZero = zero at zeros
    have number (fine : sc ≠ 255) (x : Nat) (hx : x ∈ xs) : IsNum g x :=
      ⟨enc x hx, fun k => fine (scale.1 ⟨x, own x hx, .inl k⟩), fun k => fine (scale.1 ⟨x, own x hx, .inr k⟩)⟩
    have spec (fine : sc ≠ 255) (some' : zero ≠ true) (j x : Nat) (hx : x ∈ xs) :=
      blockElem_spec proper proper' mode (draw j) fine (number fine x hx)
    have small (j x : Nat) (hx : x ∈ xs) : blockElem (mstNum f) mode (draw j) sc zero (g.decode x) < 2 ^ (mstNum f).width := by
      by_cases none' : sc = 255 ∨ zero = true
      · rw [blockElem_none _ _ _ _ _ _ none']
        exact Nat.two_pow_pos _
      · obtain ⟨fine, some'⟩ := not_or.mp none'
        rw [Bool.not_eq_true _ |>.mp some']
        exact (spec fine some' j x hx).2.2
    refine ⟨sc, scale, rfl, fun j x hx => ?_⟩
    obtain ⟨lt, -, -⟩ := elem hx
    have element (i : Nat) (hi : i < xs.length) : listGet 0 ((List.range xs.length).map fun j =>
        blockElem (mstNum f) mode (draw j) sc zero (listGet .nan (xs.map g.decode) j)) i = blockElem (mstNum f) mode (draw i) sc zero (g.decode xs[i]) := by
      rw [listGet_map_range _ _ hi, (elem (List.getElem?_eq_getElem hi)).2.1]
    have field := packed_field (a := listGet 0 ((List.range xs.length).map fun j =>
      blockElem (mstNum f) mode (draw j) sc zero (listGet .nan (xs.map g.decode) j))) (w := (mstNum f).width) (n := xs.length) (fun i hi => by
      rw [element i hi]
      exact small i _ (List.getElem_mem hi)) lt
    have inside : j * (mstNum f).width + (mstNum f).width ≤ 8 * (4 * (mstNum f).width) := by
      rw [full blocked] at lt
      nlinarith
    obtain ⟨-, rfl⟩ := List.getElem?_eq_some_iff.mp hx
    rw [element j lt, ← fieldAt_toBytes _ inside, packed] at field
    have skip (a : Byte) (l : List Byte) : (fun i => listGet 0 (a :: l) (1 + i)) = listGet 0 l := funext fun i => by
      rw [Nat.add_comm]
      rfl
    rw [skip, field]
    refine ⟨fun k => blockElem_none _ _ _ _ _ _ (k.imp_right zeros.mpr), fun fine k => ?_⟩
    have some' := zeros.not.mpr k
    obtain ⟨zero', rounds, -⟩ := spec fine some' j _ (List.getElem_mem lt)
    rw [Bool.not_eq_true _ |>.mp some']
    exact ⟨zero', rounds⟩

end

end Sys2Proof.Machine

namespace Sys2Proof.Machine
open Sys2Proof Sys2Proof.Claim

/-! # Rows in the scratchpad (R82, R295) -/

theorem mget_write (m : Map Byte) (a : Nat) (bs : List Byte) (n y : Nat) :
    mget 0 ((List.range n).foldl (fun m i => mset 0 m (a + i) (listGet 0 bs i)) m) y =
      if a ≤ y ∧ y < a + n then listGet 0 bs (y - a) else mget 0 m y := by
  induction n with
  | zero => rw [if_neg (by omega)]; rfl
  | succ n ih =>
    rw [List.range_succ, List.foldl_append, List.foldl_cons, List.foldl_nil, mget_mset, ih]
    by_cases here : y = a + n
    · rw [if_pos here, if_pos (by omega), here, Nat.add_sub_cancel_left]
    · rw [if_neg here]
      by_cases before : a ≤ y ∧ y < a + n
      · rw [if_pos before, if_pos (by omega)]
      · rw [if_neg before, if_neg (by omega)]

theorem wrSpad_spad (c : Core) (a : Nat) (bs : List Byte) (y : Nat) :
    mget 0 (c.wrSpad a bs).spad y = if a ≤ y ∧ y < a + bs.length then listGet 0 bs (y - a) else mget 0 c.spad y := mget_write ..

/-- The lines that some bytes touch. -/
theorem mem_spadLines {core a n : Nat} (pos : 0 < n) (line : Nat) :
    line ∈ (spadLines core a n).map Prod.snd ↔ 128 * line < a + n ∧ a < 128 * line + 128 := by
  rw [spadLines, if_neg (by simpa using pos.ne'), List.map_map, List.mem_map]
  simp only [List.mem_range, Function.comp_apply]
  constructor
  · rintro ⟨i, hi, rfl⟩
    omega
  · rintro ⟨high, low⟩
    exact ⟨line - a / 128, by omega, by omega⟩

/-- A row of bytes, stored; its lines made present. -/
def storeRow (core : Nat) (pset : Bool) (a : Nat) (bs : List Byte) (c : Core) : Core :=
  let c := c.wrSpad a bs
  if pset then (spadLines core a bs.length).foldl (fun c x => c.setPresent x.2 true) c else c

theorem setPresents_eq (ls : List (Nat × Nat)) (c : Core) :
    ls.foldl (fun c x => c.setPresent x.2 true) c = { c with absent := c.absent.filter fun line => line ∉ ls.map Prod.snd } := by
  induction ls generalizing c with
  | nil => simp
  | cons x ls ih =>
    rw [List.foldl_cons, ih]
    simp only [Core.setPresent, if_true, List.filter_filter]
    congr 1
    refine List.filter_congr fun line _ => ?_
    simp only [List.map_cons, List.mem_cons, not_or, Bool.decide_and, Bool.and_comm (decide (line ≠ x.2))]
    exact congrArg _ (Bool.eq_iff_iff.mpr (by simp))

theorem storeRow_eq (core : Nat) (pset : Bool) (a : Nat) (bs : List Byte) (c : Core) :
    storeRow core pset a bs c = { c with
      spad := (c.wrSpad a bs).spad
      absent := if pset then c.absent.filter fun line => line ∉ (spadLines core a bs.length).map Prod.snd else c.absent } := by
  cases pset
  · rfl
  · rw [storeRow, if_pos rfl, setPresents_eq]
    rfl

theorem mem_storeRow_absent {core : Nat} {pset : Bool} {a : Nat} {bs : List Byte} (pos : 0 < bs.length) (c : Core) (line : Nat) :
    line ∈ (storeRow core pset a bs c).absent ↔ line ∈ c.absent ∧ ¬(pset = true ∧ 128 * line < a + bs.length ∧ a < 128 * line + 128) := by
  rw [storeRow_eq, ← mem_spadLines (core := core) pos]
  cases pset <;> simp

/-! ## Rows of several lanes -/

section
variable (core : Nat) (pset : Bool) (at' : Nat → Nat) (bytes : Nat → List Byte)

/-- The core after the rows of some lanes, in their order. -/
def storeRows (ls : List Nat) (c : Core) : Core := ls.foldl (fun c l => storeRow core pset (at' l) (bytes l) c) c

theorem storeRows_append (ls : List Nat) (l : Nat) (c : Core) :
    storeRows core pset at' bytes (ls ++ [l]) c = storeRow core pset (at' l) (bytes l) (storeRows core pset at' bytes ls c) := by
  rw [storeRows, List.foldl_append, List.foldl_cons, List.foldl_nil, ← storeRows]

theorem storeRows_slots (ls : List Nat) (c : Core) : (storeRows core pset at' bytes ls c).slots = c.slots := by
  induction ls using List.reverseRecOn with
  | nil => rfl
  | append_singleton ls l ih => rw [storeRows_append, storeRow_eq]; exact ih

variable {n : Nat} (len : ∀ l, (bytes l).length = n)
include len

/-- A byte of the scratchpad: of the last row that covers it. -/
theorem storeRows_spad (ls : List Nat) (c : Core) (y : Nat) :
    mget 0 (storeRows core pset at' bytes ls c).spad y =
      match ls.reverse.find? fun l => decide (at' l ≤ y) && decide (y < at' l + n) with
      | some l => listGet 0 (bytes l) (y - at' l)
      | none => mget 0 c.spad y := by
  induction ls using List.reverseRecOn with
  | nil => rfl
  | append_singleton ls l ih =>
    rw [storeRows_append, storeRow_eq, wrSpad_spad, len, List.reverse_append, List.reverse_singleton, List.singleton_append, List.find?_cons]
    by_cases here : at' l ≤ y ∧ y < at' l + n
    · simp [here]
    · have : (decide (at' l ≤ y) && decide (y < at' l + n)) = false := by simpa using here
      rw [if_neg here, this, ih]

theorem mem_storeRows_absent (pos : 0 < n) (ls : List Nat) (c : Core) (line : Nat) :
    line ∈ (storeRows core pset at' bytes ls c).absent ↔ line ∈ c.absent ∧
      ¬(pset = true ∧ ∃ l ∈ ls, 128 * line < at' l + n ∧ at' l < 128 * line + 128) := by
  induction ls using List.reverseRecOn with
  | nil => simp [storeRows]
  | append_singleton ls l ih =>
    rw [storeRows_append, mem_storeRow_absent (len l ▸ pos), ih, len]
    simp only [List.mem_append, List.mem_singleton, or_and_right, exists_or, exists_eq_left]
    rw [and_assoc, ← not_or, ← and_or_left]

end

/-! ## The length of a row -/

theorem mstBytes_length (f : MstFmt) (mode : RMode) (sat : Bool) (draw : Nat → Nat) (block xs : List FV) :
    (mstBytes f mode sat draw block xs).length = mstLen f xs.length := by
  rw [mstBytes, mstLen]
  cases f.blocked
  · simp [List.length_flatMap]
  · simp

theorem rowBytes_eq (f : MstFmt) (n : Nat) : rowBytes f n = mstLen f n := by
  rw [rowBytes, mstLen, storedEmax_eq, storedFmt_eq]
  cases f.blocked <;> simp

theorem mstLen_pos (f : MstFmt) {n : Nat} (h : 0 < n) : 0 < mstLen f n := by
  have : 0 < (mstNum f).width / 8 ∨ f.blocked = true := by cases f <;> decide
  rw [mstLen]
  split
  · omega
  · next plain => exact Nat.mul_pos h (this.resolve_right plain)

end Sys2Proof.Machine

namespace Sys2Proof.Claim
open Sys2Proof Sys2Proof.Machine Sys2Proof.Laws

/-- `s1` is `s` in which the core has become `c`, with the same waves. -/
structure CoreOnly (s : State) (core : Nat) (c : Core) (s1 : State) : Prop where
  focus : s1.focus = s.focus
  waves : ∀ i k, s1.wave? i k = s.wave? i k
  cores : ∀ i, s1.core i = if i = core then c else s.core i
  mem   : s1.mem = s.mem
  slots : s1.slots = s.slots

section
variable {s : State} {core slot : Nat} {w : Wave}

theorem CoreOnly.step {c : Core} {s1 : State} (h : CoreOnly s core c s1) (g : Core → Core) (keep : (g c).slots = c.slots) :
    CoreOnly s core (g c) (s1.modCore core g) := by
  have here : s1.core core = c := (h.cores core).trans (if_pos rfl)
  refine ⟨h.focus, fun i k => ?_, fun i => ?_, h.mem, h.slots⟩
  · rw [wave_modCore _ _ _ _ _ (by rw [here]; exact keep), h.waves]
  · rw [core_modCore, h.cores]
    by_cases e : i = core
    · subst e
      rw [if_pos rfl, if_pos rfl, if_pos rfl]
    · rw [if_neg e, if_neg e, h.cores, if_neg e]

variable (h : Runs s core slot w)
include h

/-- Rows stored one after the other. -/
theorem Runs.storeRows_core (pset : Bool) (at' : Nat → Nat) (bytes : Nat → List Byte) (ls : List Nat) :
    CoreOnly s core (storeRows core pset at' bytes ls (s.core core))
      (ls.foldl (fun s l => s.modCore s.cur (storeRow s.cur pset (at' l) (bytes l))) s) := by
  induction ls using List.reverseRecOn with
  | nil => exact ⟨rfl, fun _ _ => rfl, fun i => by split <;> simp_all [storeRows], rfl, rfl⟩
  | append_singleton ls l ih =>
    rw [storeRows_append, List.foldl_append, List.foldl_cons, List.foldl_nil]
    have cur (s1 : State) (same : s1.focus = s.focus) : s1.cur = core := by rw [State.cur, same, h.unit]
    rw [cur _ ih.focus]
    exact ih.step _ (by rw [storeRow_eq])

/-- The end of an instruction that has rewritten the core. -/
theorem Runs.finish_core {c : Core} {s1 : State} (k : CoreOnly s core c s1) (rbf : Bool) :
    KeepsWave s (s1.finishWave rbf 0) core slot w rbf ∧ (s1.finishWave rbf 0).mem = s.mem ∧ (s1.finishWave rbf 0).slots = s.slots ∧
    ∀ i, ((s1.finishWave rbf 0).core i).spad = (if i = core then c else s.core i).spad ∧
      ((s1.finishWave rbf 0).core i).absent = (if i = core then c else s.core i).absent := by
  obtain ⟨⟨u, hu, went⟩, -, cores, rest⟩ := h.finish k.focus ((k.waves core slot).trans h.here) rfl rbf 0
  have next : behind s1 = behind s := by rw [behind, behind, k.focus]
  rw [k.focus, next] at went
  have seqs : u.seqs = w.seqs := went.same.seqs
  refine ⟨⟨u, hu, ?_⟩, (congrArg State.mem rest : _).trans k.mem, (congrArg State.slots rest : _).trans k.slots, fun i => ?_⟩
  · rw [seqs]
    exact went
  · rw [← k.cores i]
    exact ⟨(congrArg Core.spad (cores i) : _), (congrArg Core.absent (cores i) : _)⟩

end

/-! # `mst` (R295, R296) -/

/-- Where a lane stores its row. -/
def mstAt (w : Wave) (sB : SReg) (vI : Src) (sR : SReg) (l : Nat) : Nat := (w.scal false sB + w.src false vI l * w.scal false sR) % 2 ^ 32

/-- The accumulators of a lane. -/
def mstVals (w : Wave) (sf64 : Bool) (r n l : Nat) : List Nat :=
  (List.range n).map fun j => if sf64 then (w.vpair (r + 2 * j) l).toNat else (w.vreg (r + j) l).toNat

/-- The draw of an element. -/
def mstDraw (w : Wave) (rm : RMode) (ve : Src) (sb l j : Nat) : Nat :=
  if rm = .sr then drawRound (w.sreg sb).toNat (w.sreg (sb + 1)).toNat ((w.src true ve l + j) % 2 ^ 64) (w.sreg (sb + 2)).toNat else 0

def mstSource (sf64 : Bool) : NumFmt := if sf64 then fF64 else fF32

/-- The values under the scale of a lane's row. -/
def mstBlock (w : Wave) (sf64 sq : Bool) (r n l : Nat) : List Nat :=
  if sq then (List.range 32).flatMap (mstVals w sf64 r n) else mstVals w sf64 r n l

/-- The bytes that a lane stores. -/
def mstRow (w : Wave) (f : MstFmt) (sf64 sq : Bool) (rm : RMode) (sat : Bool) (r n : Nat) (ve : Src) (sb l : Nat) : List Byte :=
  mstBytes f rm sat (mstDraw w rm ve sb l) ((mstBlock w sf64 sq r n l).map (mstSource sf64).decode)
    ((mstVals w sf64 r n l).map (mstSource sf64).decode)

/-- The accumulators of a lane, read exactly. -/
def mstRead (w : Wave) (sf64 : Bool) (r n l : Nat) : List FV :=
  (List.range n).map fun j => if sf64 then fF64.decode (w.vpair (r + 2 * j) l).toNat else fF32.decode (w.vreg (r + j) l).toNat

theorem mstVals_decode (w : Wave) (sf64 : Bool) (r n l : Nat) : (mstVals w sf64 r n l).map (mstSource sf64).decode = mstRead w sf64 r n l := by
  rw [mstVals, mstRead, List.map_map]
  cases sf64 <;> rfl

theorem mstRow_eq (w : Wave) (f : MstFmt) (sf64 sq : Bool) (rm : RMode) (sat : Bool) (r n : Nat) (ve : Src) (sb l : Nat) {act : Mask}
    (all : sq = true → act = fullMask) :
    mstRow w f sf64 sq rm sat r n ve sb l = mstBytes f rm sat (mstDraw w rm ve sb l)
      (if sq then if sq then (lanesOf act).flatMap (mstRead w sf64 r n) else [] else mstRead w sf64 r n l) (mstRead w sf64 r n l) := by
  have lanes : lanesOf fullMask = List.range 32 := by decide
  rw [mstRow, mstVals_decode, mstBlock]
  cases sq
  · simp [mstVals_decode]
  · simp [all rfl, lanes, List.map_flatMap, mstVals_decode]

/-- Why a lane stores nothing. -/
def mstBad (w : Wave) (f : MstFmt) (n size : Nat) (sB : SReg) (vI : Src) (sR : SReg) (l : Nat) : Option Nat :=
  if !f.blocked && mstAt w sB vI sR l % ((mstNum f).width / 8) != 0 then some 3
  else if mstAt w sB vI sR l + mstLen f n > size then some 4 else none

theorem mstBad_none {w : Wave} {f : MstFmt} {n size : Nat} {sB : SReg} {vI : Src} {sR : SReg} {l : Nat}
    (aligned : f.blocked = false → mstAt w sB vI sR l % ((mstNum f).width / 8) = 0) (inside : mstAt w sB vI sR l + mstLen f n ≤ size) :
    mstBad w f n size sB vI sR l = none := by
  have : (!f.blocked && mstAt w sB vI sR l % ((mstNum f).width / 8) != 0) = false := by
    cases blocked : f.blocked
    · simpa using aligned blocked
    · rfl
  rw [mstBad, if_neg (Bool.not_eq_true _ ▸ this), if_neg (not_lt.mpr inside)]

/-- A fold over lanes of which none is held. -/
theorem foldl_unheld {bad : Nat → Option Nat} {ls : List Nat} (good : ∀ l ∈ ls, bad l = none) (sq : Bool) (g : State → Nat → State) (s : State) :
    ls.foldl (fun s l => match bad l with
      | some k => s.hold (laneMask l) k 0 0 0
      | none => if (sq && ls.any fun l => (bad l).isSome) = true then s else g s l) s = ls.foldl g s := by
  have none' : ls.any (fun l => (bad l).isSome) = false := by
    rw [List.any_eq_false]
    intro l hl
    simp [good l hl]
  refine List.foldl_ext _ _ _ fun s1 l hl => ?_
  rw [good l hl, none', Bool.and_false]
  rfl

/-- `mst` where no lane faults. -/
theorem Runs.mst_exec {s : State} {core slot : Nat} {w : Wave} {a : Alloc} (h : Runs s core slot w) (handler : w.handler = none)
    (alloc : (s.core core).alloc w.lid = some a) {c : Ctl} (one : s.actSets c.guard = [s.active c.guard])
    (f : MstFmt) (sf64 sq : Bool) (rm : RMode) (sat pset : Bool) (sB : SReg) (vI : Src) (sR : SReg) (vC : BitVec 5) (cnt : BitVec 2) (ve : Src)
    (sb : SReg) (all : sq = true → s.active c.guard = fullMask)
    (fine : ∀ l ∈ lanesOf (s.active c.guard), (f.blocked = false → mstAt w sB vI sR l % ((mstNum f).width / 8) = 0) ∧
      mstAt w sB vI sR l + mstLen f (8 * (cnt.toNat + 1)) ≤ 128 * a.lines) :
    exec (.mst c f sf64 sq rm sat pset sB vI sR vC cnt ve sb) s = .next (((lanesOf (s.active c.guard)).foldl (fun s l =>
      s.modCore s.cur (storeRow s.cur pset (128 * a.base + mstAt w sB vI sR l)
        (mstRow w f sf64 sq rm sat (8 * vC.toNat) (8 * (cnt.toNat + 1)) ve sb.toNat l))) s).finishWave c.rbf 0) := by
  rw [exec_mst, execMst, onWave_wave h.unit, one, List.foldl_cons, List.foldl_nil]
  have goes : ¬(sq && s.active c.guard != fullMask) = true := by
    cases sq
    · exact Bool.false_ne_true
    · simp [all rfl]
  have draw (l : Nat) : mstDraw w rm ve sb.toNat l = fun j => match rm with
      | .sr => drawRound (w.sreg sb.toNat).toNat (w.sreg (sb.toNat + 1)).toNat ((w.src true ve l + j) % 2 ^ 64) (w.sreg (sb.toNat + 2)).toNat
      | _ => 0 := by
    cases rm <;> rfl
  simp only [h.spadBase handler alloc, Option.getD_some, h.w, if_neg goes]
  have fold := foldl_unheld (fun l hl => mstBad_none (fine l hl).1 (fine l hl).2) sq (fun s l => s.modCore s.cur (storeRow s.cur pset
    (128 * a.base + mstAt w sB vI sR l) (mstRow w f sf64 sq rm sat (8 * vC.toNat) (8 * (cnt.toNat + 1)) ve sb.toNat l))) s
  rw [← fold]
  simp only [mstRow_eq w f sf64 sq rm sat _ _ ve sb.toNat _ all, draw]
  rfl

end Sys2Proof.Claim

namespace Sys2Proof.Claim
open Sys2Proof Sys2Proof.Machine

theorem mstSource_proper (sf64 : Bool) : (mstSource sf64).Proper := by
  cases sf64
  · exact arith_f32.toProper
  · exact arith_f64.toProper

theorem mstVals_lt (w : Wave) (sf64 : Bool) (r n l : Nat) : ∀ x ∈ mstVals w sf64 r n l, x < 2 ^ (mstSource sf64).width := by
  intro x hx
  obtain ⟨j, -, rfl⟩ := List.mem_map.mp hx
  cases sf64 <;> exact BitVec.isLt _

/-- A lane's row is what its values give. -/
theorem mstRow_stored (w : Wave) (f : MstFmt) (sf64 sq : Bool) (rm : RMode) (sat : Bool) (r : Nat) {n : Nat} (ve : Src) (sb : Nat) {l : Nat} (hl : l < 32)
    (full : f.blocked = true → n = 32) :
    RowStored f (mstSource sf64) rm sat (mstDraw w rm ve sb l) (mstBlock w sf64 sq r n l) (mstVals w sf64 r n l)
      (listGet 0 (mstRow w f sf64 sq rm sat r n ve sb l)) := by
  refine mstBytes_stored (mstSource_proper sf64) f rm sat _ (fun x hx => ?_) (mstVals_lt w sf64 r n l) (fun x hx => ?_) fun blocked => ?_
  · cases sq
    · exact mstVals_lt w sf64 r n l x hx
    · obtain ⟨i, -, hi⟩ := List.mem_flatMap.mp hx
      exact mstVals_lt w sf64 r n i x hi
  · cases sq
    · exact hx
    · exact List.mem_flatMap.mpr ⟨l, List.mem_range.mpr hl, hx⟩
  · simpa [mstVals] using full blocked

/-- Settles O38: without a fault the rows are stored one after the other (`Runs.mst_exec`, `storeRows_spad`), each as `mstRow_stored` says. -/
theorem matrixStores : Obligations.MatrixStores := by
  unfold Obligations.MatrixStores
  intro c f sf64 sq rm sat pset sB vI sR vC cnt ve sb s core slot w a h handler alloc one all four n at' vals draw fine
  have plain : storedEmax f = none ↔ f.blocked = false := by rw [storedEmax_eq]; cases f.blocked <;> simp
  have len (l : Nat) : (mstRow w f sf64 sq rm sat (8 * vC.toNat) n ve sb.toNat l).length = mstLen f n := by
    rw [mstRow, mstBytes_length, List.length_map, mstVals, List.length_map, List.length_range]
  have full : f.blocked = true → n = 32 := fun blocked => by
    have := four (plain.not.mpr (by simp [blocked]))
    simp [n, this]
  rw [rowBytes_eq] at fine ⊢
  have exec := h.mst_exec handler alloc one f sf64 sq rm sat pset sB vI sR vC cnt ve sb all fun l hl =>
    ⟨fun blocked => by rw [← storedFmt_eq]; exact (fine l hl).1 (plain.mpr blocked), (fine l hl).2⟩
  obtain ⟨keeps, mem, slots, cores⟩ := h.finish_core (h.storeRows_core pset (fun l => 128 * a.base + mstAt w sB vI sR l)
    (mstRow w f sf64 sq rm sat (8 * vC.toNat) n ve sb.toNat) (lanesOf (s.active c.guard))) c.rbf
  obtain ⟨spad, absent⟩ := cores core
  rw [if_pos rfl] at spad absent
  refine ⟨_, fun l => listGet 0 (mstRow w f sf64 sq rm sat (8 * vC.toNat) n ve sb.toNat l), exec, keeps, mem, slots, fun i ne => ?_, fun l hl => ?_,
    fun y => ?_, fun line => ?_⟩
  · have := cores i
    rwa [if_neg ne] at this
  · exact mstRow_stored w f sf64 sq rm sat _ ve _ ((mem_lanesOf _ l).mp hl).1 full
  · rw [spad]
    exact storeRows_spad _ _ _ _ len ..
  · rw [absent]
    exact mem_storeRows_absent _ _ _ _ len (mstLen_pos f (by omega)) ..

end Sys2Proof.Claim

namespace Sys2Proof.Claim
open Sys2Proof Sys2Proof.Machine Sys2Proof.Tests

/-! # Why `CollectiveEvents` (O47) is not settled: the free bit decides it (R71, R74, R395)

The statement says of a destination that no sector of it begins an entry of the tables on the way to it. The root of a slot is any number: where
it is not a multiple of 8, an entry can begin in the sector before the destination and end in the destination. The first sector that the engine
writes then changes the entry, and the next sector is translated by the leaf that the TLB still holds, which is right, or by the tables, which
now fault, as the free bit `Config.freeBit` says. That bit is opaque. Where it is false the statement fails, by the state below; where it is
true this state does not refute it. -/

/-- The tables of slot 0 with a second root entry, of which the last five bytes lie in the sector at `0x30020`. -/
def skewedTables : List Host.Cell := wrNum tables 0x3001D 8 (rdNum tables 0x1000 8)

/-- 64 bytes of a result are still to be written at `0x30020`. -/
def skewedPend : CollPend := ⟨7, 1, 0, 0, 2, 0, 0, [(0x30020, List.replicate 64 1)]⟩
def skewedComm : Comm := { comm1 with pend := [skewedPend] }
def skewed : State := { engaged skewedComm with mem := skewedTables, slots := [(0, ASlot.fresh 0x3001D true 0)] }

theorem skewed_storable : Storable skewed 0 0 0x30020 64 leaf3 :=
  storable_of (mapped_of rfl rfl (by decide +kernel)) (by decide) (by decide +kernel)

/-- At the first sector, and after it. -/
def skewedReached : State := (skewed.engAt 0 0 0x30020 .store).1
def skewedFirst : State := (skewedReached.tokHome 0x30020).physStore 0x30020 (List.replicate 32 1)

/-- At the walk for the second one. -/
def skewedSecond : State := (State.walkIn { skewedFirst with fresh := 1 } 0 0 0x30040).1

def skewedCtx : PartCtx := ⟨.dst 7, 0, 0, 0, false⟩

/-- The address in bonded DRAM at which a sector lies. -/
def dramOf : EngAt → Option Nat
  | .dram pa => some pa
  | _ => none

theorem eq_dram_of_dramOf {x : EngAt} {pa : Nat} (h : dramOf x = some pa) : x = .dram pa := by
  match x, h with
  | .dram _, rfl => rfl

theorem eq_mk_of_snd {α β : Type} {p : α × β} {b : β} (h : p.2 = b) : p = (p.1, b) := by
  rw [← h]

theorem skewed_first : skewed.engAt 0 0 0x30020 .store = (skewedReached, .dram 0x30020) :=
  eq_mk_of_snd (eq_dram_of_dramOf (by decide +kernel))

theorem skewed_lookup (h : Config.freeBit 0 = false) : skewedFirst.lookup 0 0 0x30040 = (skewedSecond, .fault 2) := by
  have older : ((skewedFirst.cluster (coreCluster 0)).tlb.filter fun e => e.covers 0 (skewedFirst.genOf 0) 0x30040).filter
      (fun e => !e.same (skewedFirst.walk 0 0x30040)) = [⟨0, 3, 0, BitVec.ofNat 64 leaf3.pte, 0, leaf3.ent⟩] := by decide +kernel
  have none' : ((skewedFirst.cluster (coreCluster 0)).tlb.filter fun e => e.covers 0 (skewedFirst.genOf 0) 0x30040).any
      (fun e => e.same (skewedFirst.walk 0 0x30040)) = false := by decide +kernel
  have start : skewedFirst.fresh = 0 := by decide +kernel
  have faults : (State.walkIn { skewedFirst with fresh := 1 } 0 0 0x30040).2 = .fault 2 := by decide +kernel
  rw [State.lookup]
  simp only [older, none', State.pickOld, State.draw, start, h, Bool.false_eq_true, if_false]
  exact eq_mk_of_snd faults

theorem skewed_second (h : Config.freeBit 0 = false) : skewedFirst.engAt 0 0 0x30040 .store = (skewedSecond, .fault) := by
  rw [State.engAt, if_neg (by decide), State.translate, skewed_lookup h]

theorem skewed_writes (h : Config.freeBit 0 = false) : State.engPieces skewedCtx [(0x30020, List.replicate 64 1)] skewed =
    (skewedSecond, .fault, [(0x30040, List.replicate 32 1)]) := by
  have two : State.engWrite skewedCtx 64 0x30040 (List.replicate 32 1) skewedFirst = (skewedSecond, .fault, (0x30040, List.replicate 32 1)) := by
    rw [State.engWrite, if_neg (by decide)]
    simp only [skewedCtx, skewed_second h]
  have one : State.engWrite skewedCtx 65 0x30020 (List.replicate 64 1) skewed = State.engWrite skewedCtx 64 0x30040 (List.replicate 32 1) skewedFirst := by
    rw [State.engWrite, if_neg (by decide)]
    simp only [skewedCtx, skewed_first]
    rfl
  rw [State.engPieces, List.length_replicate, one, two]

theorem skewed_turn (h : Config.freeBit 0 = false) :
    exec (.engineChunk 0) skewed = .next ((skewedSecond.pendOver 0 0 skewedPend true).served' 0 0 0) := by
  have work : ((List.range 8).flatMap fun i => (skewed.engOrder 0 (((listGet ⟨0, []⟩ skewed.engines 0).vc + i) % 8)).map fun x =>
      (((listGet ⟨0, []⟩ skewed.engines 0).vc + i) % 8, x)) = [(0, 0, skewedComm, .write skewedPend)] := rfl
  have cut : cutPieces (4096 - skewedPend.out % 4096) skewedPend.left = (skewedPend.left, []) := rfl
  have chunk : skewed.writeChunk 0 skewedComm skewedPend = (skewedSecond.pendOver 0 0 skewedPend true, true) := by
    have writes := skewed_writes h
    rw [State.writeChunk, cut]
    simp only [skewedCtx, skewedPend] at writes ⊢
    simp only [show skewedComm.eng = 0 from rfl, show skewedComm.aslot = 0 from rfl, writes]
  rw [exec_engineChunk, execEngineChunk]
  dsimp only
  rw [work, State.serveChunk, State.chunk, chunk]

/-- Where the free bit is false, a destination that meets every hypothesis of the statement is not written: its second sector stays. -/
theorem skewed_unwritten (h : Config.freeBit 0 = false) :
    ∃ t, exec (.engineChunk 0) skewed = .next t ∧ ¬ MemWritten skewed t (leaf3.pa 0x30020) (List.replicate 64 1) := by
  refine ⟨_, skewed_turn h, fun written => ?_⟩
  have stays : rdByte ((skewedSecond.pendOver 0 0 skewedPend true).served' 0 0 0).mem 0x30040 = 0 := by decide +kernel
  have one := written 0x30040
  rw [stays] at one
  exact absurd one (by decide +kernel)

end Sys2Proof.Claim
